-- ==== Sys2Proof/Word.lean ====
section
/-! DEFINITION. The words of the Lorox X9 (R7, R105): 32-bit lane and scalar words, bytes, addresses, and
the lane set of a team (R31), with the plainest arithmetic on them. -/

namespace Sys2Proof

/-- A 32-bit word: one lane of a vector register, one scalar register, one instruction word. -/
abbrev Word := BitVec 32

/-- One byte of memory. -/
abbrev Byte := BitVec 8

/-- A 64-bit quantity: an address, a pair of scalar registers, a host register (R7: the low half is at
the lower register). -/
abbrev DWord := BitVec 64

/-- A set of lanes: lane `L` is bit `L`, so bits `32w+31 .. 32w` are mask word `w` (R31). A mask and a
predicate register are both one of these. -/
abbrev LaneSet := BitVec 1024

/-- Little-endian bytes of a number, `n` of them (R7). -/
def leBytes : Nat → Nat → List Byte
  | 0, _ => []
  | n + 1, x => BitVec.ofNat 8 x :: leBytes n (x / 256)

/-- The number that little-endian bytes hold (R7). -/
def ofLeBytes : List Byte → Nat
  | [] => 0
  | b :: bs => b.toNat + 256 * ofLeBytes bs

/-- The 64-bit value of a scalar pair, low half in the lower register (R7). -/
def pairOf (lo hi : Word) : DWord := hi ++ lo

/-- The low half of a 64-bit value. -/
def loHalf (x : DWord) : Word := x.extractLsb' 0 32

/-- The high half of a 64-bit value. -/
def hiHalf (x : DWord) : Word := x.extractLsb' 32 32

/-- Bits `lo` upward of a number, `n` of them: the field notation `[lo+n-1:lo]` of R7. -/
def bitsOf (x lo n : Nat) : Nat := (x >>> lo) % 2 ^ n

/-- The signed value of the low `n` bits of a number. -/
def signedOf (n x : Nat) : Int :=
  if 2 * (x % 2 ^ n) < 2 ^ n then ((x % 2 ^ n : Nat) : Int) else ((x % 2 ^ n : Nat) : Int) - ((2 ^ n : Nat) : Int)

end Sys2Proof
end

