-- ==== Sys2Proof/Syntax/Fields.lean ====
section
/-! DEFINITION. The operand fields of an instruction, one record for each shape of the opcode map (R63, R74).
A vector register number has 6 bits, a scalar register number 5, a scalar pair `x k` 4 (R64), a guard 3 with
7 meaning unguarded (R65), a predicate 3. `ea` and `eb` are the E-bits (R66). -/

namespace Sys2Proof

/-- Three vector registers under a guard (d v, a v, b v). -/
structure V3 where
  g : BitVec 3
  d : BitVec 6
  a : BitVec 6
  b : BitVec 6
  ea : Bool
  eb : Bool
  deriving DecidableEq, Repr

/-- Two vector registers under a guard (d v, a v). -/
structure V2 where
  g : BitVec 3
  d : BitVec 6
  a : BitVec 6
  ea : Bool
  deriving DecidableEq, Repr

/-- A compare of two vector registers (d c: condition `c`, predicate `p`; R75). -/
structure VCmp where
  g : BitVec 3
  c : BitVec 3
  p : BitVec 3
  a : BitVec 6
  b : BitVec 6
  ea : Bool
  eb : Bool
  deriving DecidableEq, Repr

/-- Three vector registers and a number-format register (majors 0x25, 0x26). -/
structure VN where
  g : BitVec 3
  d : BitVec 6
  a : BitVec 6
  b : BitVec 6
  fr : BitVec 2
  deriving DecidableEq, Repr

/-- NCMP: a compare under a number-format register. -/
structure VNCmp where
  g : BitVec 3
  c : BitVec 3
  p : BitVec 3
  a : BitVec 6
  b : BitVec 6
  fr : BitVec 2
  deriving DecidableEq, Repr

/-- Three predicates under a guard (PLOG). -/
structure P3 where
  g : BitVec 3
  d : BitVec 3
  a : BitVec 3
  b : BitVec 3
  deriving DecidableEq, Repr

/-- SEL: the g field names an operand predicate (R108). -/
structure SelOp where
  p : BitVec 3
  d : BitVec 6
  a : BitVec 6
  b : BitVec 6
  ea : Bool
  eb : Bool
  deriving DecidableEq, Repr

/-- One vector destination under a guard (MOV.SP). -/
structure V1 where
  g : BitVec 3
  d : BitVec 6
  deriving DecidableEq, Repr

/-- The I-form on vector registers. -/
structure VI where
  g : BitVec 3
  d : BitVec 6
  a : BitVec 6
  imm : BitVec 10
  deriving DecidableEq, Repr

/-- MOVI. -/
structure VMovI where
  g : BitVec 3
  d : BitVec 6
  imm : BitVec 10
  deriving DecidableEq, Repr

/-- ICMPI. -/
structure VCmpI where
  g : BitVec 3
  c : BitVec 3
  p : BitVec 3
  a : BitVec 6
  imm : BitVec 10
  deriving DecidableEq, Repr

/-- SHLI, SHRI, SARI: the shift amount is imm10[4:0] (R109). -/
structure VShI where
  g : BitVec 3
  d : BitVec 6
  a : BitVec 6
  k : BitVec 5
  deriving DecidableEq, Repr

/-- Three scalar registers. -/
structure S3 where
  d : BitVec 5
  a : BitVec 5
  b : BitVec 5
  ea : Bool
  eb : Bool
  deriving DecidableEq, Repr

/-- SCMP. -/
structure SCmp where
  c : BitVec 3
  p : BitVec 3
  a : BitVec 5
  b : BitVec 5
  ea : Bool
  eb : Bool
  deriving DecidableEq, Repr

/-- A scalar destination and a scalar source (SMOV, MSKRD, RGET, MRON). -/
structure S2 where
  d : BitVec 5
  a : BitVec 5
  ea : Bool
  deriving DecidableEq, Repr

/-- Two scalar sources (RPUT, HSET, SVREL, MSTS). -/
structure SS where
  a : BitVec 5
  b : BitVec 5
  ea : Bool
  eb : Bool
  deriving DecidableEq, Repr

/-- One scalar source (JMP, CPWAIT, MROFF, HDEM, HPRO, HREL). -/
structure S1 where
  a : BitVec 5
  ea : Bool
  deriving DecidableEq, Repr

/-- One scalar destination (CPSEAL, MSTAT). -/
structure SD where
  d : BitVec 5
  deriving DecidableEq, Repr

/-- V2S. -/
structure V2SOp where
  g : BitVec 3
  d : BitVec 5
  a : BitVec 6
  ea : Bool
  deriving DecidableEq, Repr

/-- S2V. -/
structure S2VOp where
  g : BitVec 3
  d : BitVec 6
  a : BitVec 5
  ea : Bool
  deriving DecidableEq, Repr

/-- SADDI. -/
structure SI where
  d : BitVec 5
  a : BitVec 5
  imm : BitVec 10
  deriving DecidableEq, Repr

/-- SMOVI; SRD and SWR, whose `imm` is the special register's number (R80). -/
structure SMovI where
  r : BitVec 5
  imm : BitVec 10
  deriving DecidableEq, Repr

/-- CVT: input and output slot (R81). -/
structure CvtOp where
  g : BitVec 3
  d : BitVec 6
  a : BitVec 6
  ea : Bool
  fin : BitVec 3
  fout : BitVec 3
  deriving DecidableEq, Repr

/-- CVTN: format register and direction, `f32` true for `.F32` (R81). -/
structure CvtnOp where
  g : BitVec 3
  d : BitVec 6
  a : BitVec 6
  ea : Bool
  fr : BitVec 2
  f32 : Bool
  deriving DecidableEq, Repr

/-- FRW. -/
structure FrwOp where
  fr : BitVec 2
  a : BitVec 5
  ea : Bool
  deriving DecidableEq, Repr

/-- VOTE.ANY, VOTE.ALL. -/
structure VoteOp where
  g : BitVec 3
  d : BitVec 3
  a : BitVec 3
  deriving DecidableEq, Repr

/-- VOTE.BAL. -/
structure VoteBalOp where
  g : BitVec 3
  d : BitVec 5
  a : BitVec 3
  deriving DecidableEq, Repr

/-- A guard and a predicate destination (ELECT). -/
structure GP where
  g : BitVec 3
  d : BitVec 3
  deriving DecidableEq, Repr

/-- BR, BR.ALL. -/
structure BrOp where
  g : BitVec 3
  off : BitVec 22
  deriving DecidableEq, Repr

/-- CALL. -/
structure CallOp where
  off : BitVec 22
  deriving DecidableEq, Repr

/-- A guard alone (EXIT, BRK), or IF's operand predicate. -/
structure GOnly where
  g : BitVec 3
  deriving DecidableEq, Repr

/-- LOOP: count register and body length. -/
structure LoopOp where
  a : BitVec 5
  len : BitVec 10
  deriving DecidableEq, Repr

/-- LD, ST: data, offset register, base pair, width, reuse-distance class. -/
structure MemOp where
  g : BitVec 3
  d : BitVec 6
  a : BitVec 6
  s : BitVec 4
  w : BitVec 3
  cls : BitVec 2
  deriving DecidableEq, Repr

/-- LDS, STS: the base is one scalar. -/
structure SpOp where
  g : BitVec 3
  d : BitVec 6
  a : BitVec 6
  s : BitVec 5
  w : BitVec 3
  deriving DecidableEq, Repr

/-- LDT, STT: `sp` is mod[3], `pk` is mod[2] (R77). -/
structure TensorOp where
  g : BitVec 3
  d : BitVec 6
  c : BitVec 5
  sh : BitVec 3
  n : BitVec 3
  sp : Bool
  pk : Bool
  cls : BitVec 2
  deriving DecidableEq, Repr

/-- CPT. -/
structure CptOp where
  d : BitVec 5
  c : BitVec 5
  sh : BitVec 3
  n : BitVec 3
  out : Bool
  cls : BitVec 2
  deriving DecidableEq, Repr

/-- WAITC: path of R79 and threshold register. -/
structure WaitcOp where
  path : BitVec 3
  a : BitVec 5
  ea : Bool
  deriving DecidableEq, Repr

/-- PREF. -/
structure PrefOp where
  g : BitVec 3
  a : BitVec 6
  s : BitVec 4
  cls : BitVec 2
  deriving DecidableEq, Repr

/-- SHSET: the offset is a multiple of 32, so imm10[4:0] is zero and `off` is imm10[9:5]. -/
structure ShsetOp where
  sh : BitVec 3
  a : BitVec 5
  off : BitVec 5
  deriving DecidableEq, Repr

/-- PHASE: kind and scope (R78). -/
structure PhaseOp where
  kind : BitVec 2
  scope : BitVec 2
  deriving DecidableEq, Repr

/-- BAR: `.RLX`, `.ARV` and scope (R78). -/
structure BarOp where
  rlx : Bool
  arv : Bool
  scope : BitVec 2
  deriving DecidableEq, Repr

/-- A base pair and a scalar (CLEANR, INVR, FLUSHR, SYNCI, TLBINV, MRLD, MRST). -/
structure RangeOp where
  a : BitVec 4
  b : BitVec 5
  eb : Bool
  deriving DecidableEq, Repr

/-- MMA (R244): tile, a0 scalar, B base register, slots, overwrite, and the two low bits. -/
structure MmaOp where
  g : BitVec 3
  t : BitVec 2
  sa : BitVec 5
  vb : BitVec 6
  fa : BitVec 3
  fb : BitVec 3
  z : Bool
  low : BitVec 2
  deriving DecidableEq, Repr

/-- MZERO. -/
structure MzeroOp where
  t : BitVec 2
  deriving DecidableEq, Repr

/-- MRD. -/
structure MrdOp where
  g : BitVec 3
  d : BitVec 6
  a : BitVec 5
  ea : Bool
  deriving DecidableEq, Repr

/-- AOP: `u` is wm[2]. -/
structure AopOp where
  g : BitVec 3
  d : BitVec 6
  a : BitVec 6
  s : BitVec 4
  u : Bool
  deriving DecidableEq, Repr

/-- CALLM: object index register and method. -/
structure CallmOp where
  g : BitVec 3
  d : BitVec 6
  a : BitVec 6
  m : BitVec 6
  deriving DecidableEq, Repr

/-- CBATCH: argument register and first scalar divided by 4. -/
structure CbatchOp where
  d : BitVec 6
  a : BitVec 3
  deriving DecidableEq, Repr

/-- CREPLY. -/
structure CreplyOp where
  a : BitVec 6
  b : BitVec 6
  ea : Bool
  eb : Bool
  deriving DecidableEq, Repr

/-- TWAIT: time scalar, offset register, base pair, predicate. -/
structure TwaitOp where
  g : BitVec 3
  d : BitVec 5
  a : BitVec 6
  s : BitVec 4
  p : BitVec 3
  deriving DecidableEq, Repr

/-- MREG: class scalar and table pair. -/
structure MregOp where
  a : BitVec 5
  b : BitVec 4
  ea : Bool
  deriving DecidableEq, Repr

/-- One scalar pair (LAUNCH, POSTC). -/
structure X1 where
  a : BitVec 4
  deriving DecidableEq, Repr

/-- GX, SX: element size `w`, 0 to 4 (R76). -/
structure GxOp where
  g : BitVec 3
  d : BitVec 6
  a : BitVec 6
  s : BitVec 4
  w : BitVec 3
  deriving DecidableEq, Repr

/-- MROP: operation of R82. -/
structure MropOp where
  op : BitVec 3
  a : BitVec 5
  b : BitVec 5
  ea : Bool
  eb : Bool
  deriving DecidableEq, Repr

/-- MRADD, MRMUL: `k` is k − 1 (R82). -/
structure MrkOp where
  k : BitVec 5
  a : BitVec 5
  b : BitVec 5
  ea : Bool
  eb : Bool
  deriving DecidableEq, Repr

/-- MRCMP: `lt` is d[21]. -/
structure MrcmpOp where
  lt : Bool
  k : BitVec 5
  a : BitVec 5
  b : BitVec 5
  ea : Bool
  eb : Bool
  deriving DecidableEq, Repr

/-- HOLD. -/
structure HoldOp where
  d : BitVec 5
  a : BitVec 4
  b : BitVec 5
  eb : Bool
  deriving DecidableEq, Repr

/-- IGBIND: status scalar, tableau pair, problem pair. -/
structure IgbindOp where
  d : BitVec 5
  a : BitVec 4
  b : BitVec 4
  deriving DecidableEq, Repr

/-- IGRET: kind of R82. -/
structure IgretOp where
  kind : BitVec 3
  deriving DecidableEq, Repr

/-- IGQ: `t` true for `.T`, false for `.TH`. -/
structure IgqOp where
  g : BitVec 3
  d : BitVec 6
  a : BitVec 6
  t : Bool
  ea : Bool
  deriving DecidableEq, Repr

/-- IGRD: field of R82. -/
structure IgrdOp where
  g : BitVec 3
  d : BitVec 6
  f : BitVec 3
  deriving DecidableEq, Repr

/-- IGWR. -/
structure IgwrOp where
  g : BitVec 3
  a : BitVec 6
  f : BitVec 3
  ea : Bool
  deriving DecidableEq, Repr

/-- SVPUT, SVGET: vector data and tag or numbers, scalar stream word. -/
structure SvOp where
  g : BitVec 3
  d : BitVec 6
  a : BitVec 6
  b : BitVec 5
  ea : Bool
  eb : Bool
  deriving DecidableEq, Repr

/-- TRAPS. -/
structure TrapsOp where
  g : BitVec 3
  a : BitVec 5
  ea : Bool
  deriving DecidableEq, Repr

/-- HIMM: payload, bits [31:10] of the next immediate (R69). -/
structure HimmOp where
  v : BitVec 22
  deriving DecidableEq, Repr

/-- HSCHED: L2P, BURST, SPACE (R70). -/
structure HschedOp where
  l2p : BitVec 2
  burst : Bool
  space : BitVec 3
  deriving DecidableEq, Repr

/-- HMOD: RND, DW, U, SAT, L1, NA (R71). -/
structure HmodOp where
  rnd : BitVec 3
  dw : Bool
  u : Bool
  sat : Bool
  l1 : BitVec 2
  na : Bool
  deriving DecidableEq, Repr

/-- The stratum LD and ST: registers below 16, no base, no class (R321). -/
structure StrMem where
  g : BitVec 3
  d : BitVec 4
  a : BitVec 4
  w : BitVec 3
  deriving DecidableEq, Repr

/-- The stratum LOOP: the count is lane 0 of a vector register (R321). -/
structure StrLoop where
  a : BitVec 4
  len : BitVec 10
  deriving DecidableEq, Repr

end Sys2Proof
end

