-- ==== Sys2Proof/Syntax.lean ====
section
/-! DEFINITION. The steps of the part (spec/opcode_table.json): every instruction word of the opcode map (R74) with
its operand fields, and every event of the part's other agents. An instruction is fetched and decoded by a team or
a stratum wavefront; an event is taken by the agent it belongs to, and its arguments name the party concerned (a
team by its handle, a graph by its id, a register write by its value). -/

namespace Sys2Proof

/-- One step of the part. -/
inductive Instr where
  /-- IADD (R106): Adds two vector registers lane by lane, modulo 2^32, or with signed saturation under .SAT. -/
  | iadd (o : V3)
  /-- ISUB (R106): Subtracts b from a lane by lane, modulo 2^32, or with signed saturation under .SAT. -/
  | isub (o : V3)
  /-- IABS (R106): Writes the signed absolute value of a in each active lane. -/
  | iabs (o : V2)
  /-- ANDN (R106): Writes a AND NOT b in each active lane. -/
  | andn (o : V3)
  /-- IMIN_S (R106): Writes the signed minimum of a and b. -/
  | iminS (o : V3)
  /-- IMIN_U (R106): Writes the unsigned minimum of a and b. -/
  | iminU (o : V3)
  /-- IMAX_S (R106): Writes the signed maximum of a and b. -/
  | imaxS (o : V3)
  /-- IMAX_U (R106): Writes the unsigned maximum of a and b. -/
  | imaxU (o : V3)
  /-- IMUL_LO (R106): Writes bits [31:0] of a times b. -/
  | imulLo (o : V3)
  /-- IMUL_HI_S (R106): Writes bits [63:32] of the signed 64-bit product. -/
  | imulHiS (o : V3)
  /-- IMUL_HI_U (R106): Writes bits [63:32] of the unsigned 64-bit product. -/
  | imulHiU (o : V3)
  /-- IMAD (R106): Writes bits [31:0] of a times b plus d. -/
  | imad (o : V3)
  /-- AND (R108): Bitwise AND of a and b. -/
  | and (o : V3)
  /-- OR (R108): Bitwise OR of a and b. -/
  | or (o : V3)
  /-- XOR (R108): Bitwise XOR of a and b. -/
  | xor (o : V3)
  /-- SEL (R108): Selects a or b in each mask lane by the predicate that the g field names. -/
  | sel (o : SelOp)
  /-- SHL (R109): Shifts a left by the amount in bits [7:0] of b. -/
  | shl (o : V3)
  /-- SHR (R109): Shifts a right logically by the amount in bits [7:0] of b. -/
  | shr (o : V3)
  /-- SAR (R109): Shifts a right arithmetically by the amount in bits [7:0] of b. -/
  | sar (o : V3)
  /-- ROT (R109): Rotates a left by the amount in b, modulo 32. -/
  | rot (o : V3)
  /-- POPC (R110): Counts the 1 bits of a. -/
  | popc (o : V2)
  /-- CLZ (R110): Counts the leading zero bits of a. -/
  | clz (o : V2)
  /-- BREV (R110): Reverses the bit order of a. -/
  | brev (o : V2)
  /-- BFX_U (R111): Extracts a bit field of a, zero-extended. -/
  | bfxU (o : V3)
  /-- BFX_S (R111): Extracts a bit field of a, sign-extended. -/
  | bfxS (o : V3)
  /-- BFI (R111): Inserts a bit field of a into d. -/
  | bfi (o : V3)
  /-- ICMP_S (R112): Signed compare of two vector registers into a predicate. -/
  | icmpS (o : VCmp)
  /-- ICMP_U (R112): Unsigned compare of two vector registers into a predicate. -/
  | icmpU (o : VCmp)
  /-- PLOG_AND (R113): Predicate AND in the active lanes. -/
  | plogAnd (o : P3)
  /-- PLOG_OR (R113): Predicate OR in the active lanes. -/
  | plogOr (o : P3)
  /-- PLOG_XOR (R113): Predicate XOR in the active lanes. -/
  | plogXor (o : P3)
  /-- PLOG_ANDN (R113): Predicate a AND NOT b in the active lanes. -/
  | plogAndn (o : P3)
  /-- MOV (R114): Copies vector register a into d. -/
  | mov (o : V2)
  /-- MOV_SP (R114): Writes each lane's index (%laneid) into d. -/
  | movSp (o : V1)
  /-- IADDI (R114): Adds an extended immediate to a. -/
  | iaddi (o : VI)
  /-- ANDI (R114): ANDs a with a zero-extended immediate. -/
  | andi (o : VI)
  /-- ORI (R114): ORs a with a zero-extended immediate. -/
  | ori (o : VI)
  /-- XORI (R114): XORs a with a zero-extended immediate. -/
  | xori (o : VI)
  /-- MOVI (R114): Writes an extended immediate into d. -/
  | movi (o : VMovI)
  /-- ICMPI (R112): Compares a with an immediate into a predicate. -/
  | icmpi (o : VCmpI)
  /-- SHLI (R109): Shifts a left by an immediate amount from 0 to 31. -/
  | shli (o : VShI)
  /-- SHRI (R109): Shifts a right logically by an immediate amount. -/
  | shri (o : VShI)
  /-- SARI (R109): Shifts a right arithmetically by an immediate amount. -/
  | sari (o : VShI)
  /-- SADD (R115): Scalar add. -/
  | sadd (o : S3)
  /-- SSUB (R115): Scalar subtract. -/
  | ssub (o : S3)
  /-- SMUL (R115): Writes the low 32 bits of a scalar product. -/
  | smul (o : S3)
  /-- SAND (R115): Scalar bitwise AND. -/
  | sand (o : S3)
  /-- SOR (R115): Scalar bitwise OR. -/
  | sor (o : S3)
  /-- SXOR (R115): Scalar bitwise XOR. -/
  | sxor (o : S3)
  /-- SSHL (R115): Scalar logical shift left. -/
  | sshl (o : S3)
  /-- SSHR (R115): Scalar logical shift right. -/
  | sshr (o : S3)
  /-- SCMP_S (R116): Signed scalar compare that writes a uniform predicate. -/
  | scmpS (o : SCmp)
  /-- SCMP_U (R116): Unsigned scalar compare that writes a uniform predicate. -/
  | scmpU (o : SCmp)
  /-- SMOV (R115): Copies scalar a into scalar d. -/
  | smov (o : S2)
  /-- V2S (R117): Moves the lowest active lane of a vector register into a scalar. -/
  | v2s (o : V2SOp)
  /-- S2V (R117): Broadcasts a scalar into the active lanes of a vector register. -/
  | s2v (o : S2VOp)
  /-- SADDI (R115): Adds an extended immediate to a scalar. -/
  | saddi (o : SI)
  /-- SMOVI (R115): Writes an extended immediate into a scalar. -/
  | smovi (o : SMovI)
  /-- SRD (R118): Reads a special register into a scalar or a scalar pair. -/
  | srd (o : SMovI)
  /-- SWR (R118): Writes a writable special register from a scalar or a scalar pair. -/
  | swr (o : SMovI)
  /-- FADD (R159): FP32 add with one rounding. -/
  | fadd (o : V3)
  /-- FSUB (R159): FP32 subtract with one rounding. -/
  | fsub (o : V3)
  /-- FMUL (R159): FP32 multiply with one rounding. -/
  | fmul (o : V3)
  /-- FFMA (R159): FP32 fused multiply-add a times b plus d. -/
  | ffma (o : V3)
  /-- FMIN (R160): FP32 minimum. -/
  | fmin (o : V3)
  /-- FMAX (R160): FP32 maximum. -/
  | fmax (o : V3)
  /-- FCLASS (R160): Writes a one-hot class word for an FP32 value. -/
  | fclass (o : V2)
  /-- FCMP (R161): Ordered FP32 compare into a predicate. -/
  | fcmp (o : VCmp)
  /-- FCMP_UO (R161): Unordered FP32 compare into a predicate. -/
  | fcmpUo (o : VCmp)
  /-- HADD_BF (R162): Adds BF16 pairs. -/
  | haddBf (o : V3)
  /-- HMUL_BF (R162): Multiplies BF16 pairs. -/
  | hmulBf (o : V3)
  /-- HFMA_BF (R162): Fused multiply-add on BF16 pairs. -/
  | hfmaBf (o : V3)
  /-- HMAX_BF (R162): Maximum of BF16 pairs. -/
  | hmaxBf (o : V3)
  /-- HADD_F16 (R162): Adds FP16 pairs. -/
  | haddF16 (o : V3)
  /-- HMUL_F16 (R162): Multiplies FP16 pairs. -/
  | hmulF16 (o : V3)
  /-- HFMA_F16 (R162): Fused multiply-add on FP16 pairs. -/
  | hfmaF16 (o : V3)
  /-- HMAX_F16 (R162): Maximum of FP16 pairs. -/
  | hmaxF16 (o : V3)
  /-- NADD (R163): Adds narrow elements in the format of an fr register. -/
  | nadd (o : VN)
  /-- NMUL (R163): Multiplies narrow elements in the fr format. -/
  | nmul (o : VN)
  /-- NFMA (R163): Fused multiply-add on narrow elements in the fr format. -/
  | nfma (o : VN)
  /-- NMAX (R163): Elementwise maximum in the fr format. -/
  | nmax (o : VN)
  /-- NMIN (R164): Elementwise minimum in the fr format. -/
  | nmin (o : VN)
  /-- NCMP (R164): Compares element 0 of a and b in the fr format into a predicate. -/
  | ncmp (o : VNCmp)
  /-- RCP (R165): FP32 reciprocal. -/
  | rcp (o : V2)
  /-- RSQ (R165): FP32 reciprocal square root. -/
  | rsq (o : V2)
  /-- SQRT (R165): FP32 square root, correctly rounded. -/
  | sqrt (o : V2)
  /-- TANH (R165): FP32 hyperbolic tangent. -/
  | tanh (o : V2)
  /-- EX2 (R165): FP32 power of two. -/
  | ex2 (o : V2)
  /-- LG2 (R165): FP32 base-2 logarithm. -/
  | lg2 (o : V2)
  /-- SINP (R165): FP32 sin(pi x). -/
  | sinp (o : V2)
  /-- COSP (R165): FP32 cos(pi x). -/
  | cosp (o : V2)
  /-- CVT_RNE (R168): Converts between format slots, rounding to nearest even. -/
  | cvtRne (o : CvtOp)
  /-- CVT_RTZ (R168): Converts between format slots, rounding toward zero. -/
  | cvtRtz (o : CvtOp)
  /-- CVT_SR (R168): Converts between format slots with stochastic rounding. -/
  | cvtSr (o : CvtOp)
  /-- CVT (R168): Converts between format slots with the output slot's rounding. -/
  | cvt (o : CvtOp)
  /-- CVTN_RNE (R169): Converts between FP32 and an fr format, rounding to nearest even. -/
  | cvtnRne (o : CvtnOp)
  /-- CVTN_RTZ (R169): Converts between FP32 and an fr format, rounding toward zero. -/
  | cvtnRtz (o : CvtnOp)
  /-- CVTN_SR (R169): Converts between FP32 and an fr format with stochastic rounding. -/
  | cvtnSr (o : CvtnOp)
  /-- CVTN (R169): Converts between FP32 and an fr format under %rmode. -/
  | cvtn (o : CvtnOp)
  /-- I2F_S (R167): Converts a signed integer to FP32. -/
  | i2fS (o : V2)
  /-- I2F_U (R167): Converts an unsigned integer to FP32. -/
  | i2fU (o : V2)
  /-- F2I_S (R167): Converts FP32 to a saturated signed integer. -/
  | f2iS (o : V2)
  /-- F2I_U (R167): Converts FP32 to a saturated unsigned integer. -/
  | f2iU (o : V2)
  /-- PLX (R170): Transposes lane integers into bit-plane words within 32-lane blocks. -/
  | plx (o : V3)
  /-- PLD (R170): Rebuilds lane integers from bit-plane words. -/
  | pld (o : V3)
  /-- FRW (R171): Writes a number-format register from a scalar. -/
  | frw (o : FrwOp)
  /-- SHFL_IDX (R133): Each lane reads a lane chosen by index. -/
  | shflIdx (o : V3)
  /-- SHFL_XOR (R133): Each lane reads lane L xor offset. -/
  | shflXor (o : V3)
  /-- SHFL_UP (R133): Each lane reads lane L minus offset. -/
  | shflUp (o : V3)
  /-- SHFL_DN (R133): Each lane reads lane L plus offset. -/
  | shflDn (o : V3)
  /-- VOTE_ANY (R134): Writes a uniform predicate that is true if any active lane has the source true. -/
  | voteAny (o : VoteOp)
  /-- VOTE_ALL (R134): Writes a uniform predicate that is true if every active lane has the source true. -/
  | voteAll (o : VoteOp)
  /-- VOTE_BAL (R134): Counts the active lanes with the predicate true into a scalar. -/
  | voteBal (o : VoteBalOp)
  /-- RLOG_IADD (R135): Fixed-tree integer sum over the active lanes. -/
  | rlogIadd (o : V2)
  /-- RLOG_IMAX_S (R135): Fixed-tree signed maximum over the active lanes. -/
  | rlogImaxS (o : V2)
  /-- RLOG_FADD (R135): Fixed-tree FP32 sum over the active lanes. -/
  | rlogFadd (o : V2)
  /-- RLOG_FMAX (R135): Fixed-tree FP32 maximum over the active lanes. -/
  | rlogFmax (o : V2)
  /-- SCAN_IADD (R136): Inclusive integer prefix sum in lane order. -/
  | scanIadd (o : V2)
  /-- SCAN_FADD (R136): Inclusive FP32 prefix sum in lane order. -/
  | scanFadd (o : V2)
  /-- ELECT (R137): Sets a predicate in the lowest active lane only. -/
  | elect (o : GP)
  /-- MSKRD (R137): Reads a mask word or the summary word into a scalar. -/
  | mskrd (o : S2)
  /-- BR (R124): Branches the whole team, conditionally on any active lane when guarded. -/
  | br (o : BrOp)
  /-- BR_ALL (R124): Branches when every lane of the mask has the guard true. -/
  | brAll (o : BrOp)
  /-- CALL (R125): Writes the return offset to s31 and branches. -/
  | call (o : CallOp)
  /-- RET (R125): Branches to the code base plus s31. -/
  | ret
  /-- JMP (R125): Branches to the code base plus a scalar offset. -/
  | jmp (o : S1)
  /-- EXIT (R126): Removes its active lanes and ends the team when no lane remains. -/
  | exit (o : GOnly)
  /-- NOP (R126): Does nothing in one issue cycle. -/
  | nop
  /-- IF (R122): Pushes the mask and narrows it by a predicate. -/
  | ifP (o : GOnly)
  /-- ELSE (R122): Switches to the other lanes of the innermost IF. -/
  | elseP
  /-- ENDIF (R122): Pops an IF or ELSE entry and restores its mask. -/
  | endif
  /-- BRK (R129): Removes its active lanes from the innermost loop and may end the loop. -/
  | brk (o : GOnly)
  /-- LOOP (R127): Starts a hardware loop over the following words. -/
  | loop (o : LoopOp)
  /-- LD (R187): Loads memory into vector registers per lane under the phase rules. -/
  | ld (o : MemOp)
  /-- ST (R187): Stores vector registers per lane into the team's write side. -/
  | st (o : MemOp)
  /-- LDS (R188): Loads from the gang's scratchpad. -/
  | lds (o : SpOp)
  /-- STS (R188): Stores to the gang's scratchpad. -/
  | sts (o : SpOp)
  /-- LDT (R197): Loads tensor elements through a shape record. -/
  | ldt (o : TensorOp)
  /-- STT (R197): Stores tensor elements through a shape record. -/
  | stt (o : TensorOp)
  /-- CPT (R201): Queues a box copy between memory and scratchpad on the copy engine. -/
  | cpt (o : CptOp)
  /-- CPSEAL (R203): Seals the team's unsealed copies into a numbered batch. -/
  | cpseal (o : SD)
  /-- CPWAIT (R204): Waits until the team's batches up to a number are complete. -/
  | cpwait (o : S1)
  /-- WAITC (R200): Waits until an in-flight counter is at or below a threshold and reports path errors. -/
  | waitc (o : WaitcOp)
  /-- PREF (R189): Starts sector fills without producing a result or trapping. -/
  | pref (o : PrefOp)
  /-- SHSET (R196): Binds a shape register from a record in scratchpad. -/
  | shset (o : ShsetOp)
  /-- PHASE (R225): Publishes, acquires or both at a scope and advances %phase. -/
  | phase (o : PhaseOp)
  /-- FENCE (R226): Waits for the team's asynchronous operations and reports the earliest error. -/
  | fence
  /-- BAR (R227): Arrives at the gang barrier, publishing and waiting unless relaxed or arrive-only. -/
  | bar (o : BarOp)
  /-- CLEANR (R228): Queues a write-back of the dirty committed L2 sectors of a range. -/
  | cleanr (o : RangeOp)
  /-- INVR (R228): Queues a discard of the committed L2 sectors of a range. -/
  | invr (o : RangeOp)
  /-- FLUSHR (R228): Queues a write-back and discard of the committed L2 sectors of a range. -/
  | flushr (o : RangeOp)
  /-- MMA (R244): Queues a matrix multiply on the pair into an accumulator tile. -/
  | mma (o : MmaOp)
  /-- MZERO (R245): Queues the zeroing of a tile, which may clear the error record and restart a halted queue. -/
  | mzero (o : MzeroOp)
  /-- MRD (R246): Queues a read of a tile row quarter into a vector register. -/
  | mrd (o : MrdOp)
  /-- MSTS (R247): Queues a store of a tile to scratchpad, raw or converted. -/
  | msts (o : SS)
  /-- MSTAT (R248): Reads the pair's matrix status into a scalar. -/
  | mstat (o : SD)
  /-- AOP_ADD (R260): Atomic add at the vertex home, returning the old value. -/
  | aopAdd (o : AopOp)
  /-- AOP_MIN (R260): Atomic minimum at the vertex home. -/
  | aopMin (o : AopOp)
  /-- AOP_MAX (R260): Atomic maximum at the vertex home. -/
  | aopMax (o : AopOp)
  /-- AOP_XCHG (R260): Atomic exchange at the vertex home. -/
  | aopXchg (o : AopOp)
  /-- AOP_AND (R260): Atomic AND at the vertex home. -/
  | aopAnd (o : AopOp)
  /-- AOP_OR (R260): Atomic OR at the vertex home. -/
  | aopOr (o : AopOp)
  /-- AOP_XOR (R260): Atomic XOR at the vertex home. -/
  | aopXor (o : AopOp)
  /-- AOP_CAS (R260): Atomic compare-and-swap at the vertex home. -/
  | aopCas (o : AopOp)
  /-- CALLM (R261): Sends a method request per active lane to the object's vertex home. -/
  | callm (o : CallmOp)
  /-- CBATCH (R263): The vertex wave waits for and opens a batch of same-method requests. -/
  | cbatch (o : CbatchOp)
  /-- CREPLY (R264): Sets the return slots of the batch lanes. -/
  | creply (o : CreplyOp)
  /-- CDONE (R265): Writes the cell buffer as one immediate write and releases the replies. -/
  | cdone
  /-- TWAIT (R268): Suspends the team while it polls sectors, up to a time limit. -/
  | twait (o : TwaitOp)
  /-- MREG (R256): Registers a class table in the class store of every home. -/
  | mreg (o : MregOp)
  /-- TRIG (R302): Marks the team triggered for early-start consumers. -/
  | trig
  /-- WAITDEP (R303): Waits until every KERNEL producer grid has triggered or retired. -/
  | waitdep
  /-- YIELD (R304): Lets the other ready teams of the group issue first. -/
  | yield
  /-- JOINK (R305): Waits until every child grid of the team has retired. -/
  | joink
  /-- LAUNCH (R306): Launches a child grid from a launch record. -/
  | launch (o : X1)
  /-- POSTC (R307): Posts a continuation record to the global task queue. -/
  | postc (o : X1)
  /-- RPUT (R308): Puts a value into a stage ring, with the governor step. -/
  | rput (o : SS)
  /-- RGET (R308): Takes a value from a stage ring, with the governor step. -/
  | rget (o : S2)
  /-- GX (R315): Gathers elements by lane offsets through the Loess engines. -/
  | gx (o : GxOp)
  /-- SX (R316): Scatters elements by lane offsets into the team's write side. -/
  | sx (o : GxOp)
  /-- MRON (R344): Switches an L2 slice into marl mode for the gang. -/
  | mron (o : S2)
  /-- MROFF (R346): Returns a marl slice to cache after its commands complete. -/
  | mroff (o : S1)
  /-- MRLD (R350): Loads tensor planes from memory into marl rows. -/
  | mrld (o : RangeOp)
  /-- MRST (R350): Stores marl rows into tensor planes in the write side. -/
  | mrst (o : RangeOp)
  /-- MROP (R351): Bitwise row operation in a marl slice. -/
  | mrop (o : MropOp)
  /-- MRADD (R351): Exact k-bit field add in a marl slice. -/
  | mradd (o : MrkOp)
  /-- MRMUL (R351): Exact k-bit field multiply in a marl slice. -/
  | mrmul (o : MrkOp)
  /-- MRCMP (R351): k-bit field compare into a marl row. -/
  | mrcmp (o : MrcmpOp)
  /-- MRRED (R352): Sums a field over the selected marl lanes into a scalar. -/
  | mrred (o : S3)
  /-- HOLD (R337): Creates a residency handle over a virtual range. -/
  | hold (o : HoldOp)
  /-- HSET (R338): Sets a handle's priority and class. -/
  | hset (o : SS)
  /-- HDEM (R339): Demotes a handle's range to CXL pages as one unit. -/
  | hdem (o : S1)
  /-- HPRO (R340): Promotes a handle's range to HBM pages as one unit. -/
  | hpro (o : S1)
  /-- HREL (R341): Frees a residency handle after its earlier operations. -/
  | hrel (o : S1)
  /-- IGBIND (R379): Binds a Locus context from a tableau record and a problem record. -/
  | igbind (o : IgbindOp)
  /-- IGRUN (R380): Hands the team to the Locus engine to integrate its running lanes. -/
  | igrun
  /-- IGRET (R381): Returns from a Locus routine, handing values back to the engine. -/
  | igret (o : IgretOp)
  /-- IGSTOP (R382): Unbinds the context, or ends an IGRUN from inside a routine. -/
  | igstop
  /-- IGQ (R383): Evaluates each lane's dense-output interpolant. -/
  | igq (o : IgqOp)
  /-- IGRD (R384): Reads a per-lane Locus field. -/
  | igrd (o : IgrdOp)
  /-- IGWR (R384): Writes a per-lane Locus field after checking every active lane. -/
  | igwr (o : IgwrOp)
  /-- SVPUT (R425): Puts tokens into a sieve stream and returns their sequence numbers. -/
  | svput (o : SvOp)
  /-- SVGET (R426): Reads sieve entries by sequence number. -/
  | svget (o : SvOp)
  /-- SVREL (R426): Releases a stream through a sequence number. -/
  | svrel (o : SS)
  /-- SVDROP (R426): Marks the unreleased entries of a range dropped. -/
  | svdrop (o : S3)
  /-- TRAPS (R408): Writes a service request to the host ring and parks the team. -/
  | traps (o : TrapsOp)
  /-- TRET (R409): Restores the team from its context entry and leaves handler mode. -/
  | tret
  /-- BKPT (R410): Raises a breakpoint trap after completion. -/
  | bkpt
  /-- SYNCI (R411): Makes code writes in a range visible to instruction fetch. -/
  | synci (o : RangeOp)
  /-- TLBINV (R412): Drops cached translations of a range and drains their users. -/
  | tlbinv (o : RangeOp)
  /-- HIMM (R69): Supplies bits [31:10] of the next instruction's immediate. -/
  | himm (o : HimmOp)
  /-- HSCHED (R70): Carries scheduling hints for the next instruction. -/
  | hsched (o : HschedOp)
  /-- HMOD (R71): Carries modifiers for the next instruction. -/
  | hmod (o : HmodOp)
  /-- STRATUM_LD (R321): Stratum wavefront load from the current block at a bank-local offset. -/
  | stratumLd (o : StrMem)
  /-- STRATUM_ST (R321): Stratum wavefront store into the block run's granule buffer. -/
  | stratumSt (o : StrMem)
  /-- STRATUM_LOOP (R321): Stratum loop whose count is lane 0 of a vector register. -/
  | stratumLoop (o : StrLoop)
  /-- GRAPH_UPLOAD (R275): A GCMD write with OP 1 uploads and checks a graph image from GIMG. -/
  | graphUpload (v : DWord)
  /-- GRAPH_REMOVE (R275): A GCMD write with OP 2 removes a graph that is not running. -/
  | graphRemove (v : DWord)
  /-- TRIGGER (R280): A TRIGGER write accepts or refuses an instance of a graph with its patch list. -/
  | trigger (v : DWord)
  /-- INSTANCE_BEGIN (R281): A pending trigger begins after the previous instance completes, applying its patch list. -/
  | instanceBegin (graph : Nat)
  /-- NODE_LAUNCH (R282): A ready or early node launches as a grid or node operation. -/
  | nodeLaunch (graph : Nat) (node : Nat)
  /-- NODE_COMPLETE (R282): A node completes and its successors become ready. -/
  | nodeComplete (graph : Nat) (node : Nat)
  /-- EXTERNAL_WAIT_WAKE (R278): An EXTERNAL-WAIT node's watched word reaches its target. -/
  | externalWaitWake (graph : Nat) (node : Nat)
  /-- EXTERNAL_WAIT_TIMEOUT (R278): An EXTERNAL-WAIT node's timeout expires and the node fails with code 4. -/
  | externalWaitTimeout (graph : Nat) (node : Nat)
  /-- HOST_SIGNAL_ACK (R278): Host memory acknowledges a HOST-SIGNAL node's write. -/
  | hostSignalAck (graph : Nat) (node : Nat)
  /-- STRATUM_BLOCK_RUN (R320): A channel's wavefront runs the node code over one block of the range. -/
  | stratumBlockRun (channel : Nat)
  /-- GRID_RETIRE (R40): A grid retires once its teams, continuations and child grids have ended. -/
  | gridRetire (grid : Nat)
  /-- GANG_PLACEMENT (R293): The distributor places a waiting gang on a cluster. -/
  | gangPlacement
  /-- GANG_WAIT_LIMIT (R292): A gang that has waited 2^20 ticks blocks equal or lower priority placements in its core set. -/
  | gangWaitLimit (grid : Nat) (gang : Nat)
  /-- TEAM_RESTORE (R402): An evicted team is restored from its context entry. -/
  | teamRestore (uid : Nat)
  /-- CONTINUATION_CONVERT (R47): A parked team becomes a continuation once its conditions hold. -/
  | continuationConvert (uid : Nat)
  /-- CONTINUATION_RESUME (R437): A queued continuation resumes on a core with room. -/
  | continuationResume (cont : Nat)
  /-- CONTINUATION_TARGET_TIMEOUT (R299): After 65,536 ticks without room in its target, any cluster of the core set may take the continuation. -/
  | continuationTargetTimeout (cont : Nat)
  /-- TASK_END (R126): A team with no lanes left waits for its counters, publishes at .SY and frees its slot. -/
  | taskEnd (uid : Nat)
  /-- PRODUCER_COMPLETE (R93): A producer's results have all arrived, so its destination becomes full and its counter falls. -/
  | producerComplete (uid : Nat) (idx : Nat)
  /-- FUTURE_WAKE (R406): A resolved or refused future wakes the parked faulting team. -/
  | futureWake (uid : Nat)
  /-- COPY_COMPLETE (R203): A copy finishes and its batch completes in sealing order, or fails. -/
  | copyComplete (uid : Nat) (idx : Nat)
  /-- MATRIX_CMD_START (R239): The pair's queue starts its next command and reads its operands. -/
  | matrixCmdStart (gang : Nat) (pair : Nat)
  /-- MATRIX_CMD_RETIRE (R238): A matrix command retires and lowers the issuer's MX counter. -/
  | matrixCmdRetire (gang : Nat) (pair : Nat)
  /-- PUBLICATION_COMMIT (R209): Once every entry is acknowledged, the version record write commits the publication. -/
  | publicationCommit (uid : Nat)
  /-- ENTRY_RESOLVE (R209): A home slice resolves committed entries in a background pass. -/
  | entryResolve (sector : Nat)
  /-- MAINTENANCE_COMPLETE (R228): A CLEANR, INVR or FLUSHR completes or stops at a page. -/
  | maintenanceComplete (uid : Nat) (idx : Nat)
  /-- SX_ACK (R316): The sectors of a scatter are acknowledged and the GX counter falls. -/
  | sxAck (uid : Nat) (idx : Nat)
  /-- MARL_CMD_COMPLETE (R349): A slice completes a marl command and lowers the MC counter. -/
  | marlCmdComplete (slice : Nat)
  /-- RESIDENCY_COMPLETE (R342): A residency operation completes or fails and lowers the HR counter. -/
  | residencyComplete (handle : Nat)
  /-- VERTEX_REQUEST_ARRIVAL (R257): A request enters its home's queue in arrival order. -/
  | vertexRequestArrival (idx : Nat)
  /-- COMBINE_ATOMIC (R260): The combine stage performs an AOP request and replies with the old value. -/
  | combineAtomic (home : Nat)
  /-- TWAIT_WAKE (R268): A suspended TWAIT wakes on a write to a polled sector or on its time limit. -/
  | twaitWake (uid : Nat)
  /-- ROUTINE_CALL (R365): The Locus engine calls a right-hand-side, Jacobian or event routine. -/
  | routineCall (uid : Nat)
  /-- IGRUN_COMPLETE (R367): No running lane remains, so the engine writes the results and the team continues. -/
  | igrunComplete (uid : Nat)
  /-- DEADLINE_EXPIRY (R102): %cycle reaches %tdl and the team raises cause group 16. -/
  | deadlineExpiry (uid : Nat)
  /-- PRIORITY_BOOST (R43): A team ready without issue for 4,096 cycles is boosted to priority 15. -/
  | priorityBoost (uid : Nat)
  /-- YIELD_TIMEOUT (R304): After 64 cycles a yielding team is eligible again. -/
  | yieldTimeout (uid : Nat)
  /-- HSCHED_SPACE_EXPIRY (R70): The SPACE cycles of a hint end and the team competes normally. -/
  | hschedSpaceExpiry (uid : Nat)
  /-- VXCFG_ENABLE (R251): Writing EN = 1 to VXCFG checks the setup and places the vertex waves. -/
  | vxcfgEnable (v : DWord)
  /-- VXCFG_DISABLE (R251): Clearing EN drains the homes and ends the waves. -/
  | vxcfgDisable (v : DWord)
  /-- SVCMD_OPEN (R421): Opens a sieve stream for an ASID. -/
  | svcmdOpen (v : DWord)
  /-- SVCMD_CLOSE (R421): Closes a sieve stream and discards its entries. -/
  | svcmdClose (v : DWord)
  /-- SVDRAIN (R421): The host advances a stream's drain count. -/
  | svdrain (v : DWord)
  /-- SRCOMP (R420): The host completes a service request, so the part reads and frees its blocks and resumes the team. -/
  | srcomp (v : DWord)
  /-- FIRSTERR_CLEAR (R397): Writing 1 to FIRSTERR1.VALID clears the first-error record. -/
  | firsterrClear (v : DWord)
  /-- REGISTER_WRITE (R438): A host write to an aperture register with no behaviour of its own, refused if ill-formed. -/
  | registerWrite (off : Nat) (v : DWord)
  /-- HOST_WINDOW_READ (R416): A host read of device HBM sees committed data at the L2. -/
  | hostWindowRead (addr : Nat) (n : Nat)
  /-- HOST_WINDOW_WRITE (R416): A host write into device memory is immediate and arrives in order. -/
  | hostWindowWrite (addr : Nat) (bytes : List Byte)
  /-- PEER_WRITE (R417): A write from a peer over the scale-up ports is immediate. -/
  | peerWrite (peer : Nat) (addr : Nat) (bytes : List Byte)
  /-- GET_VERSION (R430): SPDM GET_VERSION request through the mailbox. -/
  | getVersion (buf : DWord)
  /-- GET_CAPABILITIES (R430): SPDM GET_CAPABILITIES request. -/
  | getCapabilities (buf : DWord)
  /-- NEGOTIATE_ALGORITHMS (R430): SPDM NEGOTIATE_ALGORITHMS request. -/
  | negotiateAlgorithms (buf : DWord)
  /-- GET_DIGESTS (R430): SPDM GET_DIGESTS request. -/
  | getDigests (buf : DWord)
  /-- GET_CERTIFICATE (R430): SPDM GET_CERTIFICATE request. -/
  | getCertificate (buf : DWord)
  /-- CHALLENGE (R430): SPDM CHALLENGE request. -/
  | challenge (buf : DWord)
  /-- GET_MEASUREMENTS (R430): SPDM GET_MEASUREMENTS request for the measurement indices. -/
  | getMeasurements (buf : DWord) (indices : List Nat)
  /-- KEY_EXCHANGE (R430): SPDM KEY_EXCHANGE request that opens a session. -/
  | keyExchange (buf : DWord)
  /-- FINISH (R430): SPDM FINISH request. -/
  | finish (buf : DWord)
  /-- END_SESSION (R430): SPDM END_SESSION request. -/
  | endSession (buf : DWord)
  /-- MEMORY_KEY_INSTALL (R431): Installs a memory key inside a secured session after the measurements. -/
  | memoryKeyInstall (buf : DWord) (key : Nat)
  /-- START_LOG_READ (R429): A mailbox request that reads the start log. -/
  | startLogRead (buf : DWord)
  /-- MANAGEMENT_START (R432): The management controller runs start from its step records. -/
  | managementStart (results : List Bool)
  /-- CORE_FAILURE (R13): A failed core is replaced by a spare or fenced until the next start. -/
  | coreFailure (core : Nat)
  /-- POWER_THROTTLE (R434): Power above CAP lowers the arithmetic clock in 100 MHz steps. -/
  | powerThrottle
  /-- PLACEMENT_HOLD (R434): After 10 ms above CAP at 1.0 GHz, the distributor places no new gang. -/
  | placementHold
  /-- HBM_BANK_TEST (R327): The controller copies, remaps, tests and repairs or retires one HBM bank. -/
  | hbmBankTest (channel : Nat) (bank : Nat) (badRows : List (Nat × Nat))
  /-- LINK_FLIT_RETRY (R414): A flit that fails its CRC is retried, and a repeatedly failing lane leaves service. -/
  | linkFlitRetry (unit : Nat) (leaves : Bool)
  /-- POWER_BELOW_CAP (R434): Module power falls back below CAP, ending the hold on placing new gangs. -/
  | powerBelowCap
  /-- FQTAIL_WRITE (R406): The pager writes FQTAIL to consume fault queue entries, freeing space for a faulting team waiting to append its entry. -/
  | fqtailWrite (v : DWord)
  /-- SRTAIL_WRITE (R418): The host writes SRTAIL to free consumed header slots of the service ring, letting a TRAPS that waits for ring room proceed. -/
  | srtailWrite (v : DWord)
  deriving DecidableEq, Repr

end Sys2Proof
end

