-- ==== Sys2Proof/WellFormed.lean ====
section
/-! DEFINITION. Which operand fields an instruction may hold (R64, R75 to R82): the field rules of R83's reason 5 that one
word decides alone. What depends on the team's register count, or on a hint run, is decided at issue. -/

namespace Sys2Proof

/-- A predicate field: 7 is reserved (R64). -/
def okPred (p : BitVec 3) : Bool := p != 7

/-- A condition field: 6 and 7 are reserved (R75). -/
def okCond (c : BitVec 3) : Bool := decide (c.toNat < 6)

/-- A loop body of 1 to 256 words (R68). -/
def okLoopLen (n : BitVec 10) : Bool := decide (1 ≤ n.toNat ∧ n.toNat ≤ 256)

/-- SHFL with a width-relative offset names k from 1 to 5 (R81). -/
def okShfl (o : V3) : Bool := !o.eb || decide (1 ≤ o.b.toNat ∧ o.b.toNat ≤ 5)

/-- The register rule of a load width: 7 is reserved, `.DW` needs an even d and `.QW` a multiple of 4 (R76). -/
def okLoadW (d : BitVec 6) (w : BitVec 3) : Bool :=
  w != 7 && (w != 5 || d.toNat % 2 == 0) && (w != 6 || d.toNat % 4 == 0)

/-- A store has no sign-extending width (R76). -/
def okStoreW (d : BitVec 6) (w : BitVec 3) : Bool := okLoadW d w && w != 1 && w != 3

/-- Coordinates c to c+n lie in the scalar file and n is not 7 (R63, R64). -/
def okCoords (c : BitVec 5) (n : BitVec 3) : Bool := n != 7 && decide (c.toNat + n.toNat ≤ 31)

/-- The register rule of GX and SX (R76, R315). -/
def okGx (d : BitVec 6) (w : BitVec 3) : Bool :=
  decide (w.toNat ≤ 4) && (w != 3 || d.toNat % 2 == 0) && (w != 4 || d.toNat % 4 == 0)

/-- A special register of 64 bits: `%cycle`, `%tcyc`, `%tdl` (R80). -/
def sp64 (n : BitVec 10) : Bool := n == 12 || n == 13 || n == 14

/-- SRD names a register of R80, and a 64-bit one through an even pair (R118). -/
def okSrd (o : SMovI) : Bool := decide (o.imm.toNat ≤ 21) && (!sp64 o.imm || o.r.toNat % 2 == 0)

/-- SWR names a writable register of R80 (R118). -/
def okSwr (o : SMovI) : Bool :=
  (o.imm == 14 || o.imm == 19 || o.imm == 20 || o.imm == 21) && (!sp64 o.imm || o.r.toNat % 2 == 0)

/-- The field rules of one instruction. An event has no word, so it has none. -/
def Instr.wf : Instr → Bool
  | .iadd _ => true
  | .isub _ => true
  | .iabs _ => true
  | .andn _ => true
  | .iminS _ => true
  | .iminU _ => true
  | .imaxS _ => true
  | .imaxU _ => true
  | .imulLo _ => true
  | .imulHiS _ => true
  | .imulHiU _ => true
  | .imad _ => true
  | .and _ => true
  | .or _ => true
  | .xor _ => true
  | .sel o => okPred o.p
  | .shl _ => true
  | .shr _ => true
  | .sar _ => true
  | .rot _ => true
  | .popc _ => true
  | .clz _ => true
  | .brev _ => true
  | .bfxU _ => true
  | .bfxS _ => true
  | .bfi _ => true
  | .icmpS o => okCond o.c && okPred o.p
  | .icmpU o => okCond o.c && okPred o.p
  | .plogAnd o => okPred o.d && okPred o.a && okPred o.b
  | .plogOr o => okPred o.d && okPred o.a && okPred o.b
  | .plogXor o => okPred o.d && okPred o.a && okPred o.b
  | .plogAndn o => okPred o.d && okPred o.a && okPred o.b
  | .mov _ => true
  | .movSp _ => true
  | .iaddi _ => true
  | .andi _ => true
  | .ori _ => true
  | .xori _ => true
  | .movi _ => true
  | .icmpi o => okCond o.c && okPred o.p
  | .shli _ => true
  | .shri _ => true
  | .sari _ => true
  | .sadd _ => true
  | .ssub _ => true
  | .smul _ => true
  | .sand _ => true
  | .sor _ => true
  | .sxor _ => true
  | .sshl _ => true
  | .sshr _ => true
  | .scmpS o => okCond o.c && okPred o.p
  | .scmpU o => okCond o.c && okPred o.p
  | .smov _ => true
  | .v2s _ => true
  | .s2v _ => true
  | .saddi _ => true
  | .smovi _ => true
  | .srd o => okSrd o
  | .swr o => okSwr o
  | .fadd _ => true
  | .fsub _ => true
  | .fmul _ => true
  | .ffma _ => true
  | .fmin _ => true
  | .fmax _ => true
  | .fclass _ => true
  | .fcmp o => okCond o.c && okPred o.p
  | .fcmpUo o => okCond o.c && okPred o.p
  | .haddBf _ => true
  | .hmulBf _ => true
  | .hfmaBf _ => true
  | .hmaxBf _ => true
  | .haddF16 _ => true
  | .hmulF16 _ => true
  | .hfmaF16 _ => true
  | .hmaxF16 _ => true
  | .nadd _ => true
  | .nmul _ => true
  | .nfma _ => true
  | .nmax _ => true
  | .nmin _ => true
  | .ncmp o => okCond o.c && okPred o.p
  | .rcp _ => true
  | .rsq _ => true
  | .sqrt _ => true
  | .tanh _ => true
  | .ex2 _ => true
  | .lg2 _ => true
  | .sinp _ => true
  | .cosp _ => true
  | .cvtRne _ => true
  | .cvtRtz _ => true
  | .cvtSr _ => true
  | .cvt _ => true
  | .cvtnRne _ => true
  | .cvtnRtz _ => true
  | .cvtnSr _ => true
  | .cvtn _ => true
  | .i2fS _ => true
  | .i2fU _ => true
  | .f2iS _ => true
  | .f2iU _ => true
  | .plx _ => true
  | .pld _ => true
  | .frw _ => true
  | .shflIdx o => okShfl o
  | .shflXor o => okShfl o
  | .shflUp o => okShfl o
  | .shflDn o => okShfl o
  | .voteAny o => okPred o.d && okPred o.a
  | .voteAll o => okPred o.d && okPred o.a
  | .voteBal o => okPred o.a
  | .rlogIadd _ => true
  | .rlogImaxS _ => true
  | .rlogFadd _ => true
  | .rlogFmax _ => true
  | .scanIadd _ => true
  | .scanFadd _ => true
  | .elect o => okPred o.d
  | .mskrd _ => true
  | .br _ => true
  | .brAll _ => true
  | .call _ => true
  | .ret => true
  | .jmp _ => true
  | .exit _ => true
  | .nop => true
  | .ifP o => okPred o.g
  | .elseP => true
  | .endif => true
  | .brk _ => true
  | .loop o => okLoopLen o.len
  | .ld o => okLoadW o.d o.w
  | .st o => okStoreW o.d o.w
  | .lds o => okLoadW o.d o.w
  | .sts o => okStoreW o.d o.w
  | .ldt o => okCoords o.c o.n && (!o.sp || o.cls == 0)
  | .stt o => okCoords o.c o.n && (!o.sp || o.cls == 0)
  | .cpt o => okCoords o.c o.n
  | .cpseal _ => true
  | .cpwait _ => true
  | .waitc o => o.path != 7
  | .pref _ => true
  | .shset _ => true
  | .phase o => o.kind != 0 && o.scope != 3
  | .fence => true
  | .bar o => o.scope != 3
  | .cleanr _ => true
  | .invr _ => true
  | .flushr _ => true
  | .mma _ => true
  | .mzero _ => true
  | .mrd _ => true
  | .msts _ => true
  | .mstat _ => true
  | .aopAdd o => !o.u
  | .aopMin _ => true
  | .aopMax _ => true
  | .aopXchg o => !o.u
  | .aopAnd o => !o.u
  | .aopOr o => !o.u
  | .aopXor o => !o.u
  | .aopCas o => !o.u && o.d.toNat % 2 == 0
  | .callm _ => true
  | .cbatch _ => true
  | .creply _ => true
  | .cdone => true
  | .twait o => okPred o.p
  | .mreg _ => true
  | .trig => true
  | .waitdep => true
  | .yield => true
  | .joink => true
  | .launch _ => true
  | .postc _ => true
  | .rput _ => true
  | .rget _ => true
  | .gx o => okGx o.d o.w
  | .sx o => okGx o.d o.w
  | .mron _ => true
  | .mroff _ => true
  | .mrld o => o.b != 31
  | .mrst o => o.b != 31
  | .mrop o => decide (o.op.toNat ≤ 4)
  | .mradd _ => true
  | .mrmul _ => true
  | .mrcmp _ => true
  | .mrred _ => true
  | .hold _ => true
  | .hset _ => true
  | .hdem _ => true
  | .hpro _ => true
  | .hrel _ => true
  | .igbind _ => true
  | .igrun => true
  | .igret o => decide (o.kind.toNat ≤ 4)
  | .igstop => true
  | .igq _ => true
  | .igrd o => decide (o.f.toNat ≤ 4)
  | .igwr o => decide (o.f.toNat ≤ 4)
  | .svput _ => true
  | .svget o => o.d.toNat % 4 == 0
  | .svrel _ => true
  | .svdrop o => o.b != 31
  | .traps _ => true
  | .tret => true
  | .bkpt => true
  | .synci _ => true
  | .tlbinv _ => true
  | .himm _ => true
  | .hsched o => o.l2p != 3
  | .hmod o => decide (o.rnd.toNat ≤ 5)
  | .stratumLd o => okLoadW (o.d.setWidth 6) o.w
  | .stratumSt o => okStoreW (o.d.setWidth 6) o.w
  | .stratumLoop o => okLoopLen o.len
  | .graphUpload _ => true
  | .graphRemove _ => true
  | .trigger _ => true
  | .instanceBegin _ => true
  | .nodeLaunch _ _ => true
  | .nodeComplete _ _ => true
  | .externalWaitWake _ _ => true
  | .externalWaitTimeout _ _ => true
  | .hostSignalAck _ _ => true
  | .stratumBlockRun _ => true
  | .gridRetire _ => true
  | .gangPlacement => true
  | .gangWaitLimit _ _ => true
  | .teamRestore _ => true
  | .continuationConvert _ => true
  | .continuationResume _ => true
  | .continuationTargetTimeout _ => true
  | .taskEnd _ => true
  | .producerComplete _ _ => true
  | .futureWake _ => true
  | .copyComplete _ _ => true
  | .matrixCmdStart _ _ => true
  | .matrixCmdRetire _ _ => true
  | .publicationCommit _ => true
  | .entryResolve _ => true
  | .maintenanceComplete _ _ => true
  | .sxAck _ _ => true
  | .marlCmdComplete _ => true
  | .residencyComplete _ => true
  | .vertexRequestArrival _ => true
  | .combineAtomic _ => true
  | .twaitWake _ => true
  | .routineCall _ => true
  | .igrunComplete _ => true
  | .deadlineExpiry _ => true
  | .priorityBoost _ => true
  | .yieldTimeout _ => true
  | .hschedSpaceExpiry _ => true
  | .vxcfgEnable _ => true
  | .vxcfgDisable _ => true
  | .svcmdOpen _ => true
  | .svcmdClose _ => true
  | .svdrain _ => true
  | .srcomp _ => true
  | .firsterrClear _ => true
  | .registerWrite _ _ => true
  | .hostWindowRead _ _ => true
  | .hostWindowWrite _ _ => true
  | .peerWrite _ _ _ => true
  | .getVersion _ => true
  | .getCapabilities _ => true
  | .negotiateAlgorithms _ => true
  | .getDigests _ => true
  | .getCertificate _ => true
  | .challenge _ => true
  | .getMeasurements _ _ => true
  | .keyExchange _ => true
  | .finish _ => true
  | .endSession _ => true
  | .memoryKeyInstall _ _ => true
  | .startLogRead _ => true
  | .managementStart _ => true
  | .coreFailure _ => true
  | .powerThrottle => true
  | .placementHold => true
  | .hbmBankTest _ _ _ => true
  | .linkFlitRetry _ _ => true
  | .powerBelowCap => true
  | .fqtailWrite _ => true
  | .srtailWrite _ => true

end Sys2Proof
end

