-- ==== Sys2Proof/Decode.lean ====
section
/-! DEFINITION. Instruction words: the decoder, total on any word and rejecting by name, and after it the encoder, both
from the forms of R63, the opcode map of R74 and the modifier codes of R75 to R82. A shape of operands has one reader
`d<Shape>` and one writer `e<Shape>`. -/

namespace Sys2Proof

/-- Why a word is no instruction: the checks of R83 that a word alone decides. -/
inductive Reject where
  /-- R83 reason 1. -/
  | unassignedMajor
  /-- R83 reason 2. -/
  | reservedFn
  /-- R83 reason 3. -/
  | reservedHint
  /-- R83 reason 4. -/
  | guardMisuse
  /-- R83 reason 5. -/
  | reservedField
  /-- Fewer than four bytes: no word (R62). -/
  | truncated
  deriving DecidableEq, Repr

/-- The reason code of R83; a missing word has none. -/
def Reject.code : Reject → Nat
  | .unassignedMajor => 1
  | .reservedFn => 2
  | .reservedHint => 3
  | .guardMisuse => 4
  | .reservedField => 5
  | .truncated => 0

/-! The fields of a word (R63). -/

def fMaj (w : Word) : BitVec 7 := w.extractLsb' 25 7
def fG (w : Word) : BitVec 3 := w.extractLsb' 22 3
def fD (w : Word) : BitVec 6 := w.extractLsb' 16 6
def fA (w : Word) : BitVec 6 := w.extractLsb' 10 6
def fB (w : Word) : BitVec 6 := w.extractLsb' 4 6
def fEa (w : Word) : Bool := w.getLsbD 3
def fEb (w : Word) : Bool := w.getLsbD 2
def fFn (w : Word) : BitVec 2 := w.extractLsb' 0 2
def fImm (w : Word) : BitVec 10 := w.extractLsb' 0 10
def fS (w : Word) : BitVec 5 := w.extractLsb' 5 5
def fWm (w : Word) : BitVec 3 := w.extractLsb' 2 3
def fSh (w : Word) : BitVec 3 := w.extractLsb' 7 3
def fN (w : Word) : BitVec 3 := w.extractLsb' 4 3
def fOff (w : Word) : BitVec 22 := w.extractLsb' 0 22

/-! The forms of R63, packed. -/

def packA (maj : BitVec 7) (g : BitVec 3) (d a b : BitVec 6) (ea eb : Bool) (fn : BitVec 2) : Word :=
  maj ++ g ++ d ++ a ++ b ++ BitVec.ofBool ea ++ BitVec.ofBool eb ++ fn
def packI (maj : BitVec 7) (g : BitVec 3) (d a : BitVec 6) (imm : BitVec 10) : Word :=
  maj ++ g ++ d ++ a ++ imm
def packM (maj : BitVec 7) (g : BitVec 3) (d a : BitVec 6) (s : BitVec 5) (wm : BitVec 3) (fn : BitVec 2) : Word :=
  maj ++ g ++ d ++ a ++ s ++ wm ++ fn
def packT (maj : BitVec 7) (g : BitVec 3) (d c : BitVec 6) (sh n : BitVec 3) (m fn : BitVec 2) : Word :=
  maj ++ g ++ d ++ c ++ sh ++ n ++ m ++ fn
def packB (maj : BitVec 7) (g : BitVec 3) (off : BitVec 22) : Word := maj ++ g ++ off

/-- A scalar register in a six-bit field. -/
def fld5 (r : BitVec 5) : BitVec 6 := 0#1 ++ r
/-- A predicate in a six-bit field. -/
def fld3 (p : BitVec 3) : BitVec 6 := 0#3 ++ p
/-- A scalar pair in a six-bit field: its even scalar. -/
def fldX (x : BitVec 4) : BitVec 6 := 0#1 ++ x ++ 0#1
/-- A pair in the five-bit s field of the M-form. -/
def sX (x : BitVec 4) : BitVec 5 := x ++ 0#1
/-- Condition and predicate of a c field (R75). -/
def fldC (c p : BitVec 3) : BitVec 6 := c ++ p

def isS (f : BitVec 6) : Bool := f.extractLsb' 5 1 == 0
def toS (f : BitVec 6) : BitVec 5 := f.extractLsb' 0 5
def isP (f : BitVec 6) : Bool := f.extractLsb' 3 3 == 0
def toP (f : BitVec 6) : BitVec 3 := f.extractLsb' 0 3
def isX (f : BitVec 6) : Bool := f.extractLsb' 5 1 == 0 && f.extractLsb' 0 1 == 0
def toX (f : BitVec 6) : BitVec 4 := f.extractLsb' 1 4
def hi3 (f : BitVec 6) : BitVec 3 := f.extractLsb' 3 3

/-- Reason 5 unless the field condition holds. -/
def need (ok : Bool) (i : Instr) : Except Reject Instr := if ok then .ok i else .error .reservedField

/-- Reason 4 unless g is 7, then reason 5 unless the field condition holds (R65). -/
def need7 (w : Word) (ok : Bool) (i : Instr) : Except Reject Instr :=
  if fG w = 7 then need ok i else .error .guardMisuse

/-! Readers and writers, one pair for each shape. -/

def dV3 (k : V3 → Instr) (w : Word) : Except Reject Instr :=
  .ok (k { g := fG w, d := fD w, a := fA w, b := fB w, ea := fEa w, eb := fEb w })
def eV3 (maj : BitVec 7) (fn : BitVec 2) (o : V3) : Word := packA maj o.g o.d o.a o.b o.ea o.eb fn

def dV2 (k : V2 → Instr) (w : Word) : Except Reject Instr :=
  need (fB w == 0 && !fEb w) (k { g := fG w, d := fD w, a := fA w, ea := fEa w })
def eV2 (maj : BitVec 7) (fn : BitVec 2) (o : V2) : Word := packA maj o.g o.d o.a 0 o.ea false fn

def dVCmp (k : VCmp → Instr) (w : Word) : Except Reject Instr :=
  .ok (k { g := fG w, c := hi3 (fD w), p := toP (fD w), a := fA w, b := fB w, ea := fEa w, eb := fEb w })
def eVCmp (maj : BitVec 7) (fn : BitVec 2) (o : VCmp) : Word := packA maj o.g (fldC o.c o.p) o.a o.b o.ea o.eb fn

def dVN (k : VN → Instr) (w : Word) : Except Reject Instr :=
  .ok (k { g := fG w, d := fD w, a := fA w, b := fB w, fr := w.extractLsb' 2 2 })
def eVN (maj : BitVec 7) (fn : BitVec 2) (o : VN) : Word :=
  packA maj o.g o.d o.a o.b (o.fr.getLsbD 1) (o.fr.getLsbD 0) fn

def dVNCmp (k : VNCmp → Instr) (w : Word) : Except Reject Instr :=
  .ok (k { g := fG w, c := hi3 (fD w), p := toP (fD w), a := fA w, b := fB w, fr := w.extractLsb' 2 2 })
def eVNCmp (maj : BitVec 7) (fn : BitVec 2) (o : VNCmp) : Word :=
  packA maj o.g (fldC o.c o.p) o.a o.b (o.fr.getLsbD 1) (o.fr.getLsbD 0) fn

def dP3 (k : P3 → Instr) (w : Word) : Except Reject Instr :=
  need (isP (fD w) && isP (fA w) && isP (fB w) && !fEa w && !fEb w)
    (k { g := fG w, d := toP (fD w), a := toP (fA w), b := toP (fB w) })
def eP3 (maj : BitVec 7) (fn : BitVec 2) (o : P3) : Word :=
  packA maj o.g (fld3 o.d) (fld3 o.a) (fld3 o.b) false false fn

def dSelOp (k : SelOp → Instr) (w : Word) : Except Reject Instr :=
  .ok (k { p := fG w, d := fD w, a := fA w, b := fB w, ea := fEa w, eb := fEb w })
def eSelOp (maj : BitVec 7) (fn : BitVec 2) (o : SelOp) : Word := packA maj o.p o.d o.a o.b o.ea o.eb fn

def dV1 (k : V1 → Instr) (w : Word) : Except Reject Instr :=
  need (fA w == 0 && fB w == 0 && !fEa w && !fEb w) (k { g := fG w, d := fD w })
def eV1 (maj : BitVec 7) (fn : BitVec 2) (o : V1) : Word := packA maj o.g o.d 0 0 false false fn

def dVI (k : VI → Instr) (w : Word) : Except Reject Instr :=
  .ok (k { g := fG w, d := fD w, a := fA w, imm := fImm w })
def eVI (maj : BitVec 7) (o : VI) : Word := packI maj o.g o.d o.a o.imm

def dVMovI (k : VMovI → Instr) (w : Word) : Except Reject Instr :=
  need (fA w == 0) (k { g := fG w, d := fD w, imm := fImm w })
def eVMovI (maj : BitVec 7) (o : VMovI) : Word := packI maj o.g o.d 0 o.imm

def dVCmpI (k : VCmpI → Instr) (w : Word) : Except Reject Instr :=
  .ok (k { g := fG w, c := hi3 (fD w), p := toP (fD w), a := fA w, imm := fImm w })
def eVCmpI (maj : BitVec 7) (o : VCmpI) : Word := packI maj o.g (fldC o.c o.p) o.a o.imm

def dVShI (k : VShI → Instr) (w : Word) : Except Reject Instr :=
  need (w.extractLsb' 5 5 == 0) (k { g := fG w, d := fD w, a := fA w, k := w.extractLsb' 0 5 })
def eVShI (maj : BitVec 7) (o : VShI) : Word := packI maj o.g o.d o.a (0#5 ++ o.k)

def dS3 (k : S3 → Instr) (w : Word) : Except Reject Instr :=
  need7 w (isS (fD w) && isS (fA w) && isS (fB w))
    (k { d := toS (fD w), a := toS (fA w), b := toS (fB w), ea := fEa w, eb := fEb w })
def eS3 (maj : BitVec 7) (fn : BitVec 2) (o : S3) : Word :=
  packA maj 7 (fld5 o.d) (fld5 o.a) (fld5 o.b) o.ea o.eb fn

def dSCmp (k : SCmp → Instr) (w : Word) : Except Reject Instr :=
  need7 w (isS (fA w) && isS (fB w))
    (k { c := hi3 (fD w), p := toP (fD w), a := toS (fA w), b := toS (fB w), ea := fEa w, eb := fEb w })
def eSCmp (maj : BitVec 7) (fn : BitVec 2) (o : SCmp) : Word :=
  packA maj 7 (fldC o.c o.p) (fld5 o.a) (fld5 o.b) o.ea o.eb fn

def dS2 (k : S2 → Instr) (w : Word) : Except Reject Instr :=
  need7 w (isS (fD w) && isS (fA w) && fB w == 0 && !fEb w)
    (k { d := toS (fD w), a := toS (fA w), ea := fEa w })
def eS2 (maj : BitVec 7) (fn : BitVec 2) (o : S2) : Word := packA maj 7 (fld5 o.d) (fld5 o.a) 0 o.ea false fn

def dSS (k : SS → Instr) (w : Word) : Except Reject Instr :=
  need7 w (fD w == 0 && isS (fA w) && isS (fB w))
    (k { a := toS (fA w), b := toS (fB w), ea := fEa w, eb := fEb w })
def eSS (maj : BitVec 7) (fn : BitVec 2) (o : SS) : Word := packA maj 7 0 (fld5 o.a) (fld5 o.b) o.ea o.eb fn

def dS1 (k : S1 → Instr) (w : Word) : Except Reject Instr :=
  need7 w (fD w == 0 && isS (fA w) && fB w == 0 && !fEb w) (k { a := toS (fA w), ea := fEa w })
def eS1 (maj : BitVec 7) (fn : BitVec 2) (o : S1) : Word := packA maj 7 0 (fld5 o.a) 0 o.ea false fn

def dSD (k : SD → Instr) (w : Word) : Except Reject Instr :=
  need7 w (isS (fD w) && fA w == 0 && fB w == 0 && !fEa w && !fEb w) (k { d := toS (fD w) })
def eSD (maj : BitVec 7) (fn : BitVec 2) (o : SD) : Word := packA maj 7 (fld5 o.d) 0 0 false false fn

def dV2SOp (k : V2SOp → Instr) (w : Word) : Except Reject Instr :=
  need (isS (fD w) && fB w == 0 && !fEb w) (k { g := fG w, d := toS (fD w), a := fA w, ea := fEa w })
def eV2SOp (maj : BitVec 7) (fn : BitVec 2) (o : V2SOp) : Word := packA maj o.g (fld5 o.d) o.a 0 o.ea false fn

def dS2VOp (k : S2VOp → Instr) (w : Word) : Except Reject Instr :=
  need (isS (fA w) && fB w == 0 && !fEb w) (k { g := fG w, d := fD w, a := toS (fA w), ea := fEa w })
def eS2VOp (maj : BitVec 7) (fn : BitVec 2) (o : S2VOp) : Word := packA maj o.g o.d (fld5 o.a) 0 o.ea false fn

def dSI (k : SI → Instr) (w : Word) : Except Reject Instr :=
  need7 w (isS (fD w) && isS (fA w)) (k { d := toS (fD w), a := toS (fA w), imm := fImm w })
def eSI (maj : BitVec 7) (o : SI) : Word := packI maj 7 (fld5 o.d) (fld5 o.a) o.imm

def dSMovI (k : SMovI → Instr) (w : Word) : Except Reject Instr :=
  need7 w (isS (fD w) && fA w == 0) (k { r := toS (fD w), imm := fImm w })
def eSMovI (maj : BitVec 7) (o : SMovI) : Word := packI maj 7 (fld5 o.r) 0 o.imm

/-- SWR names its register in the a field (R118). -/
def dSwr (k : SMovI → Instr) (w : Word) : Except Reject Instr :=
  need7 w (fD w == 0 && isS (fA w)) (k { r := toS (fA w), imm := fImm w })
def eSwr (maj : BitVec 7) (o : SMovI) : Word := packI maj 7 0 (fld5 o.r) o.imm

def dCvtOp (k : CvtOp → Instr) (w : Word) : Except Reject Instr :=
  need (!fEb w) (k { g := fG w, d := fD w, a := fA w, ea := fEa w, fin := w.extractLsb' 7 3, fout := w.extractLsb' 4 3 })
def eCvtOp (maj : BitVec 7) (fn : BitVec 2) (o : CvtOp) : Word :=
  packA maj o.g o.d o.a (o.fin ++ o.fout) o.ea false fn

def dCvtnOp (k : CvtnOp → Instr) (w : Word) : Except Reject Instr :=
  need (!fEb w && w.extractLsb' 4 3 == 0)
    (k { g := fG w, d := fD w, a := fA w, ea := fEa w, fr := w.extractLsb' 8 2, f32 := w.getLsbD 7 })
def eCvtnOp (maj : BitVec 7) (fn : BitVec 2) (o : CvtnOp) : Word :=
  packA maj o.g o.d o.a (o.fr ++ BitVec.ofBool o.f32 ++ 0#3) o.ea false fn

def dFrwOp (k : FrwOp → Instr) (w : Word) : Except Reject Instr :=
  need7 w (fD w == 0 && isS (fA w) && fB w == 0 && !fEb w) (k { fr := fFn w, a := toS (fA w), ea := fEa w })
def eFrwOp (maj : BitVec 7) (o : FrwOp) : Word := packA maj 7 0 (fld5 o.a) 0 o.ea false o.fr

def dVoteOp (k : VoteOp → Instr) (w : Word) : Except Reject Instr :=
  need (isP (fD w) && isP (fA w) && fB w == 0 && !fEa w && !fEb w)
    (k { g := fG w, d := toP (fD w), a := toP (fA w) })
def eVoteOp (maj : BitVec 7) (fn : BitVec 2) (o : VoteOp) : Word :=
  packA maj o.g (fld3 o.d) (fld3 o.a) 0 false false fn

def dVoteBalOp (k : VoteBalOp → Instr) (w : Word) : Except Reject Instr :=
  need (isS (fD w) && isP (fA w) && fB w == 0 && !fEa w && !fEb w)
    (k { g := fG w, d := toS (fD w), a := toP (fA w) })
def eVoteBalOp (maj : BitVec 7) (fn : BitVec 2) (o : VoteBalOp) : Word :=
  packA maj o.g (fld5 o.d) (fld3 o.a) 0 false false fn

def dGP (k : GP → Instr) (w : Word) : Except Reject Instr :=
  need (isP (fD w) && fA w == 0 && fB w == 0 && !fEa w && !fEb w) (k { g := fG w, d := toP (fD w) })
def eGP (maj : BitVec 7) (fn : BitVec 2) (o : GP) : Word := packA maj o.g (fld3 o.d) 0 0 false false fn

def dBrOp (k : BrOp → Instr) (w : Word) : Except Reject Instr := .ok (k { g := fG w, off := fOff w })
def eBrOp (maj : BitVec 7) (o : BrOp) : Word := packB maj o.g o.off

def dCallOp (k : CallOp → Instr) (w : Word) : Except Reject Instr := need7 w true (k { off := fOff w })
def eCallOp (maj : BitVec 7) (o : CallOp) : Word := packB maj 7 o.off

/-- An instruction with no operand: g is 7 and every field zero. -/
def dZero (i : Instr) (w : Word) : Except Reject Instr :=
  need7 w (fD w == 0 && fA w == 0 && fB w == 0 && !fEa w && !fEb w) i
def eZero (maj : BitVec 7) (fn : BitVec 2) : Word := packA maj 7 0 0 0 false false fn

def dGOnly (k : GOnly → Instr) (w : Word) : Except Reject Instr :=
  need (fD w == 0 && fA w == 0 && fB w == 0 && !fEa w && !fEb w) (k { g := fG w })
def eGOnly (maj : BitVec 7) (fn : BitVec 2) (o : GOnly) : Word := packA maj o.g 0 0 0 false false fn

def dLoopOp (k : LoopOp → Instr) (w : Word) : Except Reject Instr :=
  need7 w (fD w == 0 && isS (fA w)) (k { a := toS (fA w), len := fImm w })
def eLoopOp (maj : BitVec 7) (o : LoopOp) : Word := packI maj 7 0 (fld5 o.a) o.len

def dMemOp (k : MemOp → Instr) (w : Word) : Except Reject Instr :=
  need (w.getLsbD 5 == false)
    (k { g := fG w, d := fD w, a := fA w, s := w.extractLsb' 6 4, w := fWm w, cls := fFn w })
def eMemOp (maj : BitVec 7) (o : MemOp) : Word := packM maj o.g o.d o.a (sX o.s) o.w o.cls

def dSpOp (k : SpOp → Instr) (w : Word) : Except Reject Instr :=
  need (fFn w == 0) (k { g := fG w, d := fD w, a := fA w, s := fS w, w := fWm w })
def eSpOp (maj : BitVec 7) (o : SpOp) : Word := packM maj o.g o.d o.a o.s o.w 0

def dTensorOp (k : TensorOp → Instr) (w : Word) : Except Reject Instr :=
  need (isS (fA w))
    (k { g := fG w, d := fD w, c := toS (fA w), sh := fSh w, n := fN w, sp := fEa w, pk := fEb w, cls := fFn w })
def eTensorOp (maj : BitVec 7) (o : TensorOp) : Word :=
  packT maj o.g o.d (fld5 o.c) o.sh o.n (BitVec.ofBool o.sp ++ BitVec.ofBool o.pk) o.cls

def dCptOp (k : CptOp → Instr) (w : Word) : Except Reject Instr :=
  need7 w (isS (fD w) && isS (fA w) && !fEb w)
    (k { d := toS (fD w), c := toS (fA w), sh := fSh w, n := fN w, out := fEa w, cls := fFn w })
def eCptOp (maj : BitVec 7) (o : CptOp) : Word :=
  packT maj 7 (fld5 o.d) (fld5 o.c) o.sh o.n (BitVec.ofBool o.out ++ 0#1) o.cls

def dWaitcOp (k : WaitcOp → Instr) (w : Word) : Except Reject Instr :=
  need7 w (isP (fD w) && isS (fA w) && fB w == 0 && !fEb w)
    (k { path := toP (fD w), a := toS (fA w), ea := fEa w })
def eWaitcOp (maj : BitVec 7) (fn : BitVec 2) (o : WaitcOp) : Word :=
  packA maj 7 (fld3 o.path) (fld5 o.a) 0 o.ea false fn

def dPrefOp (k : PrefOp → Instr) (w : Word) : Except Reject Instr :=
  need (fD w == 0 && w.getLsbD 5 == false && fWm w == 0)
    (k { g := fG w, a := fA w, s := w.extractLsb' 6 4, cls := fFn w })
def ePrefOp (maj : BitVec 7) (o : PrefOp) : Word := packM maj o.g 0 o.a (sX o.s) 0 o.cls

def dShsetOp (k : ShsetOp → Instr) (w : Word) : Except Reject Instr :=
  need7 w (isP (fD w) && isS (fA w) && w.extractLsb' 0 5 == 0)
    (k { sh := toP (fD w), a := toS (fA w), off := w.extractLsb' 5 5 })
def eShsetOp (maj : BitVec 7) (o : ShsetOp) : Word := packI maj 7 (fld3 o.sh) (fld5 o.a) (o.off ++ 0#5)

def dPhaseOp (k : PhaseOp → Instr) (w : Word) : Except Reject Instr :=
  need7 w (w.extractLsb' 16 2 == 0 && fA w == 0 && fB w == 0 && !fEa w && !fEb w)
    (k { kind := w.extractLsb' 20 2, scope := w.extractLsb' 18 2 })
def ePhaseOp (maj : BitVec 7) (fn : BitVec 2) (o : PhaseOp) : Word :=
  packA maj 7 (o.kind ++ o.scope ++ 0#2) 0 0 false false fn

def dBarOp (k : BarOp → Instr) (w : Word) : Except Reject Instr :=
  need7 w (w.extractLsb' 16 2 == 0 && fA w == 0 && fB w == 0 && !fEa w && !fEb w)
    (k { rlx := w.getLsbD 21, arv := w.getLsbD 20, scope := w.extractLsb' 18 2 })
def eBarOp (maj : BitVec 7) (fn : BitVec 2) (o : BarOp) : Word :=
  packA maj 7 (BitVec.ofBool o.rlx ++ BitVec.ofBool o.arv ++ o.scope ++ 0#2) 0 0 false false fn

def dRangeOp (k : RangeOp → Instr) (w : Word) : Except Reject Instr :=
  need7 w (fD w == 0 && isX (fA w) && isS (fB w) && !fEa w) (k { a := toX (fA w), b := toS (fB w), eb := fEb w })
def eRangeOp (maj : BitVec 7) (fn : BitVec 2) (o : RangeOp) : Word :=
  packA maj 7 0 (fldX o.a) (fld5 o.b) false o.eb fn

def dMmaOp (k : MmaOp → Instr) (w : Word) : Except Reject Instr :=
  .ok (k { g := fG w, t := w.extractLsb' 20 2, sa := w.extractLsb' 15 5, vb := w.extractLsb' 9 6,
           fa := w.extractLsb' 6 3, fb := w.extractLsb' 3 3, z := w.getLsbD 2, low := fFn w })
def eMmaOp (maj : BitVec 7) (o : MmaOp) : Word :=
  packB maj o.g (o.t ++ o.sa ++ o.vb ++ o.fa ++ o.fb ++ BitVec.ofBool o.z ++ o.low)

def dMzeroOp (k : MzeroOp → Instr) (w : Word) : Except Reject Instr :=
  need7 w (w.extractLsb' 18 4 == 0 && fA w == 0 && fB w == 0 && !fEa w && !fEb w) (k { t := w.extractLsb' 16 2 })
def eMzeroOp (maj : BitVec 7) (fn : BitVec 2) (o : MzeroOp) : Word := packA maj 7 (0#4 ++ o.t) 0 0 false false fn

def dMrdOp (k : MrdOp → Instr) (w : Word) : Except Reject Instr :=
  need (isS (fA w) && fB w == 0 && !fEb w) (k { g := fG w, d := fD w, a := toS (fA w), ea := fEa w })
def eMrdOp (maj : BitVec 7) (fn : BitVec 2) (o : MrdOp) : Word := packA maj o.g o.d (fld5 o.a) 0 o.ea false fn

def dAopOp (k : AopOp → Instr) (w : Word) : Except Reject Instr :=
  need (w.getLsbD 5 == false && w.extractLsb' 3 2 == 0)
    (k { g := fG w, d := fD w, a := fA w, s := w.extractLsb' 6 4, u := w.getLsbD 2 })
def eAopOp (maj : BitVec 7) (fn : BitVec 2) (o : AopOp) : Word :=
  packM maj o.g o.d o.a (sX o.s) (0#2 ++ BitVec.ofBool o.u) fn

def dCallmOp (k : CallmOp → Instr) (w : Word) : Except Reject Instr :=
  need (w.extractLsb' 6 4 == 0) (k { g := fG w, d := fD w, a := fA w, m := w.extractLsb' 0 6 })
def eCallmOp (maj : BitVec 7) (o : CallmOp) : Word := packI maj o.g o.d o.a (0#4 ++ o.m)

def dCbatchOp (k : CbatchOp → Instr) (w : Word) : Except Reject Instr :=
  need7 w (isS (fA w) && w.extractLsb' 10 2 == 0 && fB w == 0 && !fEa w && !fEb w)
    (k { d := fD w, a := w.extractLsb' 12 3 })
def eCbatchOp (maj : BitVec 7) (fn : BitVec 2) (o : CbatchOp) : Word :=
  packA maj 7 o.d (0#1 ++ o.a ++ 0#2) 0 false false fn

def dCreplyOp (k : CreplyOp → Instr) (w : Word) : Except Reject Instr :=
  need7 w (fD w == 0) (k { a := fA w, b := fB w, ea := fEa w, eb := fEb w })
def eCreplyOp (maj : BitVec 7) (fn : BitVec 2) (o : CreplyOp) : Word := packA maj 7 0 o.a o.b o.ea o.eb fn

def dTwaitOp (k : TwaitOp → Instr) (w : Word) : Except Reject Instr :=
  need (isS (fD w) && w.getLsbD 5 == false)
    (k { g := fG w, d := toS (fD w), a := fA w, s := w.extractLsb' 6 4, p := fWm w })
def eTwaitOp (maj : BitVec 7) (fn : BitVec 2) (o : TwaitOp) : Word :=
  packM maj o.g (fld5 o.d) o.a (sX o.s) o.p fn

def dMregOp (k : MregOp → Instr) (w : Word) : Except Reject Instr :=
  need7 w (fD w == 0 && isS (fA w) && isX (fB w) && !fEb w) (k { a := toS (fA w), b := toX (fB w), ea := fEa w })
def eMregOp (maj : BitVec 7) (fn : BitVec 2) (o : MregOp) : Word :=
  packA maj 7 0 (fld5 o.a) (fldX o.b) o.ea false fn

def dX1 (k : X1 → Instr) (w : Word) : Except Reject Instr :=
  need7 w (fD w == 0 && isX (fA w) && fB w == 0 && !fEa w && !fEb w) (k { a := toX (fA w) })
def eX1 (maj : BitVec 7) (fn : BitVec 2) (o : X1) : Word := packA maj 7 0 (fldX o.a) 0 false false fn

def dGxOp (k : GxOp → Instr) (w : Word) : Except Reject Instr :=
  need (w.getLsbD 5 == false) (k { g := fG w, d := fD w, a := fA w, s := w.extractLsb' 6 4, w := fWm w })
def eGxOp (maj : BitVec 7) (fn : BitVec 2) (o : GxOp) : Word := packM maj o.g o.d o.a (sX o.s) o.w fn

def dMropOp (k : MropOp → Instr) (w : Word) : Except Reject Instr :=
  need7 w (w.extractLsb' 16 3 == 0 && isS (fA w) && isS (fB w))
    (k { op := w.extractLsb' 19 3, a := toS (fA w), b := toS (fB w), ea := fEa w, eb := fEb w })
def eMropOp (maj : BitVec 7) (fn : BitVec 2) (o : MropOp) : Word :=
  packA maj 7 (o.op ++ 0#3) (fld5 o.a) (fld5 o.b) o.ea o.eb fn

def dMrkOp (k : MrkOp → Instr) (w : Word) : Except Reject Instr :=
  need7 w (isS (fD w) && isS (fA w) && isS (fB w))
    (k { k := toS (fD w), a := toS (fA w), b := toS (fB w), ea := fEa w, eb := fEb w })
def eMrkOp (maj : BitVec 7) (fn : BitVec 2) (o : MrkOp) : Word :=
  packA maj 7 (fld5 o.k) (fld5 o.a) (fld5 o.b) o.ea o.eb fn

def dMrcmpOp (k : MrcmpOp → Instr) (w : Word) : Except Reject Instr :=
  need7 w (isS (fA w) && isS (fB w))
    (k { lt := w.getLsbD 21, k := toS (fD w), a := toS (fA w), b := toS (fB w), ea := fEa w, eb := fEb w })
def eMrcmpOp (maj : BitVec 7) (fn : BitVec 2) (o : MrcmpOp) : Word :=
  packA maj 7 (BitVec.ofBool o.lt ++ o.k) (fld5 o.a) (fld5 o.b) o.ea o.eb fn

def dHoldOp (k : HoldOp → Instr) (w : Word) : Except Reject Instr :=
  need7 w (isS (fD w) && isX (fA w) && isS (fB w) && !fEa w)
    (k { d := toS (fD w), a := toX (fA w), b := toS (fB w), eb := fEb w })
def eHoldOp (maj : BitVec 7) (fn : BitVec 2) (o : HoldOp) : Word :=
  packA maj 7 (fld5 o.d) (fldX o.a) (fld5 o.b) false o.eb fn

def dIgbindOp (k : IgbindOp → Instr) (w : Word) : Except Reject Instr :=
  need7 w (isS (fD w) && isX (fA w) && isX (fB w) && !fEa w && !fEb w)
    (k { d := toS (fD w), a := toX (fA w), b := toX (fB w) })
def eIgbindOp (maj : BitVec 7) (fn : BitVec 2) (o : IgbindOp) : Word :=
  packA maj 7 (fld5 o.d) (fldX o.a) (fldX o.b) false false fn

def dIgretOp (k : IgretOp → Instr) (w : Word) : Except Reject Instr :=
  need7 w (isP (fD w) && fA w == 0 && fB w == 0 && !fEa w && !fEb w) (k { kind := toP (fD w) })
def eIgretOp (maj : BitVec 7) (fn : BitVec 2) (o : IgretOp) : Word := packA maj 7 (fld3 o.kind) 0 0 false false fn

def dIgqOp (k : IgqOp → Instr) (w : Word) : Except Reject Instr :=
  need (w.extractLsb' 5 5 == 0 && !fEb w)
    (k { g := fG w, d := fD w, a := fA w, t := w.getLsbD 4, ea := fEa w })
def eIgqOp (maj : BitVec 7) (fn : BitVec 2) (o : IgqOp) : Word :=
  packA maj o.g o.d o.a (0#5 ++ BitVec.ofBool o.t) o.ea false fn

def dIgrdOp (k : IgrdOp → Instr) (w : Word) : Except Reject Instr :=
  need (fA w == 0 && isP (fB w) && !fEa w && !fEb w) (k { g := fG w, d := fD w, f := toP (fB w) })
def eIgrdOp (maj : BitVec 7) (fn : BitVec 2) (o : IgrdOp) : Word :=
  packA maj o.g o.d 0 (fld3 o.f) false false fn

def dIgwrOp (k : IgwrOp → Instr) (w : Word) : Except Reject Instr :=
  need (fD w == 0 && isP (fB w) && !fEb w) (k { g := fG w, a := fA w, f := toP (fB w), ea := fEa w })
def eIgwrOp (maj : BitVec 7) (fn : BitVec 2) (o : IgwrOp) : Word :=
  packA maj o.g 0 o.a (fld3 o.f) o.ea false fn

def dSvOp (k : SvOp → Instr) (w : Word) : Except Reject Instr :=
  need (isS (fB w)) (k { g := fG w, d := fD w, a := fA w, b := toS (fB w), ea := fEa w, eb := fEb w })
def eSvOp (maj : BitVec 7) (fn : BitVec 2) (o : SvOp) : Word := packA maj o.g o.d o.a (fld5 o.b) o.ea o.eb fn

def dTrapsOp (k : TrapsOp → Instr) (w : Word) : Except Reject Instr :=
  need (fD w == 0 && isS (fA w) && fB w == 0 && !fEb w) (k { g := fG w, a := toS (fA w), ea := fEa w })
def eTrapsOp (maj : BitVec 7) (fn : BitVec 2) (o : TrapsOp) : Word := packA maj o.g 0 (fld5 o.a) 0 o.ea false fn

def eHimmOp (o : HimmOp) : Word := packB 0x7F 0 o.v
def eHschedOp (o : HschedOp) : Word := packB 0x7F 1 (o.l2p ++ BitVec.ofBool o.burst ++ o.space ++ 0#16)
def eHmodOp (o : HmodOp) : Word :=
  packB 0x7F 2 (o.rnd ++ BitVec.ofBool o.dw ++ BitVec.ofBool o.u ++ BitVec.ofBool o.sat ++ o.l1 ++
    BitVec.ofBool o.na ++ 0#13)

def eStrMem (maj : BitVec 7) (o : StrMem) : Word :=
  packM maj o.g (0#2 ++ o.d) (0#2 ++ o.a) 0 o.w 0
def eStrLoop (o : StrLoop) : Word := packI 0x39 7 0 (0#2 ++ o.a) o.len

/-! The majors of R74. -/


/-- Major 0x00: IADD, ISUB, IABS, ANDN. -/
def decode00 (w : Word) : Except Reject Instr :=
  match (fFn w).toNat with
  | 0 => dV3 .iadd w
  | 1 => dV3 .isub w
  | 2 => dV2 .iabs w
  | _ => dV3 .andn w

/-- Major 0x01: IMIN_S, IMIN_U, IMAX_S, IMAX_U. -/
def decode01 (w : Word) : Except Reject Instr :=
  match (fFn w).toNat with
  | 0 => dV3 .iminS w
  | 1 => dV3 .iminU w
  | 2 => dV3 .imaxS w
  | _ => dV3 .imaxU w

/-- Major 0x02: IMUL_LO, IMUL_HI_S, IMUL_HI_U, IMAD. -/
def decode02 (w : Word) : Except Reject Instr :=
  match (fFn w).toNat with
  | 0 => dV3 .imulLo w
  | 1 => dV3 .imulHiS w
  | 2 => dV3 .imulHiU w
  | _ => dV3 .imad w

/-- Major 0x03: AND, OR, XOR, SEL. -/
def decode03 (w : Word) : Except Reject Instr :=
  match (fFn w).toNat with
  | 0 => dV3 .and w
  | 1 => dV3 .or w
  | 2 => dV3 .xor w
  | _ => dSelOp .sel w

/-- Major 0x04: SHL, SHR, SAR, ROT. -/
def decode04 (w : Word) : Except Reject Instr :=
  match (fFn w).toNat with
  | 0 => dV3 .shl w
  | 1 => dV3 .shr w
  | 2 => dV3 .sar w
  | _ => dV3 .rot w

/-- Major 0x05: POPC, CLZ, BREV. -/
def decode05 (w : Word) : Except Reject Instr :=
  match (fFn w).toNat with
  | 0 => dV2 .popc w
  | 1 => dV2 .clz w
  | 2 => dV2 .brev w
  | _ => .error .reservedFn

/-- Major 0x06: BFX_U, BFX_S, BFI. -/
def decode06 (w : Word) : Except Reject Instr :=
  match (fFn w).toNat with
  | 0 => dV3 .bfxU w
  | 1 => dV3 .bfxS w
  | 2 => dV3 .bfi w
  | _ => .error .reservedFn

/-- Major 0x07: ICMP_S, ICMP_U. -/
def decode07 (w : Word) : Except Reject Instr :=
  match (fFn w).toNat with
  | 0 => dVCmp .icmpS w
  | 1 => dVCmp .icmpU w
  | _ => .error .reservedFn

/-- Major 0x08: PLOG_AND, PLOG_OR, PLOG_XOR, PLOG_ANDN. -/
def decode08 (w : Word) : Except Reject Instr :=
  match (fFn w).toNat with
  | 0 => dP3 .plogAnd w
  | 1 => dP3 .plogOr w
  | 2 => dP3 .plogXor w
  | _ => dP3 .plogAndn w

/-- Major 0x09: MOV, MOV_SP. -/
def decode09 (w : Word) : Except Reject Instr :=
  match (fFn w).toNat with
  | 0 => dV2 .mov w
  | 1 => dV1 .movSp w
  | _ => .error .reservedFn

/-- Major 0x0A: IADDI. -/
def decode0A (w : Word) : Except Reject Instr := dVI .iaddi w

/-- Major 0x0B: ANDI. -/
def decode0B (w : Word) : Except Reject Instr := dVI .andi w

/-- Major 0x0C: ORI. -/
def decode0C (w : Word) : Except Reject Instr := dVI .ori w

/-- Major 0x0D: XORI. -/
def decode0D (w : Word) : Except Reject Instr := dVI .xori w

/-- Major 0x0E: MOVI. -/
def decode0E (w : Word) : Except Reject Instr := dVMovI .movi w

/-- Major 0x0F: ICMPI. -/
def decode0F (w : Word) : Except Reject Instr := dVCmpI .icmpi w

/-- Major 0x10: SHLI. -/
def decode10 (w : Word) : Except Reject Instr := dVShI .shli w

/-- Major 0x11: SHRI. -/
def decode11 (w : Word) : Except Reject Instr := dVShI .shri w

/-- Major 0x12: SARI. -/
def decode12 (w : Word) : Except Reject Instr := dVShI .sari w

/-- Major 0x14: SADD, SSUB, SMUL, SAND. -/
def decode14 (w : Word) : Except Reject Instr :=
  match (fFn w).toNat with
  | 0 => dS3 .sadd w
  | 1 => dS3 .ssub w
  | 2 => dS3 .smul w
  | _ => dS3 .sand w

/-- Major 0x15: SOR, SXOR, SSHL, SSHR. -/
def decode15 (w : Word) : Except Reject Instr :=
  match (fFn w).toNat with
  | 0 => dS3 .sor w
  | 1 => dS3 .sxor w
  | 2 => dS3 .sshl w
  | _ => dS3 .sshr w

/-- Major 0x16: SCMP_S, SCMP_U. -/
def decode16 (w : Word) : Except Reject Instr :=
  match (fFn w).toNat with
  | 0 => dSCmp .scmpS w
  | 1 => dSCmp .scmpU w
  | _ => .error .reservedFn

/-- Major 0x17: SMOV, V2S, S2V. -/
def decode17 (w : Word) : Except Reject Instr :=
  match (fFn w).toNat with
  | 0 => dS2 .smov w
  | 1 => dV2SOp .v2s w
  | 2 => dS2VOp .s2v w
  | _ => .error .reservedFn

/-- Major 0x18: SADDI. -/
def decode18 (w : Word) : Except Reject Instr := dSI .saddi w

/-- Major 0x19: SMOVI. -/
def decode19 (w : Word) : Except Reject Instr := dSMovI .smovi w

/-- Major 0x1A: SRD. -/
def decode1A (w : Word) : Except Reject Instr := dSMovI .srd w

/-- Major 0x1B: SWR. -/
def decode1B (w : Word) : Except Reject Instr := dSwr .swr w

/-- Major 0x20: FADD, FSUB, FMUL, FFMA. -/
def decode20 (w : Word) : Except Reject Instr :=
  match (fFn w).toNat with
  | 0 => dV3 .fadd w
  | 1 => dV3 .fsub w
  | 2 => dV3 .fmul w
  | _ => dV3 .ffma w

/-- Major 0x21: FMIN, FMAX, FCLASS. -/
def decode21 (w : Word) : Except Reject Instr :=
  match (fFn w).toNat with
  | 0 => dV3 .fmin w
  | 1 => dV3 .fmax w
  | 2 => dV2 .fclass w
  | _ => .error .reservedFn

/-- Major 0x22: FCMP, FCMP_UO. -/
def decode22 (w : Word) : Except Reject Instr :=
  match (fFn w).toNat with
  | 0 => dVCmp .fcmp w
  | 1 => dVCmp .fcmpUo w
  | _ => .error .reservedFn

/-- Major 0x23: HADD_BF, HMUL_BF, HFMA_BF, HMAX_BF. -/
def decode23 (w : Word) : Except Reject Instr :=
  match (fFn w).toNat with
  | 0 => dV3 .haddBf w
  | 1 => dV3 .hmulBf w
  | 2 => dV3 .hfmaBf w
  | _ => dV3 .hmaxBf w

/-- Major 0x24: HADD_F16, HMUL_F16, HFMA_F16, HMAX_F16. -/
def decode24 (w : Word) : Except Reject Instr :=
  match (fFn w).toNat with
  | 0 => dV3 .haddF16 w
  | 1 => dV3 .hmulF16 w
  | 2 => dV3 .hfmaF16 w
  | _ => dV3 .hmaxF16 w

/-- Major 0x25: NADD, NMUL, NFMA, NMAX. -/
def decode25 (w : Word) : Except Reject Instr :=
  match (fFn w).toNat with
  | 0 => dVN .nadd w
  | 1 => dVN .nmul w
  | 2 => dVN .nfma w
  | _ => dVN .nmax w

/-- Major 0x26: NMIN, NCMP. -/
def decode26 (w : Word) : Except Reject Instr :=
  match (fFn w).toNat with
  | 0 => dVN .nmin w
  | 1 => dVNCmp .ncmp w
  | _ => .error .reservedFn

/-- Major 0x27: RCP, RSQ, SQRT, TANH. -/
def decode27 (w : Word) : Except Reject Instr :=
  match (fFn w).toNat with
  | 0 => dV2 .rcp w
  | 1 => dV2 .rsq w
  | 2 => dV2 .sqrt w
  | _ => dV2 .tanh w

/-- Major 0x28: EX2, LG2, SINP, COSP. -/
def decode28 (w : Word) : Except Reject Instr :=
  match (fFn w).toNat with
  | 0 => dV2 .ex2 w
  | 1 => dV2 .lg2 w
  | 2 => dV2 .sinp w
  | _ => dV2 .cosp w

/-- Major 0x29: CVT_RNE, CVT_RTZ, CVT_SR, CVT. -/
def decode29 (w : Word) : Except Reject Instr :=
  match (fFn w).toNat with
  | 0 => dCvtOp .cvtRne w
  | 1 => dCvtOp .cvtRtz w
  | 2 => dCvtOp .cvtSr w
  | _ => dCvtOp .cvt w

/-- Major 0x2A: CVTN_RNE, CVTN_RTZ, CVTN_SR, CVTN. -/
def decode2A (w : Word) : Except Reject Instr :=
  match (fFn w).toNat with
  | 0 => dCvtnOp .cvtnRne w
  | 1 => dCvtnOp .cvtnRtz w
  | 2 => dCvtnOp .cvtnSr w
  | _ => dCvtnOp .cvtn w

/-- Major 0x2B: I2F_S, I2F_U, F2I_S, F2I_U. -/
def decode2B (w : Word) : Except Reject Instr :=
  match (fFn w).toNat with
  | 0 => dV2 .i2fS w
  | 1 => dV2 .i2fU w
  | 2 => dV2 .f2iS w
  | _ => dV2 .f2iU w

/-- Major 0x2C: PLX, PLD. -/
def decode2C (w : Word) : Except Reject Instr :=
  match (fFn w).toNat with
  | 0 => dV3 .plx w
  | 1 => dV3 .pld w
  | _ => .error .reservedFn

/-- Major 0x2D: FRW. -/
def decode2D (w : Word) : Except Reject Instr := dFrwOp .frw w

/-- Major 0x30: SHFL_IDX, SHFL_XOR, SHFL_UP, SHFL_DN. -/
def decode30 (w : Word) : Except Reject Instr :=
  match (fFn w).toNat with
  | 0 => dV3 .shflIdx w
  | 1 => dV3 .shflXor w
  | 2 => dV3 .shflUp w
  | _ => dV3 .shflDn w

/-- Major 0x31: VOTE_ANY, VOTE_ALL, VOTE_BAL. -/
def decode31 (w : Word) : Except Reject Instr :=
  match (fFn w).toNat with
  | 0 => dVoteOp .voteAny w
  | 1 => dVoteOp .voteAll w
  | 2 => dVoteBalOp .voteBal w
  | _ => .error .reservedFn

/-- Major 0x32: RLOG_IADD, RLOG_IMAX_S, RLOG_FADD, RLOG_FMAX. -/
def decode32 (w : Word) : Except Reject Instr :=
  match (fFn w).toNat with
  | 0 => dV2 .rlogIadd w
  | 1 => dV2 .rlogImaxS w
  | 2 => dV2 .rlogFadd w
  | _ => dV2 .rlogFmax w

/-- Major 0x33: SCAN_IADD, SCAN_FADD, ELECT, MSKRD. -/
def decode33 (w : Word) : Except Reject Instr :=
  match (fFn w).toNat with
  | 0 => dV2 .scanIadd w
  | 1 => dV2 .scanFadd w
  | 2 => dGP .elect w
  | _ => dS2 .mskrd w

/-- Major 0x34: BR. -/
def decode34 (w : Word) : Except Reject Instr := dBrOp .br w

/-- Major 0x35: BR_ALL. -/
def decode35 (w : Word) : Except Reject Instr := dBrOp .brAll w

/-- Major 0x36: CALL. -/
def decode36 (w : Word) : Except Reject Instr := dCallOp .call w

/-- Major 0x37: RET, JMP, EXIT, NOP. -/
def decode37 (w : Word) : Except Reject Instr :=
  match (fFn w).toNat with
  | 0 => dZero .ret w
  | 1 => dS1 .jmp w
  | 2 => dGOnly .exit w
  | _ => dZero .nop w

/-- Major 0x38: IF, ELSE, ENDIF, BRK. -/
def decode38 (w : Word) : Except Reject Instr :=
  match (fFn w).toNat with
  | 0 => dGOnly .ifP w
  | 1 => dZero .elseP w
  | 2 => dZero .endif w
  | _ => dGOnly .brk w

/-- Major 0x39: LOOP. -/
def decode39 (w : Word) : Except Reject Instr := dLoopOp .loop w

/-- Major 0x40: LD. -/
def decode40 (w : Word) : Except Reject Instr := dMemOp .ld w

/-- Major 0x41: ST. -/
def decode41 (w : Word) : Except Reject Instr := dMemOp .st w

/-- Major 0x42: LDS. -/
def decode42 (w : Word) : Except Reject Instr := dSpOp .lds w

/-- Major 0x43: STS. -/
def decode43 (w : Word) : Except Reject Instr := dSpOp .sts w

/-- Major 0x44: LDT. -/
def decode44 (w : Word) : Except Reject Instr := dTensorOp .ldt w

/-- Major 0x45: STT. -/
def decode45 (w : Word) : Except Reject Instr := dTensorOp .stt w

/-- Major 0x46: CPT. -/
def decode46 (w : Word) : Except Reject Instr := dCptOp .cpt w

/-- Major 0x47: CPSEAL, CPWAIT, WAITC. -/
def decode47 (w : Word) : Except Reject Instr :=
  match (fFn w).toNat with
  | 0 => dSD .cpseal w
  | 1 => dS1 .cpwait w
  | 2 => dWaitcOp .waitc w
  | _ => .error .reservedFn

/-- Major 0x48: PREF. -/
def decode48 (w : Word) : Except Reject Instr := dPrefOp .pref w

/-- Major 0x49: SHSET. -/
def decode49 (w : Word) : Except Reject Instr := dShsetOp .shset w

/-- Major 0x4A: PHASE, FENCE, BAR. -/
def decode4A (w : Word) : Except Reject Instr :=
  match (fFn w).toNat with
  | 0 => dPhaseOp .phase w
  | 1 => dZero .fence w
  | 2 => dBarOp .bar w
  | _ => .error .reservedFn

/-- Major 0x4B: CLEANR, INVR, FLUSHR. -/
def decode4B (w : Word) : Except Reject Instr :=
  match (fFn w).toNat with
  | 0 => dRangeOp .cleanr w
  | 1 => dRangeOp .invr w
  | 2 => dRangeOp .flushr w
  | _ => .error .reservedFn

/-- Major 0x4C: MMA. -/
def decode4C (w : Word) : Except Reject Instr := dMmaOp .mma w

/-- Major 0x4D: MZERO, MRD, MSTS, MSTAT. -/
def decode4D (w : Word) : Except Reject Instr :=
  match (fFn w).toNat with
  | 0 => dMzeroOp .mzero w
  | 1 => dMrdOp .mrd w
  | 2 => dSS .msts w
  | _ => dSD .mstat w

/-- Major 0x50: AOP_ADD, AOP_MIN, AOP_MAX, AOP_XCHG. -/
def decode50 (w : Word) : Except Reject Instr :=
  match (fFn w).toNat with
  | 0 => dAopOp .aopAdd w
  | 1 => dAopOp .aopMin w
  | 2 => dAopOp .aopMax w
  | _ => dAopOp .aopXchg w

/-- Major 0x51: AOP_AND, AOP_OR, AOP_XOR, AOP_CAS. -/
def decode51 (w : Word) : Except Reject Instr :=
  match (fFn w).toNat with
  | 0 => dAopOp .aopAnd w
  | 1 => dAopOp .aopOr w
  | 2 => dAopOp .aopXor w
  | _ => dAopOp .aopCas w

/-- Major 0x52: CALLM. -/
def decode52 (w : Word) : Except Reject Instr := dCallmOp .callm w

/-- Major 0x53: CBATCH, CREPLY, CDONE, TWAIT. -/
def decode53 (w : Word) : Except Reject Instr :=
  match (fFn w).toNat with
  | 0 => dCbatchOp .cbatch w
  | 1 => dCreplyOp .creply w
  | 2 => dZero .cdone w
  | _ => dTwaitOp .twait w

/-- Major 0x54: MREG. -/
def decode54 (w : Word) : Except Reject Instr :=
  match (fFn w).toNat with
  | 0 => dMregOp .mreg w
  | _ => .error .reservedFn

/-- Major 0x55: TRIG, WAITDEP, YIELD, JOINK. -/
def decode55 (w : Word) : Except Reject Instr :=
  match (fFn w).toNat with
  | 0 => dZero .trig w
  | 1 => dZero .waitdep w
  | 2 => dZero .yield w
  | _ => dZero .joink w

/-- Major 0x56: LAUNCH, POSTC, RPUT, RGET. -/
def decode56 (w : Word) : Except Reject Instr :=
  match (fFn w).toNat with
  | 0 => dX1 .launch w
  | 1 => dX1 .postc w
  | 2 => dSS .rput w
  | _ => dS2 .rget w

/-- Major 0x57: GX, SX. -/
def decode57 (w : Word) : Except Reject Instr :=
  match (fFn w).toNat with
  | 0 => dGxOp .gx w
  | 1 => dGxOp .sx w
  | _ => .error .reservedFn

/-- Major 0x58: MRON, MROFF, MRLD, MRST. -/
def decode58 (w : Word) : Except Reject Instr :=
  match (fFn w).toNat with
  | 0 => dS2 .mron w
  | 1 => dS1 .mroff w
  | 2 => dRangeOp .mrld w
  | _ => dRangeOp .mrst w

/-- Major 0x59: MROP, MRADD, MRMUL, MRCMP. -/
def decode59 (w : Word) : Except Reject Instr :=
  match (fFn w).toNat with
  | 0 => dMropOp .mrop w
  | 1 => dMrkOp .mradd w
  | 2 => dMrkOp .mrmul w
  | _ => dMrcmpOp .mrcmp w

/-- Major 0x5A: MRRED. -/
def decode5A (w : Word) : Except Reject Instr :=
  match (fFn w).toNat with
  | 0 => dS3 .mrred w
  | _ => .error .reservedFn

/-- Major 0x5B: HOLD, HSET, HDEM, HPRO. -/
def decode5B (w : Word) : Except Reject Instr :=
  match (fFn w).toNat with
  | 0 => dHoldOp .hold w
  | 1 => dSS .hset w
  | 2 => dS1 .hdem w
  | _ => dS1 .hpro w

/-- Major 0x5C: HREL. -/
def decode5C (w : Word) : Except Reject Instr :=
  match (fFn w).toNat with
  | 0 => dS1 .hrel w
  | _ => .error .reservedFn

/-- Major 0x5D: IGBIND, IGRUN, IGRET, IGSTOP. -/
def decode5D (w : Word) : Except Reject Instr :=
  match (fFn w).toNat with
  | 0 => dIgbindOp .igbind w
  | 1 => dZero .igrun w
  | 2 => dIgretOp .igret w
  | _ => dZero .igstop w

/-- Major 0x5E: IGQ, IGRD, IGWR. -/
def decode5E (w : Word) : Except Reject Instr :=
  match (fFn w).toNat with
  | 0 => dIgqOp .igq w
  | 1 => dIgrdOp .igrd w
  | 2 => dIgwrOp .igwr w
  | _ => .error .reservedFn

/-- Major 0x5F: SVPUT, SVGET, SVREL, SVDROP. -/
def decode5F (w : Word) : Except Reject Instr :=
  match (fFn w).toNat with
  | 0 => dSvOp .svput w
  | 1 => dSvOp .svget w
  | 2 => dSS .svrel w
  | _ => dS3 .svdrop w

/-- Major 0x60: TRAPS, TRET, BKPT, SYNCI. -/
def decode60 (w : Word) : Except Reject Instr :=
  match (fFn w).toNat with
  | 0 => dTrapsOp .traps w
  | 1 => dZero .tret w
  | 2 => dZero .bkpt w
  | _ => dRangeOp .synci w

/-- Major 0x61: TLBINV. -/
def decode61 (w : Word) : Except Reject Instr :=
  match (fFn w).toNat with
  | 0 => dRangeOp .tlbinv w
  | _ => .error .reservedFn

/-- Major 0x7F: the hint words, by kind (R63, R69 to R71). -/
def decode7F (w : Word) : Except Reject Instr :=
  match (fG w).toNat with
  | 0 => .ok (.himm { v := w.extractLsb' 0 22 })
  | 1 => need (w.extractLsb' 0 16 == 0)
      (.hsched { l2p := w.extractLsb' 20 2, burst := w.getLsbD 19, space := w.extractLsb' 16 3 })
  | 2 => need (w.extractLsb' 0 13 == 0)
      (.hmod { rnd := w.extractLsb' 19 3, dw := w.getLsbD 18, u := w.getLsbD 17, sat := w.getLsbD 16,
               l1 := w.extractLsb' 14 2, na := w.getLsbD 13 })
  | _ => .error .reservedHint

/-- The word's instruction by its major (R62, R74), its fields read and its fixed fields checked. -/
def decodeFields (w : Word) : Except Reject Instr :=
  match (fMaj w).toNat with
  | 0x00 => decode00 w
  | 0x01 => decode01 w
  | 0x02 => decode02 w
  | 0x03 => decode03 w
  | 0x04 => decode04 w
  | 0x05 => decode05 w
  | 0x06 => decode06 w
  | 0x07 => decode07 w
  | 0x08 => decode08 w
  | 0x09 => decode09 w
  | 0x0A => decode0A w
  | 0x0B => decode0B w
  | 0x0C => decode0C w
  | 0x0D => decode0D w
  | 0x0E => decode0E w
  | 0x0F => decode0F w
  | 0x10 => decode10 w
  | 0x11 => decode11 w
  | 0x12 => decode12 w
  | 0x14 => decode14 w
  | 0x15 => decode15 w
  | 0x16 => decode16 w
  | 0x17 => decode17 w
  | 0x18 => decode18 w
  | 0x19 => decode19 w
  | 0x1A => decode1A w
  | 0x1B => decode1B w
  | 0x20 => decode20 w
  | 0x21 => decode21 w
  | 0x22 => decode22 w
  | 0x23 => decode23 w
  | 0x24 => decode24 w
  | 0x25 => decode25 w
  | 0x26 => decode26 w
  | 0x27 => decode27 w
  | 0x28 => decode28 w
  | 0x29 => decode29 w
  | 0x2A => decode2A w
  | 0x2B => decode2B w
  | 0x2C => decode2C w
  | 0x2D => decode2D w
  | 0x30 => decode30 w
  | 0x31 => decode31 w
  | 0x32 => decode32 w
  | 0x33 => decode33 w
  | 0x34 => decode34 w
  | 0x35 => decode35 w
  | 0x36 => decode36 w
  | 0x37 => decode37 w
  | 0x38 => decode38 w
  | 0x39 => decode39 w
  | 0x40 => decode40 w
  | 0x41 => decode41 w
  | 0x42 => decode42 w
  | 0x43 => decode43 w
  | 0x44 => decode44 w
  | 0x45 => decode45 w
  | 0x46 => decode46 w
  | 0x47 => decode47 w
  | 0x48 => decode48 w
  | 0x49 => decode49 w
  | 0x4A => decode4A w
  | 0x4B => decode4B w
  | 0x4C => decode4C w
  | 0x4D => decode4D w
  | 0x50 => decode50 w
  | 0x51 => decode51 w
  | 0x52 => decode52 w
  | 0x53 => decode53 w
  | 0x54 => decode54 w
  | 0x55 => decode55 w
  | 0x56 => decode56 w
  | 0x57 => decode57 w
  | 0x58 => decode58 w
  | 0x59 => decode59 w
  | 0x5A => decode5A w
  | 0x5B => decode5B w
  | 0x5C => decode5C w
  | 0x5D => decode5D w
  | 0x5E => decode5E w
  | 0x5F => decode5F w
  | 0x60 => decode60 w
  | 0x61 => decode61 w
  | 0x7F => decode7F w
  | _ => .error .unassignedMajor

/-- The decoder of a core instruction word (R62): R83's checks 1 to 5 in their order. -/
def decode (w : Word) : Except Reject Instr :=
  match decodeFields w with
  | .ok i => if i.wf then .ok i else .error .reservedField
  | .error r => .error r

/-- A register field of the stratum subset: 16 and above faults with reason 4 (R86, R321). -/
def lowReg (f : BitVec 6) : Bool := decide (f.toNat < 16)

/-- The majors of the stratum subset (R86), with the functions of majors 0x37 and 0x38 it holds. -/
def inSubset (w : Word) : Bool :=
  let m := (fMaj w).toNat
  let f := (fFn w).toNat
  decide (m ≤ 0x12) || m == 0x20 || m == 0x23 || m == 0x34 || (m == 0x37 && f != 1) || (m == 0x38 && f != 3) ||
    m == 0x39 || m == 0x40 || m == 0x41 || (m == 0x7F && (fG w).toNat == 0)

/-- Is the word of an A-form major whose E-bits the subset forbids (R321)? -/
def stratumEBits (w : Word) : Bool :=
  let m := (fMaj w).toNat
  (decide (m ≤ 0x09) || m == 0x20 || m == 0x23) && (fEa w || fEb w)

/-- Do the vector register fields of a subset word lie below 16? -/
def stratumRegs (w : Word) : Bool :=
  let m := (fMaj w).toNat
  let d := decide (m = 0x07 ∨ m = 0x08 ∨ m = 0x0F ∨ 0x34 ≤ m) || lowReg (fD w)
  let a := decide (m = 0x08 ∨ m = 0x0E ∨ 0x34 ≤ m) || lowReg (fA w)
  let b := decide (m = 0x08 ∨ 0x0A ≤ m ∧ m ≤ 0x12 ∨ 0x34 ≤ m) || lowReg (fB w)
  d && a && b

/-- The decoder of a stratum wavefront (R86, R321): an instruction, or the fault reason 1 or 4 of R323. The majors LD, ST
and LOOP give the stratum forms. -/
def decodeStratum (w : Word) : Except Nat Instr :=
  if !inSubset w then .error 1
  else if stratumEBits w then .error 4
  else
    match (fMaj w).toNat with
    | 0x40 =>
      if fS w != 0 || fFn w != 0 then .error 4
      else if !okLoadW (fD w) (fWm w) then .error 1
      else if !(lowReg (fD w) && lowReg (fA w)) then .error 4
      else .ok (.stratumLd { g := fG w, d := (fD w).setWidth 4, a := (fA w).setWidth 4, w := fWm w })
    | 0x41 =>
      if fS w != 0 || fFn w != 0 then .error 4
      else if !okStoreW (fD w) (fWm w) then .error 1
      else if !(lowReg (fD w) && lowReg (fA w)) then .error 4
      else .ok (.stratumSt { g := fG w, d := (fD w).setWidth 4, a := (fA w).setWidth 4, w := fWm w })
    | 0x39 =>
      if !lowReg (fA w) then .error 4
      else if fG w != 7 || fD w != 0 || !okLoopLen (fImm w) then .error 1
      else .ok (.stratumLoop { a := (fA w).setWidth 4, len := fImm w })
    | _ =>
      match decode w with
      | .error _ => .error 1
      | .ok i => if stratumRegs w then .ok i else .error 4


/-- The instruction at the front of a byte list, and the bytes after its word (R62: four bytes, little-endian). -/
def decodeBytes : List Byte → Except Reject (Instr × List Byte)
  | b0 :: b1 :: b2 :: b3 :: rest =>
    match decode (BitVec.ofNat 32 (ofLeBytes [b0, b1, b2, b3])) with
    | .ok i => .ok (i, rest)
    | .error r => .error r
  | _ => .error .truncated

/-- The instruction the decoder reads from a word numbered as the opcode table numbers it. -/
def decodeTableWord (nbits w : Nat) : Option Instr :=
  if nbits = 0 then none
  else
    match decodeBytes (leBytes 4 (w % 2 ^ nbits)) with
    | .ok (i, _) => some i
    | .error _ => none

/-- The word of an instruction, from the same tables (R63, R74 to R82); an event has none. -/
def encode : Instr → Option Word
  | .iadd o => some (eV3 0x00 0 o)
  | .isub o => some (eV3 0x00 1 o)
  | .iabs o => some (eV2 0x00 2 o)
  | .andn o => some (eV3 0x00 3 o)
  | .iminS o => some (eV3 0x01 0 o)
  | .iminU o => some (eV3 0x01 1 o)
  | .imaxS o => some (eV3 0x01 2 o)
  | .imaxU o => some (eV3 0x01 3 o)
  | .imulLo o => some (eV3 0x02 0 o)
  | .imulHiS o => some (eV3 0x02 1 o)
  | .imulHiU o => some (eV3 0x02 2 o)
  | .imad o => some (eV3 0x02 3 o)
  | .and o => some (eV3 0x03 0 o)
  | .or o => some (eV3 0x03 1 o)
  | .xor o => some (eV3 0x03 2 o)
  | .sel o => some (eSelOp 0x03 3 o)
  | .shl o => some (eV3 0x04 0 o)
  | .shr o => some (eV3 0x04 1 o)
  | .sar o => some (eV3 0x04 2 o)
  | .rot o => some (eV3 0x04 3 o)
  | .popc o => some (eV2 0x05 0 o)
  | .clz o => some (eV2 0x05 1 o)
  | .brev o => some (eV2 0x05 2 o)
  | .bfxU o => some (eV3 0x06 0 o)
  | .bfxS o => some (eV3 0x06 1 o)
  | .bfi o => some (eV3 0x06 2 o)
  | .icmpS o => some (eVCmp 0x07 0 o)
  | .icmpU o => some (eVCmp 0x07 1 o)
  | .plogAnd o => some (eP3 0x08 0 o)
  | .plogOr o => some (eP3 0x08 1 o)
  | .plogXor o => some (eP3 0x08 2 o)
  | .plogAndn o => some (eP3 0x08 3 o)
  | .mov o => some (eV2 0x09 0 o)
  | .movSp o => some (eV1 0x09 1 o)
  | .iaddi o => some (eVI 0x0A o)
  | .andi o => some (eVI 0x0B o)
  | .ori o => some (eVI 0x0C o)
  | .xori o => some (eVI 0x0D o)
  | .movi o => some (eVMovI 0x0E o)
  | .icmpi o => some (eVCmpI 0x0F o)
  | .shli o => some (eVShI 0x10 o)
  | .shri o => some (eVShI 0x11 o)
  | .sari o => some (eVShI 0x12 o)
  | .sadd o => some (eS3 0x14 0 o)
  | .ssub o => some (eS3 0x14 1 o)
  | .smul o => some (eS3 0x14 2 o)
  | .sand o => some (eS3 0x14 3 o)
  | .sor o => some (eS3 0x15 0 o)
  | .sxor o => some (eS3 0x15 1 o)
  | .sshl o => some (eS3 0x15 2 o)
  | .sshr o => some (eS3 0x15 3 o)
  | .scmpS o => some (eSCmp 0x16 0 o)
  | .scmpU o => some (eSCmp 0x16 1 o)
  | .smov o => some (eS2 0x17 0 o)
  | .v2s o => some (eV2SOp 0x17 1 o)
  | .s2v o => some (eS2VOp 0x17 2 o)
  | .saddi o => some (eSI 0x18 o)
  | .smovi o => some (eSMovI 0x19 o)
  | .srd o => some (eSMovI 0x1A o)
  | .swr o => some (eSwr 0x1B o)
  | .fadd o => some (eV3 0x20 0 o)
  | .fsub o => some (eV3 0x20 1 o)
  | .fmul o => some (eV3 0x20 2 o)
  | .ffma o => some (eV3 0x20 3 o)
  | .fmin o => some (eV3 0x21 0 o)
  | .fmax o => some (eV3 0x21 1 o)
  | .fclass o => some (eV2 0x21 2 o)
  | .fcmp o => some (eVCmp 0x22 0 o)
  | .fcmpUo o => some (eVCmp 0x22 1 o)
  | .haddBf o => some (eV3 0x23 0 o)
  | .hmulBf o => some (eV3 0x23 1 o)
  | .hfmaBf o => some (eV3 0x23 2 o)
  | .hmaxBf o => some (eV3 0x23 3 o)
  | .haddF16 o => some (eV3 0x24 0 o)
  | .hmulF16 o => some (eV3 0x24 1 o)
  | .hfmaF16 o => some (eV3 0x24 2 o)
  | .hmaxF16 o => some (eV3 0x24 3 o)
  | .nadd o => some (eVN 0x25 0 o)
  | .nmul o => some (eVN 0x25 1 o)
  | .nfma o => some (eVN 0x25 2 o)
  | .nmax o => some (eVN 0x25 3 o)
  | .nmin o => some (eVN 0x26 0 o)
  | .ncmp o => some (eVNCmp 0x26 1 o)
  | .rcp o => some (eV2 0x27 0 o)
  | .rsq o => some (eV2 0x27 1 o)
  | .sqrt o => some (eV2 0x27 2 o)
  | .tanh o => some (eV2 0x27 3 o)
  | .ex2 o => some (eV2 0x28 0 o)
  | .lg2 o => some (eV2 0x28 1 o)
  | .sinp o => some (eV2 0x28 2 o)
  | .cosp o => some (eV2 0x28 3 o)
  | .cvtRne o => some (eCvtOp 0x29 0 o)
  | .cvtRtz o => some (eCvtOp 0x29 1 o)
  | .cvtSr o => some (eCvtOp 0x29 2 o)
  | .cvt o => some (eCvtOp 0x29 3 o)
  | .cvtnRne o => some (eCvtnOp 0x2A 0 o)
  | .cvtnRtz o => some (eCvtnOp 0x2A 1 o)
  | .cvtnSr o => some (eCvtnOp 0x2A 2 o)
  | .cvtn o => some (eCvtnOp 0x2A 3 o)
  | .i2fS o => some (eV2 0x2B 0 o)
  | .i2fU o => some (eV2 0x2B 1 o)
  | .f2iS o => some (eV2 0x2B 2 o)
  | .f2iU o => some (eV2 0x2B 3 o)
  | .plx o => some (eV3 0x2C 0 o)
  | .pld o => some (eV3 0x2C 1 o)
  | .frw o => some (eFrwOp 0x2D o)
  | .shflIdx o => some (eV3 0x30 0 o)
  | .shflXor o => some (eV3 0x30 1 o)
  | .shflUp o => some (eV3 0x30 2 o)
  | .shflDn o => some (eV3 0x30 3 o)
  | .voteAny o => some (eVoteOp 0x31 0 o)
  | .voteAll o => some (eVoteOp 0x31 1 o)
  | .voteBal o => some (eVoteBalOp 0x31 2 o)
  | .rlogIadd o => some (eV2 0x32 0 o)
  | .rlogImaxS o => some (eV2 0x32 1 o)
  | .rlogFadd o => some (eV2 0x32 2 o)
  | .rlogFmax o => some (eV2 0x32 3 o)
  | .scanIadd o => some (eV2 0x33 0 o)
  | .scanFadd o => some (eV2 0x33 1 o)
  | .elect o => some (eGP 0x33 2 o)
  | .mskrd o => some (eS2 0x33 3 o)
  | .br o => some (eBrOp 0x34 o)
  | .brAll o => some (eBrOp 0x35 o)
  | .call o => some (eCallOp 0x36 o)
  | .ret => some (eZero 0x37 0)
  | .jmp o => some (eS1 0x37 1 o)
  | .exit o => some (eGOnly 0x37 2 o)
  | .nop => some (eZero 0x37 3)
  | .ifP o => some (eGOnly 0x38 0 o)
  | .elseP => some (eZero 0x38 1)
  | .endif => some (eZero 0x38 2)
  | .brk o => some (eGOnly 0x38 3 o)
  | .loop o => some (eLoopOp 0x39 o)
  | .ld o => some (eMemOp 0x40 o)
  | .st o => some (eMemOp 0x41 o)
  | .lds o => some (eSpOp 0x42 o)
  | .sts o => some (eSpOp 0x43 o)
  | .ldt o => some (eTensorOp 0x44 o)
  | .stt o => some (eTensorOp 0x45 o)
  | .cpt o => some (eCptOp 0x46 o)
  | .cpseal o => some (eSD 0x47 0 o)
  | .cpwait o => some (eS1 0x47 1 o)
  | .waitc o => some (eWaitcOp 0x47 2 o)
  | .pref o => some (ePrefOp 0x48 o)
  | .shset o => some (eShsetOp 0x49 o)
  | .phase o => some (ePhaseOp 0x4A 0 o)
  | .fence => some (eZero 0x4A 1)
  | .bar o => some (eBarOp 0x4A 2 o)
  | .cleanr o => some (eRangeOp 0x4B 0 o)
  | .invr o => some (eRangeOp 0x4B 1 o)
  | .flushr o => some (eRangeOp 0x4B 2 o)
  | .mma o => some (eMmaOp 0x4C o)
  | .mzero o => some (eMzeroOp 0x4D 0 o)
  | .mrd o => some (eMrdOp 0x4D 1 o)
  | .msts o => some (eSS 0x4D 2 o)
  | .mstat o => some (eSD 0x4D 3 o)
  | .aopAdd o => some (eAopOp 0x50 0 o)
  | .aopMin o => some (eAopOp 0x50 1 o)
  | .aopMax o => some (eAopOp 0x50 2 o)
  | .aopXchg o => some (eAopOp 0x50 3 o)
  | .aopAnd o => some (eAopOp 0x51 0 o)
  | .aopOr o => some (eAopOp 0x51 1 o)
  | .aopXor o => some (eAopOp 0x51 2 o)
  | .aopCas o => some (eAopOp 0x51 3 o)
  | .callm o => some (eCallmOp 0x52 o)
  | .cbatch o => some (eCbatchOp 0x53 0 o)
  | .creply o => some (eCreplyOp 0x53 1 o)
  | .cdone => some (eZero 0x53 2)
  | .twait o => some (eTwaitOp 0x53 3 o)
  | .mreg o => some (eMregOp 0x54 0 o)
  | .trig => some (eZero 0x55 0)
  | .waitdep => some (eZero 0x55 1)
  | .yield => some (eZero 0x55 2)
  | .joink => some (eZero 0x55 3)
  | .launch o => some (eX1 0x56 0 o)
  | .postc o => some (eX1 0x56 1 o)
  | .rput o => some (eSS 0x56 2 o)
  | .rget o => some (eS2 0x56 3 o)
  | .gx o => some (eGxOp 0x57 0 o)
  | .sx o => some (eGxOp 0x57 1 o)
  | .mron o => some (eS2 0x58 0 o)
  | .mroff o => some (eS1 0x58 1 o)
  | .mrld o => some (eRangeOp 0x58 2 o)
  | .mrst o => some (eRangeOp 0x58 3 o)
  | .mrop o => some (eMropOp 0x59 0 o)
  | .mradd o => some (eMrkOp 0x59 1 o)
  | .mrmul o => some (eMrkOp 0x59 2 o)
  | .mrcmp o => some (eMrcmpOp 0x59 3 o)
  | .mrred o => some (eS3 0x5A 0 o)
  | .hold o => some (eHoldOp 0x5B 0 o)
  | .hset o => some (eSS 0x5B 1 o)
  | .hdem o => some (eS1 0x5B 2 o)
  | .hpro o => some (eS1 0x5B 3 o)
  | .hrel o => some (eS1 0x5C 0 o)
  | .igbind o => some (eIgbindOp 0x5D 0 o)
  | .igrun => some (eZero 0x5D 1)
  | .igret o => some (eIgretOp 0x5D 2 o)
  | .igstop => some (eZero 0x5D 3)
  | .igq o => some (eIgqOp 0x5E 0 o)
  | .igrd o => some (eIgrdOp 0x5E 1 o)
  | .igwr o => some (eIgwrOp 0x5E 2 o)
  | .svput o => some (eSvOp 0x5F 0 o)
  | .svget o => some (eSvOp 0x5F 1 o)
  | .svrel o => some (eSS 0x5F 2 o)
  | .svdrop o => some (eS3 0x5F 3 o)
  | .traps o => some (eTrapsOp 0x60 0 o)
  | .tret => some (eZero 0x60 1)
  | .bkpt => some (eZero 0x60 2)
  | .synci o => some (eRangeOp 0x60 3 o)
  | .tlbinv o => some (eRangeOp 0x61 0 o)
  | .himm o => some (eHimmOp o)
  | .hsched o => some (eHschedOp o)
  | .hmod o => some (eHmodOp o)
  | .stratumLd o => some (eStrMem 0x40 o)
  | .stratumSt o => some (eStrMem 0x41 o)
  | .stratumLoop o => some (eStrLoop o)
  | .graphUpload _ => none
  | .graphRemove _ => none
  | .trigger _ => none
  | .instanceBegin _ => none
  | .nodeLaunch _ _ => none
  | .nodeComplete _ _ => none
  | .externalWaitWake _ _ => none
  | .externalWaitTimeout _ _ => none
  | .hostSignalAck _ _ => none
  | .stratumBlockRun _ => none
  | .gridRetire _ => none
  | .gangPlacement => none
  | .gangWaitLimit _ _ => none
  | .teamRestore _ => none
  | .continuationConvert _ => none
  | .continuationResume _ => none
  | .continuationTargetTimeout _ => none
  | .taskEnd _ => none
  | .producerComplete _ _ => none
  | .futureWake _ => none
  | .copyComplete _ _ => none
  | .matrixCmdStart _ _ => none
  | .matrixCmdRetire _ _ => none
  | .publicationCommit _ => none
  | .entryResolve _ => none
  | .maintenanceComplete _ _ => none
  | .sxAck _ _ => none
  | .marlCmdComplete _ => none
  | .residencyComplete _ => none
  | .vertexRequestArrival _ => none
  | .combineAtomic _ => none
  | .twaitWake _ => none
  | .routineCall _ => none
  | .igrunComplete _ => none
  | .deadlineExpiry _ => none
  | .priorityBoost _ => none
  | .yieldTimeout _ => none
  | .hschedSpaceExpiry _ => none
  | .vxcfgEnable _ => none
  | .vxcfgDisable _ => none
  | .svcmdOpen _ => none
  | .svcmdClose _ => none
  | .svdrain _ => none
  | .srcomp _ => none
  | .firsterrClear _ => none
  | .registerWrite _ _ => none
  | .hostWindowRead _ _ => none
  | .hostWindowWrite _ _ => none
  | .peerWrite _ _ _ => none
  | .getVersion _ => none
  | .getCapabilities _ => none
  | .negotiateAlgorithms _ => none
  | .getDigests _ => none
  | .getCertificate _ => none
  | .challenge _ => none
  | .getMeasurements _ _ => none
  | .keyExchange _ => none
  | .finish _ => none
  | .endSession _ => none
  | .memoryKeyInstall _ _ => none
  | .startLogRead _ => none
  | .managementStart _ => none
  | .coreFailure _ => none
  | .powerThrottle => none
  | .placementHold => none
  | .hbmBankTest _ _ _ => none
  | .linkFlitRetry _ _ => none
  | .powerBelowCap => none
  | .fqtailWrite _ => none
  | .srtailWrite _ => none

end Sys2Proof
end

