-- ==== Sys2Proof/Config.lean ====
section
/-! DEFINITION. What one implementation fixes, and the free values: what the spec leaves open is an opaque function
here, so that no proof can see a value of it. -/

namespace Sys2Proof

/-- The offset, in units of 2^-24 of the spec's bound, at which a special function's result lies (R165, R166): a free
value of the operation code and the operand. Only the bound of R165 limits what the model makes of it. -/
opaque Config.specialOffset : Nat → Word → Nat

/-- A byte that the spec leaves undefined (R342, R353, R430), by a number drawn from the state's counter. -/
opaque Config.freeByte : Nat → Byte

/-- A word that the spec leaves undefined, by a number drawn from the state's counter. -/
opaque Config.freeWord : Nat → Word

/-- Which of the outcomes the spec allows is taken, by a number drawn from the state's counter. -/
opaque Config.freeChoice : Nat → Nat

/-- The bytes of memory the expander of a CXL port holds (R310), 0 for a port without one. -/
opaque Config.cxlBytes : Nat → Nat

/-- A pair of maps over granules that undo each other. -/
structure Cipher where
  enc : BitVec 128 → BitVec 128
  dec : BitVec 128 → BitVec 128
  dec_enc : ∀ x, dec (enc x) = x
  enc_dec : ∀ x, enc (dec x) = x

/-- There is such a pair. -/
@[reducible] def Cipher.inhabited : Inhabited Cipher := ⟨⟨id, id, fun _ => rfl, fun _ => rfl⟩⟩

/-- What the encryption engine does to a granule under a key (R325), by key index and granule number. -/
opaque Config.xts [Inhabited Cipher] : Nat → Nat → Cipher

/-- A granule as memory holds it in a page with a key index: key index, granule number, plaintext (R325). -/
def Config.cipher (k g : Nat) (x : BitVec 128) : BitVec 128 := (@Config.xts Cipher.inhabited k g).enc x

/-- The plaintext of a granule that memory holds in such a page (R325). -/
def Config.plain (k g : Nat) (x : BitVec 128) : BitVec 128 := (@Config.xts Cipher.inhabited k g).dec x

/-- Superseded sectors that a home slice keeps in its own version ways before it uses the version backing area (R212), by
slice. -/
opaque Config.versionWays : Nat → Nat

/-- The index of a line in an L1 (R178), by line number (physical address divided by 128). -/
opaque Config.l1Index : Nat → Nat

/-- The slice that the hash of a CXL line's address selects (R21), by line number (physical address divided by 128). -/
opaque Config.cxlSlice : Nat → Nat

/-- Whether a key policy, the words of measurement index 6, lists a key index (R430, R431). -/
opaque Config.keyListed : List DWord → Nat → Bool

/-- Whether the signature of a configuration record verifies (R433), by its measurement index and its words. -/
opaque Config.signed : Nat → List DWord → Bool

/-- The start step that takes the configuration record of a measurement index (R433). -/
opaque Config.recordStep : Nat → Nat

/-- Where the matrix error record of a pair stands in its gang control block (R243), by the pair's index and in units of 16 bytes. -/
opaque Config.gcbRecord : Nat → Nat

end Sys2Proof
end

