-- ==== Sys2Proof/Machine/State/Memory.lean ====
section
/-! DEFINITION. Memory and the L2 as data (R19, R208 to R212, R310, R405, R411). -/

namespace Sys2Proof.Machine

/-- Bytes by address, addresses strictly rising. -/
abbrev Memory := List Host.Cell

/-- What a byte that no cell lists reads as (R310 gives no contents; log 1). -/
def Memory.unlisted : Byte := 0

/-- The canonical form: addresses strictly rise and no cell holds the unlisted value. -/
def Memory.wfFrom : Nat → Memory → Bool
  | _, [] => true
  | lo, c :: m => decide (lo ≤ c.1) && c.2 != Memory.unlisted && Memory.wfFrom (c.1 + 1) m

/-- The canonical form of a whole memory. -/
def Memory.wf (m : Memory) : Bool := Memory.wfFrom 0 m

/-- A committed 64-byte sector held in the L2 (R19, R208, R332): sector number (physical address divided by 64), where its line
stands (4,096 times the slice plus the set, and the way), dirty bit, the line's re-reference value, the key index it was
filled with (R325), and its bytes in plaintext. -/
structure Sector where
  num : Nat
  place : Nat
  way : Nat
  dirty : Bool
  rrpv : Nat
  key : Nat
  data : List Byte
  deriving DecidableEq, Repr

/-- A cached translation of one core (R405): address space, page base, page size and leaf entry. -/
structure TlbEntry where
  core : Nat
  asid : Nat
  page : Nat
  size : Nat
  pte : DWord
  deriving DecidableEq, Repr

/-- An instruction word that a core has fetched and may use again until a SYNCI (R411). -/
structure CodeCopy where
  core : Nat
  asid : Nat
  va : DWord
  pa : Nat
  word : Word
  /-- The leaf entry of its page, whose permissions hold for every fetch (R392, R404). -/
  pte : DWord
  deriving DecidableEq, Repr

/-- A line of a core's L1 (R178): core, the team that its sectors belong to (its version id is its own), line (physical address divided by 128),
the sectors that stand there, and of those the clean ones, with the stamp at which PREF read them (R189). -/
structure L1Line where
  core : Nat
  uid : Nat
  line : Nat
  sectors : List Nat
  clean : List (Nat × Nat)
  deriving DecidableEq, Repr

/-- An uncorrectable error in storage on the chip (R205, R209, R241, R353, R394), or a link that cannot deliver (R414). -/
inductive Upset where
  /-- An uncommitted entry of a team: its handle and the sector. -/
  | entry (uid sector : Nat)
  /-- A byte of a gang's scratchpad; whether it stands on the follower's core of a pair that reads it. -/
  | scratch (grid gang off : Nat) (follower : Bool)
  /-- A tile of a gang's pair, on the leader's or the follower's core. -/
  | tile (grid gang pair tile : Nat) (follower : Bool)
  /-- A row of a subarray of a slice in marl mode. -/
  | row (slice row sub : Nat)
  /-- The Vuilo Link, which cannot deliver transfers after retries: the lane that it reports. -/
  | link (lane : Nat)
  deriving DecidableEq, Repr

/-- The memory side of the part. `stamp` is the last position taken in the device order (R210), `retained` the
superseded bytes with the stamp that superseded them (R212), `wrote` the last stamp that wrote a sector (R268). `mem`
holds what stands in memory, ciphertext in an encrypted page (R325), and `backs` the old bytes of granules that a write-back has
just changed under a stratum block run (R330). `ecc` lists the 16-byte granules of HBM that hold an ECC
error, and whether it is uncorrectable (R313). `homeOld` holds what the writes of the vertex homes superseded (stamp, home, address,
byte), for acquires that need not see them (R272). `rawOld` holds what raw writes superseded of granules that the L2 does not hold, as
memory had them (stamp, granule, bits), for older snapshots of an encrypted page (R212, R325). `soft` lists the granules that fills of
this cycle have corrected (R313). -/
structure MemSide where
  mem : Memory
  l2 : List Sector
  stamp : Nat
  retained : List (Nat × Nat × Byte)
  wrote : List (Nat × Nat)
  tlb : List TlbEntry
  code : List CodeCopy
  ecc : List (Nat × Bool)
  backs : List (Nat × List Byte)
  homeOld : List (Nat × Nat × Nat × Byte)
  rawOld : List (Nat × Nat × BitVec 128)
  soft : List Nat
  deriving DecidableEq, Repr

/-- Nothing written, nothing cached. -/
def MemSide.empty : MemSide :=
  { mem := [], l2 := [], stamp := 0, retained := [], wrote := [], tlb := [], code := [], ecc := [], backs := [], homeOld := [],
    rawOld := [], soft := [] }

end Sys2Proof.Machine
end

