-- ==== Sys2Proof/Machine/State/Team.lean ====
section
/-! DEFINITION. The state of one team (R28, R51, R87 to R104): registers, control state, special registers, version,
in-flight operations, wait and placement. A vertex wave (R262) and a stratum wavefront (R320) are teams of their own
kind. -/

namespace Sys2Proof.Machine

/-- The three parties that fetch and issue instruction words. -/
inductive TeamKind where
  /-- A team of a grid (R28). -/
  | core
  /-- The vertex wave of a cluster (R18, R262). -/
  | wave
  /-- The wavefront of a channel (R23, R320). -/
  | stratum
  deriving DecidableEq, Repr

/-- The register files of R87. A register list is indexed by register number; `sh` holds shape records, RANK 0 being
unbound (R191). -/
structure Regs where
  /-- N, the lanes of the team (R28). -/
  n : Nat
  /-- V, the vector registers per lane (R34). -/
  nv : Nat
  v : List (List Word)
  s : List Word
  /-- Full bits of v0 to v63 (R93). -/
  vfull : BitVec 64
  /-- Full bits of s0 to s31. -/
  sfull : BitVec 32
  p : List LaneSet
  lc : List Word
  fr : List Word
  fs : List DWord
  sh : List (BitVec 256)
  deriving DecidableEq, Repr

/-- The kind of a mask stack entry (R119). -/
inductive MaskKind where
  | ifK
  | elseK
  | loopK
  deriving DecidableEq, Repr

/-- A mask stack entry (R119, R120). -/
structure MaskEntry where
  mask : LaneSet
  kind : MaskKind
  deriving DecidableEq, Repr

/-- A live loop frame: body start and length in words (R51, R127). -/
structure LoopFrame where
  start : DWord
  len : Nat
  deriving DecidableEq, Repr

/-- The pending hint run (R72, R73): its first word's address and the payloads. `twice` says that a kind occurred a
second time. -/
structure HintRun where
  first : DWord
  himm : Option HimmOp
  hsched : Option HschedOp
  hmod : Option HmodOp
  twice : Bool
  deriving DecidableEq, Repr

/-- Program counter, mask, mask stack (innermost first), loop frames (frame 0 first), loop buffer and hint run. -/
structure Control where
  pc : DWord
  mask : LaneSet
  stack : List MaskEntry
  loops : List LoopFrame
  /-- Body words fetched on a first pass (R131). -/
  buffer : List (DWord × Word)
  hints : Option HintRun
  deriving DecidableEq, Repr

/-- The special registers that hold state of their own (R99); the others are read from the placement. -/
structure Specials where
  vid : Word
  phase : Word
  tcyc : DWord
  tdl : DWord
  cause : Word
  d0 : Word
  d1 : Word
  d2 : Word
  step : Word
  ftz : Word
  rmode : Word
  deriving DecidableEq, Repr

/-- A trap: its group and its detail words (R394). -/
structure Trap where
  group : Nat
  d0 : Word
  d1 : Word
  d2 : Word
  deriving DecidableEq, Repr

/-- Where a producer's result goes (R93). -/
inductive Dst where
  /-- No register: SX, matrix commands, marl commands. -/
  | none
  /-- Vector registers from `r` on, `data` one list of lane words for each, written in `lanes`. -/
  | vec (r : Nat) (lanes : LaneSet) (data : List (List Word))
  /-- A scalar register. -/
  | scalar (r : Nat) (val : Word)
  /-- A predicate register, `vals` written in `lanes` (R269). -/
  | pred (p : Nat) (lanes vals : LaneSet)
  deriving DecidableEq, Repr

/-- One in-flight operation that holds a count on a path of R199 (0 LD, 1 CP, 2 MX, 3 GX, 4 AT, 5 MC, 6 HR). -/
structure Op where
  /-- The operation's name: its place in the team's issue order (R226). -/
  tag : Nat
  path : Nat
  dst : Dst
  /-- Lanes whose part of the result has still to arrive; none for a result that is known. -/
  waits : LaneSet
  /-- Whether the engine has the result. -/
  arrived : Bool
  /-- Whether the destination has been filled; the count falls in issue order (R95, R199). -/
  done : Bool
  deriving DecidableEq, Repr

/-- How an access treats its line in the L2 (R179, R180, R325): the re-reference value of a fill, whether nothing new is
allocated, and the key index of the page. -/
structure Ins where
  rrpv : Nat
  na : Bool
  key : Nat
  deriving DecidableEq, Repr

/-- An access that names no class, to a plaintext page. -/
def Ins.plain : Ins := ⟨0, false, 0⟩

/-- One copy of the copy engine (R201): the record and what CPT read at issue, whether it has run, how it failed (reason
and address, R205), whether a FENCE has reported that while it was unsealed (R226), and the bytes its `.OUT` side writes when its
batch completes, each with how its sector enters the L2 and the mask of its bits (R201, R204). -/
structure Copy where
  tag : Nat
  out : Bool
  sh : BitVec 256
  slot : DWord
  base : DWord
  coords : List Word
  sbase : Word
  cls : BitVec 2
  na : Bool
  done : Bool
  fail : Option (Nat × DWord)
  told : Bool
  writes : List (Nat × Ins × Byte × Byte)
  deriving DecidableEq, Repr

/-- A sealed batch (R203). -/
structure Batch where
  tag : Nat
  num : Nat
  copies : List Copy
  complete : Bool
  deriving DecidableEq, Repr

/-- CLEANR, INVR, FLUSHR (R228). -/
inductive MaintKind where
  | clean
  | inv
  | flush
  deriving DecidableEq, Repr

/-- An outstanding maintenance operation. -/
structure MaintOp where
  tag : Nat
  kind : MaintKind
  base : DWord
  len : Nat
  deriving DecidableEq, Repr

/-- An error not yet reported (R226): the failed operation's place in issue order, its path (7 for maintenance), the number of its batch
(0 for no copy), and the trap that reports it. -/
structure PendErr where
  tag : Nat
  path : Nat
  num : Nat
  trap : Trap
  deriving DecidableEq, Repr

/-- Everything a team has in flight, and what it has not yet reported. -/
structure Engines where
  ops : List Op
  unsealed : List Copy
  batches : List Batch
  lastBatch : Nat
  maint : List MaintOp
  errs : List PendErr
  deriving DecidableEq, Repr

/-- Nothing in flight. -/
def Engines.idle : Engines := ⟨[], [], [], 0, [], []⟩

/-- A team's version (R208, R211). `wside` holds the unpublished bytes by physical address, `pub` those of a publication in
progress (R209), `sx` those of scatters whose counter entry has not retired, with the operation's tag (R316, R317), `ins` how
their sectors enter the L2. `hidden` are addresses of unpublished bytes that a later immediate store of the team overwrote: the
team no longer reads them. `ownPub` holds the team's own published bytes and immediate stores with their stamps, `spilled` the sectors that
count against the quota (R216). `snap` is the snapshot point, none until the first read; `cuts` are the sectors a woken TWAIT
released (none) and later fixed again (R268). -/
structure Version where
  wside : List Host.Cell
  pub : List Host.Cell
  sx : List (Nat × Nat × Byte)
  ins : List (Nat × Ins)
  hidden : List Nat
  spilled : List Nat
  ownPub : List (Nat × Nat × Byte)
  snap : Option Nat
  cuts : List (Nat × Option Nat)
  /-- The sectors held: those read since the last acquire (R211). -/
  held : List Nat
  /-- Those that stand at their home slices: read by a gather, or by a load that allocates nothing in L1 (R179, R315). -/
  homed : List Nat
  /-- The place in the device order up to which the team has seen what the homes wrote, and the bytes of home writes that its last
  acquire did not bring it: stamp, address, and what it reads instead (R213, R272). -/
  seen : Nat
  stale : List (Nat × Nat × Byte)
  deriving DecidableEq, Repr

/-- No unpublished byte, no snapshot. -/
def Version.fresh : Version :=
  { wside := [], pub := [], sx := [], ins := [], hidden := [], spilled := [], ownPub := [], snap := none, cuts := [], held := [],
    homed := [], seen := 0, stale := [] }

/-- What a publication leads to when it commits (R209, R225, R227). -/
inductive AfterPub where
  | phase (acquire : Bool)
  | barrier (arv : Bool)
  /-- The team ends (R126). -/
  | taskEnd
  deriving DecidableEq, Repr

/-- Why a team waits before its instruction has taken effect (R41, R102): the instruction issues again. `fence` is the wait
of an instruction that a deadline lets complete first, `batch` the vertex wave's in CBATCH (R263), `ring` the wait at a stage ring, to put or to take (R308), `sieve` SVPUT's for room in a stream (R425). -/
inductive Why where
  | operand
  | counter
  | wait
  | fence
  | waitdep
  | joink
  | room
  | batch
  | ring (h : Nat) (put : Bool)
  | sieve (stream : Nat)
  | future
  deriving DecidableEq, Repr

/-- A suspended TWAIT (R268): each active lane with its polled sector (physical) and watch point, time limit and
destination predicate. -/
structure Twait where
  polls : List (Nat × Nat × Nat)
  limit : DWord
  p : BitVec 3
  long : Bool
  deriving DecidableEq, Repr

/-- A TLBINV that has dropped its translations and waits for what used them (R412): address space, the physical ranges they mapped,
the operations (team and tag) and the graph nodes under way. -/
structure Inval where
  asid : Nat
  ranges : List (Nat × Nat)
  ops : List (Nat × Nat)
  nodes : List (Nat × Nat)
  deriving DecidableEq, Repr

/-- An MROFF whose slice was returned before it (R346, R357): slice, code offset, and the MRREDs before it that counters have still to fall
past, each with its team. -/
structure OffLate where
  slice : Nat
  code : Word
  reds : List (Nat × Nat)
  deriving DecidableEq, Repr

/-- Why a team does not issue (R41). -/
inductive Wait where
  /-- The team may issue. -/
  | ready
  /-- Its next instruction could not issue when last tried. -/
  | retry (why : Why)
  /-- YIELD lets other teams issue first (R304). -/
  | yield
  /-- A publication is in progress at a scope (R209); `pressed` says that it waits for version space (R212). -/
  | publish (scope : Nat) (next : AfterPub) (pressed : Bool)
  /-- BAR waits for the generation to pass (R227). -/
  | barrier (gen : Nat) (scope : Nat)
  /-- TWAIT. -/
  | twait (w : Twait)
  /-- Parked by TRAPS with the active lanes, the service number, and the trap of a failed completion (R408). -/
  | service (lanes : LaneSet) (num : Word) (failed : Trap)
  /-- Parked on a page fault: the future's virtual and physical address, and the trap of a refused page (R406). -/
  | fault (va : DWord) (pa : Nat) (refused : Trap)
  /-- Handed to the Locus engine by IGRUN (R380). -/
  | locus
  /-- MROFF waits for its slice, or, where the slice has been returned, for counters (R346, R357). -/
  | marl (late : Option OffLate)
  /-- HSET waits behind earlier operations on its handle (R338, R342). -/
  | hset
  /-- TLBINV waits for accesses that used the dropped translations (R412). -/
  | inval (w : Inval)
  /-- No lane is left: the team ends when its counters are zero (R126). -/
  | ending
  deriving DecidableEq, Repr

/-- A continuation in its cluster's queue (R299, R437): when it was queued and its place in the order of posting, the target cluster it was
routed to, and whether any cluster of the core set may take it. -/
structure Queued where
  since : DWord
  place : Nat
  target : Nat
  anywhere : Bool
  deriving DecidableEq, Repr

/-- Where the team is. -/
inductive Stage where
  /-- On its group. -/
  | resident
  /-- In context entry k, waiting to be restored (R399, R402). -/
  | evicted (k : Nat)
  /-- A continuation in pool entry k (R47), queued or not (R437). -/
  | cont (k : Nat) (q : Option Queued)
  /-- Ended. -/
  | ended
  deriving DecidableEq, Repr

/-- Placement and launch values (R30, R99, R285, R290); `pair` is the number of a matrix-role team's pair in its gang (R231). -/
structure Place where
  core : Nat
  group : Nat
  slot : Nat
  grid : Nat
  gang : Nat
  team : Nat
  gangsz : Nat
  pair : Nat
  role : Nat
  prio : Nat
  depth : Nat
  asid : Nat
  priv : Bool
  codebase : DWord
  /-- Whether the team's gang has scratchpad, so that a continuation of it stays in its home cluster (R49). -/
  gangBound : Bool
  /-- When the team was placed or restored, the order of R399. -/
  placed : DWord
  deriving DecidableEq, Repr

/-- Issue bookkeeping (R42, R43, R70, R304). Times are issue numbers or cycles as the rule counts them. -/
structure IssueBook where
  lastIssue : Nat
  readyCount : Nat
  boosted : Bool
  burst : Bool
  /-- First arithmetic cycle after the SPACE cycles, 0 for none. -/
  spaceUntil : Nat
  /-- Teams YIELD lets issue first, and the cycle at which it ends. -/
  yieldTo : List Nat
  yieldUntil : Nat
  /-- TRIG has been issued (R302). -/
  trig : Bool
  /-- Teams stopped at a freeze point by this team's handler (R396). -/
  freeze : Bool
  /-- The instruction at the PC has begun to wait and completes before a deadline's trap (R102). -/
  begun : Bool
  deriving DecidableEq, Repr

/-- Handler mode (R391): the context entry, the group delivered, the engines' state that belongs to the saved
context, the resume point, the traps that the saved context takes when it resumes, and whether the entry holds the tiles of the team's
pair (R400). -/
structure Handler where
  entry : Nat
  group : Nat
  saved : Engines
  resume : DWord
  later : List Trap
  tiles : Bool
  deriving DecidableEq, Repr

/-- A team. `locus` is the number of its bound Locus context on its core (R358), `cont` its continuation id, 0 if it
never parked (R51). -/
structure Team where
  uid : Nat
  kind : TeamKind
  stage : Stage
  wait : Wait
  pl : Place
  rf : Regs
  ctl : Control
  sp : Specials
  ver : Version
  eng : Engines
  /-- The next tag of the team's issue order. -/
  nextTag : Nat
  book : IssueBook
  handler : Option Handler
  /-- Traps raised at resumption, in order (R389, R406, R408, R420). -/
  pending : List Trap
  locus : Option Nat
  cont : Word
  /-- Child grids that have not retired (R305). -/
  children : List Nat
  /-- Resumed from a record that POSTC posted (R300). -/
  posted : Bool
  /-- Futures that engines working for the team wait for (R406): the operation's tag, virtual and physical address. -/
  efaults : List (Nat × DWord × Nat)
  /-- Uncorrectable bytes that an operation has read (R313): its tag, and their physical address. -/
  poison : List (Nat × Nat)
  /-- The address of the instruction a team waits in after it has left its group: the PC is already past it (R51, R73). -/
  passed : Option DWord
  /-- What the end of that wait writes into the restored registers (R269, R408). -/
  late : Option Dst
  deriving DecidableEq, Repr

/-- A register file of V registers in N lanes with every register full and zero (R88). -/
def Regs.zero (n nv : Nat) : Regs :=
  { n := n, nv := nv, v := List.replicate nv (List.replicate n 0), s := List.replicate 32 0, vfull := BitVec.allOnes 64,
    sfull := BitVec.allOnes 32, p := List.replicate 7 0, lc := List.replicate 3 0, fr := List.replicate 4 0,
    fs := List.replicate 8 0, sh := List.replicate 8 0 }

/-- Control state at an entry PC with lanes 0 to N-1 (R30). -/
def Control.entry (pc : DWord) (n : Nat) : Control :=
  { pc := pc, mask := BitVec.ofNat 1024 (2 ^ n - 1), stack := [], loops := [], buffer := [], hints := none }

/-- Special registers at a team's start (R99). -/
def Specials.start (vid ftz rmode : Word) : Specials :=
  { vid := vid, phase := 0, tcyc := 0, tdl := 0, cause := 0, d0 := 0, d1 := 0, d2 := 0, step := 0, ftz := ftz,
    rmode := rmode }

/-- No team: the value of the focus before any team is placed. -/
def Team.absent : Team :=
  { uid := 0, kind := .core, stage := .ended, wait := .ready,
    pl := { core := 0, group := 0, slot := 0, grid := 0, gang := 0, team := 0, gangsz := 0, pair := 0, role := 0, prio := 0,
            depth := 0, asid := 0, priv := false, codebase := 0, gangBound := false,
            placed := 0 },
    rf := Regs.zero 32 8, ctl := Control.entry 0 32, sp := Specials.start 0 0 0, ver := Version.fresh,
    eng := Engines.idle, nextTag := 0,
    book := { lastIssue := 0, readyCount := 0, boosted := false, burst := false, spaceUntil := 0, yieldTo := [],
              yieldUntil := 0, trig := false, freeze := false, begun := false },
    handler := none, pending := [], locus := none, cont := 0, children := [], posted := false,
    efaults := [], poison := [], passed := none, late := none }

end Sys2Proof.Machine
end

