-- ==== Sys2Proof/Machine/State/Sched.lean ====
section
/-! DEFINITION. The scheduler and distributor (R273 to R300), and stratum nodes (R319 to R323). -/

namespace Sys2Proof.Machine

/-- Where a node of a running instance stands (R282, R284). -/
inductive NodeState where
  /-- Its predecessors have not all completed. -/
  | waiting
  /-- A KERNEL node launched as a grid. -/
  | grid (id : Nat)
  /-- The node's grid has retired; whether a fatal trap ended it. -/
  | retired (fatal : Bool)
  /-- A COPY node: the bytes read at its start (R278), by physical address, and how their sectors enter the L2. -/
  | copying (cells : List Host.Cell) (ins : List (Nat × Ins))
  /-- A STRATUM node on its channels. -/
  | stratum
  /-- A HOST-SIGNAL node whose write is on its way. -/
  | signal
  /-- An EXTERNAL-WAIT node: physical address of its word, the page's key index and the cycle it started. -/
  | watch (pa key : Nat) (since : DWord)
  | done
  | failed (code : Nat)
  | cancelled
  deriving DecidableEq, Repr

/-- A patch list entry (R281). -/
structure Patch where
  value : DWord
  field : Nat
  node : Nat
  deriving DecidableEq, Repr

/-- A loaded graph (R276, R277): node records as 8 words of 64 bits, edges, launch records as 32 words of 64 bits,
one per node and empty for a node that is no KERNEL. `units` is its allotment of scheduler memory (R273). -/
structure Graph where
  asid : Nat
  priv : Bool
  nodes : List (List DWord)
  edges : List Nat
  recs : List (List DWord)
  units : Nat
  running : Bool
  /-- The accepted triggers, oldest first, each with its patch list if it has one (R281). -/
  pending : List (Option (List Patch))
  states : List NodeState
  deriving DecidableEq, Repr

/-- GSTAT g and the graph it describes (R279). -/
structure GraphSlot where
  graph : Option Graph
  failNode : Nat
  failCode : Nat
  count : Nat
  cmdstat : Nat
  deriving DecidableEq, Repr

/-- An empty slot. -/
def GraphSlot.empty : GraphSlot := ⟨none, 0, 0, 0, 0⟩

/-- What launched a grid. -/
inductive Launcher where
  | node (graph : Nat) (node : Nat)
  | team (uid : Nat) (grid : Nat)
  | waves
  deriving DecidableEq, Repr

/-- A live grid (R28, R291): launch record of 32 words, and what R294 gives it. `next` is the first gang not yet
placed, `size` the number of gangs, `last` the cluster of the gang placed last (R293). -/
structure Grid where
  id : Nat
  from_ : Launcher
  rec_ : List DWord
  asid : Nat
  prio : Nat
  depth : Nat
  priv : Bool
  cores : BitVec 24
  since : DWord
  next : Nat
  size : Nat
  last : Nat
  fatal : Bool
  deriving DecidableEq, Repr

/-- A node run of the stratum wavefronts (R319, R320): code words, parameters, range base and, for each channel, the
blocks (virtual and physical address, index) still to run. -/
structure StratumRun where
  graph : Nat
  node : Nat
  codeVa : DWord
  code : List Word
  params : List Word
  blocks : List (Nat × DWord × Nat × Nat)
  failed : Bool
  deriving DecidableEq, Repr

/-- The block run in progress on a channel (R320): block, granule buffer and instructions issued. -/
structure BlockRun where
  graph : Nat
  node : Nat
  va : DWord
  pa : Nat
  index : Nat
  buffer : List Host.Cell
  issued : Nat
  deriving DecidableEq, Repr

/-- The scheduler's registers (R274) and tables. `waited` lists gangs (grid, index) that have waited the limit of
R292. -/
structure Sched where
  gimg : DWord
  trigseq : DWord
  cpool : DWord
  gcbarea : DWord
  graphs : List GraphSlot
  grids : List Grid
  waited : List (Nat × Nat)
  poolUsed : List Nat
  ctxUsed : List Nat
  nextGrid : Nat
  nextVid : Nat
  nextCont : Nat
  nextUid : Nat
  /-- The place in the order of posting of the next continuation that is queued (R299). -/
  nextPlace : Nat
  deriving DecidableEq, Repr

/-- The scheduler at reset (R274, R279): registers zero, no graph, no grid. -/
def Sched.reset : Sched :=
  { gimg := 0, trigseq := 0, cpool := 0, gcbarea := 0, graphs := List.replicate 256 GraphSlot.empty, grids := [],
    waited := [], poolUsed := [], ctxUsed := [], nextGrid := 1, nextVid := 1, nextCont := 1, nextUid := 1, nextPlace := 0 }

/-- The stratum side: v11 to v15 of each channel that has run a block (R320), node runs and the run in progress of
each channel. -/
structure StratumUnit where
  kept : List (Nat × List (List Word))
  runs : List StratumRun
  current : List (Nat × BlockRun)
  deriving DecidableEq, Repr

end Sys2Proof.Machine
end

