-- ==== Sys2Proof/Machine/State/Gang.lean ====
section
/-! DEFINITION. Gangs (R28): scratchpad, gang control block (R227) and matrix pairs (R230 to R243). -/

namespace Sys2Proof.Machine

/-- Words by index, zero where unlisted. -/
abbrev Sparse := List (Nat × Word)

/-- The state of a tile index of a pair (R237). -/
inductive TileState where
  | untyped
  | fp32
  | int32
  | invalid
  deriving DecidableEq, Repr

/-- Tile T of a pair: leader words and follower words, word 128i + j (R236). -/
structure Tile where
  state : TileState
  lead : Sparse
  foll : Sparse
  deriving DecidableEq, Repr

/-- The four matrix commands (R238) with the scalars read at issue (R239). -/
inductive MCmdKind where
  | mma (t : Nat) (a0 : Word) (vb : Nat) (fa fb : DWord) (z : Bool) (low : Nat)
  | mzero (t : Nat)
  | mrd (sel : Word)
  | msts (sel dst : Word) (slot : DWord)
  deriving DecidableEq, Repr

/-- A command in the queue: its issuer, the in-flight operation it retires, and its place (R243). -/
structure MCmd where
  uid : Nat
  team : Nat
  follower : Bool
  tag : Nat
  pc : DWord
  seq : Word
  kind : MCmdKind
  deriving DecidableEq, Repr

/-- What the running command will do when it retires (R238). -/
inductive MRun where
  /-- A new tile value of an MMA. -/
  | tile (t : Nat) (new : Tile)
  /-- A tile cleared by MZERO. -/
  | clear (t : Nat)
  /-- A row quarter for the reader. -/
  | row (vals : List Word)
  /-- Bytes for scratchpad. -/
  | store (cells : List Host.Cell)
  deriving DecidableEq, Repr

/-- The matrix error record (R243). `uid` and `tag` name the failing command in its team's issue order (R226). -/
structure MErr where
  uid : Nat
  tag : Nat
  pc : DWord
  seq : Word
  team : Nat
  tile : Nat
  code : Nat
  core : Nat
  more : Nat
  reported : Bool
  valid : Bool
  deriving DecidableEq, Repr

/-- The clear record. -/
def MErr.clear : MErr := ⟨0, 0, 0, 0, 0, 0, 0, 0, 0, false, false⟩

/-- A pair owned by the gang: its index in the gang, its leader core, tiles, queue and record. `closed` says that it takes no
more commands because its teams are to be evicted (R232). -/
structure Pair where
  idx : Nat
  leader : Nat
  tiles : List Tile
  queue : List MCmd
  running : Option MRun
  halted : Bool
  closed : Bool
  err : MErr
  seq : Word
  deriving DecidableEq, Repr

/-- A governor entry of the gang (R288, R298): its number, the armed conversion (ring offset, and whether to the vector
role), and when its quiet time ends. -/
structure Governor where
  idx : Nat
  armed : Option (Nat × Bool)
  quiet : DWord
  deriving DecidableEq, Repr

/-- Scratchpad of a gang (R173, R175): granules of 1 KiB in a block of a core. -/
structure Carve where
  core : Nat
  block : Nat
  granules : Nat
  deriving DecidableEq, Repr

/-- A gang: its grid and index, the number of its gang control block (R274), cluster, size, scratchpad with the granules that blocks of
the cluster's cores hold of it (R173, R175), barrier and pairs. `pendingArr` gives each waiting
`%team` the generation of its arrival (R227), `ringWait` the teams that wait on stage rings in arrival order (ring, whether
to put, team; R308). -/
structure Gang where
  grid : Nat
  idx : Nat
  block : Nat
  cluster : Nat
  size : Nat
  scratchLen : Nat
  carve : List Carve
  scratch : List Host.Cell
  gen : Nat
  arrived : Nat
  live : Nat
  pendingArr : List (Nat × Nat)
  pairs : List Pair
  govs : List Governor
  ringWait : List (Nat × Bool × Nat)
  deriving DecidableEq, Repr

end Sys2Proof.Machine
end

