-- ==== Sys2Proof/Machine/State/Units.lean ====
section
/-! DEFINITION. Residency and marl mode (R332 to R353), Locus contexts (R358 to R382), host registers (R388, R418, R421,
R417, R429) and the management controller's state (R13, R327 to R328, R430 to R434). -/

namespace Sys2Proof.Machine

/-- A residency operation queued at a handle (R338 to R342); an HSET waits with its priority and class. -/
inductive HOpKind where
  | dem
  | pro
  | rel
  | set (prio cls : Nat)
  deriving DecidableEq, Repr

/-- One queued residency operation: issuer and its in-flight operation. -/
structure HOp where
  kind : HOpKind
  uid : Nat
  tag : Nat
  deriving DecidableEq, Repr

/-- A residency handle (R335, R336): id, address space, range, priority, class, queue. -/
structure Handle where
  id : Nat
  asid : Nat
  base : DWord
  len : Nat
  prio : Nat
  cls : Nat
  ops : List HOp
  deriving DecidableEq, Repr

/-- L2 registers (R333) and live handles. For each pool, the 4 KiB pages of its register's range that are in use, and the
pages outside the range that migrations have given it (R333, R339). -/
structure Residency where
  l2cfg : DWord
  hrpool0 : DWord
  hrpool1 : DWord
  handles : List Handle
  used0 : List Nat
  used1 : List Nat
  extra0 : List Nat
  extra1 : List Nat
  deriving DecidableEq, Repr

/-- At reset: FARWAYS 2, MARLMAX 0, no pool (R333). -/
def Residency.reset : Residency :=
  { l2cfg := 2, hrpool0 := 0, hrpool1 := 0, handles := [], used0 := [], used1 := [], extra0 := [], extra1 := [] }

/-- A queued marl command with its operand words as read at issue (R348, R349). -/
inductive MarlCmd where
  | ld (base : DWord) (target row : Word)
  | st (base : DWord) (target row : Word)
  | op (f : BitVec 3) (target row : Word)
  | add (k : Nat) (target row imm : Word)
  | mul (k : Nat) (target row imm : Word)
  | cmp (lt : Bool) (k : Nat) (target row imm : Word)
  | red (target row : Word)
  | off
  deriving DecidableEq, Repr

/-- A command in a slice's queue: issuer, in-flight operation, code offset, command. -/
structure MarlEntry where
  uid : Nat
  tag : Nat
  code : Word
  cmd : MarlCmd
  deriving DecidableEq, Repr

/-- A slice in marl mode (R343, R347): owner, rows (row number, the lanes of the 56 subarrays as one number, lane e
at bit e; unlisted rows are zero), queue, and the MRREDs that have completed, each with its team (R357). -/
structure MarlSlice where
  num : Nat
  grid : Nat
  gang : Nat
  rows : List (Nat × Nat)
  queue : List MarlEntry
  reds : List (Nat × Nat)
  deriving DecidableEq, Repr

/-- Root finding of R375: event, bracket with its values, last move (0 none, 1 of b, 2 of a), iterations, and whether the
search has stopped. -/
structure RootState where
  ev : Nat
  a : Word
  ga : Word
  b : Word
  gb : Word
  last : Nat
  iters : Nat
  closed : Bool
  deriving DecidableEq, Repr

/-- One lane of a Locus context: the fields of R376, the interpolant's t_prev and h_last (R373), the event values (R368), and
where the lane stands in the step (R367 to R375). -/
structure LocusLane where
  t : Word
  h : Word
  err : Word
  /-- Newton solves of the last attempt, and attempts since IGBIND. -/
  solves : Nat
  attempts : Nat
  stat : Word
  tprev : Word
  hlast : Word
  /-- Whether a step has been accepted since IGBIND. -/
  stepped : Bool
  gprev : List Word
  /-- YN, F0 and F1 of the last accepted step, put back when an attempt is lost. -/
  ynAcc : List Word
  f0Acc : List Word
  f1Acc : List Word
  /-- Whether F1 is f at the present y (R367). -/
  f1valid : Bool
  /-- What the last routine returned. -/
  ret : List Word
  /-- Whether the lane takes part in the attempt, the attempt's step size, whether it was clipped to TEND (R372), and h as
  the attempt began (R382). -/
  inStep : Bool
  ha : Word
  clipped : Bool
  h0 : Word
  /-- The stage: base, iterate, factors, exchanges, the previous norm. -/
  base : List Word
  yi : List Word
  lu : List (List Word)
  perm : List Nat
  dprev : Word
  converged : Bool
  failed : Bool
  accepted : Bool
  root : Option RootState
  deriving DecidableEq, Repr

/-- What the engine does next (R367): a name in `-Back` or `jac` and `res` first takes what a routine has returned. -/
inductive LocusPhase where
  | idle
  | start
  | f0Back
  | g0Back
  | attempt
  | f0Again
  | stage (i : Nat)
  | jacBack (i : Nat)
  | newton (i it : Nat)
  | resBack (i it : Nat)
  | impBack (i : Nat)
  | expBack (i : Nat)
  | stepEnd
  | f1Back
  | g1Back
  | roots
  | rootBack
  | commit
  deriving DecidableEq, Repr

/-- A bound context (R358): core, number, owner, the two records as copied (R360, R362, as 32-bit words), the differences
b - b̂ of R371, lanes, and the state of the IGRUN and of the call under way. -/
structure LocusCtx where
  core : Nat
  num : Nat
  uid : Nat
  tableau : List Word
  problem : List Word
  bdiff : List Word
  lanes : List LocusLane
  phase : LocusPhase
  /-- Whether the team is inside a routine, between a routine call and its IGRET. -/
  inRoutine : Bool
  /-- The call: KIND and PART (R365), its lanes, and the mask stack depth and loop frames at the call (R366). -/
  kind : Nat
  part : Nat
  called : LaneSet
  depth : Nat
  frames : List LoopFrame
  /-- The IGRUN: its lanes, mask, mask stack, loop frames and address. -/
  active : LaneSet
  savedMask : LaneSet
  savedStack : List MaskEntry
  savedLoops : List LoopFrame
  igrunPc : DWord
  /-- The IGRET that handed control to the engine, none at the start of the IGRUN. -/
  igretPc : Option DWord
  /-- No attempt has been made in this IGRUN. -/
  first : Bool
  /-- Whether the IGRUN was issued in handler mode. -/
  byHandler : Bool
  deriving DecidableEq, Repr

/-- The error record an ill-formed tableau or problem record writes (R378). -/
structure LocusErr where
  core : Nat
  num : Nat
  addr : DWord
  reason : Nat
  bit : Nat
  deriving DecidableEq, Repr

/-- A service request whose blocks are allocated (R418 to R420): continuation id, team if it still waits, lanes,
first block, count. -/
structure SvcReq where
  cont : Word
  uid : Option Nat
  lanes : LaneSet
  first : Nat
  count : Nat
  freed : Bool
  deriving DecidableEq, Repr

/-- An event of the present cycle, which takes its number when the cycle ends (R397): kind, SOURCE, payload. -/
structure LogItem where
  kind : Nat
  src : Nat
  payload : List Byte
  deriving DecidableEq, Repr

/-- The host-visible registers of R388, R418, R421 and R417. The sieve's stream records and entries are memory at
SVCFG.BASE (R422). -/
structure HostRegs where
  trapvec : DWord
  trapdlv : DWord
  ctxarea : DWord
  ctxva : DWord
  astbase : DWord
  fqbase : DWord
  fqhead : DWord
  fqtail : DWord
  elogbase : DWord
  eloghead : DWord
  elogtail : DWord
  eseq : DWord
  ovfcnt : DWord
  firsterr0 : DWord
  firsterr1 : DWord
  /-- ECNT u, zero where unlisted. -/
  ecnt : List (Nat × DWord)
  /-- Events of the present cycle. -/
  events : List LogItem
  srbase : DWord
  srarg : DWord
  srhead : DWord
  srtail : DWord
  srahead : DWord
  sratail : DWord
  requests : List SvcReq
  svcfg : DWord
  /-- The open streams. -/
  openStreams : List Nat
  pwin : List DWord
  /-- What the host's last read of the HBM window returned (R416), empty after an error response to any access (R313, R414, R422); the model's
  own. -/
  answer : List Byte
  /-- Whether the host's writes come from its driver's privileged queue (R275); the model's own. -/
  privq : Bool
  deriving DecidableEq, Repr

/-- The registers at reset (R388, R418, R421). -/
def HostRegs.reset : HostRegs :=
  { trapvec := 0, trapdlv := 0x1C000, ctxarea := 0, ctxva := 0, astbase := 0, fqbase := 0, fqhead := 0, fqtail := 0,
    elogbase := 0, eloghead := 0, elogtail := 0, eseq := 0, ovfcnt := 0, firsterr0 := 0, firsterr1 := 0, ecnt := [], events := [],
    srbase := 0, srarg := 0, srhead := 0, srtail := 0, srahead := 0, sratail := 0, requests := [], svcfg := 0,
    openStreams := [], pwin := List.replicate 256 0, answer := [], privq := true }

/-- A start step record (R432). -/
structure StartStep where
  step : Nat
  alt : Nat
  fails : Nat
  skip : Bool
  deriving DecidableEq, Repr

/-- The SPDM responder's place in its protocol (R430, R431). -/
structure Spdm where
  version : Bool
  caps : Bool
  algs : Bool
  exchanged : Bool
  secured : Bool
  /-- Measurement indices reported inside the session for the current start. -/
  measured : List Nat
  deriving DecidableEq, Repr

/-- A configuration record (R3, R430, R433): its measurement index and its words. -/
structure ConfigRec where
  kind : Nat
  words : List DWord
  deriving DecidableEq, Repr

/-- What the controller notes in its log. -/
inductive LogNote where
  /-- A core has failed with no spare left (R13). -/
  | coreFailed (core : Nat)
  /-- The placement of gangs is held, at a clock (R434). -/
  | hold (mhz : Nat)
  /-- A configuration record was replaced at start (R433). -/
  | replaced (kind : Nat)
  deriving DecidableEq, Repr

/-- What a measurement reports (R430). -/
inductive Measure where
  /-- Index 1: the controller's firmware. -/
  | firmware
  /-- Index 2, the identity record: the device with its stepping (R2, R428), and the step at which start stopped (R432). -/
  | identity (device : DWord) (stopped : Option Nat)
  /-- Indices 3 to 6: a configuration record. -/
  | record (r : ConfigRec)
  deriving DecidableEq, Repr

/-- The banks of a channel (R327): the bank that each logical bank 0 to 31 stands in and, last, the one that is the spare; and for every spare
row in use the bank that holds it and its sub-channel. -/
structure BankMap where
  channel : Nat
  banks : List Nat
  used : List (Nat × Nat)
  deriving DecidableEq, Repr

/-- The management controller (R13, R25, R327, R328, R414, R429 to R434). -/
structure Mgmt where
  pcap : Nat
  clk : Nat
  mbxrsp : DWord
  spdm : Spdm
  keys : List Nat
  steps : List StartStep
  startStopped : Option Nat
  started : Bool
  log : List LogNote
  /-- The configuration records in use, the last verified of each kind, and those that the next start verifies (R3, R433). -/
  records : List ConfigRec
  offered : List ConfigRec
  /-- What the last MEASUREMENTS response reported (R430). -/
  report : List Measure
  /-- Spares left on each die (R12, R13). -/
  spares : List Nat
  fenced : List Nat
  /-- Core and slot of each cluster's vertex wave, on group 0 (R13, R18). -/
  waves : List (Nat × Nat)
  hold : Bool
  repairs : List DWord
  /-- The address map record in use (R312). -/
  map : BitVec 512
  /-- Channels whose spare bank is used up, and the banks of channels where one has been tested (R327). -/
  noSpare : List Nat
  banks : List BankMap
  lanesOut : List Nat
  deriving DecidableEq, Repr

/-- The address map record at reset (R312 gives it from a configuration record; log 8): channel bit k is bit k of the block number,
and the version backing area is 1 MiB at address 0. -/
def defaultMap : BitVec 512 :=
  (List.range 8).foldl (fun x k => x ||| BitVec.ofNat 512 (2 ^ (32 + 33 * k))) (BitVec.ofNat 512 (2 ^ 352 + 1))

/-- The words of an address map record. -/
def mapWords (m : BitVec 512) : List DWord := (List.range 8).map fun k => m.extractLsb' (64 * k) 64

/-- The address map record of its words. -/
def mapOf (ws : List DWord) : BitVec 512 := ws.zipIdx.foldl (fun m x => m ||| BitVec.ofNat 512 (x.1.toNat * 2 ^ (64 * x.2))) 0

/-- The record of cores and spares (R3, R13). DESIGN CHOICE (log 96): the spec gives no layout; a word for each die holds the spares that it
has left. The enabled cores are 96 on each die, numbered logically (R12). -/
def spareRecord (spares : List Nat) : ConfigRec := ⟨3, spares.map (BitVec.ofNat 64)⟩

/-- The configuration records at reset (log 96): four spares on each die (R12), the default map, no repair, and a key policy whose contents
the spec leaves open. -/
def defaultRecords : List ConfigRec := [spareRecord [4, 4], ⟨4, mapWords defaultMap⟩, ⟨5, []⟩, ⟨6, []⟩]

/-- The start step that enables the cores of a die (R13). DESIGN CHOICE (log 96). -/
def coreStep (die : Nat) : Nat := die + 1

/-- The start steps (R432). DESIGN CHOICE (log 96): the spec names no step record; the model has one that enables the cores of each die,
without alternative and not to be skipped (R13), one that trains the link, with a lower rate as its alternative, and one that may be
skipped. -/
def defaultSteps : List StartStep := [⟨coreStep 0, 0, 0, false⟩, ⟨coreStep 1, 0, 0, false⟩, ⟨3, 4, 0, false⟩, ⟨5, 0, 0, true⟩]

/-- Put a record in the place of the one of its kind, in use and offered: the controller has signed it (R328). -/
def putRecord (r : ConfigRec) (rs : List ConfigRec) : List ConfigRec := rs.map fun x => if x.kind == r.kind then r else x

/-- The controller when start has completed: CAP 1,800 W, 2,500 MHz (R429), four spares on each die (R12). -/
def Mgmt.reset : Mgmt :=
  { pcap := 1800, clk := 2500, mbxrsp := 0, spdm := ⟨false, false, false, false, false, []⟩, keys := [], steps := defaultSteps,
    startStopped := none, started := true, log := [], records := defaultRecords, offered := defaultRecords, report := [], spares := [4, 4], fenced := [], waves := (List.range 24).map (fun c => (8 * c, 0)), hold := false, repairs := [],
    map := defaultMap, noSpare := [], banks := [], lanesOut := [] }

end Sys2Proof.Machine
end

