-- ==== Sys2Proof/Machine/State/Vertex.lean ====
section
/-! DEFINITION. The vertex region, its homes and the class store (R251 to R266). -/

namespace Sys2Proof.Machine

/-- The built-in atomics of R260. -/
inductive AtomicOp where
  | add
  | minS
  | minU
  | maxS
  | maxU
  | xchg
  | and
  | or
  | xor
  | cas
  deriving DecidableEq, Repr

/-- What a request asks for. -/
inductive VReqKind where
  /-- An AOP on a word or, with `dw`, a doubleword: operand and, for CAS, the new value. -/
  | aop (op : AtomicOp) (dw : Bool) (x new : DWord)
  /-- A method call. -/
  | call (method : Nat) (arg : Word)
  deriving DecidableEq, Repr

/-- One lane's request (R257, R261): requester, its in-flight operation, lane, home, addresses, and the page's key index. -/
structure VReq where
  uid : Nat
  tag : Nat
  lane : Nat
  home : Nat
  va : DWord
  pa : Nat
  key : Nat
  kind : VReqKind
  deriving DecidableEq, Repr

/-- An open batch (R263): requests in lane order, object address (virtual and physical) and its page's key index, size code,
class, method, return slots and the cell buffer. -/
structure VBatch where
  reqs : List VReq
  va : DWord
  pa : Nat
  key : Nat
  size : Nat
  cls : Nat
  method : Nat
  slots : List (Option Word)
  buffer : List Host.Cell
  deriving DecidableEq, Repr

/-- A vertex home (R18, R257, R265, R266). -/
structure Home where
  queue : List VReq
  batch : Option VBatch
  seq : Nat
  stopped : Bool
  deriving DecidableEq, Repr

/-- An empty home. -/
def Home.empty : Home := ⟨[], none, 0, false⟩

/-- The vertex unit: registers of R251, homes, requests travelling to them, and the class store (class, 64 words). -/
structure VertexUnit where
  cfg : DWord
  lrec : DWord
  asid : DWord
  homes : List Home
  travelling : List VReq
  classes : List (Nat × List Word)
  deriving DecidableEq, Repr

/-- The vertex unit at reset: registers zero (R251), no class, 24 empty homes (R18). -/
def VertexUnit.reset : VertexUnit :=
  { cfg := 0, lrec := 0, asid := 0, homes := List.replicate 24 Home.empty, travelling := [], classes := [] }

end Sys2Proof.Machine
end

