-- ==== Sys2Proof/Machine/State.lean ====
section
/-! DEFINITION. The state of the part, how a run can stop, and the state after reset. The pieces a chapter of the spec
names stand in Machine/State/. -/

namespace Sys2Proof.Machine

/-- One entry of the agenda: what happens next where the spec leaves the order to other agents. -/
inductive Act where
  /-- A step of another agent or of an engine. -/
  | event (i : Instr)
  /-- Device time passes: nanoseconds of `%cycle` (R26, R101). -/
  | time (ns : Nat)
  /-- Group `g` (core times 4 plus group) issues next: the focus moves to the team R42 chooses there. -/
  | group (g : Nat)
  deriving DecidableEq, Repr

/-- The machine. `team` is the team in focus, the one whose instruction runs next, and `others` all other teams.
`agenda` and `free` are the model's own: which agent moves next, and the counter that draws free values. -/
structure State where
  agenda : List Act
  free : Nat
  /-- `%cycle` (R101). -/
  cycle : DWord
  /-- Arithmetic cycles since start (R26). -/
  arith : Nat
  /-- The part of an arithmetic cycle that has passed, in thousandths. -/
  frac : Nat
  /-- Instructions issued so far, the age order of R42. -/
  issued : Nat
  team : Team
  others : List Team
  ms : MemSide
  /-- The lines of all L1s, the most recently used first (R178). -/
  l1 : List L1Line
  gangs : List Gang
  sched : Sched
  /-- The 768 stochastic-rounding generators, one a group (R155); zero where unlisted. -/
  gens : List (Nat × DWord)
  vx : VertexUnit
  res : Residency
  marl : List MarlSlice
  locus : List LocusCtx
  locusErr : List LocusErr
  /-- The number of the context that each core's engine served last, by core (R359). -/
  served : List (Nat × Nat)
  host : HostRegs
  mgmt : Mgmt
  strat : StratumUnit
  /-- Uncorrectable errors that stand in the part's own storage, and a link that cannot deliver. -/
  upsets : List Upset
  deriving DecidableEq, Repr

/-- Why the machine stops. No instruction or event of the table stops it. -/
inductive Fault where
  /-- Raised by step alone, when no agent can move and no time can pass: start has stopped (R432). Safe: the spec
  gives a part whose start stopped no behaviour. -/
  | startStopped
  deriving DecidableEq, Repr

/-- Why an instruction has no meaning. -/
inductive Refusal where
  /-- Raised by an arm of exec for an instruction that the model does not cover yet. Safe: nothing is claimed. -/
  | notModelled (mnemonic : String)
  deriving DecidableEq, Repr

/-- The part when start has completed (R101): no team placed, every register at its reset value, memory with nothing
listed. -/
def State.reset : State :=
  { agenda := [], free := 0, cycle := 0, arith := 0, frac := 0, issued := 0, team := Team.absent, others := [],
    ms := MemSide.empty, l1 := [], gangs := [], sched := Sched.reset, gens := [], vx := VertexUnit.reset, res := Residency.reset,
    marl := [], locus := [], locusErr := [], served := [], host := HostRegs.reset, mgmt := Mgmt.reset,
    strat := { kept := [], runs := [], current := [] }, upsets := [] }

end Sys2Proof.Machine
end

