-- ==== Sys2Proof/Machine/Regs.lean ====
section
/-! DEFINITION. Reading and writing the registers of one team (R31, R87, R105): lanes, lane sets, vector, scalar and
predicate registers, and the full bits of R93. -/

namespace Sys2Proof.Machine

/-- The number whose bit `L` is `f L` for `L < n`. -/
def packLanes : Nat → (Nat → Bool) → Nat
  | 0, _ => 0
  | n + 1, f => packLanes n f + (if f n then 2 ^ n else 0)

/-- The lane set of the lanes below `n` where `f` holds. -/
def laneSet (n : Nat) (f : Nat → Bool) : LaneSet := BitVec.ofNat 1024 (packLanes n f)

/-- Lanes 0 to n-1. -/
def allLanes (n : Nat) : LaneSet := BitVec.ofNat 1024 (2 ^ n - 1)

/-- The lanes below `n` of a set, ascending. -/
def lanesOf (n : Nat) (m : LaneSet) : List Nat := (List.range n).filter fun L => m.getLsbD L

/-- The lowest lane of a set. -/
def lowestLane (n : Nat) (m : LaneSet) : Option Nat := (lanesOf n m).head?

/-- Mask word `w` (R31). -/
def maskWord (m : LaneSet) (w : Nat) : Word := m.extractLsb' (32 * w) 32

/-- The summary word: bit `w` says that mask word `w` is not zero (R31). -/
def summary (m : LaneSet) : Word := BitVec.ofNat 32 (packLanes 32 fun w => maskWord m w != 0)

/-- Lane `L` of vector register `r`. -/
def vget (t : Team) (r L : Nat) : Word := (t.rf.v.getD r []).getD L 0

/-- Scalar register `r`. -/
def sget (t : Team) (r : Nat) : Word := t.rf.s.getD r 0

/-- The scalar pair whose even register is `r` (R7, R64). -/
def spair (t : Team) (r : Nat) : DWord := pairOf (sget t r) (sget t (r + 1))

/-- Predicate register `p` as a lane set. -/
def pset (t : Team) (p : Nat) : LaneSet := t.rf.p.getD p 0

/-- The lanes active under guard `g` (R31, R65): the mask, and the guard predicate unless `g` is 7. -/
def active (t : Team) (g : BitVec 3) : LaneSet :=
  if g = 7 then t.ctl.mask else t.ctl.mask &&& pset t g.toNat

/-- Write `f L` into the lanes of `m` in vector register `r`; other lanes keep their values (R105). -/
def setV (t : Team) (r : Nat) (m : LaneSet) (f : Nat → Word) : Team :=
  { t with rf := { t.rf with
      v := t.rf.v.set r ((List.range t.rf.n).map fun L => if m.getLsbD L then f L else vget t r L) } }

/-- Write a scalar register. -/
def setS (t : Team) (r : Nat) (x : Word) : Team := { t with rf := { t.rf with s := t.rf.s.set r x } }

/-- Write a scalar pair, low half first. -/
def setPair (t : Team) (r : Nat) (x : DWord) : Team := setS (setS t r (loHalf x)) (r + 1) (hiHalf x)

/-- Write a predicate register whole. -/
def setP (t : Team) (p : Nat) (m : LaneSet) : Team := { t with rf := { t.rf with p := t.rf.p.set p m } }

/-- Write the lanes of `m` in a predicate register; other lanes keep their bits (R112). -/
def setPLanes (t : Team) (p : Nat) (m : LaneSet) (f : Nat → Bool) : Team :=
  setP t p ((pset t p &&& ~~~m) ||| (laneSet t.rf.n f &&& m))

/-- Write the same bit in lanes 0 to N-1 (R116, R134). -/
def setPUniform (t : Team) (p : Nat) (b : Bool) : Team := setP t p (if b then allLanes t.rf.n else 0)

/-- A number format register. -/
def frget (t : Team) (k : Nat) : Word := t.rf.fr.getD k 0

/-- A format slot (R147). -/
def fsget (t : Team) (k : Nat) : DWord := t.rf.fs.getD k 0

/-- A shape record (R191). -/
def shget (t : Team) (k : Nat) : BitVec 256 := t.rf.sh.getD k 0

/-- Whether a vector register is full (R93). -/
def vIsFull (t : Team) (r : Nat) : Bool := t.rf.vfull.getLsbD r

/-- Whether a scalar register is full. -/
def sIsFull (t : Team) (r : Nat) : Bool := t.rf.sfull.getLsbD r

/-- Set the full bit of a vector register. -/
def markV (t : Team) (r : Nat) (full : Bool) : Team :=
  { t with rf := { t.rf with vfull := if full then t.rf.vfull ||| BitVec.ofNat 64 (2 ^ r)
      else t.rf.vfull &&& ~~~(BitVec.ofNat 64 (2 ^ r)) } }

/-- Set the full bit of a scalar register. -/
def markS (t : Team) (r : Nat) (full : Bool) : Team :=
  { t with rf := { t.rf with sfull := if full then t.rf.sfull ||| BitVec.ofNat 32 (2 ^ r)
      else t.rf.sfull &&& ~~~(BitVec.ofNat 32 (2 ^ r)) } }

/-- Registers `r` to `r + k - 1` with a full bit. -/
def markVs (t : Team) (r : Nat) : Nat → Bool → Team
  | 0, _ => t
  | k + 1, full => markV (markVs t r k full) (r + k) full

/-- Write a vector register group: `data` holds one list of lane words for each register from `r` on. -/
def setVs (t : Team) (r : Nat) (m : LaneSet) : List (List Word) → Team
  | [] => t
  | x :: xs => setVs (setV t r m fun L => x.getD L 0) (r + 1) m xs

/-- Replace the team in focus. -/
def State.withTeam (s : State) (t : Team) : State := { s with team := t }

/-- Every team, the one in focus first. -/
def State.teams (s : State) : List Team := s.team :: s.others

/-- The team with a handle. -/
def State.find (s : State) (uid : Nat) : Option Team := s.teams.find? fun t => t.uid == uid

/-- Change every team. -/
def State.mapTeams (s : State) (f : Team → Team) : State := { s with team := f s.team, others := s.others.map f }

/-- Change the team with a handle. -/
def State.modTeam (s : State) (uid : Nat) (f : Team → Team) : State :=
  s.mapTeams fun t => if t.uid == uid then f t else t

/-- Put a team in the place of the first team with a handle. -/
def swapIn (t : Team) (uid : Nat) : List Team → List Team
  | [] => []
  | u :: us => if u.uid == uid then t :: us else u :: swapIn t uid us

/-- Move the focus to the team with a handle; the two teams change places. -/
def State.focus (s : State) (uid : Nat) : State :=
  if s.team.uid == uid then s else
    match s.others.find? fun t => t.uid == uid with
    | none => s
    | some t => { s with team := t, others := swapIn s.team uid s.others }

/-- The gang of a team. -/
def State.gangOf (s : State) (t : Team) : Option Gang :=
  s.gangs.find? fun g => g.grid == t.pl.grid && g.idx == t.pl.gang

/-- Change the gang (grid, index). -/
def State.modGang (s : State) (grid idx : Nat) (f : Gang → Gang) : State :=
  { s with gangs := s.gangs.map fun g => if g.grid == grid && g.idx == idx then f g else g }

/-- The grid with an id. -/
def State.gridOf (s : State) (id : Nat) : Option Grid := s.sched.grids.find? fun g => g.id == id

/-- The cluster of a core (R12). -/
def clusterOf (core : Nat) : Nat := core / 8

end Sys2Proof.Machine
end

