-- ==== Sys2Proof/Machine/MemOps.lean ====
section
/-! DEFINITION. Memory below the L2, committed data at the L2, commits in the device order, and what a team's read
of one byte returns (R19, R184, R208 to R212). -/

namespace Sys2Proof.Machine

/-- The byte below the L2 at a physical address. -/
def memGet : Memory → Nat → Byte
  | [], _ => Memory.unlisted
  | c :: m, a => if c.1 = a then c.2 else if a < c.1 then Memory.unlisted else memGet m a

/-- Write a byte below the L2, keeping the canonical form. -/
def memSet : Memory → Nat → Byte → Memory
  | [], a, b => if b = Memory.unlisted then [] else [(a, b)]
  | c :: m, a, b =>
    if c.1 < a then c :: memSet m a b
    else if c.1 = a then (if b = Memory.unlisted then m else (a, b) :: m)
    else if b = Memory.unlisted then c :: m else (a, b) :: c :: m

/-- Write several bytes below the L2. -/
def memSets (m : Memory) (cells : List Host.Cell) : Memory := cells.foldl (fun m c => memSet m c.1 c.2) m

/-- Set a byte of a list of cells that is no memory (a write side, scratchpad, a buffer). -/
def cellSet : List Host.Cell → Nat → Byte → List Host.Cell
  | [], a, b => [(a, b)]
  | c :: cs, a, b => if c.1 = a then (a, b) :: cs else c :: cellSet cs a b

/-- Find a byte in such a list. -/
def cellGet : List Host.Cell → Nat → Option Byte
  | [], _ => none
  | c :: cs, a => if c.1 = a then some c.2 else cellGet cs a

/-- Set several bytes in order. -/
def cellSets (cs : List Host.Cell) (ws : List Host.Cell) : List Host.Cell :=
  ws.foldl (fun cs c => cellSet cs c.1 c.2) cs

/-- The cells of consecutive bytes. -/
def cellsAt (a : Nat) : List Byte → List Host.Cell
  | [] => []
  | b :: bs => (a, b) :: cellsAt (a + 1) bs

/-- HBM (R310). -/
def isHbm (pa : Nat) : Bool := decide (pa < 0x8000000000)
/-- The raw diagnostic aperture (R310). -/
def isRaw (pa : Nat) : Bool := decide (0x80000000000 ≤ pa ∧ pa < 0x88000000000)
/-- CXL memory (R310). -/
def isCxl (pa : Nat) : Bool := decide (0x100000000000 ≤ pa ∧ pa < 0x180000000000)
/-- Host memory over the link (R310). -/
def isHost (pa : Nat) : Bool := decide (0x400000000000 ≤ pa ∧ pa < 0x440000000000)
/-- Peer windows (R310). -/
def isPeer (pa : Nat) : Bool := decide (0x800000000000 ≤ pa ∧ pa < 0x1000000000000)
/-- The addresses that exist (R310). -/
def isPhys (pa : Nat) : Bool := isHbm pa || isRaw pa || isCxl pa || isHost pa || isPeer pa
/-- The HBM of peers, by peer id, at addresses of the model's own beyond all physical ones (R417; log 5). -/
def isPeerMem (pa : Nat) : Bool := decide (0x1000000000000 ≤ pa ∧ pa < 0x1000000000000 + 2 ^ 49)
/-- Memory outside the device, published by `.SY` only (R213). -/
def isOutside (pa : Nat) : Bool := isHost pa || isPeer pa || isPeerMem pa
/-- Memory that the L2 caches. -/
def isCached (pa : Nat) : Bool := isHbm pa || isCxl pa
/-- The address below the L2 that an aperture address names (R310). -/
def rawTarget (pa : Nat) : Nat := if isRaw pa then pa - 0x80000000000 else pa

/-- The granule of 16 bytes that stands in memory. -/
def granuleOf (m : Memory) (g : Nat) : BitVec 128 :=
  BitVec.ofNat 128 (ofLeBytes ((List.range 16).map fun k => memGet m (16 * g + k)))

/-- The key index that counts below the slices: encryption sits between them and the channels of HBM (R325). -/
def belowKey (k pa : Nat) : Nat := if isHbm pa then k else 0

/-- A byte of a granule of an encrypted page (R325). -/
def plainByte (k pa : Nat) (g : BitVec 128) : Byte := (Config.plain k (pa / 16) g).extractLsb' (8 * (pa % 16)) 8

/-- The byte that memory holds at an address of a page with a key index: an encrypted page is decrypted on the way up
(R325). -/
def keyGet (m : Memory) (k pa : Nat) : Byte :=
  if belowKey k pa = 0 then memGet m pa
  else plainByte k pa (granuleOf m (pa / 16))

/-- Write a byte of a page with a key index: an encrypted page is encrypted on the way down, by whole granules (R325). -/
def keyPut (m : Memory) (k pa : Nat) (b : Byte) : Memory :=
  if belowKey k pa = 0 then memSet m pa b
  else
    let old := leBytes 16 (Config.plain k (pa / 16) (granuleOf m (pa / 16))).toNat
    let new : BitVec 128 := BitVec.ofNat 128 (ofLeBytes (old.set (pa % 16) b))
    memSets m (cellsAt (pa / 16 * 16) (leBytes 16 (Config.cipher k (pa / 16) new).toNat))

/-- The committed sector the L2 holds, if any. -/
def l2Find (ms : MemSide) (n : Nat) : Option Sector := ms.l2.find? fun x => x.num == n

/-- The 16-byte granules of HBM that a read of `n` bytes takes: those of sectors that the L2 does not hold; the raw aperture
reads HBM itself (R310). -/
def granulesAt (ms : MemSide) (pa n : Nat) : List Nat :=
  let a := rawTarget pa
  let gs := (List.range ((a + n + 15) / 16 - a / 16)).map (a / 16 + ·)
  if isRaw pa then gs else gs.filter fun g => (l2Find ms (g / 4)).isNone

/-- The first uncorrectable one of some granules. -/
def badGranule (ms : MemSide) (gs : List Nat) : Option Nat :=
  (ms.ecc.find? fun e => gs.contains e.1 && e.2).map fun e => 16 * e.1

/-- The first uncorrectable granule of a sector that is read from HBM. -/
def eccBad (ms : MemSide) (n : Nat) : Option Nat := badGranule ms (granulesAt ms (64 * n) 64)

/-- The committed byte at a physical address of a page with a key index: the L2's copy, or memory's; the aperture and the links
see memory. -/
def commByteK (ms : MemSide) (k pa : Nat) : Byte :=
  if isRaw pa then memGet ms.mem (rawTarget pa)
  else if isCached pa then
    match l2Find ms (pa / 64) with
    | some x => x.data.getD (pa % 64) 0
    | none => keyGet ms.mem k pa
  else memGet ms.mem pa

/-- The committed byte of a plaintext page. -/
def commByte (ms : MemSide) (pa : Nat) : Byte := commByteK ms 0 pa

/-- `n` committed bytes. -/
def commBytesK (ms : MemSide) (k pa n : Nat) : List Byte := (List.range n).map fun i => commByteK ms k (pa + i)

/-- `n` committed bytes of a plaintext page. -/
def commBytes (ms : MemSide) (pa n : Nat) : List Byte := commBytesK ms 0 pa n

/-- A little-endian number of `n` committed bytes of a plaintext page. -/
def commNum (ms : MemSide) (pa n : Nat) : Nat := ofLeBytes (commBytes ms pa n)

/-- The last position of the device order that wrote a sector. -/
def lastWrite (ms : MemSide) (n : Nat) : Nat := ((ms.wrote.find? fun x => x.1 == n).map fun x => x.2).getD 0

/-- What an encrypted page's granule held, below the L2, before the first raw write after a cut (R212, R325). -/
def rawAt (ms : MemSide) (cut k pa : Nat) : Option (Nat × BitVec 128) :=
  if belowKey k pa = 0 then none
  else (ms.rawOld.find? fun r => r.2.1 == pa / 16 && decide (cut < r.1)).map fun r => (r.1, r.2.2)

/-- The byte at a cut of the device order (R211, R212): what the first write after the cut superseded. -/
def byteAt (ms : MemSide) (cut k pa : Nat) : Byte :=
  match rawAt ms cut k pa, ms.retained.find? fun r => r.2.1 == pa && decide (cut < r.1) with
  | some g, some r => if r.1 < g.1 then r.2.2 else plainByte k pa g.2
  | some g, none => plainByte k pa g.2
  | none, some r => r.2.2
  | none, none => commByteK ms k pa

/-- The cut a team reads a sector at: the sector's own after a woken TWAIT, else the snapshot point, which the first
read fixes at the present position (R211, R268). -/
def cutOf (ms : MemSide) (v : Version) (n : Nat) : Nat :=
  match v.cuts.find? fun c => c.1 == n with
  | some (_, some st) => st
  | some (_, none) => ms.stamp
  | none => v.snap.getD ms.stamp

/-- The team's own published byte later than its cut (R211). -/
def ownByte (v : Version) (cut pa : Nat) : Option Byte :=
  (v.ownPub.find? fun r => r.2.1 == pa && decide (cut < r.1)).map fun r => r.2.2

/-- The team's own last write to a byte that it has not published, a scatter's or else a store's, where no immediate store of its
own is later (R184, R211, R316). -/
def openByte (v : Version) (pa : Nat) : Option Byte :=
  if v.hidden.contains pa then none
  else match v.sx.reverse.find? fun x => x.2.1 == pa with
    | some x => some x.2.2
    | none => match cellGet v.wside pa with
      | some b => some b
      | none => cellGet v.pub pa

/-- The byte that a team reads instead of a home's write which its acquire did not bring it (R272). -/
def staleByte (v : Version) (pa : Nat) : Option Byte := (v.stale.find? fun x => x.2.1 == pa).map fun x => x.2.2

/-- What a team's read of one byte returns (R184, R211): its own unpublished byte, else its own byte published after
its cut, else what stands for a home's write that it need not see (R272), else the byte at its cut. -/
def readByte (ms : MemSide) (v : Version) (k pa : Nat) : Byte :=
  match openByte v pa with
  | some b => b
  | none =>
    match ownByte v (cutOf ms v (pa / 64)) pa with
    | some b => b
    | none => (staleByte v pa).getD (byteAt ms (cutOf ms v (pa / 64)) k pa)

/-- A read fixes the snapshot point, and the cut of each released sector it touches (R211, R268). The team has then seen the homes' writes
up to that point but for the stale ones, whose sectors nothing has written since the acquire (R272). -/
def fixRead (ms : MemSide) (v : Version) (sectors : List Nat) : Version :=
  { v with snap := some (v.snap.getD ms.stamp),
           seen := if v.snap.isNone then ms.stamp else v.seen,
           stale := if v.snap.isNone then v.stale.filter fun x => decide (lastWrite ms (x.2.1 / 64) ≤ v.seen) else v.stale,
           held := (sectors.filter fun n => !v.held.contains n).eraseDups ++ v.held,
           cuts := v.cuts.map fun c => if c.2.isNone && sectors.contains c.1 then (c.1, some ms.stamp) else c }

/-- An acquire closes the snapshot and every hold (R211, R225). -/
def acquire (v : Version) : Version := { v with snap := none, cuts := [], ownPub := [], held := [], homed := [] }

/-- Of home writes in order, the bytes that an acquire does not bring: each write that it passes over, where it passes over every later one
of the byte too (R272). -/
def staleOf (skip : Nat → Bool) : List (Nat × Nat × Byte) → List (Nat × Nat × Byte)
  | [] => []
  | x :: xs =>
    if skip x.1 && (xs.filter fun y => y.2.1 == x.2.1).all fun y => skip y.1 then x :: staleOf skip xs else staleOf skip xs

/-- The version without its unpublished bytes in some physical ranges of whole sectors; its entries there are gone (R216, R391,
R409, R412). -/
def dropBytes (v : Version) (rs : List (Nat × Nat)) : Version :=
  let keep := fun (a : Nat) => !rs.any fun r => decide (r.1 ≤ a ∧ a < r.1 + r.2)
  { v with wside := v.wside.filter fun c => keep c.1, pub := v.pub.filter fun c => keep c.1, sx := v.sx.filter fun x => keep x.2.1,
           hidden := v.hidden.filter keep, ins := v.ins.filter fun x => keep (64 * x.1),
           spilled := v.spilled.filter fun n => keep (64 * n) }

/-- Release the holds on sectors (R268, R391, R412). -/
def release (v : Version) (sectors : List Nat) : Version :=
  { v with cuts := sectors.map (fun n => (n, none)) ++ v.cuts.filter fun c => !sectors.contains c.1,
           held := v.held.filter (fun n => !sectors.contains n), homed := v.homed.filter (fun n => !sectors.contains n),
           stale := v.stale.filter fun x => !sectors.contains (x.2.1 / 64) }

end Sys2Proof.Machine
end

