-- ==== Sys2Proof/Machine/Translate.lean ====
section
/-! DEFINITION. Address spaces, page walks and translation buffers (R403 to R405, R431), and the canonical form of an
address (R182). -/

namespace Sys2Proof.Machine

/-- What an access needs of its page (R404). -/
inductive Access where
  | read
  | write
  | rw
  | fetch
  deriving DecidableEq, Repr

/-- The access code of R407. -/
def Access.code : Access → Nat
  | .read => 0
  | .write => 1
  | .fetch => 2
  | .rw => 3

/-- Why an access fails: a group 5 reason (R395), a miss (R404), or a link that cannot deliver (R414): the lane that reports and the
physical address. -/
inductive XErr where
  | g5 (reason : Nat)
  | miss
  | link (lane pa : Nat)
  deriving DecidableEq, Repr

/-- Bits [63:57] equal bit 56 (R182). -/
def canonical (va : DWord) : Bool := va.extractLsb' 56 8 == 0 || va.extractLsb' 56 8 == 0xFF

/-- A translated page: leaf entry, page base, page size in bytes. -/
structure Leaf where
  pte : DWord
  page : Nat
  size : Nat
  deriving DecidableEq, Repr

/-- An address space table entry (R403). -/
structure Space where
  root : Nat
  pager : Bool
  futBase : DWord
  futCount : Nat
  deriving DecidableEq, Repr

/-- The address space's entry, or reason 5 (R403). -/
def spaceOf (s : State) (asid : Nat) : Option Space :=
  let e := commNum s.ms ((s.host.astbase.toNat / 0x200000) * 0x200000 + 32 * asid) 32
  if bitsOf e 0 1 = 1 ∧ bitsOf e 2 74 = 0 ∧ bitsOf e 128 3 = 0 ∧ bitsOf e 208 48 = 0 then
    some { root := bitsOf e 76 52 * 4096, pager := bitsOf e 1 1 = 1, futBase := BitVec.ofNat 64 (bitsOf e 131 61 * 8),
           futCount := bitsOf e 192 16 }
  else none

/-- The reserved bits of a page table entry (R404). -/
def pteReserved (e : Nat) : Bool := bitsOf e 48 12 != 0 || bitsOf e 8 1 != 0 || bitsOf e 6 1 != 0 || bitsOf e 1 1 != 0

/-- A pointer entry sets none of KEY, C, MT, PR, EX, WR, RD (R404). -/
def ptePointerOk (e : Nat) : Bool := bitsOf e 60 4 == 0 && bitsOf e 9 3 == 0 && bitsOf e 2 4 == 0

/-- The physical base a leaf of `2^k` bytes names: bits [47:k] of its PA. -/
def ptePa (e k : Nat) : Nat := bitsOf e k (48 - k) * 2 ^ k

/-- A leaf is well formed at a level whose pages have `2^k` bytes (R404). -/
def pteLeafOk (e k : Nat) : Bool :=
  (bitsOf e 11 1 == 0 || k == 16) && decide (bitsOf e 9 2 < 2) && (k == 16 || bitsOf e 12 (k - 12) == 0)
    && isPhys (ptePa e k)

/-- Whether a CXL address lies beyond what the port's expander holds (R310). -/
def beyondCxl (pa : Nat) : Bool :=
  isCxl pa && decide (Config.cxlBytes ((pa - 0x100000000000) / 0x20000000000) ≤ (pa - 0x100000000000) % 0x20000000000)

/-- PWIN of the window that a peer address lies in (R417). -/
def windowOf (s : State) (pa : Nat) : DWord := s.host.pwin.getD ((pa - 0x800000000000) / 2 ^ 39) 0

/-- Whether a physical address answers: a peer window must be enabled (R417), a CXL address lie in the expander's
memory (R310). -/
def answers (s : State) (pa : Nat) : Except XErr Unit :=
  if isPeer pa ∧ ¬ (windowOf s pa).getLsbD 63 then .error (.g5 2)
  else if beyondCxl pa then .error (.g5 11)
  else .ok ()

/-- Where an access to a physical address goes: through a peer window to the HBM of the peer that its PWIN names, whichever window that
is (R417). -/
def peerAddr (s : State) (pa : Nat) : Nat :=
  if isPeer pa then 0x1000000000000 + (windowOf s pa).toNat % 1024 * 2 ^ 39 + pa % 2 ^ 39 else pa

/-- Walk from a table at level `lv` (R404); the second argument counts the levels left. -/
def walk (s : State) (va : Nat) : Nat → Nat → Except XErr Leaf
  | 0, _ => .error (.g5 5)
  | lv + 1, table =>
    let a := table + 8 * bitsOf va (12 + 9 * lv) 9
    if !isPhys a then .error (.g5 2)
    else match answers s a with
    | .error e => .error e
    | .ok _ =>
    let e := commNum s.ms (peerAddr s a) 8
    if bitsOf e 0 1 = 0 then .error .miss
    else if pteReserved e then .error (.g5 5)
    else if bitsOf e 7 1 = 1 then
      let k := if lv = 0 ∧ bitsOf e 11 1 = 1 then 16 else 12 + 9 * lv
      if lv ≤ 2 ∧ pteLeafOk e k then .ok { pte := BitVec.ofNat 64 e, page := va / 2 ^ k * 2 ^ k, size := 2 ^ k }
      else .error (.g5 5)
    else if lv = 0 ∨ !ptePointerOk e then .error (.g5 5)
    else walk s va lv (bitsOf e 12 36 * 4096)

/-- The leaf an access of a core uses: a cached entry (R405), else a walk. -/
def leafOf (s : State) (core asid : Nat) (va : Nat) : Except XErr Leaf :=
  match s.ms.tlb.find? fun e => e.core == core && e.asid == asid && decide (e.page ≤ va ∧ va < e.page + e.size) with
  | some e => .ok { pte := e.pte, page := e.page, size := e.size }
  | none =>
    match spaceOf s asid with
    | none => .error (.g5 5)
    | some sp => walk s va 5 sp.root

/-- Whether the leaf grants the access (R404, R392, R431). -/
def permits (s : State) (priv : Bool) (acc : Access) (l : Leaf) : Bool :=
  let b := fun i => l.pte.getLsbD i
  let k := (l.pte.extractLsb' 60 4).toNat
  (!b 5 || priv) && (k == 0 || s.mgmt.keys.contains k)
    && (match acc with
        | .read => b 2
        | .write => b 3
        | .rw => b 2 && b 3
        | .fetch => b 4)

/-- The physical address of `va` through a leaf. -/
def Leaf.pa (l : Leaf) (va : Nat) : Nat := (l.pte.extractLsb' 0 48).toNat / l.size * l.size + va % l.size

/-- Whether the leaf is mapped immediate (R181, R404). -/
def Leaf.imm (l : Leaf) : Bool := l.pte.extractLsb' 9 2 == 1

/-- Translate one canonical address for an access (R183 step 3, R404). -/
def xlate (s : State) (core asid : Nat) (priv : Bool) (acc : Access) (va : DWord) : Except XErr (Nat × Leaf) :=
  match leafOf s core asid va.toNat with
  | .error e => .error e
  | .ok l =>
    if permits s priv acc l then
      match answers s (l.pa va.toNat) with
      | .error e => .error e
      | .ok _ => .ok (peerAddr s (l.pa va.toNat), l)
    else .error (.g5 4)

/-- The lane that the link reports while it cannot deliver (R414). -/
def lostLink (s : State) : Option Nat :=
  s.upsets.findSome? fun u => match u with
    | .link k => some k
    | _ => none

/-- The page's key index (R325, R404). -/
def Leaf.key (l : Leaf) : Nat := (l.pte.extractLsb' 60 4).toNat

/-- The key index of a virtual address's page, 0 where none is mapped. -/
def keyOf (s : State) (core asid : Nat) (va : DWord) : Nat :=
  match leafOf s core asid va.toNat with
  | .ok l => l.key
  | .error _ => 0

/-- Put the leaf a core used into its translation buffer (R405). -/
def fillTlb (core asid : Nat) (ms : MemSide) (l : Leaf) : MemSide :=
  if ms.tlb.any fun e => e.core == core && e.asid == asid && e.page == l.page then ms
  else { ms with tlb := { core := core, asid := asid, page := l.page, size := l.size, pte := l.pte } :: ms.tlb }

/-- Privileged: its grid is, it is a vertex wave, or it is in handler mode (R392). -/
def privileged (t : Team) : Bool := t.pl.priv || t.kind == .wave || t.handler.isSome

/-- Translate for a team. -/
def xlateT (s : State) (t : Team) (acc : Access) (va : DWord) : Except XErr (Nat × Leaf) :=
  xlate s t.pl.core t.pl.asid (privileged t) acc va

/-- The re-reference value of a fill: the access class, at most the class of a residency handle on the address (R336). -/
def fillClass (s : State) (asid : Nat) (va : DWord) (cls : Nat) : Nat :=
  match s.res.handles.find? fun h => h.asid == asid && decide (h.base.toNat ≤ va.toNat ∧ va.toNat < h.base.toNat + h.len) with
  | some h => min cls h.cls
  | none => cls

/-- The vertex region's base (R251). -/
def vbase (s : State) : DWord :=
  let b := (s.vx.cfg.extractLsb' 30 27).toNat * 2 ^ 30
  BitVec.ofNat 64 (if s.vx.cfg.getLsbD 56 then b + (2 ^ 64 - 2 ^ 57) else b)

/-- Whether the homes are live (R251). -/
def vxOn (s : State) : Bool := s.vx.cfg.getLsbD 0

/-- Whether a virtual address lies in the vertex region (R252). -/
def inRegion (s : State) (va : DWord) : Bool :=
  vxOn s && decide ((vbase s).toNat ≤ va.toNat ∧ va.toNat < (vbase s).toNat + (s.vx.cfg.extractLsb' 16 7).toNat * 2 ^ 30)

/-- The home of an address of the region (R252). -/
def homeOf (s : State) (va : DWord) : Nat :=
  let p := (va.toNat - (vbase s).toNat) / 4096
  (p ^^^ (p / 4096)) % 24

/-- The mask of channel bit `i` in an address map record (R312). -/
def mapMask (map : BitVec 512) (i : Nat) : Nat := bitsOf map.toNat (32 + 32 * i) 27

/-- Home slice of an HBM address: the channel the address map record gives its block (R20, R311). -/
def channelOf (map : BitVec 512) (pa : Nat) : Nat :=
  let b := bitsOf pa 12 27
  let par := fun (m : Nat) => (List.range 27).foldl (fun x k => x ^^ (bitsOf (b &&& m) k 1 == 1)) false
  packLanes 8 fun i => par (mapMask map i)

end Sys2Proof.Machine
end

