-- ==== Sys2Proof/Machine/L2.lean ====
section
/-! DEFINITION. The L2 as a cache: sets, ways, replacement and what a fill or a write-back moves (R19 to R21, R332, R334, R336, R345),
commits and immediate writes in the device order (R209, R210, R212, R215), and publication (R209, R213, R216, R220). -/

namespace Sys2Proof.Machine

/-! ### Sets and ways -/

/-- The slice that caches a sector (R20, R21). -/
def sliceOfSector (map : BitVec 512) (n : Nat) : Nat :=
  if isCxl (64 * n) then Config.cxlSlice (n / 2) % 256 else channelOf map (64 * n)

/-- The set of a sector in its slice (R332). -/
def setOfSector (n : Nat) : Nat :=
  let pa := 64 * n
  if isCxl pa then bitsOf pa 7 12 else (32 * bitsOf pa 20 19 + bitsOf pa 7 5) % 4096

/-- What a slice knows when it fills a line: the address map, FARWAYS, the slices in marl mode, the residency priority of a line,
the lines that hold an uncommitted entry or a held sector, how many ways of a place in a slice in marl mode those take (R332 to R334,
R344), and the sectors that a stratum block run is reading
(R330). -/
structure L2View where
  map : BitVec 512
  far : Nat
  marl : List Nat
  prio : Nat → Nat
  pinned : Nat → Bool
  taken : Nat → Nat
  watched : Nat → Bool

/-- Whether a handle's range maps a line (R336). -/
def handleCovers (s : State) (h : Handle) (line : Nat) : Bool :=
  (List.range ((h.len + 4095) / 4096)).any fun k =>
    let va := h.base.toNat + 4096 * k
    match spaceOf s h.asid with
    | none => false
    | some sp => match walk s va 5 sp.root with
      | .ok l => l.pa va / 4096 == line / 32
      | .error _ => false

/-- The residency priority of a line: that of the handle on it, 0 outside every handle (R334, R336). -/
def linePrio (s : State) (line : Nat) : Nat :=
  (s.res.handles.filter fun h => h.prio != 0 && handleCovers s h line).foldl (fun m h => max m h.prio) 0

/-- The sectors that stand at home slices for a team: uncommitted entries, those of a publication in progress, and sectors held there
(R178 to R180, R209, R216, R315). -/
def homeSectors (v : Version) : List Nat := (v.spilled ++ v.pub.map (fun (c : Host.Cell) => c.1 / 64) ++ v.homed).eraseDups

/-- The lines with an uncommitted entry or a held sector (R334); what stands in an L1 is in no way of a slice. -/
def linePinned (s : State) (line : Nat) : Bool := s.teams.any fun t => (homeSectors t.ver).any fun n => n / 2 == line

/-- How many sectors of a set of a slice stand there for the teams: those that the keel test counts (R344). -/
def sectorsHeld (s : State) (p : Nat) : Nat :=
  ((s.teams.flatMap fun t => homeSectors t.ver).filter fun n =>
    isCached (64 * n) && 4096 * sliceOfSector s.mgmt.map n + setOfSector n == p).length

/-- The keel ways of a place that entries and held sectors take in marl mode, two sectors in each; what does not fit goes to the version
backing area (R344, R345). DESIGN CHOICE (log 58): the lowest ways. -/
def keelTaken (s : State) (p : Nat) : Nat := min 2 ((sectorsHeld s p + 1) / 2)

/-- The view of the present state. -/
def l2View (s : State) : L2View :=
  { map := s.mgmt.map, far := (s.res.l2cfg.extractLsb' 0 3).toNat, marl := s.marl.map fun m => m.num, prio := linePrio s,
    pinned := linePinned s, taken := keelTaken s, watched := fun n => s.strat.current.any fun x => x.2.pa / 4096 == n / 64 }

/-- Where a sector's line belongs: slice and set in one number. -/
def placeOf (v : L2View) (n : Nat) : Nat := 4096 * sliceOfSector v.map n + setOfSector n

/-- The ways a sector may use in its set (R332): what entries leave of the keel of a slice in marl mode, the far ways for a CXL line, the
keel and the HBM ways for an HBM line. -/
def waysFor (v : L2View) (n : Nat) : List Nat :=
  if v.marl.contains (sliceOfSector v.map n) then [0, 1].drop (v.taken (placeOf v n))
  else if isCxl (64 * n) then (List.range v.far).map (2 + ·)
  else 0 :: 1 :: (List.range (14 - v.far)).map (2 + v.far + ·)

/-! ### Leaving the L2 -/

/-- Write a dirty sector back to memory (R228, R325). -/
def writeBack (v : L2View) (ms : MemSide) (x : Sector) : MemSide :=
  if x.dirty then
    { ms with backs := ms.backs ++ (if v.watched x.num then (List.range 4).map fun k =>
                (4 * x.num + k, (List.range 16).map fun i => memGet ms.mem (64 * x.num + 16 * k + i)) else []),
              mem := (cellsAt (64 * x.num) x.data).foldl (fun m c => keyPut m x.key c.1 c.2) ms.mem,
              l2 := ms.l2.map fun y => if y.num == x.num then { y with dirty := false } else y }
  else ms

/-- Drop a sector: bytes that memory holds otherwise stay readable at older cuts (R228: held sectors and retained copies
are not touched). -/
def dropSector (ms : MemSide) (x : Sector) : MemSide :=
  let old := (cellsAt (64 * x.num) x.data).filter fun c => keyGet ms.mem x.key c.1 != c.2
  let ms1 := { ms with l2 := ms.l2.filter fun y => y.num != x.num }
  match old with
  | [] => ms1
  | _ => { ms1 with stamp := ms.stamp + 1, retained := ms.retained ++ old.map fun c => (ms.stamp + 1, c.1, c.2) }

/-- Write a sector back, then drop it, if the L2 holds it. -/
def flushSector (v : L2View) (ms : MemSide) (x : Sector) : MemSide :=
  match l2Find ms x.num with
  | some y => dropSector (writeBack v ms y) y
  | none => ms

/-- A line leaves the L2. -/
def evictLine (v : L2View) (ms : MemSide) (line : Nat) : MemSide :=
  (ms.l2.filter fun x => x.num / 2 == line).foldl (flushSector v) ms

/-- The lines that stand in ways which they may not use (any more) are written back and leave the L2 (R332, R344). -/
def settleWays (s : State) : State :=
  let v := l2View s
  { s with ms := (s.ms.l2.filter fun x => !(waysFor v x.num).contains x.way).foldl (flushSector v) s.ms }

/-! ### Entering the L2 (R179, R180, R332, R334) -/

/-- A line of a set as replacement sees it. -/
structure Cand where
  line : Nat
  way : Nat
  rrpv : Nat
  prio : Nat
  deriving DecidableEq, Repr

/-- The lines of a place. -/
def linesAt (v : L2View) (ms : MemSide) (p : Nat) : List Cand :=
  ((ms.l2.filter fun x => x.place == p).map fun x =>
    ({ line := x.num / 2, way := x.way, rrpv := x.rrpv, prio := v.prio (x.num / 2) } : Cand)).eraseDups

/-- The most ways of a set that prioritised lines may occupy (R334). -/
def prioWays : Nat := 12

/-- Whether a line may be a victim: it holds no uncommitted entry, no held sector and no retained copy (R334 step 1). -/
def evictableLine (v : L2View) (ms : MemSide) (c : Cand) : Bool := !v.pinned c.line && !ms.retained.any fun r => r.2.1 / 128 == c.line

/-- Steps 2 and 3 of R334: of the lines of lowest priority, the first by way that re-reference interval prediction reaches, with
the lines that age and by how much. -/
def pickVictim (cs : List Cand) : Option (Cand × List Nat × Nat) :=
  match cs with
  | [] => none
  | c :: rest =>
    let low := rest.foldl (fun m x => min m x.prio) c.prio
    let xs := (c :: rest).filter fun x => x.prio == low
    let top := xs.foldl (fun m x => max m x.rrpv) 0
    match xs.filter fun x => x.rrpv == top with
    | [] => none
    | y :: ys => some (ys.foldl (fun b x => if x.way < b.way then x else b) y, xs.map fun x => x.line, 3 - top)

/-- Lines grow older. -/
def ageLines (ms : MemSide) (lines : List Nat) (by_ : Nat) : MemSide :=
  if by_ = 0 then ms
  else { ms with l2 := ms.l2.map fun x => if lines.contains (x.num / 2) then { x with rrpv := min 3 (x.rrpv + by_) } else x }

/-- Take a victim's way. -/
def takeVictim (v : L2View) (ms : MemSide) (cs : List Cand) : Option (Nat × MemSide) :=
  (pickVictim cs).map fun x => (x.1.way, evictLine v (ageLines ms x.2.1 x.2.2) x.1.line)

/-- A way for a new line, and the memory side with that way free (R332, R334); none when no line of the ways it may use can
leave. A free way is taken before any victim, the lowest first. -/
def makeWay (v : L2View) (ms : MemSide) (n : Nat) : Option (Nat × MemSide) :=
  let ws := waysFor v n
  let here := linesAt v ms (placeOf v n)
  let may := here.filter fun c => ws.contains c.way && evictableLine v ms c
  let prior := here.filter fun c => c.prio != 0
  if v.prio (n / 2) ≠ 0 ∧ prioWays ≤ prior.length then takeVictim v ms (may.filter fun c => c.prio != 0)
  else match ws.find? fun w => !here.any fun c => c.way == w with
    | some w => some (w, ms)
    | none => takeVictim v ms may

/-- A sector's soft errors are corrected as it is filled; their count comes with the end of the cycle (R313). -/
def softFill (ms : MemSide) (n : Nat) : MemSide :=
  let hits := ms.ecc.filter fun e => e.1 / 4 == n && !e.2
  { ms with ecc := ms.ecc.filter (fun e => !hits.contains e), soft := ms.soft ++ hits.map fun e => e.1 }

/-- The sector as memory gives it. -/
def freshSector (ms : MemSide) (n place way rrpv key : Nat) : Sector :=
  { num := n, place := place, way := way, dirty := false, rrpv := rrpv, key := key,
    data := (List.range 64).map fun k => keyGet ms.mem key (64 * n + k) }

/-- Bring a sector into the L2 if it is not there and may be allocated (R19, R179, R180): with its line if that is present, else in a
way of its own. A sector with an uncorrectable granule is not brought in: whoever reads it meets the error (R313). -/
def l2Fill (v : L2View) (i : Ins) (ms : MemSide) (n : Nat) : MemSide :=
  if !isCached (64 * n) || i.na || (eccBad ms n).isSome then ms
  else match l2Find ms n with
    | some _ => ms
    | none =>
      match ms.l2.find? fun x => x.num / 2 == n / 2 with
      | some y => softFill { ms with l2 := freshSector ms n y.place y.way y.rrpv i.key :: ms.l2 } n
      | none => match makeWay v ms n with
        | none => ms
        | some (w, ms1) => softFill { ms1 with l2 := freshSector ms1 n (placeOf v n) w i.rrpv i.key :: ms1.l2 } n

/-- A read that finds its line makes it near again, unless `.NA` (R180); one that misses fills. -/
def l2Touch (v : L2View) (i : Ins) (ms : MemSide) (n : Nat) : MemSide :=
  match l2Find ms n with
  | some _ => if i.na then ms
    else { ms with l2 := ms.l2.map fun x => if x.num / 2 == n / 2 then { x with rrpv := 0 } else x }
  | none => l2Fill v i ms n

/-- Put one byte into committed state: into the L2's sector where there is one, else into memory. -/
def putByte (ins : Nat → Ins) (ms : MemSide) (c : Host.Cell) : MemSide :=
  if isCached c.1 then
    match l2Find ms (c.1 / 64) with
    | some _ => { ms with l2 := ms.l2.map fun x =>
        if x.num == c.1 / 64 then { x with dirty := true, data := x.data.set (c.1 % 64) c.2 } else x }
    | none => { ms with mem := keyPut ms.mem (ins (c.1 / 64)).key c.1 c.2 }
  else { ms with mem := memSet ms.mem c.1 c.2 }

/-! ### Commits -/

/-- Record that the stamp `st` wrote a sector (R268). -/
def noteWrite (w : List (Nat × Nat)) (st n : Nat) : List (Nat × Nat) := (n, st) :: w.filter fun x => x.1 != n

/-- The sectors of consecutive cells, each named once in a row. -/
def sectorsOf : List Host.Cell → List Nat
  | [] => []
  | c :: cs => match sectorsOf cs with
    | [] => [c.1 / 64]
    | n :: ns => if n = c.1 / 64 then n :: ns else c.1 / 64 :: n :: ns

/-- The homes' superseded bytes that cells do not overwrite (R272). -/
def homeKept (old : List (Nat × Nat × Nat × Byte)) (cells : List Host.Cell) : List (Nat × Nat × Nat × Byte) :=
  old.filter fun x => !cells.any fun c => c.1 == x.2.2.1

/-- One commit or immediate write: its sectors enter the L2, it takes the next place in the device order, keeps the superseded
bytes as retained copies, and makes its bytes committed together (R209, R210, R212, R215). -/
def commit (v : L2View) (ins : Nat → Ins) (ms : MemSide) (cells : List Host.Cell) : MemSide :=
  match cells with
  | [] => ms
  | _ =>
    let ms1 := (sectorsOf cells).foldl (fun ms n => l2Fill v (ins n) ms n) ms
    let st := ms1.stamp + 1
    { cells.foldl (putByte ins) ms1 with
      stamp := st, retained := ms1.retained ++ cells.map fun c => (st, c.1, commByteK ms1 (ins (c.1 / 64)).key c.1),
      homeOld := homeKept ms1.homeOld cells,
      wrote := cells.foldl (fun w c => noteWrite w st (c.1 / 64)) ms1.wrote }

/-- Bytes written below the L2 by a party that sees HBM only (R221, R223): they take a place in the device order,
and an open snapshot keeps what it saw, of an encrypted page too (R212, R325). -/
def commitBelow (ms : MemSide) (cells : List Host.Cell) : MemSide :=
  match cells with
  | [] => ms
  | _ =>
    let st := ms.stamp + 1
    { ms with mem := memSets ms.mem cells, stamp := st,
              retained := ms.retained ++ cells.map (fun c => (st, c.1, commByte ms c.1)),
              rawOld := ms.rawOld ++ (((cells.map fun c => c.1 / 16).eraseDups.filter fun g => (l2Find ms (g / 4)).isNone).map fun g =>
                (st, g, granuleOf ms.mem g)),
              wrote := cells.foldl (fun w c => noteWrite w st (c.1 / 64)) ms.wrote }

/-- Immediate writes (R215): those of the raw aperture reach HBM, the others the L2 or the link. -/
def commitAll (v : L2View) (ins : Nat → Ins) (ms : MemSide) (cells : List Host.Cell) : MemSide :=
  let raw := (cells.filter fun c => isRaw c.1).map fun c => (rawTarget c.1, c.2)
  commitBelow (commit v ins ms (cells.filter fun c => !isRaw c.1)) raw

/-- Drop retained copies that no open snapshot can read (R212), and what home writes superseded once every team has seen them. -/
def purge (s : State) : State :=
  let open_ := fun (st : Nat) => s.teams.any fun t =>
    t.ver.cuts.any (fun c => match c.2 with | some x => decide (x < st) | none => false)
      || (match t.ver.snap with | some x => decide (x < st) | none => false)
  { s with ms := { s.ms with
      retained := s.ms.retained.filter (fun r => open_ r.1),
      rawOld := s.ms.rawOld.filter (fun r => open_ r.1),
      homeOld := s.ms.homeOld.filter fun x => s.teams.any fun t => t.stage != .ended && decide (t.ver.seen < x.1) } }

/-- An immediate write that enters the L2 as `ins` says (R181, R215). -/
def immediateAs (s : State) (ins : Nat → Ins) (cells : List Host.Cell) : State :=
  purge { s with ms := commitAll (l2View s) ins s.ms cells }

/-- An immediate write of a party that names no class (R215). -/
def immediate (s : State) (cells : List Host.Cell) : State := immediateAs s (fun _ => Ins.plain) cells

/-- An immediate write of a home (R258, R272), to a page with a key index: acquires that do not reach the home's cluster need not bring it,
so what it supersedes is kept for them. -/
def homeWrite (s : State) (home key : Nat) (cells : List Host.Cell) : State :=
  match cells with
  | [] => s
  | _ =>
    let s1 := immediateAs s (fun _ => ⟨0, false, key⟩) cells
    { s1 with ms := { s1.ms with homeOld := s.ms.homeOld ++ cells.map fun c => (s1.ms.stamp, home, c.1, commByteK s.ms key c.1) } }

/-- How a list of sectors says that a sector enters the L2. -/
def insIn (xs : List (Nat × Ins)) (n : Nat) : Ins := ((xs.find? fun x => x.1 == n).map fun x => x.2).getD Ins.plain

/-! ### Publication (R209, R213, R216, R220) -/

/-- The counter entries that have not retired, those of a saved context too. -/
def openTags (t : Team) : List Nat :=
  (t.eng.ops ++ match t.handler with | some h => h.saved.ops | none => []).map fun o => o.tag

/-- Scatters whose counter entry has retired are part of the write side (R316, R317). -/
def settleSx (t : Team) : Team :=
  let old := t.ver.sx.filter fun x => !(openTags t).contains x.1
  { t with ver := { t.ver with wside := cellSets t.ver.wside (old.map fun x => x.2),
                               sx := t.ver.sx.filter fun x => (openTags t).contains x.1 } }

/-- A publication begins: it takes the write side as it stands (R209 step 1, R220). -/
def beginPublish (t : Team) : Team :=
  let u := settleSx t
  { u with ver := { u.ver with pub := cellSets u.ver.pub u.ver.wside, wside := [] } }

/-- The sectors of a publication: each is an uncommitted entry at its home slice (R209 step 2). -/
def pubSectors (v : Version) : List Nat := (v.pub.map fun (c : Host.Cell) => c.1 / 64).eraseDups

/-- A publication that has not committed is taken back: its bytes are unpublished again, as the entries they have become (R209). -/
def unpublish (t : Team) : Team :=
  { t with ver := { t.ver with wside := cellSets t.ver.pub t.ver.wside, pub := [],
                               spilled := (pubSectors t.ver).filter (fun n => !t.ver.spilled.contains n) ++ t.ver.spilled } }

/-- The publication of the team in focus commits at a scope: its bytes commit together; bytes outside the device leave it only at `.SY`
(scope 2, R213), and stay in the write side otherwise. Entries that stay still count (R216). DESIGN CHOICE (log 90): the
acknowledgements of different outside memories arrive together, with the commit. -/
def publish (s : State) (scope : Nat) : State :=
  let v := s.team.ver
  let go := v.pub.filter fun c => decide (scope = 2) || !isOutside c.1
  let stay := v.pub.filter fun c => !(decide (scope = 2) || !isOutside c.1)
  let ms := commit (l2View s) (insIn v.ins) s.ms go
  let own := (go.map fun c => (ms.stamp, c.1, c.2)) ++ v.ownPub
  let left := cellSets stay v.wside
  let here := fun (n : Nat) => left.any (fun c => c.1 / 64 == n) || v.sx.any fun x => x.2.1 / 64 == n
  { s with ms := ms, team := { s.team with ver := { v with
      wside := left, pub := [], ownPub := own, spilled := ((pubSectors v).filter (fun n => !v.spilled.contains n) ++ v.spilled).filter here, ins := v.ins.filter fun x => here x.1,
      hidden := v.hidden.filter fun a => left.any fun c => c.1 == a } } }

end Sys2Proof.Machine
end

