-- ==== Sys2Proof/Machine/Context.lean ====
section
/-! DEFINITION. Continuation records and context entries as bytes (R50 to R52, R120, R400, R401): writing a team into one,
and reading one back with its checks. -/

namespace Sys2Proof.Machine

/-- A number from fields given as (width, value), lowest first. -/
def packFields : List (Nat × Nat) → Nat
  | [] => 0
  | (w, x) :: fs => x % 2 ^ w + 2 ^ w * packFields fs

/-- The lane code of N (R51). -/
def laneCode (n : Nat) : Nat := if n = 32 then 0 else if n = 64 then 1 else if n = 128 then 2 else if n = 256 then 3
  else if n = 512 then 4 else 5

/-- N of a lane code. -/
def lanesOfCode (c : Nat) : Nat := 32 * 2 ^ c

/-- The control word's KIND (R120). -/
def MaskKind.code : MaskKind → Nat
  | .ifK => 0
  | .elseK => 1
  | .loopK => 2

/-- A loop frame field (R51). -/
def frameField (f : Option LoopFrame) : Nat :=
  match f with
  | none => 0
  | some f => 2 ^ 63 + (f.len - 1) % 256 * 2 ^ 55 + bitsOf f.start.toNat 2 55

/-- The header of R51: `reason`, its detail, and the continuation id are the caller's. -/
def headerNum (t : Team) (pc : DWord) (cont reasonDetail : Word) (reason nvreg : Nat) (bound : Bool) (home : Nat) : Nat :=
  packFields
    ([(4, 0), (3, t.sp.rmode.toNat), (1, t.sp.ftz.toNat), (4, reason), (2, t.pl.role), (2, t.ctl.loops.length),
      (4, t.ctl.stack.length), (5, nvreg), (3, laneCode t.rf.n), (4, t.pl.prio), (26, 0), (5, home),
      (1, if bound then 1 else 0), (32, reasonDetail.toNat)]
     ++ (List.range 8).map (fun k => (32, (sget t k).toNat))
     ++ (List.range 4).map (fun k => (32, (frget t k).toNat))
     ++ (List.range 3).map (fun k => (32, (t.rf.lc.getD k 0).toNat))
     ++ (List.range 3).map (fun k => (64, frameField t.ctl.loops[k]?))
     ++ [(32, t.pl.gang), (32, t.pl.team), (32, t.sp.phase.toNat), (32, t.sp.vid.toNat), (32, t.pl.grid),
         (32, cont.toNat), (64, pc.toNat)])

/-- The 136 bytes of a mask and a control word (R50, R120). -/
def maskBytes (m : LaneSet) (control : Nat) : List Byte :=
  leBytes 136 (packFields [(32, (summary m).toNat), (1024, m.toNat), (32, control)])

/-- The eight stack entries, entry 0 the outermost, zero above the depth (R50, R52). -/
def stackBytes (st : List MaskEntry) : List Byte :=
  (List.range 8).flatMap fun k =>
    match st.reverse[k]? with
    | none => List.replicate 136 0
    | some e => maskBytes e.mask e.kind.code

/-- Predicates, 128 bytes each. -/
def predBytes (t : Team) : List Byte := (List.range 7).flatMap fun k => leBytes 128 (pset t k).toNat

/-- Vector registers in the layout of R50 and R400. -/
def vecBytes (t : Team) : List Byte :=
  (List.range t.rf.nv).flatMap fun r => (List.range t.rf.n).flatMap fun L => leBytes 4 (vget t r L).toNat

/-- A continuation record (R50, R51). -/
def contBytes (t : Team) (pc : DWord) (cont detail : Word) (reason : Nat) (bound : Bool) : List Byte :=
  leBytes 128 (headerNum t pc cont detail reason t.rf.nv bound (clusterOf t.pl.core))
    ++ maskBytes t.ctl.mask 0 ++ stackBytes t.ctl.stack ++ List.replicate 184 0 ++ predBytes t
    ++ List.replicate 128 0 ++ vecBytes t

/-- The count of a path's in-flight operations (R199). Batches count on path 1. -/
def Engines.count (e : Engines) (path : Nat) : Nat :=
  if path = 1 then (e.batches.filter fun b => !b.complete).length else (e.ops.filter fun o => o.path == path).length

/-- A context entry from its start to the end of its vector registers (R400). -/
def ctxBytes (t : Team) (pc : DWord) : List Byte :=
  leBytes 128 (headerNum t pc t.cont 0 0 0 t.pl.gangBound (clusterOf t.pl.core))
    ++ maskBytes t.ctl.mask 0 ++ stackBytes t.ctl.stack ++ List.replicate 184 0 ++ predBytes t
    ++ (List.range 8).flatMap (fun k => leBytes 32 (shget t k).toNat)
    ++ (List.range 24).flatMap (fun k => leBytes 4 (sget t (8 + k)).toNat)
    ++ leBytes 8 t.sp.tcyc.toNat ++ leBytes 8 t.sp.tdl.toNat ++ leBytes 4 t.sp.step.toNat ++ leBytes 4 t.rf.nv
    ++ leBytes 4 t.eng.lastBatch ++ leBytes 4 0
    ++ (List.range 7).flatMap (fun k => leBytes 1 (t.eng.count k)) ++ leBytes 1 t.eng.maint.length
    ++ leBytes 4 0 ++ List.replicate 244 0 ++ vecBytes t

/-- The size of a context entry (R400). -/
def ctxSize : Nat := 1088 * 1024

/-- What a record read back holds. -/
structure Saved where
  pc : DWord
  mask : LaneSet
  stack : List MaskEntry
  loops : List LoopFrame
  lc : List Word
  fr : List Word
  p : List LaneSet
  s : List Word
  v : List (List Word)
  n : Nat
  nv : Nat
  prio : Nat
  role : Nat
  reason : Nat
  gangBound : Bool
  home : Nat
  grid : Nat
  gang : Nat
  team : Nat
  ftz : Word
  rmode : Word
  phase : Word
  vid : Word
  deriving DecidableEq, Repr

/-- `n` bytes of a list from an offset, as a number. -/
def numAt (bs : List Byte) (off n : Nat) : Nat := ofLeBytes ((bs.drop off).take n)

/-- A mask section: summary, mask words and control word, when they agree with each other and with N (R52, R120). -/
def readMask (bs : List Byte) (off n : Nat) : Option (LaneSet × Nat) :=
  let x := numAt bs off 136
  let m : LaneSet := BitVec.ofNat 1024 (bitsOf x 32 1024)
  if (summary m).toNat = bitsOf x 0 32 ∧ m.toNat < 2 ^ n then some (m, bitsOf x 1056 32) else none

/-- The kind of a control word (R120). -/
def kindOf (c : Nat) : Option MaskKind :=
  if c = 0 then some .ifK else if c = 1 then some .elseK else if c = 2 then some .loopK else none

/-- Stack entries 0 to depth-1, innermost first. -/
def readStack (bs : List Byte) (n : Nat) : Nat → Option (List MaskEntry)
  | 0 => some []
  | d + 1 =>
    match readStack bs n d, readMask bs (0x108 + 136 * d) n with
    | some st, some (m, c) => (kindOf c).map fun k => { mask := m, kind := k } :: st
    | _, _ => none

/-- Loop frames 0 to depth-1 valid, the others wholly zero (R52). -/
def readFrames (h d : Nat) : Option (List LoopFrame) :=
  let f := fun k => bitsOf h (576 + 64 * k) 64
  if (List.range 3).all fun k => if k < d then f k / 2 ^ 63 == 1 else f k == 0 then
    some ((List.range d).map fun k =>
      let a := bitsOf (f k) 0 55 * 4
      { start := BitVec.ofNat 64 (if a < 2 ^ 56 then a else a + (2 ^ 64 - 2 ^ 57)), len := bitsOf (f k) 55 8 + 1 })
  else none

/-- Read a record back (R51, R52, R120, R401). `ctx` selects a context entry, whose V stands at 0xAF4 and whose vectors
start at 0xC00, over a continuation record. -/
def readSaved (bs : List Byte) (ctx : Bool) : Option Saved :=
  let h := numAt bs 0 128
  let pc := bitsOf h 960 64
  let nv := if ctx then numAt bs 0xAF4 4 else bitsOf h 20 5
  let lcode := bitsOf h 25 3
  let n := lanesOfCode lcode
  let depth := bitsOf h 16 4
  let loopd := bitsOf h 14 2
  let base := if ctx then 0xC00 else 0xA00
  if pc % 4 = 0 ∧ canonical (BitVec.ofNat 64 pc) ∧ bitsOf h 32 26 = 0 ∧ bitsOf h 0 4 = 0 ∧ bitsOf h 58 5 < 24
      ∧ lcode ≤ 5 ∧ depth ≤ 8 ∧ bitsOf h 4 3 ≤ 4 ∧ bitsOf h 12 2 ≤ (if ctx then 2 else 1)
      ∧ (if ctx then nv % 8 = 0 ∧ 8 ≤ nv ∧ nv ≤ 64 else (nv = 8 ∨ nv = 16) ∧ bitsOf h 8 4 ≤ 3)
      ∧ numAt bs 0x548 184 = 0 ∧ numAt bs (0x108 + 136 * depth) (136 * (8 - depth)) = 0
      ∧ (ctx ∨ numAt bs 0x980 128 = 0) ∧ base + 4 * n * nv ≤ bs.length then
    match readMask bs 0x80 n, readStack bs n depth, readFrames h loopd with
    | some (m, c), some st, some fs =>
      let ps := (List.range 7).map fun k => (BitVec.ofNat 1024 (numAt bs (0x600 + 128 * k) 128) : LaneSet)
      if c = 0 ∧ (st.filter fun e => e.kind == .loopK).length = loopd ∧ ps.all fun p => decide (p.toNat < 2 ^ n) then
        some { pc := BitVec.ofNat 64 pc, mask := m, stack := st, loops := fs,
               lc := (List.range 3).map fun k => BitVec.ofNat 32 (bitsOf h (480 + 32 * k) 32),
               fr := (List.range 4).map fun k => BitVec.ofNat 32 (bitsOf h (352 + 32 * k) 32),
               p := ps,
               s := (List.range 32).map fun k =>
                 if k < 8 then BitVec.ofNat 32 (bitsOf h (96 + 32 * k) 32)
                 else if ctx then BitVec.ofNat 32 (numAt bs (0xA80 + 4 * (k - 8)) 4) else 0,
               v := (List.range nv).map fun r => (List.range n).map fun L =>
                 BitVec.ofNat 32 (numAt bs (base + 4 * n * r + 4 * L) 4),
               n := n, nv := nv, prio := bitsOf h 28 4, role := bitsOf h 12 2, reason := bitsOf h 8 4,
               gangBound := bitsOf h 63 1 = 1, home := bitsOf h 58 5, grid := bitsOf h 896 32,
               gang := bitsOf h 768 32, team := bitsOf h 800 32, ftz := BitVec.ofNat 32 (bitsOf h 7 1),
               rmode := BitVec.ofNat 32 (bitsOf h 4 3), phase := BitVec.ofNat 32 (bitsOf h 832 32),
               vid := BitVec.ofNat 32 (bitsOf h 864 32) }
      else none
    | _, _, _ => none
  else none

/-- Put what a record holds into a team (R48, R409): every register becomes full, pending hints and the loop buffer
are gone. -/
def applySaved (t : Team) (r : Saved) : Team :=
  { t with
    pl := { t.pl with prio := r.prio, role := r.role },
    rf := { t.rf with n := r.n, nv := r.nv, v := r.v, s := r.s, vfull := BitVec.allOnes 64, sfull := BitVec.allOnes 32,
                      p := r.p, lc := r.lc, fr := r.fr },
    ctl := { pc := r.pc, mask := r.mask, stack := r.stack, loops := r.loops, buffer := [], hints := none },
    sp := { t.sp with phase := r.phase, vid := r.vid, ftz := r.ftz, rmode := r.rmode } }

end Sys2Proof.Machine
end

