-- ==== Sys2Proof/Machine/Operands.lean ====
section
/-! DEFINITION. Operand forms: which registers an instruction reads and writes (R64, R66, R93, R94), and which hint words
it accepts (R68, R69, R71). -/

namespace Sys2Proof.Machine

/-- Register uses: vector and scalar sources with their E-bits, vector and scalar destinations. -/
structure Uses where
  vs : List (Nat × Bool)
  ss : List (Nat × Bool)
  vd : List Nat
  sd : List Nat
  deriving DecidableEq, Repr

/-- No register. -/
def Uses.none : Uses := ⟨[], [], [], []⟩

/-- Vector sources and destinations. -/
def uv (vs : List (BitVec 6 × Bool)) (vd : List (BitVec 6)) : Uses :=
  { vs := vs.map fun x => (x.1.toNat, x.2), ss := [], vd := vd.map fun x => x.toNat, sd := [] }

/-- Scalar sources and destinations. -/
def us (ss : List (BitVec 5 × Bool)) (sd : List (BitVec 5)) : Uses :=
  { vs := [], ss := ss.map fun x => (x.1.toNat, x.2), vd := [], sd := sd.map fun x => x.toNat }

/-- `k` registers from `r` on. -/
def regsFrom (r k : Nat) : List Nat := (List.range k).map fun i => r + i

/-- Registers as sources without E-bit. -/
def srcs (rs : List Nat) : List (Nat × Bool) := rs.map fun r => (r, false)

/-- A pair as a source. -/
def pairSrc (r : Nat) : List (Nat × Bool) := [(r, false), (r + 1, false)]

/-- Registers a width occupies (R76). -/
def widthRegs (w : BitVec 3) : Nat := if w = 5 then 2 else if w = 6 then 4 else 1

/-- Registers an element size of GX and SX occupies (R315). -/
def gxRegs (w : BitVec 3) : Nat := if w = 3 then 2 else if w = 4 then 4 else 1

/-- Coordinate scalars c to c+n (R63). -/
def coordSrc (c : BitVec 5) (n : BitVec 3) : List (Nat × Bool) := srcs (regsFrom c.toNat (n.toNat + 1))

/-- The rank of a shape record, 0 unbound (R191). -/
def shRank (r : BitVec 256) : Nat := (r.extractLsb' 0 3).toNat

/-- The base pair's even register of a shape record (R191). -/
def shBase (r : BitVec 256) : Nat := 2 * (r.extractLsb' 10 4).toNat

/-- The base pair that a bound record names (R191, R202). -/
def baseSrc (t : Team) (sh : BitVec 3) : List (Nat × Bool) :=
  let r := shget t sh.toNat
  if shRank r = 0 then [] else pairSrc (shBase r)

/-- Whether an AOP is CAS (R260). -/
def aopIsCas : Instr → Bool
  | .aopCas _ => true
  | _ => false

/-- The registers of the four AOP forms (R260). -/
def aopUses (cas dw : Bool) (o : AopOp) : Uses :=
  let k := (if dw then 2 else 1) * (if cas then 2 else 1)
  { vs := (o.a.toNat, false) :: srcs (regsFrom o.d.toNat k), ss := pairSrc (2 * o.s.toNat),
    vd := regsFrom o.d.toNat (if dw then 2 else 1), sd := [] }

/-- MRADD, MRMUL and MRCMP also read S[b+1] when the row word sets IMM (R348). -/
def immUses (t : Team) (a b : BitVec 5) (ea eb : Bool) : Uses :=
  { Uses.none with ss := (a.toNat, ea) :: (b.toNat, eb) ::
      (if (sget t a.toNat).getLsbD 30 && b != 31 then [(b.toNat + 1, false)] else []) }

/-- The registers the Locus engine reads and writes for dimension `n` (R365, R366). -/
def locusRegs (n : Nat) : List Nat := regsFrom 0 n ++ [16, 17, 18]

/-- The registers an instruction names (R74) and the ones its rule adds. `dw` is the `.DW` of its hint run (R260), `dim`
the dimension of the team's Locus context. -/
def usesOf (t : Team) (dw : Bool) (dim : Nat) (i : Instr) : Uses :=
  match i with
  | .iadd o
  | .isub o
  | .andn o
  | .iminS o
  | .iminU o
  | .imaxS o
  | .imaxU o
  | .imulLo o
  | .imulHiS o
  | .imulHiU o
  | .and o
  | .or o
  | .xor o
  | .shl o
  | .shr o
  | .sar o
  | .rot o
  | .bfxU o
  | .bfxS o
  | .fadd o
  | .fsub o
  | .fmul o
  | .fmin o
  | .fmax o
  | .haddBf o
  | .hmulBf o
  | .hmaxBf o
  | .haddF16 o
  | .hmulF16 o
  | .hmaxF16 o
  | .plx o
  | .pld o => uv [(o.a, o.ea), (o.b, o.eb)] [o.d]
  | .iabs o
  | .popc o
  | .clz o
  | .brev o
  | .mov o
  | .fclass o
  | .rcp o
  | .rsq o
  | .sqrt o
  | .tanh o
  | .ex2 o
  | .lg2 o
  | .sinp o
  | .cosp o
  | .i2fS o
  | .i2fU o
  | .f2iS o
  | .f2iU o
  | .rlogIadd o
  | .rlogImaxS o
  | .rlogFadd o
  | .rlogFmax o
  | .scanIadd o
  | .scanFadd o => uv [(o.a, o.ea)] [o.d]
  | .imad o
  | .bfi o
  | .ffma o
  | .hfmaBf o
  | .hfmaF16 o => uv [(o.a, o.ea), (o.b, o.eb), (o.d, false)] [o.d]
  | .sel o => uv [(o.a, o.ea), (o.b, o.eb)] [o.d]
  | .icmpS o
  | .icmpU o
  | .fcmp o
  | .fcmpUo o => uv [(o.a, o.ea), (o.b, o.eb)] []
  | .plogAnd _
  | .plogOr _
  | .plogXor _
  | .plogAndn _ => Uses.none
  | .movSp o => uv [] [o.d]
  | .iaddi o
  | .andi o
  | .ori o
  | .xori o => uv [(o.a, false)] [o.d]
  | .movi o => uv [] [o.d]
  | .icmpi o => uv [(o.a, false)] []
  | .shli o
  | .shri o
  | .sari o => uv [(o.a, false)] [o.d]
  | .sadd o
  | .ssub o
  | .smul o
  | .sand o
  | .sor o
  | .sxor o
  | .sshl o
  | .sshr o
  | .mrred o => us [(o.a, o.ea), (o.b, o.eb)] [o.d]
  | .scmpS o
  | .scmpU o => us [(o.a, o.ea), (o.b, o.eb)] []
  | .smov o
  | .mskrd o
  | .rget o
  | .mron o => us [(o.a, o.ea)] [o.d]
  | .v2s o => { Uses.none with vs := [(o.a.toNat, o.ea)], sd := [o.d.toNat] }
  | .s2v o => { Uses.none with ss := [(o.a.toNat, o.ea)], vd := [o.d.toNat] }
  | .saddi o => us [(o.a, false)] [o.d]
  | .smovi o => us [] [o.r]
  | .srd o => { Uses.none with sd := if sp64 o.imm then [o.r.toNat, o.r.toNat + 1] else [o.r.toNat] }
  | .swr o => { Uses.none with ss := if sp64 o.imm then pairSrc o.r.toNat else [(o.r.toNat, false)] }
  | .nadd o
  | .nmul o
  | .nmax o
  | .nmin o => uv [(o.a, false), (o.b, false)] [o.d]
  | .nfma o => uv [(o.a, false), (o.b, false), (o.d, false)] [o.d]
  | .ncmp o => uv [(o.a, false), (o.b, false)] []
  | .cvtRne o
  | .cvtRtz o
  | .cvtSr o
  | .cvt o => uv [(o.a, o.ea)] [o.d]
  | .cvtnRne o
  | .cvtnRtz o
  | .cvtnSr o
  | .cvtn o => uv [(o.a, o.ea)] [o.d]
  | .frw o => us [(o.a, o.ea)] []
  | .shflIdx o
  | .shflXor o
  | .shflUp o
  | .shflDn o => uv (if o.eb then [(o.a, o.ea)] else [(o.a, o.ea), (o.b, false)]) [o.d]
  | .voteAny _
  | .voteAll _ => Uses.none
  | .voteBal o => us [] [o.d]
  | .elect _ => Uses.none
  | .br _
  | .brAll _ => Uses.none
  | .call _ => us [] [31]
  | .ret => us [(31, false)] []
  | .jmp o
  | .cpwait o
  | .mroff o
  | .hdem o
  | .hpro o
  | .hrel o => us [(o.a, o.ea)] []
  | .exit _
  | .ifP _
  | .brk _ => Uses.none
  | .nop => Uses.none
  | .elseP => Uses.none
  | .endif => Uses.none
  | .loop o => us [(o.a, false)] []
  | .ld o => { vs := [(o.a.toNat, false)], ss := pairSrc (2 * o.s.toNat), vd := regsFrom o.d.toNat (widthRegs o.w), sd := [] }
  | .st o => { vs := (o.a.toNat, false) :: srcs (regsFrom o.d.toNat (widthRegs o.w)), ss := pairSrc (2 * o.s.toNat), vd := [], sd := [] }
  | .lds o => { vs := [(o.a.toNat, false)], ss := [(o.s.toNat, false)], vd := regsFrom o.d.toNat (widthRegs o.w), sd := [] }
  | .sts o => { vs := (o.a.toNat, false) :: srcs (regsFrom o.d.toNat (widthRegs o.w)), ss := [(o.s.toNat, false)], vd := [], sd := [] }
  | .ldt o => { vs := [], ss := coordSrc o.c o.n ++ baseSrc t o.sh, vd := [o.d.toNat], sd := [] }
  | .stt o => { vs := [(o.d.toNat, false)], ss := coordSrc o.c o.n ++ baseSrc t o.sh, vd := [], sd := [] }
  | .cpt o => { Uses.none with ss := (o.d.toNat, false) :: (coordSrc o.c o.n ++ baseSrc t o.sh) }
  | .cpseal o
  | .mstat o => us [] [o.d]
  | .waitc o => us [(o.a, o.ea)] []
  | .pref o => { Uses.none with vs := [(o.a.toNat, false)], ss := pairSrc (2 * o.s.toNat) }
  | .shset o => us [(o.a, false)] []
  | .phase _ => Uses.none
  | .fence => Uses.none
  | .bar _ => Uses.none
  | .cleanr o
  | .invr o
  | .flushr o
  | .synci o
  | .tlbinv o => { Uses.none with ss := pairSrc (2 * o.a.toNat) ++ [(o.b.toNat, o.eb)] }
  | .mma o => us [(o.sa, false)] []
  | .mzero _ => Uses.none
  | .mrd o => { Uses.none with ss := [(o.a.toNat, o.ea)], vd := [o.d.toNat] }
  | .msts o
  | .rput o
  | .hset o
  | .svrel o => us [(o.a, o.ea), (o.b, o.eb)] []
  | .aopAdd o
  | .aopMin o
  | .aopMax o
  | .aopXchg o
  | .aopAnd o
  | .aopOr o
  | .aopXor o
  | .aopCas o => aopUses (aopIsCas i) dw o
  | .callm o => uv [(o.a, false), (o.d, false)] [o.d]
  | .cbatch o => { Uses.none with vd := [o.d.toNat], sd := regsFrom (4 * o.a.toNat) 4 }
  | .creply o => uv [(o.a, o.ea), (o.b, o.eb)] []
  | .cdone => Uses.none
  | .twait o => { Uses.none with vs := [(o.a.toNat, false)], ss := (o.d.toNat, false) :: pairSrc (2 * o.s.toNat) }
  | .mreg o => { Uses.none with ss := (o.a.toNat, o.ea) :: pairSrc (2 * o.b.toNat) }
  | .trig => Uses.none
  | .waitdep => Uses.none
  | .yield => Uses.none
  | .joink => Uses.none
  | .launch o
  | .postc o => { Uses.none with ss := pairSrc (2 * o.a.toNat) }
  | .gx o => { vs := [(o.a.toNat, false)], ss := pairSrc (2 * o.s.toNat), vd := regsFrom o.d.toNat (gxRegs o.w), sd := [] }
  | .sx o => { vs := (o.a.toNat, false) :: srcs (regsFrom o.d.toNat (gxRegs o.w)), ss := pairSrc (2 * o.s.toNat), vd := [], sd := [] }
  | .mrld o => { Uses.none with ss := pairSrc (2 * o.a.toNat) ++ [(o.b.toNat, o.eb), (o.b.toNat + 1, false)] }
  | .mrst o => { Uses.none with ss := pairSrc (2 * o.a.toNat) ++ [(o.b.toNat, o.eb), (o.b.toNat + 1, false)] }
  | .mrop o => us [(o.a, o.ea), (o.b, o.eb)] []
  | .mradd o
  | .mrmul o => immUses t o.a o.b o.ea o.eb
  | .mrcmp o => immUses t o.a o.b o.ea o.eb
  | .hold o => { Uses.none with ss := pairSrc (2 * o.a.toNat) ++ [(o.b.toNat, o.eb)], sd := [o.d.toNat] }
  | .igbind o => { Uses.none with ss := pairSrc (2 * o.a.toNat) ++ pairSrc (2 * o.b.toNat), sd := [o.d.toNat] }
  | .igrun => { Uses.none with vd := (locusRegs dim).filter (· < t.rf.nv) }
  | .igret _ => { Uses.none with vs := srcs ((locusRegs dim).filter (· < t.rf.nv)) }
  | .igstop => Uses.none
  | .igq o => { Uses.none with vs := [(o.a.toNat, o.ea)], vd := o.d.toNat :: (regsFrom o.d.toNat dim).filter (· < t.rf.nv) }
  | .igrd o => uv [] [o.d]
  | .igwr o => uv [(o.a, o.ea)] []
  | .svput o => { vs := [(o.d.toNat, false), (o.a.toNat, o.ea)], ss := [(o.b.toNat, o.eb)], vd := [o.d.toNat], sd := [] }
  | .svget o => { vs := [(o.a.toNat, o.ea)], ss := [(o.b.toNat, o.eb)], vd := regsFrom o.d.toNat 3, sd := [] }
  | .svdrop o => us [(o.a, o.ea), (o.b, o.eb), (o.b + 1, false)] [o.d]
  | .traps o => { Uses.none with ss := [(o.a.toNat, o.ea)], vs := if active t o.g = 0 then [] else srcs (regsFrom 0 (min 16 t.rf.nv)) }
  | .tret => Uses.none
  | .bkpt => Uses.none
  | .himm _ => Uses.none
  | .hsched _ => Uses.none
  | .hmod _ => Uses.none
  | .stratumLd o => { vs := [(o.a.toNat, false)], ss := [], vd := regsFrom o.d.toNat (widthRegs o.w), sd := [] }
  | .stratumSt o => { vs := (o.a.toNat, false) :: srcs (regsFrom o.d.toNat (widthRegs o.w)), ss := [], vd := [], sd := [] }
  | .stratumLoop o => { Uses.none with vs := [(o.a.toNat, false)] }
  | .graphUpload _ => Uses.none
  | .graphRemove _ => Uses.none
  | .trigger _ => Uses.none
  | .instanceBegin _ => Uses.none
  | .nodeLaunch _ _ => Uses.none
  | .nodeComplete _ _ => Uses.none
  | .externalWaitWake _ _ => Uses.none
  | .externalWaitTimeout _ _ => Uses.none
  | .hostSignalAck _ _ => Uses.none
  | .stratumBlockRun _ => Uses.none
  | .gridRetire _ => Uses.none
  | .gangPlacement => Uses.none
  | .gangWaitLimit _ _ => Uses.none
  | .teamRestore _ => Uses.none
  | .continuationConvert _ => Uses.none
  | .continuationResume _ => Uses.none
  | .continuationTargetTimeout _ => Uses.none
  | .taskEnd _ => Uses.none
  | .producerComplete _ _ => Uses.none
  | .futureWake _ => Uses.none
  | .copyComplete _ _ => Uses.none
  | .matrixCmdStart _ _ => Uses.none
  | .matrixCmdRetire _ _ => Uses.none
  | .publicationCommit _ => Uses.none
  | .entryResolve _ => Uses.none
  | .maintenanceComplete _ _ => Uses.none
  | .sxAck _ _ => Uses.none
  | .marlCmdComplete _ => Uses.none
  | .residencyComplete _ => Uses.none
  | .vertexRequestArrival _ => Uses.none
  | .combineAtomic _ => Uses.none
  | .twaitWake _ => Uses.none
  | .routineCall _ => Uses.none
  | .igrunComplete _ => Uses.none
  | .deadlineExpiry _ => Uses.none
  | .priorityBoost _ => Uses.none
  | .yieldTimeout _ => Uses.none
  | .hschedSpaceExpiry _ => Uses.none
  | .vxcfgEnable _ => Uses.none
  | .vxcfgDisable _ => Uses.none
  | .svcmdOpen _ => Uses.none
  | .svcmdClose _ => Uses.none
  | .svdrain _ => Uses.none
  | .srcomp _ => Uses.none
  | .firsterrClear _ => Uses.none
  | .registerWrite _ _ => Uses.none
  | .hostWindowRead _ _ => Uses.none
  | .hostWindowWrite _ _ => Uses.none
  | .peerWrite _ _ _ => Uses.none
  | .getVersion _ => Uses.none
  | .getCapabilities _ => Uses.none
  | .negotiateAlgorithms _ => Uses.none
  | .getDigests _ => Uses.none
  | .getCertificate _ => Uses.none
  | .challenge _ => Uses.none
  | .getMeasurements _ _ => Uses.none
  | .keyExchange _ => Uses.none
  | .finish _ => Uses.none
  | .endSession _ => Uses.none
  | .memoryKeyInstall _ _ => Uses.none
  | .startLogRead _ => Uses.none
  | .managementStart _ => Uses.none
  | .coreFailure _ => Uses.none
  | .powerThrottle => Uses.none
  | .placementHold => Uses.none
  | .hbmBankTest _ _ _ => Uses.none
  | .linkFlitRetry _ _ => Uses.none
  | .powerBelowCap => Uses.none
  | .fqtailWrite _ => Uses.none
  | .srtailWrite _ => Uses.none

/-- Whether an instruction takes HIMM (R68, R69). -/
def takesHimm : Instr → Bool
  | .iaddi _ | .movi _ | .icmpi _ | .saddi _ | .smovi _ | .shset _ | .andi _ | .ori _ | .xori _ => true
  | _ => false

/-- Whether an instruction takes a rounding override (R71). -/
def takesRnd : Instr → Bool
  | .fadd _ | .fsub _ | .fmul _ | .ffma _ | .haddBf _ | .hmulBf _ | .hfmaBf _ | .hmaxBf _ | .haddF16 _ | .hmulF16 _
  | .hfmaF16 _ | .hmaxF16 _ | .nadd _ | .nmul _ | .nfma _ | .nmax _ | .rcp _ | .rsq _ | .sqrt _ | .tanh _ | .ex2 _
  | .lg2 _ | .sinp _ | .cosp _ | .i2fS _ | .i2fU _ | .f2iS _ | .f2iU _ => true
  | _ => false

/-- Whether an instruction takes `.DW` (R71). -/
def takesDw : Instr → Bool
  | .aopAdd _ | .aopMin _ | .aopMax _ | .aopXchg _ | .aopAnd _ | .aopOr _ | .aopXor _ | .aopCas _ => true
  | _ => false

/-- Whether an instruction takes `.SAT` (R71, R107). -/
def takesSat : Instr → Bool
  | .iadd _ | .isub _ | .iaddi _ => true
  | _ => false

/-- Whether an instruction takes the L1 policy and `.NA` (R71, R188, R197). -/
def takesL1 : Instr → Bool
  | .ld _ | .st _ | .cpt _ | .pref _ | .gx _ | .sx _ => true
  | .ldt o | .stt o => !o.sp
  | _ => false

/-- Whether a hint run suits its consumer (R69 to R72): reason 7 of R83 if not. -/
def hintsOk (h : HintRun) (i : Instr) : Bool :=
  !h.twice
    && (h.himm.isNone || takesHimm i)
    && (match h.hsched with | none => true | some x => x.l2p != 0 || x.burst || x.space != 0)
    && (match h.hmod with
        | none => true
        | some m =>
          (m.rnd != 0 || m.dw || m.u || m.sat || m.l1 != 0 || m.na)
            && (m.rnd == 0 || takesRnd i) && (!m.dw || takesDw i)
            && (!m.u || (match i with | .icmpi _ => true | _ => false)) && (!m.sat || takesSat i)
            && ((m.l1 == 0 && !m.na) || takesL1 i) && m.l1 != 3)

/-- The modifiers of the pending run. -/
def hmodOf (t : Team) : HmodOp :=
  match t.ctl.hints with
  | some h => h.hmod.getD ⟨0, false, false, false, 0, false⟩
  | none => ⟨0, false, false, false, 0, false⟩

/-- The 32-bit immediate: sign- or zero-extended, or completed by HIMM (R68). -/
def immOf (t : Team) (signed : Bool) (imm : BitVec 10) : Word :=
  match t.ctl.hints with
  | some h => match h.himm with
    | some x => x.v ++ imm
    | none => if signed then imm.signExtend 32 else imm.setWidth 32
  | none => if signed then imm.signExtend 32 else imm.setWidth 32

end Sys2Proof.Machine
end

