-- ==== Sys2Proof/Machine/Ops.lean ====
section
/-! DEFINITION. The shared operations: the error log (R397, R398), taking a trap and returning from one (R389 to R393, R409), a
team's in-flight operations (R93 to R95, R199), and issuing and retiring an instruction (R41, R67, R83, R128). -/

namespace Sys2Proof.Machine

/-- Insert into a list ordered by `lt`, after equals. -/
def insertBy {α : Type} (lt : α → α → Bool) (x : α) : List α → List α
  | [] => [x]
  | y :: ys => if lt x y then x :: y :: ys else y :: insertBy lt x ys

/-- Sort by `lt`, stable. -/
def sortBy {α : Type} (lt : α → α → Bool) : List α → List α
  | [] => []
  | x :: xs => insertBy (fun a b => !lt b a) x (sortBy lt xs)

/-! ### The error log -/

/-- The unit number of a SOURCE word (R388), if the source is a unit with a counter. -/
def unitOf (src : Nat) : Option Nat :=
  let c := src / 2 ^ 24
  let i := src % 2 ^ 24
  if c = 1 then some i else if c = 2 then some (256 + i) else if c = 3 then some (512 + i)
  else if c = 4 then some (704 + i) else none

/-- An event (R397): it takes its number when the cycle ends. Payload bytes start at offset 0x20 of an entry. -/
def logEvent (s : State) (kind src : Nat) (payload : List Byte) : State :=
  { s with host := { s.host with events := s.host.events ++ [⟨kind, src, payload⟩] } }

/-- What a host's access to the part does: over a link that cannot deliver it has no effect and receives an error response (R414). -/
def overLink (s : State) (r : Host.Outcome State Fault Refusal) : Host.Outcome State Fault Refusal :=
  if (lostLink s).isSome then .next { s with host := { s.host with answer := [] } } else r

/-- The order of events in one cycle (R397): SOURCE class, then unit index, then kind. -/
def LogItem.before (a b : LogItem) : Bool :=
  decide (a.src < b.src) || (a.src == b.src && decide (a.kind < b.kind))

/-- An event takes the next number and is recorded (R397, R398). It advances its unit's counter: a corrected soft error the lower half,
any other event the upper (log 64). -/
def recordEvent (s : State) (x : LogItem) : State :=
  let kind := x.kind
  let src := x.src
  let payload := x.payload
  let h := s.host
  let seq := h.eseq + 1
  let cnt := fun u => ((h.ecnt.find? fun x => x.1 == u).map fun x => x.2).getD (0 : DWord)
  let bump := fun (x : DWord) => if kind = 4 then pairOf (loHalf x + 1) (hiHalf x) else pairOf (loHalf x) (hiHalf x + 1)
  let ecnt := match unitOf src with
    | some u => (u, bump (cnt u)) :: h.ecnt.filter fun x => x.1 != u
    | none => h.ecnt
  let count := match unitOf src with | some u => bump (cnt u) | none => (0 : DWord)
  let first := !h.firsterr1.getLsbD 63 && kind != 4
  let h1 := { h with eseq := seq, ecnt := ecnt,
                     firsterr0 := if first then seq else h.firsterr0,
                     firsterr1 := if first then BitVec.ofNat 64 (2 ^ 63 + kind * 2 ^ 32 + src) else h.firsterr1 }
  let logn := (h.elogbase.extractLsb' 0 5).toNat
  if logn = 0 then { s with host := h1 }
  else if h.eloghead.toNat - h.elogtail.toNat < 2 ^ logn then
    let pa := h.elogbase.toNat / 4096 * 4096 + 128 * (h.eloghead.toNat % 2 ^ logn)
    let body := leBytes 8 seq.toNat ++ leBytes 4 kind ++ leBytes 4 src ++ leBytes 8 count.toNat
      ++ leBytes 8 s.cycle.toNat ++ (payload ++ List.replicate (96 - payload.length) 0).take 96
    let s1 := if isPhys pa then immediate s (cellsAt (peerAddr s pa) body) else s
    { s1 with host := { h1 with eloghead := h.eloghead + 1 } }
  else { s with host := { h1 with ovfcnt := h.ovfcnt + 1 } }

/-! ### ECC (R313) -/

/-- Correct and count the soft errors of some granules. -/
def correctGranules (s : State) (gs : List Nat) : State :=
  let hits := s.ms.ecc.filter fun e => gs.contains e.1 && !e.2
  hits.foldl (fun s e => logEvent s 4 (2 ^ 24 + channelOf s.mgmt.map (16 * e.1)) (leBytes 8 (16 * e.1)))
    { s with ms := { s.ms with ecc := s.ms.ecc.filter fun e => !hits.contains e } }

/-- The soft errors that fills of the cycle have corrected are counted (R313). -/
def countSoft (s : State) : State :=
  s.ms.soft.foldl (fun s g => logEvent s 4 (2 ^ 24 + channelOf s.mgmt.map (16 * g)) (leBytes 8 (16 * g))) { s with ms := { s.ms with soft := [] } }

/-- The cycle ends: its events are numbered and recorded in their order (R397). -/
def closeCycle (s : State) : State :=
  let s := countSoft s
  (sortBy LogItem.before s.host.events).foldl recordEvent { s with host := { s.host with events := [] } }

/-- Correct and count the soft errors of a sector that is read from HBM. -/
def eccCorrect (s : State) (n : Nat) : State := correctGranules s (granulesAt s.ms (64 * n) 64)

/-- An uncorrectable error is counted and logged. -/
def eccReport (s : State) (pa : Nat) : State :=
  logEvent s 5 (2 ^ 24 + channelOf s.mgmt.map pa) (leBytes 8 pa ++ leBytes 4 1)

/-! ### Ending teams and grids -/

/-- Copies and maintenance of an engines' state that run on without their team (R393). -/
def runningOn (e : Engines) : Engines :=
  { Engines.idle with unsealed := ((e.batches.flatMap fun b => b.copies) ++ e.unsealed).filter fun c => !c.done,
                      maint := e.maint }

/-- A team that has ended: nothing unpublished; its copies and maintenance operations run on (R393). -/
def endTeam (t : Team) : Team :=
  let e := runningOn t.eng
  let e := match t.handler with
    | some h => let x := runningOn h.saved
                { e with unsealed := x.unsealed ++ e.unsealed, maint := x.maint ++ e.maint }
    | none => e
  { t with stage := .ended, wait := .ready, ver := Version.fresh, eng := e, handler := none, locus := none,
           pending := [] }

/-- The context entries a team occupies. -/
def entriesOf (t : Team) : List Nat :=
  (match t.stage with | .evicted k => [k] | _ => []) ++ (match t.handler with | some h => [h.entry] | none => [])

/-- The grid launched by a team of one of these grids. -/
def isChildOf (ids : List Nat) (g : Grid) : Bool :=
  match g.from_ with
  | .team _ p => ids.contains p
  | _ => false

/-- A grid and its descendants; depth is at most 10 (R40). -/
def descendants (gs : List Grid) : Nat → List Nat → List Nat
  | 0, ids => ids
  | n + 1, ids =>
    descendants gs n (ids ++ ((gs.filter fun g => isChildOf ids g && !ids.contains g.id).map fun g => g.id))

/-- The pool entry of a continuation. -/
def poolOf (t : Team) : List Nat := match t.stage with | .cont k _ => [k] | _ => []

/-- Whether every team and continuation of a gang has ended. -/
def gangOver (s : State) (g : Gang) : Bool :=
  s.teams.all fun t => t.kind != .core || t.pl.grid != g.grid || t.pl.gang != g.idx || t.stage == .ended

/-- Whether a gang that is over still has a copy, a matrix command or a marl command under way (R175, R343, R393). -/
def gangWorks (s : State) (g : Gang) : Bool :=
  (s.teams.any fun t => t.kind == .core && t.pl.grid == g.grid && t.pl.gang == g.idx && t.eng.unsealed.any fun c => !c.done)
    || (g.pairs.any fun p => !p.queue.isEmpty || p.running.isSome)
    || s.marl.any fun m => m.grid == g.grid && m.gang == g.idx && !m.queue.isEmpty

/-- Free what gangs that have ended held (R175); each of their slices leaves marl mode when its own commands are done (R343). -/
def sweepGangs (s : State) : State :=
  let gone := s.gangs.filter (gangOver s)
  { s with gangs := s.gangs.filter fun g => !gangOver s g || gangWorks s g,
           marl := s.marl.filter fun m => !(m.queue.isEmpty && gone.any fun g => g.grid == m.grid && g.idx == m.gang) }

/-- End every team, parked, evicted and posted ones included, of a grid and its descendants (R393 steps 3 and 4): their
open phases are discarded, waiting gangs are never placed, contexts are unbound, requests parked on TRAPS keep their
blocks. A publication in progress commits whole; what the engines still do for a gang keeps its scratchpad, pairs and slices. -/
def killGrid (s : State) (id : Nat) : State :=
  let ids := descendants s.sched.grids 12 [id]
  let hit := fun (t : Team) => t.kind == .core && ids.contains t.pl.grid && t.stage != .ended
  let dead := s.teams.filter hit
  let pubs := dead.filter fun t => match t.wait with | .publish _ _ _ => true | _ => false
  let ms := pubs.foldl (fun ms t => match t.wait with
    | .publish sc _ _ => commit (l2View s) (insIn t.ver.ins) ms (t.ver.pub.filter fun c => sc == 2 || !isOutside c.1)
    | _ => ms) s.ms
  let uids := dead.map fun t => t.uid
  let s1 := s.mapTeams fun t => if hit t then endTeam t else t
  sweepGangs { s1 with
    ms := ms,
    locus := s1.locus.filter fun c => !uids.contains c.uid,
    host := { s1.host with requests := s1.host.requests.map fun r =>
      match r.uid with | some u => if uids.contains u then { r with uid := none } else r | none => r },
    sched := { s1.sched with
      grids := s1.sched.grids.map fun g => if ids.contains g.id then { g with fatal := true, next := g.size } else g,
      ctxUsed := s1.sched.ctxUsed.filter fun k => !(dead.flatMap entriesOf).contains k,
      poolUsed := s1.sched.poolUsed.filter fun k => !(dead.flatMap poolOf).contains k } }

/-- The kind 1 log payload (R398). -/
def fatalPayload (t : Team) (pc : DWord) (group second : Nat) (d0 d1 d2 : Word) (others : Nat) : List Byte :=
  leBytes 8 pc.toNat ++ leBytes 4 t.pl.grid ++ leBytes 4 t.pl.gang ++ leBytes 4 t.cont.toNat
    ++ leBytes 4 t.sp.vid.toNat ++ leBytes 4 t.sp.phase.toNat
    ++ leBytes 4 (t.pl.team % 64 * 2 ^ 24 + second % 32 * 2 ^ 8 + group % 32)
    ++ leBytes 4 d0.toNat ++ leBytes 4 d1.toNat ++ leBytes 4 d2.toNat ++ leBytes 4 others

/-- A fatal trap of the team in focus (R393): the log entry, then the grid ends. In handler mode both groups are
logged, the delivered one first (R391). -/
def fatalTrap (s : State) (tr : Trap) (pc : DWord) : State :=
  let t := s.team
  let others := (s.teams.filter fun u => u.kind == .core && u.pl.grid == t.pl.grid && u.uid != t.uid
    && u.stage != .ended).length
  let pay := match t.handler with
    | some h => fatalPayload t pc h.group tr.group t.sp.d0 t.sp.d1 t.sp.d2 others
    | none => fatalPayload t pc tr.group 0 tr.d0 tr.d1 tr.d2 others
  killGrid (logEvent s 1 (3 * 2 ^ 24 + t.pl.core) pay) t.pl.grid

/-! ### Taking a trap -/

/-- Context entries (R388). -/
def ctxEntries (s : State) : Nat := (s.host.ctxarea.extractLsb' 0 14).toNat

/-- The lowest free context entry. -/
def freeEntry (s : State) : Option Nat := (List.range (ctxEntries s)).find? fun k => !s.sched.ctxUsed.contains k

/-- The physical address of context entry `k` (R400). -/
def entryPa (s : State) (k : Nat) : Nat := s.host.ctxarea.toNat / 2 ^ 21 * 2 ^ 21 + ctxSize * k

/-- The virtual address of context entry `k` (R391). -/
def entryVa (s : State) (k : Nat) : DWord := BitVec.ofNat 64 (s.host.ctxva.toNat / 2 ^ 21 * 2 ^ 21 + ctxSize * k)

/-- Whether a trap of a group would be delivered, a free entry apart (R390). -/
def deliverable (s : State) (g : Nat) : Bool :=
  s.host.trapvec.getLsbD 0 && s.host.trapdlv.getLsbD g && g != 17 && s.team.handler.isNone

/-- The tile states of a pair, as MSTAT gives them (R248). -/
def tileStates (p : Pair) : Nat :=
  let st := fun t => match ((p.tiles[t]?).map fun x => x.state).getD .untyped with
    | .untyped => 0
    | .fp32 => 1
    | .int32 => 2
    | .invalid => 3
  st 0 + 4 * st 1 + 16 * st 2 + 64 * st 3

/-- The pair whose state goes into this team's context: it is the pair's matrix team with the lowest `%team` (R400). -/
def contextPair (s : State) (t : Team) : Option Pair :=
  let low := s.teams.all fun u => u.kind != .core || u.pl.grid != t.pl.grid || u.pl.gang != t.pl.gang || u.pl.role != 2
    || u.pl.pair != t.pl.pair || u.stage == .ended || decide (t.pl.team ≤ u.pl.team)
  if t.pl.role = 2 ∧ low then
    (s.gangOf t).bind fun g => g.pairs.find? fun p => p.idx == t.pl.pair
  else none

/-- The tiles as a context entry holds them: the leader's four, then the follower's. -/
def tileBytes (p : Pair) : List Byte :=
  let word := fun (x : Sparse) (n : Nat) =>
    leBytes 4 (((x.find? fun (e : Nat × Word) => e.1 == n).map fun (e : Nat × Word) => e.2).getD 0).toNat
  let half := fun (f : Tile → Sparse) => p.tiles.flatMap fun t => (List.range 16384).flatMap (word (f t))
  half (fun t => t.lead) ++ half fun t => t.foll

/-- What goes into a context entry at physical address `a` (R400). The Locus state's 16 KiB are the part's own and are left
out. -/
def ctxCells (s : State) (t : Team) (pc : DWord) (a : Nat) : List Host.Cell :=
  let cells := cellsAt a (ctxBytes t pc)
  match contextPair s t with
  | some p => cells ++ cellsAt (a + 0xB08) (leBytes 1 (tileStates p))
      ++ cellsAt (a + 0xC00 + 4 * t.rf.n * t.rf.nv + 16384) (tileBytes p)
  | none => cells

/-- A team's version once its context stands in the entry at physical address `a`, whose first `size` bytes were written (R391): what it had
stored there and not published is gone, and no hold or older snapshot keeps it from reading the entry as it stands. -/
def enterEntry (v : Version) (a size : Nat) : Version :=
  let rest := (v.held ++ v.cuts.map fun c => c.1).filter fun n => decide (a / 64 + size / 64 ≤ n ∧ n < a / 64 + ctxSize / 64)
  release (dropBytes v [(a, ctxSize)]) (regsFrom (a / 64) (size / 64) ++ rest.eraseDups)

/-- Delivery into entry `k` with a resume point (R391). -/
def deliver (s : State) (tr : Trap) (resume : DWord) (k : Nat) : State :=
  let t := { s.team with ctl := { s.team.ctl with hints := none } }
  let cells := ctxCells s t resume (entryPa s k)
  let s1 := immediate s cells
  let size := if (contextPair s t).isSome then ctxSize else 0xC00 + 4 * t.rf.n * t.rf.nv
  let h : Handler := { entry := k, group := tr.group, saved := t.eng, resume := resume, later := t.pending,
                       tiles := (contextPair s t).isSome }
  let t1 := markS (markS (setPair t 30 (entryVa s k)) 30 true) 31 true
  let t2 := { t1 with
    handler := some h, pending := [], wait := .ready, eng := { Engines.idle with lastBatch := t.eng.lastBatch },
    ver := enterEntry t.ver (entryPa s k) size,
    sp := { t.sp with cause := BitVec.ofNat 32 tr.group, d0 := tr.d0, d1 := tr.d1, d2 := tr.d2 },
    ctl := { t.ctl with pc := s.host.trapvec &&& ~~~3, stack := [], loops := [], buffer := [], hints := none },
    book := { t.book with freeze := tr.group == 14 && t.sp.step.getLsbD 1 } }
  { s1 with team := t2, sched := { s1.sched with ctxUsed := k :: s1.sched.ctxUsed } }

/-- Change the home of a cluster. -/
def modHome (s : State) (h : Nat) (f : Home → Home) : State :=
  { s with vx := { s.vx with homes := s.vx.homes.set h (f (s.vx.homes.getD h Home.empty)) } }

/-- Put one lane's reply words into the requester's in-flight operation (R259 to R261); a requester that is gone drops
it. The reply's words go to consecutive registers. -/
def fillLane (o : Op) (lane : Nat) (words : List Word) : Op :=
  let dst := match o.dst with
    | .vec r m data => .vec r m (data.zipIdx.map fun x => (x.1.set lane (words.getD x.2 0)))
    | d => d
  let waits := o.waits &&& ~~~(BitVec.ofNat 1024 (2 ^ lane))
  { o with dst := dst, waits := waits, arrived := o.arrived || waits == 0 }

/-- Apply a change to the in-flight operation with a tag, in the live and in the saved image (R97). -/
def modOp (t : Team) (tag : Nat) (f : Op → Op) : Team :=
  let g := fun (e : Engines) => { e with ops := e.ops.map fun o => if o.tag == tag then f o else o }
  { t with eng := g t.eng, handler := t.handler.map fun h => { h with saved := g h.saved } }

/-- Reply to a vertex request (R259, R261). -/
def replyTo (s : State) (q : VReq) (words : List Word) : State :=
  s.modTeam q.uid fun t => modOp t q.tag fun o => fillLane o q.lane words

/-- Leave handler mode without TRET (R266). DESIGN CHOICE (log 100): the handler's own operations under way are dropped, and the registers they
were to fill stay empty. -/
def leaveHandler (s : State) : State :=
  match s.team.handler with
  | none => s
  | some h =>
    { s with team := { s.team with handler := none, eng := h.saved },
             sched := { s.sched with ctxUsed := s.sched.ctxUsed.filter fun k => k != h.entry } }

/-- The entry PC of a grid (R285). -/
def entryOf (s : State) (grid : Nat) : DWord := ((s.gridOf grid).map fun g => g.rec_.getD 0 0).getD 0

/-- Reset the vertex wave in focus (R266): registers keep their values. -/
def resetWave (s : State) : State :=
  let s := leaveHandler s
  let t := s.team
  { s with team := { t with ctl := Control.entry (entryOf s t.pl.grid) 32, wait := .ready, pending := [], passed := none, late := none,
                            sp := { t.sp with tdl := 0, cause := 0, d0 := 0, d1 := 0, d2 := 0 } } }

/-- A method fault of the wave in focus with batch `b` open (R266). -/
def methodFault (s : State) (tr : Trap) (h : Nat) (b : VBatch) : State :=
  let seq := (s.vx.homes.getD h Home.empty).seq
  let word : Word := BitVec.ofNat 32 (2 * 2 ^ 30 + tr.group % 32 * 2 ^ 25 + seq % 2 ^ 25)
  let s1 := b.reqs.foldl (fun s q => replyTo s q [word]) s
  let pay := leBytes 8 b.va.toNat ++ leBytes 4 seq
    ++ leBytes 4 (b.cls * 2 ^ 22 + b.method * 2 ^ 16 + b.reqs.length % 64 * 2 ^ 8 + h)
    ++ leBytes 4 tr.group ++ leBytes 4 tr.d0.toNat ++ leBytes 4 tr.d1.toNat ++ leBytes 4 tr.d2.toNat
  resetWave (modHome (logEvent s1 3 (5 * 2 ^ 24 + h) pay) h fun x => { x with batch := none, seq := x.seq + 1 })

/-- Whether a request is a method call. -/
def VReq.isCall (q : VReq) : Bool := match q.kind with | .call _ _ => true | _ => false

/-- A trap that stops the home (R266): the wave issues no more. From then on the home answers its calls REFUSED with value 5, each at the head
of its object's requests (R259). -/
def stopHome (s : State) (h : Nat) : State :=
  let s2 := modHome (logEvent s 9 (5 * 2 ^ 24 + h) (leBytes 4 h)) h fun x => { x with stopped := true }
  let s3 := leaveHandler s2
  { s3 with team := { s3.team with stage := .ended } }

/-- A trap of a vertex wave (R266, R390). -/
def waveTrap (s : State) (tr : Trap) (resume : DWord) : State :=
  if tr.group = 14 ∨ tr.group = 15 then
    if deliverable s tr.group then
      match freeEntry s with
      | some k => deliver s tr resume k
      | none => s
    else s
  else
    let h := clusterOf s.team.pl.core
    match (s.vx.homes.getD h Home.empty).batch with
    | some b => methodFault s tr h b
    | none => stopHome s h

/-- The stratum reason (R323) for what would be a trap of a core. -/
def stratumReason (tr : Trap) : Nat :=
  if tr.group = 3 then (let r := bitsOf tr.d0.toNat 27 5; if r = 1 ∨ r = 2 then 2 else 3)
  else if tr.group = 17 then 9
  else if tr.group = 5 then 5 else if tr.group = 6 then 6 else 1

/-- The wavefront's code word at an address, 0 where there is none. -/
def stratumWord (s : State) (b : BlockRun) (pc : DWord) : Word :=
  match s.strat.runs.find? fun r => r.graph == b.graph && r.node == b.node with
  | some r => r.code.getD ((pc - r.codeVa).toNat / 4) 0
  | none => 0

/-- A stratum fault of the wavefront in focus (R323, R324): the granule buffer is discarded, the node fails, the log
takes the entry. -/
def stratumFault (s : State) (reason : Nat) : State :=
  let ch := s.team.pl.core
  match s.strat.current.find? fun x => x.1 == ch with
  | none => s
  | some (_, b) =>
    let entry := packFields [(8, reason), (8, 0), (48, 0), (8, ch), (8, b.graph), (16, b.node), (32, (stratumWord s b s.team.ctl.pc).toNat),
      (64, s.team.ctl.pc.toNat), (64, b.va.toNat)]
    let s1 := logEvent s 2 (2 ^ 24 + ch) (leBytes 32 entry)
    { s1 with
      team := { s1.team with stage := .ended },
      strat := { s1.strat with
        current := s1.strat.current.filter fun x => x.1 != ch,
        runs := s1.strat.runs.map fun r =>
          if r.graph == b.graph && r.node == b.node then { r with failed := true } else r } }

/-- Take a trap of the team in focus with its resume point (R389 to R393): delivered to the handler if it may be and a
context entry is free, otherwise fatal; a vertex wave and a stratum wavefront follow their own rules. -/
def takeTrap (s : State) (tr : Trap) (resume : DWord) : State :=
  match s.team.kind with
  | .stratum => stratumFault s (stratumReason tr)
  | .wave => waveTrap s tr resume
  | .core =>
    if deliverable s tr.group then
      match freeEntry s with
      | some k => deliver s tr resume k
      | none => fatalTrap s tr resume
    else fatalTrap s tr resume

/-- Where a precise or pending trap resumes: the first word of the hint run (R73, R389). -/
def resumePc (t : Team) : DWord := match t.ctl.hints with | some h => h.first | none => t.ctl.pc

/-- A trap that leaves the instruction undone (R389). -/
def trapBefore (s : State) (tr : Trap) : State := takeTrap s tr (resumePc s.team)

/-! ### Trap details (R394) -/

/-- A code offset from the code base (R125, R394). -/
def codeOff (t : Team) (pc : DWord) : Word := loHalf (pc - t.pl.codebase)

/-- `%detail0` with a reason and the lower bits. -/
def det0 (reason low : Nat) : Word := BitVec.ofNat 32 (reason * 2 ^ 27 + low)

/-- Group 1 (R83). -/
def trap1 (t : Team) (reason : Nat) (word : Word) : Trap := ⟨1, det0 reason 0, word, codeOff t t.ctl.pc⟩
/-- Group 2. -/
def trap2 (t : Team) (scalar : Bool) (r : Nat) : Trap :=
  ⟨2, det0 0 ((if scalar then 2 ^ 26 else 0) + r * 2 ^ 20), 0, codeOff t t.ctl.pc⟩
/-- Group 3 (R119). -/
def trap3 (t : Team) (reason : Nat) (target : Word) : Trap :=
  ⟨3, det0 reason (t.ctl.stack.length * 2 ^ 23 + t.ctl.loops.length * 2 ^ 21), if reason = 5 then target else 0,
    codeOff t t.ctl.pc⟩
/-- Group 4. -/
def trap4 (t : Team) (reason idx bit : Nat) : Trap :=
  ⟨4, det0 reason (idx * 2 ^ 24 + (if reason = 2 then bit * 2 ^ 16 else 0)), 0, codeOff t t.ctl.pc⟩
/-- Group 5 with a lane and an address (R395). -/
def trap5 (reason : Nat) (lane : Option Nat) (va : DWord) : Trap :=
  ⟨5, det0 reason (match lane with | some L => L * 2 ^ 17 + 2 ^ 16 | none => 0), loHalf va, hiHalf va⟩
/-- Group 5 reason 10 (R342). -/
def trap5r (reason : Nat) (va : DWord) : Trap := ⟨5, det0 10 (reason * 2 ^ 12), loHalf va, hiHalf va⟩
/-- Group 6. -/
def trap6 (reason : Nat) (lane : Nat) (acc : Access) (va : DWord) : Trap :=
  ⟨6, det0 reason (lane * 2 ^ 17 + acc.code * 2 ^ 15), loHalf va, hiHalf va⟩
/-- Group 7. -/
def trap7 (reason idx : Nat) (va : DWord) (batch : Nat) : Trap :=
  ⟨7, det0 reason (idx * 2 ^ 21 + bitsOf va.toNat 36 21), BitVec.ofNat 32 (bitsOf va.toNat 4 32), BitVec.ofNat 32 batch⟩
/-- Group 8 (R242, R243): code, tile, core, pair, SEQ and MORE. -/
def trap8 (code tile core pair : Nat) (seq : Word) (more : Nat) : Trap :=
  ⟨8, det0 code (tile * 2 ^ 25 + core * 2 ^ 24 + pair * 2 ^ 21), seq, BitVec.ofNat 32 more⟩
/-- Group 9 (R353). -/
def trap9 (reason slice : Nat) (code : Word) : Trap := ⟨9, det0 reason (slice * 2 ^ 19), code, 0⟩
/-- Group 10 (R378). -/
def trap10 (t : Team) (reason ctx : Nat) (lane : Option Nat) (bit : Nat) : Trap :=
  ⟨10, det0 reason (ctx * 2 ^ 25 + (match lane with | some L => L * 2 ^ 15 + 2 ^ 14 | none => 0)),
    if reason = 1 ∨ reason = 2 then BitVec.ofNat 32 bit else 0, codeOff t t.ctl.pc⟩
/-- Group 11, with an address for reasons 1 and 6. -/
def trap11 (t : Team) (reason : Nat) (lane : Option Nat) (va : DWord) : Trap :=
  let l := match lane with | some L => L * 2 ^ 17 + 2 ^ 16 | none => 0
  if reason = 1 ∨ reason = 6 then ⟨11, det0 reason l, loHalf va, hiHalf va⟩
  else ⟨11, det0 reason l, codeOff t t.ctl.pc, 0⟩
/-- Group 12 (R300). -/
def trap12 (t : Team) (reason : Nat) (va : DWord) : Trap :=
  if reason = 1 ∨ reason = 4 ∨ reason = 7 then ⟨12, det0 reason 0, loHalf va, hiHalf va⟩
  else ⟨12, det0 reason 0, codeOff t t.ctl.pc, 0⟩
/-- Group 12 reason 3: the wrong role or core for an engine command (R37). -/
def trapRole (t : Team) (major fn : Nat) : Trap :=
  ⟨12, det0 3 (major * 2 ^ 20 + fn * 2 ^ 18 + t.pl.role * 2 ^ 16), codeOff t t.ctl.pc, 0⟩
/-- Group 13. -/
def trap13 (reason : Nat) (num code : Word) : Trap := ⟨13, det0 reason 0, num, code⟩
/-- Group 17 reason 1 (R313): a channel's uncorrectable data. -/
def trap17 (s : State) (pa : Nat) : Trap :=
  ⟨17, det0 1 (2 ^ 24 + channelOf s.mgmt.map pa), BitVec.ofNat 32 pa, BitVec.ofNat 32 (pa / 2 ^ 32)⟩
/-- Group 17 reason 3 (R414): the lane of the link that reports, and the physical address. -/
def trapLink (lane pa : Nat) : Trap := ⟨17, det0 3 (4 * 2 ^ 24 + lane), BitVec.ofNat 32 pa, BitVec.ofNat 32 (pa / 2 ^ 32)⟩
/-- Group 18 (R424). -/
def trap18 (reason stream : Nat) (q : Word) : Trap := ⟨18, det0 reason 0, BitVec.ofNat 32 stream, q⟩

/-! ### In-flight operations -/

/-- A path's maximum (R199). -/
def pathMax (path : Nat) : Nat :=
  if path = 0 then 32 else if path = 1 then 16 else if path = 2 then 8 else if path = 3 then 32
  else if path = 4 then 64 else if path = 5 then 16 else 8

/-- Whether a path has room for one more (R199). -/
def hasRoom (t : Team) (path : Nat) : Bool := decide (t.eng.count path < pathMax path)

/-- Add an in-flight operation; a producer's destination becomes empty (R93). -/
def addOp (t : Team) (path : Nat) (dst : Dst) (waits : LaneSet) (arrived : Bool) : Team :=
  let t1 := match dst with
    | .none => t
    | .vec r _ data => markVs t r data.length false
    | .scalar r _ => markS t r false
    | .pred _ _ _ => t
  { t1 with nextTag := t.nextTag + 1,
            eng := { t1.eng with ops := t1.eng.ops ++
              [{ tag := t.nextTag, path := path, dst := dst, waits := waits, arrived := arrived, done := false }] } }

/-- Write a result and fill its destination (R93). -/
def fillDst (t : Team) : Dst → Team
  | .none => t
  | .vec r m data => markVs (setVs t r m data) r data.length true
  | .scalar r x => markS (setS t r x) r true
  | .pred p m vals => setPLanes t p m fun L => vals.getLsbD L

/-- Drop the done operations that no older operation of their path precedes: counters fall in issue order (R95, R199). -/
def dropDone : List Nat → List Op → List Op
  | _, [] => []
  | held, o :: os =>
    if o.done && !held.contains o.path then dropDone held os else o :: dropDone (o.path :: held) os

/-- A producer that no lane took part in: its destination fills when its counter entry retires (R93). -/
def Op.laneless (o : Op) : Bool := match o.dst with | .vec _ m _ => m == 0 | _ => false

/-- Complete the operation with a tag: fill its destination, mark it done, lower the counter in issue order; what then retires
without a lane fills its destination (R93). -/
def completeOp (t : Team) (tag : Nat) : Team :=
  match t.eng.ops.find? fun o => o.tag == tag && o.arrived && !o.done with
  | none => t
  | some o =>
    let t1 := if o.laneless then t else fillDst t o.dst
    let ops := t1.eng.ops.map fun x => if x.tag == tag then { x with done := true } else x
    let left := dropDone [] ops
    let t2 := (ops.filter fun x => x.laneless && !left.contains x).foldl (fun t x => fillDst t x.dst) t1
    { t2 with eng := { t2.eng with ops := left } }

/-- Engines that have finished an operation without result. -/
def finishOp (s : State) (uid tag : Nat) : State :=
  s.modTeam uid fun t => completeOp (modOp t tag fun o => { o with arrived := true, waits := 0 }) tag

/-- Note an error that a later wait or FENCE reports (R226). -/
def noteErr (t : Team) (tag path : Nat) (tr : Trap) : Team :=
  let e : PendErr := { tag := tag, path := path, num := 0, trap := tr }
  match t.handler with
  | some h => if h.saved.ops.any (fun o => o.tag == tag) || h.saved.maint.any (fun o => o.tag == tag)
                || h.saved.batches.any (fun b => b.tag == tag)
      then { t with handler := some { h with saved := { h.saved with errs := h.saved.errs ++ [e] } } }
      else { t with eng := { t.eng with errs := t.eng.errs ++ [e] } }
  | none => { t with eng := { t.eng with errs := t.eng.errs ++ [e] } }

/-! ### Retiring -/

/-- Whether an address lies in a live loop's body. -/
def inBody (f : LoopFrame) (a : DWord) : Bool :=
  decide (f.start.toNat ≤ a.toNat ∧ a.toNat < f.start.toNat + 4 * f.len)

/-- Loop `k`, the innermost, ends: its entry is popped, and the loop buffer keeps the words of the loops that go on (R128,
R131). -/
def popLoop (t : Team) (k : Nat) (e : MaskEntry) (st : List MaskEntry) : Team :=
  let left := t.ctl.loops.take k
  { t with ctl := { t.ctl with mask := e.mask, stack := st, loops := left,
                               buffer := t.ctl.buffer.filter fun x => left.any fun f => inBody f x.1 } }

/-- The loop action at the last body word at `pc` (R128): innermost loop first, outward while loops end and share the
word. The flag says that a loop cannot end because an IF is open. `fuel` counts the live loops. -/
def loopEnd (pc : DWord) : Nat → Team → Team × Bool
  | 0, t => ({ t with ctl := { t.ctl with pc := pc + 4 } }, false)
  | k + 1, t =>
    match t.ctl.loops[k]? with
    | none => ({ t with ctl := { t.ctl with pc := pc + 4 } }, false)
    | some f =>
      if pc = f.start + BitVec.ofNat 64 (4 * (f.len - 1)) then
        let c := t.rf.lc.getD k 0 - 1
        if c ≠ 0 then
          ({ t with rf := { t.rf with lc := t.rf.lc.set k c }, ctl := { t.ctl with pc := f.start } }, false)
        else
          match t.ctl.stack with
          | e :: st =>
            if e.kind = .loopK then loopEnd pc k (popLoop { t with rf := { t.rf with lc := t.rf.lc.set k c } } k e st)
            else ({ t with ctl := { t.ctl with pc := pc + 4 } }, true)
          | [] => ({ t with ctl := { t.ctl with pc := pc + 4 } }, true)
      else ({ t with ctl := { t.ctl with pc := pc + 4 } }, false)

/-- The scheduling hints of the consumer take effect (R70). -/
def schedHints (s : State) (t : Team) : IssueBook :=
  match t.ctl.hints with
  | some h => match h.hsched with
    | some x => { t.book with burst := x.burst,
                              spaceUntil := if x.space = 0 then t.book.spaceUntil else s.arith + x.space.toNat + 1 }
    | none => t.book
  | none => t.book

/-- Whether single step traps after this instruction (R396). -/
def stepping (t : Team) : Bool := t.sp.step.getLsbD 0 && t.handler.isNone && t.kind != .stratum

/-- The step trap of the instruction that a team has just completed (R394, R396). -/
def stepTrap (t : Team) (pc : DWord) : Trap := ⟨14, 0, codeOff t pc, codeOff t t.ctl.pc⟩

/-- Finish an instruction that continues at `pc`, with an error to report after completion, if any (R389, R396). `st` says whether it
was issued under single step; where it also reports an error, its step trap is raised when the team resumes (log 20). -/
def retireToStep (st : Bool) (s : State) (pc : DWord) (after : Option Trap) : State :=
  let t := s.team
  let t1 := { t with wait := .ready, book := schedHints s t, ctl := { t.ctl with pc := pc, hints := none } }
  match after with
  | some tr => takeTrap { s with team := if st then { t1 with pending := t1.pending ++ [stepTrap t pc] } else t1 } tr pc
  | none => if st then takeTrap { s with team := t1 } (stepTrap t pc) pc else { s with team := t1 }

/-- As `retireToStep`, by the `%step` that stands. -/
def retireTo (s : State) (pc : DWord) (after : Option Trap) : State := retireToStep (stepping s.team) s pc after

/-- Finish a straight-line instruction: the loop action of R128, then as `retireTo`. A loop-end trap takes the place of
every other trap of the word. -/
def retireWithStep (st : Bool) (s : State) (after : Option Trap) : State :=
  let t := s.team
  let r := loopEnd t.ctl.pc t.ctl.loops.length t
  if r.2 then
    let t1 := { r.1 with wait := .ready, book := schedHints s t, ctl := { r.1.ctl with hints := none } }
    let t2 := { t1 with ctl := { t1.ctl with pc := t.ctl.pc } }
    takeTrap { s with team := if t.kind = .stratum then t2 else t1 } (trap3 t2 4 0) t1.ctl.pc
  else retireToStep st { s with team := { r.1 with ctl := { r.1.ctl with pc := t.ctl.pc } } } r.1.ctl.pc after

/-- As `retireWithStep`, by the `%step` that stands. -/
def retireWith (s : State) (after : Option Trap) : State := retireWithStep (stepping s.team) s after

/-- Finish a straight-line instruction with nothing to report. -/
def retire (s : State) : State := retireWith s none

/-- Finish an instruction that reports an imprecise error after it completes: the state with the error taken, and its trap.
Where a loop-end trap takes the report's place the error stays pending (R128). -/
def retireReport (s : State) (r : State × Option Trap) : State :=
  if (loopEnd s.team.ctl.pc s.team.ctl.loops.length s.team).2 then retire s else retireWith r.1 r.2

/-! ### Waits that outlast a stay on the group (R51, R73) -/

/-- A team that leaves its group while it waits in an instruction that has issued: the loop action is taken, the PC goes past the
instruction and its hint run is used up; a loop that cannot end is a trap at resumption. -/
def passWait (t : Team) : Team :=
  if t.passed.isSome then t
  else
    let r := loopEnd t.ctl.pc t.ctl.loops.length t
    let t1 := { r.1 with ctl := { r.1.ctl with hints := none }, passed := some t.ctl.pc }
    if r.2 then { t1 with pending := t1.pending ++ [trap3 { t1 with ctl := { t1.ctl with pc := t.ctl.pc } } 4 0] } else t1

/-- Whether the loop-end trap of the instruction that a team has passed stands (R128): group 3 is pending for no other reason. -/
def loopEndPending (t : Team) : Bool := t.pending.any fun x => x.group == 3

/-- An instruction that the team has passed ends, with the step trap at resumption (R396) unless its loop-end trap stands (R128). -/
def donePassed (t : Team) : Team :=
  match t.passed with
  | none => t
  | some a =>
    let tr : Trap := ⟨14, 0, codeOff t t.ctl.pc, codeOff t a⟩
    { t with wait := .ready, passed := none, pending := if !loopEndPending t && stepping t then t.pending ++ [tr] else t.pending }

/-- The wait of the team in focus is over: an instruction that the team has passed only ends, with the step trap at resumption
(R396); on its group it retires. -/
def endWait (s : State) : State :=
  if s.team.passed.isNone then retire s else s.withTeam (donePassed s.team)

/-! ### Issuing -/

/-- What an instruction does once every check and wait at issue has passed. -/
inductive Result where
  /-- It has taken effect. -/
  | next (s : State)
  /-- It cannot issue yet; nothing has changed (R41). -/
  | wait (why : Why)
  /-- It traps and has no effect (R389). -/
  | trap (tr : Trap)

/-- The dimension of the team's Locus context, 0 without one (R362). -/
def locusDim (s : State) (t : Team) : Nat :=
  match s.locus.find? fun c => c.uid == t.uid with
  | some c => (c.problem.getD 0 0).toNat % 32
  | none => 0

/-- Whether the team is inside a Locus routine (R365, R366): one of an IGRUN that it issued in the mode it is in now, since a handler
delivered inside a routine is not part of it (R391). -/
def inRoutine (s : State) (t : Team) : Bool :=
  s.locus.any fun c => c.uid == t.uid && c.inRoutine && c.byHandler == t.handler.isSome

/-- Instructions a vertex wave may not issue (R262). -/
def waveForbids : Instr → Bool
  | .aopAdd _ | .aopMin _ | .aopMax _ | .aopXchg _ | .aopAnd _ | .aopOr _ | .aopXor _ | .aopCas _ | .callm _ | .twait _
  | .traps _ | .bar _ | .waitdep | .joink | .launch _ | .postc _ | .rput _ | .rget _ | .exit _ => true
  | _ => false

/-- Instructions only a vertex wave may issue (R262). -/
def waveOnly : Instr → Bool
  | .cbatch _ | .creply _ | .cdone => true
  | _ => false

/-- Instructions a Locus routine may not issue (R366). -/
def routineForbids : Instr → Bool
  | .igbind _ | .igrun | .igq _ | .exit _ | .traps _ | .bar _ | .twait _ | .waitdep | .joink | .rput _ | .rget _
  | .launch _ | .postc _ => true
  | _ => false

/-- The privileged instructions but TRET (R85). -/
def needsPriv : Instr → Bool
  | .mreg _ | .tlbinv _ => true
  | _ => false

/-- An AOP whose d breaks its rule under `.DW` (R260): reason 5, made at the consumer (R83). -/
def aopBadD (dw : Bool) : Instr → Bool
  | .aopAdd o | .aopMin o | .aopMax o | .aopXchg o | .aopAnd o | .aopOr o | .aopXor o => dw && o.d.toNat % 2 != 0
  | .aopCas o => dw && o.d.toNat % 4 != 0
  | _ => false

/-- Registers that hold B and its scales for a slot of B (R235). -/
def bCount (fb : DWord) : Nat :=
  let fam := bitsOf fb.toNat 0 4
  let scale := bitsOf fb.toNat 8 4
  (if fam = 8 then 2 * bitsOf fb.toNat 4 4 else if fam = 5 ∨ fam = 6 then 13 else 16)
    + (if scale = 2 then 1 else if scale = 3 then 2 else 0)

/-- The vector registers a queued matrix command has still to read in a team (R235, R239). -/
def matrixReads (s : State) (t : Team) : List Nat :=
  if t.pl.role = 2 then
    match s.gangOf t with
    | none => []
    | some g =>
      g.pairs.flatMap fun p =>
        if p.idx == t.pl.pair then
          (if p.running.isSome then p.queue.drop 1 else p.queue).flatMap fun c =>
            match c.kind with
            | .mma _ _ vb _ fb _ _ => regsFrom vb (bCount fb)
            | _ => []
        else []
  else []

/-- The word check that fails at the consumer, as a reason of R83. -/
def wordReason (t : Team) (u : Uses) (i : Instr) : Option Nat :=
  let dw := (hmodOf t).dw
  if aopBadD dw i then some 5
  else if (u.vs.map fun x => x.1).any (fun r => decide (t.rf.nv ≤ r)) || u.vd.any (fun r => decide (t.rf.nv ≤ r)) then some 6
  else match t.ctl.hints with
    | none => none
    | some h => if hintsOk h i then none else some 7

/-- The checks and waits common to every instruction word, in the order of R67, R83 and R85: word checks at the
consumer, privilege, what a wave or a Locus routine may not issue, sources with E-bit, empty sources and
destinations, and registers a matrix command has still to read. -/
def gate (s : State) (i : Instr) : Option Result :=
  let t := s.team
  let u := usesOf t (hmodOf t).dw (locusDim s t) i
  match wordReason t u i with
  | some r => some (.trap (trap1 t r (((encode i).getD 0))))
  | none =>
    if needsPriv i && !privileged t then some (.trap (trap5 6 none 0))
    else if t.kind == .wave && waveForbids i then some (.trap (trap11 t 3 none 0))
    else if t.kind != .wave && waveOnly i then some (.trap (trap11 t 2 none 0))
    else if inRoutine s t && routineForbids i then some (.trap (trap10 t 6 (t.locus.getD 0) none 0))
    else match u.vs.find? fun x => x.2 && !vIsFull t x.1 with
      | some x => some (.trap (trap2 t false x.1))
      | none =>
        match u.ss.find? fun x => x.2 && !sIsFull t x.1 with
        | some x => some (.trap (trap2 t true x.1))
        | none =>
          if (u.vs.all fun x => vIsFull t x.1) && (u.ss.all fun x => sIsFull t x.1) && (u.vd.all fun r => vIsFull t r)
              && (u.sd.all fun r => sIsFull t r) && !(u.vd.any fun r => (matrixReads s t).contains r) then none
          else some (.wait .operand)

/-- The team in focus issues (R42, R43): it is the last to have issued (`lastIssue` is twice the device time), its boost count is
zero, and it leaves the sets of teams that a YIELD waits for (R304); a burst of another team of the group is over (R70). -/
def noteIssue (s : State) : State :=
  let n := s.issued + 1
  { s with
    issued := n,
    team := { s.team with book := { s.team.book with lastIssue := 2 * s.cycle.toNat, readyCount := 0, boosted := false,
                                                     burst := false, begun := false } },
    others := s.others.map fun o =>
      if s.team.kind ≠ .stratum ∧ o.pl.core = s.team.pl.core ∧ o.pl.group = s.team.pl.group then
        { o with book := { o.book with burst := false, yieldTo := o.book.yieldTo.filter fun u => u != s.team.uid } }
      else o }

/-- A team joins the queue of a stage ring of its gang, unless it stands there (R308). -/
def joinRing (t : Team) (why : Why) (g : Gang) : Gang :=
  match why with
  | .ring h put => if g.ringWait.contains (h, put, t.uid) then g else { g with ringWait := g.ringWait ++ [(h, put, t.uid)] }
  | _ => g

/-- The team in focus cannot issue yet. -/
def hold (s : State) (why : Why) : State :=
  { s with team := { s.team with wait := .retry why, book := { s.team.book with begun := why == .fence } },
           gangs := (s.modGang s.team.pl.grid s.team.pl.gang (joinRing s.team why)).gangs }

/-- Issue an instruction of the team in focus: the common checks and waits, then its own effect. -/
def issue (i : Instr) (s : State) (effect : State → Result) : Host.Outcome State Fault Refusal :=
  match gate s i with
  | some (.trap tr) => .next (trapBefore (noteIssue s) tr)
  | some (.wait w) => .next (hold s w)
  | some (.next s') => .next s'
  | none =>
    match effect (noteIssue s) with
    | .next s' => .next s'
    | .wait w => .next (hold s w)
    | .trap tr => .next (trapBefore (noteIssue s) tr)

end Sys2Proof.Machine
end

