-- ==== Sys2Proof/Machine/Fetch.lean ====
section
/-! DEFINITION. Page faults (R406, R407) and the fetch of one instruction word (R125, R131, R404, R411). -/

namespace Sys2Proof.Machine

/-- The cluster nearest to a slice on its die (R299). -/
def nearCluster (slice : Nat) : Nat := 12 * (slice / 128) + (slice % 128) * 12 / 128

/-- The target cluster of a continuation that is queued now (R299): by x0, or home for a gang-bound record (R49). -/
def targetOf (s : State) (t : Team) : Nat :=
  if t.pl.gangBound then clusterOf t.pl.core
  else
    let va := spair t 0
    let far := (va.toNat >>> 12 ^^^ va.toNat >>> 24) % 24
    if canonical va then
      match leafOf s t.pl.core t.pl.asid va.toNat with
      | .ok l => if isHbm (l.pa va.toNat) then nearCluster (channelOf s.mgmt.map (l.pa va.toNat)) else far
      | .error _ => far
    else far

/-- The team in focus, a continuation in pool entry `k`, is queued: routed now, behind all that were queued before it (R299, R437). -/
def queueCont (s : State) (k : Nat) : State :=
  let q : Queued := { since := s.cycle, place := s.sched.nextPlace, target := targetOf s s.team, anywhere := false }
  { s with team := { s.team with stage := .cont k (some q) }, sched := { s.sched with nextPlace := s.sched.nextPlace + 1 } }

/-- The first free future word of an address space: its virtual and physical address (R403, R406). -/
def freeFuture (s : State) (core asid : Nat) (sp : Space) : Option (DWord × Nat) :=
  (List.range sp.futCount).findSome? fun i =>
    let va := sp.futBase + BitVec.ofNat 64 (8 * i)
    match xlate s core asid true .rw va with
    | .ok (pa, l) => if (commByteK s.ms l.key pa).toNat % 4 = 0 then some (va, pa) else none
    | .error _ => none

/-- Append a fault queue entry (R407). -/
def faultEntry (s : State) (va fut : DWord) (asid : Nat) (acc : Access) (engine : Bool) (grid : Nat) : State :=
  let logn := (s.host.fqbase.extractLsb' 0 5).toNat
  let pa := peerAddr s (s.host.fqbase.toNat / 4096 * 4096 + 32 * (s.host.fqhead.toNat % 2 ^ logn))
  let body := leBytes 8 va.toNat ++ leBytes 8 fut.toNat
    ++ leBytes 4 (asid + acc.code * 2 ^ 16 + (if engine then 2 ^ 18 else 0)) ++ leBytes 4 grid ++ leBytes 8 s.cycle.toNat
  let s1 := immediate s (cellsAt pa body)
  { s1 with host := { s1.host with fqhead := s1.host.fqhead + 1 } }

/-- Whether a miss of an address space goes to a pager: PAGER is set and there is a fault queue (R406). -/
def pagerBound (s : State) (asid : Nat) : Bool :=
  match spaceOf s asid with
  | some sp => sp.pager && s.host.fqbase.extractLsb' 0 5 != 0
  | none => false

/-- Write a future's STATE (R406): the word at `pa` of the page of `va`. -/
def setFuture (s : State) (core asid : Nat) (va : DWord) (pa state : Nat) : State :=
  let k := keyOf s core asid va
  immediateAs s (fun _ => ⟨0, false, k⟩) [(pa, (commByteK s.ms k pa &&& 0xFC) ||| BitVec.ofNat 8 state)]

/-- A translation miss of the team in focus on the page of `va` (R406): with a pager a future is taken, the fault queued
and the team parked at the instruction; without one, and at TRAPVEC (R391), the miss traps. -/
def pageFault (s : State) (lane : Option Nat) (acc : Access) (va : DWord) : Result :=
  let t := s.team
  match spaceOf s t.pl.asid with
  | none => .trap (trap5 5 lane va)
  | some sp =>
    if acc == .fetch && t.handler.isSome && va == s.host.trapvec &&& ~~~3 then .trap (trap6 1 (lane.getD 0) acc va)
    else if sp.pager && s.host.fqbase.extractLsb' 0 5 != 0 then
      match freeFuture s t.pl.core t.pl.asid sp with
      | none => .wait .future
      | some (fva, fpa) =>
        if s.host.fqhead.toNat - s.host.fqtail.toNat < 2 ^ (s.host.fqbase.extractLsb' 0 5).toNat then
          let s2 := faultEntry (setFuture s t.pl.core t.pl.asid fva fpa 1) va fva t.pl.asid acc false t.pl.grid
          .next { s2 with team := { s2.team with
            wait := .fault fva fpa (trap6 2 (lane.getD 0) acc va), ctl := { t.ctl with pc := resumePc t, hints := none, buffer := [] } } }
        else .wait .room
    else .trap (trap6 1 (lane.getD 0) acc va)

/-- The outcome of a failed translation of one lane of the team in focus (R183, R395, R406); a vertex wave and a wavefront never
park (R262). -/
def accessFault (s : State) (lane : Option Nat) (acc : Access) (va : DWord) (e : XErr) : Result :=
  match e with
  | .g5 r => .trap (trap5 r lane va)
  | .link k pa => .trap (trapLink k pa)
  | .miss => if s.team.kind ≠ .core then .trap (trap6 1 (lane.getD 0) acc va) else pageFault s lane acc va

/-- What a fetch yields: the word and the state that has cached it, or the failure. A copy that the core holds is checked against its
page's permissions like any other fetch (R392, R404). DESIGN CHOICE (log 58): a fetch, like a page walk, reads through the L2 and brings no line into it.
DESIGN CHOICE (log 99): live bodies that together exceed the 256 words of the loop buffer (R131) all stay in it. -/
def fetch (s : State) (a : DWord) : Except XErr (Word × State) :=
  let t := s.team
  match t.kind with
  | .stratum =>
    match s.strat.current.find? fun x => x.1 == t.pl.core with
    | none => .error .miss
    | some (_, b) =>
      match s.strat.runs.find? fun r => r.graph == b.graph && r.node == b.node with
      | none => .error .miss
      | some r => match r.code[(a - r.codeVa).toNat / 4]? with
        | some w => .ok (w, s)
        | none => .error .miss
  | _ =>
    match t.ctl.buffer.find? fun x => x.1 == a with
    | some x => .ok (x.2, s)
    | none =>
      let keep := fun (s : State) (w : Word) =>
        if t.ctl.loops.any fun f => inBody f a then
          { s with team := { t with ctl := { t.ctl with buffer := (a, w) :: t.ctl.buffer } } }
        else s
      match s.ms.code.find? fun c => c.core == t.pl.core && c.asid == t.pl.asid && c.va == a with
      | some c =>
        if permits s (privileged t) .fetch { pte := c.pte, page := 0, size := 1 } then .ok (c.word, keep s c.word) else .error (.g5 4)
      | none =>
        if canonical a then
          match xlateT s t .fetch a with
          | .error e => .error e
          | .ok (pa, l) => match if isHost pa then lostLink s else none with
            | some k => .error (.link k pa)
            | none =>
              let w : Word := BitVec.ofNat 32 (ofLeBytes (commBytesK s.ms l.key pa 4))
              let ms := fillTlb t.pl.core t.pl.asid s.ms l
              let ms := { ms with code := { core := t.pl.core, asid := t.pl.asid, va := a, pa := pa, word := w, pte := l.pte } :: ms.code }
              .ok (w, keep { s with ms := ms } w)
        else .error (.g5 2)

end Sys2Proof.Machine
end

