-- ==== Sys2Proof/Machine/Control.lean ====
section
/-! DEFINITION. Hint words, branches, calls, exits, divergent control and hardware loops (R69 to R73, R119 to R131), and
the stratum forms RET, EXIT and LOOP (R321). -/

namespace Sys2Proof.Machine

/-! ### Hint words -/

/-- A hint word joins the pending run (R72): it takes one issue and the team stays in the run. -/
def hintWord (s : State) (f : HintRun → HintRun) (dup : HintRun → Bool) : Host.Outcome State Fault Refusal :=
  let s := noteIssue s
  let t := s.team
  let h := t.ctl.hints.getD { first := t.ctl.pc, himm := none, hsched := none, hmod := none, twice := false }
  let h1 := { f h with twice := h.twice || dup h }
  .next (s.withTeam { t with wait := .ready, ctl := { t.ctl with pc := t.ctl.pc + 4, hints := some h1 } })

/-- HIMM (R69). -/
def execHimm (o : HimmOp) (s : State) : Host.Outcome State Fault Refusal :=
  hintWord s (fun h => { h with himm := some o }) (fun h => h.himm.isSome)

/-- HSCHED (R70). -/
def execHsched (o : HschedOp) (s : State) : Host.Outcome State Fault Refusal :=
  hintWord s (fun h => { h with hsched := some o }) (fun h => h.hsched.isSome)

/-- HMOD (R71). -/
def execHmod (o : HmodOp) (s : State) : Host.Outcome State Fault Refusal :=
  hintWord s (fun h => { h with hmod := some o }) (fun h => h.hmod.isSome)

/-! ### Branches -/

/-- End the live loops that a branch from `pc` to `target` leaves, innermost first; none when an IF or ELSE entry stands
above a loop's entry (R130). Log 21: a branch word outside the innermost live loop's body ends no loop. -/
def leaveLoops (pc target : DWord) : Nat → Team → Option Team
  | 0, t => some t
  | k + 1, t =>
    match t.ctl.loops[k]? with
    | none => some t
    | some f =>
      if inBody f pc && !inBody f target then
        match t.ctl.stack with
        | e :: st =>
          if e.kind = .loopK then
            leaveLoops pc target k (popLoop t k e st)
          else none
        | [] => none
      else some t

/-- A taken branch that may end loops (R124, R130). DESIGN CHOICE (log 99): a restored frame may end on a taken branch, CALL, RET, LOOP or hint
word, which R127 keeps out of a LOOP's body; the word goes its own way and the loop does not act (R128). -/
def branchTo (s : State) (target : DWord) : Result :=
  let t := s.team
  match leaveLoops t.ctl.pc target t.ctl.loops.length t with
  | some t1 => .next (retireTo (s.withTeam t1) target none)
  | none => .trap (trap3 t 5 (codeOff t target))

/-- Go on at the next word. LOOP accepts no such word as a body's last (R127), but a restored frame may end on one (R51), and then
the loop acts (R128). -/
def fallThrough (s : State) : Result := .next (retire s)

/-- The target of a B-form word (R63). -/
def brTarget (t : Team) (off : BitVec 22) : DWord := t.ctl.pc + (off.signExtend 64 <<< 2)

/-- BR (R124). -/
def execBr (o : BrOp) (s : State) : Host.Outcome State Fault Refusal :=
  issue (.br o) s fun s =>
    if o.g = 7 ∨ active s.team o.g ≠ 0 then branchTo s (brTarget s.team o.off) else fallThrough s

/-- BR_ALL (R124). -/
def execBrAll (o : BrOp) (s : State) : Host.Outcome State Fault Refusal :=
  issue (.brAll o) s fun s =>
    if o.g = 7 ∨ (s.team.ctl.mask ≠ 0 ∧ active s.team o.g = s.team.ctl.mask) then branchTo s (brTarget s.team o.off)
    else fallThrough s

/-- CALL (R125). -/
def execCall (o : CallOp) (s : State) : Host.Outcome State Fault Refusal :=
  issue (.call o) s fun s =>
    let t := s.team
    .next (retireTo (s.withTeam (setS t 31 (codeOff t (t.ctl.pc + 4)))) (brTarget t o.off) none)

/-- The address of a code offset (R125). -/
def codeAddr (t : Team) (off : Word) : DWord := t.pl.codebase + off.setWidth 64

/-- The end of a block run (R320): the written granules reach HBM, v11 to v15 are kept for the channel's next run. -/
def endBlock (s : State) : State :=
  let t := s.team
  let ch := t.pl.core
  match s.strat.current.find? fun x => x.1 == ch with
  | none => s
  | some (_, b) =>
    { s with
      ms := commitBelow s.ms b.buffer,
      team := { t with stage := .ended, wait := .ready },
      strat := { s.strat with
        current := s.strat.current.filter fun x => x.1 != ch,
        kept := (ch, (List.range 5).map fun k => t.rf.v.getD (11 + k) []) :: s.strat.kept.filter fun x => x.1 != ch } }

/-- RET (R125); on a wavefront it ends the block run (R321). -/
def execRet (s : State) : Host.Outcome State Fault Refusal :=
  issue .ret s fun s =>
    let t := s.team
    if t.kind = .stratum then .next (endBlock s)
    else if (sget t 31).toNat % 4 = 0 then .next (retireTo s (codeAddr t (sget t 31)) none)
    else .trap (trap3 t 5 (sget t 31))

/-- JMP (R125, R130). -/
def execJmp (o : S1) (s : State) : Host.Outcome State Fault Refusal :=
  issue (.jmp o) s fun s =>
    let x := sget s.team o.a.toNat
    if x.toNat % 4 = 0 then branchTo s (codeAddr s.team x) else .trap (trap3 s.team 5 x)

/-- Remove lanes for good: from the mask and from every entry (R121). -/
def removeLanes (t : Team) (m : LaneSet) : Team :=
  { t with ctl := { t.ctl with mask := t.ctl.mask &&& ~~~m,
                               stack := t.ctl.stack.map fun e => { e with mask := e.mask &&& ~~~m } } }

/-- Whether no lane remains in the mask or in any entry (R126). -/
def noLane (t : Team) : Bool := t.ctl.mask == 0 && t.ctl.stack.all fun e => e.mask == 0

/-- EXIT in handler mode ends the team as a fatal trap of the delivered group (R391). -/
def exitHandler (s : State) (h : Handler) : State :=
  let t := s.team
  let others := (s.teams.filter fun u => u.kind == .core && u.pl.grid == t.pl.grid && u.uid != t.uid
    && u.stage != .ended).length
  killGrid (logEvent s 1 (3 * 2 ^ 24 + t.pl.core)
    (fatalPayload t h.resume h.group 0 t.sp.d0 t.sp.d1 t.sp.d2 others)) t.pl.grid

/-- EXIT (R126, R240, R321, R391). -/
def execExit (o : GOnly) (s : State) : Host.Outcome State Fault Refusal :=
  issue (.exit o) s fun s =>
    let t := s.team
    match t.handler with
    | some h => .next (exitHandler s h)
    | none =>
      let t1 := removeLanes t (active t o.g)
      if noLane t1 then
        if t.kind = .stratum then .next (endBlock s)
        else .next (s.withTeam { t1 with wait := .ending, ctl := { t1.ctl with pc := t.ctl.pc + 4, hints := none } })
      else fallThrough (s.withTeam t1)

/-- NOP (R126). -/
def execNop (s : State) : Host.Outcome State Fault Refusal := issue .nop s fun s => fallThrough s

/-! ### The IF group -/

/-- Mask stack entries a team has (R119, R86). -/
def stackMax (t : Team) : Nat := if t.kind = .stratum then 4 else 8

/-- Live loops a team has (R127, R86). -/
def loopMax (t : Team) : Nat := if t.kind = .stratum then 1 else 3

/-- IF (R122). -/
def execIfP (o : GOnly) (s : State) : Host.Outcome State Fault Refusal :=
  issue (.ifP o) s fun s =>
    let t := s.team
    if t.ctl.stack.length < stackMax t then
      fallThrough (s.withTeam { t with ctl := { t.ctl with
        stack := { mask := t.ctl.mask, kind := .ifK } :: t.ctl.stack, mask := t.ctl.mask &&& pset t o.g.toNat } })
    else .trap (trap3 t 1 0)

/-- ELSE (R122). -/
def execElseP (s : State) : Host.Outcome State Fault Refusal :=
  issue .elseP s fun s =>
    let t := s.team
    match t.ctl.stack with
    | [] => .trap (trap3 t 2 0)
    | e :: st =>
      if e.kind = .ifK then
        fallThrough (s.withTeam { t with ctl := { t.ctl with
          stack := { e with kind := .elseK } :: st, mask := e.mask &&& ~~~t.ctl.mask } })
      else .trap (trap3 t 2 0)

/-- ENDIF (R122). -/
def execEndif (s : State) : Host.Outcome State Fault Refusal :=
  issue .endif s fun s =>
    let t := s.team
    match t.ctl.stack with
    | [] => .trap (trap3 t 2 0)
    | e :: st =>
      if e.kind = .loopK then .trap (trap3 t 2 0)
      else fallThrough (s.withTeam { t with ctl := { t.ctl with stack := st, mask := e.mask } })

/-! ### Loops -/

/-- Entries above the innermost LOOP entry, and the rest from it on. -/
def aboveLoop (st : List MaskEntry) : List MaskEntry × List MaskEntry :=
  (st.takeWhile fun e => e.kind != .loopK, st.dropWhile fun e => e.kind != .loopK)

/-- BRK (R129). -/
def execBrk (o : GOnly) (s : State) : Host.Outcome State Fault Refusal :=
  issue (.brk o) s fun s =>
    let t := s.team
    let m := active t o.g
    match aboveLoop t.ctl.stack with
    | (_, []) => .trap (trap3 t 6 0)
    | (up, e :: st) =>
      let mask := t.ctl.mask &&& ~~~m
      let up1 := up.map fun x => { x with mask := x.mask &&& ~~~m }
      let level : LaneSet := match up1.reverse with
        | x :: _ => x.mask
        | [] => mask
      if level = 0 then
        let k := t.ctl.loops.length - 1
        let pc := match t.ctl.loops[k]? with
          | some f => f.start + BitVec.ofNat 64 (4 * f.len)
          | none => t.ctl.pc + 4
        .next (retireTo (s.withTeam (popLoop t k e st)) pc none)
      else fallThrough (s.withTeam { t with ctl := { t.ctl with mask := mask, stack := up1 ++ e :: st } })

/-- Whether a word may not end a loop body: a hint word or a word of majors 0x34 to 0x39 (R127). DESIGN CHOICE (log 99): every word of major
0x7F counts as a hint word, one with a reserved kind too. -/
def badLast (w : Word) : Bool :=
  let m := (fMaj w).toNat
  m == 0x7F || decide (0x34 ≤ m ∧ m ≤ 0x39)

/-- LOOP with a count and a body length (R127). -/
def loopStart (s : State) (count : Word) (len : Nat) : Result :=
  let t := s.team
  let pc := t.ctl.pc
  let last := pc + BitVec.ofNat 64 (4 * len)
  if loopMax t ≤ t.ctl.loops.length then .trap (trap3 t 3 0)
  else if t.ctl.loops.any fun f => inBody f pc && !inBody f last then .trap (trap3 t 4 0)
  else match fetch s last with
    | .error e => accessFault s none .fetch last e
    | .ok (w, s1) =>
      if badLast w then .trap (trap3 t 4 0)
      else if count = 0 then .next (retireTo s1 (last + 4) none)
      else if stackMax t ≤ t.ctl.stack.length then .trap (trap3 t 1 0)
      else
        let t1 := s1.team
        .next (retireTo (s1.withTeam { t1 with
          rf := { t1.rf with lc := t1.rf.lc.set t1.ctl.loops.length count },
          ctl := { t1.ctl with loops := t1.ctl.loops ++ [{ start := pc + 4, len := len }],
                               stack := { mask := t1.ctl.mask, kind := .loopK } :: t1.ctl.stack } }) (pc + 4) none)

/-- LOOP (R127). -/
def execLoop (o : LoopOp) (s : State) : Host.Outcome State Fault Refusal :=
  issue (.loop o) s fun s => loopStart s (sget s.team o.a.toNat) o.len.toNat

/-- The stratum LOOP, whose count is lane 0 of a vector register (R321). -/
def execStratumLoop (o : StrLoop) (s : State) : Host.Outcome State Fault Refusal :=
  issue (.stratumLoop o) s fun s => loopStart s (vget s.team o.a.toNat 0) o.len.toNat

end Sys2Proof.Machine
end

