-- ==== Sys2Proof/Machine/Flags.lean ====
section
/-! DEFINITION. Conditions (R75) and integer lane arithmetic (R105 to R111): the machine keeps no flags, and a compare
writes a predicate. -/

namespace Sys2Proof.Machine

/-- A condition code on "less" and "equal" (R75); 6 and 7 are reserved and never reach here. -/
def condHolds (c : BitVec 3) (lt eq : Bool) : Bool :=
  if c = 0 then eq else if c = 1 then !eq else if c = 2 then lt else if c = 3 then lt || eq
  else if c = 4 then !(lt || eq) else !lt

/-- Signed compare (R112). -/
def condS (c : BitVec 3) (a b : Word) : Bool := condHolds c (a.slt b) (a == b)

/-- Unsigned compare (R112). -/
def condU (c : BitVec 3) (a b : Word) : Bool := condHolds c (a.ult b) (a == b)

/-- Signed saturation of an exact result (R107). -/
def satWord (x : Int) : Word :=
  if x > 2147483647 then 0x7FFFFFFF else if x < -2147483648 then 0x80000000 else BitVec.ofInt 32 x

/-- Addition, saturating under `.SAT` (R106, R107). -/
def addW (sat : Bool) (a b : Word) : Word := if sat then satWord (a.toInt + b.toInt) else a + b

/-- Subtraction, saturating under `.SAT`. -/
def subW (sat : Bool) (a b : Word) : Word := if sat then satWord (a.toInt - b.toInt) else a - b

/-- Signed absolute value; the most negative number is its own (R106). -/
def absW (a : Word) : Word := if a.msb then -a else a

def minS (a b : Word) : Word := if a.slt b then a else b
def maxS (a b : Word) : Word := if a.slt b then b else a
def minU (a b : Word) : Word := if a.ult b then a else b
def maxU (a b : Word) : Word := if a.ult b then b else a

/-- Bits [63:32] of the signed product. -/
def mulHiS (a b : Word) : Word := hiHalf (BitVec.ofInt 64 (a.toInt * b.toInt))

/-- Bits [63:32] of the unsigned product. -/
def mulHiU (a b : Word) : Word := hiHalf (BitVec.ofNat 64 (a.toNat * b.toNat))

/-- The shift amount in bits [7:0] (R109). -/
def shAmt (b : Word) : Nat := b.toNat % 256

/-- Shifts by `k`, any amount (R109). -/
def shlW (a : Word) (k : Nat) : Word := if k < 32 then a <<< k else 0
def shrW (a : Word) (k : Nat) : Word := if k < 32 then a >>> k else 0
def sarW (a : Word) (k : Nat) : Word := a.sshiftRight (min k 31)
def rotW (a : Word) (k : Nat) : Word := a.rotateLeft (k % 32)

/-- The number of 1 bits (R110). -/
def popcW (a : Word) : Word := BitVec.ofNat 32 ((List.range 32).filter fun i => a.getLsbD i).length

/-- The number of leading zero bits (R110). -/
def clzW (a : Word) : Word := BitVec.ofNat 32 ((List.range 32).takeWhile fun i => !a.getLsbD (31 - i)).length

/-- Bit i moves to bit 31 - i (R110). -/
def brevW (a : Word) : Word := BitVec.ofNat 32 (packLanes 32 fun i => a.getLsbD (31 - i))

/-- Position and usable length of a bit field (R111). -/
def fieldPos (b : Word) : Nat := b.toNat % 32
def fieldLen (b : Word) : Nat := min (min (bitsOf b.toNat 8 6) 32) (32 - fieldPos b)

/-- The field mask m. -/
def fieldMask (e : Nat) : Word := BitVec.ofNat 32 (2 ^ e - 1)

def bfxU (a b : Word) : Word := (a >>> fieldPos b) &&& fieldMask (fieldLen b)
def bfxS (a b : Word) : Word := BitVec.ofInt 32 (if fieldLen b = 0 then 0 else signedOf (fieldLen b) (bfxU a b).toNat)
def bfi (d a b : Word) : Word :=
  let m := fieldMask (fieldLen b)
  (d &&& ~~~(m <<< fieldPos b)) ||| ((a &&& m) <<< fieldPos b)

end Sys2Proof.Machine
end

