-- ==== Sys2Proof/Machine/Float.lean ====
section
/-! DEFINITION. Number formats, rounding and the arithmetic on them (R139 to R171): every operation forms an exact value
and rounds once. -/

namespace Sys2Proof.Machine

/-- The rounding modes of R151, in the order of the codes of `%rmode` (R99). -/
inductive RMode where
  | rne
  | rtz
  | rup
  | rdn
  | sr
  deriving DecidableEq, Repr

/-- The mode with a code. -/
def rmodeOf (n : Nat) : RMode :=
  if n = 0 then .rne else if n = 1 then .rtz else if n = 2 then .rup else if n = 3 then .rdn else .sr

/-- A rounding: the mode, the rotated generator state of R155, and the most bits the draw covers. -/
structure Rnd where
  mode : RMode
  draw : Nat
  kmax : Nat
  deriving DecidableEq, Repr

/-- Round to nearest, ties to even. -/
def Rnd.rne : Rnd := ⟨.rne, 0, 32⟩

/-- A float format: exponent and mantissa widths, bias, special rule (R141) and whether subnormals flush (R154). -/
structure Fmt where
  e : Nat
  m : Nat
  bias : Int
  rule : Nat
  flush : Bool
  deriving DecidableEq, Repr

/-- Element width. -/
def Fmt.width (f : Fmt) : Nat := 1 + f.e + f.m

/-- The fixed families by code (R139). -/
def famFmt (c : Nat) : Fmt :=
  match c with
  | 0 => ⟨8, 23, 127, 1, false⟩
  | 1 => ⟨8, 7, 127, 1, false⟩
  | 2 => ⟨5, 10, 15, 1, false⟩
  | 3 => ⟨4, 3, 7, 2, false⟩
  | 4 => ⟨5, 2, 15, 1, false⟩
  | 5 => ⟨3, 2, 3, 0, false⟩
  | 6 => ⟨2, 3, 1, 0, false⟩
  | _ => ⟨2, 1, 1, 0, false⟩

/-- FP32. -/
abbrev fp32 : Fmt := famFmt 0

/-- The format with subnormals flushed as `%ftz` asks, on the FP32, BF16 and FP16 sides only (R154). -/
def Fmt.ftz (f : Fmt) (z : Bool) : Fmt := { f with flush := z }

/-- The format of a number-format register, none where it is ill-formed (R149, R150). -/
def frFmt (w : Word) : Option Fmt :=
  let x := w.toNat
  let e := bitsOf x 0 4
  let m := bitsOf x 4 5
  let rule := bitsOf x 18 2
  let wc := bitsOf x 20 2
  let flush := w.getLsbD 22
  if bitsOf x 23 9 ≠ 0 ∨ rule = 3 ∨ wc = 3 ∨ 8 < e ∨ 1 + e + m ≠ 4 + 2 * wc ∨ (rule = 1 ∧ e < 2) ∨ (e = 0 ∧ flush) then none
  else some ⟨e, m, signedOf 9 (bitsOf x 9 9), rule, flush⟩

/-- A decoded or exact value. `fin neg n q x` is (-1)^neg × n / q × 2^x with q > 0; its last place is 2^x. -/
inductive FVal where
  | nan
  | inf (neg : Bool)
  | fin (neg : Bool) (n q : Nat) (x : Int)
  deriving DecidableEq, Repr

/-- The all-ones magnitude. -/
def Fmt.ones (f : Fmt) : Nat := 2 ^ (f.e + f.m) - 1

/-- The code of the greatest finite magnitude (R139, R141). -/
def Fmt.maxCode (f : Fmt) : Nat :=
  if f.rule = 1 then (2 ^ f.e - 1) * 2 ^ f.m - 1 else if f.rule = 2 then f.ones - 1 else f.ones

/-- The canonical NaN, +0 in a format without one (R141, R153). -/
def Fmt.nanCode (f : Fmt) : Nat :=
  if f.rule = 1 then (if f.m = 0 then 0 else (2 ^ f.e - 1) * 2 ^ f.m + 2 ^ (f.m - 1)) else if f.rule = 2 then f.ones else 0

/-- A magnitude code with a sign. -/
def Fmt.signed (f : Fmt) (neg : Bool) (mag : Nat) : Nat := (if neg then 2 ^ (f.e + f.m) else 0) + mag

/-- Decode an element (R140, R141); a subnormal reads as zero of its sign where the format flushes (R154). -/
def Fmt.decode (f : Fmt) (code : Nat) : FVal :=
  let neg := code.testBit (f.e + f.m)
  let mag := code % 2 ^ (f.e + f.m)
  let e := mag >>> f.m
  let m := mag % 2 ^ f.m
  if f.rule = 1 ∧ e = 2 ^ f.e - 1 then (if m = 0 then .inf neg else .nan)
  else if f.rule = 2 ∧ mag = f.ones then .nan
  else if e = 0 then
    .fin neg (if f.flush then 0 else m) 1 (1 - f.bias - f.m)
  else .fin neg (2 ^ f.m + m) 1 (e - f.bias - f.m)

/-- Round the magnitude n / q × 2^x to a multiple of 2^u (R151, R155): the multiple, and whether it was rounded up. -/
def roundGrid (r : Rnd) (neg : Bool) (n q : Nat) (x u : Int) : Nat × Bool :=
  let sh := u - x
  let num := n <<< (-sh).toNat
  let den := q <<< sh.toNat
  let i := num / den
  let rest := num % den
  if rest = 0 then (i, false)
  else
    let up := match r.mode with
      | .rne => decide (den < 2 * rest) || (2 * rest == den && i % 2 == 1)
      | .rtz => false
      | .rup => !neg
      | .rdn => neg
      | .sr =>
        let k := if n % q = 0 then min r.kmax sh.toNat else r.kmax
        decide (2 ^ k ≤ (rest <<< k) / den + r.draw % 2 ^ k)
    (if up then i + 1 else i, up)

/-- The exponent of the leading bit of n / q × 2^x, for n > 0. -/
def topBit (n q : Nat) (x : Int) : Int :=
  let d : Int := n.log2 - q.log2
  if q <<< d.toNat ≤ n <<< (-d).toNat then d + x else d - 1 + x

/-- Whether a × 2^x < b × 2^y. -/
def magLt (a : Nat) (x : Int) (b : Nat) (y : Int) : Bool :=
  decide (a <<< (x - y).toNat < b <<< (y - x).toNat)

/-- What an overflow writes (R152): `up` says that the stochastic draw rounded up. -/
def Fmt.overflow (f : Fmt) (r : Rnd) (sat neg up : Bool) : Nat :=
  let big := f.signed neg f.maxCode
  if sat || f.rule == 0 then big
  else if f.rule = 2 then f.nanCode
  else
    let inf := match r.mode with
      | .rne => true
      | .rtz => false
      | .rup => !neg
      | .rdn => neg
      | .sr => up
    if inf then f.signed neg ((2 ^ f.e - 1) * 2 ^ f.m) else big

/-- Round a value to a format, once (R151 to R155), and give its code. -/
def Fmt.encode (f : Fmt) (r : Rnd) (sat : Bool) : FVal → Nat
  | .nan => f.nanCode
  | .inf neg =>
    if sat || f.rule == 0 then f.signed neg f.maxCode
    else if f.rule = 2 then f.nanCode
    else f.signed neg ((2 ^ f.e - 1) * 2 ^ f.m)
  | .fin neg n q x =>
    if n = 0 then f.signed neg 0
    else
      let low : Int := 1 - f.bias - f.m
      let top := topBit n q x
      if f.flush && decide (top < 1 - f.bias) then f.signed neg 0
      else
        let u := if f.e = 0 then low else max (top - f.m) low
        let g := roundGrid r neg n q x u
        match f.decode f.maxCode with
        | .fin _ mn _ mx =>
          if magLt mn mx g.1 u then f.overflow r sat neg g.2
          else if g.1 < 2 ^ f.m ∨ f.e = 0 then f.signed neg g.1
          else f.signed neg ((u + f.m + f.bias).toNat * 2 ^ f.m + (g.1 - 2 ^ f.m))
        | _ => f.signed neg 0

/-- Round a value to an integer (R153, R167). -/
def roundInt (r : Rnd) (neg : Bool) (n q : Nat) (x : Int) : Int :=
  let i : Int := (roundGrid r neg n q x 0).1
  if neg then -i else i

/-! ### Exact operations -/

/-- The sign of a value; of a NaN none. -/
def FVal.isNeg : FVal → Bool
  | .nan => false
  | .inf s => s
  | .fin s _ _ _ => s

/-- Exact product; 0 × ∞ gives NaN (R159). -/
def FVal.mul : FVal → FVal → FVal
  | .nan, _ => .nan
  | _, .nan => .nan
  | .inf s, .inf t => .inf (s ^^ t)
  | .inf s, .fin t n _ _ => if n = 0 then .nan else .inf (s ^^ t)
  | .fin s n _ _, .inf t => if n = 0 then .nan else .inf (s ^^ t)
  | .fin s n q x, .fin t m p y => .fin (s ^^ t) (n * m) (q * p) (x + y)

/-- The signed integer of a finite value (q = 1) at the last place `u`, `u` at most its own. -/
def scaled (neg : Bool) (n : Nat) (x u : Int) : Int :=
  let k : Int := (n <<< (x - u).toNat : Nat)
  if neg then -k else k

/-- Exact sum of two values with q = 1; an exact zero sum is +0, or -0 when both addends are -0 or under RDN (R159). -/
def FVal.add (r : Rnd) : FVal → FVal → FVal
  | .nan, _ => .nan
  | _, .nan => .nan
  | .inf s, .inf t => if s = t then .inf s else .nan
  | .inf s, .fin _ _ _ _ => .inf s
  | .fin _ _ _ _, .inf t => .inf t
  | .fin s n _ x, .fin t m _ y =>
    let u := min x y
    let k := scaled s n x u + scaled t m y u
    if k = 0 then .fin ((s && t && n == 0 && m == 0) || r.mode == .rdn) 0 1 u
    else .fin (decide (k < 0)) k.natAbs 1 u

/-- The value negated; a NaN stays. -/
def FVal.neg : FVal → FVal
  | .nan => .nan
  | .inf s => .inf (!s)
  | .fin s n q x => .fin (!s) n q x

/-- Exact quotient of two values with q = 1, IEEE 754's on zeros and infinities; powers of two go to the exponent. -/
def FVal.div : FVal → FVal → FVal
  | .nan, _ => .nan
  | _, .nan => .nan
  | .inf _, .inf _ => .nan
  | .inf s, .fin t _ _ _ => .inf (s ^^ t)
  | .fin s _ _ x, .inf t => .fin (s ^^ t) 0 1 x
  | .fin s n _ x, .fin t m _ y =>
    if m = 0 then (if n = 0 then .nan else .inf (s ^^ t))
    else
      let z := ((List.range 64).takeWhile fun i => !m.testBit i).length
      .fin (s ^^ t) n (m >>> z) (x - y - z)

/-- Whether a < b, NaN apart; -0 equals +0. -/
def FVal.lt : FVal → FVal → Bool
  | .nan, _ => false
  | _, .nan => false
  | .inf s, .inf t => s && !t
  | .inf s, .fin _ _ _ _ => s
  | .fin _ _ _ _, .inf t => !t
  | .fin s n _ x, .fin t m _ y => decide (scaled s n x (min x y) < scaled t m y (min x y))

/-- Whether a value is NaN. -/
def FVal.isNan : FVal → Bool
  | .nan => true
  | _ => false

/-- The lesser of two values, -0 below +0, a lone NaN passed over (R160). -/
def FVal.min (a b : FVal) : FVal :=
  if a.isNan then b else if b.isNan then a else if a.lt b then a else if b.lt a then b else if a.isNeg then a else b

/-- The greater of two values. -/
def FVal.max (a b : FVal) : FVal :=
  if a.isNan then b else if b.isNan then a else if a.lt b then b else if b.lt a then a else if a.isNeg then b else a

/-- FADD, HADD, NADD on codes of a format. -/
def fAdd (f : Fmt) (r : Rnd) (a b : Nat) : Nat := f.encode r false (FVal.add r (f.decode a) (f.decode b))
/-- Subtraction on codes. -/
def fSub (f : Fmt) (r : Rnd) (a b : Nat) : Nat := f.encode r false (FVal.add r (f.decode a) (f.decode b).neg)
/-- Multiplication on codes. -/
def fMul (f : Fmt) (r : Rnd) (a b : Nat) : Nat := f.encode r false ((f.decode a).mul (f.decode b))
/-- a × b + d with one rounding. -/
def fFma (f : Fmt) (r : Rnd) (a b d : Nat) : Nat :=
  f.encode r false (FVal.add r ((f.decode a).mul (f.decode b)) (f.decode d))
/-- Minimum on codes. -/
def fMin (f : Fmt) (a b : Nat) : Nat := f.encode .rne false ((f.decode a).min (f.decode b))
/-- Maximum on codes. -/
def fMax (f : Fmt) (a b : Nat) : Nat := f.encode .rne false ((f.decode a).max (f.decode b))
/-- Quotient on codes (R369). -/
def fDiv (f : Fmt) (r : Rnd) (a b : Nat) : Nat := f.encode r false ((f.decode a).div (f.decode b))

/-- The class bit of an FP32 word (R160). -/
def fClass (w : Word) : Nat :=
  let neg := w.getLsbD 31
  let e := bitsOf w.toNat 23 8
  let m := bitsOf w.toNat 0 23
  if e = 255 then (if m = 0 then (if neg then 0 else 7) else if w.getLsbD 22 then 9 else 8)
  else if e = 0 then (if m = 0 then (if neg then 3 else 4) else if neg then 2 else 5)
  else if neg then 1 else 6

/-- An integer as an exact value. -/
def FVal.ofInt (i : Int) : FVal := .fin (decide (i < 0)) i.natAbs 1 0

/-- Float to integer, rounded and then saturated to `lo .. hi` (R167). -/
def f2i (r : Rnd) (lo hi : Int) : FVal → Int
  | .nan => 0
  | .inf s => if s then lo else hi
  | .fin s n q x => max lo (min hi (roundInt r s n q x))

/-! ### Special functions (R165, R166) -/

/-- Integer square root by bits from `k` down. -/
def isqrtGo (n : Nat) : Nat → Nat → Nat
  | 0, r => r
  | k + 1, r => if (r + 2 ^ k) * (r + 2 ^ k) ≤ n then isqrtGo n k (r + 2 ^ k) else isqrtGo n k r

/-- Integer square root. -/
def isqrt (n : Nat) : Nat := isqrtGo n (n.log2 / 2 + 1) 0

/-- 2^80, the unit of the fixed-point reference. -/
def one80 : Nat := 2 ^ 80
/-- ln 2 in that unit. -/
def ln2 : Nat := 837963523372001241319907
/-- π in that unit. -/
def pi80 : Nat := 3797952473636338580787993

/-- The exponential series from term `k` on. -/
def expSum (y : Nat) : Nat → Nat → Nat → Nat
  | 0, _, _ => 0
  | n + 1, k, t => t + expSum y n (k + 1) (t * y / (one80 * (k + 1)))

/-- 2^f for a fraction f, in the unit. -/
def exp2Fix (f : Nat) : Nat := expSum (f * ln2 / one80) 32 0 one80

/-- The series of artanh from its odd term `k` on. -/
def atanhSum (z2 : Nat) : Nat → Nat → Nat → Nat
  | 0, _, _ => 0
  | n + 1, k, p => p / (2 * k + 1) + atanhSum z2 n (k + 1) (p * z2 / one80)

/-- log2 of m in [1, 2), in the unit. -/
def log2Fix (m : Nat) : Nat :=
  let z := (m - one80) * one80 / (m + one80)
  2 * atanhSum (z * z / one80) 32 0 z * one80 / ln2

/-- The sine series from its term `k` on. -/
def sinSum (y2 : Nat) : Nat → Nat → Nat → Int
  | 0, _, _ => 0
  | n + 1, k, t => (t : Int) - sinSum y2 n (k + 1) (t * y2 / (one80 * ((2 * k + 2) * (2 * k + 3))))

/-- sin(π r) for r in [0, 1/2], in the unit. -/
def sinFix (r : Nat) : Int :=
  let y := r * pi80 / one80
  sinSum (y * y / one80) 20 0 y

/-- sin(π r) for r in [0, 2), in the unit. -/
def sinTurn (r : Nat) : Int :=
  let h := if one80 ≤ r then r - one80 else r
  let x := sinFix (if one80 < 2 * h then one80 - h else h)
  if one80 ≤ r then -x else x

/-- A magnitude n × 2^x in the unit, cut below it. -/
def toFix (n : Nat) (x : Int) : Nat :=
  let k := x + 80
  (n <<< k.toNat) >>> (-k).toNat

/-- The error bound a result keeps (R165): relative 2^-22, or absolute 2^b. -/
inductive Bound where
  | rel
  | abs (b : Int)
  deriving DecidableEq, Repr

/-- A signed dyadic number m × 2^x, kept to 32 significant bits: 8 below FP32 precision (R165). -/
def internal (m x : Int) : FVal :=
  let k := m.natAbs.log2 - 31
  .fin (decide (m < 0)) (m.natAbs >>> k) 1 (x + k)

/-- Whether an internal result, rounded to nearest, keeps the bound about the reference m × 2^x. DESIGN CHOICE (log 7): it stays away from the
bound itself by 2^-20 of it, since the reference is a truncated one. -/
def keeps (b : Bound) (m x : Int) (v : FVal) : Bool :=
  match fp32.decode (fp32.encode .rne false v) with
  | .fin s n _ y =>
    let u := min x y
    let d := (scaled s n y u - m * 2 ^ (x - u).toNat).natAbs
    match b with
    | .rel => !magLt (m.natAbs * (2 ^ 20 - 1)) (x - 42) d u
    | .abs e => !magLt (2 ^ 20 - 1) (e - 20) d u
  | _ => false

/-- The internal result of a special function about its reference m × 2^x (R165): a free value within twice the bound,
taken where its rounding keeps the bound, else the reference itself. -/
def nearRef (op : Nat) (w : Word) (b : Bound) (m x : Int) : FVal :=
  let k : Int := ((Config.specialOffset op w % (2 ^ 25 + 1) : Nat) : Int) - 2 ^ 24
  let c := match b with
    | .rel => internal (m * 2 ^ 45 + k * m.natAbs) (x - 45)
    | .abs e =>
      let u := min x (e - 23)
      internal (m * 2 ^ (x - u).toNat + k * 2 ^ (e - 23 - u).toNat) u
  if keeps b m x c then c else internal m x

/-- RCP (R166). -/
def rcpVal (w : Word) : FVal → FVal
  | .nan => .nan
  | .inf s => .fin s 0 1 0
  | .fin s n _ x =>
    let top := topBit n 1 x
    if n = 0 then .inf s
    else if n = 2 ^ n.log2 ∧ top ≤ -127 then (if top = -127 then .fin s 1 1 127 else .inf s)
    else
      let m : Int := ((2 ^ 120 / n : Nat) : Int)
      let b : Bound := if 126 < top ∨ (top = 126 ∧ n ≠ 2 ^ n.log2) then .abs (-149) else .rel
      if magLt 16777215 104 (2 ^ 120 / n) (-x - 120) then .inf s else nearRef 0 w b (if s then -m else m) (-x - 120)

/-- RSQ. -/
def rsqVal (w : Word) : FVal → FVal
  | .nan => .nan
  | .inf s => if s then .nan else .fin false 0 1 0
  | .fin s n _ x =>
    if n = 0 then .inf s
    else if s then .nan
    else
      let n2 := if x % 2 = 0 then n else 2 * n
      let x2 := if x % 2 = 0 then x else x - 1
      nearRef 1 w .rel ((isqrt (2 ^ 200 / n2) : Nat) : Int) (-(x2 / 2) - 100)

/-- SQRT, exact but for a sticky last place (R165: correctly rounded in every mode). -/
def sqrtVal : FVal → FVal
  | .nan => .nan
  | .inf s => if s then .nan else .inf false
  | .fin s n q x =>
    if n = 0 then .fin s 0 1 x
    else if s then .nan
    else
      let n2 := (if x % 2 = 0 then n else 2 * n) <<< 120
      let x2 := (if x % 2 = 0 then x else x - 1) - 120
      let r := isqrt n2
      .fin false (if r * r = n2 then 2 * r else 2 * r + 1) q (x2 / 2 - 1)

/-- A value's magnitude cut to at most 1. -/
def atMostOne : FVal → FVal
  | .fin s n q x => if magLt 1 0 n x then .fin s 1 1 0 else .fin s n q x
  | v => v

/-- TANH. -/
def tanhVal (w : Word) : FVal → FVal
  | .nan => .nan
  | .inf s => .fin s 1 1 0
  | .fin s n q x =>
    if n = 0 then .fin s n q x
    else
      let m : Nat := if 5 ≤ topBit n 1 x then one80 - 1
        else
          let y := 2 * toFix n x * one80 / ln2
          let t := exp2Fix (y % one80) <<< (y / one80)
          (t - one80) * one80 / (t + one80)
      atMostOne (nearRef 3 w (.abs (-21)) (if s then -(m : Int) else m) (-80))

/-- Whether n × 2^x is an integer. -/
def isIntegral (n : Nat) (x : Int) : Bool := decide (n % 2 ^ (-x).toNat = 0)

/-- EX2. -/
def ex2Val (w : Word) : FVal → FVal
  | .nan => .nan
  | .inf s => if s then .fin false 0 1 0 else .inf false
  | .fin s n _ x =>
    if !s && !magLt n x 128 0 then .inf false
    else if s && magLt 150 0 n x then .fin false 0 1 0
    else if isIntegral n x then
      let i : Int := ((n <<< x.toNat) >>> (-x).toNat : Nat)
      .fin false 1 1 (if s then -i else i)
    else
      let fx : Int := toFix n x
      let y : Int := if s then -fx else fx
      let whole := y / (one80 : Int)
      let m : Int := ((exp2Fix (y % (one80 : Int)).toNat : Nat) : Int)
      nearRef 4 w (if whole < -126 then .abs (-149) else .rel) m (whole - 80)

/-- LG2. -/
def lg2Val (w : Word) : FVal → FVal
  | .nan => .nan
  | .inf s => if s then .nan else .inf false
  | .fin s n _ x =>
    if n = 0 then .inf true
    else if s then .nan
    else
      let top := topBit n 1 x
      if n = 2 ^ n.log2 then FVal.ofInt top
      else
        let m : Int := top * one80 + ((log2Fix (toFix n (x - top)) : Nat) : Int)
        nearRef 5 w (if top = -1 ∨ top = 0 then .abs (-22) else .rel) m (-80)

/-- sin(πx), or cos(πx) for `c` true. -/
def trigVal (op : Nat) (c : Bool) (w : Word) : FVal → FVal
  | .nan => .nan
  | .inf _ => .nan
  | .fin s n q x =>
    if n = 0 then (if c then .fin false 1 1 0 else .fin s n q x)
    else if isIntegral n (x + 1) then
      let k := ((n <<< (x + 1).toNat) >>> (-(x + 1)).toNat + (if c then 1 else 0)) % 4
      if k % 2 = 0 then .fin false 0 1 0 else .fin ((k == 3) ^^ (s && !c)) 1 1 0
    else
      let r := (toFix n x + (if c then one80 / 2 else 0)) % (2 * one80)
      let m := sinTurn r
      nearRef op w (.abs (-21)) (if s && !c then -m else m) (-80)

/-- A special function with the operands at which its exact result is not zero and smaller than FP32's minimum normal: the
result's sign there (R154). -/
structure Special where
  val : Word → FVal → FVal
  tiny : FVal → Option Bool

/-- RCP: |x| > 2^126. -/
def rcpFn : Special :=
  ⟨rcpVal, fun v => match v with
    | .fin s n _ x => if magLt 1 126 n x then some s else none
    | _ => none⟩

/-- RSQ: nowhere. -/
def rsqFn : Special := ⟨rsqVal, fun _ => none⟩

/-- SQRT: nowhere among operands that do not themselves flush. -/
def sqrtFn : Special := ⟨fun _ => sqrtVal, fun _ => none⟩

/-- TANH: |x| at most 2^-126, since |tanh x| < |x|. -/
def tanhFn : Special :=
  ⟨tanhVal, fun v => match v with
    | .fin s n _ x => if n != 0 && !magLt 1 (-126) n x then some s else none
    | _ => none⟩

/-- EX2: x < -126. -/
def ex2Fn : Special :=
  ⟨ex2Val, fun v => match v with
    | .fin s n _ x => if s && magLt 126 0 n x then some false else none
    | _ => none⟩

/-- LG2: nowhere. -/
def lg2Fn : Special := ⟨lg2Val, fun _ => none⟩

/-- SINP: nowhere among operands that do not themselves flush. -/
def sinpFn : Special := ⟨trigVal 6 false, fun _ => none⟩

/-- COSP: nowhere. -/
def cospFn : Special := ⟨trigVal 7 true, fun _ => none⟩

/-- The same value with eight more bits below its last. -/
def FVal.finer : FVal → FVal
  | .fin s n q x => .fin s (n <<< 8) q (x - 8)
  | v => v

/-- A special function on an FP32 word, rounded with k = 8: its internal result has 8 bits below FP32 precision, whatever they are
(R155, R165). Under `%ftz` a subnormal operand reads as zero, and the
result is a zero where the exact result is smaller than the minimum normal, whatever the internal one is (R154). -/
def special (g : Special) (z : Bool) (r : Rnd) (w : Word) : Word :=
  let v := (fp32.ftz z).decode w.toNat
  BitVec.ofNat 32 (match if z then g.tiny v else none with
    | some neg => fp32.signed neg 0
    | none => fp32.encode { r with kmax := 8 } false (g.val w v).finer)

/-! ### Elements and format slots -/

/-- Element `i` of width `w` in a word (R142). -/
def elemOf (w : Nat) (x : Word) (i : Nat) : Nat := bitsOf x.toNat (w * i) w

/-- Elements in a word. -/
def perWord (w : Nat) : Nat := 32 / w

/-- Pack `n` elements of width `w`, pad bits zero (R142). -/
def packElems (w : Nat) (f : Nat → Nat) : Nat → Nat
  | 0 => 0
  | n + 1 => packElems w f n + (f n % 2 ^ w) * 2 ^ (w * n)

/-- A word whose every element is `f` of its number. -/
def mapElems (w : Nat) (f : Nat → Nat) : Word := BitVec.ofNat 32 (packElems w f (perWord w))

/-- A format slot, decoded (R147). -/
structure Slot where
  fam : Nat
  planes : Nat
  scale : Nat
  round : Nat
  sat : Bool
  tscale : Nat
  deriving DecidableEq, Repr

/-- The fields of a slot record. -/
def slotOf (r : DWord) : Slot :=
  let x := r.toNat
  { fam := bitsOf x 0 4, planes := bitsOf x 4 4, scale := bitsOf x 8 4, round := bitsOf x 12 2, sat := r.getLsbD 14,
    tscale := bitsOf x 32 32 }

/-- Whether a slot record is well formed (R148). -/
def slotOk (r : DWord) : Bool :=
  let p := slotOf r
  let norm := bitsOf p.tscale 23 8
  decide (bitsOf r.toNat 15 17 = 0) && decide (p.fam ≤ 8) && decide (p.scale ≤ 3) && decide (p.round ≤ 2)
    && (if p.fam = 8 then decide (2 ≤ p.planes ∧ p.planes ≤ 8) else decide (p.planes = 0))
    && (if p.scale = 2 then decide (3 ≤ p.fam ∧ p.fam ≤ 7) else if p.scale = 3 then decide (p.fam = 7) else true)
    && (if p.scale = 1 then decide (1 ≤ norm ∧ norm ≤ 254) else decide (p.tscale = 0))

/-- Element width of a slot; a bit-plane integer fills a lane's word (R168). -/
def Slot.width (p : Slot) : Nat := if p.fam = 8 then 32 else (famFmt p.fam).width

/-- The slot's float format under `%ftz` (R154). -/
def Slot.fmt (p : Slot) (z : Bool) : Fmt := (famFmt p.fam).ftz (z && decide (p.fam ≤ 2))

/-- The per-tensor scale (R168). -/
def Slot.ts (p : Slot) : FVal := if p.scale = 1 then fp32.decode p.tscale else .fin false 1 1 0

/-- Round to a bit-plane integer of P bits (R153), as a 32-bit word. -/
def planeInt (r : Rnd) (planes : Nat) (sat : Bool) (v : FVal) : Word :=
  let hi : Int := 2 ^ (planes - 1) - 1
  let lo : Int := -2 ^ (planes - 1)
  match v with
  | .nan => 0
  | .inf s => BitVec.ofInt 32 (if s then lo else hi)
  | .fin s n q x =>
    let i := roundInt r s n q x
    if sat then BitVec.ofInt 32 (max lo (min hi i)) else BitVec.ofInt 32 (signedOf planes (BitVec.ofInt 32 i).toNat)

/-- Decode element `e` of a lane's word in a slot, its scale included (R168). -/
def Slot.decode (p : Slot) (z : Bool) (w : Word) (e : Nat) : FVal :=
  let v := if p.fam = 8 then FVal.ofInt (signedOf p.planes w.toNat) else (p.fmt z).decode (elemOf p.width w e)
  v.mul p.ts

/-- CVT on a lane's word (R168). -/
def cvtWord (pin pout : Slot) (z : Bool) (r : Nat → Rnd) (w : Word) : Word :=
  let c := min (perWord pin.width) (perWord pout.width)
  mapElems pout.width fun e =>
    if e < c then
      let v := (pin.decode z w e).div pout.ts
      if pout.fam = 8 then (planeInt (r e) pout.planes pout.sat v).toNat
      else (pout.fmt z).encode (r e) pout.sat v
    else 0

/-! ### The stochastic generator (R155) -/

/-- One advance. -/
def advGen (s : DWord) : DWord :=
  let a := s ^^^ (s <<< 13)
  let b := a ^^^ (a >>> 7)
  b ^^^ (b <<< 17)

/-- The seed of global group `g`. -/
def seedGen (seed : DWord) (g : Nat) : DWord :=
  let x := seed ^^^ BitVec.ofNat 64 (g * 0x9E3779B97F4A7C15)
  if x = 0 then 1 else x

/-- The rotated state element `e` of lane `L` draws from. -/
def drawOf (s : DWord) (L e : Nat) : Nat := (s.rotateLeft ((2 * (L % 32) + 8 * e) % 64)).toNat

end Sys2Proof.Machine
end

