-- ==== Sys2Proof/Machine/Fp.lean ====
section
/-! DEFINITION. The float, conversion and bit-plane instructions, majors 0x20 to 0x2D (R158 to R171). -/

namespace Sys2Proof.Machine

/-- The mask words an instruction sweeps (R32). -/
def sweepWords (t : Team) : List Nat := (List.range 32).filter fun w => maskWord t.ctl.mask w != 0

/-- The global group index of a team (R155). -/
def groupOf (t : Team) : Nat := 4 * t.pl.core + t.pl.group

/-- The generator of a group; zero where unlisted. -/
def genOf (s : State) (g : Nat) : DWord := ((s.gens.find? fun x => x.1 == g).map fun x => x.2).getD 0

/-- Set the generator of a group. -/
def setGen (s : State) (g : Nat) (x : DWord) : State := { s with gens := (g, x) :: s.gens.filter fun y => y.1 != g }

/-- The generator's states of consecutive sweeps. -/
def genRun (x : DWord) : List Nat → List (Nat × DWord)
  | [] => []
  | w :: ws => (w, advGen x) :: genRun (advGen x) ws

/-- The sweeps of an instruction that rounds by `m` (R155): the state after, and the rounding of element `e` of lane
`L`. -/
def sweeps (s : State) (m : RMode) : State × (Nat → Nat → Rnd) :=
  if m = .sr then
    let run := genRun (genOf s (groupOf s.team)) (sweepWords s.team)
    let s1 := match run.getLast? with
      | some x => setGen s (groupOf s.team) x.2
      | none => s
    (s1, fun L e => ⟨m, drawOf (((run.find? fun x => x.1 == L / 32).map fun x => x.2).getD 0) L e, 32⟩)
  else (s, fun _ _ => ⟨m, 0, 32⟩)

/-- The mode of an instruction without one of its own (R151): HMOD RND, else `%rmode`. -/
def modeOf (t : Team) : RMode :=
  if (hmodOf t).rnd = 0 then rmodeOf t.sp.rmode.toNat else rmodeOf ((hmodOf t).rnd.toNat - 1)

/-- `%ftz`. -/
def ftzOf (t : Team) : Bool := t.sp.ftz.getLsbD 0

/-- A rounding vector instruction: `f` gives a lane's word from the team, the rounding of its elements and the lane. -/
def fpResult (m : RMode) (g : BitVec 3) (d : BitVec 6) (f : Team → (Nat → Rnd) → Nat → Word) (s : State) : Result :=
  let r := sweeps s m
  let t := s.team
  .next (retire (r.1.withTeam (setV t d.toNat (active t g) fun L => f t (r.2 L) L)))

/-- Issue a rounding vector instruction under R151's common mode. -/
def fpOp (i : Instr) (g : BitVec 3) (d : BitVec 6) (f : Team → (Nat → Rnd) → Nat → Word) (s : State) :
    Host.Outcome State Fault Refusal :=
  issue i s fun s => fpResult (modeOf s.team) g d f s

/-- An elementwise operation of three sources in a format under `%ftz` (R159, R162). -/
def fp3 (i : Instr) (o : V3) (c : Nat) (f : Fmt → Rnd → Nat → Nat → Nat → Nat) (s : State) :
    Host.Outcome State Fault Refusal :=
  fpOp i o.g o.d (fun t r L =>
    let k := (famFmt c).ftz (ftzOf t)
    mapElems k.width fun e => f k (r e) (elemOf k.width (vget t o.a.toNat L) e) (elemOf k.width (vget t o.b.toNat L) e)
      (elemOf k.width (vget t o.d.toNat L) e)) s

/-- An elementwise minimum or maximum: exact, so no rounding mode acts and no sweep draws (R158, R160). -/
def fpExact (i : Instr) (o : V3) (c : Nat) (f : Fmt → Nat → Nat → Nat) (s : State) : Host.Outcome State Fault Refusal :=
  issue i s fun s => fpResult .rne o.g o.d (fun t _ L =>
    let k := (famFmt c).ftz (ftzOf t)
    mapElems k.width fun e => f k (elemOf k.width (vget t o.a.toNat L) e) (elemOf k.width (vget t o.b.toNat L) e)) s

/-- An N instruction: an ill-formed number-format register traps (R164). -/
def nOp (i : Instr) (fr : BitVec 2) (f : Fmt → State → Result) (s : State) : Host.Outcome State Fault Refusal :=
  issue i s fun s =>
    match frFmt (frget s.team fr.toNat) with
    | none => .trap (trap4 s.team 1 fr.toNat 0)
    | some k => f k s

/-- A rounding or exact elementwise N instruction (R163). -/
def n3 (i : Instr) (o : VN) (rounds : Bool) (f : Fmt → Rnd → Nat → Nat → Nat → Nat) (s : State) :
    Host.Outcome State Fault Refusal :=
  nOp i o.fr (fun k s => fpResult (if rounds then modeOf s.team else .rne) o.g o.d (fun t r L =>
    mapElems k.width fun e => f k (r e) (elemOf k.width (vget t o.a.toNat L) e) (elemOf k.width (vget t o.b.toNat L) e)
      (elemOf k.width (vget t o.d.toNat L) e)) s) s

/-- A condition on two values (R161). -/
def fCond (c : BitVec 3) (nan : Bool) (a b : FVal) : Bool :=
  if a.isNan || b.isNan then nan else condHolds c (a.lt b) (!a.lt b && !b.lt a)

/-- An FP32 compare. -/
def fcmpOp (i : Instr) (o : VCmp) (nan : Bool) (s : State) : Host.Outcome State Fault Refusal :=
  issue i s fun s =>
    let t := s.team
    let k := fp32.ftz (ftzOf t)
    .next (retire (s.withTeam (setPLanes t o.p.toNat (active t o.g) fun L =>
      fCond o.c nan (k.decode (vget t o.a.toNat L).toNat) (k.decode (vget t o.b.toNat L).toNat))))

/-- A special function. -/
def spfn (i : Instr) (o : V2) (g : Special) (s : State) : Host.Outcome State Fault Refusal :=
  fpOp i o.g o.d (fun t r L => special g (ftzOf t) (r 0) (vget t o.a.toNat L)) s

/-- CVT with a rounding of its own, or the output slot's (R151, R168). -/
def cvtOp (i : Instr) (o : CvtOp) (m : Option RMode) (s : State) : Host.Outcome State Fault Refusal :=
  issue i s fun s =>
    let pin := slotOf (fsget s.team o.fin.toNat)
    let pout := slotOf (fsget s.team o.fout.toNat)
    let own : RMode := if pout.round = 0 then .rne else if pout.round = 1 then .rtz else .sr
    fpResult (m.getD own) o.g o.d (fun t r L => cvtWord pin pout (ftzOf t) r (vget t o.a.toNat L)) s

/-- CVTN (R169). Log entry 97: a decoded value that FP32 does not hold, as a BIAS of -256 to 255 allows, rounds, overflows and
flushes under R152 to R154 in the mode, and the sweeps under .SR advance the generator in both directions. -/
def cvtnOp (i : Instr) (o : CvtnOp) (m : Option RMode) (s : State) : Host.Outcome State Fault Refusal :=
  nOp i o.fr (fun k s => fpResult (m.getD (rmodeOf s.team.sp.rmode.toNat)) o.g o.d (fun t r L =>
    let x := (vget t o.a.toNat L).toNat
    let f := fp32.ftz (ftzOf t)
    if o.f32 then BitVec.ofNat 32 (f.encode (r 0) false (k.decode (bitsOf x 0 k.width)))
    else BitVec.ofNat 32 (k.encode (r 0) false (f.decode x))) s) s

/-- Integer to FP32 (R167). -/
def i2fOp (i : Instr) (o : V2) (signed : Bool) (s : State) : Host.Outcome State Fault Refusal :=
  fpOp i o.g o.d (fun t r L =>
    let x := vget t o.a.toNat L
    BitVec.ofNat 32 ((fp32.ftz (ftzOf t)).encode (r 0) false (.ofInt (if signed then x.toInt else x.toNat)))) s

/-- FP32 to integer (R167). -/
def f2iOp (i : Instr) (o : V2) (lo hi : Int) (s : State) : Host.Outcome State Fault Refusal :=
  fpOp i o.g o.d (fun t r L =>
    BitVec.ofInt 32 (f2i (r 0) lo hi ((fp32.ftz (ftzOf t)).decode (vget t o.a.toNat L).toNat))) s

/-- PLX in lane `L` (R170): sources of lanes past N read as zero. -/
def plxWord (src : Nat → Word) (ctl : Word) (L : Nat) : Word :=
  let j := bitsOf ctl.toNat 0 4
  let p := bitsOf ctl.toNat 4 4
  if p < 2 ∨ 8 < p ∨ p ≤ j then 0
  else BitVec.ofNat 32 (packLanes 32 fun i => (src (L / 32 * 32 + i)).getLsbD (p - 1 - j))

/-- PLD in lane `L` (R170). -/
def pldWord (src : Nat → Word) (ctl : Word) (L : Nat) : Word :=
  let p := bitsOf ctl.toNat 4 4
  if p < 2 ∨ 8 < p then 0
  else BitVec.ofInt 32 (signedOf p (packLanes p fun k => (src (L / 32 * 32 + (p - 1 - k))).getLsbD (L % 32)))

/-- FADD: a + b (R159). -/
def execFadd (o : V3) (s : State) : Host.Outcome State Fault Refusal :=
  fp3 (.fadd o) o 0 (fun k r a b _ => fAdd k r a b) s

/-- FSUB: a - b (R159). -/
def execFsub (o : V3) (s : State) : Host.Outcome State Fault Refusal :=
  fp3 (.fsub o) o 0 (fun k r a b _ => fSub k r a b) s

/-- FMUL: a × b (R159). -/
def execFmul (o : V3) (s : State) : Host.Outcome State Fault Refusal :=
  fp3 (.fmul o) o 0 (fun k r a b _ => fMul k r a b) s

/-- FFMA: a × b + d (R159). -/
def execFfma (o : V3) (s : State) : Host.Outcome State Fault Refusal :=
  fp3 (.ffma o) o 0 fFma s

/-- FMIN (R160). -/
def execFmin (o : V3) (s : State) : Host.Outcome State Fault Refusal :=
  fpExact (.fmin o) o 0 fMin s

/-- FMAX (R160). -/
def execFmax (o : V3) (s : State) : Host.Outcome State Fault Refusal :=
  fpExact (.fmax o) o 0 fMax s

/-- FCLASS: a one-hot class word; `%ftz` does not act (R154, R160). -/
def execFclass (o : V2) (s : State) : Host.Outcome State Fault Refusal :=
  issue (.fclass o) s fun s =>
    let t := s.team
    .next (retire (s.withTeam (setV t o.d.toNat (active t o.g) fun L =>
      BitVec.ofNat 32 (2 ^ fClass (vget t o.a.toNat L)))))

/-- FCMP: a NaN gives 0 (R161). -/
def execFcmp (o : VCmp) (s : State) : Host.Outcome State Fault Refusal :=
  fcmpOp (.fcmp o) o false s

/-- FCMP.UO: a NaN gives 1 (R161). -/
def execFcmpUo (o : VCmp) (s : State) : Host.Outcome State Fault Refusal :=
  fcmpOp (.fcmpUo o) o true s

/-- HADD (R162). -/
def execHaddBf (o : V3) (s : State) : Host.Outcome State Fault Refusal :=
  fp3 (.haddBf o) o 1 (fun k r a b _ => fAdd k r a b) s

/-- HMUL (R162). -/
def execHmulBf (o : V3) (s : State) : Host.Outcome State Fault Refusal :=
  fp3 (.hmulBf o) o 1 (fun k r a b _ => fMul k r a b) s

/-- HFMA (R162). -/
def execHfmaBf (o : V3) (s : State) : Host.Outcome State Fault Refusal :=
  fp3 (.hfmaBf o) o 1 fFma s

/-- HMAX (R162). -/
def execHmaxBf (o : V3) (s : State) : Host.Outcome State Fault Refusal :=
  fpExact (.hmaxBf o) o 1 fMax s

/-- HADD (R162). -/
def execHaddF16 (o : V3) (s : State) : Host.Outcome State Fault Refusal :=
  fp3 (.haddF16 o) o 2 (fun k r a b _ => fAdd k r a b) s

/-- HMUL (R162). -/
def execHmulF16 (o : V3) (s : State) : Host.Outcome State Fault Refusal :=
  fp3 (.hmulF16 o) o 2 (fun k r a b _ => fMul k r a b) s

/-- HFMA (R162). -/
def execHfmaF16 (o : V3) (s : State) : Host.Outcome State Fault Refusal :=
  fp3 (.hfmaF16 o) o 2 fFma s

/-- HMAX (R162). -/
def execHmaxF16 (o : V3) (s : State) : Host.Outcome State Fault Refusal :=
  fpExact (.hmaxF16 o) o 2 fMax s

/-- NADD (R163). -/
def execNadd (o : VN) (s : State) : Host.Outcome State Fault Refusal :=
  n3 (.nadd o) o true (fun k r a b _ => fAdd k r a b) s

/-- NMUL (R163). -/
def execNmul (o : VN) (s : State) : Host.Outcome State Fault Refusal :=
  n3 (.nmul o) o true (fun k r a b _ => fMul k r a b) s

/-- NFMA (R163). -/
def execNfma (o : VN) (s : State) : Host.Outcome State Fault Refusal :=
  n3 (.nfma o) o true fFma s

/-- NMAX (R163). -/
def execNmax (o : VN) (s : State) : Host.Outcome State Fault Refusal :=
  n3 (.nmax o) o false (fun k _ a b _ => fMax k a b) s

/-- NMIN (R164). -/
def execNmin (o : VN) (s : State) : Host.Outcome State Fault Refusal :=
  n3 (.nmin o) o false (fun k _ a b _ => fMin k a b) s

/-- NCMP: element 0 of each source; a NaN gives 0 (R164). -/
def execNcmp (o : VNCmp) (s : State) : Host.Outcome State Fault Refusal :=
  nOp (.ncmp o) o.fr (fun k s =>
    let t := s.team
    .next (retire (s.withTeam (setPLanes t o.p.toNat (active t o.g) fun L =>
      fCond o.c false (k.decode (elemOf k.width (vget t o.a.toNat L) 0))
        (k.decode (elemOf k.width (vget t o.b.toNat L) 0)))))) s

/-- RCP (R166). -/
def execRcp (o : V2) (s : State) : Host.Outcome State Fault Refusal :=
  spfn (.rcp o) o rcpFn s

/-- RSQ (R165). -/
def execRsq (o : V2) (s : State) : Host.Outcome State Fault Refusal :=
  spfn (.rsq o) o rsqFn s

/-- SQRT (R165). -/
def execSqrt (o : V2) (s : State) : Host.Outcome State Fault Refusal :=
  spfn (.sqrt o) o sqrtFn s

/-- TANH (R165). -/
def execTanh (o : V2) (s : State) : Host.Outcome State Fault Refusal :=
  spfn (.tanh o) o tanhFn s

/-- EX2 (R165). -/
def execEx2 (o : V2) (s : State) : Host.Outcome State Fault Refusal :=
  spfn (.ex2 o) o ex2Fn s

/-- LG2 (R165). -/
def execLg2 (o : V2) (s : State) : Host.Outcome State Fault Refusal :=
  spfn (.lg2 o) o lg2Fn s

/-- SINP (R165). -/
def execSinp (o : V2) (s : State) : Host.Outcome State Fault Refusal :=
  spfn (.sinp o) o sinpFn s

/-- COSP (R165). -/
def execCosp (o : V2) (s : State) : Host.Outcome State Fault Refusal :=
  spfn (.cosp o) o cospFn s

/-- CVT with its own rounding (R151, R168). -/
def execCvtRne (o : CvtOp) (s : State) : Host.Outcome State Fault Refusal :=
  cvtOp (.cvtRne o) o (some .rne) s

/-- CVT with its own rounding (R151, R168). -/
def execCvtRtz (o : CvtOp) (s : State) : Host.Outcome State Fault Refusal :=
  cvtOp (.cvtRtz o) o (some .rtz) s

/-- CVT with its own rounding (R151, R168). -/
def execCvtSr (o : CvtOp) (s : State) : Host.Outcome State Fault Refusal :=
  cvtOp (.cvtSr o) o (some .sr) s

/-- CVT with the common rounding (R151, R168). -/
def execCvt (o : CvtOp) (s : State) : Host.Outcome State Fault Refusal :=
  cvtOp (.cvt o) o none s

/-- CVTN with its own rounding (R151, R169). -/
def execCvtnRne (o : CvtnOp) (s : State) : Host.Outcome State Fault Refusal :=
  cvtnOp (.cvtnRne o) o (some .rne) s

/-- CVTN with its own rounding (R151, R169). -/
def execCvtnRtz (o : CvtnOp) (s : State) : Host.Outcome State Fault Refusal :=
  cvtnOp (.cvtnRtz o) o (some .rtz) s

/-- CVTN with its own rounding (R151, R169). -/
def execCvtnSr (o : CvtnOp) (s : State) : Host.Outcome State Fault Refusal :=
  cvtnOp (.cvtnSr o) o (some .sr) s

/-- CVTN with the common rounding (R151, R169). -/
def execCvtn (o : CvtnOp) (s : State) : Host.Outcome State Fault Refusal :=
  cvtnOp (.cvtn o) o none s

/-- I2F.S (R167). -/
def execI2fS (o : V2) (s : State) : Host.Outcome State Fault Refusal :=
  i2fOp (.i2fS o) o true s

/-- I2F.U (R167). -/
def execI2fU (o : V2) (s : State) : Host.Outcome State Fault Refusal :=
  i2fOp (.i2fU o) o false s

/-- F2I.S (R167). -/
def execF2iS (o : V2) (s : State) : Host.Outcome State Fault Refusal :=
  f2iOp (.f2iS o) o (-2147483648) 2147483647 s

/-- F2I.U (R167). -/
def execF2iU (o : V2) (s : State) : Host.Outcome State Fault Refusal :=
  f2iOp (.f2iU o) o 0 4294967295 s

/-- PLX (R170): every lane of the block supplies its source. -/
def execPlx (o : V3) (s : State) : Host.Outcome State Fault Refusal :=
  issue (.plx o) s fun s =>
    let t := s.team
    .next (retire (s.withTeam (setV t o.d.toNat (active t o.g) fun L =>
      plxWord (fun i => vget t o.a.toNat i) (vget t o.b.toNat L) L)))

/-- PLD (R170): every lane of the block supplies its source. -/
def execPld (o : V3) (s : State) : Host.Outcome State Fault Refusal :=
  issue (.pld o) s fun s =>
    let t := s.team
    .next (retire (s.withTeam (setV t o.d.toNat (active t o.g) fun L =>
      pldWord (fun i => vget t o.a.toNat i) (vget t o.b.toNat L) L)))

/-- FRW: no check of the value (R171). -/
def execFrw (o : FrwOp) (s : State) : Host.Outcome State Fault Refusal :=
  issue (.frw o) s fun s =>
    let t := s.team
    .next (retire (s.withTeam { t with rf := { t.rf with fr := t.rf.fr.set o.fr.toNat (sget t o.a.toNat) } }))

end Sys2Proof.Machine
end

