-- ==== Sys2Proof/Machine/L1.lean ====
section
/-! DEFINITION. A core's SRAM: blocks that are L1 or scratchpad (R173, R174), and the sectors that stand in L1 (R178 to R180, R189). -/

namespace Sys2Proof.Machine

/-! ### Blocks (R173, R174) -/

/-- Granules of 1 KiB in a block. -/
def blockGranules : Nat := 64

/-- The granules of a core's block that gangs hold (R173, R175). -/
def blockUsed (s : State) (core block : Nat) : Nat :=
  s.gangs.foldl (fun n g => g.carve.foldl (fun n x => if x.core = core ∧ x.block = block then n + x.granules else n) n) 0

/-- The blocks of a core that are L1: block 0, and each that holds no granule, however the others' granules lie (R173, R174). -/
def l1Blocks (s : State) (core : Nat) : List Nat := 0 :: ((List.range 7).map (· + 1)).filter fun b => blockUsed s core b == 0

/-! ### Sets and ways (R178) -/

/-- The ways of a set. -/
def l1Ways : Nat := 8

/-- The block and the set in it where a line may stand. Each block has 64 sets of 8 lines of 128 bytes. The spec gives no index, so a line's is a
constant of the part; a line whose block is scratchpad takes the same set of block 0 (DESIGN CHOICE, log 93). -/
def l1Place (blocks : List Nat) (line : Nat) : Nat × Nat :=
  let i := Config.l1Index line % 512
  (if blocks.contains (i / 64) then i / 64 else 0, i % 64)

/-- Whether a line's frame is a team's on a core. -/
def L1Line.isFor (f : L1Line) (core uid line : Nat) : Bool := f.core == core && f.uid == uid && f.line == line

/-- Make room for a new line on a core: the least recently used line of a full set leaves, whose sectors are named with their team. -/
def l1Room (blocks : List Nat) (core line : Nat) (l1 : List L1Line) : List L1Line × List (Nat × Nat) :=
  if (l1.filter fun f => f.core == core).length < l1Ways then (l1, [])
  else
    let here := l1.filter fun f => f.core == core && l1Place blocks f.line == l1Place blocks line
    if here.length < l1Ways then (l1, [])
    else match here.getLast? with
      | some v => (l1.filter fun f => f != v, v.sectors.map fun n => (v.uid, n))
      | none => (l1, [])

/-- A team's sector enters L1, or stays, most recently used or where it is and, if new, least recently used (R179, R180); `clean` is the stamp of
a copy that PREF brings. The sectors that it forces out are named with their teams. -/
def l1Insert (blocks : List Nat) (core uid n : Nat) (mru : Bool) (clean : Option Nat) (l1 : List L1Line) : List L1Line × List (Nat × Nat) :=
  let marks := fun (xs : List (Nat × Nat)) => (match clean with | some st => [(n, st)] | none => []) ++ xs.filter fun c => c.1 != n
  match l1.find? fun f => f.isFor core uid (n / 2) with
  | some f =>
    let f1 := { f with sectors := if f.sectors.contains n then f.sectors else n :: f.sectors, clean := marks f.clean }
    if mru then (f1 :: l1.filter fun x => !x.isFor core uid (n / 2), [])
    else (l1.map fun x => if x.isFor core uid (n / 2) then f1 else x, [])
  | none =>
    let r := l1Room blocks core (n / 2) l1
    let f : L1Line := { core := core, uid := uid, line := n / 2, sectors := [n], clean := marks [] }
    (if mru then f :: r.1 else r.1 ++ [f], r.2)

/-- Several sectors enter in order. -/
def l1Inserts (blocks : List Nat) (core uid : Nat) (mru : Bool) (clean : Option Nat) :
    List Nat → List L1Line → List L1Line × List (Nat × Nat)
  | [], l1 => (l1, [])
  | n :: ns, l1 =>
    let a := l1Insert blocks core uid n mru clean l1
    let b := l1Inserts blocks core uid mru clean ns a.1
    (b.1, a.2 ++ b.2)

/-! ### Leaving L1 (R178) -/

/-- Whether a sector is write-side: it holds bytes the team has stored in its open phase. -/
def writeSide (v : Version) (n : Nat) : Bool := v.wside.any fun c => c.1 / 64 == n

/-- A sector leaves L1: a write-side one spills as an uncommitted entry, a held one is kept at its home slice, a clean one is dropped. -/
def leaveSector (v : Version) (n : Nat) : Version :=
  { v with spilled := if writeSide v n && !v.spilled.contains n then n :: v.spilled else v.spilled,
           homed := if v.held.contains n && !v.homed.contains n then n :: v.homed else v.homed }

/-- Sectors of teams leave L1, beyond the quota too (R216). -/
def forceOut (s : State) (outs : List (Nat × Nat)) : State :=
  match outs with
  | [] => s
  | _ => s.mapTeams fun t => { t with ver := (outs.filter fun x => x.1 == t.uid).foldl (fun v x => leaveSector v x.2) t.ver }

/-- Every sector of a version leaves L1. DESIGN CHOICE (log 93): so it is when its team leaves the core. -/
def leaveCore (v : Version) : Version := ((v.wside.map fun (c : Host.Cell) => c.1 / 64) ++ v.held).eraseDups.foldl leaveSector v

/-- What a line's frame still holds: write-side sectors that have not spilled, held ones that are not at home, clean ones; none on a core that its
team has left. -/
def l1Left (s : State) (f : L1Line) : Option L1Line :=
  match s.find f.uid with
  | none => none
  | some t =>
    let inside := fun (n : Nat) => (writeSide t.ver n && !t.ver.spilled.contains n) || (t.ver.held.contains n && !t.ver.homed.contains n)
    let clean := f.clean.filter fun c => !inside c.1
    let ns := f.sectors.filter fun n => inside n || clean.any fun c => c.1 == n
    if t.stage = .resident ∧ t.pl.core = f.core ∧ ns ≠ [] then some { f with sectors := ns, clean := clean } else none

/-- L1 without what has left it. -/
def tidyL1 (s : State) : State := { s with l1 := s.l1.filterMap (l1Left s) }

/-- Blocks become scratchpad, `old` being the state before: what stood in them leaves L1 (R174). -/
def convertL1 (old s : State) : State :=
  let goes := fun (f : L1Line) => !(l1Blocks s f.core).contains (l1Place (l1Blocks old f.core) f.line).1
  forceOut { s with l1 := s.l1.filter fun f => !goes f } ((s.l1.filter goes).flatMap fun f => f.sectors.map fun n => (f.uid, n))

/-- Clean sectors in some physical ranges are dropped (R228, R339). -/
def dropClean (rs : List (Nat × Nat)) (s : State) : State :=
  let hit := fun (n : Nat) => rs.any fun r => decide (r.1 ≤ 64 * n ∧ 64 * n < r.1 + r.2)
  { s with l1 := s.l1.map fun f => { f with
      sectors := f.sectors.filter (fun n => !(hit n && f.clean.any fun c => c.1 == n)), clean := f.clean.filter fun c => !hit c.1 } }

/-! ### Reads (R179, R189) -/

/-- Whether a team's clean sector is as new as its snapshot requires (R189). -/
def cleanServes (s : State) (t : Team) (n : Nat) : Bool :=
  s.l1.any fun f => f.isFor t.pl.core t.uid (n / 2)
    && f.clean.any fun c => c.1 == n && decide (lastWrite s.ms n ≤ min c.2 (cutOf s.ms t.ver n))

/-- The team in focus puts sectors into the L1 of its core. -/
def enterL1 (s : State) (mru : Bool) (clean : Option Nat) (ns : List Nat) : State :=
  let r := l1Inserts (l1Blocks s s.team.pl.core) s.team.pl.core s.team.uid mru clean ns s.l1
  forceOut { s with l1 := r.1 } r.2

end Sys2Proof.Machine
end

