-- ==== Sys2Proof/Machine/Access.lean ====
section
/-! DEFINITION. The accesses of one instruction's lanes: addresses, the checks of R183, what each byte reads as and where a
stored byte goes (R176, R181 to R185, R215, R216, R253), and scratchpad (R175, R176, R186). -/

namespace Sys2Proof.Machine

/-- How an access goes: under the phase rules, straight to committed state (R181, R223), or to the cell of the wave's
open batch (R253, R263). -/
inductive Via where
  | phase
  | direct
  | cell
  deriving DecidableEq, Repr

/-- One lane's checked access. -/
structure LaneAcc where
  lane : Nat
  va : DWord
  pa : Nat
  via : Via
  key : Nat
  leaf : Option Leaf
  deriving DecidableEq, Repr

/-- The 64-bit address of lane `L` (R182). -/
def memAddr (t : Team) (s : BitVec 4) (a : BitVec 6) (L : Nat) : DWord :=
  spair t (2 * s.toNat) + (vget t a.toNat L).signExtend 64

/-- The active lanes with an address each, ascending. -/
def laneAddrs (t : Team) (g : BitVec 3) (f : Nat → DWord) : List (Nat × DWord) :=
  (lanesOf t.rf.n (active t g)).map fun L => (L, f L)

/-- The open batch of the vertex wave in focus (R263). -/
def openBatch (s : State) : Option VBatch :=
  if s.team.kind = .wave then (s.vx.homes.getD (clusterOf s.team.pl.core) Home.empty).batch else none

/-- Whether an address lies in a batch's cell (R254). -/
def inCell (b : VBatch) (va : DWord) : Bool :=
  decide (b.va.toNat ≤ va.toNat ∧ va.toNat < b.va.toNat + 64 * 2 ^ b.size)

/-- The cell's physical address, for an address in the cell of the open batch. -/
def cellPa (s : State) (va : DWord) : Option Nat :=
  match openBatch s with
  | some b => if inCell b va then some (b.pa + (va.toNat - b.va.toNat)) else none
  | none => none

/-- The lane that the link reports for an access it would have to carry and cannot (R414): of the team in focus to host memory, but
for a store under the phase rules, which a publication carries, and a read of a sector that the team holds. -/
def lostFor (s : State) (acc : Access) (via : Via) (pa : Nat) : Option Nat :=
  if isHost pa && (via == .direct || (acc != .write && !s.team.ver.held.contains (pa / 64))) then lostLink s else none

/-- Translation and protection of one lane (R183 step 3, R253). `cell` says that the access may reach the cell of the open
batch: loads and ST may, other writes may not. -/
def transLane (s : State) (acc : Access) (cell : Bool) (x : Nat × DWord) : Except XErr LaneAcc :=
  match if cell then cellPa s x.2 else none with
  | some pa => .ok { lane := x.1, va := x.2, pa := pa, via := .cell, key := ((openBatch s).map fun b => b.key).getD 0, leaf := none }
  | none =>
    match xlateT s s.team acc x.2 with
    | .error e => .error e
    | .ok (pa, l) =>
      let via : Via := if l.imm || isRaw pa then .direct else .phase
      if acc = .write ∧ inRegion s x.2 then .error (.g5 7)
      else match lostFor s acc via pa with
        | some k => .error (.link k pa)
        | none => .ok { lane := x.1, va := x.2, pa := pa, via := via, key := l.key, leaf := some l }

/-- Translation and protection of every lane in order; the first that fails. -/
def transLanes (s : State) (acc : Access) (cell : Bool) :
    List (Nat × DWord) → Except (Nat × DWord × XErr) (List LaneAcc)
  | [] => .ok []
  | x :: xs =>
    match transLane s acc cell x with
    | .error e => .error (x.1, x.2, e)
    | .ok y => match transLanes s acc cell xs with
      | .error e => .error e
      | .ok ys => .ok (y :: ys)

/-- The first two checks of R183 over every lane: alignment, then canonical form. -/
def formOk (align : Nat) (as : List (Nat × DWord)) : Option (Nat × DWord × XErr) :=
  match as.find? fun x => x.2.toNat % align != 0 with
  | some x => some (x.1, x.2, .g5 1)
  | none => match as.find? fun x => !canonical x.2 with
    | some x => some (x.1, x.2, .g5 2)
    | none => none

/-- The checks of R183 over every active lane, each over all lanes before the next. -/
def checkLanes (s : State) (acc : Access) (cell : Bool) (align : Nat) (as : List (Nat × DWord)) :
    Except (Nat × DWord × XErr) (List LaneAcc) :=
  match formOk align as with
  | some e => .error e
  | none => transLanes s acc cell as

/-- The sectors of an access of `n` bytes. -/
def sectorAccs (x : LaneAcc) (n : Nat) : List LaneAcc :=
  (List.range ((n + 63) / 64)).map fun k => { x with va := x.va + BitVec.ofNat 64 (64 * k), pa := x.pa + 64 * k }

/-- The core caches the translations that some lanes used (R405). -/
def cacheLeaves (t : Team) (ms : MemSide) (xs : List LaneAcc) : MemSide :=
  xs.foldl (fun ms x => match x.leaf with
    | some l => fillTlb t.pl.core t.pl.asid ms l
    | none => ms) ms

/-- Whether a scatter of the team to a sector is not yet acknowledged (R316). -/
def scattering (t : Team) (n : Nat) : Bool :=
  t.ver.sx.any fun x => x.2.1 / 64 == n && (t.eng.ops ++ match t.handler with | some h => h.saved.ops | none => []).any fun o =>
    o.tag == x.1 && !o.done

/-- Go on with the checked lanes, their translations cached; a failure traps or parks the team (R183, R406), and an access to a
sector with an outstanding scatter of the team waits (R316). -/
def withAcc (s : State) (acc : Access) (cell : Bool) (align : Nat) (as : List (Nat × DWord))
    (k : List LaneAcc → State → Result) : Result :=
  match checkLanes s acc cell align as with
  | .error (L, va, e) => accessFault s (some L) acc va e
  | .ok xs =>
    if xs.any fun x => scattering s.team (x.pa / 64) then .wait .wait
    else k xs { s with ms := cacheLeaves s.team s.ms xs }

/-- One byte as the access sees it (R181, R184, R211, R263). -/
def seeByte (s : State) (via : Via) (k pa : Nat) : Byte :=
  match via with
  | .phase => readByte s.ms s.team.ver k pa
  | .direct => commByteK s.ms k pa
  | .cell => match openBatch s with
    | some b => (cellGet b.buffer pa).getD (commByteK s.ms k pa)
    | none => commByteK s.ms k pa

/-- The bytes of one access. -/
def seeBytes (s : State) (x : LaneAcc) (n : Nat) : List Byte := (List.range n).map fun k => seeByte s x.via x.key (x.pa + k)

/-- How one lane's access enters the L2, by its sector (R179, R180, R336). -/
def laneIns (s : State) (cls : Nat) (na : Bool) (x : LaneAcc) : Nat × Ins :=
  (x.pa / 64, { rrpv := fillClass s s.team.pl.asid x.va cls, na := na, key := x.key })

/-- The granules that one lane's read takes from HBM: whole sectors, or for a gather of `n` bytes its own, unless its page is
encrypted (R313, R314). -/
def readGranules (ms : MemSide) (gather : Option Nat) (x : LaneAcc) : List Nat :=
  match gather with
  | some n => if x.key = 0 then granulesAt ms x.pa n else granulesAt ms (x.pa / 64 * 64) 64
  | none => granulesAt ms (x.pa / 64 * 64) 64

/-- The version after reads of sectors under the phase rules; `away` are those that are held at home and not copied into L1 (R179, R211,
R315). -/
def holdReads (ms : MemSide) (v : Version) (away sectors : List Nat) : Version :=
  if sectors.isEmpty then v else { fixRead ms v sectors with homed := away ++ v.homed }

/-- Whether a read of a sector is served without its committed line: the team holds it, or a clean sector serves a load (R178, R189, R211). -/
def atHand (s : State) (load : Bool) (n : Nat) : Bool := s.team.ver.held.contains n || (load && cleanServes s s.team n)

/-- Of several lanes' accesses, the first of each sector, which asks the sector's home for it. -/
def perSector (xs : List LaneAcc) : List LaneAcc :=
  xs.foldl (fun ys x => if ys.any fun y => y.via == x.via && y.pa / 64 == x.pa / 64 then ys else ys ++ [x]) []

/-- Whether an access of a class enters L1 most recently used (R179, R180). -/
def l1Near (s : State) (cls : Nat) : Bool := decide (cls < 2) && (hmodOf s.team).l1 != 2

/-- Reads fix the snapshot and hold their sectors, in L1 or at home (R179, R180, R211), and what is not at hand fills the L2 at the class's value
unless `.NA`. Soft errors are corrected; uncorrectable data is noted for the operation to come (R313). -/
def noteReads (s : State) (gather : Option Nat) (cls : Nat) (na : Bool) (xs : List LaneAcc) : State :=
  let v := s.team.ver
  let load := gather.isNone
  let near := l1Near s cls
  let sectors := ((xs.filter fun x => x.via == .phase).map fun x => x.pa / 64).eraseDups
  let here := sectors.filter (atHand s load)
  let home := !load || cls == 3 || (hmodOf s.team).l1 == 1
  let far := sectors.filter fun n => !here.contains n
  let ver := holdReads s.ms v (if home then far else []) sectors
  let inside := if load then (if home then here else sectors).filter fun n => !v.homed.contains n else []
  let asks := xs.filter fun x => !(x.via == .phase && here.contains (x.pa / 64))
  let bad := asks.filterMap fun x => badGranule s.ms (readGranules s.ms gather x)
  let s := asks.foldl (fun s x => correctGranules s (readGranules s.ms gather x)) s
  let l2 := l2View s
  let ms := if load then (perSector asks).foldl (fun ms x => if (badGranule ms (readGranules ms gather x)).isSome then ms
      else l2Touch l2 (laneIns s cls na x).2 ms (x.pa / 64)) s.ms
    else s.ms
  let s1 := { s with ms := ms, team := { s.team with ver := ver,
                                                     poison := s.team.poison ++ bad.map fun a => (s.team.nextTag, a) } }
  enterL1 s1 near none inside

/-- What an instruction without an in-flight operation does about uncorrectable data it has read. -/
def poisoned (s : State) : Option Trap := (s.team.poison.find? fun p => p.1 == s.team.nextTag).map fun p => trap17 s p.2

/-- Sectors of uncommitted entries a team may have in the L2 (R216). -/
def quota : Nat := 262144

/-- Write-side sectors that stand in L1 (R178). -/
def inL1 (v : Version) : List Nat := ((v.wside.map fun c => c.1 / 64).filter fun n => !v.spilled.contains n).eraseDups

/-- A store on its way through the lanes (R216): the L1, the team's entries, what has been forced out of L1, the sectors stored so far, and the
first lane whose write has gone beyond the quota. -/
structure StorePass where
  l1 : List L1Line
  entries : List Nat
  outs : List (Nat × Nat)
  stored : List Nat
  excess : Option LaneAcc

/-- One lane of a store (R179, R180, R216): its sector merges into the entry that the team has of it, becomes one under `.L1B`, or stands in L1,
whence it may force others; what it adds to the team's entries, directly or so, counts against the quota. -/
def storeLane (blocks : List Nat) (t : Team) (l1b mru : Bool) (p : StorePass) (x : LaneAcc) : StorePass :=
  let n := x.pa / 64
  if x.via != .phase || p.entries.contains n then p
  else
    let r := if l1b then (p.l1, []) else l1Insert blocks t.pl.core t.uid n mru none p.l1
    let mine := (r.2.filter fun o => o.1 == t.uid && (writeSide t.ver o.2 || p.stored.contains o.2)).map fun o => o.2
    let adds := (if l1b then [n] else mine).filter fun m => !p.entries.contains m
    { l1 := r.1, entries := adds ++ p.entries, outs := p.outs ++ r.2, stored := n :: p.stored,
      excess := if p.excess.isNone && !adds.isEmpty && decide (quota < p.entries.length + adds.length) then some x else p.excess }

/-- The store of the team in focus, lane by lane. -/
def storePass (s : State) (l1b mru : Bool) (xs : List LaneAcc) : StorePass :=
  xs.foldl (storeLane (l1Blocks s s.team.pl.core) s.team l1b mru)
    { l1 := s.l1, entries := s.team.ver.spilled, outs := [], stored := [], excess := none }

/-- The lane whose write adds the first entry beyond the quota, in lane order (R216). -/
def overQuota (s : State) (l1b mru : Bool) (xs : List LaneAcc) : Option LaneAcc := (storePass s l1b mru xs).excess

/-- The state with the L1 and the entries as a store leaves them. -/
def afterPass (s : State) (p : StorePass) : State :=
  let s1 := forceOut { s with l1 := p.l1 } p.outs
  s1.withTeam { s1.team with ver := { s1.team.ver with spilled := p.entries } }

/-- Put cells into the open batch's buffer (R263). -/
def bufferCells (s : State) (cs : List Host.Cell) : State :=
  modHome s (clusterOf s.team.pl.core) fun h =>
    { h with batch := h.batch.map fun b => { b with buffer := cellSets b.buffer cs } }

/-- Remember how sectors enter the L2 when they are published. -/
def noteIns (old : List (Nat × Ins)) (new : List (Nat × Ins)) : List (Nat × Ins) :=
  new.reverse ++ old.filter fun x => !new.any fun y => y.1 == x.1

/-- The team's version after stores of it through an immediate mapping have committed at a stamp: they are its own last writes
(R211). -/
def ownDirect (v : Version) (stamp : Nat) (cs : List Host.Cell) : Version :=
  let seen := cs.filter fun c => !isRaw c.1
  { v with ownPub := (seen.reverse.map fun c => (stamp, c.1, c.2)) ++ v.ownPub,
           hidden := ((seen.map fun c => c.1).filter fun a => (openByte v a).isSome) ++ v.hidden }

/-- The team's version after stores under the phase rules (R184, R208). -/
def ownStore (v : Version) (ins : List (Nat × Ins)) (cs : List Host.Cell) : Version :=
  let hit := fun (a : Nat) => cs.any fun c => c.1 == a
  { v with wside := cellSets v.wside cs, hidden := v.hidden.filter fun a => !hit a, sx := v.sx.filter fun x => !hit x.2.1,
           ins := noteIns v.ins ins }

/-- Stored bytes take effect, in the order given (R185): in the write side, at once, or in the cell buffer. `ins` says how their
sectors enter the L2. -/
def storeBytes (s : State) (ins : List (Nat × Ins)) (xs : List (Via × Nat × Byte)) : State :=
  let pick := fun (v : Via) => (xs.filter fun x => x.1 == v).map fun x => x.2
  let s1 := match pick .direct with
    | [] => s
    | cs => let s1 := immediateAs s (insIn ins) cs
            s1.withTeam { s1.team with ver := ownDirect s1.team.ver s1.ms.stamp cs }
  let s2 := match pick .cell with
    | [] => s1
    | cs => bufferCells s1 cs
  match pick .phase with
  | [] => s2
  | cs => s2.withTeam { s2.team with ver := ownStore s2.team.ver ins cs }

/-- Bits of a stored byte merge with what stands there (R197): address, mask, value. -/
def mergeByte (old : Byte) (mask val : Byte) : Byte := (old &&& ~~~mask) ||| (val &&& mask)

/-- Stored bits take effect in the order given. -/
def storeBits (s : State) (ins : List (Nat × Ins)) : List (Via × Nat × Byte × Byte) → State
  | [] => s
  | (via, pa, mask, val) :: xs =>
    storeBits (storeBytes s ins [(via, pa, mergeByte (seeByte s via (insIn ins (pa / 64)).key pa) mask val)]) ins xs

/-- A store of a class: its quota check, what it does in L1, and its effect. -/
def storeWith (s : State) (cls : Nat) (xs : List LaneAcc) (eff : State → State) : Result :=
  let p := storePass s ((hmodOf s.team).l1 == 1) (l1Near s cls) xs
  match p.excess with
  | some x => .trap (trap5 8 (some x.lane) x.va)
  | none => .next (retire (eff (afterPass s p)))

/-! ### Scratchpad -/

/-- The allotment of the team's gang (R175); none for a team without a gang. -/
def allotment (s : State) (t : Team) : Nat := match s.gangOf t with | some g => g.scratchLen | none => 0

/-- A byte of the gang's scratchpad; every byte reads zero at placement. -/
def scrByte (s : State) (t : Team) (off : Nat) : Byte :=
  match s.gangOf t with
  | some g => (cellGet g.scratch off).getD 0
  | none => 0

/-- Whether one of `n` bytes of the gang's scratchpad has an uncorrectable error. -/
def scrBad (s : State) (t : Team) (off n : Nat) : Bool :=
  s.upsets.any fun u => match u with
    | .scratch g i a _ => g == t.pl.grid && i == t.pl.gang && decide (off ≤ a ∧ a < off + n)
    | _ => false

/-- The team in focus reads scratchpad accesses of `n` bytes at some offsets: an uncorrectable error is counted and raises group 17
reason 2 (R394). -/
def readScr (s : State) (n : Nat) (offs : List Nat) (k : Result) : Result :=
  match offs.find? fun off => scrBad s s.team off n with
  | some off =>
    let src := 3 * 2 ^ 24 + s.team.pl.core
    .next (trapBefore (logEvent s 5 src (leBytes 8 off ++ leBytes 4 2)) ⟨17, det0 2 src, BitVec.ofNat 32 off, 0⟩)
  | none => k

/-- Write bytes of the gang's scratchpad at once (R186). DESIGN CHOICE (log 98): an unsynchronised read of another team's bytes gives the
new bytes from then on. -/
def scrSets (s : State) (t : Team) (cs : List Host.Cell) : State :=
  s.modGang t.pl.grid t.pl.gang fun g => { g with scratch := cellSets g.scratch cs }

/-- Stored bits of the gang's scratchpad, in order. -/
def scrBits (s : State) (t : Team) : List (Nat × Byte × Byte) → State
  | [] => s
  | (off, mask, val) :: xs => scrBits (scrSets s t [(off, mergeByte (scrByte s t off) mask val)]) t xs

/-- The checks of a scratchpad access (R176, R183): alignment, then the bound. -/
def scrCheck (s : State) (n : Nat) (xs : List (Nat × Nat)) : Option Trap :=
  match xs.find? fun x => x.2 % n != 0 with
  | some x => some (trap5 1 (some x.1) (BitVec.ofNat 64 x.2))
  | none => match xs.find? fun x => decide (allotment s s.team < x.2 + n) with
    | some x => some (trap5 3 (some x.1) (BitVec.ofNat 64 x.2))
    | none => none

/-- A scratchpad address of lane `L` (R182). -/
def scrAddr (t : Team) (s : BitVec 5) (a : BitVec 6) (L : Nat) : Nat := (sget t s.toNat + vget t a.toNat L).toNat

/-! ### Results by lane -/

/-- Register words of a result: `k` lists of lane words, zero in a lane that `vals` does not name. -/
def laneData (n k : Nat) (vals : List (Nat × List Word)) : List (List Word) :=
  (List.range k).map fun j => (List.range n).map fun L =>
    match vals.find? fun x => x.1 == L with
    | some x => x.2.getD j 0
    | none => 0

/-- Bytes of a width code (R76). -/
def widthBytes (w : BitVec 3) : Nat :=
  if w = 0 ∨ w = 1 then 1 else if w = 2 ∨ w = 3 then 2 else if w = 4 then 4 else if w = 5 then 8 else 16

/-- Words of little-endian bytes. -/
def wordsOf (k : Nat) (bs : List Byte) : List Word := (List.range k).map fun j => BitVec.ofNat 32 (ofLeBytes ((bs.drop (4 * j)).take 4))

/-- The register words a load of a width gives (R187). -/
def loadWords (w : BitVec 3) (bs : List Byte) : List Word :=
  let x := ofLeBytes bs
  if w = 1 then [BitVec.ofInt 32 (signedOf 8 x)] else if w = 3 then [BitVec.ofInt 32 (signedOf 16 x)]
  else wordsOf (widthRegs w) bs

/-- The bytes a store of a width takes from lane `L` of `d` on (R187). -/
def storeData (t : Team) (d : Nat) (w : BitVec 3) (L : Nat) : List Byte :=
  ((List.range (widthRegs w)).flatMap fun j => leBytes 4 (vget t (d + j) L).toNat).take (widthBytes w)

end Sys2Proof.Machine
end

