-- ==== Sys2Proof/Machine/Mem.lean ====
section
/-! DEFINITION. Loads, stores, prefetch and scratchpad accesses, majors 0x40 to 0x43 and 0x48 (R187 to R189), and the stratum
wavefront's LD and ST (R321). -/

namespace Sys2Proof.Machine

/-- Issue a producer on the LD path with its data (R93, R187). -/
def loadOp (s : State) (d : Nat) (m : LaneSet) (data : List (List Word)) : Result :=
  .next (retire (s.withTeam (addOp s.team 0 (.vec d m data) 0 true)))

/-- LD (R187). -/
def execLd (o : MemOp) (s : State) : Host.Outcome State Fault Refusal :=
  issue (.ld o) s fun s =>
    if !hasRoom s.team 0 then .wait .counter
    else
      let t := s.team
      withAcc s .read true (widthBytes o.w) (laneAddrs t o.g (memAddr t o.s o.a)) fun xs s =>
        let vals := xs.map fun x => (x.lane, loadWords o.w (seeBytes s x (widthBytes o.w)))
        loadOp (noteReads s none o.cls.toNat (hmodOf t).na xs) o.d.toNat (active t o.g) (laneData t.rf.n (widthRegs o.w) vals)

/-- ST (R187). -/
def execSt (o : MemOp) (s : State) : Host.Outcome State Fault Refusal :=
  issue (.st o) s fun s =>
    let t := s.team
    withAcc s .write true (widthBytes o.w) (laneAddrs t o.g (memAddr t o.s o.a)) fun xs s =>
      storeWith s o.cls.toNat xs fun s =>
        storeBytes s (xs.map (laneIns s o.cls.toNat (hmodOf t).na)) (xs.flatMap fun x => (cellsAt x.pa (storeData t o.d.toNat o.w x.lane)).map fun c => (x.via, c.1, c.2))

/-- The offsets of the active lanes of LDS and STS. -/
def scrLanes (t : Team) (o : SpOp) : List (Nat × Nat) :=
  (lanesOf t.rf.n (active t o.g)).map fun L => (L, scrAddr t o.s o.a L)

/-- LDS (R188). -/
def execLds (o : SpOp) (s : State) : Host.Outcome State Fault Refusal :=
  issue (.lds o) s fun s =>
    if !hasRoom s.team 0 then .wait .counter
    else
      let t := s.team
      let xs := scrLanes t o
      match scrCheck s (widthBytes o.w) xs with
      | some tr => .trap tr
      | none =>
        let vals := xs.map fun x =>
          (x.1, loadWords o.w ((List.range (widthBytes o.w)).map fun k => scrByte s t (x.2 + k)))
        readScr s (widthBytes o.w) (xs.map fun x => x.2) <| loadOp s o.d.toNat (active t o.g) (laneData t.rf.n (widthRegs o.w) vals)

/-- STS (R188). -/
def execSts (o : SpOp) (s : State) : Host.Outcome State Fault Refusal :=
  issue (.sts o) s fun s =>
    let t := s.team
    let xs := scrLanes t o
    match scrCheck s (widthBytes o.w) xs with
    | some tr => .trap tr
    | none => .next (retire (scrSets s t (xs.flatMap fun x => cellsAt x.2 (storeData t o.d.toNat o.w x.1))))

/-- One lane of PREF (R189), unless its address fails a check: its sector is filled into L2 at the class's value and, unless `.L1B` is given, into
L1 as a clean sector; one that the team has there already stays as it is. Sectors beyond the links and those of immediate pages stand in no
L1 as clean (R181, R417), and one with an uncorrectable granule is not filled (R313). -/
def prefLane (o : PrefOp) (s : State) (x : Nat × DWord) : State :=
  let t := s.team
  match if canonical x.2 then xlateT s t .read x.2 else .error (.g5 2) with
  | .error _ => s
  | .ok (pa, l) =>
    let n := pa / 64
    let ms := fillTlb t.pl.core t.pl.asid s.ms l
    if atHand s true n then { s with ms := ms }
    else
      let bad := (eccBad ms n).isSome
      let s1 := if bad then { s with ms := ms } else
        { s with ms := l2Touch (l2View s) { rrpv := fillClass s t.pl.asid x.2 o.cls.toNat, na := (hmodOf t).na, key := l.key } ms n }
      if bad || l.imm || !isCached pa || (hmodOf t).l1 == 1 || (inL1 t.ver).contains n then s1
      else enterL1 s1 (l1Near s o.cls.toNat) (some s1.ms.stamp) [n]

/-- PREF (R189): lanes whose address fails a check are dropped. -/
def execPref (o : PrefOp) (s : State) : Host.Outcome State Fault Refusal :=
  issue (.pref o) s fun s => .next (retire ((laneAddrs s.team o.g (memAddr s.team o.s o.a)).foldl (prefLane o) s))

/-- The block run of the wavefront in focus (R320). -/
def blockOf (s : State) : Option BlockRun := (s.strat.current.find? fun x => x.1 == s.team.pl.core).map fun x => x.2

/-- The stratum checks of a bank-local access (R321, R323): below 4,096 and aligned, in every active lane. -/
def bankCheck (t : Team) (o : StrMem) : Option Trap :=
  ((lanesOf t.rf.n (active t o.g)).find? fun L =>
    let a := (vget t o.a.toNat L).toNat
    decide (4096 ≤ a) || a % widthBytes o.w != 0).map fun L => trap5 1 (some L) ((vget t o.a.toNat L).setWidth 64)

/-- A granule as a wavefront's LD reads it: HBM's, or, where a write-back has changed it since the wavefront's last instruction, the
bytes on either side of the write-back (R330), as a free value chooses. -/
def bankGranule (s : State) (g : Nat) : List Byte :=
  match s.ms.backs.zipIdx.find? fun x => x.1.1 == g with
  | some ((_, old), k) => if Config.freeChoice (s.free + k) % 2 = 0 then old else (List.range 16).map fun i => memGet s.ms.mem (16 * g + i)
  | none => (List.range 16).map fun i => memGet s.ms.mem (16 * g + i)

/-- A byte of the block as the wavefront reads it: the run's own store, else HBM's (R320, R321). -/
def bankByte (s : State) (b : BlockRun) (a : Nat) : Byte := (cellGet b.buffer a).getD ((bankGranule s (a / 16)).getD (a % 16) 0)

/-- The write-backs under a block have been seen by its wavefront's latest instruction. -/
def forgetBacks (s : State) : State :=
  match blockOf s with
  | some b => { s with ms := { s.ms with backs := s.ms.backs.filter fun x => x.1 / 256 != b.pa / 4096 } }
  | none => s

/-- The stratum LD (R321): the wavefront waits for its data, so the registers are written at once. -/
def execStratumLd (o : StrMem) (s : State) : Host.Outcome State Fault Refusal :=
  issue (.stratumLd o) s fun s =>
    let t := s.team
    match bankCheck t o, blockOf s with
    | some tr, _ => .trap tr
    | none, none => .next (retire s)
    | none, some b =>
      let addr := fun (L : Nat) => b.pa + (vget t o.a.toNat L).toNat
      let gs := (lanesOf t.rf.n (active t o.g)).map fun L => addr L / 16
      let s := correctGranules s gs
      match badGranule s.ms gs with
      | some pa => .next (stratumFault (eccReport s pa) 9)
      | none =>
        let vals := (lanesOf t.rf.n (active t o.g)).map fun L =>
          (L, loadWords o.w ((List.range (widthBytes o.w)).map fun k => bankByte s b (addr L + k)))
        let s1 := forgetBacks { s with free := s.free + s.ms.backs.length }
        .next (retire (s1.withTeam (setVs t o.d.toNat (active t o.g) (laneData t.rf.n (widthRegs o.w) vals))))

/-- The stratum ST (R321): into the block run's granule buffer. -/
def execStratumSt (o : StrMem) (s : State) : Host.Outcome State Fault Refusal :=
  issue (.stratumSt o) s fun s =>
    let t := s.team
    match bankCheck t o, blockOf s with
    | some tr, _ => .trap tr
    | none, none => .next (retire s)
    | none, some b =>
      let cs := (lanesOf t.rf.n (active t o.g)).flatMap fun L =>
        cellsAt (b.pa + (vget t o.a.toNat L).toNat) (storeData t o.d.toNat o.w L)
      let b1 := { b with buffer := cellSets b.buffer cs }
      .next (retire { s with strat := { s.strat with
        current := s.strat.current.map fun x => if x.1 == t.pl.core then (x.1, b1) else x } })

end Sys2Proof.Machine
end

