-- ==== Sys2Proof/Machine/Tensor.lean ====
section
/-! DEFINITION. Tensor shape records and the tensor accesses SHSET, LDT and STT (R191 to R198). -/

namespace Sys2Proof.Machine

/-- Fields of a shape record (R191). -/
def shField (r : BitVec 256) (lo n : Nat) : Nat := bitsOf r.toNat lo n
/-- SLOT. -/
def shSlot (r : BitVec 256) : Nat := shField r 3 3
/-- CLIP: skip instead of zero fill. -/
def shSkip (r : BitVec 256) : Bool := shField r 6 1 == 1
/-- PERM. -/
def shPerm (r : BitVec 256) : Nat := shField r 7 3
/-- BOX0 and BOX1, the counts they name. -/
def shBox0 (r : BitVec 256) : Nat := shField r 14 8 + 1
def shBox1 (r : BitVec 256) : Nat := shField r 22 8 + 1
/-- EXTk: the greatest coordinate of dimension k. -/
def shExt (r : BitVec 256) (k : Nat) : Nat := shField r (32 + 16 * k) 16
/-- STRIDEk as coded, for k from 1 to 6. -/
def shStrideCode (r : BitVec 256) (k : Nat) : Nat := shField r (148 + 18 * (k - 1)) 18
/-- The stride of dimension k in bytes (R192). -/
def shStride (r : BitVec 256) (k : Nat) : Nat :=
  if k = 0 then 0 else (shStrideCode r k % 2 ^ 13) * 2 ^ (shStrideCode r k / 2 ^ 13) * 16

/-- The lowest failing bit of an ill-formed shape record (R195, R439), by the slots `fs` of the team. -/
def shapeBad (r : BitVec 256) (fs : Nat → DWord) : Option Nat :=
  let sl := slotOf (fs (shSlot r))
  let rank := shRank r
  let c := fun (p : Bool) (b : Nat) => if p then [b] else []
  let bad := c (shField r 30 2 != 0) 30 ++ c (shField r 144 4 != 0) 144 ++ c (decide (3 < shPerm r)) 7 ++ c (rank == 0) 0
    ++ c ((List.range 7).any fun k => decide (rank ≤ k) && (shExt r k != 0 || (k != 0 && shStrideCode r k != 0))) 0
    ++ c (sl.fam == 8) 3
    ++ c ((sl.scale == 2 && (shExt r 0 + 1) % 32 != 0) || (sl.scale == 3 && (shExt r 0 + 1) % 16 != 0)) 3
    ++ c (shPerm r != 0 && rank == 1) 0 ++ c (shPerm r != 0 && rank != 1 && shStride r 1 % 128 != 0) 7
  match bad with
  | [] => none
  | b :: bs => some (bs.foldl min b)

/-- Where an element of width `w` at index `j` of a packed row lies (R142, R193): byte offset of its unit, bytes of the
unit, bit position in it. -/
def innerLoc (w j : Nat) : Nat × Nat × Nat :=
  if w = 6 then (4 * (j / 5), 4, 6 * (j % 5)) else if w = 4 then (j / 2, 1, 4 * (j % 2)) else (j * (w / 8), w / 8, 0)

/-- Row bytes of `n` packed elements (R142). -/
def rowBytes (w n : Nat) : Nat := if w = 6 then 4 * ((n + 4) / 5) else if w = 4 then (n + 1) / 2 else n * (w / 8)

/-- Whether a coordinate list is in bounds (R194). -/
def inBounds (r : BitVec 256) (i : List Int) : Bool :=
  (List.range (shRank r)).all fun k => decide (0 ≤ i.getD k 0 ∧ i.getD k 0 ≤ (shExt r k : Int))

/-- The outer part of an element's offset (R193). -/
def outerOff (r : BitVec 256) (i : List Int) : Nat :=
  (List.range (shRank r)).foldl (fun x k => x + (i.getD k 0).toNat * shStride r k) 0

/-- The permuted scratchpad offset (R193, R201): bits [6:4] xor `row` mod 2^p. -/
def permuted (r : BitVec 256) (row o : Nat) : Nat := o ^^^ (16 * (row % 2 ^ shPerm r))

/-- The bits of each byte of a unit that a code of width `w` at bit `sh` fills: offset, mask, value. The pad of a 6-bit
word goes with its last element (R142). -/
def fieldBytes (w n sh code : Nat) : List (Nat × Byte × Byte) :=
  let mask := (2 ^ w - 1) * 2 ^ sh + (if w = 6 ∧ sh = 24 then 3 * 2 ^ 30 else 0)
  ((List.range n).map fun k =>
    (k, (BitVec.ofNat 8 (mask / 256 ^ k) : Byte), (BitVec.ofNat 8 (code % 2 ^ w * 2 ^ sh / 256 ^ k) : Byte))).filter
      fun x => x.2.1 != 0

/-- One element of a tensor access: lane, field of the lane's word, and its coordinates' place, none out of bounds. -/
structure Elem where
  lane : Nat
  field : Nat
  inb : Bool
  /-- Memory address, or scratchpad offset, of the unit. -/
  va : DWord
  unit : Nat
  shift : Nat
  deriving DecidableEq, Repr

/-- The shape register of a tensor instruction, or its trap (R196, R197). -/
def boundShape (t : Team) (sh n : BitVec 3) : Except Trap (BitVec 256) :=
  let r := shget t sh.toNat
  if shRank r = 0 then .error (trap4 t 3 sh.toNat 0)
  else if shRank r < n.toNat + 1 then .error (trap4 t 4 sh.toNat 0)
  else .ok r

/-- The coordinates S[c] to S[c+n], signed. -/
def coordsOf (t : Team) (c : BitVec 5) (n : BitVec 3) : List Int :=
  (List.range (n.toNat + 1)).map fun j => (sget t (c.toNat + j)).toInt

/-- Element width of a record's slot (R142). -/
def shWidth (t : Team) (r : BitVec 256) : Nat := (slotOf (fsget t (shSlot r))).width

/-- Elements a lane's word carries: k with `.PK`, one with `.EL` (R197). -/
def packCount (t : Team) (r : BitVec 256) (pk : Bool) : Nat := if pk then perWord (shWidth t r) else 1

/-- The elements of one lane (R197). -/
def laneElems (t : Team) (r : BitVec 256) (o : TensorOp) (L : Nat) : List Elem :=
  let w := shWidth t r
  let k := packCount t r o.pk
  let i := coordsOf t o.c o.n
  let base := spair t (shBase r)
  (List.range k).map fun e =>
    let i' := i.set 0 (i.getD 0 0 + (k * L + e : Nat))
    let loc := innerLoc w (i'.getD 0 0).toNat
    let off := outerOff r i' + loc.1
    let va : DWord := if o.sp then BitVec.ofNat 64 ((base.toNat % 2 ^ 32 + permuted r (i'.getD 1 0).toNat off) % 2 ^ 32)
      else base + BitVec.ofNat 64 off
    { lane := L, field := e, inb := inBounds r i', va := va, unit := loc.2.1, shift := loc.2.2 }

/-- Every element of the active lanes, by lane. -/
def tensorElems (t : Team) (r : BitVec 256) (o : TensorOp) : List Elem :=
  (lanesOf t.rf.n (active t o.g)).flatMap (laneElems t r o)

/-- A lane's word from its field codes: a clipped field is zero or, under skip, keeps its old bits; `.EL` leaves zero in
the other fields (R194, R197). -/
def gatherWord (w k : Nat) (skip : Bool) (old : Word) (code : Nat → Option Nat) : Word :=
  BitVec.ofNat 32 (packElems w (fun e =>
    match code e with
    | some c => c
    | none => if skip then elemOf w old e else 0) k)

/-- LDT and its LD path (R197). -/
def execLdt (o : TensorOp) (s : State) : Host.Outcome State Fault Refusal :=
  issue (.ldt o) s fun s =>
    if !hasRoom s.team 0 then .wait .counter
    else
      let t := s.team
      match boundShape t o.sh o.n with
      | .error tr => .trap tr
      | .ok r =>
        let w := shWidth t r
        let k := packCount t r o.pk
        let es := tensorElems t r o
        let ins := es.filter fun e => e.inb
        let unit := (innerLoc w 0).2.1
        let fin := fun (s : State) (codes : List (Nat × Nat × Nat)) =>
          let word := fun L => gatherWord w k (shSkip r) (vget t o.d.toNat L) fun e =>
            (codes.find? fun x => x.1 == L && x.2.1 == e).map fun x => x.2.2
          loadOp s o.d.toNat (active t o.g) [(List.range t.rf.n).map fun L => if (active t o.g).getLsbD L then word L else 0]
        let code := fun (e : Elem) (bs : List Byte) => (e.lane, e.field, bitsOf (ofLeBytes bs) e.shift w)
        if o.sp then
          match scrCheck s unit (ins.map fun e => (e.lane, e.va.toNat)) with
          | some tr => .trap tr
          | none => readScr s unit (ins.map fun e => e.va.toNat) <| fin s (ins.map fun e => code e ((List.range e.unit).map fun j => scrByte s t (e.va.toNat + j)))
        else
          withAcc s .read true unit (ins.map fun e => (e.lane, e.va)) fun xs s =>
            fin (noteReads s none o.cls.toNat (hmodOf t).na xs)
              ((ins.zip xs).map fun p => code p.1 (seeBytes s p.2 p.1.unit))

/-- STT (R197). -/
def execStt (o : TensorOp) (s : State) : Host.Outcome State Fault Refusal :=
  issue (.stt o) s fun s =>
    let t := s.team
    match boundShape t o.sh o.n with
    | .error tr => .trap tr
    | .ok r =>
      let w := shWidth t r
      let ins := (tensorElems t r o).filter fun e => e.inb
      let unit := (innerLoc w 0).2.1
      let bits := fun (e : Elem) => fieldBytes w e.unit e.shift (elemOf w (vget t o.d.toNat e.lane) e.field)
      if o.sp then
        match scrCheck s unit (ins.map fun e => (e.lane, e.va.toNat)) with
        | some tr => .trap tr
        | none => .next (retire (scrBits s t (ins.flatMap fun e => (bits e).map fun b => (e.va.toNat + b.1, b.2.1, b.2.2))))
      else
        withAcc s .write false unit (ins.map fun e => (e.lane, e.va)) fun xs s =>
          let s1 := if w = 4 ∨ w = 6 then noteReads s none o.cls.toNat (hmodOf t).na xs else s
          storeWith s1 o.cls.toNat xs fun s1 =>
            storeBits s1 (xs.map (laneIns s o.cls.toNat (hmodOf t).na)) ((ins.zip xs).flatMap fun p => (bits p.1).map fun b => (p.2.via, p.2.pa + b.1, b.2.1, b.2.2))

/-- SHSET (R196). -/
def execShset (o : ShsetOp) (s : State) : Host.Outcome State Fault Refusal :=
  issue (.shset o) s fun s =>
    let t := s.team
    let off := (sget t o.a.toNat + immOf t true (o.off ++ (0 : BitVec 5))).toNat
    match scrCheck s 32 [(0, off)] with
    | some tr => .trap (trap5 (bitsOf tr.d0.toNat 27 5) none (BitVec.ofNat 64 off))
    | none =>
      let r : BitVec 256 := BitVec.ofNat 256 (ofLeBytes ((List.range 32).map fun k => scrByte s t (off + k)))
      readScr s 32 [off] <| match shapeBad r (fsget t) with
      | some b => .trap (trap4 t 2 o.sh.toNat b)
      | none => .next (retire (s.withTeam { t with rf := { t.rf with sh := t.rf.sh.set o.sh.toNat r } }))

end Sys2Proof.Machine
end

