-- ==== Sys2Proof/Machine/Copy.lean ====
section
/-! DEFINITION. The copy engine and copy batches, majors 0x46 and 0x47 (R201 to R206), and translations made by engines
(R406). -/

namespace Sys2Proof.Machine

/-! ### Translations of an engine -/

/-- How an engine's translation ends. -/
inductive EngineXlate where
  /-- The physical address, whether the access goes straight to committed data, and the page's key index. -/
  | ok (pa : Nat) (direct : Bool) (key : Nat) (s : State)
  /-- The engine waits for a pager, or for a future or room to ask it (R406). -/
  | wait (s : State)
  /-- It fails with a reason of R395, 0 for a miss, or 17 for uncorrectable data (R313). -/
  | fail (reason : Nat) (s : State)

/-- Forget the future an operation waits for. -/
def dropEngineFault (s : State) (uid tag : Nat) : State :=
  s.modTeam uid fun t => { t with efaults := t.efaults.filter fun f => f.1 != tag }

/-- The walk of an engine's access for a team's operation. -/
def engineWalk (s : State) (t : Team) (tag : Nat) (acc : Access) (va : DWord) : EngineXlate :=
  if canonical va then
    match xlateT s t acc va with
    | .ok (pa, l) =>
      if acc = .write ∧ inRegion s va then .fail 7 s
      else if isHost pa && (lostLink s).isSome then .fail 11 s
      else .ok pa (l.imm || isRaw pa) l.key { s with ms := fillTlb t.pl.core t.pl.asid s.ms l }
    | .error (.g5 r) => .fail r s
    | .error (.link _ _) => .fail 11 s
    | .error .miss =>
      if pagerBound s t.pl.asid then
        match (spaceOf s t.pl.asid).bind fun sp => freeFuture s t.pl.core t.pl.asid sp with
        | none => .wait s
        | some (fva, fpa) =>
          if s.host.fqhead.toNat - s.host.fqtail.toNat < 2 ^ (s.host.fqbase.extractLsb' 0 5).toNat then
            let s2 := faultEntry (setFuture s t.pl.core t.pl.asid fva fpa 1) va fva t.pl.asid acc true t.pl.grid
            .wait (s2.modTeam t.uid fun t => { t with efaults := (tag, fva, fpa) :: t.efaults })
          else .wait s
      else .fail 0 s
  else .fail 2 s

/-- Translate for an engine (R406): a pending future keeps it waiting, a refused one fails it. -/
def engineXlate (s : State) (t : Team) (tag : Nat) (acc : Access) (va : DWord) : EngineXlate :=
  match t.efaults.find? fun f => f.1 == tag with
  | none => engineWalk s t tag acc va
  | some (_, fva, fpa) =>
    let st := (commByteK s.ms (keyOf s t.pl.core t.pl.asid fva) fpa).toNat % 4
    if st = 1 then .wait s
    else
      let s1 := dropEngineFault (setFuture s t.pl.core t.pl.asid fva fpa 0) t.uid tag
      if st = 3 then .fail 0 s1
      else engineWalk s1 { t with efaults := t.efaults.filter fun f => f.1 != tag } tag acc va

/-! ### Boxes -/

/-- The pitch of a box's rows in scratchpad (R201). -/
def boxPitch (r : BitVec 256) (w : Nat) : Nat := (rowBytes w (shBox0 r) + 15) / 16 * 16

/-- The scratchpad unit of box element (j0, j1) (R201): offset, bytes, bit position. -/
def boxLoc (c : Copy) (w j0 j1 : Nat) : Nat × Nat × Nat :=
  let l := innerLoc w j0
  (c.sbase.toNat + permuted c.sh j1 (j1 * boxPitch c.sh w + l.1), l.2.1, l.2.2)

/-- The tensor coordinates of box element (j0, j1). -/
def boxCoords (c : Copy) (j0 j1 : Nat) : List Int :=
  let i := c.coords.map fun x => x.toInt
  let i1 := i.set 0 (i.getD 0 0 + j0)
  if i1.length = 1 then i1 ++ [(j1 : Int)] else i1.set 1 (i1.getD 1 0 + j1)

/-- A box's elements in row-major order. -/
def boxElems (r : BitVec 256) : List (Nat × Nat) :=
  (List.range (shBox1 r)).flatMap fun j1 => (List.range (shBox0 r)).map fun j0 => (j0, j1)

/-- One element, with the physical address of each byte, whether it goes straight to committed data, and its page's key index. -/
structure BoxElem where
  j0 : Nat
  j1 : Nat
  inb : Bool
  va : DWord
  pas : List (Nat × Bool × Nat)
  deriving DecidableEq, Repr

/-- Translate consecutive bytes. -/
def transBytes (t : Team) (tag : Nat) (acc : Access) (va : DWord) : Nat → State → List (Nat × Bool × Nat) →
    EngineXlate × List (Nat × Bool × Nat)
  | 0, s, xs => (.ok 0 false 0 s, xs)
  | n + 1, s, xs =>
    match engineXlate s t tag acc va with
    | .ok pa d k s1 =>
      if acc = .read ∧ (eccBad s1.ms (pa / 64)).isSome then (.fail 17 (eccReport s1 pa), xs)
      else transBytes ((s1.find t.uid).getD t) tag acc (va + 1) n (if acc = .read then eccCorrect s1 (pa / 64) else s1)
        (xs ++ [(pa, d, k)])
    | e => (e, xs)

/-- Translate a box's elements until one fails or waits: how that ended, and those before it. -/
def transBox (t : Team) (c : Copy) (w : Nat) : List (Nat × Nat) → State → List BoxElem → EngineXlate × DWord × List BoxElem
  | [], s, xs => (.ok 0 false 0 s, 0, xs)
  | (j0, j1) :: js, s, xs =>
    let i := boxCoords c j0 j1
    if inBounds c.sh i then
      let l := innerLoc w (i.getD 0 0).toNat
      let va := c.base + BitVec.ofNat 64 (outerOff c.sh i + l.1)
      match transBytes ((s.find t.uid).getD t) c.tag (if c.out then .write else .read) va l.2.1 s [] with
      | (.ok _ _ _ s1, ps) => transBox t c w js s1 (xs ++ [{ j0 := j0, j1 := j1, inb := true, va := va, pas := ps }])
      | (e, _) => (e, va, xs)
    else transBox t c w js s (xs ++ [{ j0 := j0, j1 := j1, inb := false, va := 0, pas := [] }])

/-- How a byte of an element enters the L2 (R179, R180, R201). -/
def copyIns (s : State) (t : Team) (c : Copy) (x : BoxElem) (key : Nat) : Ins :=
  { rrpv := fillClass s t.pl.asid x.va c.cls.toNat, na := c.na, key := key }

/-- The effect of an `.IN` element: memory's code or, out of bounds, zero or nothing (R201, R206). -/
def copyIn (t : Team) (c : Copy) (w : Nat) (s : State) (x : BoxElem) : State :=
  let l := boxLoc c w x.j0 x.j1
  let m := innerLoc w ((boxCoords c x.j0 x.j1).getD 0 0).toNat
  let put := fun (s : State) (code : Nat) =>
    scrBits s t ((fieldBytes w l.2.1 l.2.2 code).map fun b => (l.1 + b.1, b.2.1, b.2.2))
  if x.inb then
    let ms := x.pas.foldl (fun ms p => l2Touch (l2View s) (copyIns s t c x p.2.2) ms (p.1 / 64)) s.ms
    put { s with ms := ms } (bitsOf (ofLeBytes (x.pas.map fun p => commByteK s.ms p.2.2 p.1)) m.2.2 w)
  else if shSkip c.sh then s else put s 0

/-- Bits that an engine writes to memory: address, whether at once, how the sector enters the L2, mask and value. -/
structure BitWrite where
  pa : Nat
  direct : Bool
  ins : Ins
  mask : Byte
  val : Byte
  deriving DecidableEq, Repr

/-- The bits an `.OUT` element writes. -/
def copyOut (t : Team) (c : Copy) (w : Nat) (s : State) (x : BoxElem) : List BitWrite :=
  if x.inb then
    let l := boxLoc c w x.j0 x.j1
    let m := innerLoc w ((boxCoords c x.j0 x.j1).getD 0 0).toNat
    let code := bitsOf (ofLeBytes ((List.range l.2.1).map fun k => scrByte s t (l.1 + k))) l.2.2 w
    (fieldBytes w m.2.1 m.2.2 code).map fun b =>
      let p := x.pas.getD b.1 (0, false, 0)
      { pa := p.1, direct := p.2.1, ins := copyIns s t c x p.2.2, mask := b.2.1, val := b.2.2 }
  else []

/-- Writes through an immediate mapping take effect at once, bit by bit, as the team's own last writes (R211). -/
def directBits (s : State) (uid : Nat) : List BitWrite → State
  | [] => s
  | b :: xs =>
    let cs := [(b.pa, mergeByte (commByteK s.ms b.ins.key b.pa) b.mask b.val)]
    let s1 := immediateAs s (fun _ => b.ins) cs
    directBits (if b.direct then s1.modTeam uid fun t => { t with ver := ownDirect t.ver s1.ms.stamp cs } else s) uid xs

/-- Change the copy with a tag, sealed or not, in the live and the saved image. -/
def modCopy (t : Team) (tag : Nat) (f : Copy → Copy) : Team :=
  let g := fun (c : Copy) => if c.tag == tag then f c else c
  let h := fun (e : Engines) => { e with unsealed := e.unsealed.map g,
                                         batches := e.batches.map fun b => { b with copies := b.copies.map g } }
  { t with eng := h t.eng, handler := t.handler.map fun x => { x with saved := h x.saved } }

/-- One engine write joins the write side (R204, R216): its sector becomes an entry, beyond the quota too. -/
def engineStore (v : Version) (ins : Ins) (c : Host.Cell) : Version :=
  let u := ownStore v [(c.1 / 64, ins)] [c]
  { u with spilled := if v.spilled.contains (c.1 / 64) then v.spilled else c.1 / 64 :: v.spilled }

/-- Bytes of completed `.OUT` copies join the write side (R204). -/
def joinWrites (ms : MemSide) (v : Version) : List (Nat × Ins × Byte × Byte) → Version
  | [] => v
  | (pa, ins, mask, val) :: xs =>
    joinWrites ms (engineStore v ins (pa, mergeByte (readByte ms v ins.key pa) mask val)) xs

/-- The trap that reports a copy's failure: group 7 (R205), and for a write to a vertex-homed page, which R205 does not list, group 5
reason 7 (R253; log 103). -/
def copyTrap (r idx : Nat) (va : DWord) (num : Nat) : Trap := if r = 7 then trap5 7 none va else trap7 r idx va num

/-- The first failed copy of a list that no FENCE has reported, and its error under a batch number (R205, R226). -/
def copyErr (num : Nat) (cs : List Copy) : List PendErr :=
  match (cs.zipIdx.filterMap fun x => if x.1.told then none else x.1.fail.map fun f => (x.2, x.1.tag, f)).head? with
  | some (idx, tag, (r, va)) => [{ tag := tag, path := 1, num := num, trap := copyTrap r idx va num }]
  | none => []

/-- The error of a batch: its first copy that failed (R205). -/
def batchErr (b : Batch) : List PendErr := copyErr b.num b.copies

/-- The error that a FENCE finds among the unsealed copies (R226), under the number their batch will have. -/
def unsealedErr (e : Engines) : List PendErr := copyErr (e.lastBatch + 1) e.unsealed

/-- Batches whose copies have finished complete, in sealing order (R203): the rest, the version and the errors. DESIGN CHOICE (log 98):
the writes of a batch's copies take effect in issue order. -/
def settleBatches (ms : MemSide) : List Batch → Version → List Batch × Version × List PendErr
  | [], v => ([], v, [])
  | b :: bs, v =>
    if b.copies.all fun c => c.done then
      let r := settleBatches ms bs (joinWrites ms v (b.copies.flatMap fun c => c.writes))
      (r.1, r.2.1, batchErr b ++ r.2.2)
    else (b :: bs, v, [])

/-- Settle the batches of an engines' state. -/
def settleEngines (ms : MemSide) (e : Engines) (v : Version) : Engines × Version :=
  let r := settleBatches ms e.batches v
  ({ e with batches := r.1, errs := e.errs ++ r.2.2 }, r.2.1)

/-- Settle a team's batches, those of the saved image first. -/
def settleTeam (ms : MemSide) (t : Team) : Team :=
  let r := match t.handler with
    | some h => let x := settleEngines ms h.saved t.ver
                (some { h with saved := x.1 }, x.2)
    | none => (none, t.ver)
  let y := settleEngines ms t.eng r.2
  { t with handler := r.1, eng := y.1, ver := y.2 }

/-- Every copy of an engines' state, sealed ones first. -/
def copiesOf (e : Engines) : List Copy := (e.batches.flatMap fun b => b.copies) ++ e.unsealed

/-- Every copy of a team. -/
def teamCopies (t : Team) : List Copy := (match t.handler with | some h => copiesOf h.saved | none => []) ++ copiesOf t.eng

/-- The elements of an `.OUT` copy before the first whose scratchpad side cannot be read, and that one (R205). -/
def readable (s : State) (t : Team) (c : Copy) (w : Nat) : List BoxElem → List BoxElem × Option BoxElem
  | [] => ([], none)
  | x :: xs =>
    let l := boxLoc c w x.j0 x.j1
    if c.out && x.inb && scrBad s t l.1 l.2.1 then ([], some x)
    else let r := readable s t c w xs
         (x :: r.1, r.2)

/-- Run one copy of a team to its end (R201, R205): it finishes, fails with the elements before the failing one done, or
waits for a pager. -/
def runCopy (s : State) (t : Team) (c : Copy) : State :=
  let w := (slotOf c.slot).width
  let r := transBox t c w (boxElems c.sh) s []
  let finish := fun (s : State) (fail : Option (Nat × DWord)) =>
    let es := readable s t c w r.2.2
    let fail := match es.2 with | some x => some (2, x.va) | none => fail
    let s1 := if c.out then s else es.1.foldl (copyIn t c w) s
    let outs := if c.out then es.1.flatMap (copyOut t c w s) else []
    let s2 := directBits s1 t.uid outs
    let later := (outs.filter fun x => !x.direct).map fun x => (x.pa, x.ins, x.mask, x.val)
    s2.modTeam t.uid fun t => settleTeam s2.ms (modCopy t c.tag fun c => { c with done := true, fail := fail, writes := later })
  match r.1 with
  | .ok _ _ _ s1 => finish s1 none
  | .wait s1 => s1
  | .fail e s1 => finish s1 (some (if e = 17 then 2 else if e = 7 then 7 else 1, r.2.1))

/-! ### Instructions -/

/-- Commands queued on a core's copy engine (R206). -/
def engineLoad (s : State) (core : Nat) : Nat :=
  ((s.teams.filter fun t => t.pl.core == core).flatMap fun t => (teamCopies t).filter fun c => !c.done).length

/-- CPT (R201, R202). -/
def execCpt (o : CptOp) (s : State) : Host.Outcome State Fault Refusal :=
  issue (.cpt o) s fun s =>
    let t := s.team
    if t.pl.role ≠ 1 then .trap (trapRole t 0x46 o.cls.toNat)
    else if 64 ≤ engineLoad s t.pl.core then .wait .room
    else match boundShape t o.sh o.n with
      | .error tr => .trap tr
      | .ok r =>
        let w := shWidth t r
        let off := (sget t o.d.toNat).toNat
        if shPerm r ≠ 0 ∧ boxPitch r w % 128 ≠ 0 then .trap (trap4 t 2 o.sh.toNat 3)
        else if off % 16 ≠ 0 then .trap (trap5 1 none (BitVec.ofNat 64 off))
        else if allotment s t < off + shBox1 r * boxPitch r w then .trap (trap5 3 none (BitVec.ofNat 64 off))
        else if 64 ≤ t.eng.unsealed.length then .trap (trap7 3 0 0 0)
        else
          let c : Copy :=
            { tag := t.nextTag, out := o.out, sh := r, slot := fsget t (shSlot r), base := spair t (shBase r),
              coords := (List.range (o.n.toNat + 1)).map fun j => sget t (o.c.toNat + j), sbase := sget t o.d.toNat,
              cls := o.cls, na := (hmodOf t).na, done := false, fail := none, told := false, writes := [] }
          .next (retire (s.withTeam { t with nextTag := t.nextTag + 1,
                                             eng := { t.eng with unsealed := t.eng.unsealed ++ [c] } }))

/-- CPSEAL (R203). -/
def execCpseal (o : SD) (s : State) : Host.Outcome State Fault Refusal :=
  issue (.cpseal o) s fun s =>
    let t := s.team
    if t.pl.role ≠ 1 then .trap (trapRole t 0x47 0)
    else if t.eng.lastBatch = 0xFFFFFFFF ∧ t.eng.count 1 ≠ 0 then .wait .wait
    else if !hasRoom t 1 then .wait .counter
    else
      let num := if t.eng.lastBatch = 0xFFFFFFFF then 1 else t.eng.lastBatch + 1
      let b : Batch := { tag := t.nextTag, num := num, copies := t.eng.unsealed, complete := false }
      let e := { t.eng with unsealed := [], batches := t.eng.batches ++ [b], lastBatch := num }
      let x := settleEngines s.ms e t.ver
      let t1 := { t with nextTag := t.nextTag + 1, eng := x.1, ver := x.2 }
      .next (retire (s.withTeam (setS t1 o.d.toNat (BitVec.ofNat 32 num))))

/-- The earliest error that a wait covers, and the team without it (R226). -/
def takeErr (t : Team) (p : PendErr → Bool) : Option PendErr × Team :=
  match (t.eng.errs.filter p) with
  | [] => (none, t)
  | e :: es =>
    let m := es.foldl (fun m x => if x.tag < m.tag then x else m) e
    (some m, { t with eng := { t.eng with errs := t.eng.errs.erase m } })

/-- CPWAIT (R204, R205): it reports the errors of the batches it covers, after it has completed. -/
def execCpwait (o : S1) (s : State) : Host.Outcome State Fault Refusal :=
  issue (.cpwait o) s fun s =>
    let t := s.team
    let k := (sget t o.a.toNat).toNat
    if t.eng.batches.any fun b => decide (b.num ≤ k) then .wait .wait
    else
      let r := takeErr t fun e => e.path == 1 && decide (e.num ≤ k)
      .next (retireReport s (s.withTeam r.2, r.1.map fun e => e.trap))

/-- COPY_COMPLETE: a team's copy `idx`, of those that have not run, runs on its core's engine (R201, R203, R205). -/
def execCopyComplete (uid idx : Nat) (s : State) : Host.Outcome State Fault Refusal :=
  match s.find uid with
  | none => .next s
  | some t =>
    match ((teamCopies t).filter fun c => !c.done)[idx]? with
    | none => .next s
    | some c => .next (runCopy s t c)

end Sys2Proof.Machine
end

