-- ==== Sys2Proof/Machine/Matrix.lean ====
section
/-! DEFINITION. Matrix arrays, accumulator tiles and the pair's command queue (R157, R230 to R249). -/

namespace Sys2Proof.Machine

/-! ### Pairs -/

/-- The pair of a matrix-role team (R231). -/
def pairOfTeam (s : State) (t : Team) : Option Pair :=
  match s.gangOf t with
  | some g => if t.pl.role = 2 then g.pairs.find? fun p => p.idx == t.pl.pair else none
  | none => none

/-- Change pair `k` of a gang. -/
def modPair (s : State) (grid gang k : Nat) (f : Pair → Pair) : State :=
  s.modGang grid gang fun g => { g with pairs := g.pairs.map fun p => if p.idx == k then f p else p }

/-- Change the pair of a team. -/
def modTeamPair (s : State) (t : Team) (f : Pair → Pair) : State :=
  match pairOfTeam s t with
  | some p => modPair s t.pl.grid t.pl.gang p.idx f
  | none => s

/-- Whether a core is a pair's follower: the odd one (R231). -/
def isFollower (p : Pair) (core : Nat) : Bool := core != p.leader

/-- The trap a record carries (R242, R394). -/
def recordTrap (p : Pair) : Trap := trap8 p.err.code p.err.tile p.err.core p.idx p.err.seq p.err.more

/-- An error to report: the record is valid and not yet reported. -/
def toReport (p : Pair) : Bool := p.err.valid && !p.err.reported

/-- Mark the record reported. -/
def markReported (p : Pair) : Pair := { p with err := { p.err with reported := true } }

/-- The tile a command names. -/
def tileOfCmd : MCmdKind → Nat
  | .mma t _ _ _ _ _ _ => t
  | .mzero t => t
  | .mrd sel => sel.toNat % 4
  | .msts sel _ _ => sel.toNat % 4

/-- The state of tile `t`. -/
def tileState (p : Pair) (t : Nat) : TileState := ((p.tiles[t]?).map fun x => x.state).getD .untyped

/-- Mark a tile invalid. -/
def spoil (p : Pair) (t : Nat) : Pair :=
  { p with tiles := p.tiles.set t { (p.tiles.getD t ⟨.untyped, [], []⟩) with state := .invalid } }

/-! ### Discarding and failing (R241) -/

/-- Retire a command's in-flight operation; an MRD's register takes `row` in its active lanes. A team that is not on its group has its
result delivered into its saved image (R97, R240), by PRODUCER_COMPLETE. -/
def retireCmd (s : State) (c : MCmd) (row : List Word) : State :=
  s.modTeam c.uid fun t =>
    let u := modOp t c.tag fun o => { o with arrived := true, waits := 0, dst := match o.dst with
      | .vec r m _ => .vec r m [row]
      | d => d }
    if u.stage == .resident then completeOp u c.tag else u

/-! ### Tiles in a context entry (R400) -/

/-- What a context entry holds of a pair's tile `t` of a team of N lanes and V registers: its state in the byte of states, its words
after the Locus state, the leader's and the follower's. -/
def tileCells (a n nv states : Nat) (t : Nat) (x : Tile) : List Host.Cell :=
  let code := match x.state with
    | .untyped => 0
    | .fp32 => 1
    | .int32 => 2
    | .invalid => 3
  let word := fun (w : Sparse) (i : Nat) => leBytes 4 (((w.find? fun (e : Nat × Word) => e.1 == i).map fun (e : Nat × Word) => e.2).getD 0).toNat
  let at_ := a + 0xC00 + 4 * n * nv + 16384
  cellsAt (a + 0xB08) (leBytes 1 (states - bitsOf states (2 * t) 2 * 4 ^ t + code * 4 ^ t))
    ++ cellsAt (at_ + 65536 * t) ((List.range 16384).flatMap (word x.lead))
    ++ cellsAt (at_ + 262144 + 65536 * t) ((List.range 16384).flatMap (word x.foll))

/-- A tile that a command changes while the entry of a handler holds the pair's tiles changes there too, so that the return from the
handler does not take it back (R97, R400, R409). DESIGN CHOICE (log 47). -/
def keepTile (s : State) (grid gang k : Nat) (x : Nat × Tile) : State :=
  match s.teams.find? fun u => u.kind == .core && u.pl.grid == grid && u.pl.gang == gang && u.pl.role == 2 && u.pl.pair == k
      && u.handler.any fun h => h.tiles with
  | some u => match u.handler with
    | some h =>
      let a := entryPa s h.entry
      immediate s (tileCells a u.rf.n u.rf.nv (commByte s.ms (a + 0xB08)).toNat x.1 x.2)
    | none => s
  | none => s

/-- A pair `p` of a gang becomes `q`, in the gang and in the entry that holds its tiles. -/
def putPair (s : State) (grid gang : Nat) (p q : Pair) : State :=
  let new := q.tiles.zipIdx.filter fun x => p.tiles[x.2]? != some x.1
  new.foldl (fun s x => keepTile s grid gang p.idx (x.2, x.1)) (modPair s grid gang p.idx fun _ => q)

/-- A pair with its tiles as a context entry holds them, whose bytes `byte` gives, of a team of N lanes and V registers. -/
def pairFrom (byte : Nat → Byte) (n nv : Nat) (p : Pair) : Pair :=
  let at_ := 0xC00 + 4 * n * nv + 16384
  let words := fun (o : Nat) => ((List.range 16384).filterMap fun i =>
    let w : Word := BitVec.ofNat 32 (ofLeBytes ((List.range 4).map fun k => byte (at_ + o + 4 * i + k)))
    if w = 0 then none else some (i, w) : Sparse)
  let state := fun (t : Nat) => match bitsOf (byte 0xB08).toNat (2 * t) 2 with
    | 0 => TileState.untyped
    | 1 => .fp32
    | 2 => .int32
    | _ => .invalid
  { p with tiles := (List.range 4).map fun t => { state := state t, lead := words (65536 * t), foll := words (262144 + 65536 * t) } }

/-- A command discarded while the queue is halted: a discarded MMA spoils its tile, MORE counts it while the record is
unreported. -/
def discardPair (p : Pair) (c : MCmd) : Pair :=
  let p1 := match c.kind with
    | .mma t _ _ _ _ _ _ => spoil p t
    | _ => p
  if toReport p1 then { p1 with err := { p1.err with more := min 255 (p1.err.more + 1) } } else p1

/-- A command of the head of the queue fails with a code: the queue halts, the tile is invalid, the record is written, the
commands behind it but MZERO are discarded, and all of them retire. `core` is where a storage error arose (R243). -/
def failCmd (s : State) (grid gang : Nat) (p : Pair) (c : MCmd) (code core : Nat) : State :=
  let rest := p.queue.drop 1
  let gone := rest.filter fun x => match x.kind with | .mzero _ => false | _ => true
  let keep := rest.filter fun x => match x.kind with | .mzero _ => true | _ => false
  let err : MErr := { uid := c.uid, tag := c.tag, pc := c.pc, seq := c.seq, team := c.team, tile := tileOfCmd c.kind,
                      code := code, core := core, more := 0, reported := false, valid := true }
  let p1 := { spoil p (tileOfCmd c.kind) with halted := true, err := err, queue := keep, running := none }
  let p2 := gone.foldl discardPair p1
  (c :: gone).foldl (fun s c => retireCmd s c (List.replicate 32 0)) (putPair s grid gang p p2)

/-! ### Operands (R234, R235) -/

/-- K of a pairing, and whether it makes INT32 tiles; none where it is not allowed (R233). -/
def pairingOf (a b : Slot) : Option (Nat × Bool) :=
  let byte := fun (f : Nat) => decide (3 ≤ f ∧ f ≤ 6)
  let scaleOk := fun (p : Slot) => if p.scale = 2 then decide (3 ≤ p.fam ∧ p.fam ≤ 7) else if p.scale = 3 then p.fam == 7 else true
  if !scaleOk a || !scaleOk b then none
  else if byte a.fam && byte b.fam then some (64, false)
  else if a.fam = b.fam ∧ (a.fam = 1 ∨ a.fam = 2) then some (32, false)
  else if a.fam = 7 ∧ b.fam = 7 then some (128, false)
  else if a.fam = 8 ∧ b.fam = 8 then some (64, true)
  else none

/-- Elements of a block under a scale kind (R143). -/
def blockOfScale (scale : Nat) : Nat := if scale = 2 then 32 else 16

/-- Bytes of A and its scales (R234). -/
def aBytes (a : Slot) : Nat :=
  if a.fam = 8 then 1024 * a.planes
  else 8192 + (if a.scale = 2 ∨ a.scale = 3 then 128 * ((if a.fam = 7 then 128 else 64) / blockOfScale a.scale) else 0)

/-- An element under its block's scale byte (R143). -/
def scaleBy (scale byte : Nat) (v : FVal) : FVal :=
  if scale = 2 then (if byte = 255 then .nan else v.mul (.fin false 1 1 ((byte : Int) - 127)))
  else if scale = 3 then
    (if 128 ≤ byte then .nan
     else match (famFmt 3).decode byte with
      | .fin _ 0 _ _ => .fin false 0 1 0
      | x => v.mul x)
  else v

/-- A(i, k) of a float family, scales included. -/
def aElem (byte : Nat → Byte) (a : Slot) (kk i k : Nat) : FVal :=
  let l := innerLoc a.width k
  let x := ofLeBytes ((List.range l.2.1).map fun j => byte (64 * i + l.1 + j))
  let v := ((famFmt a.fam).decode (bitsOf x l.2.2 a.width)).mul a.ts
  scaleBy a.scale (byte (8192 + i * (kk / blockOfScale a.scale) + k / blockOfScale a.scale)).toNat v

/-- B(k, j) of a float family: `reg r` is register vb + r of the column's lane. -/
def bElem (reg : Nat → Word) (b : Slot) (k : Nat) : FVal :=
  let n := perWord b.width
  let v := ((famFmt b.fam).decode (elemOf b.width (reg (k / n)) (k % n))).mul b.ts
  let data := if b.fam = 5 ∨ b.fam = 6 then 13 else 16
  let blk := k / blockOfScale b.scale
  scaleBy b.scale (bitsOf (reg (data + blk / 4)).toNat (8 * (blk % 4)) 8) v

/-- A bit-plane integer from its bits, plane 0 the sign (R145). -/
def planeVal (planes : Nat) (bit : Nat → Bool) : Int := signedOf planes (packLanes planes fun n => bit (planes - 1 - n))

/-- A(i, k) of a bit-plane slot. -/
def aPlane (byte : Nat → Byte) (planes i k : Nat) : Int :=
  planeVal planes fun p => (byte (1024 * p + 8 * i + k / 8)).getLsbD (k % 8)

/-- B(k, j) of a bit-plane slot. -/
def bPlane (reg : Nat → Word) (planes k : Nat) : Int :=
  planeVal planes fun p => (reg (2 * p + k / 32)).getLsbD (k % 32)

/-- One element of the result of a float pairing (R157): K-groups of 16, each summed exactly, added with one rounding. -/
def dotFloat (a b : Nat → FVal) (groups : Nat) (acc : Word) : Word :=
  (List.range groups).foldl (fun (acc : Word) g =>
    let sum := (List.range 16).foldl (fun x n =>
      let p := (a (16 * g + n)).mul (b (16 * g + n))
      match x with
      | none => some p
      | some v => some (FVal.add .rne v p)) (none : Option FVal)
    BitVec.ofNat 32 (fp32.encode .rne false (FVal.add .rne (fp32.decode acc.toNat) (sum.getD (.fin false 0 1 0))))) acc

/-- One element of the result of a bit-plane pairing (R157): each K-group's exact sum is added with saturation. -/
def dotInt (a b : Nat → Int) (groups : Nat) (acc : Word) : Word :=
  (List.range groups).foldl (fun (acc : Word) g =>
    let sum : Int := (List.range 16).foldl (fun x n => x + a (16 * g + n) * b (16 * g + n)) 0
    let r := acc.toInt + sum
    if r < -2147483648 then 0x80000000 else if 2147483647 < r then 0x7FFFFFFF else BitVec.ofInt 32 r) acc

/-- A word of a tile. -/
def tileWord (x : Sparse) (n : Nat) : Word := ((x.find? fun e => e.1 == n).map fun e => e.2).getD 0

/-- A tile's words from a function, zero words unlisted. -/
def tileOf (f : Nat → Word) : Sparse :=
  (List.range 16384).filterMap fun n => let x := f n; if x = 0 then none else some (n, x)

/-- The matrix team on group `q` of one core of a gang's pair (R231): the even core leads. -/
def quadTeam (s : State) (grid gang pair side q : Nat) : Option Team :=
  s.teams.find? fun t => t.kind == .core && t.pl.grid == grid && t.pl.gang == gang && t.pl.pair == pair
    && t.pl.core % 2 == side && t.pl.group == q && t.pl.role == 2 && t.stage != .ended

/-- The eight teams of a pair: leader groups 0 to 3, follower groups 0 to 3. -/
def quadTeams (s : State) (grid gang : Nat) (p : Pair) : List (Option Team) :=
  (List.range 8).map fun e => quadTeam s grid gang p.idx (e / 4) (e % 4)

/-- Register `r` of column `j` of 256 (R235); a team that has ended leaves a free value. -/
def bReg (s : State) (ts : List (Option Team)) (j r : Nat) : Word :=
  match ts.getD (j / 32) none with
  | some t => vget t r (j % 32)
  | none => Config.freeWord (s.free + (j / 32 * 64 + r) * 32 + j % 32)

/-! ### Executing a command -/

/-- Whether a command can start: every B register it reads is full in every team (R239); a range past the registers that exist holds
nothing up and is an error (R241). -/
def canStart (s : State) (grid gang : Nat) (p : Pair) (c : MCmd) : Bool :=
  match c.kind with
  | .mma _ _ vb _ fb _ _ =>
    (quadTeams s grid gang p).all fun t => match t with
      | some t => (regsFrom vb (bCount fb)).all fun r => decide (t.rf.nv ≤ r) || vIsFull t r
      | none => true
  | _ => true

/-- The code of an MMA's error, if any (R241). -/
def mmaErr (s : State) (grid gang : Nat) (p : Pair) (t vb : Nat) (fa fb : DWord) (z : Bool) (low : Nat) : Option Nat :=
  let st := tileState p t
  if st = .invalid then some 9
  else if low ≠ 0 then some 1
  else match pairingOf (slotOf fa) (slotOf fb) with
    | none => some 2
    | some (_, int) =>
      if !z && ((int && st == .fp32) || (!int && st == .int32)) then some 3
      else if (quadTeams s grid gang p).any fun x => match x with
          | some u => decide (u.rf.nv < vb + bCount fb)
          | none => false
        then some 4
      else none

/-- The bytes from `a0` on, read once: 9,216 hold every A range with its scales (R234). -/
def byteTable (scr : Nat → Byte) (a0 : Nat) : Array Byte := ((List.range 9216).map fun k => scr (a0 + k)).toArray

/-- A byte of the table, or of the scratchpad where the table ends. -/
def tabled (tab : Array Byte) (scr : Nat → Byte) (a0 n : Nat) : Byte :=
  match tab[n]? with
  | some b => b
  | none => scr (a0 + n)

/-- The tile an MMA leaves (R236, R237, R244). -/
def mmaTile (s : State) (grid gang : Nat) (p : Pair) (scr : Nat → Byte) (t a0 vb : Nat) (fa fb : DWord) (z : Bool) : Tile :=
  let a := slotOf fa
  let b := slotOf fb
  let ts := quadTeams s grid gang p
  let old := p.tiles.getD t ⟨.untyped, [], []⟩
  let kk := ((pairingOf a b).getD (64, false)).1
  let tab := byteTable scr a0
  let byte := fun n => tabled tab scr a0 n
  let elem := fun (half : Nat) (olds : Sparse) (n : Nat) =>
    let i := n / 128
    let reg := fun r => bReg s ts (128 * half + n % 128) (vb + r)
    let acc := if z then 0 else tileWord olds n
    if a.fam = 8 then dotInt (aPlane byte a.planes i) (bPlane reg b.planes) (kk / 16) acc
    else dotFloat (aElem byte a kk i) (bElem reg b) (kk / 16) acc
  { state := if a.fam = 8 then .int32 else .fp32, lead := tileOf (elem 0 old.lead), foll := tileOf (elem 1 old.foll) }

/-- The row pitch of an MSTS (R247). -/
def mstsPitch (sel : Word) (slot : DWord) : Nat :=
  if sel.getLsbD 5 then (rowBytes (slotOf slot).width 128 + 15) / 16 * 16 else 512

/-- The code of an MSTS's error, if any. -/
def mstsErr (p : Pair) (sel : Word) (slot : DWord) : Option Nat :=
  let st := tileState p (sel.toNat % 4)
  let o := slotOf slot
  if st = .invalid then some 9
  else if sel.toNat / 64 ≠ 0 then some 6
  else if sel.getLsbD 5 && (st != .fp32 || o.fam == 8 || o.scale == 2 || o.scale == 3 || o.round == 2) then some 8
  else none

/-- The bytes an MSTS writes (R247). -/
def mstsCells (p : Pair) (follower : Bool) (sel dst : Word) (slot : DWord) : List Host.Cell :=
  let tile := p.tiles.getD (sel.toNat % 4) ⟨.untyped, [], []⟩
  let words := if follower then tile.foll else tile.lead
  let o := slotOf slot
  let r : Rnd := ⟨if o.round = 1 then .rtz else .rne, 0, 32⟩
  let code := fun n => (o.fmt false).encode r o.sat ((fp32.decode (tileWord words n).toNat).div o.ts)
  let per := perWord o.width
  (List.range 128).flatMap fun i =>
    let row := if sel.getLsbD 5 then
        ((List.range ((127 + per) / per)).flatMap fun w =>
          leBytes 4 (packElems o.width (fun e => if per * w + e < 128 then code (128 * i + per * w + e) else 0) per)).take
            (rowBytes o.width 128)
      else (List.range 128).flatMap fun j => leBytes 4 (tileWord words (128 * i + j)).toNat
    cellsAt (dst.toNat + mstsPitch sel slot * i) row

/-- A storage error that a command meets as it runs (R241 code 7): in the A data or in the tile it reads, of which MRD and MSTS read their
own core's half (R246, R247); the core it arose on. -/
def storageErr (s : State) (grid gang : Nat) (p : Pair) (c : MCmd) : Option Nat :=
  let side := fun (b : Bool) => if b then 1 else 0
  let reads := fun (f : Bool) => match c.kind with
    | .mma _ _ _ _ _ z _ => !z
    | .mzero _ => false
    | .mrd _ => f == c.follower
    | .msts _ _ _ => f == c.follower
  s.upsets.findSome? fun u => match u, c.kind with
    | .scratch g i off f, .mma _ a0 _ fa _ _ _ =>
      if g = grid ∧ i = gang ∧ a0.toNat ≤ off ∧ off < a0.toNat + aBytes (slotOf fa) then some (side f) else none
    | .tile g i k t f, x => if g = grid ∧ i = gang ∧ k = p.idx ∧ t = tileOfCmd x ∧ reads f = true then some (side f) else none
    | _, _ => none

/-- The error of the head command at its start, or what it will do. -/
def startCmd (s : State) (grid gang : Nat) (p : Pair) (scr : Nat → Byte) (c : MCmd) : Except Nat MRun :=
  match c.kind with
  | .mma t a0 vb fa fb z low =>
    match mmaErr s grid gang p t vb fa fb z low with
    | some e => .error e
    | none => .ok (.tile t (mmaTile s grid gang p scr t a0.toNat vb fa fb z))
  | .mzero t => .ok (.clear t)
  | .mrd sel =>
    if tileState p (sel.toNat % 4) = .invalid then .error 9
    else if sel.toNat / 2048 ≠ 0 then .error 6
    else
      let tile := p.tiles.getD (sel.toNat % 4) ⟨.untyped, [], []⟩
      let words := if c.follower then tile.foll else tile.lead
      .ok (.row ((List.range 32).map fun L => tileWord words (128 * bitsOf sel.toNat 2 7 + 32 * bitsOf sel.toNat 9 2 + L)))
  | .msts sel dst slot =>
    match mstsErr p sel slot with
    | some e => .error e
    | none => .ok (.store (mstsCells p c.follower sel dst slot))

/-- MATRIX_CMD_START: the queue of pair `pair` of the gang at place `gang` starts its next command and reads its operands
(R238, R239). DESIGN CHOICE (log 31): all of A is read at this instant, so a chunk that another party writes before the command
retires reads old. -/
def execMatrixCmdStart (gang pair : Nat) (s : State) : Host.Outcome State Fault Refusal :=
  match s.gangs[gang]? with
  | none => .next s
  | some g =>
    match g.pairs[pair]? with
    | none => .next s
    | some p =>
      match p.running, p.queue with
      | none, c :: _ =>
        if canStart s g.grid g.idx p c then
          match startCmd s g.grid g.idx p (fun n => (cellGet g.scratch n).getD 0) c, storageErr s g.grid g.idx p c with
          | .error code, _ => .next (failCmd { s with free := s.free + 16384 } g.grid g.idx p c code 0)
          | .ok _, some core =>
            let s1 := logEvent { s with free := s.free + 16384 } 5 (3 * 2 ^ 24 + p.leader + core) (leBytes 8 0 ++ leBytes 4 2)
            .next (failCmd s1 g.grid g.idx p c 7 core)
          | .ok r, none => .next (modPair { s with free := s.free + 16384 } g.grid g.idx p.idx fun p => { p with running := some r })
        else .next s
      | _, _ => .next s

/-- What MZERO does to the pair at its end (R245). -/
def clearTile (p : Pair) (t : Nat) : Pair :=
  let p1 := { p with tiles := p.tiles.set t ⟨.untyped, [], []⟩ }
  if p1.halted && p1.err.reported then { p1 with err := MErr.clear, halted := false } else p1

/-- MATRIX_CMD_RETIRE: the running command's effect is complete and its issuer's MX counter falls (R238). -/
def execMatrixCmdRetire (gang pair : Nat) (s : State) : Host.Outcome State Fault Refusal :=
  match s.gangs[gang]? with
  | none => .next s
  | some g =>
    match g.pairs[pair]? with
    | none => .next s
    | some p =>
      match p.running, p.queue with
      | some r, c :: rest =>
        let p1 := { p with running := none, queue := rest }
        let put := fun (q : Pair) => putPair s g.grid g.idx p q
        match r with
        | .tile t x => .next (retireCmd (put { p1 with tiles := p1.tiles.set t x }) c [])
        | .clear t => .next (retireCmd (put (clearTile p1 t)) c [])
        | .row vals => .next (retireCmd (put p1) c vals)
        | .store cells =>
          .next (retireCmd ((put p1).modGang g.grid g.idx fun g => { g with scratch := cellSets g.scratch cells }) c [])
      | _, _ => .next s

/-! ### Instructions -/

/-- Whether a pair takes no command for now (R232): its teams are to be evicted, because something waits for their place
or a core of theirs has failed (R13). -/
def closedNow (s : State) (p : Pair) : Bool :=
  s.mgmt.fenced.any (fun k => k / 2 == p.leader / 2)
    || p.closed && (s.sched.grids.any (fun g => decide (g.next < g.size)) || s.teams.any fun t => match t.stage with | .evicted _ => true | _ => false)

/-- A command enters its pair's queue (R238); a halted queue discards it unless it is MZERO (R241). -/
def enqueue (s : State) (p : Pair) (dst : Dst) (kind : MCmdKind) : Result :=
  let t := s.team
  if !hasRoom t 2 then .wait .counter
  else if closedNow s p || decide (8 ≤ p.queue.length) then .wait .room
  else
    let seq := p.seq + 1
    let c : MCmd := { uid := t.uid, team := t.pl.team, follower := isFollower p t.pl.core, tag := t.nextTag, pc := t.ctl.pc,
                      seq := seq, kind := kind }
    let s1 := s.withTeam (addOp t 2 dst 0 false)
    let zero := match kind with | .mzero _ => true | _ => false
    if p.halted && !zero then
      let s2 := putPair s1 t.pl.grid t.pl.gang p (discardPair { p with seq := seq } c)
      .next (retire (retireCmd s2 c (List.replicate 32 0)))
    else .next (retire (modTeamPair s1 t fun p => { p with seq := seq, queue := p.queue ++ [c] }))

/-- MMA (R244). -/
def execMma (o : MmaOp) (s : State) : Host.Outcome State Fault Refusal :=
  issue (.mma o) s fun s =>
    let t := s.team
    if active t o.g = 0 then .next (retire s)
    else match pairOfTeam s t with
      | none => .trap (trapRole t 0x4C 0)
      | some p =>
        if isFollower p t.pl.core then .trap (trapRole t 0x4C 0)
        else
          let a0 := (sget t o.sa.toNat).toNat
          let fa := fsget t o.fa.toNat
          if a0 % 128 ≠ 0 then .trap (trap5 1 none (BitVec.ofNat 64 a0))
          else if allotment s t < a0 + aBytes (slotOf fa) then .trap (trap5 3 none (BitVec.ofNat 64 a0))
          else enqueue s p .none
            (.mma o.t.toNat (sget t o.sa.toNat) o.vb.toNat fa (fsget t o.fb.toNat) o.z o.low.toNat)

/-- MZERO (R245). -/
def execMzero (o : MzeroOp) (s : State) : Host.Outcome State Fault Refusal :=
  issue (.mzero o) s fun s =>
    let t := s.team
    match pairOfTeam s t with
    | none => .trap (trapRole t 0x4D 0)
    | some p =>
      if isFollower p t.pl.core then .trap (trapRole t 0x4D 0)
      else enqueue s p .none (.mzero o.t.toNat)

/-- MRD (R242, R246). -/
def execMrd (o : MrdOp) (s : State) : Host.Outcome State Fault Refusal :=
  issue (.mrd o) s fun s =>
    let t := s.team
    match pairOfTeam s t with
    | none => .trap (trapRole t 0x4D 1)
    | some p =>
      let sel := sget t o.a.toNat
      let tile := sel.toNat % 4
      if tileState p tile = .invalid then
        if toReport p then .next (trapBefore (modTeamPair s t markReported) (recordTrap p))
        else .trap (trap8 9 tile (if isFollower p t.pl.core then 1 else 0) p.idx 0 0)
      else enqueue s p (.vec o.d.toNat (active t o.g) [List.replicate t.rf.n 0]) (.mrd sel)

/-- MSTS (R247). -/
def execMsts (o : SS) (s : State) : Host.Outcome State Fault Refusal :=
  issue (.msts o) s fun s =>
    let t := s.team
    match pairOfTeam s t with
    | none => .trap (trapRole t 0x4D 2)
    | some p =>
      let sel := sget t o.a.toNat
      let dst := sget t o.b.toNat
      let slot := fsget t (bitsOf sel.toNat 2 3)
      if dst.toNat % 16 ≠ 0 then .trap (trap5 1 none (dst.setWidth 64))
      else if allotment s t < dst.toNat + 128 * mstsPitch sel slot then .trap (trap5 3 none (dst.setWidth 64))
      else enqueue s p .none (.msts sel dst slot)

/-- The word MSTAT writes (R248). -/
def mstatWord (p : Pair) : Word :=
  BitVec.ofNat 32 ((if p.err.valid then p.err.code else 0) * 2 ^ 28 + p.err.seq.toNat % 256 * 2 ^ 20
    + (if p.err.reported then 2 ^ 19 else 0) + (if p.halted then 2 ^ 18 else 0) + min 15 p.queue.length * 2 ^ 14
    + tileStates p)

/-- MSTAT (R248). -/
def execMstat (o : SD) (s : State) : Host.Outcome State Fault Refusal :=
  issue (.mstat o) s fun s =>
    let t := s.team
    match pairOfTeam s t with
    | none => .trap (trapRole t 0x4D 3)
    | some p => .next (retire (s.withTeam (setS t o.d.toNat (mstatWord p))))

end Sys2Proof.Machine
end

