-- ==== Sys2Proof/Machine/Order.lean ====
section
/-! DEFINITION. Boundaries, barriers, FENCE, WAITC and L2 maintenance, majors 0x47.2, 0x4A and 0x4B (R200, R209, R213 to R216,
R225 to R228). -/

namespace Sys2Proof.Machine

/-- Do something to the team with a handle and come back to the team in focus. -/
def onTeam (s : State) (uid : Nat) (f : State → State) : State :=
  match s.find uid with
  | none => s
  | some _ => (f (s.focus uid)).focus s.team.uid

/-- One boundary more (R225). -/
def nextPhase (t : Team) : Team := { t with sp := { t.sp with phase := t.sp.phase + 1 } }

/-- The home writes, in order, that an acquire of the team in focus at a scope need not bring it (R272): at `.CL` (scope 0) those of other
clusters' homes that it has not seen. -/
def homeUnseen (s : State) (scope : Nat) : List (Nat × Nat × Byte) :=
  if scope = 0 then
    s.team.ver.stale ++ (s.ms.homeOld.filter fun x => x.2.1 != clusterOf s.team.pl.core && decide (s.team.ver.seen < x.1)).map
      fun x => (x.1, x.2.2)
  else []

/-- An acquire of the team in focus at a scope: holds are released, the next read fixes a new snapshot (R211, R225). It sees every earlier
publication, since each commits at the L2 (R213); of the home writes that its scope does not reach, a free value says which it sees
(R272). -/
def acquireNow (s : State) (scope : Nat) : State :=
  let skip := fun (st : Nat) => Config.freeChoice (s.free + st) % 2 == 1
  purge { s with
    free := s.free + s.ms.stamp + 1
    team := { s.team with ver := { acquire s.team.ver with seen := s.ms.stamp, stale := staleOf skip (homeUnseen s scope) } } }

/-- A phase boundary of the team in focus is complete; its acquire, if any, has a scope. -/
def phaseDone (s : State) (acq : Bool) (scope : Nat) : State :=
  let s1 := if acq then acquireNow s scope else s
  retire (s1.withTeam (nextPhase s1.team))

/-- PHASE (R225): kind 1 publishes, 2 acquires, 3 does both; a publication keeps the team waiting until it commits. -/
def execPhase (o : PhaseOp) (s : State) : Host.Outcome State Fault Refusal :=
  issue (.phase o) s fun s =>
    if o.kind = 2 then .next (phaseDone s true o.scope.toNat)
    else .next (s.withTeam { beginPublish s.team with wait := .publish o.scope.toNat (.phase (o.kind == 3)) false })

/-! ### The gang barrier (R224, R227) -/

/-- The generation of a team's pending arrival. -/
def pendingOf (g : Gang) (team : Nat) : Option Nat := (g.pendingArr.find? fun x => x.1 == team).map fun x => x.2

/-- Forget a pending arrival. -/
def dropPending (g : Gang) (team : Nat) : Gang := { g with pendingArr := g.pendingArr.filter fun x => x.1 != team }

/-- The generation completes when every live team has arrived. -/
def settleGang (g : Gang) : Gang := if g.live ≤ g.arrived then { g with gen := g.gen + 1, arrived := 0 } else g

/-- A team arrives, unless an arrival of it is pending. -/
def arrive (g : Gang) (team : Nat) : Gang :=
  match pendingOf g team with
  | some _ => settleGang g
  | none => settleGang { g with pendingArr := (team, g.gen) :: g.pendingArr, arrived := g.arrived + 1 }

/-- The barrier wait of the team in focus is over: it acquires at the BAR's scope. -/
def barrierDone (s : State) (scope : Nat) : State :=
  phaseDone (s.modGang s.team.pl.grid s.team.pl.gang fun g => dropPending g s.team.pl.team) true scope

/-- Whether a team waits for a generation of its gang that has completed. -/
def barrierOver (s : State) (t : Team) : Bool :=
  match t.wait, s.gangOf t with
  | .barrier gen _, some g => decide (gen < g.gen)
  | _, _ => false

/-- Every team whose barrier wait is over goes on. One that has left its group issues its BAR again, which does not arrive a second
time (R227). -/
def releaseWaiters (s : State) : State :=
  ((s.teams.filter fun t => barrierOver s t && t.stage == .resident).map fun t => t.uid).foldl
    (fun s uid => onTeam s uid fun s => match s.team.wait with
      | .barrier _ scope => if barrierOver s s.team then barrierDone s scope else s
      | _ => s) s

/-- The arrival of the team in focus and what follows it (R227). One that goes on to wait releases its holds (R212). -/
def arriveNow (s : State) (rlx arv : Bool) (scope : Nat) : State :=
  let t := s.team
  let s1 := s.modGang t.pl.grid t.pl.gang fun g => arrive g t.pl.team
  let s2 := if arv then
      (if rlx then retire s1 else retire (s1.withTeam (nextPhase s1.team)))
    else match (s1.gangOf t).bind fun g => pendingOf g t.pl.team with
      | some gen => acquireNow (s1.withTeam { s1.team with wait := .barrier gen scope }) scope
      | none => retire s1
  releaseWaiters s2

/-- BAR (R227); a team resumed from a posted record may not issue it (R300). -/
def execBar (o : BarOp) (s : State) : Host.Outcome State Fault Refusal :=
  issue (.bar o) s fun s =>
    let t := s.team
    let held := match s.gangOf t with
      | some g => match pendingOf g t.pl.team with
        | some gen => o.arv && decide (g.gen ≤ gen)
        | none => false
      | none => false
    if t.posted then .trap (trap12 t 6 0)
    else if held then .wait .wait
    else
      let s1 := if o.arv then s.modGang t.pl.grid t.pl.gang fun g => dropPending g t.pl.team else s
      if o.rlx then .next (arriveNow s1 true o.arv o.scope.toNat)
      else .next (s1.withTeam { beginPublish s1.team with wait := .publish o.scope.toNat (.barrier o.arv) false })

/-! ### Waiting for engines -/

/-- The pair's record is reported after the instruction (R242). -/
def reportMatrix (s : State) : State × Option Trap :=
  if s.team.pl.role = 2 then
    match pairOfTeam s s.team with
    | some p => if toReport p then (modTeamPair s s.team markReported, some (recordTrap p)) else (s, none)
    | none => (s, none)
  else (s, none)

/-- WAITC (R200): it reports the errors of what it waited for. -/
def execWaitc (o : WaitcOp) (s : State) : Host.Outcome State Fault Refusal :=
  issue (.waitc o) s fun s =>
    let t := s.team
    if (sget t o.a.toNat).toNat < t.eng.count o.path.toNat then .wait .wait
    else if o.path = 2 then .next (retireReport s (reportMatrix s))
    else
      let r := takeErr t fun e => e.path == o.path.toNat
      .next (retireReport s (s.withTeam r.2, r.1.map fun e => e.trap))

/-- Whether FENCE still has something to wait for (R226). Loads are not waited for. DESIGN CHOICE (log 100): in handler mode it waits for the
handler's own operations, not for those of the context that the handler saved. -/
def fenceBusy (e : Engines) : Bool :=
  (copiesOf e).any (fun c => !c.done) || !e.batches.isEmpty || !e.maint.isEmpty || e.ops.any fun o => o.path != 0

/-- The record of the pair, when a command of this team made it (R226). -/
def ownRecord (s : State) : Option Pair :=
  match pairOfTeam s s.team with
  | some p => if toReport p && p.err.uid == s.team.uid then some p else none
  | none => none

/-- The team with the failed copy of a tag reported while it was unsealed; what else has failed stays to be reported (R226). -/
def tellCopy (t : Team) (tag : Nat) : Team :=
  { t with eng := { t.eng with unsealed := t.eng.unsealed.map fun c => if c.tag == tag then { c with told := true } else c } }

/-- The earliest error that a FENCE finds in the team, one of an unsealed copy too, and the team with it reported. -/
def fenceErr (t : Team) : Option PendErr × Team :=
  let r := takeErr t fun _ => true
  match unsealedErr t.eng, r.1 with
  | [], _ => r
  | u :: _, none => (some u, tellCopy t u.tag)
  | u :: _, some e => if u.tag < e.tag then (some u, tellCopy t u.tag) else r

/-- FENCE (R226): it reports the error of the earliest failed operation. -/
def execFence (s : State) : Host.Outcome State Fault Refusal :=
  issue .fence s fun s =>
    let t := s.team
    if fenceBusy t.eng then .wait .fence
    else
      let r := fenceErr t
      match r.1, ownRecord s with
      | some e, some p =>
        if p.err.tag < e.tag then .next (retireReport s (modTeamPair s t markReported, some (recordTrap p)))
        else .next (retireReport s (s.withTeam r.2, some e.trap))
      | some e, none => .next (retireReport s (s.withTeam r.2, some e.trap))
      | none, _ => .next (retireReport s (reportMatrix s))

/-! ### L2 maintenance (R228) -/

/-- CLEANR, INVR and FLUSHR are queued; the base must be canonical. DESIGN CHOICE (log 100): in handler mode the saved context's operations do
not count toward the limit of 16 (R228), which R391 makes no exception for. -/
def maintOp (i : Instr) (o : RangeOp) (kind : MaintKind) (s : State) : Host.Outcome State Fault Refusal :=
  issue i s fun s =>
    let t := s.team
    let base := spair t (2 * o.a.toNat)
    let len := (sget t o.b.toNat).toNat
    if !canonical base then .trap (trap5 2 none base)
    else if len = 0 then .next (retire s)
    else if 16 ≤ t.eng.maint.length then .wait .counter
    else
      let m : MaintOp := { tag := t.nextTag, kind := kind, base := base, len := len }
      .next (retire (s.withTeam { t with nextTag := t.nextTag + 1, eng := { t.eng with maint := t.eng.maint ++ [m] } }))

/-- CLEANR. -/
def execCleanr (o : RangeOp) (s : State) : Host.Outcome State Fault Refusal := maintOp (.cleanr o) o .clean s
/-- INVR. -/
def execInvr (o : RangeOp) (s : State) : Host.Outcome State Fault Refusal := maintOp (.invr o) o .inv s
/-- FLUSHR. -/
def execFlushr (o : RangeOp) (s : State) : Host.Outcome State Fault Refusal := maintOp (.flushr o) o .flush s

/-- The 4 KiB pages a range's sectors touch, each with the first byte and the number of bytes in it. -/
def rangePages (base : DWord) (len : Nat) : List (DWord × Nat) :=
  let lo := base.toNat / 64 * 64
  let hi := (base.toNat + len + 63) / 64 * 64
  (List.range (hi / 4096 + 1 - lo / 4096)).filterMap fun k =>
    let a := max lo ((lo / 4096 + k) * 4096)
    let b := min hi ((lo / 4096 + k + 1) * 4096)
    if a < b then some (BitVec.ofNat 64 a, b - a) else none

/-- Translate pages until one fails or waits: how that ended, that page, and the physical ranges before it. -/
def transPages (t : Team) (tag : Nat) (acc : Access) : List (DWord × Nat) → State → List (Nat × Nat) →
    EngineXlate × DWord × List (Nat × Nat)
  | [], s, xs => (.ok 0 false 0 s, 0, xs)
  | (va, n) :: ps, s, xs =>
    match engineXlate s ((s.find t.uid).getD t) tag acc va with
    | .ok pa _ _ s1 => transPages t tag acc ps s1 (xs ++ [(pa, n)])
    | e => (e, va, xs)

/-- The action of R228 on one committed sector. -/
def maintSector (v : L2View) (kind : MaintKind) (ms : MemSide) (x : Sector) : MemSide :=
  match kind with
  | .clean => writeBack v ms x
  | .inv => dropSector ms x
  | .flush => flushSector v ms x

/-- Act on every sector the L2 holds in some physical ranges. -/
def maintRanges (v : L2View) (kind : MaintKind) (ms : MemSide) (rs : List (Nat × Nat)) : MemSide :=
  (ms.l2.filter fun x => rs.any fun r => decide (r.1 ≤ 64 * x.num ∧ 64 * x.num < r.1 + r.2)).foldl (maintSector v kind) ms

/-- Remove the maintenance operation with a tag. -/
def dropMaint (t : Team) (tag : Nat) : Team :=
  let f := fun (e : Engines) => { e with maint := e.maint.filter fun m => m.tag != tag }
  { t with eng := f t.eng, handler := t.handler.map fun h => { h with saved := f h.saved } }

/-- A team's outstanding maintenance operations, those of its saved image first. -/
def teamMaint (t : Team) : List MaintOp :=
  (match t.handler with | some h => h.saved.maint | none => []) ++ t.eng.maint

/-- MAINTENANCE_COMPLETE: a team's operation `idx` runs (R228); one that stops at a page is reported at the next FENCE. -/
def execMaintenanceComplete (uid idx : Nat) (s : State) : Host.Outcome State Fault Refusal :=
  match s.find uid with
  | none => .next s
  | some t =>
    match (teamMaint t)[idx]? with
    | none => .next s
    | some m =>
      let r := transPages t m.tag (if m.kind = .clean then .read else .write) (rangePages m.base m.len) s []
      let finish := fun (s : State) (err : Option Trap) =>
        let s0 := { s with ms := maintRanges (l2View s) m.kind s.ms r.2.2 }
        let s1 := if m.kind = .clean then s0 else dropClean r.2.2 s0
        s1.modTeam uid fun t =>
          let t1 := match err with | some tr => noteErr t m.tag 7 tr | none => t
          dropMaint t1 m.tag
      match r.1 with
      | .ok _ _ _ s1 => .next (finish s1 none)
      | .wait s1 => .next s1
      | .fail _ s1 => .next (finish s1 (some (trap5 9 none (r.2.1 &&& ~~~0xFFF))))

/-- ENTRY_RESOLVE: a home slice resolves a sector: the superseded bytes that no open snapshot can read any more are given
up (R209 step 4, R212). -/
def execEntryResolve (sector : Nat) (s : State) : Host.Outcome State Fault Refusal :=
  let p := purge s
  .next { s with ms := { s.ms with
    retained := s.ms.retained.filter (fun r => r.2.1 / 64 != sector || p.ms.retained.contains r),
    rawOld := s.ms.rawOld.filter fun r => r.2.1 / 4 != sector || p.ms.rawOld.contains r } }

end Sys2Proof.Machine
end

