-- ==== Sys2Proof/Machine/Vertex.lean ====
section
/-! DEFINITION. Vertex homes, combined updates, the vertex wave's batches and TWAIT, majors 0x50 to 0x54 (R251 to R269). -/

namespace Sys2Proof.Machine

/-! ### Requests -/

/-- Addresses that must lie in the region, then be translated with read and write permission (R260, R261). -/
def withRegion (s : State) (as : List (Nat × DWord)) (k : List LaneAcc → State → Result) : Result :=
  match as.find? fun x => !inRegion s x.2 with
  | some x => .trap (trap11 s.team 1 (some x.1) x.2)
  | none => withAcc s .rw false 1 as k

/-- The addresses of an AOP, checked: form, region, translation (R260). -/
def withVertex (s : State) (align : Nat) (as : List (Nat × DWord)) (k : List LaneAcc → State → Result) : Result :=
  match formOk align as with
  | some (L, va, e) => accessFault s (some L) .rw va e
  | none => withRegion s as k

/-- Issue requests: the destination becomes empty, the AT counter rises, each active lane's request leaves in ascending
lane order (R257, R260, R261). -/
def sendRequests (s : State) (d regs : Nat) (m : LaneSet) (xs : List LaneAcc) (kind : Nat → VReqKind) : Result :=
  let t := s.team
  let n := t.rf.n
  let qs := xs.map fun x => ({ uid := t.uid, tag := t.nextTag, lane := x.lane, home := homeOf s x.va, va := x.va,
                                 pa := x.pa, key := x.key, kind := kind x.lane } : VReq)
  let waits : LaneSet := laneSet n fun L => xs.any fun x => x.lane == L
  let t1 := addOp t 4 (.vec d m (List.replicate regs (List.replicate n 0))) waits xs.isEmpty
  .next (retire { s with team := t1, vx := { s.vx with travelling := s.vx.travelling ++ qs } })

/-- A lane's doubleword operand from two registers, or a word operand from one. -/
def aopArg (t : Team) (dw : Bool) (r L : Nat) : DWord :=
  if dw then pairOf (vget t r L) (vget t (r + 1) L) else (vget t r L).setWidth 64

/-- AOP (R260). -/
def aop (i : Instr) (o : AopOp) (op : AtomicOp) (s : State) : Host.Outcome State Fault Refusal :=
  issue i s fun s =>
    let t := s.team
    let dw := (hmodOf t).dw
    let k := if dw then 2 else 1
    let d := o.d.toNat
    if !hasRoom t 4 then .wait .counter
    else withVertex s (4 * k) (laneAddrs t o.g (memAddr t o.s o.a)) fun xs s =>
      sendRequests s d k (active t o.g) xs fun L =>
        .aop op dw (aopArg t dw d L) (if op = .cas then aopArg t dw (d + k) L else 0)

/-- AOP.ADD. -/
def execAopAdd (o : AopOp) (s : State) : Host.Outcome State Fault Refusal := aop (.aopAdd o) o .add s
/-- AOP.MIN. -/
def execAopMin (o : AopOp) (s : State) : Host.Outcome State Fault Refusal :=
  aop (.aopMin o) o (if o.u then .minU else .minS) s
/-- AOP.MAX. -/
def execAopMax (o : AopOp) (s : State) : Host.Outcome State Fault Refusal :=
  aop (.aopMax o) o (if o.u then .maxU else .maxS) s
/-- AOP.XCHG. -/
def execAopXchg (o : AopOp) (s : State) : Host.Outcome State Fault Refusal := aop (.aopXchg o) o .xchg s
/-- AOP.AND. -/
def execAopAnd (o : AopOp) (s : State) : Host.Outcome State Fault Refusal := aop (.aopAnd o) o .and s
/-- AOP.OR. -/
def execAopOr (o : AopOp) (s : State) : Host.Outcome State Fault Refusal := aop (.aopOr o) o .or s
/-- AOP.XOR. -/
def execAopXor (o : AopOp) (s : State) : Host.Outcome State Fault Refusal := aop (.aopXor o) o .xor s
/-- AOP.CAS. -/
def execAopCas (o : AopOp) (s : State) : Host.Outcome State Fault Refusal := aop (.aopCas o) o .cas s

/-- CALLM (R261). -/
def execCallm (o : CallmOp) (s : State) : Host.Outcome State Fault Refusal :=
  issue (.callm o) s fun s =>
    let t := s.team
    if !hasRoom t 4 then .wait .counter
    else
      let addr := fun L => vbase s + ((vget t o.a.toNat L).setWidth 64 : DWord) * 64
      withRegion s (laneAddrs t o.g addr) fun xs s =>
        sendRequests s o.d.toNat 1 (active t o.g) xs fun L => .call o.m.toNat (vget t o.d.toNat L)

/-! ### The homes -/

/-- An object's header, if it is well formed: SIZE and CLASS (R254). -/
def headerOf (ms : MemSide) (k pa : Nat) : Option (Nat × Nat) :=
  let w := ofLeBytes (commBytesK ms k pa 4)
  if bitsOf w 20 12 = 0 ∧ bitsOf w 10 6 = 0 ∧ bitsOf w 16 4 ≤ 6 then some (bitsOf w 16 4, bitsOf w 0 10) else none

/-- The 64-byte blocks of virtual addresses a request touches (R258). DESIGN CHOICE (log 101): a call whose object header is ill-formed, so
that its cell has no size, touches its first block. -/
def reqBlocks (ms : MemSide) (q : VReq) : List Nat :=
  match q.kind with
  | .aop _ _ _ _ => [q.va.toNat / 64]
  | .call _ _ => match headerOf ms q.key q.pa with
    | some (size, _) => regsFrom (q.va.toNat / 64) (2 ^ size)
    | none => [q.va.toNat / 64]

/-- The blocks an open batch locks (R263). -/
def lockedBlocks (h : Home) : List Nat :=
  match h.batch with
  | some b => regsFrom (b.va.toNat / 64) (2 ^ b.size)
  | none => []

/-- Whether two block lists meet. -/
def meets (a b : List Nat) : Bool := a.any fun x => b.contains x

/-- The refusal a home gives a call, if any (R259): 5 where it has stopped (R266), otherwise the lowest value that applies. -/
def refusalOf (s : State) (q : VReq) : Option Nat :=
  match q.kind with
  | .aop _ _ _ _ => none
  | .call m _ =>
    if (s.vx.homes.getD q.home Home.empty).stopped then some 5
    else match headerOf s.ms q.key q.pa with
    | none => some 1
    | some (size, cls) =>
      match s.vx.classes.find? fun c => c.1 == cls with
      | none => some 2
      | some (_, table) =>
        if cls = 0 then some 2
        else if !(table.getD m 0).getLsbD 0 then some 3
        else if q.va.toNat % (64 * 2 ^ size) ≠ 0 then some 4
        else none

/-- The first request of a queue that may act: no older one touches its blocks, none of its blocks is locked (R258). -/
def eligible (ms : MemSide) (locked : List Nat) (ok : VReq → Bool) : List Nat → List VReq → Option VReq
  | _, [] => none
  | seen, q :: qs =>
    let bs := reqBlocks ms q
    if ok q && !meets bs seen && !meets bs locked then some q else eligible ms locked ok (bs ++ seen) qs

/-- Remove one request. -/
def dropReq (h : Home) (q : VReq) : Home := { h with queue := h.queue.erase q }

/-- The combine stage's function (R260). -/
def atomicFn (op : AtomicOp) (dw : Bool) (old x new : DWord) : DWord :=
  let lt := if dw then old.slt x else (loHalf old).slt (loHalf x)
  match op with
  | .add => old + x
  | .minS => if lt then old else x
  | .maxS => if lt then x else old
  | .minU => if old.ult x then old else x
  | .maxU => if old.ult x then x else old
  | .xchg => x
  | .and => old &&& x
  | .or => old ||| x
  | .xor => old ^^^ x
  | .cas => if old = x then new else old

/-- VERTEX_REQUEST_ARRIVAL: travelling request `idx` reaches its home (R257): after those of its team to that home that left
before it, and only while the queue has room. -/
def execVertexRequestArrival (idx : Nat) (s : State) : Host.Outcome State Fault Refusal :=
  match s.vx.travelling[idx]? with
  | none => .next s
  | some q =>
    let home := s.vx.homes.getD q.home Home.empty
    if (s.vx.travelling.take idx).any fun p => p.uid == q.uid && p.home == q.home then .next s
    else if 2048 ≤ home.queue.length then .next s
    else
      let s1 := { s with vx := { s.vx with travelling := s.vx.travelling.eraseIdx idx } }
      .next (modHome s1 q.home fun h => { h with queue := h.queue ++ [q] })

/-- COMBINE_ATOMIC: a home performs its first atomic that may act, or refuses its first call that must be refused
(R258 to R260). -/
def execCombineAtomic (home : Nat) (s : State) : Host.Outcome State Fault Refusal :=
  let h := s.vx.homes.getD home Home.empty
  match eligible s.ms (lockedBlocks h) (fun q => !q.isCall || (refusalOf s q).isSome) [] h.queue with
  | none => .next s
  | some q =>
    let s1 := modHome s home fun h => dropReq h q
    match q.kind with
    | .call _ _ => .next (replyTo s1 q [BitVec.ofNat 32 (3 * 2 ^ 30 + (refusalOf s q).getD 1)])
    | .aop op dw x new =>
      let n := if dw then 8 else 4
      let old : DWord := BitVec.ofNat 64 (ofLeBytes (commBytesK s.ms q.key q.pa n))
      let s2 := homeWrite s1 home q.key (cellsAt q.pa (leBytes n (atomicFn op dw old x new).toNat))
      .next (replyTo s2 q (if dw then [loHalf old, hiHalf old] else [loHalf old]))

/-! ### The vertex wave -/

/-- Requests that join a batch (R263): those for the same object and method, in arrival order, up to the first request
that touches the cell otherwise, at most `n`. -/
def joinBatch (ms : MemSide) (first : VReq) (cell : List Nat) : Nat → List VReq → List VReq
  | 0, _ => []
  | _, [] => []
  | n + 1, q :: qs =>
    let same := match q.kind, first.kind with
      | .call m _, .call k _ => m == k && q.va == first.va
      | _, _ => false
    if same then q :: joinBatch ms first cell n qs
    else if meets (reqBlocks ms q) cell then [] else joinBatch ms first cell (n + 1) qs

/-- The argument of a call. -/
def reqArg (q : VReq) : Word := match q.kind with | .call _ x => x | _ => 0

/-- The method of a call. -/
def reqMethod (q : VReq) : Nat := match q.kind with | .call m _ => m | _ => 0

/-- CBATCH (R263): the wave waits until a batch can be formed. -/
def execCbatch (o : CbatchOp) (s : State) : Host.Outcome State Fault Refusal :=
  issue (.cbatch o) s fun s =>
    let t := s.team
    let hn := clusterOf t.pl.core
    let h := s.vx.homes.getD hn Home.empty
    if h.batch.isSome || !t.ctl.stack.isEmpty then .trap (trap11 t 4 none 0)
    else match eligible s.ms [] (fun q => q.isCall && (refusalOf s q).isNone) [] h.queue with
      | none => .wait .batch
      | some first =>
        match headerOf s.ms first.key first.pa with
        | none => .wait .batch
        | some (size, cls) =>
          let cell := reqBlocks s.ms first
          let later := (h.queue.dropWhile fun q => q != first).drop 1
          let reqs := first :: joinBatch s.ms first cell 31 later
          let n := reqs.length
          let m := reqMethod first
          let entry := (((s.vx.classes.find? fun c => c.1 == cls).map fun c => c.2.getD m 0).getD 0)
          let b : VBatch := { reqs := reqs, va := first.va, pa := first.pa, key := first.key, size := size, cls := cls, method := m,
                              slots := List.replicate n none, buffer := [] }
          let s1 := modHome s hn fun h => { h with batch := some b, queue := h.queue.filter fun q => !reqs.contains q }
          let a := 4 * o.a.toNat
          let t1 := setV t o.d.toNat (allLanes n) fun L => (reqs[L]?.map reqArg).getD 0
          let t2 := setPair t1 a first.va
          let t3 := setS t2 (a + 2) (BitVec.ofNat 32 (cls * 2 ^ 22 + m * 2 ^ 16 + size * 2 ^ 12 + n))
          let t4 := setS t3 (a + 3) (entry &&& ~~~3)
          .next (retire (s1.withTeam { t4 with ctl := { t4.ctl with mask := allLanes n } }))

/-- CREPLY (R264). -/
def execCreply (o : CreplyOp) (s : State) : Host.Outcome State Fault Refusal :=
  issue (.creply o) s fun s =>
    let t := s.team
    let hn := clusterOf t.pl.core
    match (s.vx.homes.getD hn Home.empty).batch with
    | none => .trap (trap11 t 4 none 0)
    | some b =>
      let lanes := (lanesOf t.rf.n t.ctl.mask).filter fun L => decide (L < b.reqs.length)
      match lanes.find? fun L => decide (2 ≤ (vget t o.b.toNat L).toNat % 4) with
      | some L => .trap (trap11 t 5 (some L) 0)
      | none =>
        let word := fun L => BitVec.ofNat 32 ((vget t o.b.toNat L).toNat % 4 * 2 ^ 30 + (vget t o.a.toNat L).toNat % 2 ^ 30)
        let slots := lanes.foldl (fun sl L => sl.set L (some (word L))) b.slots
        .next (retire (modHome s hn fun h => { h with batch := some { b with slots := slots } }))

/-- CDONE (R265): the cell's write takes its place in the device order, then the replies are released. -/
def execCdone (s : State) : Host.Outcome State Fault Refusal :=
  issue .cdone s fun s =>
    let t := s.team
    let hn := clusterOf t.pl.core
    match (s.vx.homes.getD hn Home.empty).batch with
    | none => .trap (trap11 t 4 none 0)
    | some b =>
      if !t.ctl.stack.isEmpty || !t.ctl.loops.isEmpty then .trap (trap11 t 4 none 0)
      else
        let s1 := homeWrite s hn b.key b.buffer
        let s2 := (b.reqs.zip b.slots).foldl (fun s x => replyTo s x.1 [x.2.getD 0x7FFFFFFF]) s1
        let s3 := modHome s2 hn fun h => { h with batch := none, seq := h.seq + 1 }
        .next (retire { s3 with team := { s3.team with ctl := { s3.team.ctl with mask := allLanes 32 } } })

/-- MREG (R256): the table is copied into the class store of every home. -/
def execMreg (o : MregOp) (s : State) : Host.Outcome State Fault Refusal :=
  issue (.mreg o) s fun s =>
    let t := s.team
    let va := spair t (2 * o.b.toNat)
    let cls := (sget t o.a.toNat).toNat
    match checkLanes s .read true 256 [(0, va)] with
    | .error (_, va, e) => accessFault s none .read va e
    | .ok xs =>
      let s1 := noteReads { s with ms := cacheLeaves t s.ms xs } none 0 false (xs.flatMap fun x => sectorAccs x 256)
      let table : List Word := match xs with
        | x :: _ => wordsOf 64 (seeBytes s x 256)
        | [] => []
      if xs.any fun x => (sectorAccs x 256).any fun y => scattering t (y.pa / 64) then .wait .wait
      else if let some tr := poisoned s1 then .trap tr
      else if cls = 0 ∨ 1023 < cls ∨ table.any fun w => w.getLsbD 1 then .trap (trap11 t 6 none va)
      else
        .next (retire { s1 with vx := { s1.vx with classes := (cls, table) :: s.vx.classes.filter fun c => c.1 != cls } })

/-! ### TWAIT (R268, R269) -/

/-- The watch point of a sector: where the held state was fixed, else the snapshot point; a home write there that the team has not seen
comes after it (R268, R272). -/
def watchPoint (ms : MemSide) (v : Version) (n : Nat) : Nat :=
  let fixed := match v.cuts.find? fun c => c.1 == n with
    | some (_, some st) => st
    | _ => v.snap.getD ms.stamp
  v.stale.foldl (fun m x => if x.2.1 / 64 = n then min m (x.1 - 1) else m) fixed

/-- Whether a polled sector has been written after its watch point. -/
def pollHit (ms : MemSide) (p : Nat × Nat × Nat) : Bool := decide (p.2.2 < lastWrite ms p.2.1)

/-- The team in focus wakes from TWAIT: the predicate, the release of the polled sectors, and on. A team that has left its group
takes the predicate when it is restored (R269); a continuation is queued. -/
def twaitDone (s : State) (w : Twait) : State :=
  let t := s.team
  let lanes := laneSet t.rf.n fun L => w.polls.any fun p => p.1 == L
  let hits := laneSet t.rf.n fun L => w.polls.any fun p => p.1 == L && pollHit s.ms p
  let d := Dst.pred w.p.toNat lanes hits
  let t1 := if t.stage = .resident then fillDst t d else { t with late := some d }
  let s1 := endWait (s.withTeam { t1 with ver := release t1.ver (w.polls.map fun p => p.2.1), wait := .ready })
  match t.stage with
  | .cont k _ => queueCont s1 k
  | _ => s1

/-- TWAIT (R268). -/
def execTwait (o : TwaitOp) (s : State) : Host.Outcome State Fault Refusal :=
  issue (.twait o) s fun s =>
    let t := s.team
    if active t o.g = 0 then .next (retire s)
    else withAcc s .read false 1 (laneAddrs t o.g (memAddr t o.s o.a)) fun xs s =>
      let v := t.ver
      let v1 := { v with snap := some (v.snap.getD s.ms.stamp) }
      let ticks := (sget t o.d.toNat).toNat
      let w : Twait := { polls := xs.map fun x => (x.lane, x.pa / 64, watchPoint s.ms v1 (x.pa / 64)),
                         limit := s.cycle + BitVec.ofNat 64 ticks, p := o.p, long := decide (16384 ≤ ticks) }
      let s1 := s.withTeam { t with ver := v1 }
      if ticks = 0 ∨ w.polls.any (pollHit s.ms) then .next (twaitDone s1 w)
      else .next { s1 with team := { s1.team with wait := .twait w } }

/-- The team in focus has parked and fetches its body words anew (R131). -/
def unbuffer (s : State) : State := s.withTeam { s.team with ctl := { s.team.ctl with buffer := [] } }

/-- TWAIT_WAKE: the polled sectors were written, the time has run out, or the part wakes the team earlier (R268); a team that a long TWAIT parked
refills its loop buffer (R47, R131). -/
def execTwaitWake (uid : Nat) (s : State) : Host.Outcome State Fault Refusal :=
  .next (onTeam s uid fun s => match s.team.wait, s.team.stage with
    | _, .ended => s
    | .twait w, _ => if w.long then unbuffer (twaitDone s w) else twaitDone s w
    | _, _ => s)

end Sys2Proof.Machine
end

