-- ==== Sys2Proof/Machine/Launch.lean ====
section
/-! DEFINITION. Launch records and grids, stage rings and the global task queue, majors 0x55 and 0x56 (R285 to R308). -/

namespace Sys2Proof.Machine

/-! ### Launch records (R285 to R289) -/

/-- A word of a record of 64-bit words. -/
def wordAt (r : List DWord) (k : Nat) : Nat := (r.getD k 0).toNat

/-- TEAMCFG. -/
def teamCfg (r : List DWord) : Nat := bitsOf (wordAt r 4) 0 32
/-- GANGCFG. -/
def gangCfg (r : List DWord) : Nat := bitsOf (wordAt r 4) 32 32
/-- MEMCFG. -/
def memCfg (r : List DWord) : Nat := bitsOf (wordAt r 5) 0 32
/-- GDIM k. -/
def gdim (r : List DWord) (k : Nat) : Nat := bitsOf (wordAt r 3) (16 * k) 16
/-- The number of gangs. -/
def gangCount (r : List DWord) : Nat := gdim r 0 * gdim r 1 * gdim r 2
/-- P. -/
def prefSize (r : List DWord) : Nat := bitsOf (gangCfg r) 0 7
/-- F. -/
def fallSize (r : List DWord) : Nat := bitsOf (gangCfg r) 8 7
/-- The role of `%team` e. -/
def roleAt (r : List DWord) (e : Nat) : Nat := bitsOf (wordAt r (6 + e / 32)) (2 * (e % 32)) 2
/-- N. -/
def recLanes (r : List DWord) : Nat := lanesOfCode (bitsOf (teamCfg r) 0 3)
/-- V. -/
def recRegs (r : List DWord) : Nat := 8 * (bitsOf (teamCfg r) 8 4 + 1)
/-- PRIO. -/
def recPrio (r : List DWord) : Nat := bitsOf (teamCfg r) 12 4
/-- PRIV. -/
def recPriv (r : List DWord) : Bool := bitsOf (teamCfg r) 20 1 == 1
/-- `l1=` in 64 KiB blocks. -/
def recL1 (r : List DWord) : Nat := bitsOf (memCfg r) 16 4
/-- SCRATCH in KiB. -/
def recScratch (r : List DWord) : Nat := bitsOf (memCfg r) 0 12
/-- The clusters of CLUSTERS. -/
def recClusters (r : List DWord) : BitVec 24 :=
  let m : BitVec 24 := BitVec.ofNat 24 (bitsOf (wordAt r 5) 32 24)
  if m = 0 then BitVec.allOnes 24 else m
/-- The address from which code offsets count (R285). -/
def recBase (r : List DWord) : DWord := if r.getD 20 0 = 0 then r.getD 0 0 else r.getD 20 0

/-- The reserved bits of a record (R285 to R287). -/
def recReserved (r : List DWord) : Bool :=
  bitsOf (wordAt r 3) 48 16 != 0 || bitsOf (teamCfg r) 21 11 != 0 || bitsOf (teamCfg r) 3 5 != 0
    || bitsOf (gangCfg r) 15 17 != 0 || bitsOf (gangCfg r) 7 1 != 0 || bitsOf (memCfg r) 20 12 != 0
    || bitsOf (memCfg r) 12 4 != 0 || bitsOf (wordAt r 5) 56 8 != 0
    || (List.range 11).any fun k => wordAt r (21 + k) != 0

/-- A code address of a record (R285). -/
def codeOk (a : DWord) : Bool := a.toNat % 4 == 0 && canonical a

/-- Matrix entries among the first `n` roles. -/
def matrixCount (r : List DWord) (n : Nat) : Nat := ((List.range n).filter fun e => roleAt r e == 2).length

/-- The roles against R37, R38 and R58, and the entries at or above P. -/
def rolesOk (r : List DWord) : Bool :=
  let p := prefSize r
  ((List.range 64).all fun e => if e < p then roleAt r e != 3 else roleAt r e == 0)
    && matrixCount r p % 8 == 0 && matrixCount r (fallSize r) % 8 == 0 && decide (matrixCount r p ≤ 32)
    && (matrixCount r p == 0 || recLanes r == 32)

/-- A governor entry (R288). -/
def govOk (g : DWord) : Bool :=
  let x := g.toNat
  if bitsOf x 63 1 = 0 then x == 0
  else bitsOf x 60 3 == 0 && bitsOf x 47 1 == 0 && bitsOf x 39 1 == 0 && bitsOf x 29 3 == 0 && bitsOf x 13 3 == 0
    && decide (bitsOf x 40 7 ≤ 64) && decide (bitsOf x 32 7 ≤ 64)
    && decide (bitsOf x 16 13 < bitsOf x 0 13) && decide (bitsOf x 0 13 ≤ 4096)

/-- A bad launch record (R289), launched where a privileged grid may be (`priv`) or not, within the parent's clusters. -/
def badRecord (r : List DWord) (priv : Bool) (within : BitVec 24) : Bool :=
  recReserved r || decide (5 < bitsOf (teamCfg r) 0 3) || decide (7 < bitsOf (teamCfg r) 8 4)
    || decide (4 < bitsOf (teamCfg r) 17 3) || !codeOk (r.getD 0 0) || !codeOk (r.getD 20 0)
    || gangCount r == 0 || decide (2 ^ 24 < gangCount r)
    || fallSize r == 0 || decide (prefSize r < fallSize r) || decide (64 < prefSize r) || !rolesOk r
    || recL1 r == 0 || decide (8 < recL1 r) || decide (512 * (8 - recL1 r) < recScratch r)
    || recClusters r &&& within == 0 || (List.range 4).any (fun k => !govOk (r.getD (8 + k) 0))
    || (List.range 8).any (fun k => !slotOk (r.getD (12 + k) 0)) || (recPriv r && !priv)

/-! ### Starting a grid -/

/-- The clusters of a set, ascending. -/
def clustersIn (m : BitVec 24) : List Nat := (List.range 24).filter fun c => m.getLsbD c

/-- Seed the generators of every group of the core set (R155). -/
def seedCores (s : State) (seed : DWord) (m : BitVec 24) : State :=
  let gs := (clustersIn m).flatMap fun c => regsFrom (32 * c) 32
  { s with gens := gs.map (fun g => (g, seedGen seed g)) ++ s.gens.filter fun x => !gs.contains x.1 }

/-- Start a grid (R282, R291, R294, R306): it has the next id. DESIGN CHOICE (log 102): its first gang, before which none was placed, is tried
in cluster 0 first (R293). -/
def startGrid (s : State) (r : List DWord) (by_ : Launcher) (asid prio depth : Nat) (within : BitVec 24) : State :=
  let m := recClusters r &&& within
  let g : Grid := { id := s.sched.nextGrid, from_ := by_, rec_ := r, asid := asid, prio := prio, depth := depth,
                    priv := recPriv r, cores := m, since := s.cycle, next := 0, size := gangCount r, last := 23,
                    fatal := false }
  let s1 := seedCores s (r.getD 2 0) m
  { s1 with sched := { s1.sched with grids := s1.sched.grids ++ [g], nextGrid := s1.sched.nextGrid + 1 } }

/-- Whether another grid may live (R291). -/
def gridRoom (s : State) : Bool := decide (s.sched.grids.length < 4096)

/-- The clusters a team's grid may use. -/
def coresOf (s : State) (t : Team) : BitVec 24 := ((s.gridOf t.pl.grid).map fun g => g.cores).getD (BitVec.allOnes 24)

/-- 64-bit words of little-endian bytes. -/
def dwordsOf (k : Nat) (bs : List Byte) : List DWord :=
  (List.range k).map fun j => BitVec.ofNat 64 (ofLeBytes ((bs.drop (8 * j)).take 8))

/-! ### Reading a record under the phase rules -/

/-- Read `len` bytes at an aligned address as the team reads memory (R184, R211), page by page. -/
def withBytes (align : Nat) (s : State) (va : DWord) (len : Nat) (k : List Byte → State → Result) : Result :=
  let pages := rangePages va len
  match checkLanes s .read true align ((0, va) :: (pages.drop 1).map fun p => (0, p.1)) with
  | .error (_, a, e) => accessFault s none .read a e
  | .ok xs =>
    let parts := xs.zip (pages.map fun p => p.2)
    let accs := parts.flatMap fun p => sectorAccs p.1 p.2
    if accs.any fun x => scattering s.team (x.pa / 64) then .wait .wait
    else
      let s1 := noteReads { s with ms := cacheLeaves s.team s.ms xs } none 0 false accs
      match poisoned s1 with
      | some tr => .trap tr
      | none => k (parts.flatMap fun p => seeBytes s p.1 p.2) s1

/-- Read a 256-byte-aligned record (R306, R307). -/
def withRecord (s : State) (va : DWord) (len : Nat) (k : List Byte → State → Result) : Result := withBytes 256 s va len k

/-- The children a team may have (R306). -/
def childMax : Nat := 256

/-- Whether a record's address passes the first line of R306. -/
def recordReadable (s : State) (va : DWord) (len : Nat) : Bool :=
  match checkLanes s .read true 256 ((0, va) :: ((rangePages va len).drop 1).map fun p => (0, p.1)) with
  | .ok _ => true
  | .error _ => false

/-- LAUNCH (R306): the address's checks come first, then the depth, then the record is read. -/
def execLaunch (o : X1) (s : State) : Host.Outcome State Fault Refusal :=
  issue (.launch o) s fun s =>
    let t := s.team
    let va := spair t (2 * o.a.toNat)
    if t.pl.depth = 10 && recordReadable s va 256 then .trap (trap12 t 2 0)
    else withRecord s va 256 fun bs s =>
      let r := dwordsOf 32 bs
      if badRecord r t.pl.priv (coresOf s t) then .trap (trap12 t 1 va)
      else if childMax ≤ t.children.length || !gridRoom s then .wait .room
      else
        let prio := if t.pl.priv then recPrio r else min (recPrio r) t.pl.prio
        let s1 := startGrid s r (.team t.uid t.pl.grid) t.pl.asid prio (t.pl.depth + 1) (coresOf s t)
        .next (retire (s1.withTeam { s1.team with children := s1.team.children ++ [s.sched.nextGrid] }))

/-! ### Posting a continuation (R299, R307) -/

/-- Entries of the continuation pool (R274). -/
def poolEntries (s : State) : Nat := (s.sched.cpool.extractLsb' 0 16).toNat

/-- The lowest free pool entry. -/
def freePool (s : State) : Option Nat := (List.range (poolEntries s)).find? fun k => !s.sched.poolUsed.contains k

/-- The physical address of pool entry `k`. -/
def poolPa (s : State) (k : Nat) : Nat := s.sched.cpool.toNat / 65536 * 65536 + 69632 * k

/-- Bytes of the record whose header says N and V; none when they are ill-formed (R50, R51). -/
def recordLen (bs : List Byte) : Option Nat :=
  let h := numAt bs 0 128
  let nv := bitsOf h 20 5
  if (nv = 8 ∨ nv = 16) ∧ bitsOf h 25 3 ≤ 5 then some (0xA00 + 4 * nv * lanesOfCode (bitsOf h 25 3)) else none

/-- The continuation a posted record becomes: what it does not hold is as R48, R88 and R102 give it at resumption. -/
def postedTeam (s : State) (r : Saved) (k : Nat) : Team :=
  let t := s.team
  let vid : Word := BitVec.ofNat 32 s.sched.nextVid
  let core := r.home * 8
  let size := ((s.gangs.find? fun g => g.grid == r.grid && g.idx == r.gang).map fun g => g.size).getD t.pl.gangsz
  let base := { Team.absent with
    uid := s.sched.nextUid, cont := BitVec.ofNat 32 s.sched.nextCont, posted := true,
    ver := { Version.fresh with seen := s.ms.stamp },
    pl := { t.pl with core := core, group := 0, slot := 0, gang := r.gang, team := r.team, gangsz := size,
                      gangBound := r.gangBound } }
  let u := applySaved base r
  let q : Queued := { since := s.cycle, place := s.sched.nextPlace, target := targetOf s u, anywhere := false }
  { u with stage := .cont k (some q), rf := { u.rf with fs := t.rf.fs }, sp := { u.sp with vid := vid, phase := 0 } }

/-- Write a team's record into its pool entry. -/
def writePool (s : State) (t : Team) (k : Nat) (pc : DWord) (detail : Word) (reason : Nat) : State :=
  immediate s (cellsAt (poolPa s k) (contBytes t pc t.cont detail reason t.pl.gangBound))

/-- The record is the poster's to post (R307). -/
def postOk (s : State) (r : Saved) : Bool :=
  r.grid == s.team.pl.grid
    && (!r.gangBound || s.gangs.any fun g => g.grid == r.grid && g.idx == r.gang)

/-- POSTC (R307). -/
def execPostc (o : X1) (s : State) : Host.Outcome State Fault Refusal :=
  issue (.postc o) s fun s =>
    let t := s.team
    let va := spair t (2 * o.a.toNat)
    withRecord s va 0xA00 fun bs s =>
      match recordLen bs with
      | none => .trap (trap12 t 4 va)
      | some len => withRecord s va len fun bs s =>
        match readSaved bs false with
        | none => .trap (trap12 t 4 va)
        | some r =>
          if postOk s r then
            match freePool s with
            | none => .wait .room
            | some k =>
              let u := postedTeam s r k
              let s1 := { s with
                others := s.others ++ [u],
                sched := { s.sched with poolUsed := k :: s.sched.poolUsed, nextUid := s.sched.nextUid + 1,
                                        nextVid := s.sched.nextVid + 1, nextCont := s.sched.nextCont + 1,
                                        nextPlace := s.sched.nextPlace + 1 } }
              .next (retire (writePool s1 u k u.ctl.pc (BitVec.ofNat 32 (bitsOf (numAt bs 0 128) 64 32)) 0))
          else .trap (trap12 t 4 va)

/-! ### Waiting for grids (R302, R303, R305) -/

/-- Whether a grid was launched by a graph node. -/
def fromNode (g : Grid) : Bool := match g.from_ with | .node _ _ => true | _ => false

/-- TRIG (R302): no effect in a grid that is no graph node. -/
def execTrig (s : State) : Host.Outcome State Fault Refusal :=
  issue .trig s fun s =>
    let t := s.team
    let node := match s.gridOf t.pl.grid with | some g => fromNode g | none => false
    .next (retire (if node then s.withTeam { t with book := { t.book with trig := true } } else s))

/-- Whether a grid is triggered (R302): every gang is placed, and every team of a gang has triggered or ended. -/
def triggered (s : State) (g : Grid) : Bool :=
  decide (g.size ≤ g.next) && s.teams.all fun t =>
    t.kind != .core || t.pl.grid != g.id || t.stage == .ended || t.posted || t.book.trig

/-- Whether the grid of a node's KERNEL predecessor has triggered or retired (R303). -/
def nodeTriggered (s : State) : NodeState → Bool
  | .waiting => false
  | .grid id => match s.gridOf id with | some g => triggered s g | none => true
  | _ => true

/-- The kind of a node (R277). -/
def nodeKind (g : Graph) (n : Nat) : Nat := bitsOf (wordAt (g.nodes.getD n []) 0) 0 4
/-- EARLY. -/
def nodeEarly (g : Graph) (n : Nat) : Bool := bitsOf (wordAt (g.nodes.getD n []) 0) 8 1 == 1
/-- NPRED. -/
def nodePreds (g : Graph) (n : Nat) : Nat := bitsOf (wordAt (g.nodes.getD n []) 0) 48 16
/-- The successors of a node: edges SUCC_BASE on. -/
def nodeSuccs (g : Graph) (n : Nat) : List Nat :=
  let w := wordAt (g.nodes.getD n []) 1
  (g.edges.drop (bitsOf w 0 32)).take (bitsOf w 32 16)
/-- An argument of a node (R278). -/
def nodeArg (g : Graph) (n k : Nat) : DWord := (g.nodes.getD n []).getD (4 + k) 0
/-- The predecessors of a node. -/
def predsOf (g : Graph) (n : Nat) : List Nat := (List.range g.nodes.length).filter fun m => (nodeSuccs g m).contains n

/-- The graph in a slot. -/
def graphAt (s : State) (g : Nat) : Option Graph := (s.sched.graphs.getD g GraphSlot.empty).graph

/-- Whether the condition WAITDEP waits for holds for a team (R303). -/
def depMet (s : State) (t : Team) : Bool :=
  match s.gridOf t.pl.grid with
  | none => true
  | some g => match g.from_ with
    | .node gr nd => match graphAt s gr with
      | some g => !nodeEarly g nd || (predsOf g nd).all fun p =>
          nodeKind g p != 0 || nodeTriggered s (g.states.getD p .waiting)
      | none => true
    | _ => true

/-- WAITDEP (R303). -/
def execWaitdep (s : State) : Host.Outcome State Fault Refusal :=
  issue .waitdep s fun s => if depMet s s.team then .next (retire s) else .wait .waitdep

/-- Whether a freeze holds a team (R396): another team of its gang is in handler mode after a FREEZE step trap. -/
def frozen (s : State) (t : Team) : Bool :=
  s.teams.any fun u => u.uid != t.uid && u.kind == .core && u.handler.isSome && u.book.freeze && u.pl.grid == t.pl.grid
    && u.pl.gang == t.pl.gang

/-- Whether a team leaves its group because a core has failed (R13): one on the core, and a matrix team with the rest of its pair (R232). -/
def leaves (s : State) (t : Team) : Bool :=
  t.kind == .core && t.stage == .resident
    && s.mgmt.fenced.any fun k => k == t.pl.core || (t.pl.role == 2 && k / 2 == t.pl.core / 2 && s.teams.any fun u =>
      u.kind == .core && u.stage == .resident && u.pl.core == k && u.pl.role == 2 && u.pl.grid == t.pl.grid && u.pl.gang == t.pl.gang
        && u.pl.pair == t.pl.pair)

/-- Whether a team is ready (R41). A team that leaves a failed core issues no more (R13, R399). A step begins by trying every team's next instruction, so `.ready` says that it can issue. DESIGN CHOICE
(log 102): a team that its own YIELD passes over is not ready, for another team's YIELD and for its boost count (R43, R304). -/
def isReady (s : State) (t : Team) : Bool :=
  t.stage == .resident && t.wait == .ready && t.late.isNone && t.uid != 0 && !frozen s t && !leaves s t

/-- The cycles a YIELD lasts at most (R304). -/
def yieldCycles : Nat := 64

/-- YIELD (R304): the team waits in it until the ready teams of its group have issued or its time has run out. -/
def execYield (s : State) : Host.Outcome State Fault Refusal :=
  issue .yield s fun s =>
    let t := s.team
    let us := (s.others.filter fun o => isReady s o && o.pl.core == t.pl.core && o.pl.group == t.pl.group
      && o.kind != .stratum).map fun o => o.uid
    if us.isEmpty then .next (retire s)
    else .next (s.withTeam { t with wait := .yield, book := { t.book with yieldTo := us, yieldUntil := s.arith + yieldCycles } })

/-- JOINK (R305). -/
def execJoink (s : State) : Host.Outcome State Fault Refusal :=
  issue .joink s fun s => if s.team.children.isEmpty then .next (retire s) else .wait .joink

/-! ### Stage rings (R296 to R298, R308) -/

/-- A little-endian number of `n` bytes of the gang's scratchpad. -/
def scrNum (s : State) (t : Team) (off n : Nat) : Nat := ofLeBytes ((List.range n).map fun k => scrByte s t (off + k))

/-- The header of a ring. -/
structure RingHdr where
  logcap : Nat
  gid : Nat
  head : Nat
  tail : Nat
  ok : Bool
  deriving DecidableEq, Repr

/-- Slots put and not taken. -/
def RingHdr.occ (r : RingHdr) : Nat := (r.tail + 2 ^ 32 - r.head) % 2 ^ 32

/-- Read a ring's header (R296). -/
def ringHdr (s : State) (t : Team) (h : Nat) : RingHdr :=
  let x := scrNum s t h 16
  let r : RingHdr := { logcap := bitsOf x 0 4, gid := bitsOf x 4 3, head := bitsOf x 32 32, tail := bitsOf x 64 32, ok := true }
  { r with ok := bitsOf x 7 25 == 0 && bitsOf x 96 32 == 0 && decide (1 ≤ r.logcap ∧ r.logcap ≤ 12)
      && (decide (r.gid < 4) || r.gid == 7) && decide (r.occ ≤ 2 ^ r.logcap) }

/-- The checks of a ring operation (R308): the ring's extent is known when LOGCAP is well formed. -/
def ringCheck (s : State) (h : Nat) : Option Trap :=
  let t := s.team
  let va : DWord := BitVec.ofNat 64 h
  if h % 16 ≠ 0 then some (trap5 1 none va)
  else if allotment s t < h + 16 then some (trap5 3 none va)
  else
    let r := ringHdr s t h
    if 1 ≤ r.logcap ∧ r.logcap ≤ 12 ∧ allotment s t < h + 16 + 8 * 2 ^ r.logcap then some (trap5 3 none va)
    else if r.ok then none else some (trap12 t 5 0)

/-- The waiters before this team's turn at a ring (R308): those of its kind that came before it. -/
def ringAhead (s : State) (h : Nat) (put : Bool) : Bool :=
  match s.gangOf s.team with
  | none => false
  | some g =>
    (g.ringWait.takeWhile fun x => !(x.1 == h && x.2.1 == put && x.2.2 == s.team.uid)).any
      fun x => x.1 == h && x.2.1 == put

/-- Change the gang of the team in focus. -/
def modOwnGang (s : State) (f : Gang → Gang) : State := s.modGang s.team.pl.grid s.team.pl.gang f

/-- Teams of a gang in a role. -/
def roleCount (s : State) (t : Team) (role : Nat) : Nat :=
  (s.teams.filter fun u => u.kind == .core && u.stage != .ended && u.pl.grid == t.pl.grid && u.pl.gang == t.pl.gang
    && u.pl.role == role).length

/-- The record word of a governor entry of the team's grid. -/
def govWord (s : State) (t : Team) (i : Nat) : Nat :=
  match s.gridOf t.pl.grid with | some g => wordAt g.rec_ (8 + i) | none => 0

/-- An armed conversion that this team's operation carries out (R298). -/
def converts (s : State) (t : Team) (w : Nat) (g : Governor) (h : Nat) : Bool :=
  match g.armed with
  | some (ring, toV) =>
    let src := if toV then 1 else 0
    let keep := if toV then bitsOf w 40 7 else bitsOf w 32 7
    ring == h && t.pl.role == src && t.eng.unsealed.isEmpty && decide (keep + 1 ≤ roleCount s t src)
  | none => false

/-- The governor step after an operation on ring `h` of entry `gid` (R298): an armed conversion is carried out, else a
crossing outside the quiet time arms one. DESIGN CHOICE (log 102): a crossing on another ring of the entry in the armed direction moves the
arming to that ring. -/
def governorStep (s : State) (h gid before after : Nat) : State :=
  let t := s.team
  let w := govWord s t gid
  if gid = 7 ∨ bitsOf w 63 1 = 0 then s
  else
    match (s.gangOf t).bind fun g => g.govs.find? fun x => x.idx == gid with
    | none => s
    | some g =>
      let put := fun (s : State) (x : Governor) => modOwnGang s fun gg => { gg with govs := gg.govs.map fun y => if y.idx == gid then x else y }
      if converts s t w g h then
        let role := match g.armed with | some (_, true) => 0 | _ => 1
        let s1 := put s { g with armed := none, quiet := s.cycle + BitVec.ofNat 64 (256 * bitsOf w 48 12) }
        s1.withTeam { s1.team with pl := { s1.team.pl with role := role } }
      else if s.cycle < g.quiet then s
      else if before < bitsOf w 0 13 ∧ bitsOf w 0 13 ≤ after then put s { g with armed := some (h, true) }
      else if bitsOf w 16 13 < before ∧ after ≤ bitsOf w 16 13 then put s { g with armed := some (h, false) }
      else s

/-- A ring operation: its checks, its turn and its wait (R308), then `eff` on the header. -/
def ringOp (s : State) (h : Nat) (put : Bool) (eff : RingHdr → State → State) : Result :=
  match ringCheck s h with
  | some tr => .trap tr
  | none =>
    let r := ringHdr s s.team h
    let can := if put then decide (r.occ < 2 ^ r.logcap) else decide (0 < r.occ)
    if can && !ringAhead s h put then
      let s1 := modOwnGang s fun g => { g with ringWait := g.ringWait.filter fun x => x.2.2 != s.team.uid }
      let after := if put then r.occ + 1 else r.occ - 1
      .next (retire (governorStep (eff r s1) h r.gid r.occ after))
    else .wait (.ring h put)

/-- RPUT (R308). -/
def execRput (o : SS) (s : State) : Host.Outcome State Fault Refusal :=
  issue (.rput o) s fun s =>
    let t := s.team
    let h := (sget t o.a.toNat).toNat
    ringOp s h true fun r s =>
      let cap := 2 ^ r.logcap
      let slot := h + 16 + 8 * (r.tail % cap)
      let s1 := scrSets s t (cellsAt slot (leBytes 4 (sget t o.b.toNat).toNat ++ leBytes 4 ((r.tail / cap + 1) % 2)))
      scrSets s1 t (cellsAt (h + 8) (leBytes 4 (r.tail + 1)))

/-- RGET (R308). -/
def execRget (o : S2) (s : State) : Host.Outcome State Fault Refusal :=
  issue (.rget o) s fun s =>
    let t := s.team
    let h := (sget t o.a.toNat).toNat
    ringOp s h false fun r s =>
      let slot := h + 16 + 8 * (r.head % 2 ^ r.logcap)
      let s1 := scrSets s t (cellsAt (h + 4) (leBytes 4 (r.head + 1)))
      s1.withTeam (setS s1.team o.d.toNat (BitVec.ofNat 32 (scrNum s t slot 4)))

end Sys2Proof.Machine
end

