-- ==== Sys2Proof/Machine/Place.lean ====
section
/-! DEFINITION. Where a team can be put: slots, register bytes, L1, scratchpad, pairs and Locus contexts (R18, R29, R34, R35,
R174, R175, R230, R231, R274, R292, R293, R358, R399, R402). -/

namespace Sys2Proof.Machine

/-- A place taken or to be taken on a group: register bytes, and the L1 blocks its grid needs. -/
structure Seat where
  core : Nat
  group : Nat
  slot : Nat
  bytes : Nat
  l1 : Nat
  deriving DecidableEq, Repr

/-- The L1 blocks the team's grid needs on a core (R174). -/
def l1Of (s : State) (t : Team) : Nat := match s.gridOf t.pl.grid with | some g => recL1 g.rec_ | none => 1

/-- Register bytes of a team (R34). -/
def regBytes (n nv : Nat) : Nat := 4 * n * nv

/-- Core and slot of the cluster's vertex wave, on group 0 (R13, R18). -/
def waveSeat (s : State) (c : Nat) : Nat × Nat := s.mgmt.waves.getD c (8 * c, 0)

/-- Teams that hold a slot, vertex waves apart. -/
def residents (s : State) : List Team := s.teams.filter fun t => t.kind == .core && t.stage == .resident

/-- The L1 blocks that the vertex wave of a cluster needs on its core, while there is one (R174). -/
def waveL1 (s : State) (c : Nat) : Nat := ((s.teams.find? fun t => t.kind == .wave && clusterOf t.pl.core == c).map (l1Of s)).getD 0

/-- The seats of a cluster that some residents take; the vertex wave's is always kept (R18, R35). -/
def seatsIn (s : State) (rs : List Team) (c : Nat) : List Seat :=
  { core := (waveSeat s c).1, group := 0, slot := (waveSeat s c).2, bytes := 8192, l1 := waveL1 s c } ::
    (rs.filter fun t => clusterOf t.pl.core == c).map fun t =>
      { core := t.pl.core, group := t.pl.group, slot := t.pl.slot, bytes := regBytes t.rf.n t.rf.nv, l1 := l1Of s t }

/-- Whether the distributor may place teams on a core (R13). -/
def usable (s : State) (core : Nat) : Bool :=
  !s.mgmt.fenced.contains (core / 2 * 2) && !s.mgmt.fenced.contains (core / 2 * 2 + 1)

/-- The lowest free slot of a group (R15). -/
def freeSlot (ss : List Seat) (core group : Nat) : Option Nat :=
  (List.range 16).find? fun k => !ss.any fun x => x.core == core && x.group == group && x.slot == k

/-- Free register bytes of a group. -/
def freeBytes (ss : List Seat) (core group : Nat) : Nat :=
  524288 - ((ss.filter fun x => x.core == core && x.group == group).foldl (fun n x => n + x.bytes) 0)

/-- The L1 blocks that the teams on some seats need on a core (R174); block 0 is always L1 (R173). -/
def l1Need (ss : List Seat) (core : Nat) : Nat := (ss.filter fun x => x.core == core).foldl (fun m x => max m x.l1) 1

/-- The granules that each block of a core can still give (R173 to R175): scratchpad blocks what they have left, then L1 blocks whole, as many as
the teams there do not need. DESIGN CHOICE (log 50): in this order, the lowest block first. -/
def blockRoom (s : State) (ss : List Seat) (core : Nat) : List Carve :=
  let l1 := l1Blocks s core
  let part := ((List.range 7).map (· + 1)).filter fun b => !l1.contains b
  (part.map fun b => ⟨core, b, blockGranules - blockUsed s core b⟩)
    ++ ((l1.drop 1).take (l1.length - l1Need ss core)).map fun b => ⟨core, b, blockGranules⟩

/-- The granules that the usable cores of a cluster can still give. -/
def clusterRoom (s : State) (ss : List Seat) (c : Nat) : List Carve := ((regsFrom (8 * c) 8).filter (usable s)).flatMap (blockRoom s ss)

/-- Whether every core of the cluster keeps the L1 that its teams need, and the cluster can carve `new` granules more (R174, R175). -/
def l1Ok (s : State) (ss : List Seat) (c new : Nat) : Bool :=
  ((regsFrom (8 * c) 8).all fun k => !(ss.any fun x => x.core == k && x.l1 != 0) || decide (l1Need ss k ≤ (l1Blocks s k).length))
    && decide (new ≤ (clusterRoom s ss c).foldl (fun n x => n + x.granules) 0)

/-- Carve `new` granules from what blocks can give, in order (R175). -/
def carveFrom : List Carve → Nat → List Carve
  | [], _ => []
  | x :: xs, new =>
    let n := min new x.granules
    if n = 0 then carveFrom xs new else { x with granules := n } :: carveFrom xs (new - n)

/-- Where a placed gang's scratchpad stands. -/
def carveFor (s : State) (ss : List Seat) (c new : Nat) : List Carve := carveFrom (clusterRoom s ss c) new

/-- The groups of a cluster, in core and group order. -/
def groupsOf (c : Nat) : List (Nat × Nat) := (regsFrom (8 * c) 8).flatMap fun k => (List.range 4).map fun g => (k, g)

/-- The seat of one team (R293 rule 2): the group with a free slot and the most free register bytes, where the
cluster's L1 still suffices. -/
def seatFor (s : State) (ss : List Seat) (c bytes l1 scratch : Nat) (ok : Nat → Bool) : Option Seat :=
  let can := (groupsOf c).filterMap fun (x : Nat × Nat) =>
    match freeSlot ss x.1 x.2 with
    | some k =>
      let seat : Seat := { core := x.1, group := x.2, slot := k, bytes := bytes, l1 := l1 }
      if usable s x.1 && ok x.1 && decide (bytes ≤ freeBytes ss x.1 x.2) && l1Ok s (seat :: ss) c scratch then some seat
      else none
    | none => none
  match can with
  | [] => none
  | x :: xs => some (xs.foldl (fun b y => if freeBytes ss b.core b.group < freeBytes ss y.core y.group then y else b) x)

/-- Seats for `n` equal teams, in order. -/
def seatsFor (s : State) (c bytes l1 scratch : Nat) (ok : Nat → Bool) : Nat → List Seat → Option (List Seat)
  | 0, _ => some []
  | n + 1, ss =>
    match seatFor s ss c bytes l1 scratch ok with
    | none => none
    | some x => (seatsFor s c bytes l1 scratch ok n (x :: ss)).map fun xs => x :: xs

/-- The leader cores of a cluster's free pairs (R230). A pair whose teams are to leave is free once its queue is empty, which its eviction
waits for (R232); one whose teams have ended works on to the end of its queue (R393). -/
def freePairs (s : State) (rs : List Team) (c : Nat) : List Nat :=
  ((List.range 4).map fun p => 8 * c + 2 * p).filter fun k =>
    let on := fun (t : Team) => t.pl.role == 2 && t.pl.core / 2 == k / 2
    usable s k && !rs.any on
      && ((residents s).any on
        || !(s.gangs.any fun g => g.pairs.any fun p => p.leader == k && (!p.queue.isEmpty || p.running.isSome)))

/-- The eight seats of a pair (R231), when every group has room. -/
def pairSeats (ss : List Seat) (leader bytes l1 : Nat) : Option (List Seat) :=
  let xs := (List.range 8).filterMap fun e =>
    let core := leader + e / 4
    match freeSlot ss core (e % 4) with
    | some k => if bytes ≤ freeBytes ss core (e % 4) then
        some ({ core := core, group := e % 4, slot := k, bytes := bytes, l1 := l1 } : Seat) else none
    | none => none
  if xs.length = 8 then some xs else none

/-- Seats on `n` pairs, taken in core order, and their leaders. -/
def pairsFor (bytes l1 : Nat) : Nat → List Nat → List Seat → Option (List Seat × List Nat)
  | 0, _, _ => some ([], [])
  | _, [], _ => none
  | n + 1, k :: ks, ss =>
    match pairSeats ss k bytes l1 with
    | none => pairsFor bytes l1 (n + 1) ks ss
    | some xs => (pairsFor bytes l1 n ks (xs ++ ss)).map fun r => (xs ++ r.1, k :: r.2)

/-- Deal seats to the teams of a gang in `%team` order. -/
def dealSeats (r : List DWord) : List Nat → List Seat → List Seat → List Seat
  | [], _, _ => []
  | e :: es, ms, os =>
    if roleAt r e = 2 then
      match ms with
      | m :: ms => m :: dealSeats r es ms os
      | [] => dealSeats r es [] os
    else match os with
      | o :: os => o :: dealSeats r es ms os
      | [] => dealSeats r es ms []

/-- Whether a gang of `n` teams of a record fits into a cluster beside some residents: its seats and pairs (R29, R293). -/
def fitGang (s : State) (rs : List Team) (r : List DWord) (n c : Nat) : Option (List Seat × List Nat) :=
  let ss := seatsIn s rs c
  let bytes := regBytes (recLanes r) (recRegs r)
  let scratch := recScratch r
  let m := matrixCount r n
  match pairsFor bytes (recL1 r) (m / 8) (freePairs s rs c) ss with
  | none => none
  | some (ms, ks) =>
    if l1Ok s (ms ++ ss) c scratch then
      match seatsFor s c bytes (recL1 r) scratch (fun _ => true) (n - m) (ms ++ ss) with
      | none => none
      | some os => some (dealSeats r (List.range n) ms os, ks)
    else none

/-- Locus contexts free on a core (R358). -/
def locusRoom (s : State) (rs : List Team) (core : Nat) : Bool :=
  decide ((s.locus.filter fun c => c.core == core && rs.any fun t => t.uid == c.uid).length < 4)

/-- Whether one team fits into a cluster: its seat (R49, R402). -/
def fitTeam (s : State) (rs : List Team) (t : Team) (c : Nat) : Option Seat :=
  seatFor s (seatsIn s rs c) c (regBytes t.rf.n t.rf.nv) (l1Of s t) 0
    fun k => t.locus.isNone || locusRoom s rs k

/-- The clusters of a grid's core set in the order they are tried (R293). -/
def clusterOrder (g : Grid) : List Nat :=
  ((List.range 24).map fun k => (g.last + 1 + k) % 24).filter fun c => g.cores.getLsbD c

/-- Free gang control blocks (R274). -/
def gcbRoom (s : State) : Bool := decide (s.gangs.length < (s.sched.gcbarea.extractLsb' 0 15).toNat)

/-! ### The waiting list (R292, R402) -/

/-- Whether every result bound for a saved context has landed (R97): a producer without lanes fills its destination only as its counter
entry retires (R93). -/
def landed (t : Team) : Bool :=
  let ok := fun (e : Engines) => e.ops.all fun o => (o.done && !o.laneless) || o.dst == .none
  ok t.eng && match t.handler with | some h => ok h.saved | none => true

/-- Whether an evicted team is on the waiting list and its context complete (R97, R402). -/
def wantsRestore (s : State) (t : Team) : Bool :=
  (match t.stage with | .evicted _ => true | _ => false)
    && (match t.wait with
        | .twait _ => false
        | .retry .waitdep => depMet s t
        | _ => true)
    && landed t

/-- An entry of the waiting list. -/
inductive Waiter where
  /-- The next gang of a grid. -/
  | gang (grid : Nat)
  /-- An evicted team. -/
  | team (uid : Nat)
  deriving DecidableEq, Repr

/-- A waiting entry with its place in the order: priority, launch time, `%gang`. -/
structure WaitEntry where
  prio : Nat
  since : Nat
  gang : Nat
  what : Waiter
  deriving DecidableEq, Repr

/-- Whether an entry precedes another (R292). -/
def WaitEntry.before (a b : WaitEntry) : Bool :=
  decide (b.prio < a.prio) || (a.prio == b.prio && (decide (a.since < b.since) || (a.since == b.since && decide (a.gang < b.gang))))

/-- The waiting list in order. -/
def waitList (s : State) : List WaitEntry :=
  let gs := (s.sched.grids.filter fun g => decide (g.next < g.size)).map fun g =>
    ({ prio := g.prio, since := g.since.toNat, gang := g.next, what := .gang g.id } : WaitEntry)
  let ts := (s.teams.filter (wantsRestore s)).map fun t =>
    ({ prio := t.pl.prio, since := ((s.gridOf t.pl.grid).map fun g => g.since.toNat).getD 0, gang := t.pl.gang,
       what := .team t.uid } : WaitEntry)
  sortBy WaitEntry.before (ts ++ gs)

/-- Ticks after which a waiting gang holds others off (R292). -/
def waitTicks : Nat := 2 ^ 20

/-- Whether a grid's next gang has waited the limit (R292). -/
def waitedOut (s : State) (g : Grid) : Bool := s.sched.waited.contains (g.id, g.next) || decide (waitTicks ≤ (s.cycle - g.since).toNat)

/-- Whether a gang that has waited the limit keeps another from a cluster (R292): it has at least its priority, and it
stands before it in the list. -/
def heldOff (s : State) (g : Grid) (c : Nat) : Bool :=
  let me : WaitEntry := { prio := g.prio, since := g.since.toNat, gang := g.next, what := .gang g.id }
  s.sched.grids.any fun h => h.id != g.id && waitedOut s h && decide (h.next < h.size)
    && decide (g.prio ≤ h.prio) && h.cores.getLsbD c
    && (!waitedOut s g
        || WaitEntry.before { prio := h.prio, since := h.since.toNat, gang := h.next, what := .gang h.id } me)

/-- The clusters a grid's next gang may be placed in. -/
def openClusters (s : State) (g : Grid) : List Nat := (clusterOrder g).filter fun c => !heldOff s g c

/-! ### Eviction (R399, R400) -/

/-- Whether a team may be a victim for priority `q` (R295, R399). -/
def evictable (s : State) (q : Nat) (t : Team) : Bool :=
  t.kind == .core && t.stage == .resident && t.handler.isNone
    && (match t.wait with
        | .publish _ _ _ => false
        | .locus => false
        | _ => true)
    && (match s.locus.find? fun c => c.uid == t.uid with
        | some c => c.inRoutine || c.phase == .idle
        | none => true)
    && (decide (t.pl.prio < q) || match t.wait with
        | .twait _ => true
        | .retry .waitdep => true
        | _ => false)

/-- Whether a victim waits in TWAIT or WAITDEP. -/
def isWaiter (t : Team) : Bool := match t.wait with
  | .twait _ => true
  | .retry .waitdep => true
  | _ => false

/-- Candidates that leave together: single teams, and the eight of a pair (R232). -/
def candidateUnits (s : State) (rs : List Team) (q c : Nat) : List (List Team) :=
  let here := rs.filter fun t => clusterOf t.pl.core == c
  let singles := (here.filter fun t => t.pl.role != 2 && evictable s q t).map fun t => [t]
  let pairs := (List.range 4).filterMap fun p =>
    let ts := here.filter fun t => t.pl.role == 2 && t.pl.core / 2 == 4 * c + p
    if ts.isEmpty || !ts.all (evictable s q) then none else some ts
  singles ++ pairs

/-- The order of candidates (R399): waiters first, then low priority, then placed last, then the higher slot. -/
def victimBefore (a b : List Team) : Bool :=
  let rank := fun (u : List Team) => if u.all isWaiter then 0 else 1
  let prio := fun (u : List Team) => u.foldl (fun (m : Nat) (t : Team) => max m t.pl.prio) 0
  let at_ := fun (u : List Team) => u.foldl (fun (m : Nat) (t : Team) => max m t.pl.placed.toNat) 0
  let slot := fun (u : List Team) => u.foldl (fun (m : Nat) (t : Team) => max m t.pl.slot) 0
  decide (rank a < rank b) || (rank a == rank b && (decide (prio a < prio b) || (prio a == prio b
    && (decide (at_ b < at_ a) || (at_ a == at_ b && decide (slot b < slot a))))))

/-- The shortest run of first candidates whose removal makes `fits` answer, with the answer (R399). -/
def victimsFor {α : Type} (fits : List Team → Option α) (free : Nat) (rs : List Team) :
    List (List Team) → List Team → Option (List Team × α)
  | [], _ => none
  | u :: us, out =>
    let out1 := out ++ u
    if free < out1.length then none
    else match fits (rs.filter fun t => !out1.any fun v => v.uid == t.uid) with
      | some a => some (out1, a)
      | none => victimsFor fits free rs us out1

/-- Free context entries. -/
def freeEntries (s : State) : List Nat := (List.range (ctxEntries s)).filter fun k => !s.sched.ctxUsed.contains k

/-- A team at the boundary where it leaves its group (R73, R399): an instruction that has issued and waits is passed, YIELD is over,
and every other wait ends with its instruction still to issue, the pending hints gone. A publication in progress, which only a
core's failure interrupts (R13), begins anew. -/
def leaveGroup (t : Team) : Team :=
  let u := match t.wait with
    | .twait _ => passWait t
    | .marl _ => passWait t
    | .hset => passWait t
    | .inval _ => passWait t
    | .publish _ .taskEnd _ => { unpublish t with wait := .ending }
    | .publish _ _ _ => { unpublish t with wait := .ready, ctl := { t.ctl with pc := resumePc t, hints := none } }
    | .yield => donePassed (passWait t)
    | .barrier _ _ => { t with wait := .ready, ctl := { t.ctl with pc := resumePc t, hints := none } }
    | _ => { t with ctl := { t.ctl with pc := resumePc t, hints := none } }
  { u with ctl := { u.ctl with buffer := [] }, book := { u.book with begun := false } }

/-- Evict the team with a handle into entry `k` (R399, R400): the entry is written. -/
def evictTo (s : State) (uid k : Nat) : State :=
  onTeam s uid fun s =>
    let t0 := leaveGroup s.team
    let t1 := { t0 with stage := .evicted k, ver := leaveCore t0.ver }
    let s1 := immediate s (ctxCells s t1 t1.ctl.pc (entryPa s k))
    { s1 with team := t1, sched := { s1.sched with ctxUsed := k :: s1.sched.ctxUsed } }

/-- Evict several teams into free entries. -/
def evictAll (s : State) (vs : List Team) : State :=
  (vs.zip (freeEntries s)).foldl (fun s x => evictTo s x.1.uid x.2) s

/-- Whether a team is a matrix team whose pair has commands queued or running. -/
def pairBusy (s : State) (t : Team) : Bool := match pairOfTeam s t with
  | some p => !p.queue.isEmpty || p.running.isSome
  | none => false

/-- Whether the pair of a gang with an index is that of one of some teams. -/
def pairIn (ts : List Team) (g : Gang) (p : Pair) : Bool :=
  ts.any fun t => t.pl.role == 2 && t.pl.grid == g.grid && t.pl.gang == g.idx && t.pl.pair == p.idx

/-- Which pairs take no more commands (R232): those of the teams that are to be evicted. -/
def closePairs (s : State) (vs : List Team) : State :=
  { s with gangs := s.gangs.map fun g => { g with pairs := g.pairs.map fun p => { p with closed := pairIn vs g p } } }

/-- The teams that leave because a core has failed, each alone or with its matrix pair (R13, R232). -/
def leavingUnits (s : State) : List (List Team) :=
  let ts := (residents s).filter (leaves s)
  let mate := fun (t u : Team) => u.pl.role == 2 && u.pl.grid == t.pl.grid && u.pl.gang == t.pl.gang && u.pl.pair == t.pl.pair
  (ts.map fun t => if t.pl.role == 2 then ts.filter (mate t) else [t]).eraseDups

/-- Whether such teams can leave now: their pair's queue is empty (R232), no Locus engine computes for one of them (R358), and each finds a
free context entry (log 81). -/
def canLeave (s : State) (ts : List Team) : Bool :=
  ts.all (fun t => t.wait != .locus) && !ts.any (pairBusy s) && decide (ts.length ≤ (freeEntries s).length)

/-- The teams of failed cores go to the context area as soon as they can, without regard to candidacy (R13). -/
def leaveFenced (s : State) : State :=
  if s.mgmt.fenced.isEmpty then s else (leavingUnits s).foldl (fun s ts => if canLeave s ts then evictAll s ts else s) s

/-- Evict the victims and go on with `k`; while a pair of theirs still works it takes no more commands, and nothing else happens
(R232). -/
def evictThen (s : State) (vs : List Team) (k : State → State) : State :=
  if vs.any (pairBusy s) then closePairs s vs else k (evictAll (closePairs s []) vs)

end Sys2Proof.Machine
end

