-- ==== Sys2Proof/Machine/Life.lean ====
section
/-! DEFINITION. The life of grids, gangs and teams between instructions: placement, restore, continuations, publications,
results, deadlines and task end (R40, R43, R47 to R53, R70, R93, R97, R102, R126, R209, R291 to R299, R304, R343, R402, R406). -/

namespace Sys2Proof.Machine

/-! ### Placement (R29, R30, R88, R290, R293) -/

/-- A pair as a gang receives it (R237). -/
def newPair (idx leader : Nat) : Pair :=
  { idx := idx, leader := leader, tiles := List.replicate 4 ⟨.untyped, [], []⟩, queue := [], running := none,
    halted := false, closed := false, err := MErr.clear, seq := 0 }

/-- The scalars at a team's first instruction (R290). -/
def entryScalars (r : List DWord) (gang : Nat) : List Word :=
  let p := r.getD 1 0
  [loHalf p, hiHalf p, BitVec.ofNat 32 (gang % gdim r 0), BitVec.ofNat 32 (gang / gdim r 0 % gdim r 1),
    BitVec.ofNat 32 (gang / (gdim r 0 * gdim r 1))] ++ List.replicate 27 0

/-- Registers at a team's first instruction (R88, R147, R290). -/
def entryRegs (r : List DWord) (gang : Nat) : Regs :=
  { Regs.zero (recLanes r) (recRegs r) with s := entryScalars r gang, fs := (List.range 8).map fun k => r.getD (12 + k) 0 }

/-- Special registers at a team's first instruction (R99, R286). -/
def entrySpecials (r : List DWord) (vid : Nat) : Specials :=
  Specials.start (BitVec.ofNat 32 vid) (BitVec.ofNat 32 (bitsOf (teamCfg r) 16 1)) (BitVec.ofNat 32 (bitsOf (teamCfg r) 17 3))

/-- The last issue of a team that becomes resident now (R42): a team that issued at this time began earlier. -/
def residentSince (s : State) : Nat := 2 * s.cycle.toNat + 1

/-- The lowest gang control block that no live gang holds (R274). -/
def freeBlock (s : State) : Nat :=
  ((List.range (s.gangs.length + 1)).find? fun k => !s.gangs.any fun g => g.block == k).getD 0

/-- Team `e` of a gang of `n`, on its seat. -/
def newTeam (s : State) (g : Grid) (n e : Nat) (seat : Seat) : Team :=
  let r := g.rec_
  { Team.absent with
    uid := s.sched.nextUid + e, stage := .resident,
    pl := { core := seat.core, group := seat.group, slot := seat.slot, grid := g.id, gang := g.next, team := e, gangsz := n,
            pair := matrixCount r e / 8, role := roleAt r e, prio := g.prio, depth := g.depth, asid := g.asid, priv := g.priv, codebase := recBase r,
            gangBound := recScratch r != 0, placed := s.cycle },
    rf := entryRegs r g.next, ctl := Control.entry (r.getD 0 0) (recLanes r), sp := entrySpecials r (s.sched.nextVid + e),
    ver := { Version.fresh with seen := s.ms.stamp },
    book := { Team.absent.book with lastIssue := residentSince s } }

/-- Put a grid's next gang on its seats. -/
def placeGang (s : State) (g : Grid) (n c : Nat) (seats : List Seat) (leaders : List Nat) : State :=
  let scr := 1024 * recScratch g.rec_
  let gang : Gang := { grid := g.id, idx := g.next, block := freeBlock s, cluster := c, size := n, scratchLen := scr,
                       carve := carveFor s (seats ++ seatsIn s (residents s) c) c (recScratch g.rec_), scratch := [], gen := 0, arrived := 0, live := n, pendingArr := [],
                       pairs := leaders.zipIdx.map fun x => newPair x.2 x.1,
                       govs := (List.range 4).map fun k => { idx := k, armed := none, quiet := 0 }, ringWait := [] }
  convertL1 s { s with
    others := s.others ++ seats.zipIdx.map fun x => newTeam s g n x.2 x.1,
    gangs := s.gangs ++ [gang],
    sched := { s.sched with
      nextUid := s.sched.nextUid + n, nextVid := s.sched.nextVid + n,
      grids := s.sched.grids.map fun h => if h.id == g.id then { h with next := h.next + 1, last := c } else h,
      waited := s.sched.waited.filter fun w => w != (g.id, g.next) } }

/-- The first cluster that holds `n` teams of a grid's next gang (R29, R293). -/
def findCluster (s : State) (g : Grid) (n : Nat) : Option (Nat × List Seat × List Nat) :=
  (openClusters s g).findSome? fun c => (fitGang s (residents s) g.rec_ n c).map fun r => (c, r.1, r.2)

/-- The victims that make room in the first cluster where some do (R399), and the gang's size, seats and pairs there. -/
def findVictims (s : State) (g : Grid) : Option (Nat × List Team × Nat × List Seat × List Nat) :=
  (openClusters s g).findSome? fun c =>
    let fits := fun rs =>
      match fitGang s rs g.rec_ (prefSize g.rec_) c with
      | some r => some (prefSize g.rec_, r.1, r.2)
      | none => (fitGang s rs g.rec_ (fallSize g.rec_) c).map fun r => (fallSize g.rec_, r.1, r.2)
    (victimsFor fits (freeEntries s).length (residents s)
      (sortBy victimBefore (candidateUnits s (residents s) g.prio c)) []).map fun r => (c, r.1, r.2.1, r.2.2.1, r.2.2.2)

/-- Try to place a grid's next gang: P, then F, then by eviction. -/
def tryGang (s : State) (g : Grid) : Option State :=
  if gcbRoom s then
    match findCluster s g (prefSize g.rec_) with
    | some (c, ss, ks) => some (placeGang s g (prefSize g.rec_) c ss ks)
    | none =>
      match findCluster s g (fallSize g.rec_) with
      | some (c, ss, ks) => some (placeGang s g (fallSize g.rec_) c ss ks)
      | none => (findVictims s g).map fun r => evictThen s r.2.1 fun s => placeGang s g r.2.2.1 r.1 r.2.2.2.1 r.2.2.2.2
  else none

/-- The clusters an evicted team may be restored in (R402). -/
def restoreClusters (s : State) (t : Team) : List Nat :=
  let gang := s.gangOf t
  let tied := t.locus.isSome || t.pl.role == 2 || (match gang with | some g => g.scratchLen != 0 | none => false)
  if tied then [match gang with | some g => g.cluster | none => clusterOf t.pl.core]
  else match s.gridOf t.pl.grid with
    | some g => clusterOrder g
    | none => List.range 24

/-- Put a team on a seat; its boost count is held until it issues (R43). -/
def seatTeam (s : State) (uid : Nat) (seat : Seat) : State :=
  let num := (List.range 4).find? fun k =>
    !s.locus.any fun c => c.core == seat.core && c.num == k && c.uid != uid
      && (residents s).any fun t => t.uid == c.uid
  let s1 := s.modTeam uid fun t => { t with
    stage := .resident,
    pl := { t.pl with core := seat.core, group := seat.group, slot := seat.slot, placed := s.cycle },
    locus := if t.locus.isSome then num else none,
    book := { t.book with lastIssue := residentSince s, yieldTo := [], spaceUntil := 0 } }
  { s1 with locus := s1.locus.map fun c => if c.uid == uid then { c with core := seat.core, num := num.getD 0 } else c }

/-- The context entry of an evicted team is free again. -/
def freeContext (s : State) (t : Team) : State :=
  { s with sched := { s.sched with ctxUsed := s.sched.ctxUsed.filter fun k => t.stage != .evicted k } }

/-! ### Contexts and records read back (R48, R53, R400 to R402, R409) -/

/-- What a context entry holds beside what a continuation record holds (R400). -/
structure ContextTail where
  sh : List (BitVec 256)
  tcyc : DWord
  tdl : DWord
  step : Word
  last : Nat
  deriving DecidableEq, Repr

/-- Read that part of an entry. -/
def contextTail (bs : List Byte) : ContextTail :=
  { sh := (List.range 8).map fun k => BitVec.ofNat 256 (numAt bs (0x980 + 32 * k) 32),
    tcyc := BitVec.ofNat 64 (numAt bs 0xAE0 8), tdl := BitVec.ofNat 64 (numAt bs 0xAE8 8),
    step := BitVec.ofNat 32 (numAt bs 0xAF0 4), last := numAt bs 0xAF8 4 }

/-- The further checks of R401 for a team's entry: V and N as placed, shape records, reserved bytes. -/
def contextOk (t : Team) (bs : List Byte) (r : Saved) : Bool :=
  r.nv == t.rf.nv && r.n == t.rf.n && numAt bs 0xAFC 4 == 0 && numAt bs 0xB0C 244 == 0 && numAt bs 0xB09 3 == 0
    && decide (numAt bs 0xAF0 4 < 4)
    && (contextTail bs).sh.all fun x => shRank x == 0 || (shapeBad x (fsget t)).isNone

/-- Put what an entry holds into a team. -/
def applyContext (t : Team) (bs : List Byte) (r : Saved) : Team :=
  let x := contextTail bs
  let u := applySaved t r
  { u with rf := { u.rf with sh := x.sh }, sp := { u.sp with tcyc := x.tcyc, tdl := x.tdl, step := x.step },
           eng := { u.eng with lastBatch := x.last } }

/-- Bytes of a team's entry before what only the part interprets. -/
def contextLen (t : Team) : Nat := 0xC00 + 4 * t.rf.n * t.rf.nv

/-- The team as its context entry `k` holds it (R402); none for an entry that is not well formed. -/
def loadEntry (s : State) (t : Team) (k : Nat) : Option Team :=
  let bs := commBytes s.ms (entryPa s k) (contextLen t)
  match readSaved bs true with
  | some r => if contextOk t bs r then some (applyContext t bs r) else none
  | none => none

/-- The team as its pool record `k` holds it (R48, R53); none for a record that is not well formed. -/
def loadRecord (s : State) (t : Team) (k : Nat) : Option Team :=
  match readSaved (commBytes s.ms (poolPa s k) (0xA00 + 4 * t.rf.n * t.rf.nv)) false with
  | some r => if r.n = t.rf.n ∧ r.nv = t.rf.nv then some (applySaved t r) else none
  | none => none

/-- The end of a wait while the team was away reaches its registers (R269, R408). -/
def settleLate (t : Team) : Team :=
  match t.late with
  | some d => { fillDst t d with late := none }
  | none => t

/-- A team that has just been seated takes what its record holds. DESIGN CHOICE (log 91): one whose record is not well formed never runs
(R9, R52); that is a fatal trap of group 12 with reason 4 and the record's address. -/
def enterRecord (s : State) (uid : Nat) (load : Team → Option Team) (va : DWord) : State :=
  onTeam s uid fun s => match load s.team with
    | some u => s.withTeam (settleLate u)
    | none => fatalTrap s (trap12 s.team 4 va) s.team.ctl.pc

/-- Restore an evicted team on a seat (R402). -/
def restoreTeam (s : State) (uid : Nat) (seat : Seat) : State :=
  match s.find uid with
  | none => s
  | some t => match t.stage with
    | .evicted k => enterRecord (seatTeam (freeContext s t) uid seat) uid (fun u => loadEntry s u k) (entryVa s k)
    | _ => s

/-- The eight matrix teams of an evicted team's pair, in order (R232). -/
def pairTeams (s : State) (t : Team) : List Team :=
  sortBy (fun a b => decide (a.pl.team < b.pl.team)) (s.teams.filter fun u =>
    u.kind == .core && u.pl.grid == t.pl.grid && u.pl.gang == t.pl.gang && u.pl.role == 2
      && u.pl.pair == t.pl.pair && u.stage != .ended)

/-- Whether the Locus contexts of some teams fit on the cores they go to (R358). -/
def contextsFit (s : State) (rs : List Team) (xs : List (Team × Nat)) : Bool :=
  xs.all fun x => decide ((s.locus.filter fun c => c.core == x.2 && rs.any fun t => t.uid == c.uid).length
    + (xs.filter fun y => y.2 == x.2 && y.1.locus.isSome).length ≤ 4) || x.1.locus.isNone

/-- The seats of a pair's evicted teams, each on its own side and group, on a free pair of the home cluster (R232). -/
def fitPair (s : State) (rs : List Team) (ts : List Team) (c : Nat) : Option (List (Team × Seat) × Nat) :=
  let ss := seatsIn s rs c
  (freePairs s rs c).findSome? fun k =>
    let xs := ts.filterMap fun (t : Team) =>
      let core := k + t.pl.core % 2
      match freeSlot ss core t.pl.group with
      | some slot =>
        let seat : Seat := { core := core, group := t.pl.group, slot := slot, bytes := regBytes t.rf.n t.rf.nv, l1 := l1Of s t }
        if seat.bytes ≤ freeBytes ss core t.pl.group then some (t, seat) else none
      | none => none
    if xs.length = ts.length ∧ l1Ok s (xs.map (fun x => x.2) ++ ss) c 0 ∧ contextsFit s rs (xs.map fun x => (x.1, x.2.core)) then
      some (xs, k)
    else none

/-- The tiles that the entry of a pair's lowest `%team` holds (R400); `xs` are the pair's teams in order. -/
def savedTiles (s : State) (xs : List Team) (p : Pair) : Pair :=
  match xs with
  | [] => p
  | t :: _ => match t.stage with
    | .evicted k => pairFrom (fun n => commByte s.ms (entryPa s k + n)) t.rf.n t.rf.nv p
    | _ => p

/-- Restore a pair's teams together, with the tiles that were saved (R232, R400). -/
def restorePair (s : State) (t : Team) (xs : List (Team × Seat)) (leader : Nat) : State :=
  let s1 := xs.foldl (fun s x => restoreTeam s x.1.uid x.2) s
  s1.modGang t.pl.grid t.pl.gang fun g => { g with
    pairs := g.pairs.map fun p =>
      if p.idx == t.pl.pair then { savedTiles s (xs.map fun x => x.1) p with leader := leader, closed := false } else p }

/-- Try to restore an evicted team (R402), by eviction if nothing else makes room. -/
def tryRestore (s : State) (t : Team) : Option State :=
  let cs := restoreClusters s t
  let n := (freeEntries s).length
  if t.pl.role = 2 then
    let ts := pairTeams s t
    if ts.all (wantsRestore s) then
      cs.findSome? fun c =>
        match fitPair s (residents s) ts c with
        | some r => some (restorePair s t r.1 r.2)
        | none => (victimsFor (fun rs => fitPair s rs ts c) n (residents s)
            (sortBy victimBefore (candidateUnits s (residents s) t.pl.prio c)) []).map fun r =>
              evictThen s r.1 fun s => restorePair s t r.2.1 r.2.2
    else none
  else
    match cs.findSome? fun c => fitTeam s (residents s) t c with
    | some seat => some (restoreTeam s t.uid seat)
    | none => cs.findSome? fun c =>
        (victimsFor (fun rs => fitTeam s rs t c) n (residents s)
          (sortBy victimBefore (candidateUnits s (residents s) t.pl.prio c)) []).map fun r =>
            evictThen s r.1 fun s => restoreTeam s t.uid r.2

/-- One walk of the waiting list (R292): the first entry that can be placed, and the state with it placed. -/
def walkList (s : State) : List WaitEntry → Option (Waiter × State)
  | [] => none
  | w :: ws =>
    let r := match w.what with
      | .gang id => if s.mgmt.hold then none else (s.gridOf id).bind (tryGang s)
      | .team uid => (s.find uid).bind (tryRestore s)
    match r with
    | some s1 => some (w.what, s1)
    | none => walkList s ws

/-- The distributor's walk of the whole list, with what ended gangs held free, and no pair closed but those it now wants (R232). -/
def walkAll (s : State) : State × Option (Waiter × State) :=
  let r := closePairs (sweepGangs s) []
  (r, walkList r (waitList r))

/-- GANG_PLACEMENT: the distributor walks the list; a gang it reaches first is placed (R293, R434). -/
def execGangPlacement (s : State) : Host.Outcome State Fault Refusal :=
  match walkAll s with
  | (_, some (.gang _, s1)) => .next s1
  | (_, some (.team _, _)) => .next (sweepGangs s)
  | (r, none) => .next r

/-- TEAM_RESTORE: the distributor reaches this evicted team first (R402). -/
def execTeamRestore (uid : Nat) (s : State) : Host.Outcome State Fault Refusal :=
  match walkAll s with
  | (_, some (.team u, s1)) => .next (if u = uid then s1 else s)
  | (_, some (.gang _, _)) => .next s
  | (r, none) => .next r

/-- GANG_WAIT_LIMIT: a gang has waited the limit (R292). -/
def execGangWaitLimit (grid gang : Nat) (s : State) : Host.Outcome State Fault Refusal :=
  match s.gridOf grid with
  | none => .next s
  | some g =>
    if g.next = gang ∧ gang < g.size ∧ waitTicks ≤ (s.cycle - g.since).toNat ∧ !s.sched.waited.contains (grid, gang) then
      .next { s with sched := { s.sched with waited := (grid, gang) :: s.sched.waited } }
    else .next s

/-! ### Retirement (R40, R291) -/

/-- Whether a grid still has a live part (R40, R291, R393). -/
def gridLive (s : State) (g : Grid) : Bool :=
  decide (g.next < g.size) || s.sched.grids.any (isChildOf [g.id]) || (s.gangs.any fun x => x.grid == g.id && gangWorks s x)
    || s.teams.any fun t => t.kind == .core && t.pl.grid == g.id
        && (t.stage != .ended || (t.eng.unsealed.any fun c => !c.done) || !t.eng.maint.isEmpty)

/-- Note at a graph node that its grid has retired. -/
def nodeRetired (s : State) (gr nd : Nat) (fatal : Bool) : State :=
  let slot := s.sched.graphs.getD gr GraphSlot.empty
  let slot1 := { slot with graph := slot.graph.map fun g => { g with states := g.states.set nd (.retired fatal) } }
  { s with sched := { s.sched with graphs := s.sched.graphs.set gr slot1 } }

/-- GRID_RETIRE: nothing of the grid is live any more (R40, R291). -/
def execGridRetire (grid : Nat) (s : State) : Host.Outcome State Fault Refusal :=
  match s.gridOf grid with
  | none => .next s
  | some g =>
    if g.from_ = .waves || gridLive s g then .next s
    else
      let mine := fun (t : Team) => t.kind == .core && t.pl.grid == grid
      let s1 := sweepGangs s
      let s2 := { s1 with
        team := if mine s1.team then Team.absent else s1.team,
        others := s1.others.filter fun t => !mine t,
        gangs := s1.gangs.filter fun x => x.grid != grid,
        sched := { s1.sched with grids := s1.sched.grids.filter fun x => x.id != grid,
                                 waited := s1.sched.waited.filter fun w => w.1 != grid } }
      match g.from_ with
      | .node gr nd => .next (nodeRetired s2 gr nd g.fatal)
      | .team uid _ => .next (s2.modTeam uid fun t => { t with children := t.children.filter fun c => c != grid })
      | .waves => .next s2

/-! ### Task end (R126, R214, R227, R230, R343, R358) -/

/-- Whether a team's seven counters are zero. -/
def countersZero (e : Engines) : Bool := (List.range 7).all fun k => e.count k == 0

/-- The gang without a team that ends: its live count falls, its pairs go when their last matrix team has ended. -/
def quitGang (s : State) (t : Team) : State :=
  let lastOnPair := t.pl.role == 2 && !s.teams.any fun u => u.uid != t.uid && u.kind == .core && u.stage != .ended
    && u.pl.grid == t.pl.grid && u.pl.gang == t.pl.gang && u.pl.role == 2 && u.pl.pair == t.pl.pair
  s.modGang t.pl.grid t.pl.gang fun g =>
    let g1 := if t.posted then g else settleGang { g with live := g.live - 1 }
    { g1 with pairs := if lastOnPair then g1.pairs.filter fun p => p.idx != t.pl.pair else g1.pairs,
              ringWait := g1.ringWait.filter fun w => w.2.2 != t.uid }

/-- The team in focus ends after its last publication: it frees what it holds. -/
def finishTeam (s : State) : State :=
  let t := s.team
  let s1 := quitGang (s.withTeam (endTeam t)) t
  sweepGangs (releaseWaiters (purge { s1 with locus := s1.locus.filter fun c => c.uid != t.uid }))

/-! ### Publications (R209, R212) -/

/-- Superseded sectors that are kept, each with the commit that superseded it. -/
def keptSectors (ms : MemSide) : List (Nat × Nat) := (ms.retained.map fun r => (r.1, r.2.1 / 64)).eraseDups

/-- Superseded sectors a slice keeps. -/
def keptOf (map : BitVec 512) (ms : MemSide) (slice : Nat) : Nat :=
  ((keptSectors ms).filter fun k => sliceOfSector map k.2 == slice).length

/-- Sectors that the version backing area holds (R212, R312): VBSIZE MiB. -/
def backingSectors (map : BitVec 512) : Nat := 16384 * bitsOf map.toNat 352 32

/-- Superseded sectors that stand in the backing area: what each slice keeps beyond its own version ways. -/
def backed (map : BitVec 512) (ms : MemSide) : Nat :=
  (((keptSectors ms).map fun k => sliceOfSector map k.2).eraseDups).foldl (fun n sl => n + (keptOf map ms sl - Config.versionWays sl)) 0

/-- A slice that would need more of the backing area than there is (R212). -/
def overSpace (map : BitVec 512) (old new : MemSide) : Option Nat :=
  if new.retained.length ≤ backingSectors map then none
  else if backed map new ≤ backingSectors map then none
  else (new.retained.map fun r => sliceOfSector map (r.2.1 / 64)).find? fun sl =>
    decide (keptOf map old sl < keptOf map new sl ∧ Config.versionWays sl < keptOf map new sl)

/-- The sector of an entry of the team in focus that has an uncorrectable error as it publishes: every sector of the publication is an entry
by then, sent to its home before or by step 2 (R209). -/
def entryBad (s : State) : Option Nat :=
  s.upsets.findSome? fun u => match u with
    | .entry uid n => if uid = s.team.uid ∧ s.team.ver.pub.any (fun c => c.1 / 64 == n) = true then some n else none
    | _ => none

/-- A publication fails (R209): group 17 reason 4, and nothing is published. -/
def failPublication (s : State) (n : Nat) : State :=
  let src := 2 * 2 ^ 24 + sliceOfSector s.mgmt.map n
  let t := s.team
  takeTrap (logEvent (s.withTeam { unpublish t with wait := .ready }) 5 src (leBytes 8 (64 * n) ++ leBytes 4 4))
    ⟨17, det0 4 src, BitVec.ofNat 32 (64 * n), BitVec.ofNat 32 (64 * n / 2 ^ 32)⟩ (resumePc t)

/-- What a publication to host memory meets that the link cannot carry (R414): the lane that reports and the first address. -/
def pubLost (s : State) (sc : Nat) : Option (Nat × Nat) :=
  match lostLink s, s.team.ver.pub.find? fun c => sc == 2 && isHost c.1 with
  | some k, some c => some (k, c.1)
  | _, _ => none

/-- A publication that the link cannot carry: group 17 reason 3, and nothing is published (R209, R414). -/
def failLink (s : State) (lane pa : Nat) : State :=
  takeTrap (s.withTeam { unpublish s.team with wait := .ready }) (trapLink lane pa) (resumePc s.team)

/-- The publication in progress of the team in focus commits, and what waited for it goes on (R126, R209, R225, R227); without
version space it waits, and the pressure is logged once (R212). -/
def commitPublication (s : State) (sc : Nat) (next : AfterPub) (pressed : Bool) : State :=
  match entryBad s, pubLost s sc with
  | some n, _ => failPublication s n
  | none, some (k, a) => failLink s k a
  | none, none =>
    let s1 := purge (publish s sc)
    match overSpace s.mgmt.map s.ms s1.ms with
    | some sl =>
      if pressed then s
      else logEvent (s.withTeam { s.team with wait := .publish sc next true }) 6 (2 * 2 ^ 24 + sl) (leBytes 8 sl)
    | none => match next with
      | .phase acq => phaseDone s1 acq sc
      | .barrier arv => arriveNow s1 false arv sc
      | .taskEnd => finishTeam s1

/-- PUBLICATION_COMMIT: the version record is written. -/
def execPublicationCommit (uid : Nat) (s : State) : Host.Outcome State Fault Refusal :=
  .next (onTeam s uid fun s =>
    match s.team.wait with
    | .publish sc next pressed => if s.team.stage = .ended then s else commitPublication s sc next pressed
    | _ => s)

/-- Whether a team without lanes may end (R126, R228, R240). -/
def mayEnd (s : State) (t : Team) : Bool :=
  t.wait == .ending && t.stage == .resident && countersZero t.eng && t.eng.maint.isEmpty && (matrixReads s t).isEmpty

/-- TASK_END (R126): a team without lanes crosses the task-end boundary when nothing of it is outstanding: it publishes at `.SY` and
ends (R214). -/
def execTaskEnd (uid : Nat) (s : State) : Host.Outcome State Fault Refusal :=
  .next (onTeam s uid fun s => if mayEnd s s.team then commitPublication (s.withTeam (beginPublish s.team)) 2 .taskEnd false else s)

/-! ### Results (R93, R95, R97) -/

/-- The bytes of a result in a saved register image at physical address `a` (R97, R400). -/
def imageCells (t : Team) (a : Nat) : Dst → List Host.Cell
  | .none => []
  | .vec r m data => data.zipIdx.flatMap fun x => (lanesOf t.rf.n m).flatMap fun L =>
      cellsAt (a + 0xC00 + 4 * t.rf.n * (r + x.2) + 4 * L) (leBytes 4 (x.1.getD L 0).toNat)
  | .scalar r x => cellsAt (a + if r < 8 then 12 + 4 * r else 0xA80 + 4 * (r - 8)) (leBytes 4 x.toNat)
  | .pred _ _ _ => []

/-- Complete an operation of the context that a handler's entry holds: the result goes into the image (R97, R391). -/
def completeSaved (s : State) (t : Team) (h : Handler) (o : Op) : State :=
  let s1 := immediate s (imageCells t (entryPa s h.entry) o.dst)
  let ops := dropDone [] (h.saved.ops.map fun x => if x.tag == o.tag then { x with done := true } else x)
  s1.modTeam t.uid fun t => { t with handler := some { h with saved := { h.saved with ops := ops } } }

/-- Complete an operation of the team's own: into its registers, and into the entry of an evicted team as well. -/
def completeOwn (s : State) (t : Team) (o : Op) : State :=
  let s1 := match t.stage with
    | .evicted k => immediate s (imageCells t (entryPa s k) o.dst)
    | _ => s
  s1.modTeam t.uid fun t => completeOp t o.tag

/-- Uncorrectable data has reached a team (R313). -/
def poisonTeam (s : State) (uid pa : Nat) : State :=
  onTeam (eccReport s pa) uid fun s => takeTrap s (trap17 s pa) (resumePc s.team)

/-- The operations of a team whose results have arrived but are not written, those of a saved context first. -/
def readyOps (t : Team) : List (Bool × Op) :=
  let pick := fun (e : Engines) => e.ops.filter fun o => o.arrived && !o.done
  (match t.handler with | some h => (pick h.saved).map fun o => (true, o) | none => [])
    ++ (pick t.eng).map fun o => (false, o)

/-- PRODUCER_COMPLETE: result `idx` of a team is written, its destination becomes full, its counter falls (R93, R95). -/
def execProducerComplete (uid idx : Nat) (s : State) : Host.Outcome State Fault Refusal :=
  match s.find uid with
  | none => .next s
  | some t =>
    match (readyOps t)[idx]? with
    | none => .next s
    | some (saved, o) =>
      match t.poison.find? fun p => p.1 == o.tag with
      | some p => .next (poisonTeam s uid p.2)
      | none => match saved, t.handler with
        | true, some h => .next (completeSaved s t h o)
        | _, _ => .next (completeOwn s t o)

/-! ### Continuations (R47 to R53, R299, R406, R437) -/

/-- The parked team in focus may go on, and fetches anew (R131); a continuation is queued (R406, R437). -/
def unpark (s : State) : State :=
  let t := { s.team with wait := .ready, ctl := { s.team.ctl with buffer := [] } }
  match t.stage with
  | .cont k _ => queueCont (s.withTeam t) k
  | _ => s.withTeam t

/-- FUTURE_WAKE: the pager has resolved or refused the page a team waits for (R406). -/
def execFutureWake (uid : Nat) (s : State) : Host.Outcome State Fault Refusal :=
  .next (onTeam s uid fun s =>
    match s.team.wait with
    | .fault va pa refused =>
      let pl := s.team.pl
      let b := commByteK s.ms (keyOf s pl.core pl.asid va) pa
      if s.team.stage = .ended ∨ b.toNat % 4 < 2 then s
      else
        let s1 := unpark (setFuture s pl.core pl.asid va pa 0)
        if b.toNat % 4 = 3 then s1.withTeam { s1.team with pending := s1.team.pending ++ [refused] } else s1
    | _ => s)

/-- Why a team parks, as R51 codes it, with its detail; none for a team that is not parked (R47). -/
def parkReason (t : Team) : Option (Nat × Word) :=
  match t.wait with
  | .service _ num _ => some (1, num)
  | .fault va _ _ => some (2, loHalf va)
  | .twait w => if w.long then some (3, 0) else none
  | _ => none

/-- The conditions of R47, a free pool entry apart. -/
def convertible (t : Team) : Bool :=
  t.kind == .core && t.stage == .resident && t.handler.isNone && t.locus.isNone && countersZero t.eng
    && t.eng.maint.isEmpty && !t.eng.errs.any (fun e => e.path == 7) && (t.rf.nv == 8 || t.rf.nv == 16) && t.pl.role != 2

/-- What a team keeps across a continuation (R48, R92, R101 to R104, R195, R203). -/
def contTeam (t : Team) (k : Nat) (bound : Bool) : Team :=
  { t with
    stage := .cont k none, ver := leaveCore t.ver,
    pl := { t.pl with gangBound := bound },
    rf := { t.rf with s := t.rf.s.take 8 ++ List.replicate 24 0, vfull := BitVec.allOnes 64, sfull := BitVec.allOnes 32,
                      sh := List.replicate 8 0 },
    ctl := { t.ctl with buffer := [], hints := none },
    sp := { t.sp with tcyc := 0, tdl := 0, step := 0 },
    eng := { t.eng with lastBatch := 0 } }

/-- CONTINUATION_CONVERT: a parked team becomes a continuation (R47). A team that parked on TRAPS has its id already. -/
def execContinuationConvert (uid : Nat) (s : State) : Host.Outcome State Fault Refusal :=
  match s.find uid with
  | none => .next s
  | some t =>
    match parkReason t, freePool s with
    | some (reason, detail), some k =>
      if convertible t then
        let fresh := reason != 1
        let u := leaveGroup t
        let t1 := { u with cont := if fresh then BitVec.ofNat 32 s.sched.nextCont else t.cont,
                           pl := { u.pl with gangBound := (match s.gangOf t with | some g => g.scratchLen != 0 | none => false) } }
        let s1 := writePool s t1 k t1.ctl.pc detail reason
        let s2 := { s1 with sched := { s1.sched with poolUsed := k :: s1.sched.poolUsed,
                                                     nextCont := if fresh then s1.sched.nextCont + 1 else s1.sched.nextCont } }
        .next (s2.modTeam uid fun _ => contTeam t1 k t1.pl.gangBound)
      else .next s
    | _, _ => .next s

/-- A queued continuation's place in its cluster's queue: whether another stands before it, by priority, then in the order of posting
(R299). -/
def queuedBefore (a b : Team) : Bool :=
  match a.stage, b.stage with
  | .cont _ (some p), .cont _ (some q) =>
    p.target == q.target && (decide (b.pl.prio < a.pl.prio) || (a.pl.prio == b.pl.prio && decide (p.place < q.place)))
  | _, _ => false

/-- The clusters a continuation may resume in (R49, R299). -/
def resumeClusters (s : State) (t : Team) (target : Nat) (anywhere : Bool) : List Nat :=
  let all := clustersIn (coresOf s t)
  if t.pl.gangBound then [target]
  else if all.contains target && !anywhere then [target]
  else target :: all |>.filter fun c => all.contains c

/-- The continuation with an id. -/
def findCont (s : State) (cont : Nat) : Option Team :=
  s.teams.find? fun t => match t.stage with | .cont _ _ => t.cont.toNat == cont | _ => false

/-- CONTINUATION_RESUME: the first continuation of its cluster's queue takes a seat (R49, R53, R299). -/
def execContinuationResume (cont : Nat) (s : State) : Host.Outcome State Fault Refusal :=
  match findCont s cont with
  | none => .next s
  | some t =>
    match t.stage with
    | .cont k (some q) =>
      if !q.anywhere && s.teams.any (fun u => queuedBefore u t) then .next s
      else match (resumeClusters s t q.target q.anywhere).findSome? fun c => fitTeam s (residents s) t c with
        | none => .next s
        | some seat =>
          let s1 := { s with sched := { s.sched with poolUsed := s.sched.poolUsed.filter fun x => x != k } }
          .next (enterRecord (seatTeam s1 t.uid seat) t.uid (fun u => loadRecord s u k) (BitVec.ofNat 64 (poolPa s k)))
    | _ => .next s

/-- Ticks a continuation waits for its target (R299). -/
def targetTicks : Nat := 65536

/-- CONTINUATION_TARGET_TIMEOUT: any cluster of the core set may take the continuation (R299). -/
def execContinuationTargetTimeout (cont : Nat) (s : State) : Host.Outcome State Fault Refusal :=
  match findCont s cont with
  | none => .next s
  | some t =>
    match t.stage with
    | .cont k (some q) =>
      if targetTicks ≤ (s.cycle - q.since).toNat ∧ !t.pl.gangBound then
        .next (s.modTeam t.uid fun t => { t with stage := .cont k (some { q with anywhere := true }) })
      else .next s
    | _ => .next s

/-! ### Deadlines and issue choice (R42, R43, R70, R102, R304) -/

/-- Whether a team's deadline has passed (R102). -/
def deadlinePassed (s : State) (t : Team) : Bool := t.sp.tdl != 0 && decide (t.sp.tdl ≤ s.cycle)

/-- Whether the deadline's trap is raised now (R102): the team is about to issue, waits at issue, or is in a wait that the
deadline ends; an instruction that has begun completes first. -/
def deadlineEnds (t : Team) : Bool :=
  t.stage == .resident && match t.wait with
    | .ready => !t.book.begun
    | .retry why => why != .fence
    | .yield => true
    | .barrier _ _ => true
    | .twait _ => true
    | _ => false

/-- The deadline's trap of the team in focus (R102): the wait ends, `%tdl` becomes zero. -/
def deadlineTrap (s : State) : State :=
  let t := s.team
  let s1 := modOwnGang s fun g => { g with ringWait := g.ringWait.filter fun w => w.2.2 != t.uid }
  trapBefore { s1 with team := { s1.team with wait := .ready, sp := { t.sp with tdl := 0 },
                                              book := { t.book with yieldTo := [] } } }
    ⟨16, 0, loHalf t.sp.tdl, hiHalf t.sp.tdl⟩

/-- DEADLINE_EXPIRY (R102). -/
def execDeadlineExpiry (uid : Nat) (s : State) : Host.Outcome State Fault Refusal :=
  .next (onTeam s uid fun s => if deadlinePassed s s.team && deadlineEnds s.team then deadlineTrap s else s)

/-- Cycles ready without issue before a team is boosted (R43). -/
def boostCycles : Nat := 4096

/-- PRIORITY_BOOST (R43). -/
def execPriorityBoost (uid : Nat) (s : State) : Host.Outcome State Fault Refusal :=
  .next (s.modTeam uid fun t =>
    if boostCycles ≤ t.book.readyCount then { t with book := { t.book with boosted := true } } else t)

/-- Whether a YIELD is over (R304): the teams it waited for have issued, or its time has run out. -/
def yieldOver (s : State) (t : Team) : Bool :=
  t.wait == .yield && t.stage == .resident && (t.book.yieldTo.isEmpty || decide (t.book.yieldUntil ≤ s.arith))

/-- The YIELD of the team in focus is over. -/
def yieldDone (s : State) : State := retire (s.withTeam { s.team with book := { s.team.book with yieldTo := [] } })

/-- YIELD_TIMEOUT (R304). -/
def execYieldTimeout (uid : Nat) (s : State) : Host.Outcome State Fault Refusal :=
  .next (onTeam s uid fun s => if yieldOver s s.team then yieldDone s else s)

/-- HSCHED_SPACE_EXPIRY (R70). -/
def execHschedSpaceExpiry (uid : Nat) (s : State) : Host.Outcome State Fault Refusal :=
  .next (s.modTeam uid fun t =>
    if t.book.spaceUntil ≤ s.arith then { t with book := { t.book with spaceUntil := 0 } } else t)

/-- Whether the boost of R43 applies. -/
def boostedNow (t : Team) : Bool := t.book.boosted || decide (boostCycles ≤ t.book.readyCount)

/-- The effective priority (R42, R43): a wave and a boosted team run at 15. -/
def effPrio (t : Team) : Nat := if boostedNow t || t.kind == .wave then 15 else t.pl.prio

/-- Whether a team is inside the SPACE cycles of a hint (R70); a boost overrides them. -/
def spaced (s : State) (t : Team) : Bool := !boostedNow t && decide (s.arith < t.book.spaceUntil)

/-- Whether a team issues before another on their group (R42, R70): one inside its SPACE cycles comes after all others,
then priority decides, then a burst, then age, then the slot. -/
def issuesBefore (s : State) (a b : Team) : Bool :=
  let age := decide (a.book.lastIssue < b.book.lastIssue)
    || (a.book.lastIssue == b.book.lastIssue && decide (a.pl.slot < b.pl.slot))
  let tie := (a.book.burst && !b.book.burst) || (a.book.burst == b.book.burst && age)
  let rank := decide (effPrio b < effPrio a) || (effPrio a == effPrio b && tie)
  (!spaced s a && spaced s b) || (spaced s a == spaced s b && rank)

/-- The team R42 chooses on group `g` of the device. -/
def chosen (s : State) (g : Nat) : Option Team :=
  let ts := s.teams.filter fun t => isReady s t && t.kind != .stratum && 4 * t.pl.core + t.pl.group == g
  match ts with
  | [] => none
  | t :: ts => some (ts.foldl (fun b u => if issuesBefore s u b then u else b) t)

/-- Time passes (R26, R43, R101): `%cycle`, the arithmetic clock, `%tcyc` of resident teams, the counts of ready teams. -/
def tick (s : State) (ns arith : Nat) : State :=
  let one := fun (t : Team) =>
    let t1 := if t.stage = .resident then { t with sp := { t.sp with tcyc := t.sp.tcyc + BitVec.ofNat 64 arith } } else t
    if isReady s t && !spaced s t then { t1 with book := { t1.book with readyCount := t1.book.readyCount + arith } } else t1
  let s1 := s.mapTeams one
  { s1 with cycle := s1.cycle + BitVec.ofNat 64 ns, arith := s1.arith + arith }

end Sys2Proof.Machine
end

