-- ==== Sys2Proof/Machine/Graph.lean ====
section
/-! DEFINITION. Graphs, triggers, running an instance, and stratum nodes (R273 to R284, R319 to R324). -/

namespace Sys2Proof.Machine

/-! ### Host writes that are refused (R438) -/

/-- A refused register write or trigger is logged with kind 8 (R398). -/
def refuseWrite (s : State) (src off : Nat) (v : DWord) : State :=
  logEvent s 8 src (leBytes 8 off ++ leBytes 8 v.toNat)

/-- The scheduler as a SOURCE (R388). -/
def schedSource : Nat := 6 * 2 ^ 24

/-! ### The scheduler's reads (R276, R278) -/

/-- The number under which the scheduler's translations are cached. -/
def schedCore : Nat := 192

/-- Consecutive bytes in pieces that stay within a 4 KiB page. -/
def pagePieces : Nat → DWord → Nat → List (DWord × Nat)
  | 0, _, _ => []
  | k + 1, va, n =>
    if n = 0 then []
    else
      let m := min n (4096 - va.toNat % 4096)
      (va, m) :: pagePieces k (va + BitVec.ofNat 64 m) (n - m)

/-- Physical bytes that an access of the scheduler covers within one page, with the page's key index (R325). -/
structure Piece where
  pa : Nat
  len : Nat
  key : Nat
  deriving DecidableEq, Repr

/-- The physical pieces of an access of the scheduler; none where it cannot be made, over a link that cannot deliver among them (R414). -/
def schedPieces (s : State) (asid : Nat) (priv : Bool) (acc : Access) (va : DWord) (n : Nat) : Option (List Piece) :=
  (pagePieces (n / 4096 + 2) va n).foldl (fun out p =>
    match out with
    | none => none
    | some xs =>
      if canonical p.1 then
        match xlate s schedCore asid priv acc p.1 with
        | .ok (pa, l) =>
          if (acc == .write && inRegion s p.1) || (isHost pa && (lostLink s).isSome) then none
          else some (xs ++ [{ pa := pa, len := p.2, key := l.key }])
        | .error _ => none
      else none) (some [])

/-- The committed bytes of pieces. -/
def schedBytes (ms : MemSide) (ps : List Piece) : List Byte := ps.flatMap fun p => commBytesK ms p.key p.pa p.len

/-- How the sectors of pieces enter the L2 when they are written. -/
def schedIns (ps : List Piece) : List (Nat × Ins) :=
  ps.flatMap fun p => (regsFrom (p.pa / 64) ((p.pa + p.len + 63) / 64 - p.pa / 64)).map fun n => (n, { Ins.plain with key := p.key })

/-- The scheduler reads pieces: soft errors are corrected and counted, and the first uncorrectable one is counted and reported (R313,
R398); none then. -/
def schedLoad (s : State) (ps : List Piece) : State × Option (List Byte) :=
  let gs := ps.flatMap fun p => granulesAt s.ms p.pa p.len
  match badGranule s.ms gs with
  | some pa => (eccReport (correctGranules s gs) pa, none)
  | none => (correctGranules s gs, some (schedBytes s.ms ps))

/-- Committed bytes at an address of the graph's address space; none where they cannot be read. -/
def schedRead (s : State) (asid : Nat) (priv : Bool) (va : DWord) (n : Nat) : State × Option (List Byte) :=
  match schedPieces s asid priv .read va n with
  | some ps => schedLoad s ps
  | none => (s, none)

/-- Whether a range has a page with a key (R325). -/
def keyedRange (s : State) (asid : Nat) (va : DWord) (n : Nat) : Bool :=
  if n = 0 ∨ 2 ^ 32 < n then false
  else (pagePieces (n / 4096 + 2) va n).any fun p =>
    match leafOf s schedCore asid p.1.toNat with
    | .ok l => l.pte.extractLsb' 60 4 != 0
    | .error _ => false

/-! ### Graph images (R275 to R277) -/

/-- A node record is well formed (R277, R278). -/
def nodeOk (edges : Nat) (r : List DWord) : Bool :=
  let w0 := wordAt r 0
  let w1 := wordAt r 1
  let kind := bitsOf w0 0 4
  let arg := fun k => wordAt r (4 + k)
  decide (kind ≤ 4) && bitsOf w0 4 4 == 0 && bitsOf w0 9 39 == 0 && (bitsOf w0 8 1 == 0 || kind == 0)
    && bitsOf w1 48 16 == 0 && wordAt r 2 == 0 && wordAt r 3 == 0 && decide (bitsOf w1 0 32 + bitsOf w1 32 16 ≤ edges)
    && (if kind = 0 then arg 0 == 0 && arg 1 == 0 && arg 2 == 0 && arg 3 == 0
        else if kind = 1 then arg 3 == 0 && arg 2 % 64 == 0
        else if kind = 3 then arg 0 % 8 == 0 && arg 2 == 0 && arg 3 == 0
        else if kind = 4 then arg 0 % 8 == 0 && arg 3 == 0
        else true)

/-- Take away nodes without a predecessor among the rest, at most `fuel` times. -/
def peel (g : Graph) : Nat → List Nat → List Nat
  | 0, ns => ns
  | k + 1, ns => peel g k (ns.filter fun n => ns.any fun m => (nodeSuccs g m).contains n)

/-- A loaded image is well formed beyond its node records (R276, R325). -/
def graphOk (s : State) (g : Graph) : Bool :=
  let n := g.nodes.length
  let ids := List.range n
  g.edges.all (fun e => decide (e < n))
    && ids.all (fun i => nodePreds g i == ((ids.flatMap fun m => nodeSuccs g m).filter fun x => x == i).length)
    && (peel g n ids).isEmpty
    && !ids.any fun i => nodeKind g i == 2 && keyedRange s g.asid (nodeArg g i 1) (nodeArg g i 2).toNat

/-- Split bytes into records of `k` 64-bit words. -/
def recordsOf (k : Nat) : Nat → List Byte → List (List DWord)
  | 0, _ => []
  | n + 1, bs => dwordsOf k bs :: recordsOf k n (bs.drop (8 * k))

/-- Give each KERNEL node its launch record, in node order (R276). -/
def dealRecords : List (List DWord) → List (List DWord) → List (List DWord)
  | [], _ => []
  | n :: ns, rs =>
    if bitsOf (wordAt n 0) 0 4 = 0 then rs.getD 0 [] :: dealRecords ns (rs.drop 1) else [] :: dealRecords ns rs

/-- The offset of the launch records in an image: after the edge array, padded so that they stand at multiples of 256 bytes (R276,
R285). -/
def recordsAt (nodes edges : Nat) : Nat := (256 + 64 * nodes + 2 * edges + 255) / 256 * 256

/-- Read a graph image (R276); none where it is ill-formed or unreadable. -/
def readImage (s : State) (asid : Nat) (priv : Bool) : State × Option Graph :=
  let va := s.sched.gimg
  match schedRead s asid priv va 256 with
  | (s, none) => (s, none)
  | (s, some hdr) =>
    let n := numAt hdr 0 8
    let e := numAt hdr 8 8
    if n = 0 ∨ 8192 < n ∨ 65536 < e ∨ numAt hdr 16 240 ≠ 0 then (s, none)
    else
      match schedRead s asid priv (va + 256) (recordsAt n e - 256) with
      | (s, none) => (s, none)
      | (s, some body) =>
        let nodes := recordsOf 8 n body
        let kernels := (nodes.filter fun r => bitsOf (wordAt r 0) 0 4 == 0).length
        match schedRead s asid priv (va + BitVec.ofNat 64 (recordsAt n e)) (256 * kernels) with
        | (s, none) => (s, none)
        | (s, some recs) =>
          let g : Graph :=
            { asid := asid, priv := priv, nodes := nodes,
              edges := (List.range e).map fun k => numAt body (64 * n + 2 * k) 2,
              recs := dealRecords nodes (recordsOf 32 kernels recs),
              units := (recordsAt n e + 256 * kernels + 4095) / 4096, running := false, pending := [], states := [] }
          (s, if nodes.all (nodeOk e) && graphOk s g then some g else none)

/-- Units of the copy of a trigger's patch list (R273, R281); a trigger without one takes none. -/
def patchUnits : Option (List Patch) → Nat
  | none => 0
  | some ps => (16 + 16 * ps.length + 4095) / 4096

/-- Units of scheduler memory in use (R273). -/
def unitsUsed (s : State) : Nat :=
  s.sched.graphs.foldl (fun n x => n + match x.graph with
    | some g => g.units + g.pending.foldl (fun n ps => n + patchUnits ps) 0
    | none => 0) 0

/-- Units of scheduler memory (R273). -/
def schedUnits : Nat := 4096

/-- Change the slot of a graph. -/
def modSlot (s : State) (g : Nat) (f : GraphSlot → GraphSlot) : State :=
  { s with sched := { s.sched with graphs := s.sched.graphs.set g (f (s.sched.graphs.getD g GraphSlot.empty)) } }

/-- Change the graph in a slot. -/
def modGraph (s : State) (g : Nat) (f : Graph → Graph) : State := modSlot s g fun x => { x with graph := x.graph.map f }

/-- Note how the last command of a graph ended (R279). -/
def cmdStat (s : State) (g code : Nat) : State := modSlot s g fun x => { x with cmdstat := code }

/-- A GCMD write that sets a reserved bit or a reserved OP (R275, R438). -/
def gcmdBad (v : DWord) : Bool :=
  let x := v.toNat
  bitsOf x 32 32 != 0 || bitsOf x 12 4 != 0 || bitsOf x 8 1 != 0 || bitsOf x 10 2 == 0 || bitsOf x 10 2 == 3

/-- Whether a slot's graph runs or has a pending trigger. -/
def graphBusy (x : GraphSlot) : Bool := match x.graph with | some g => g.running || !g.pending.isEmpty | none => false

/-- GSTAT g (R279). -/
def gstat (x : GraphSlot) : Nat :=
  let state := match x.graph with | some g => if g.running then 2 else 1 | none => 0
  let pend := match x.graph with | some g => g.pending.length | none => 0
  packFields [(8, state), (4, x.cmdstat), (4, pend), (24, x.count), (8, x.failCode), (16, x.failNode)]

/-- Whether a GCMD write sets PRIV from a queue that is not the host driver's privileged one (R275). -/
def gcmdUnpriv (s : State) (v : DWord) : Bool := v.getLsbD 9 && !s.host.privq

/-- Such a command is refused. The refusal is written to GSTAT g (R275); R279 gives no CMDSTAT for it, so its code is a free value other
than 0, which means done (log 95). -/
def refusePriv (s : State) (n : Nat) : State :=
  cmdStat { s with free := s.free + 1 } n (1 + Config.freeChoice s.free % 15)

/-- GRAPH_UPLOAD: a GCMD write with OP 1 (R275, R276). DESIGN CHOICE (log 102): the new graph's INSTANCES, FAILNODE and FAILCODE are 0. -/
def execGraphUpload (v : DWord) (s : State) : Host.Outcome State Fault Refusal := overLink s <|
  let n := bitsOf v.toNat 0 8
  if gcmdBad v then .next (refuseWrite s schedSource 0x40008 v)
  else if bitsOf v.toNat 10 2 ≠ 1 then .next s
  else if gcmdUnpriv s v then .next (refusePriv s n)
  else
    let slot := s.sched.graphs.getD n GraphSlot.empty
    if graphBusy slot then .next (cmdStat s n 2)
    else match readImage s (bitsOf v.toNat 16 16) (v.getLsbD 9) with
      | (s, none) => .next (cmdStat s n 3)
      | (s, some g) =>
        let old := match slot.graph with | some g => g.units | none => 0
        if schedUnits < unitsUsed s - old + g.units then .next (cmdStat s n 1)
        else .next (modSlot s n fun _ => { GraphSlot.empty with graph := some g })

/-- GRAPH_REMOVE: a GCMD write with OP 2 (R275). DESIGN CHOICE (log 102): INSTANCES, FAILNODE and FAILCODE become 0. -/
def execGraphRemove (v : DWord) (s : State) : Host.Outcome State Fault Refusal := overLink s <|
  let n := bitsOf v.toNat 0 8
  if gcmdBad v then .next (refuseWrite s schedSource 0x40008 v)
  else if bitsOf v.toNat 10 2 ≠ 2 then .next s
  else if gcmdUnpriv s v then .next (refusePriv s n)
  else if graphBusy (s.sched.graphs.getD n GraphSlot.empty) then .next (cmdStat s n 2)
  else .next (modSlot s n fun _ => GraphSlot.empty)

/-! ### Triggers (R280, R281) -/

/-- A patch entry (R281). -/
def patchOf (bs : List Byte) : Patch :=
  let x := numAt bs 0 8
  { value := BitVec.ofNat 64 (numAt bs 8 8), field := bitsOf x 16 6, node := bitsOf x 0 13 }

/-- A patch entry that names something it may (R281). -/
def patchOk (g : Graph) (bs : List Byte) : Bool :=
  let x := numAt bs 0 8
  let p := patchOf bs
  bitsOf x 22 42 == 0 && bitsOf x 13 3 == 0 && decide (p.node < g.nodes.length) && decide (4 ≤ p.field ∧ p.field ≤ 39)
    && (decide (p.field < 8) || nodeKind g p.node == 0)

/-- Apply one patch to a graph (R281). -/
def applyPatch (g : Graph) (p : Patch) : Graph :=
  if p.field < 8 then { g with nodes := g.nodes.set p.node ((g.nodes.getD p.node []).set p.field p.value) }
  else { g with recs := g.recs.set p.node ((g.recs.getD p.node []).set (p.field - 8) p.value) }

/-- Read a patch list (R281, R325); none where it is refused. -/
def readPatches (s : State) (g : Graph) (va : DWord) : State × Option (List Patch) :=
  match schedRead s g.asid g.priv va 16 with
  | (s, none) => (s, none)
  | (s, some hdr) =>
    let n := bitsOf (numAt hdr 0 16) 0 9
    if bitsOf (numAt hdr 0 16) 9 119 ≠ 0 ∨ 256 < n then (s, none)
    else match schedRead s g.asid g.priv (va + 16) (16 * n) with
      | (s, none) => (s, none)
      | (s, some body) =>
        let es := (List.range n).map fun k => (body.drop (16 * k)).take 16
        let ps := es.map patchOf
        let g1 := ps.foldl applyPatch g
        (s, if es.all (patchOk g) && !ps.any (fun p => decide (p.field < 8) && nodeKind g p.node == 2
              && keyedRange s g.asid (nodeArg g1 p.node 1) (nodeArg g1 p.node 2).toNat) then some ps
            else none)

/-- TRIGGER: the write is accepted or refused (R280). -/
def execTrigger (v : DWord) (s : State) : Host.Outcome State Fault Refusal := overLink s <|
  let n := bitsOf v.toNat 0 8
  let refuse := fun (s : State) (code : Nat) => refuseWrite (cmdStat s n code) schedSource 0x40010 v
  match graphAt s n with
  | none => .next (refuse s 4)
  | some g =>
    if 4 ≤ g.pending.length then .next (refuse s 4)
    else
      let plist : DWord := v &&& ~~~0xFF
      let r := if plist = 0 then (s, some none) else (readPatches s g plist).map id fun x => x.map some
      match r with
      | (s, none) => .next (refuse s 5)
      | (s, some ps) =>
        if schedUnits < unitsUsed s + patchUnits ps then .next (refuse s 1)
        else
          let s1 := cmdStat (modGraph s n fun g => { g with pending := g.pending ++ [ps] }) n 0
          .next { s1 with sched := { s1.sched with trigseq := s1.sched.trigseq + 1 } }

/-- INSTANCE_BEGIN: the oldest pending trigger begins (R280, R281). -/
def execInstanceBegin (graph : Nat) (s : State) : Host.Outcome State Fault Refusal :=
  match graphAt s graph with
  | none => .next s
  | some g =>
    match g.pending with
    | [] => .next s
    | ps :: rest =>
      if g.running then .next s
      else
        let g1 := (ps.getD []).foldl applyPatch g
        .next (modGraph s graph fun _ =>
          { g1 with pending := rest, running := true, states := List.replicate g.nodes.length .waiting })

/-! ### Running an instance (R282 to R284) -/

/-- The state of a node. -/
def nodeState (g : Graph) (n : Nat) : NodeState := g.states.getD n .waiting

/-- Whether a node has ended. -/
def nodeOver : NodeState → Bool
  | .done => true
  | .failed _ => true
  | .cancelled => true
  | _ => false

/-- Whether a node may launch (R282). -/
def canLaunch (s : State) (g : Graph) (n : Nat) : Bool :=
  let launched := fun p => match nodeState g p with | .grid _ => true | .retired _ => true | .done => true | _ => false
  nodeState g n == .waiting && (nodeKind g n != 0 || gridRoom s)
    && (predsOf g n).all fun p => nodeState g p == .done || (nodeEarly g n && nodeKind g p == 0 && launched p)

/-- Set the state of a node. -/
def setNode (s : State) (g n : Nat) (x : NodeState) : State := modGraph s g fun gr => { gr with states := gr.states.set n x }

/-- The successors of a node and theirs, at most `fuel` edges away. -/
def reachFrom (g : Graph) : Nat → List Nat → List Nat
  | 0, ns => ns
  | k + 1, ns => reachFrom g k (ns ++ (ns.flatMap fun n => nodeSuccs g n).filter fun m => !ns.contains m).eraseDups

/-- The instance completes when every node has ended (R284). -/
def settleInstance (s : State) (n : Nat) : State :=
  match graphAt s n with
  | none => s
  | some g =>
    if g.running && g.states.all nodeOver then
      let fails := (g.states.zipIdx.filterMap fun x => match x.1 with | .failed c => some (x.2, c) | _ => none).head?
      modSlot s n fun x => { x with
        graph := some { g with running := false }, count := (x.count + 1) % 2 ^ 24,
        failNode := (fails.map fun f => f.1).getD 0, failCode := (fails.map fun f => f.2).getD 0 }
    else s

/-- A node fails: it is logged, and the nodes that depend on it and have not launched are cancelled (R284). -/
def failNode (s : State) (n k code : Nat) : State :=
  let s1 := logEvent (setNode s n k (.failed code)) 7 schedSource (leBytes 4 n ++ leBytes 4 k ++ leBytes 4 code)
  settleInstance (modGraph s1 n fun g =>
    let hit := reachFrom g g.nodes.length (nodeSuccs g k)
    { g with states := g.states.zipIdx.map fun x => if hit.contains x.2 && x.1 == .waiting then .cancelled else x.1 }) n

/-- A node completes (R282). -/
def doneNode (s : State) (n k : Nat) : State := settleInstance (setNode s n k .done) n

/-- A KERNEL node launches (R282, R289). -/
def launchKernel (s : State) (n k : Nat) (g : Graph) : State :=
  let r := g.recs.getD k []
  if badRecord r g.priv (BitVec.allOnes 24) then failNode s n k 1
  else setNode (startGrid s r (.node n k) g.asid (recPrio r) 0 (BitVec.allOnes 24)) n k (.grid s.sched.nextGrid)

/-- A COPY node starts: it reads committed data (R278). -/
def launchCopy (s : State) (n k : Nat) (g : Graph) : State :=
  let len := (nodeArg g k 2).toNat
  match schedPieces s g.asid g.priv .read (nodeArg g k 0) len, schedPieces s g.asid g.priv .write (nodeArg g k 1) len with
  | some src, some dst =>
    if len % 64 ≠ 0 then failNode s n k 2
    else match schedLoad s src with
      | (s, none) => failNode s n k 2
      | (s, some bs) => setNode s n k (.copying ((dst.flatMap fun p => regsFrom p.pa p.len).zip bs) (schedIns dst))
  | _, _ => failNode s n k 2

/-- The log entry of a STRATUM node refused at launch (R323, R324). -/
def refuseStratum (s : State) (n k : Nat) : State :=
  let entry := packFields [(8, 10), (8, 0), (48, 0), (8, 0), (8, n), (16, k), (32, 0), (64, 0), (64, 0)]
  failNode (logEvent s 2 schedSource (leBytes 32 entry)) n k 3

/-- The pages of a STRATUM range: HBM, readable and writable, without a key (R319); none if one is not. -/
def stratumPages (s : State) (g : Graph) (base : DWord) : Nat → Nat → Option (List (Nat × DWord × Nat × Nat))
  | 0, _ => some []
  | m + 1, i =>
    let va := base + BitVec.ofNat 64 (4096 * i)
    if canonical va then
      match xlate s schedCore g.asid g.priv .rw va with
      | .ok (pa, l) =>
        if isHbm pa && l.pte.extractLsb' 60 4 == 0 then
          (stratumPages s g base m (i + 1)).map fun xs => (channelOf s.mgmt.map pa, va, pa, i) :: xs
        else none
      | .error _ => none
    else none

/-- A STRATUM node launches (R319). -/
def launchStratum (s : State) (n k : Nat) (g : Graph) : State :=
  let code := nodeArg g k 0
  let base := nodeArg g k 1
  let len := (nodeArg g k 2).toNat
  let par := nodeArg g k 3
  if code.toNat % 4096 ≠ 0 ∨ base.toNat % 4096 ≠ 0 ∨ len = 0 ∨ len % 4096 ≠ 0 ∨ 2 ^ 32 < len ∨ par.toNat % 32 ≠ 0 then
    refuseStratum s n k
  else
    let c := schedRead s g.asid g.priv code 4096
    let p := if par = 0 then (c.1, some []) else schedRead c.1 g.asid g.priv par 32
    let s := p.1
    match c.2, p.2, stratumPages s g base (len / 4096) 0 with
    | some cs, some ps, some blocks =>
      let run : StratumRun := { graph := n, node := k, codeVa := code, code := wordsOf 1024 cs, params := wordsOf 8 ps,
                                blocks := blocks, failed := false }
      setNode { s with strat := { s.strat with runs := s.strat.runs ++ [run] } } n k .stratum
    | _, _, _ => refuseStratum s n k

/-- A HOST-SIGNAL node writes its value to host memory (R278). -/
def launchSignal (s : State) (n k : Nat) (g : Graph) : State :=
  let va := nodeArg g k 0
  match schedPieces s g.asid g.priv .write va 8 with
  | some [p] =>
    if isHost p.pa && va.toNat % 8 == 0 then
      setNode (immediate s (cellsAt p.pa (leBytes 8 (nodeArg g k 1).toNat))) n k .signal
    else failNode s n k 6
  | _ => failNode s n k 6

/-- An EXTERNAL-WAIT node starts to watch its word (R278). -/
def launchWatch (s : State) (n k : Nat) (g : Graph) : State :=
  let va := nodeArg g k 0
  match schedPieces s g.asid g.priv .read va 8 with
  | some [p] => if va.toNat % 8 = 0 then setNode s n k (.watch p.pa p.key s.cycle) else failNode s n k 4
  | _ => failNode s n k 4

/-- NODE_LAUNCH: the launchable node with the lowest index launches (R282). -/
def execNodeLaunch (graph node : Nat) (s : State) : Host.Outcome State Fault Refusal :=
  match graphAt s graph with
  | none => .next s
  | some g =>
    if g.running && decide (node < g.nodes.length) && canLaunch s g node && !(List.range node).any (canLaunch s g) then
      let kind := nodeKind g node
      .next (if kind = 0 then launchKernel s graph node g
        else if kind = 1 then launchCopy s graph node g
        else if kind = 2 then launchStratum s graph node g
        else if kind = 3 then launchSignal s graph node g
        else launchWatch s graph node g)
    else .next s

/-- Whether the wavefronts of a STRATUM node have finished (R320, R323). -/
def stratumOver (s : State) (n k : Nat) : Bool :=
  !s.strat.current.any (fun x => x.2.graph == n && x.2.node == k)
    && s.strat.runs.all fun r => r.graph != n || r.node != k || r.failed || r.blocks.isEmpty

/-- NODE_COMPLETE: a KERNEL node's grid has retired, a COPY node commits, a STRATUM node's wavefronts are done (R282). -/
def execNodeComplete (graph node : Nat) (s : State) : Host.Outcome State Fault Refusal :=
  match graphAt s graph with
  | none => .next s
  | some g =>
    match nodeState g node with
    | .retired fatal => .next (if fatal then failNode s graph node 5 else doneNode s graph node)
    | .copying cells ins => .next (doneNode { s with ms := commitAll (l2View s) (insIn ins) s.ms cells } graph node)
    | .stratum =>
      if stratumOver s graph node then
        let bad := s.strat.runs.any fun r => r.graph == graph && r.node == node && r.failed
        let gone := fun (t : Team) => t.kind == .stratum && t.stage == .ended
        let s1 := { s with
          team := if gone s.team then Team.absent else s.team,
          others := s.others.filter fun t => !gone t,
          strat := { s.strat with runs := s.strat.runs.filter fun r => r.graph != graph || r.node != node } }
        .next (if bad then failNode s1 graph node 3 else doneNode s1 graph node)
      else .next s
    | _ => .next s

/-- EXTERNAL_WAIT_WAKE: the watched word, read as unsigned, is at least the target (R278). -/
def execExternalWaitWake (graph node : Nat) (s : State) : Host.Outcome State Fault Refusal :=
  match graphAt s graph with
  | none => .next s
  | some g =>
    match nodeState g node with
    | .watch pa key _ =>
      .next (if (nodeArg g node 1).toNat ≤ ofLeBytes (commBytesK s.ms key pa 8) then doneNode s graph node else s)
    | _ => .next s

/-- EXTERNAL_WAIT_TIMEOUT: the node fails with code 4 (R278, R279). -/
def execExternalWaitTimeout (graph node : Nat) (s : State) : Host.Outcome State Fault Refusal :=
  match graphAt s graph with
  | none => .next s
  | some g =>
    match nodeState g node with
    | .watch _ _ since =>
      let limit := (nodeArg g node 2).toNat
      .next (if limit ≠ 0 ∧ limit ≤ (s.cycle - since).toNat then failNode s graph node 4 else s)
    | _ => .next s

/-- HOST_SIGNAL_ACK: host memory has acknowledged the write (R278). -/
def execHostSignalAck (graph node : Nat) (s : State) : Host.Outcome State Fault Refusal :=
  match graphAt s graph with
  | none => .next s
  | some g =>
    match nodeState g node with
    | .signal => .next (doneNode s graph node)
    | _ => .next s

/-! ### Stratum block runs (R320) -/

/-- The wavefront of a channel at the start of a block run. -/
def wavefront (s : State) (ch uid : Nat) (r : StratumRun) (index : Nat) : Team :=
  let const := fun (x : Nat) => List.replicate 32 (BitVec.ofNat 32 x : Word)
  let kept := ((s.strat.kept.find? fun x => x.1 == ch).map fun x => x.2).getD (List.replicate 5 (const 0))
  let v := [(List.range 32).map fun L => (BitVec.ofNat 32 (4 * L) : Word), const index, const ch]
    ++ ((List.range 8).map fun k => List.replicate 32 (r.params.getD k 0)) ++ kept
  { Team.absent with
    uid := uid, kind := .stratum, stage := .resident, pl := { Team.absent.pl with core := ch, codebase := r.codeVa },
    rf := { Regs.zero 32 16 with v := v }, ctl := Control.entry r.codeVa 32 }

/-- STRATUM_BLOCK_RUN: the wavefront of a channel begins its next block (R320); nodes run there in launch order. -/
def execStratumBlockRun (channel : Nat) (s : State) : Host.Outcome State Fault Refusal :=
  if s.strat.current.any fun x => x.1 == channel then .next s
  else
    match s.strat.runs.find? fun r => !r.failed && r.blocks.any fun b => b.1 == channel with
    | none => .next s
    | some r =>
      match r.blocks.find? fun b => b.1 == channel with
      | none => .next s
      | some (ch, va, pa, i) =>
        let b : BlockRun := { graph := r.graph, node := r.node, va := va, pa := pa, index := i, buffer := [], issued := 0 }
        .next { s with
          ms := { s.ms with backs := s.ms.backs.filter fun x => x.1 / 256 != pa / 4096 },
          others := s.others ++ [wavefront s channel s.sched.nextUid r i],
          sched := { s.sched with nextUid := s.sched.nextUid + 1 },
          strat := { s.strat with
            current := (channel, b) :: s.strat.current,
            runs := s.strat.runs.map fun x =>
              if x.graph == r.graph && x.node == r.node then { x with blocks := x.blocks.filter fun y => y != (ch, va, pa, i) }
              else x } }

end Sys2Proof.Machine
end

