-- ==== Sys2Proof/Machine/Sys.lean ====
section
/-! DEFINITION. Service calls, breakpoints, SYNCI and TLBINV, majors 0x60 and 0x61, and the service
ring's host side (R408, R410 to R412, R418 to R420). -/

namespace Sys2Proof.Machine

/-! ### The service ring (R408, R418 to R420) -/

/-- Where host physical addresses appear in the device's address space (R417). -/
def hostPa (a : Nat) : Nat := 0x400000000000 + a

/-- The base of a register whose bits [63:12] hold it. -/
def base12 (x : DWord) : Nat := x.toNat / 4096 * 4096

/-- Headers of the ring, 0 for no ring (R418). -/
def ringLog (s : State) : Nat := (s.host.srbase.extractLsb' 0 5).toNat
/-- LOGB of the argument area. -/
def argLog (s : State) : Nat := (s.host.srarg.extractLsb' 0 5).toNat

/-- The device address of argument block `i`. -/
def blockPa (s : State) (i : Nat) : Nat := hostPa (base12 s.host.srarg + 64 * (i % 2 ^ argLog s))

/-- The argument block of one lane: v0 to v15, 0 at or above V (R408). -/
def argBlock (t : Team) (L : Nat) : List Byte :=
  (List.range 16).flatMap fun i => leBytes 4 (if i < t.rf.nv then (vget t i L).toNat else 0)

/-- The header of a request (R419). -/
def svcHeader (s : State) (cont num : Word) (m : LaneSet) (c : Nat) : List Byte :=
  let t := s.team
  leBytes 4 cont.toNat ++ leBytes 4 num.toNat ++ leBytes 4 t.pl.grid ++ leBytes 4 (t.pl.asid + laneCode t.rf.n * 2 ^ 16)
    ++ leBytes 4 s.host.srahead.toNat ++ leBytes 4 c ++ leBytes 4 (summary m).toNat ++ leBytes 128 m.toNat
    ++ List.replicate 100 0

/-- Send a request and park (R408, R419). -/
def sendService (s : State) (m : LaneSet) (num : Word) : State :=
  let t := s.team
  let ls := lanesOf t.rf.n m
  let first := s.host.srahead.toNat
  let cont : Word := BitVec.ofNat 32 s.sched.nextCont
  let s1 := immediate s (ls.zipIdx.flatMap fun x => cellsAt (blockPa s (first + x.2)) (argBlock t x.1))
  let hdr := hostPa (base12 s.host.srbase + 256 * (s.host.srhead.toNat % 2 ^ ringLog s))
  let s2 := immediate s1 (cellsAt hdr (svcHeader s cont num m ls.length))
  let r : SvcReq := { cont := cont, uid := some t.uid, lanes := m, first := first, count := ls.length, freed := false }
  let s3 := { s2 with
    host := { s2.host with srahead := s2.host.srahead + BitVec.ofNat 64 ls.length, srhead := s2.host.srhead + 1,
                           requests := s2.host.requests ++ [r] },
    sched := { s2.sched with nextCont := s2.sched.nextCont + 1 } }
  let u := passWait { t with cont := cont }
  let s4 := endWait (s3.withTeam { u with ctl := { u.ctl with buffer := [] } })
  { s4 with team := { s4.team with wait := .service m num (trap13 2 num (codeOff t t.ctl.pc)) } }

/-- TRAPS (R408): the team parks, and goes on at the next instruction. Its reply writes v0 to v15, so it is not ready while a matrix
command has still to read one of them (R239). -/
def execTraps (o : TrapsOp) (s : State) : Host.Outcome State Fault Refusal :=
  issue (.traps o) s fun s =>
    let t := s.team
    let m := active t o.g
    let c := (lanesOf t.rf.n m).length
    let num := sget t o.a.toNat
    if m = 0 then .next (retire s)
    else if (matrixReads s t).any fun r => decide (r < 16) then .wait .operand
    else if ringLog s = 0 ∨ argLog s = 0 then .trap (trap13 1 num (codeOff t t.ctl.pc))
    else if (s.host.srhead - s.host.srtail).toNat < 2 ^ ringLog s
        ∧ (s.host.srahead - s.host.sratail).toNat + c ≤ 2 ^ argLog s then
      match lostLink s with
      | some k => .trap (trapLink k (blockPa s s.host.srahead.toNat))
      | none => .next (sendService s m num)
    else .wait .room

/-- Free blocks: SRATAIL passes every run of freed blocks at its head (R420). -/
def advanceTail : Nat → HostRegs → HostRegs
  | 0, h => h
  | k + 1, h =>
    match h.requests.find? fun r => r.freed && BitVec.ofNat 64 r.first == h.sratail with
    | some r => advanceTail k { h with sratail := h.sratail + BitVec.ofNat 64 r.count,
                                       requests := h.requests.filter fun x => x != r }
    | none => h

/-- What the end of a wait has brought a team enters its registers, if it is on its group and no matrix command has still to read one
that it writes (R239, R408). -/
def lateNow (s : State) (t : Team) : Team :=
  let busy := match t.late with
    | some (.vec r _ data) => (matrixReads s t).any fun x => decide (r ≤ x ∧ x < r + data.length)
    | _ => false
  if t.stage == .resident && !busy then settleLate t else t

/-- The reply of a request reaches its team (R408): words of the blocks, which enter the registers of a team on its group once no
matrix command has still to read them (R239), or the failure. -/
def finishService (s : State) (r : SvcReq) (ok : Bool) : State :=
  let t := s.team
  match t.wait with
  | .service m _ failed =>
    if ok then match lostLink s with
    | some k => takeTrap s (trapLink k (blockPa s r.first)) (resumePc t)
    | none =>
      let ls := (lanesOf t.rf.n m).zipIdx
      let word := fun (i L : Nat) => match ls.find? fun x => x.1 == L with
        | some x => (BitVec.ofNat 32 (commNum s.ms (blockPa s (r.first + x.2) + 4 * i) 4) : Word)
        | none => 0
      let d := Dst.vec 0 m ((List.range (min 16 t.rf.nv)).map fun i => (List.range t.rf.n).map (word i))
      unpark (s.withTeam (lateNow s { t with late := some d }))
    else unpark (s.withTeam { t with pending := t.pending ++ [failed] })
  | _ => s

/-- SRCOMP: the host completes a service request (R420). -/
def execSrcomp (v : DWord) (s : State) : Host.Outcome State Fault Refusal := overLink s <|
  let refused := refuseWrite s 0 0x80030 v
  let status := bitsOf v.toNat 0 2
  if bitsOf v.toNat 2 30 ≠ 0 ∨ 2 ≤ status then .next refused
  else
    match s.host.requests.find? fun r => r.cont == hiHalf v && !r.freed with
    | none => .next refused
    | some r =>
      let s1 := match r.uid with
        | some u => onTeam s u fun s => if s.team.cont = r.cont then finishService s r (status == 0) else s
        | none => s
      let h := { s1.host with requests := s1.host.requests.map fun x => if x.cont == r.cont && !x.freed then { x with freed := true } else x }
      .next { s1 with host := advanceTail h.requests.length h }

/-- SRTAIL_WRITE: the host frees header slots (R418, R420). -/
def execSrtailWrite (v : DWord) (s : State) : Host.Outcome State Fault Refusal := overLink s <|
  .next { s with host := { s.host with srtail := v } }

/-- FQTAIL_WRITE: the pager consumes fault queue entries (R388, R406). -/
def execFqtailWrite (v : DWord) (s : State) : Host.Outcome State Fault Refusal := overLink s <|
  .next { s with host := { s.host with fqtail := v } }

/-! ### Unpublished bytes, and BKPT (R409, R410) -/

/-- The physical ranges of a translated range of the team's own. -/
def physRanges (s : State) (va : DWord) (len : Nat) : List (Nat × Nat) :=
  (rangePages va len).filterMap fun p => match xlateT s s.team .read p.1 with
    | .ok (pa, _) => some (pa, p.2)
    | .error _ => none

/-- BKPT (R410). -/
def execBkpt (s : State) : Host.Outcome State Fault Refusal :=
  issue .bkpt s fun s => .next (retireWith s (some ⟨15, 0, codeOff s.team s.team.ctl.pc, 0⟩))

/-! ### SYNCI and TLBINV (R411, R412) -/

/-- SYNCI (R411): every fetched copy of the range's sectors is dropped, and the team's own loop buffer forgets them. -/
def execSynci (o : RangeOp) (s : State) : Host.Outcome State Fault Refusal :=
  issue (.synci o) s fun s =>
    let t := s.team
    let base := spair t (2 * o.a.toNat)
    let len := (sget t o.b.toNat).toNat
    if !canonical base then .trap (trap5 2 none base)
    else
      let hit := fun (a : DWord) => len != 0 && decide (base.toNat / 64 * 64 ≤ a.toNat ∧ a.toNat < (base.toNat + len + 63) / 64 * 64)
      let s1 := { s with
        ms := { s.ms with code := s.ms.code.filter fun c => c.asid != t.pl.asid || !hit c.va },
        team := { t with ctl := { t.ctl with buffer := t.ctl.buffer.filter fun x => !hit x.1 } } }
      .next (retire s1)

/-- The operand of TLBINV: ASID, base and length; none where a rule of R412 fails. -/
def tlbinvArgs (base : DWord) (x : Nat) : Option (Nat × Nat × Nat) :=
  let k := bitsOf x 0 6
  if bitsOf x 6 10 ≠ 0 ∨ k < 12 ∨ 57 < k ∨ !canonical base ∨ (if k = 57 then base ≠ 0 else base.toNat % 2 ^ k ≠ 0) then none
  else some (bitsOf x 16 16, base.toNat, if k = 57 then 2 ^ 64 else 2 ^ k)

/-- Whether two ranges meet. -/
def overlaps (a n b m : Nat) : Bool := decide (a < b + m ∧ b < a + n)

/-- A team's accesses under way: loads, gathers and scatters, and its requests to the vertex homes, those of a saved context too. -/
def openAccesses (t : Team) : List Nat :=
  ((t.eng.ops ++ match t.handler with | some h => h.saved.ops | none => []).filter fun o =>
    (o.path == 0 || o.path == 3 || o.path == 4) && !o.done).map fun o => o.tag

/-- The accesses of an address space that may have used a dropped translation and are under way (R412). -/
def oldOps (s : State) (asid : Nat) : List (Nat × Nat) :=
  (s.teams.filter fun t => t.kind != .stratum && t.stage != .ended && t.pl.asid == asid).flatMap fun t =>
    (openAccesses t).map fun tag => (t.uid, tag)

/-- Whether a node's engine works on a range of addresses (R412). -/
def nodeOn (g : Graph) (k base len : Nat) : Bool :=
  match nodeState g k with
  | .stratum => overlaps (nodeArg g k 1).toNat (nodeArg g k 2).toNat base len
  | .copying _ _ => overlaps (nodeArg g k 0).toNat (nodeArg g k 2).toNat base len
      || overlaps (nodeArg g k 1).toNat (nodeArg g k 2).toNat base len
  | _ => false

/-- The STRATUM and COPY nodes on a range of an address space that are under way (R412). -/
def oldNodes (s : State) (asid base len : Nat) : List (Nat × Nat) :=
  s.sched.graphs.zipIdx.flatMap fun x => match x.1.graph with
    | some g => if g.asid = asid ∧ g.running = true then
        ((List.range g.nodes.length).filter fun k => nodeOn g k base len).map fun k => (x.2, k) else []
    | none => []

/-- Whether an access or engine command that used a translation of a range is under way (R339, R412). -/
def usesOld (s : State) (asid base len : Nat) : Bool := !(oldOps s asid).isEmpty || !(oldNodes s asid base len).isEmpty

/-- Whether what a TLBINV waits for has completed. -/
def invalOver (s : State) (w : Inval) : Bool :=
  !(oldOps s w.asid).any (fun x => w.ops.contains x) && !w.nodes.any fun x => match graphAt s x.1 with
    | some g => g.running && match nodeState g x.2 with | .stratum => true | .copying _ _ => true | _ => false
    | none => false

/-- The physical range that a dropped translation mapped inside the range. -/
def droppedRange (s : State) (e : TlbEntry) (base len : Nat) : Nat × Nat :=
  let lo := max e.page base
  let hi := min (e.page + e.size) (base + len)
  let l : Leaf := { pte := e.pte, page := e.page, size := e.size }
  (peerAddr s (l.pa lo), hi - lo)

/-- Finished copies lose what they wrote into some physical ranges before it has joined the write side (R204, R412). -/
def dropWrites (rs : List (Nat × Nat)) (e : Engines) : Engines :=
  let f := fun (c : Copy) => { c with writes := c.writes.filter fun w => !rs.any fun r => decide (r.1 ≤ w.1 ∧ w.1 < r.1 + r.2) }
  { e with unsealed := e.unsealed.map f, batches := e.batches.map fun b => { b with copies := b.copies.map f } }

/-- What TLBINV does to the teams of the address space (R412): unpublished bytes of the dropped pages are gone, holds on their
sectors are released. -/
def invTeam (asid : Nat) (rs : List (Nat × Nat)) (t : Team) : Team :=
  if t.pl.asid = asid ∧ t.kind ≠ .stratum then
    let hit := fun (n : Nat) => rs.any fun r => overlaps (64 * n) 64 r.1 r.2
    let secs := t.ver.held.filter hit
    { t with ver := release (dropBytes t.ver rs) secs, eng := dropWrites rs t.eng,
             handler := t.handler.map fun h => { h with saved := dropWrites rs h.saved } }
  else t

/-- The TLBINV of the team in focus completes (R412). -/
def finishInval (s : State) (w : Inval) : State := endWait (s.mapTeams (invTeam w.asid w.ranges))

/-- TLBINV (R412): the translations of the range are dropped at once; the team waits for what used them, then the versions of the
address space lose what they mapped. -/
def execTlbinv (o : RangeOp) (s : State) : Host.Outcome State Fault Refusal :=
  issue (.tlbinv o) s fun s =>
    let base := spair s.team (2 * o.a.toNat)
    match tlbinvArgs base (sget s.team o.b.toNat).toNat with
    | none => .trap (trap5 12 none base)
    | some (asid, b, len) =>
      let hit := fun (e : TlbEntry) => e.asid == asid && overlaps e.page e.size b len
      let w : Inval := { asid := asid, ranges := (s.ms.tlb.filter hit).map fun e => droppedRange s e b len,
                         ops := oldOps s asid, nodes := oldNodes s asid b len }
      let s1 := { s with ms := { s.ms with
        tlb := s.ms.tlb.filter fun e => !hit e,
        code := s.ms.code.filter fun c => c.asid != asid || !overlaps c.va.toNat 4 b len } }
      if invalOver s1 w then .next (finishInval s1 w)
      else .next (s1.withTeam { s1.team with wait := .inval w })

end Sys2Proof.Machine
end

