-- ==== Sys2Proof/Machine/Sieve.lean ====
section
/-! DEFINITION. The sieve, major 0x5F, and its commands (R421 to R427). -/

namespace Sys2Proof.Machine

/-! ### The sieve area (R421, R422) -/

/-- SVCFG.EN. -/
def svOn (s : State) : Bool := s.host.svcfg.getLsbD 0

/-- LOGD, the depth of a stream. -/
def svLog (s : State) : Nat := bitsOf s.host.svcfg.toNat 4 4

/-- The record of stream `k`. -/
def svRecPa (s : State) (k : Nat) : Nat := base12 s.host.svcfg + 64 * k

/-- The entry `q` of stream `k`. -/
def svEntryPa (s : State) (k q : Nat) : Nat :=
  base12 s.host.svcfg + 2 ^ 22 + 16 * (k * 2 ^ svLog s + (q - 1) % 2 ^ svLog s)

/-- A stream record (R422). -/
structure Stream where
  isOpen : Bool
  asid : Nat
  put : Nat
  rel : Nat
  drain : Nat
  deriving DecidableEq, Repr

/-- The record of stream `k`; whether it is open is also kept beside it. -/
def svRead (s : State) (k : Nat) : Stream :=
  let at_ := fun (off n : Nat) => commNum s.ms (svRecPa s k + off) n
  { isOpen := s.host.openStreams.contains k, asid := at_ 4 2, put := at_ 8 4, rel := at_ 12 4, drain := at_ 16 4 }

/-- The bytes of a record. -/
def svBytes (x : Stream) : List Byte :=
  leBytes 4 (if x.isOpen then 1 else 0) ++ leBytes 4 x.asid ++ leBytes 4 x.put ++ leBytes 4 x.rel ++ leBytes 4 x.drain
    ++ List.replicate 44 0

/-- Write into the sieve area; bytes outside HBM go nowhere. -/
def svStore (s : State) (pa : Nat) (bs : List Byte) : State := immediate s ((cellsAt pa bs).filter fun c => isHbm c.1)

/-- Write the record of stream `k`. -/
def svWrite (s : State) (k : Nat) (x : Stream) : State := svStore s (svRecPa s k) (svBytes x)

/-- Write an entry: token, tag, number and flags. -/
def svPutEntry (s : State) (k q : Nat) (tok tag : Word) (flags : Nat) : State :=
  svStore s (svEntryPa s k q) (leBytes 4 tok.toNat ++ leBytes 4 tag.toNat ++ leBytes 4 q ++ leBytes 4 flags)

/-- Word `j` of an entry. -/
def svField (s : State) (k q j : Nat) : Nat := commNum s.ms (svEntryPa s k q + 4 * j) 4

/-! ### SVPUT, SVGET, SVREL, SVDROP (R423 to R426) -/

/-- The checks of R424 on a stream word: the word, EN, open and owner. -/
def withStream (s : State) (w : Word) (k : Nat → Stream → Result) : Result :=
  let n := w.toNat % 65536
  if w.toNat ≠ n then .trap (trap18 1 n 0)
  else if !svOn s then .trap (trap18 4 n 0)
  else
    let x := svRead s n
    if !x.isOpen || x.asid != s.team.pl.asid then .trap (trap18 1 n 0) else k n x

/-- SVPUT (R425). -/
def execSvput (o : SvOp) (s : State) : Host.Outcome State Fault Refusal :=
  issue (.svput o) s fun s =>
    let t := s.team
    let ls := lanesOf t.rf.n (active t o.g)
    if ls = [] then .next (retire s)
    else withStream s (sget t o.b.toNat) fun k x =>
      if 2 ^ 32 ≤ x.put + ls.length then .trap (trap18 3 k (BitVec.ofNat 32 x.put))
      else if x.put - x.drain + ls.length ≤ 2 ^ svLog s then
        let num := fun (L : Nat) => x.put + 1 + (ls.takeWhile fun j => j != L).length
        let put := fun (s1 : State) (L : Nat) =>
          svPutEntry s1 k (num L) (vget t o.d.toNat L) (vget t o.a.toNat L) 0
        let s1 := svWrite (ls.foldl put s) k { x with put := x.put + ls.length }
        .next (retire (s1.withTeam (setV s1.team o.d.toNat (active t o.g) fun L => BitVec.ofNat 32 (num L))))
      else .wait (.sieve k)

/-- What SVGET returns for one number: token, tag and status (R426). -/
def svLook (s : State) (k : Nat) (x : Stream) (q : Nat) : List Word :=
  if q = 0 ∨ x.put < q then [0, 0, 1]
  else if q ≤ x.drain then [0, 0, 2]
  else
    let st : Word := if svField s k q 3 % 2 = 1 then 3 else 0
    [BitVec.ofNat 32 (svField s k q 0), BitVec.ofNat 32 (svField s k q 1), st]

/-- SVGET (R426). -/
def execSvget (o : SvOp) (s : State) : Host.Outcome State Fault Refusal :=
  issue (.svget o) s fun s =>
    let t := s.team
    let m := active t o.g
    if m = 0 then .next (retire s)
    else withStream s (sget t o.b.toNat) fun k x =>
      let ans := fun (L : Nat) => svLook s k x (vget t o.a.toNat L).toNat
      let data := (List.range 3).map fun j => (List.range t.rf.n).map fun L => (ans L).getD j 0
      .next (retire (s.withTeam (setVs t o.d.toNat m data)))

/-- SVREL (R426). -/
def execSvrel (o : SS) (s : State) : Host.Outcome State Fault Refusal :=
  issue (.svrel o) s fun s =>
    let t := s.team
    let n := (sget t o.b.toNat).toNat
    withStream s (sget t o.a.toNat) fun k x =>
      if x.put < n then .trap (trap18 2 k (BitVec.ofNat 32 n))
      else .next (retire (if n ≤ x.rel then s else svWrite s k { x with rel := n }))

/-- Mark one entry dropped, counting it if it was not yet. -/
def svDropOne (k : Nat) (sn : State × Nat) (q : Nat) : State × Nat :=
  let f := svField sn.1 k q 3
  if f % 2 = 1 then sn else (svStore sn.1 (svEntryPa sn.1 k q + 12) (leBytes 4 (f + 1)), sn.2 + 1)

/-- SVDROP (R426): the entries of the range above REL. -/
def execSvdrop (o : S3) (s : State) : Host.Outcome State Fault Refusal :=
  issue (.svdrop o) s fun s =>
    let t := s.team
    let lo := (sget t o.b.toNat).toNat
    let hi := (sget t (o.b.toNat + 1)).toNat
    withStream s (sget t o.a.toNat) fun k x =>
      if x.put < hi then .trap (trap18 2 k (BitVec.ofNat 32 hi))
      else if lo = 0 ∨ hi < lo then .trap (trap18 2 k (BitVec.ofNat 32 lo))
      else
        let from_ := max lo (x.rel + 1)
        let r := (regsFrom from_ (hi + 1 - from_)).foldl (svDropOne k) (s, 0)
        .next (retire (r.1.withTeam (setS r.1.team o.d.toNat (BitVec.ofNat 32 r.2))))

/-! ### The host's commands (R421) -/

/-- A stream closes: each SVPUT that waits for room in it raises group 18 with reason 1, whether its team is on its group or away (R421). -/
def closeWaiters (s : State) (k : Nat) : State :=
  s.mapTeams fun t => if t.wait = .retry (.sieve k) then { t with wait := .ready, pending := t.pending ++ [trap18 1 k 0] } else t

/-- A write of SVCMD. -/
def writeSvcmd (s : State) (v : DWord) : State :=
  let x := v.toNat
  let op := bitsOf x 0 2
  let k := bitsOf x 16 16
  let refused := refuseWrite s 0 0x90008 v
  if bitsOf x 2 14 ≠ 0 ∨ bitsOf x 48 16 ≠ 0 ∨ op = 0 ∨ op = 3 then refused
  else if op = 1 then
    if !svOn s || (svRead s k).isOpen then refused
    else
      let s1 := svWrite s k { isOpen := true, asid := bitsOf x 32 16, put := 0, rel := 0, drain := 0 }
      { s1 with host := { s1.host with openStreams := k :: s1.host.openStreams } }
  else if svOn s && (svRead s k).isOpen then
    let s1 := svWrite s k { svRead s k with isOpen := false }
    closeWaiters { s1 with host := { s1.host with openStreams := s1.host.openStreams.filter fun j => j != k } } k
  else refused

/-- SVCMD_OPEN. -/
def execSvcmdOpen (v : DWord) (s : State) : Host.Outcome State Fault Refusal := overLink s <| .next (writeSvcmd s v)

/-- SVCMD_CLOSE. -/
def execSvcmdClose (v : DWord) (s : State) : Host.Outcome State Fault Refusal := overLink s <| .next (writeSvcmd s v)

/-- SVDRAIN: accepted only when old DRAIN ≤ new DRAIN ≤ REL. -/
def execSvdrain (v : DWord) (s : State) : Host.Outcome State Fault Refusal := overLink s <|
  let k := bitsOf v.toNat 0 16
  let n := bitsOf v.toNat 32 32
  let x := svRead s k
  if bitsOf v.toNat 16 16 = 0 ∧ svOn s ∧ x.isOpen ∧ x.drain ≤ n ∧ n ≤ x.rel then .next (svWrite s k { x with drain := n })
  else .next (refuseWrite s 0 0x90010 v)

end Sys2Proof.Machine
end

