-- ==== Sys2Proof/Machine/Aperture.lean ====
section
/-! DEFINITION. Host accesses to the registers of the MMIO aperture (R251, R274, R333, R388, R397, R415, R418, R421, R428, R429,
R438), and placing and ending the vertex waves. -/

namespace Sys2Proof.Machine

/-! ### The vertex unit's registers (R251) -/

/-- Whether a grid other than the vertex waves is live: registers that R274, R333, R388 and R418 lock ignore writes. -/
def otherGridLive (s : State) : Bool := s.sched.grids.any fun g => g.from_ != .waves

/-- Whether a vertex wave has not ended. -/
def wavesLive (s : State) : Bool := s.teams.any fun t => t.kind == .wave

/-- The checks of R251 on the launch record of the waves: a privileged grid, N = 32 and V = 64. Records with a non-zero reserved field
are ill-formed, their governor entries and slot records too (R9, R289). -/
def waveRecordOk (r : List DWord) : Bool :=
  recPriv r && recLanes r == 32 && recRegs r == 64 && !recReserved r && decide (bitsOf (teamCfg r) 17 3 ≤ 4)
    && (List.range 64).all (fun e => roleAt r e != 3)
    && (List.range 4).all (fun k => govOk (r.getD (8 + k) 0)) && (List.range 8).all fun k => slotOk (r.getD (12 + k) 0)

/-- The launch record that VXLREC names, read in VXASID's space; none where it cannot be read. -/
def waveRecord (s : State) : State × Option (List DWord) :=
  match spaceOf s (bitsOf s.vx.asid.toNat 0 16) with
  | none => (s, none)
  | some _ => (schedRead s (bitsOf s.vx.asid.toNat 0 16) true s.vx.lrec 256).map id fun x => x.map (dwordsOf 32)

/-- The wave of cluster `c` (R18, R262). -/
def newWave (s : State) (g : Grid) (c : Nat) : Team :=
  let seat := waveSeat s c
  let t := newTeam s g 1 0 { core := seat.1, group := 0, slot := seat.2, bytes := 8192, l1 := 0 }
  { t with kind := .wave, uid := s.sched.nextUid + c, rf := entryRegs g.rec_ c,
           pl := { t.pl with gang := c, team := 0, role := 0, prio := 15, priv := true, gangBound := false },
           sp := entrySpecials g.rec_ (s.sched.nextVid + c) }

/-- Place a wave in each cluster. -/
def placeWaves (s : State) (r : List DWord) : State :=
  let s1 := startGrid s r .waves (bitsOf s.vx.asid.toNat 0 16) 15 0 (BitVec.allOnes 24)
  let id := s.sched.nextGrid
  let fix := fun (g : Grid) => if g.id == id then { g with size := 0 } else g
  let s2 := { s1 with sched := { s1.sched with grids := s1.sched.grids.map fix } }
  match s2.gridOf id with
  | none => s
  | some g =>
    let run := fun (h : Home) => { h with stopped := false }
    { s2 with
      others := s2.others ++ (List.range 24).map (newWave s2 g),
      vx := { s2.vx with homes := s2.vx.homes.map run },
      sched := { s2.sched with nextUid := s2.sched.nextUid + 24, nextVid := s2.sched.nextVid + 24 } }

/-- A write of VXCFG. -/
def writeVxcfg (s : State) (v : DWord) : State :=
  let x := v.toNat
  let refuse := fun (s : State) => refuseWrite s 0 0x70000 v
  if bitsOf x 57 7 ≠ 0 ∨ bitsOf x 23 7 ≠ 0 ∨ bitsOf x 1 15 ≠ 0 then refuse s
  else if vxOn s then
    if bitsOf x 0 1 = 1 then s else { s with vx := { s.vx with cfg := s.vx.cfg &&& ~~~1 } }
  else if bitsOf x 0 1 = 0 then { s with vx := { s.vx with cfg := v } }
  else if bitsOf x 16 7 = 0 ∨ 64 < bitsOf x 16 7 ∨ wavesLive s ∨ !gridRoom s then refuse s
  else match waveRecord s with
    | (s, none) => refuse s
    | (s, some r) => if waveRecordOk r then placeWaves { s with vx := { s.vx with cfg := v } } r else refuse s

/-- Whether a home has nothing left to finish. -/
def homeIdle (s : State) (h : Nat) : Bool :=
  let x := s.vx.homes.getD h Home.empty
  x.queue.isEmpty && x.batch.isNone && !s.vx.travelling.any fun q => q.home == h

/-- With EN clear, the waves of homes that have finished end; with the last wave, their grid (R251). -/
def settleWaves (s : State) : State :=
  if vxOn s then s
  else
    let leaving := fun (t : Team) => t.kind == .wave && homeIdle s (clusterOf t.pl.core)
    let gone := ((s.teams.filter leaving).flatMap entriesOf)
    let s1 := { s with
      team := if leaving s.team then Team.absent else s.team,
      others := s.others.filter fun t => !leaving t,
      sched := { s.sched with ctxUsed := s.sched.ctxUsed.filter fun k => !gone.contains k } }
    if wavesLive s1 then s1
    else { s1 with sched := { s1.sched with grids := s1.sched.grids.filter fun g => g.from_ != .waves } }

/-- VXCFG_ENABLE. -/
def execVxcfgEnable (v : DWord) (s : State) : Host.Outcome State Fault Refusal := overLink s <| .next (writeVxcfg s v)

/-- VXCFG_DISABLE: the write, and the ending of the waves of homes that have finished; that recurs until no wave is left. -/
def execVxcfgDisable (v : DWord) (s : State) : Host.Outcome State Fault Refusal := overLink s <| .next (settleWaves (writeVxcfg s v))

/-! ### The other registers -/

/-- FIRSTERR_CLEAR (R388, R397): a write of FIRSTERR1 with VALID set clears both registers; without it, the ones written to KIND and SOURCE
clear those bits (R8). -/
def execFirsterrClear (v : DWord) (s : State) : Host.Outcome State Fault Refusal := overLink s <|
  if bitsOf v.toNat 48 15 ≠ 0 then .next (refuseWrite s 0 0x60070 v)
  else if v.getLsbD 63 then .next { s with host := { s.host with firsterr0 := 0, firsterr1 := 0 } }
  else .next { s with host := { s.host with firsterr1 := s.host.firsterr1 &&& ~~~v } }

/-- Whether a size code lies in a range, or is 0 (R438). -/
def sizeOk (n lo hi : Nat) : Bool := n == 0 || (decide (lo ≤ n) && decide (n ≤ hi))

/-- Why a write has no effect, or what it does. -/
inductive Written where
  /-- Ignored, not logged. -/
  | ignored
  /-- Changes nothing and is logged with kind 8. -/
  | refused
  /-- Its effect. -/
  | done (s : State)

/-- A write of a locked register: ignored while the lock holds, refused where ill-formed. -/
def lockedWrite (locked bad : Bool) (s : State) : Written := if locked then .ignored else if bad then .refused else .done s

/-- A write of L2CFG: FARWAYS 7 leaves that field (R333); no line stays in a way of the other kind (R332;
DESIGN CHOICE, log 58: it is written back and leaves). -/
def writeL2cfg (s : State) (v : DWord) : State :=
  let far := if bitsOf v.toNat 0 3 = 7 then bitsOf s.res.l2cfg.toNat 0 3 else bitsOf v.toNat 0 3
  settleWays { s with res := { s.res with l2cfg := BitVec.ofNat 64 (bitsOf v.toNat 8 9 * 256 + far) } }

/-- Whether a pool register names a pool that does not lie in its memory (R333). -/
def poolAstray (v : DWord) (hbm : Bool) : Bool :=
  let base := bitsOf v.toNat 21 43 * 2 ^ 21
  let size := bitsOf v.toNat 0 21 * 2 ^ 21
  size != 0 && !(if hbm then isHbm base && isHbm (base + size - 1) else isCxl base && isCxl (base + size - 1))

/-- A pool outside its memory is recorded in the log (R333). -/
def notePool (s : State) (off : Nat) (v : DWord) (hbm : Bool) : State := if poolAstray v hbm then refuseWrite s 0 off v else s

/-- Registers of the scheduler and the L2 (R274, R333). -/
def writeLow (s : State) (off : Nat) (v : DWord) : Option Written :=
  let x := v.toNat
  let lock := otherGridLive s
  match off with
  | 0 => some .ignored
  | 0x40000 => some (lockedWrite false (bitsOf x 0 8 != 0) { s with sched := { s.sched with gimg := v } })
  | 0x40008 => some .refused
  | 0x40018 => some .ignored
  | 0x40020 => some (lockedWrite lock false { s with sched := { s.sched with cpool := v } })
  | 0x40028 => some (lockedWrite lock (bitsOf x 15 5 != 0) { s with sched := { s.sched with gcbarea := v } })
  | 0x50000 => some (lockedWrite lock (bitsOf x 17 47 != 0 || bitsOf x 3 5 != 0 || decide (256 < bitsOf x 8 9)) (writeL2cfg s v))
  | 0x50008 => some (lockedWrite lock false { notePool s off v false with res := { s.res with hrpool0 := v } })
  | 0x50010 => some (lockedWrite lock false { notePool s off v true with res := { s.res with hrpool1 := v } })
  | _ => if 0x40800 ≤ off ∧ off < 0x41000 then some .ignored else none

/-- Registers of R388 and R251. -/
def writeMid (s : State) (off : Nat) (v : DWord) : Option Written :=
  let x := v.toNat
  let lock := otherGridLive s
  let h := s.host
  match off with
  | 0x60000 => some (lockedWrite lock (bitsOf x 1 1 != 0) { s with host := { h with trapvec := v } })
  | 0x60008 => some (lockedWrite lock false { s with host := { h with trapdlv := v &&& 0x5FFFE } })
  | 0x60010 => some (lockedWrite lock (bitsOf x 14 7 != 0) { s with host := { h with ctxarea := v } })
  | 0x60018 => some (lockedWrite lock (bitsOf x 0 21 != 0) { s with host := { h with ctxva := v } })
  | 0x60020 => some (lockedWrite lock (bitsOf x 0 21 != 0) { s with host := { h with astbase := v } })
  | 0x60028 => some (lockedWrite lock (bitsOf x 5 7 != 0 || !sizeOk (bitsOf x 0 5) 6 16) { s with host := { h with fqbase := v } })
  | 0x60030 => some .ignored
  | 0x60040 => some (lockedWrite lock (bitsOf x 5 7 != 0 || !sizeOk (bitsOf x 0 5) 6 20) { s with host := { h with elogbase := v } })
  | 0x60048 => some .ignored
  | 0x60050 => some (.done { s with host := { h with elogtail := v } })
  | 0x60058 => some .ignored
  | 0x60060 => some .ignored
  | 0x60068 => some .ignored
  | 0x70008 => some (lockedWrite (vxOn s) (bitsOf x 0 8 != 0) { s with vx := { s.vx with lrec := v } })
  | 0x70010 => some (lockedWrite (vxOn s) (bitsOf x 16 48 != 0) { s with vx := { s.vx with asid := v } })
  | _ => if 0x61000 ≤ off ∧ off < 0x61000 + 8 * 816 then some .ignored else none

/-- Registers of the service ring, the sieve, the peer windows and the management controller (R417, R418, R421, R429). -/
def writeHigh (s : State) (off : Nat) (v : DWord) : Option Written :=
  let x := v.toNat
  let lock := otherGridLive s
  let h := s.host
  match off with
  | 0x80000 => some (lockedWrite lock (bitsOf x 5 7 != 0 || !sizeOk (bitsOf x 0 5) 4 12) { s with host := { h with srbase := v } })
  | 0x80008 => some (lockedWrite lock (bitsOf x 5 7 != 0 || !sizeOk (bitsOf x 0 5) 10 20) { s with host := { h with srarg := v } })
  | 0x80010 => some .ignored
  | 0x80020 => some .ignored
  | 0x80028 => some .ignored
  | 0x90000 => some (lockedWrite (!h.openStreams.isEmpty) (bitsOf x 8 4 != 0 || bitsOf x 1 3 != 0 || !sizeOk (bitsOf x 4 4) 6 15
      || (bitsOf x 0 1 == 1 && bitsOf x 4 4 == 0)) { s with host := { h with svcfg := v } })
  | 0xA0000 => some .ignored
  | 0xA0008 => some .ignored
  | 0xA0010 => some (lockedWrite false (bitsOf x 11 53 != 0 || decide (bitsOf x 0 11 < 600) || decide (1800 < bitsOf x 0 11))
      { s with mgmt := { s.mgmt with pcap := bitsOf x 0 11 } })
  | 0xA0018 => some .ignored
  | _ =>
    if 0x98000 ≤ off ∧ off < 0x98800 then
      some (lockedWrite false (bitsOf x 10 53 != 0) { s with host := { h with pwin := h.pwin.set ((off - 0x98000) / 8) v } })
    else none

/-- The effect of a write at an aligned offset; none for an unassigned one. -/
def writeReg (s : State) (off : Nat) (v : DWord) : Option Written :=
  match writeLow s off v with
  | some w => some w
  | none => match writeMid s off v with
    | some w => some w
    | none => writeHigh s off v

/-- REGISTER_WRITE (R415, R438): registers with an event of their own act as that event. -/
def execRegisterWrite (off : Nat) (v : DWord) (s : State) : Host.Outcome State Fault Refusal := overLink s <|
  if off = 0x40008 ∧ bitsOf v.toNat 10 2 = 1 then execGraphUpload v s
  else if off = 0x40008 ∧ bitsOf v.toNat 10 2 = 2 then execGraphRemove v s
  else if off = 0x40010 then execTrigger v s
  else if off = 0x60038 then execFqtailWrite v s
  else if off = 0x60070 then execFirsterrClear v s
  else if off = 0x70000 then execVxcfgDisable v s
  else if off = 0x80018 then execSrtailWrite v s
  else if off = 0x80030 then execSrcomp v s
  else if off = 0x90008 then execSvcmdOpen v s
  else if off = 0x90010 then execSvdrain v s
  else
    let src := if off = 0x40008 then schedSource else 0
    if off % 8 ≠ 0 then .next (refuseWrite s src off v)
    else match writeReg s off v with
      | none => .next (refuseWrite s src off v)
      | some .ignored => .next s
      | some .refused => .next (refuseWrite s src off v)
      | some (.done s1) => .next s1

/-! ### Reading a register -/

/-- DEVID (R428). -/
def devId : DWord := 0x4D5800000000B100

/-- A counter ECNT u. -/
def ecntOf (s : State) (u : Nat) : DWord := ((s.host.ecnt.find? fun x => x.1 == u).map fun x => x.2).getD 0

/-- What a host read of an offset returns: zero at an unassigned one (R415). DESIGN CHOICE (log 92): a register that can only be
written (GCMD, TRIGGER, SRCOMP, SVCMD, SVDRAIN, MBXREQ) reads as zero too. -/
def readReg (s : State) (off : Nat) : DWord :=
  let h := s.host
  match off with
  | 0 => devId
  | 0x40000 => s.sched.gimg
  | 0x40018 => s.sched.trigseq
  | 0x40020 => s.sched.cpool
  | 0x40028 => s.sched.gcbarea
  | 0x50000 => s.res.l2cfg
  | 0x50008 => s.res.hrpool0
  | 0x50010 => s.res.hrpool1
  | 0x60000 => h.trapvec
  | 0x60008 => h.trapdlv
  | 0x60010 => h.ctxarea
  | 0x60018 => h.ctxva
  | 0x60020 => h.astbase
  | 0x60028 => h.fqbase
  | 0x60030 => h.fqhead
  | 0x60038 => h.fqtail
  | 0x60040 => h.elogbase
  | 0x60048 => h.eloghead
  | 0x60050 => h.elogtail
  | 0x60058 => h.eseq
  | 0x60060 => h.ovfcnt
  | 0x60068 => h.firsterr0
  | 0x60070 => h.firsterr1
  | 0x70000 => s.vx.cfg
  | 0x70008 => s.vx.lrec
  | 0x70010 => s.vx.asid
  | 0x80000 => h.srbase
  | 0x80008 => h.srarg
  | 0x80010 => h.srhead
  | 0x80018 => h.srtail
  | 0x80020 => h.srahead
  | 0x80028 => h.sratail
  | 0x90000 => h.svcfg
  | 0xA0008 => s.mgmt.mbxrsp
  | 0xA0010 => BitVec.ofNat 64 s.mgmt.pcap
  | 0xA0018 => BitVec.ofNat 64 s.mgmt.clk
  | _ =>
    if off % 8 ≠ 0 then 0
    else if 0x40800 ≤ off ∧ off < 0x41000 then BitVec.ofNat 64 (gstat (s.sched.graphs.getD ((off - 0x40800) / 8) GraphSlot.empty))
    else if 0x61000 ≤ off ∧ off < 0x61000 + 8 * 816 then ecntOf s ((off - 0x61000) / 8)
    else if 0x98000 ≤ off ∧ off < 0x98800 then h.pwin.getD ((off - 0x98000) / 8) 0
    else 0

/-- What a host's read of an offset gives: an error response where the link cannot deliver it (R414). -/
def hostRead (s : State) (off : Nat) : Option DWord := if (lostLink s).isSome then none else some (readReg s off)

end Sys2Proof.Machine
end

