-- ==== Sys2Proof/Machine/Gather.lean ====
section
/-! DEFINITION. Gathers and scatters, major 0x57 (R314 to R317). -/

namespace Sys2Proof.Machine

/-- Bytes of a gather's element (R315): size code 0 to 4. -/
def gxBytes (w : BitVec 3) : Nat := 2 ^ w.toNat

/-- The words of a gathered element (R315): short elements are zero-extended. -/
def gxWords (w : BitVec 3) (bs : List Byte) : List Word := wordsOf (gxRegs w) bs

/-- GX (R315): nothing is allocated in the L2. -/
def execGx (o : GxOp) (s : State) : Host.Outcome State Fault Refusal :=
  issue (.gx o) s fun s =>
    if !hasRoom s.team 3 then .wait .counter
    else
      let t := s.team
      let n := gxBytes o.w
      withAcc s .read true n (laneAddrs t o.g (memAddr t o.s o.a)) fun xs s =>
        let vals := xs.map fun x => (x.lane, gxWords o.w (seeBytes s x n))
        let s1 := noteReads s (some n) 0 true xs
        .next (retire (s1.withTeam (addOp s1.team 3 (.vec o.d.toNat (active t o.g) (laneData t.rf.n (gxRegs o.w) vals)) 0 true)))

/-- The bytes a scatter takes from lane `L` of `d` on. -/
def sxData (t : Team) (d : Nat) (w : BitVec 3) (L : Nat) : List Byte :=
  ((List.range (gxRegs w)).flatMap fun j => leBytes 4 (vget t (d + j) L).toNat).take (gxBytes w)

/-- The lanes that make uncommitted entries at the home slices (R316): all of them under `.L1B`, otherwise those whose sector the team
does not hold in L1. -/
def sxEntries (s : State) (l1b : Bool) (xs : List LaneAcc) : List LaneAcc :=
  if l1b then xs else xs.filter fun x => !(inL1 s.team.ver).contains (x.pa / 64)

/-- A scatter's bytes under the phase rules: they join the write side under the operation's tag, and are published once its counter
entry has retired (R316, R317). -/
def ownScatter (v : Version) (tag : Nat) (ins : List (Nat × Ins)) (cs : List Host.Cell) : Version :=
  { v with sx := v.sx ++ cs.map (fun c => (tag, c.1, c.2)), hidden := v.hidden.filter fun a => !cs.any fun c => c.1 == a,
           ins := noteIns v.ins ins }

/-- The effect of SX on its checked lanes. -/
def scatter (s : State) (o : GxOp) (xs : List LaneAcc) : State :=
  let t := s.team
  let ins := xs.map (laneIns s 0 (hmodOf t).na)
  let cells := fun (x : LaneAcc) => cellsAt x.pa (sxData t o.d.toNat o.w x.lane)
  let s1 := storeBytes s ins ((xs.filter fun x => x.via != .phase).flatMap fun x => (cells x).map fun c => (x.via, c.1, c.2))
  s1.withTeam (addOp { s1.team with ver := ownScatter s1.team.ver t.nextTag ins ((xs.filter fun x => x.via == .phase).flatMap cells) }
    3 .none 0 false)

/-- SX (R316): the bytes enter the write side at issue; the counter falls at the acknowledgement. -/
def execSx (o : GxOp) (s : State) : Host.Outcome State Fault Refusal :=
  issue (.sx o) s fun s =>
    if !hasRoom s.team 3 then .wait .counter
    else
      let t := s.team
      withAcc s .write false (gxBytes o.w) (laneAddrs t o.g (memAddr t o.s o.a)) fun xs s =>
        let ys := sxEntries s ((hmodOf t).l1 == 1) xs
        let p := storePass s true false ys
        match p.excess with
        | some x => .trap (trap5 8 (some x.lane) x.va)
        | none => .next (retire (scatter (afterPass s p) o xs))

/-- Scatters of a team that are not yet acknowledged, those of a saved context first. -/
def openScatters (t : Team) : List Op :=
  let pick := fun (e : Engines) => e.ops.filter fun o => o.path == 3 && o.dst == .none && !o.done
  (match t.handler with | some h => pick h.saved | none => []) ++ pick t.eng

/-- Complete an operation without result, in the live or in a saved context. -/
def settleOp (s : State) (uid tag : Nat) : State :=
  let s1 := s.modTeam uid fun t => modOp t tag fun o => { o with arrived := true, waits := 0 }
  match s1.find uid with
  | none => s1
  | some t =>
    match (readyOps t).find? fun x => x.2.tag == tag, t.handler with
    | some (true, o), some h => completeSaved s1 t h o
    | some (_, o), _ => completeOwn s1 t o
    | none, _ => s1

/-- SX_ACK: scatter `idx` of a team is acknowledged (R316). -/
def execSxAck (uid idx : Nat) (s : State) : Host.Outcome State Fault Refusal :=
  match (s.find uid).bind fun t => (openScatters t)[idx]? with
  | none => .next s
  | some o => .next (settleOp s uid o.tag)

end Sys2Proof.Machine
end

