-- ==== Sys2Proof/Machine/Residency.lean ====
section
/-! DEFINITION. Residency handles and the migration of pages between HBM and CXL memory, majors 0x5B and 0x5C (R333, R335
to R342). -/

namespace Sys2Proof.Machine

/-! ### Handles -/

/-- The live handle with an id, if it belongs to the address space (R335). -/
def handleOf (s : State) (asid : Nat) (id : Word) : Option Handle :=
  s.res.handles.find? fun h => h.id == id.toNat && h.asid == asid

/-- Change the handle with an id. -/
def modHandle (s : State) (id : Nat) (f : Handle → Handle) : State :=
  { s with res := { s.res with handles := s.res.handles.map fun h => if h.id == id then f h else h } }

/-- The leaf that the tables give for an address, from the address space's root (R403, R404). -/
def walkLeaf (s : State) (asid : Nat) (va : Nat) : Option Leaf :=
  match spaceOf s asid with
  | none => none
  | some sp => (walk s va 5 sp.root).toOption

/-- The address of the entry that holds the leaf of `va` (R404). -/
def leafSlot (s : State) (va : Nat) : Nat → Nat → Option Nat
  | 0, _ => none
  | lv + 1, table =>
    let a := peerAddr s (table + 8 * bitsOf va (12 + 9 * lv) 9)
    let e := commNum s.ms a 8
    if bitsOf e 0 1 = 0 then none
    else if bitsOf e 7 1 = 1 then some a
    else leafSlot s va lv (bitsOf e 12 36 * 4096)

/-- The 4 KiB steps of a range. -/
def rangeSteps (base : DWord) (len : Nat) : List Nat := (List.range ((len + 4095) / 4096)).map fun k => base.toNat + 4096 * k

/-- Which of HOLD's refusals apply (R337). -/
def holdRefusals (s : State) (asid : Nat) (base : DWord) (len : Nat) : List Nat :=
  let steps := rangeSteps base len
  let leaves := steps.map (walkLeaf s asid)
  let bad := (steps.zip leaves).any fun x => match x.2 with
    | some l => !l.pte.getLsbD 3 || inRegion s (BitVec.ofNat 64 x.1)
    | none => true
  let big := leaves.any fun l => match l with | some l => decide (65536 < l.size) | none => false
  let clash := s.res.handles.any fun h => h.asid == asid && overlaps h.base.toNat h.len base.toNat len
  (if 4096 ≤ s.res.handles.length then [1] else []) ++ (if clash then [2] else []) ++ (if bad then [3] else [])
    ++ (if big then [4] else []) ++ (if base.toNat % 4096 ≠ 0 ∨ len = 0 ∨ len % 4096 ≠ 0 then [5] else [])

/-- The lowest free handle id. -/
def freeHandle (s : State) : Nat := ((List.range 4096).find? fun k => s.res.handles.all fun h => h.id != k).getD 0

/-- HOLD (R337). Where several refusals apply, which one is reported is free. -/
def execHold (o : HoldOp) (s : State) : Host.Outcome State Fault Refusal :=
  issue (.hold o) s fun s =>
    let t := s.team
    let base := spair t (2 * o.a.toNat)
    let len := (sget t o.b.toNat).toNat
    if !canonical base then .trap (trap5 2 none base)
    else match holdRefusals s t.pl.asid base len with
      | [] =>
        let h : Handle := { id := freeHandle s, asid := t.pl.asid, base := base, len := len, prio := 0, cls := 3, ops := [] }
        let s1 := { s with res := { s.res with handles := s.res.handles ++ [h] } }
        .next (retire (s1.withTeam (setS t o.d.toNat (BitVec.ofNat 32 h.id))))
      | r :: rs =>
        let pick := (r :: rs).getD (Config.freeChoice s.free % (rs.length + 1)) r
        let s1 := { s with free := s.free + 1 }
        .next (retire (s1.withTeam (setS t o.d.toNat (BitVec.ofNat 32 (pick * 2 ^ 28)))))

/-- HSET (R338): it takes effect at once, or behind the handle's earlier operations (R342). -/
def execHset (o : SS) (s : State) : Host.Outcome State Fault Refusal :=
  issue (.hset o) s fun s =>
    let t := s.team
    let w := (sget t o.b.toNat).toNat
    match handleOf s t.pl.asid (sget t o.a.toNat) with
    | none => .trap (trap5r 1 0)
    | some h =>
      if w / 64 ≠ 0 then .trap (trap5r 2 0)
      else if h.ops.isEmpty then .next (retire (modHandle s h.id fun h => { h with prio := bitsOf w 0 4, cls := bitsOf w 4 2 }))
      else
        let x : HOp := { kind := .set (bitsOf w 0 4) (bitsOf w 4 2), uid := t.uid, tag := t.nextTag }
        .next ((modHandle s h.id fun h => { h with ops := h.ops ++ [x] }).withTeam { t with wait := .hset })

/-- Queue a residency operation at its handle; the HR counter rises (R339 to R342). -/
def queueHr (i : Instr) (o : S1) (kind : HOpKind) (s : State) : Host.Outcome State Fault Refusal :=
  issue i s fun s =>
    let t := s.team
    match handleOf s t.pl.asid (sget t o.a.toNat) with
    | none => .trap (trap5r 1 0)
    | some h =>
      if !hasRoom t 6 then .wait .counter
      else
        let x : HOp := { kind := kind, uid := t.uid, tag := t.nextTag }
        let s1 := modHandle s h.id fun h => { h with ops := h.ops ++ [x] }
        .next (retire (s1.withTeam (addOp t 6 .none 0 false)))

/-- HDEM (R339). -/
def execHdem (o : S1) (s : State) : Host.Outcome State Fault Refusal := queueHr (.hdem o) o .dem s
/-- HPRO (R340). -/
def execHpro (o : S1) (s : State) : Host.Outcome State Fault Refusal := queueHr (.hpro o) o .pro s
/-- HREL (R341). -/
def execHrel (o : S1) (s : State) : Host.Outcome State Fault Refusal := queueHr (.hrel o) o .rel s

/-! ### Pools (R333) -/

/-- A page pool: its base and size in 4 KiB pages, the pages in use, the pages given to it. -/
structure Pool where
  base : Nat
  pages : Nat
  used : List Nat
  extra : List Nat

/-- Whether a pool register's range lies in the right memory. -/
def poolOk (r : DWord) (hbm : Bool) : Bool :=
  let base := r.toNat / 2 ^ 21 * 2 ^ 21
  let last := base + (r.toNat % 2 ^ 21) * 2 ^ 21 - 1
  if hbm then isHbm base && isHbm last else isCxl base && isCxl last

/-- The pool a register names; one that lies elsewhere is treated as empty. -/
def poolFrom (r : DWord) (hbm : Bool) (used extra : List Nat) : Pool :=
  { base := r.toNat / 2 ^ 21 * 512, pages := if poolOk r hbm then (r.toNat % 2 ^ 21) * 512 else 0, used := used, extra := extra }

/-- Whether a pool can give a page; an empty one gives none (R333). -/
def Pool.has (p : Pool) (n : Nat) : Bool :=
  p.pages != 0 && ((decide (p.base ≤ n ∧ n < p.base + p.pages) && !p.used.contains n) || p.extra.contains n)

/-- The first place from `n` on, in steps of `k` pages, where `k` pages are free; `fuel` places are tried. -/
def Pool.search (p : Pool) (k : Nat) : Nat → Nat → Option Nat
  | 0, _ => none
  | fuel + 1, n => if (List.range k).all fun i => p.has (n + i) then some n else p.search k fuel (n + k)

/-- Take `k` pages that lie together: where they start, and the pool without them. -/
def Pool.take (p : Pool) (k : Nat) : Option (Nat × Pool) :=
  let at_ := match p.search k (p.pages / k) p.base with
    | some n => some n
    | none => p.extra.find? fun n => n % k == 0 && (List.range k).all fun i => p.has (n + i)
  at_.map fun n =>
    let ns := (List.range k).map fun i => n + i
    (n, { p with used := (ns.filter fun i => decide (p.base ≤ i ∧ i < p.base + p.pages)) ++ p.used,
                 extra := p.extra.filter fun i => !ns.contains i })

/-- Return pages to a pool; pages that were never its own belong to it from now on (R342). -/
def Pool.give (p : Pool) (ns : List Nat) : Pool :=
  let mine := fun (i : Nat) => decide (p.base ≤ i ∧ i < p.base + p.pages)
  { p with used := p.used.filter fun i => !ns.contains i,
           extra := (ns.filter fun i => !mine i && !p.extra.contains i) ++ p.extra }

/-! ### Moving pages -/

/-- A page that moves: old and new physical base, size, virtual base, and key index. -/
structure Move where
  src : Nat
  dst : Nat
  size : Nat
  va : Nat
  key : Nat
  deriving DecidableEq, Repr

/-- Where a physical address goes. -/
def relocate (ms : List Move) (a : Nat) : Nat :=
  match ms.find? fun m => decide (m.src ≤ a ∧ a < m.src + m.size) with
  | some m => m.dst + (a - m.src)
  | none => a

/-- Where a sector goes. -/
def relocateSector (ms : List Move) (n : Nat) : Nat := relocate ms (64 * n) / 64

/-- A version after its bytes have moved (R339 step 3). -/
def moveVersion (ms : List Move) (v : Version) : Version :=
  let cell := fun (c : Host.Cell) => (relocate ms c.1, c.2)
  { wside := v.wside.map cell, pub := v.pub.map cell, sx := v.sx.map (fun x => (x.1, relocate ms x.2.1, x.2.2)),
    ins := v.ins.map (fun x => (relocateSector ms x.1, x.2)), hidden := v.hidden.map (relocate ms),
    spilled := v.spilled.map (relocateSector ms), ownPub := v.ownPub.map (fun r => (r.1, relocate ms r.2.1, r.2.2)), snap := v.snap,
    cuts := v.cuts.map (fun c => (relocateSector ms c.1, c.2)), held := v.held.map (relocateSector ms),
    homed := v.homed.map (relocateSector ms), seen := v.seen, stale := v.stale.map (fun x => (x.1, relocate ms x.2.1, x.2.2)) }

/-- Waiting stores of finished copies. -/
def moveEngines (ms : List Move) (e : Engines) : Engines :=
  let f := fun (c : Copy) => { c with writes := c.writes.map fun w => (relocate ms w.1, w.2) }
  { e with unsealed := e.unsealed.map f, batches := e.batches.map fun b => { b with copies := b.copies.map f } }

/-- What a team waits on. -/
def moveWait (ms : List Move) (w : Wait) : Wait :=
  match w with
  | .twait x => .twait { x with polls := x.polls.map fun p => (p.1, relocateSector ms p.2.1, p.2.2) }
  | .fault va pa tr => .fault va (relocate ms pa) tr
  | .inval x => .inval { x with ranges := x.ranges.map fun r => (relocate ms r.1, r.2) }
  | w => w

/-- Everything of a team that names physical addresses. -/
def moveTeam (ms : List Move) (t : Team) : Team :=
  { t with ver := moveVersion ms t.ver, wait := moveWait ms t.wait, eng := moveEngines ms t.eng,
           handler := t.handler.map fun h => { h with saved := moveEngines ms h.saved },
           efaults := t.efaults.map fun f => (f.1, f.2.1, relocate ms f.2.2) }

/-- Nodes under way. -/
def moveNode (ms : List Move) (n : NodeState) : NodeState :=
  match n with
  | .copying cells ins => .copying (cells.map fun c => (relocate ms c.1, c.2)) (ins.map fun x => (relocateSector ms x.1, x.2))
  | .watch pa key since => .watch (relocate ms pa) key since
  | n => n

/-- An error in an uncommitted entry moves with it. -/
def moveUpset (ms : List Move) (u : Upset) : Upset :=
  match u with
  | .entry uid n => .entry uid (relocateSector ms n)
  | u => u

/-- A line of an L1 whose sectors move. -/
def moveLine (ms : List Move) (f : L1Line) : L1Line :=
  { f with line := relocate ms (128 * f.line) / 128, sectors := f.sectors.map (relocateSector ms), clean := f.clean.map fun c => (relocateSector ms c.1, c.2) }

/-- Every scheduler table that names physical addresses. -/
def moveSched (ms : List Move) (x : Sched) : Sched :=
  { x with graphs := x.graphs.map fun g => { g with graph := g.graph.map fun y =>
      { y with states := y.states.map (moveNode ms) } } }

/-- The physical ranges of the pages of a handle's range. -/
def handleRanges (s : State) (h : Handle) : List (Nat × Nat) :=
  (rangeSteps h.base h.len).filterMap fun va => (walkLeaf s h.asid va).map fun l => (l.pa va / 4096 * 4096, 4096)

/-- Step 2 of R339: every line of the range is written back and leaves the L2, the lines of pages that stay too, and every line of a page
that moves, which goes whole; clean sectors of L1 are discarded. -/
def drainLines (s : State) (h : Handle) (pages : List (Nat × Leaf)) : State :=
  let rs := handleRanges s h ++ pages.map fun p => (p.1, p.2.size)
  dropClean rs { s with ms := maintRanges (l2View s) .flush s.ms rs }

/-- What an older snapshot sees of a byte that a write has superseded, after pages have moved: in plaintext, the whole granule where a raw write
has superseded what an encrypted page held (R212, R325). -/
def moveRetained (mv : List Move) (ms : MemSide) (r : Nat × Nat × Byte) : List (Nat × Nat × Byte) :=
  match mv.find? fun m => decide (m.src ≤ r.2.1 ∧ r.2.1 < m.src + m.size) with
  | none => [r]
  | some m =>
    let g := r.2.1 / 16
    match if belowKey m.key r.2.1 = 0 then none else ms.rawOld.find? fun x => x.1 == r.1 && x.2.1 == g with
    | some x => (List.range 16).map fun i => (r.1, relocate mv (16 * g + i), plainByte m.key (16 * g + i) x.2.2)
    | none => [(r.1, relocate mv r.2.1, r.2.2)]

/-- The copy of step 3: the bytes of the moving pages stand at their new addresses, encrypted there if the page has a key and stays in
HBM (R325), and what older snapshots see moves with them. -/
def moveMem (mv : List Move) (ms : MemSide) : MemSide :=
  let inDst := fun (a : Nat) => mv.any fun m => decide (m.dst ≤ a ∧ a < m.dst + m.size)
  let put := fun (out : Memory) (m : Move) =>
    (List.range m.size).foldl (fun out i => keyPut out m.key (m.dst + i) (keyGet ms.mem m.key (m.src + i))) out
  { ms with
    l2 := ms.l2.filter (fun x => !inDst (64 * x.num)),
    mem := mv.foldl put ms.mem,
    retained := (ms.retained.filter fun r => !inDst r.2.1).flatMap (moveRetained mv ms),
    rawOld := ms.rawOld.filter (fun r => relocate mv (16 * r.2.1) == 16 * r.2.1 && !inDst (16 * r.2.1)),
    homeOld := ms.homeOld.map (fun x => (x.1, x.2.1, relocate mv x.2.2.1, x.2.2.2)),
    wrote := (ms.wrote.filter fun w => !inDst (64 * w.1)).map (fun w => (relocateSector mv w.1, w.2)) }

/-- The old pages belong to the pool: their bytes are free values (R342). -/
def freePages (mv : List Move) (s : State) : State :=
  let as := mv.flatMap fun m => regsFrom m.src m.size
  { s with free := s.free + as.length,
           ms := { s.ms with mem := memSets s.ms.mem (as.zipIdx.map fun x => (x.1, Config.freeByte (s.free + x.2))) } }

/-- The entries that map a page, with the physical address each of them names now. -/
def slotsOf (s : State) (asid : Nat) (m : Move) : List Nat :=
  match (spaceOf s asid).bind fun sp => leafSlot s m.va 5 sp.root with
  | none => []
  | some a => if m.size = 65536 then (List.range 16).map fun i => a / 128 * 128 + 8 * i else [a]

/-- Remap one page (R339 step 4): every entry of it names the new page. -/
def remapPage (asid : Nat) (s : State) (m : Move) : State :=
  (slotsOf s asid m).foldl (fun s a =>
    let e := commNum s.ms a 8
    let low := if m.size = 65536 then bitsOf e 12 4 * 4096 else 0
    let new := e - bitsOf e 12 36 * 4096 + (m.dst + low)
    if bitsOf e 0 1 = 1 ∧ ptePa e (if m.size = 65536 then 16 else 12) = m.src then immediate s (cellsAt a (leBytes 8 new)) else s) s

/-- The pages of a handle's range that lie in HBM, or in CXL memory, each once (R339, R340). -/
def pagesToMove (s : State) (h : Handle) (fromHbm : Bool) : List (Nat × Leaf) :=
  (rangeSteps h.base h.len).foldl (fun (xs : List (Nat × Leaf)) va =>
    match walkLeaf s h.asid va with
    | some l =>
      let pa := l.pa l.page
      if (if fromHbm then isHbm pa else isCxl pa) && decide (l.size ≤ 65536) && !xs.any fun x => x.1 == pa then
        xs ++ [(pa, l)]
      else xs
    | none => xs) []

/-- Take pages for every page that moves; none if the pool lacks them. -/
def planMoves : List (Nat × Leaf) → Pool → Option (List Move × Pool)
  | [], p => some ([], p)
  | (pa, l) :: xs, p =>
    match p.take (l.size / 4096) with
    | none => none
    | some (n, p1) =>
      (planMoves xs p1).map fun r => ({ src := pa, dst := 4096 * n, size := l.size, va := l.page, key := l.key } :: r.1, r.2)

/-- The first uncorrectable sector of the pages that move. -/
def movePoison (ms : MemSide) (mv : List Move) : Option Nat :=
  (mv.flatMap fun m => regsFrom (m.src / 64) (m.size / 64)).findSome? fun n => eccBad ms n

/-- Put the pools back into the state, the one pages come from first. -/
def setPools (s : State) (dem : Bool) (src dst : Pool) : State :=
  let cxl := if dem then dst else src
  let hbm := if dem then src else dst
  { s with res := { s.res with used0 := cxl.used, extra0 := cxl.extra, used1 := hbm.used, extra1 := hbm.extra } }

/-- Migrate a handle's range (R339, R340): the state after it, and the residency reason of a failure. -/
def migrate (s : State) (h : Handle) (dem : Bool) : State × Option Nat :=
  let cxl := poolFrom s.res.hrpool0 false s.res.used0 s.res.extra0
  let hbm := poolFrom s.res.hrpool1 true s.res.used1 s.res.extra1
  let pages := pagesToMove s h dem
  let s := drainLines s h pages
  match planMoves pages (if dem then cxl else hbm) with
  | none => (s, some 3)
  | some (mv, to_) =>
    match movePoison s.ms mv with
    | some pa => (eccReport s pa, some 4)
    | none =>
      let s1 := (mv.flatMap fun m => regsFrom (m.src / 64) (m.size / 64)).foldl eccCorrect s
      let from_ := (if dem then hbm else cxl).give (mv.flatMap fun m => regsFrom (m.src / 4096) (m.size / 4096))
      let s2 := mv.foldl (remapPage h.asid) s1
      let s3 := { s2.mapTeams (moveTeam mv) with ms := moveMem mv s2.ms, l1 := s2.l1.map (moveLine mv), sched := moveSched mv s2.sched,
                                                 upsets := s2.upsets.map (moveUpset mv) }
      let s4 := { s3 with ms := { s3.ms with
        tlb := s3.ms.tlb.filter fun e => e.asid != h.asid || !overlaps e.page e.size h.base.toNat h.len,
        code := s3.ms.code.filter fun c => c.asid != h.asid || !overlaps c.va.toNat 4 h.base.toNat h.len } }
      (setPools (freePages mv s4) dem from_ to_, none)

/-- An operation of a handle that raised the HR counter ends, with its error, which its issuer learns at a later wait (R342, R226). -/
def endHr (s : State) (x : HOp) (err : Option Trap) : State :=
  let s1 := match err with
    | some tr => s.modTeam x.uid fun t => noteErr t x.tag 6 tr
    | none => s
  settleOp s1 x.uid x.tag

/-- The HSET of a team is over (R338): it retires, or, where an HREL before it has freed the id, it traps. -/
def endHset (s : State) (x : HOp) (err : Option Trap) : State :=
  onTeam s x.uid fun s =>
    match s.team.wait, err with
    | .hset, none => endWait s
    | .hset, some tr =>
      if s.team.passed.isSome then s.withTeam { s.team with wait := .ready, passed := none, pending := s.team.pending ++ [tr] }
      else trapBefore (s.withTeam { s.team with wait := .ready }) tr
    | _, _ => s

/-- An operation that finds its handle freed (R342). -/
def endFreed (s : State) (x : HOp) : State :=
  match x.kind with
  | .set _ _ => endHset s x (some (trap5r 1 0))
  | _ => endHr s x (some (trap5r 1 0))

/-- What the residency engine's walk of a handle's range meets first: a page that no leaf maps, or a table that is ill-formed
(R404, R406). -/
def rangeMiss (s : State) (h : Handle) : Option (Nat × XErr) :=
  (rangeSteps h.base h.len).findSome? fun va =>
    match spaceOf s h.asid with
    | none => some (va, .g5 5)
    | some sp => match walk s va 5 sp.root with
      | .ok _ => none
      | .error e => some (va, e)

/-- How the engine's translation of a range goes (R406): it can run, it waits, or it fails. -/
inductive RangeWalk where
  | go (s : State)
  | wait (s : State)
  | fail (s : State) (tr : Trap)

/-- A core forgets a cached translation of a page (R405). -/
def forgetPage (s : State) (t : Team) (va : Nat) : State :=
  { s with ms := { s.ms with tlb := s.ms.tlb.filter fun e =>
      !(e.core == t.pl.core && e.asid == t.pl.asid && decide (e.page ≤ va ∧ va < e.page + e.size)) } }

/-- The residency engine translates a handle's range for a team's operation: an unmapped page goes to the pager (R406), whatever
translation of it is still cached. -/
def walkRange (s : State) (h : Handle) (x : HOp) : RangeWalk :=
  match s.find x.uid with
  | none => .go s
  | some t =>
    let asked := t.efaults.any fun f => f.1 == x.tag
    match rangeMiss s h with
    | some (va, .g5 r) => if asked then .wait s else .fail s (trap5 r none (BitVec.ofNat 64 va))
    | some (_, .link k pa) => .fail s (trapLink k pa)
    | some (va, .miss) =>
      match engineXlate (forgetPage s t va) t x.tag .rw (BitVec.ofNat 64 va) with
      | .ok _ _ _ s1 => .wait s1
      | .wait s1 => .wait s1
      | .fail _ s1 => .fail s1 (trap6 (if asked then 2 else 1) 0 .rw (BitVec.ofNat 64 va))
    | none =>
      if asked then
        match engineXlate s t x.tag .rw h.base with
        | .ok _ _ _ s1 => .wait s1
        | .wait s1 => .wait s1
        | .fail _ s1 => .fail s1 (trap6 2 0 .rw h.base)
      else .go s

/-- RESIDENCY_COMPLETE: the handle's oldest operation runs (R338 to R342). A migration waits until nobody uses the old
translations. Operations queued behind an HREL find the id freed. -/
def execResidencyComplete (handle : Nat) (s : State) : Host.Outcome State Fault Refusal :=
  match s.res.handles.find? fun h => h.id == handle with
  | none => .next s
  | some h =>
    match h.ops with
    | [] => .next s
    | x :: rest =>
      let pop := fun (s : State) => modHandle s h.id fun h => { h with ops := rest }
      match x.kind with
      | .set p c => .next (endHset (modHandle (pop s) h.id fun h => { h with prio := p, cls := c }) x none)
      | .rel =>
        let s2 := { s with res := { s.res with handles := s.res.handles.filter fun y => y.id != h.id } }
        .next (rest.foldl endFreed (endHr s2 x none))
      | k =>
        if usesOld s h.asid h.base.toNat h.len then .next s
        else match walkRange s h x with
          | .wait s1 => .next s1
          | .fail s1 tr => .next (endHr (pop s1) x (some tr))
          | .go s1 =>
            let r := migrate (pop s1) h (k == .dem)
            .next (endHr r.1 x (r.2.map fun reason => trap5r reason h.base))

end Sys2Proof.Machine
end

