-- ==== Sys2Proof/Machine/Host.lean ====
section
/-! DEFINITION. The host's window, peers, the link (R414, R416, R417, R422), and the management controller: mailbox, start, core
failures, power and bank repair (R13, R327, R328, R429 to R434). -/

namespace Sys2Proof.Machine

/-! ### The HBM window and peers (R416, R417) -/

/-- Whether an address lies in the area of a live sieve (R422). -/
def inSieve (s : State) (pa : Nat) : Bool :=
  let b := base12 s.host.svcfg
  svOn s && decide (b ≤ pa) && decide (pa < b + 2 ^ 22 + 2 ^ 20 * 2 ^ svLog s)

/-- The whole matrix error record of a pair (R243), as 16 bytes. -/
def errRecord (p : Pair) : List Byte :=
  let e := p.err
  let bit := fun (b : Bool) => if b then 1 else 0
  leBytes 16 (packFields [(1, bit e.valid), (1, bit e.reported), (6, 0), (8, e.more), (3, p.idx), (1, e.core), (4, e.code), (2, e.tile),
    (6, e.team), (32, e.seq.toNat), (64, e.pc.toNat)])

/-- Where a pair's error record stands: in the gang's control block, at a place that the spec leaves to the part (R243, R274). -/
def recordPa (s : State) (g : Gang) (p : Pair) : Nat :=
  s.sched.gcbarea.toNat / 2 ^ 20 * 2 ^ 20 + 512 * g.block + 16 * (Config.gcbRecord p.idx % 32)

/-- The byte that a gang control block gives at an address, where that byte belongs to a pair's error record. -/
def blockByte (s : State) (a : Nat) : Option Byte :=
  s.gangs.findSome? fun g => g.pairs.findSome? fun p =>
    if recordPa s g p ≤ a ∧ a < recordPa s g p + 16 then (errRecord p)[a - recordPa s g p]? else none

/-- Bytes as a host reads them: error records from the control blocks, all other bytes committed data (R243, R416). -/
def hostBytes (s : State) (addr n : Nat) : List Byte :=
  (List.range n).map fun i => (blockByte s (addr + i)).getD (commByte s.ms (addr + i))

/-- HOST_WINDOW_READ: committed data at the L2 (R416); soft errors are corrected and counted, an uncorrectable one is counted
and gives an error response (R313, R414). DESIGN CHOICE (log 94): a page is read as one without a key. -/
def execHostWindowRead (addr n : Nat) (s : State) : Host.Outcome State Fault Refusal :=
  if n = 0 ∨ !isHbm addr ∨ !isHbm (addr + n - 1) then .next s
  else overLink s <|
    let gs := granulesAt s.ms addr n
    match badGranule s.ms gs with
    | some pa =>
      let s1 := eccReport (correctGranules s gs) pa
      .next { s1 with host := { s1.host with answer := [] } }
    | none =>
      let s1 := correctGranules s gs
      .next { s1 with host := { s1.host with answer := hostBytes s1 addr n } }

/-- The handles of address spaces that a write of the host has made invalid are freed, and their operations end (R335). -/
def destroySpaces (old new : State) : State :=
  let gone := new.res.handles.filter fun h => (spaceOf old h.asid).isSome && (spaceOf new h.asid).isNone
  let s1 := { new with res := { new.res with handles := new.res.handles.filter fun h => !gone.contains h } }
  (gone.flatMap fun h => h.ops).foldl endFreed s1

/-- HOST_WINDOW_WRITE: an immediate write (R416); the sieve area refuses it with an error response (R422). Bytes at host physical addresses are the
host's write to its own memory, such as the replies to a service request (R420; log 104). -/
def execHostWindowWrite (addr : Nat) (bytes : List Byte) (s : State) : Host.Outcome State Fault Refusal :=
  let cells := cellsAt addr bytes
  if cells.all fun c => isHost c.1 then .next (immediate s cells)
  else if !cells.all fun c => isHbm c.1 then .next s
  else overLink s <|
    if cells.any fun c => inSieve s c.1 then
      .next (refuseWrite { s with host := { s.host with answer := [] } } 0 addr (BitVec.ofNat 64 (ofLeBytes (bytes.take 8))))
    else .next (destroySpaces s (immediate s cells))

/-- PEER_WRITE: an immediate write into HBM (R417). -/
def execPeerWrite (peer addr : Nat) (bytes : List Byte) (s : State) : Host.Outcome State Fault Refusal :=
  let cells := cellsAt addr bytes
  if decide (1023 < peer) || !cells.all fun c => isHbm c.1 then .next s else .next (immediate s cells)

/-- LINK_FLIT_RETRY: a lane's flit is retried, and the lane may leave service (R414). -/
def execLinkFlitRetry (unit : Nat) (leaves : Bool) (s : State) : Host.Outcome State Fault Refusal :=
  if 32 ≤ unit ∨ s.mgmt.lanesOut.contains unit then .next s
  else
    let s1 := logEvent s 10 (2 ^ 26 + unit) (leBytes 8 1 ++ leBytes 4 (if leaves then 1 else 0))
    .next (if leaves then { s1 with mgmt := { s1.mgmt with lanesOut := unit :: s1.mgmt.lanesOut } } else s1)

/-! ### The mailbox (R429 to R431) -/

/-- A completed request: the response, whose bytes the spec leaves open, takes the place of the request in the 4 KiB buffer at a
host physical address. -/
def respond (s : State) (buf : DWord) (m : Mgmt) : State :=
  let bs := (List.range 4096).map fun i => Config.freeByte (s.free + i)
  let s1 := immediate s ((cellsAt (hostPa buf.toNat) bs).filter fun c => isHost c.1)
  { s1 with free := s.free + 4096, mgmt := { m with mbxrsp := m.mbxrsp + 1 } }

/-- An SPDM request: where the protocol allows it the responder moves on, otherwise the response is an error. -/
def spdm (s : State) (buf : DWord) (ok : Spdm → Bool) (move : Spdm → Spdm) : Host.Outcome State Fault Refusal :=
  let p := s.mgmt.spdm
  overLink s <| .next (respond s buf (if ok p then { s.mgmt with spdm := move p } else s.mgmt))

/-- GET_VERSION starts a connection. -/
def execGetVersion (buf : DWord) (s : State) : Host.Outcome State Fault Refusal :=
  spdm s buf (fun _ => true) fun _ => ⟨true, false, false, false, false, []⟩

/-- GET_CAPABILITIES. -/
def execGetCapabilities (buf : DWord) (s : State) : Host.Outcome State Fault Refusal :=
  spdm s buf (fun p => p.version) fun p => { p with caps := true }

/-- NEGOTIATE_ALGORITHMS. -/
def execNegotiateAlgorithms (buf : DWord) (s : State) : Host.Outcome State Fault Refusal :=
  spdm s buf (fun p => p.caps) fun p => { p with algs := true }

/-- GET_DIGESTS. -/
def execGetDigests (buf : DWord) (s : State) : Host.Outcome State Fault Refusal := spdm s buf (fun p => p.algs) id

/-- GET_CERTIFICATE. -/
def execGetCertificate (buf : DWord) (s : State) : Host.Outcome State Fault Refusal :=
  spdm s buf (fun p => p.algs) fun p => p

/-- CHALLENGE. -/
def execChallenge (buf : DWord) (s : State) : Host.Outcome State Fault Refusal :=
  spdm s buf (fun p => p.algs && !p.secured) fun p => p

/-- The record of a kind in use. -/
def Mgmt.recordOf (m : Mgmt) (kind : Nat) : ConfigRec := (m.records.find? fun r => r.kind == kind).getD ⟨kind, []⟩

/-- What a measurement index reports (R2, R3, R428, R430, R432). -/
def measureOf (m : Mgmt) (i : Nat) : Measure :=
  if i = 1 then .firmware else if i = 2 then .identity devId m.startStopped else .record (m.recordOf i)

/-- GET_MEASUREMENTS: the response reports what the indices name; inside a secured session they count for R431. -/
def execGetMeasurements (buf : DWord) (indices : List Nat) (s : State) : Host.Outcome State Fault Refusal :=
  let p := s.mgmt.spdm
  let p1 := if p.secured then { p with measured := p.measured ++ indices.filter fun i => !p.measured.contains i } else p
  overLink s <| .next (respond s buf (if p.algs && indices.all (fun i => decide (1 ≤ i ∧ i ≤ 6)) then
    { s.mgmt with spdm := p1, report := indices.map (measureOf s.mgmt) } else s.mgmt))

/-- KEY_EXCHANGE opens a session. -/
def execKeyExchange (buf : DWord) (s : State) : Host.Outcome State Fault Refusal :=
  spdm s buf (fun p => p.algs) fun p => { p with exchanged := true, secured := false, measured := [] }

/-- FINISH: the session is secured. -/
def execFinish (buf : DWord) (s : State) : Host.Outcome State Fault Refusal :=
  spdm s buf (fun p => p.exchanged && !p.secured) fun p => { p with secured := true }

/-- END_SESSION. -/
def execEndSession (buf : DWord) (s : State) : Host.Outcome State Fault Refusal :=
  spdm s buf (fun p => p.secured) fun p => { p with exchanged := false, secured := false, measured := [] }

/-- Whether a key may be installed (R431). -/
def keyAccepted (m : Mgmt) (key : Nat) : Bool :=
  m.spdm.secured && [3, 4, 5, 6].all (fun i => m.spdm.measured.contains i) && decide (1 ≤ key ∧ key ≤ 15)
    && Config.keyListed (m.recordOf 6).words key

/-- MEMORY_KEY_INSTALL (R431). -/
def execMemoryKeyInstall (buf : DWord) (key : Nat) (s : State) : Host.Outcome State Fault Refusal :=
  let m := s.mgmt
  overLink s <| .next (respond s buf (if keyAccepted m key && !m.keys.contains key then { m with keys := key :: m.keys } else m))

/-- START_LOG_READ (R429). -/
def execStartLogRead (buf : DWord) (s : State) : Host.Outcome State Fault Refusal :=
  overLink s <| .next (respond s buf s.mgmt)

/-! ### Start (R13, R432, R433) -/

/-- How a pass over the step records ends. -/
inductive StartEnd where
  /-- Every step ran or was skipped. -/
  | complete
  /-- Start stopped at the step with this id, before running it or because it failed. -/
  | stopped (step : Nat)
  deriving DecidableEq, Repr

/-- Run the steps (R432): a step with recorded failures runs its alternative, is skipped, or stops start; a step that fails
raises FAILS and ends this start. One result for each step run. `blocked` are the steps that enable the cores of a die with a fenced core:
start stops there (R13). -/
def runSteps (blocked : List Nat) : List StartStep → List Bool → List StartStep × StartEnd
  | [], _ => ([], .complete)
  | x :: xs, rs =>
    if blocked.contains x.step then (x :: xs, .stopped x.step)
    else if x.fails ≠ 0 ∧ x.alt = 0 ∧ x.skip then (let r := runSteps blocked xs rs; (x :: r.1, r.2))
    else if x.fails ≠ 0 ∧ x.alt = 0 then (x :: xs, .stopped x.step)
    else if rs.headD true then (let r := runSteps blocked xs (rs.drop 1); (x :: r.1, r.2))
    else ({ x with fails := min 255 (x.fails + 1) } :: xs, .stopped x.step)

/-- An address map record is well formed (R312). -/
def mapOk (m : BitVec 512) : Bool :=
  let x := m.toNat
  let base := bitsOf x 384 64
  let mib := bitsOf x 352 32
  (List.range 8).all (fun k => bitsOf x (32 + 32 * k) 8 == 2 ^ k && bitsOf x (59 + 32 * k) 5 == 0)
    && bitsOf x 448 64 == 0 && bitsOf x 288 64 == 0 && bitsOf x 8 24 == 0 && bitsOf x 0 8 == 1
    && decide (1 ≤ mib ∧ mib ≤ 65536) && base % 2 ^ 21 == 0 && isHbm base && isHbm (base + mib * 2 ^ 20 - 1)

/-- An entry of a repair table is well formed (R328). -/
def repairOk (e : DWord) : Bool :=
  let x := e.toNat
  bitsOf x 62 2 != 3 && bitsOf x 0 27 == 0 && (bitsOf x 62 2 != 2 || bitsOf x 27 6 == 0)

/-- A configuration record is well formed, as far as the spec gives its layout (R9, R312, R328). -/
def recordOk (r : ConfigRec) : Bool :=
  if r.kind = 3 then r.words.length == 2 && r.words.all fun w => decide (w.toNat ≤ 4)
  else if r.kind = 4 then r.words.length == 8 && mapOk (mapOf r.words) else if r.kind = 5 then r.words.all repairOk else true

/-- The record of a kind that a start takes, and whether it replaces one that failed (R433): a record whose signature verifies, or
the last verified one. An ill-formed record counts as one that failed, and the last verified record is its recorded alternative
(R312; log 96). -/
def takeRecord (m : Mgmt) (kind : Nat) : Option (ConfigRec × Bool) :=
  match m.offered.find? fun r => r.kind == kind && Config.signed kind r.words && recordOk r with
  | some r => some (r, false)
  | none => (m.records.find? fun r => r.kind == kind && recordOk r).map fun r => (r, true)

/-- The kinds of configuration records (R430). -/
def recordKinds : List Nat := [3, 4, 5, 6]

/-- The banks of a channel: as they stood at first, where none has been tested (R327). -/
def Mgmt.bankMap (m : Mgmt) (channel : Nat) : BankMap :=
  (m.banks.find? fun b => b.channel == channel).getD ⟨channel, List.range 33, []⟩

/-- A logical bank and the spare change places (R327). -/
def swapBank (b : BankMap) (bank : Nat) : BankMap :=
  { b with banks := (b.banks.set bank (b.banks.getD 32 0)).set 32 (b.banks.getD bank 0) }

/-- The spare rows in use in the sub-channel of the bank that a logical bank stands in (R327). -/
def spareRowsUsed (m : Mgmt) (channel bank sub : Nat) : Nat :=
  let b := m.bankMap channel
  (b.used.filter fun x => x == (b.banks.getD bank 0, sub)).length

/-- What an entry of a repair table does to the banks (R328; log 82). -/
def repairBank (m : Mgmt) (e : DWord) : Mgmt :=
  let x := e.toNat
  let b := m.bankMap (bitsOf x 54 8)
  let put := fun (b : BankMap) => { m with banks := b :: m.banks.filter fun y => y.channel != b.channel }
  if bitsOf x 62 2 = 1 then put { b with used := b.used ++ [(b.banks.getD (bitsOf x 47 5) 0, bitsOf x 52 2)] }
  else if bitsOf x 62 2 = 2 then put (swapBank b (bitsOf x 47 5))
  else m

/-- The banks once a start has taken a repair table: as they stand, or, for another table, as its entries say (R328; log 82). -/
def repairBanks (m : Mgmt) (table : List DWord) : List BankMap :=
  if table = m.repairs then m.banks else (table.foldl repairBank { m with banks := [] }).banks

/-- Install the records that a start has taken, and note those that replace another (R3, R312, R328, R433). -/
def installRecords (m : Mgmt) (rs : List (ConfigRec × Bool)) : Mgmt :=
  let m1 := { m with records := rs.map Prod.fst, log := m.log ++ (rs.filter Prod.snd).map fun (r : ConfigRec × Bool) =>
      LogNote.replaced r.1.kind }
  { m1 with spares := (m1.recordOf 3).words.map BitVec.toNat, map := mapOf (m1.recordOf 4).words, repairs := (m1.recordOf 5).words,
            banks := repairBanks m (m1.recordOf 5).words }

/-- MANAGEMENT_START: a start: the configuration records are verified (R433), then the steps run (R432); a part with a fenced core
stops at the step that enables its cores (R13). When start has completed, the part is at reset but for what the controller and
other agents keep: step records, records, spares, log, and memory beyond the links. -/
def execManagementStart (results : List Bool) (s : State) : Host.Outcome State Fault Refusal :=
  let m := s.mgmt
  let kept := { Mgmt.reset with steps := m.steps, log := m.log, records := m.records, offered := m.offered, map := m.map,
                                repairs := m.repairs, banks := m.banks, spares := m.spares, fenced := m.fenced }
  let go := fun (m : Mgmt) => { State.reset with
    agenda := s.agenda, free := s.free, ms := { MemSide.empty with mem := s.ms.mem.filter fun c => isOutside c.1 }, mgmt := m }
  let stop := fun (m : Mgmt) (k : Nat) => Host.Outcome.next (go { m with started := false, startStopped := some k })
  match recordKinds.find? fun k => (takeRecord m k).isNone with
  | some k => stop kept (Config.recordStep k)
  | none =>
    let r := runSteps (m.fenced.map fun core => coreStep (core / 96)) m.steps results
    let m1 := { installRecords kept (recordKinds.filterMap (takeRecord m)) with steps := r.1 }
    match r.2 with
    | .stopped k => stop m1 k
    | .complete => match m.fenced with
      | [] => .next (go m1)
      | core :: _ => stop m1 (coreStep (core / 96))

/-! ### A core that fails in service (R13) -/

/-- The core of a cluster to which the vertex wave of a failed core goes: the next one that is not fenced. -/
def nextWaveCore (s : State) (core : Nat) : Nat :=
  (((List.range 8).map fun k => core / 8 * 8 + (core + 1 + k) % 8).find? fun k => !s.mgmt.fenced.contains k).getD core

/-- The seats that residents take on group 0 of a core. -/
def seatsOn (s : State) (core : Nat) : List Seat :=
  ((residents s).filter fun t => t.pl.core == core && t.pl.group == 0).map fun t =>
    { core := core, group := 0, slot := t.pl.slot, bytes := regBytes t.rf.n t.rf.nv, l1 := 0 }

/-- A slot for a wave on group 0 of a core, where it and its register bytes are free (R35). -/
def waveRoom (s : State) (core : Nat) : Option Nat :=
  if 8192 ≤ freeBytes (seatsOn s core) core 0 then freeSlot (seatsOn s core) core 0 else none

/-- The seat of a wave on group 0 of a core. DESIGN CHOICE (log 81): where none is free, teams that are not of the matrix role leave
that group, the one placed last first. -/
def clearSeat (core : Nat) : Nat → State → State × Nat
  | 0, s => (s, (waveRoom s core).getD 0)
  | k + 1, s =>
    match waveRoom s core with
    | some slot => (s, slot)
    | none =>
      let can := (residents s).filter fun t => t.pl.core == core && t.pl.group == 0 && t.pl.role != 2 && t.wait != .locus
      match sortBy victimBefore (can.map fun t => [t]) with
      | [] => (s, 0)
      | v :: _ => clearSeat core k (evictAll s v)

/-- The wave of a failed core's cluster, if it stands there, is placed again (R13). -/
def moveWave (s : State) (core : Nat) : State :=
  let c := clusterOf core
  if (waveSeat s c).1 = core then
    let next := nextWaveCore s core
    let r := clearSeat next 17 s
    let s1 := { r.1 with mgmt := { r.1.mgmt with waves := r.1.mgmt.waves.set c (next, r.2) } }
    s1.mapTeams fun t =>
      if t.kind == .wave && t.pl.core == core then { t with pl := { t.pl with core := next, group := 0, slot := r.2 } } else t
  else s

/-- CORE_FAILURE: a spare takes the core's number, which the record of cores and spares then says (R3), or the core is fenced until the next
start: its teams leave as soon as they can, its cluster's wave moves. -/
def execCoreFailure (core : Nat) (s : State) : Host.Outcome State Fault Refusal :=
  let die := core / 96
  let left := s.mgmt.spares.getD die 0
  if 192 ≤ core ∨ s.mgmt.fenced.contains core then .next s
  else if 0 < left then
    let spares := s.mgmt.spares.set die (left - 1)
    .next { s with mgmt := { s.mgmt with spares := spares, records := putRecord (spareRecord spares) s.mgmt.records,
                                         offered := putRecord (spareRecord spares) s.mgmt.offered } }
  else
    let s1 := { s with mgmt := { s.mgmt with fenced := core :: s.mgmt.fenced, log := s.mgmt.log ++ [.coreFailed core] } }
    .next (moveWave (leaveFenced s1) core)

/-! ### Power (R434) -/

/-- POWER_THROTTLE: one step of 100 MHz, as far as 1.0 GHz. -/
def execPowerThrottle (s : State) : Host.Outcome State Fault Refusal :=
  .next { s with mgmt := { s.mgmt with clk := if 1100 ≤ s.mgmt.clk then s.mgmt.clk - 100 else s.mgmt.clk } }

/-- PLACEMENT_HOLD: power stays above CAP at 1.0 GHz; the event is logged. -/
def execPlacementHold (s : State) : Host.Outcome State Fault Refusal :=
  if s.mgmt.clk ≤ 1000 ∧ !s.mgmt.hold then
    .next { s with mgmt := { s.mgmt with hold := true, log := s.mgmt.log ++ [.hold s.mgmt.clk] } }
  else .next s

/-- POWER_BELOW_CAP: the hold ends. -/
def execPowerBelowCap (s : State) : Host.Outcome State Fault Refusal :=
  .next { s with mgmt := { s.mgmt with hold := false } }

/-! ### Bank tests (R327, R328) -/

/-- The repair entries of a bank's bad rows, each on the next spare row of its sub-channel. -/
def rowRepairs (m : Mgmt) (channel bank : Nat) (rows : List (Nat × Nat)) : List DWord :=
  rows.zipIdx.map fun x =>
    let spare := spareRowsUsed m channel bank x.1.1 + ((rows.take x.2).filter fun r => r.1 == x.1.1).length
    BitVec.ofNat 64 (packFields [(27, 0), (6, spare), (14, x.1.2), (5, bank), (2, x.1.1), (8, channel), (2, 1)])

/-- The entry of a bank that is beyond repair. -/
def bankRepair (channel bank : Nat) : DWord :=
  BitVec.ofNat 64 (packFields [(27, 0), (6, 0), (14, 0), (5, bank), (2, 0), (8, channel), (2, 2)])

/-- Repairs enter the repair table, whose updated record the controller has signed (R328). -/
def addRepairs (m : Mgmt) (es : List DWord) : Mgmt :=
  let r : ConfigRec := ⟨5, m.repairs ++ es⟩
  { m with repairs := m.repairs ++ es, records := putRecord r m.records, offered := putRecord r m.offered }

/-- A tested bank has been copied and its addresses go to the old spare; it becomes the spare itself, with spare rows in use for its bad
rows (R327). -/
def remapBank (m : Mgmt) (channel bank : Nat) (rows : List (Nat × Nat)) : Mgmt :=
  let b := m.bankMap channel
  let new : BankMap := { swapBank b bank with used := b.used ++ rows.map fun r => (b.banks.getD bank 0, r.1) }
  { m with banks := new :: m.banks.filter fun x => x.channel != channel }

/-- HBM_BANK_TEST: contents stay where programs see them; a repair is recorded and logged with kind 8 and offset 0 (R431). -/
def execHbmBankTest (channel bank : Nat) (badRows : List (Nat × Nat)) (s : State) : Host.Outcome State Fault Refusal :=
  let rows := badRows.eraseDups
  if 256 ≤ channel ∨ 32 ≤ bank ∨ s.mgmt.noSpare.contains channel ∨ !rows.all (fun r => decide (r.1 < 4 ∧ r.2 < 2 ^ 14)) then .next s
  else if rows = [] then .next { s with mgmt := remapBank s.mgmt channel bank [] }
  else
    let s1 := refuseWrite s 0 0 0
    let m := s1.mgmt
    let fits := fun (b : Nat) => decide (spareRowsUsed m channel bank b + (rows.filter fun r => r.1 == b).length ≤ 64)
    if (List.range 4).all fits then .next { s1 with mgmt := remapBank (addRepairs m (rowRepairs m channel bank rows)) channel bank rows }
    else .next { s1 with mgmt := remapBank { addRepairs m [bankRepair channel bank] with noSpare := channel :: m.noSpare } channel bank [] }

end Sys2Proof.Machine
end

