-- ==== Sys2Proof/Machine/Alu.lean ====
section
/-! DEFINITION. Integer, logic, shift, bit field, compare, predicate, move and scalar instructions (R105 to R118). -/

namespace Sys2Proof.Machine

/-- A vector instruction that writes `f L` into each active lane of `d` (R105). -/
def vecOp (i : Instr) (g : BitVec 3) (d : BitVec 6) (f : Team → Nat → Word) (s : State) :
    Host.Outcome State Fault Refusal :=
  issue i s fun s => .next (retire (s.withTeam (setV s.team d.toNat (active s.team g) (f s.team))))

/-- A two-operand vector instruction. -/
def vec2 (i : Instr) (o : V3) (f : Word → Word → Word) (s : State) : Host.Outcome State Fault Refusal :=
  vecOp i o.g o.d (fun t L => f (vget t o.a.toNat L) (vget t o.b.toNat L)) s

/-- A one-operand vector instruction. -/
def vec1 (i : Instr) (o : V2) (f : Word → Word) (s : State) : Host.Outcome State Fault Refusal :=
  vecOp i o.g o.d (fun t L => f (vget t o.a.toNat L)) s

/-- An I-form vector instruction. -/
def vecImm (i : Instr) (o : VI) (signed : Bool) (f : Word → Word → Word) (s : State) :
    Host.Outcome State Fault Refusal :=
  vecOp i o.g o.d (fun t L => f (vget t o.a.toNat L) (immOf t signed o.imm)) s

/-- A vector instruction that writes a predicate in its active lanes (R112). -/
def predOp (i : Instr) (g p : BitVec 3) (f : Team → Nat → Bool) (s : State) : Host.Outcome State Fault Refusal :=
  issue i s fun s => .next (retire (s.withTeam (setPLanes s.team p.toNat (active s.team g) (f s.team))))

/-- Predicate logic (R113). -/
def plog (i : Instr) (o : P3) (f : Bool → Bool → Bool) (s : State) : Host.Outcome State Fault Refusal :=
  predOp i o.g o.d (fun t L => f ((pset t o.a.toNat).getLsbD L) ((pset t o.b.toNat).getLsbD L)) s

/-- A scalar instruction that writes `f` into S[d] (R115). -/
def scalarOp (i : Instr) (d : BitVec 5) (f : Team → Word) (s : State) : Host.Outcome State Fault Refusal :=
  issue i s fun s => .next (retire (s.withTeam (setS s.team d.toNat (f s.team))))

/-- A two-operand scalar instruction. -/
def scal2 (i : Instr) (o : S3) (f : Word → Word → Word) (s : State) : Host.Outcome State Fault Refusal :=
  scalarOp i o.d (fun t => f (sget t o.a.toNat) (sget t o.b.toNat)) s

/-- A scalar compare, uniform in every lane below N (R116). -/
def scmp (i : Instr) (o : SCmp) (f : BitVec 3 → Word → Word → Bool) (s : State) : Host.Outcome State Fault Refusal :=
  issue i s fun s =>
    .next (retire (s.withTeam (setPUniform s.team o.p.toNat (f o.c (sget s.team o.a.toNat) (sget s.team o.b.toNat)))))

/-- The 64-bit special registers (R99, R101). -/
def special64 (s : State) (n : Nat) : DWord :=
  if n = 12 then s.cycle else if n = 13 then s.team.sp.tcyc else s.team.sp.tdl

/-- The 32-bit special registers (R99, R100, R103). -/
def special32 (t : Team) (n : Nat) : Word :=
  let k : Nat → Word := BitVec.ofNat 32
  match n with
  | 0 => k t.rf.n
  | 1 => 32
  | 2 => k t.pl.team
  | 3 => k t.pl.gang
  | 4 => k t.pl.gangsz
  | 5 => k t.pl.core
  | 6 => k (clusterOf t.pl.core)
  | 7 => k t.pl.role
  | 8 => k t.pl.prio
  | 9 => k t.pl.depth
  | 10 => t.sp.vid
  | 11 => t.sp.phase
  | 15 => t.sp.cause
  | 16 => t.sp.d0
  | 17 => t.sp.d1
  | 18 => t.sp.d2
  | 19 => t.sp.step
  | 20 => t.sp.ftz
  | 21 => t.sp.rmode
  | _ => 0

/-- IADD. -/
def execIadd (o : V3) (s : State) : Host.Outcome State Fault Refusal :=
  vecOp (.iadd o) o.g o.d (fun t L => addW (hmodOf t).sat (vget t o.a.toNat L) (vget t o.b.toNat L)) s

/-- ISUB. -/
def execIsub (o : V3) (s : State) : Host.Outcome State Fault Refusal :=
  vecOp (.isub o) o.g o.d (fun t L => subW (hmodOf t).sat (vget t o.a.toNat L) (vget t o.b.toNat L)) s

/-- IABS. -/
def execIabs (o : V2) (s : State) : Host.Outcome State Fault Refusal :=
  vec1 (.iabs o) o absW s

/-- ANDN. -/
def execAndn (o : V3) (s : State) : Host.Outcome State Fault Refusal :=
  vec2 (.andn o) o (fun a b => a &&& ~~~b) s

/-- IMIN_S. -/
def execIminS (o : V3) (s : State) : Host.Outcome State Fault Refusal :=
  vec2 (.iminS o) o minS s

/-- IMIN_U. -/
def execIminU (o : V3) (s : State) : Host.Outcome State Fault Refusal :=
  vec2 (.iminU o) o minU s

/-- IMAX_S. -/
def execImaxS (o : V3) (s : State) : Host.Outcome State Fault Refusal :=
  vec2 (.imaxS o) o maxS s

/-- IMAX_U. -/
def execImaxU (o : V3) (s : State) : Host.Outcome State Fault Refusal :=
  vec2 (.imaxU o) o maxU s

/-- IMUL_LO. -/
def execImulLo (o : V3) (s : State) : Host.Outcome State Fault Refusal :=
  vec2 (.imulLo o) o (fun a b => a * b) s

/-- IMUL_HI_S. -/
def execImulHiS (o : V3) (s : State) : Host.Outcome State Fault Refusal :=
  vec2 (.imulHiS o) o mulHiS s

/-- IMUL_HI_U. -/
def execImulHiU (o : V3) (s : State) : Host.Outcome State Fault Refusal :=
  vec2 (.imulHiU o) o mulHiU s

/-- IMAD. -/
def execImad (o : V3) (s : State) : Host.Outcome State Fault Refusal :=
  vecOp (.imad o) o.g o.d (fun t L => vget t o.a.toNat L * vget t o.b.toNat L + vget t o.d.toNat L) s

/-- AND. -/
def execAnd (o : V3) (s : State) : Host.Outcome State Fault Refusal :=
  vec2 (.and o) o (fun a b => a &&& b) s

/-- OR. -/
def execOr (o : V3) (s : State) : Host.Outcome State Fault Refusal :=
  vec2 (.or o) o (fun a b => a ||| b) s

/-- XOR. -/
def execXor (o : V3) (s : State) : Host.Outcome State Fault Refusal :=
  vec2 (.xor o) o (fun a b => a ^^^ b) s

/-- SEL. -/
def execSel (o : SelOp) (s : State) : Host.Outcome State Fault Refusal :=
  vecOp (.sel o) 7 o.d
    (fun t L => if (pset t o.p.toNat).getLsbD L then vget t o.a.toNat L else vget t o.b.toNat L) s

/-- SHL. -/
def execShl (o : V3) (s : State) : Host.Outcome State Fault Refusal :=
  vec2 (.shl o) o (fun a b => shlW a (shAmt b)) s

/-- SHR. -/
def execShr (o : V3) (s : State) : Host.Outcome State Fault Refusal :=
  vec2 (.shr o) o (fun a b => shrW a (shAmt b)) s

/-- SAR. -/
def execSar (o : V3) (s : State) : Host.Outcome State Fault Refusal :=
  vec2 (.sar o) o (fun a b => sarW a (shAmt b)) s

/-- ROT. -/
def execRot (o : V3) (s : State) : Host.Outcome State Fault Refusal :=
  vec2 (.rot o) o (fun a b => rotW a (shAmt b)) s

/-- POPC. -/
def execPopc (o : V2) (s : State) : Host.Outcome State Fault Refusal :=
  vec1 (.popc o) o popcW s

/-- CLZ. -/
def execClz (o : V2) (s : State) : Host.Outcome State Fault Refusal :=
  vec1 (.clz o) o clzW s

/-- BREV. -/
def execBrev (o : V2) (s : State) : Host.Outcome State Fault Refusal :=
  vec1 (.brev o) o brevW s

/-- BFX_U. -/
def execBfxU (o : V3) (s : State) : Host.Outcome State Fault Refusal :=
  vec2 (.bfxU o) o bfxU s

/-- BFX_S. -/
def execBfxS (o : V3) (s : State) : Host.Outcome State Fault Refusal :=
  vec2 (.bfxS o) o bfxS s

/-- BFI. -/
def execBfi (o : V3) (s : State) : Host.Outcome State Fault Refusal :=
  vecOp (.bfi o) o.g o.d (fun t L => bfi (vget t o.d.toNat L) (vget t o.a.toNat L) (vget t o.b.toNat L)) s

/-- ICMP_S. -/
def execIcmpS (o : VCmp) (s : State) : Host.Outcome State Fault Refusal :=
  predOp (.icmpS o) o.g o.p (fun t L => condS o.c (vget t o.a.toNat L) (vget t o.b.toNat L)) s

/-- ICMP_U. -/
def execIcmpU (o : VCmp) (s : State) : Host.Outcome State Fault Refusal :=
  predOp (.icmpU o) o.g o.p (fun t L => condU o.c (vget t o.a.toNat L) (vget t o.b.toNat L)) s

/-- PLOG_AND. -/
def execPlogAnd (o : P3) (s : State) : Host.Outcome State Fault Refusal :=
  plog (.plogAnd o) o (fun a b => a && b) s

/-- PLOG_OR. -/
def execPlogOr (o : P3) (s : State) : Host.Outcome State Fault Refusal :=
  plog (.plogOr o) o (fun a b => a || b) s

/-- PLOG_XOR. -/
def execPlogXor (o : P3) (s : State) : Host.Outcome State Fault Refusal :=
  plog (.plogXor o) o (fun a b => a ^^ b) s

/-- PLOG_ANDN. -/
def execPlogAndn (o : P3) (s : State) : Host.Outcome State Fault Refusal :=
  plog (.plogAndn o) o (fun a b => a && !b) s

/-- MOV. -/
def execMov (o : V2) (s : State) : Host.Outcome State Fault Refusal :=
  vec1 (.mov o) o (fun a => a) s

/-- MOV_SP. -/
def execMovSp (o : V1) (s : State) : Host.Outcome State Fault Refusal :=
  vecOp (.movSp o) o.g o.d (fun _ L => BitVec.ofNat 32 L) s

/-- IADDI. -/
def execIaddi (o : VI) (s : State) : Host.Outcome State Fault Refusal :=
  vecOp (.iaddi o) o.g o.d (fun t L => addW (hmodOf t).sat (vget t o.a.toNat L) (immOf t true o.imm)) s

/-- ANDI. -/
def execAndi (o : VI) (s : State) : Host.Outcome State Fault Refusal :=
  vecImm (.andi o) o false (fun a b => a &&& b) s

/-- ORI. -/
def execOri (o : VI) (s : State) : Host.Outcome State Fault Refusal :=
  vecImm (.ori o) o false (fun a b => a ||| b) s

/-- XORI. -/
def execXori (o : VI) (s : State) : Host.Outcome State Fault Refusal :=
  vecImm (.xori o) o false (fun a b => a ^^^ b) s

/-- MOVI. -/
def execMovi (o : VMovI) (s : State) : Host.Outcome State Fault Refusal :=
  vecOp (.movi o) o.g o.d (fun t _ => immOf t true o.imm) s

/-- ICMPI. -/
def execIcmpi (o : VCmpI) (s : State) : Host.Outcome State Fault Refusal :=
  predOp (.icmpi o) o.g o.p (fun t L =>
    if (hmodOf t).u then condU o.c (vget t o.a.toNat L) (immOf t true o.imm)
    else condS o.c (vget t o.a.toNat L) (immOf t true o.imm)) s

/-- SHLI. -/
def execShli (o : VShI) (s : State) : Host.Outcome State Fault Refusal :=
  vecOp (.shli o) o.g o.d (fun t L => shlW (vget t o.a.toNat L) o.k.toNat) s

/-- SHRI. -/
def execShri (o : VShI) (s : State) : Host.Outcome State Fault Refusal :=
  vecOp (.shri o) o.g o.d (fun t L => shrW (vget t o.a.toNat L) o.k.toNat) s

/-- SARI. -/
def execSari (o : VShI) (s : State) : Host.Outcome State Fault Refusal :=
  vecOp (.sari o) o.g o.d (fun t L => sarW (vget t o.a.toNat L) o.k.toNat) s

/-- SADD. -/
def execSadd (o : S3) (s : State) : Host.Outcome State Fault Refusal :=
  scal2 (.sadd o) o (fun a b => a + b) s

/-- SSUB. -/
def execSsub (o : S3) (s : State) : Host.Outcome State Fault Refusal :=
  scal2 (.ssub o) o (fun a b => a - b) s

/-- SMUL. -/
def execSmul (o : S3) (s : State) : Host.Outcome State Fault Refusal :=
  scal2 (.smul o) o (fun a b => a * b) s

/-- SAND. -/
def execSand (o : S3) (s : State) : Host.Outcome State Fault Refusal :=
  scal2 (.sand o) o (fun a b => a &&& b) s

/-- SOR. -/
def execSor (o : S3) (s : State) : Host.Outcome State Fault Refusal :=
  scal2 (.sor o) o (fun a b => a ||| b) s

/-- SXOR. -/
def execSxor (o : S3) (s : State) : Host.Outcome State Fault Refusal :=
  scal2 (.sxor o) o (fun a b => a ^^^ b) s

/-- SSHL. -/
def execSshl (o : S3) (s : State) : Host.Outcome State Fault Refusal :=
  scal2 (.sshl o) o (fun a b => shlW a (shAmt b)) s

/-- SSHR. -/
def execSshr (o : S3) (s : State) : Host.Outcome State Fault Refusal :=
  scal2 (.sshr o) o (fun a b => shrW a (shAmt b)) s

/-- SCMP_S. -/
def execScmpS (o : SCmp) (s : State) : Host.Outcome State Fault Refusal :=
  scmp (.scmpS o) o condS s

/-- SCMP_U. -/
def execScmpU (o : SCmp) (s : State) : Host.Outcome State Fault Refusal :=
  scmp (.scmpU o) o condU s

/-- SMOV. -/
def execSmov (o : S2) (s : State) : Host.Outcome State Fault Refusal :=
  scalarOp (.smov o) o.d (fun t => sget t o.a.toNat) s

/-- V2S. -/
def execV2s (o : V2SOp) (s : State) : Host.Outcome State Fault Refusal :=
  scalarOp (.v2s o) o.d (fun t =>
    match lowestLane t.rf.n (active t o.g) with
    | some L => vget t o.a.toNat L
    | none => 0) s

/-- S2V. -/
def execS2v (o : S2VOp) (s : State) : Host.Outcome State Fault Refusal :=
  vecOp (.s2v o) o.g o.d (fun t _ => sget t o.a.toNat) s

/-- SADDI. -/
def execSaddi (o : SI) (s : State) : Host.Outcome State Fault Refusal :=
  scalarOp (.saddi o) o.d (fun t => sget t o.a.toNat + immOf t true o.imm) s

/-- SMOVI. -/
def execSmovi (o : SMovI) (s : State) : Host.Outcome State Fault Refusal :=
  scalarOp (.smovi o) o.r (fun t => immOf t true o.imm) s

/-- SRD. -/
def execSrd (o : SMovI) (s : State) : Host.Outcome State Fault Refusal :=
  issue (.srd o) s fun s =>
    let t := s.team
    if sp64 o.imm then .next (retire (s.withTeam (setPair t o.r.toNat (special64 s o.imm.toNat))))
    else .next (retire (s.withTeam (setS t o.r.toNat (special32 t o.imm.toNat))))

/-- SWR. -/
def execSwr (o : SMovI) (s : State) : Host.Outcome State Fault Refusal :=
  issue (.swr o) s fun s =>
    let t := s.team
    let x := sget t o.r.toNat
    let n := o.imm.toNat
    if n = 14 then .next (retire (s.withTeam { t with sp := { t.sp with tdl := spair t o.r.toNat } }))
    else if (n = 19 ∧ 3 < x.toNat) ∨ (n = 20 ∧ 1 < x.toNat) ∨ (n = 21 ∧ 4 < x.toNat) then
      .trap (trap1 t 5 ((encode (.swr o)).getD 0))
    else if n = 19 then
      .next (retireWithStep (stepping t) (s.withTeam { t with sp := { t.sp with step := x } }) none)
    else if n = 20 then .next (retire (s.withTeam { t with sp := { t.sp with ftz := x } }))
    else .next (retire (s.withTeam { t with sp := { t.sp with rmode := x } }))

end Sys2Proof.Machine
end

