-- ==== Sys2Proof/Machine/Lanes.lean ====
section
/-! DEFINITION. Cross-lane instructions, majors 0x30 to 0x33 (R132 to R137). -/

namespace Sys2Proof.Machine

/-- The operand `o` of SHFL in lane `L`: V[b][L], or N / 2^b under the immediate form (R133). -/
def shflArg (t : Team) (o : V3) (L : Nat) : Nat :=
  if o.eb then t.rf.n / 2 ^ o.b.toNat else (vget t o.b.toNat L).toNat

/-- A SHFL with source lane `src N o L`. -/
def shfl (i : Instr) (o : V3) (src : Nat → Nat → Nat → Nat) (s : State) : Host.Outcome State Fault Refusal :=
  vecOp i o.g o.d (fun t L => vget t o.a.toNat (src t.rf.n (shflArg t o L) L)) s

/-- SHFL.IDX. -/
def execShflIdx (o : V3) (s : State) : Host.Outcome State Fault Refusal := shfl (.shflIdx o) o (fun n x _ => x % n) s

/-- SHFL.XOR. -/
def execShflXor (o : V3) (s : State) : Host.Outcome State Fault Refusal :=
  shfl (.shflXor o) o (fun n x L => L ^^^ (x % n)) s

/-- SHFL.UP. -/
def execShflUp (o : V3) (s : State) : Host.Outcome State Fault Refusal :=
  shfl (.shflUp o) o (fun _ x L => if L < x then L else L - x) s

/-- SHFL.DN. -/
def execShflDn (o : V3) (s : State) : Host.Outcome State Fault Refusal :=
  shfl (.shflDn o) o (fun n x L => if n ≤ L + x then L else L + x) s

/-- The active lanes in which a predicate is true (R134). -/
def ballot (t : Team) (g p : BitVec 3) : LaneSet := active t g &&& pset t p.toNat

/-- VOTE.ANY (R134). -/
def execVoteAny (o : VoteOp) (s : State) : Host.Outcome State Fault Refusal :=
  issue (.voteAny o) s fun s =>
    .next (retire (s.withTeam (setPUniform s.team o.d.toNat (ballot s.team o.g o.a != 0))))

/-- VOTE.ALL (R134). -/
def execVoteAll (o : VoteOp) (s : State) : Host.Outcome State Fault Refusal :=
  issue (.voteAll o) s fun s =>
    .next (retire (s.withTeam (setPUniform s.team o.d.toNat (ballot s.team o.g o.a == active s.team o.g))))

/-- VOTE.BAL (R134). -/
def execVoteBal (o : VoteBalOp) (s : State) : Host.Outcome State Fault Refusal :=
  scalarOp (.voteBal o) o.d (fun t => BitVec.ofNat 32 (lanesOf t.rf.n (ballot t o.g o.a)).length) s

/-- One level of the reduction tree (R135): neighbours combine. -/
def treeLevel (f : Word → Word → Word) : List Word → List Word
  | a :: b :: xs => f a b :: treeLevel f xs
  | xs => xs

/-- The reduction tree over `k` levels. -/
def treeOf (f : Word → Word → Word) : Nat → List Word → Word
  | 0, xs => xs.headD 0
  | k + 1, xs => treeOf f k (treeLevel f xs)

/-- The lanes' terms: inactive lanes give the identity. -/
def terms (t : Team) (m : LaneSet) (a : Nat) (id : Word) : List Word :=
  (List.range t.rf.n).map fun L => if m.getLsbD L then vget t a L else id

/-- One step of the inclusive prefix (R136). -/
def scanStep (f : Word → Word → Word) (k : Nat) (xs : List Word) : List Word :=
  xs.zipIdx.map fun x => if k ≤ x.2 then f (xs.getD (x.2 - k) 0) x.1 else x.1

/-- The steps with distances 2^0 to 2^(k-1), in that order. -/
def scanOf (f : Word → Word → Word) : Nat → List Word → List Word
  | 0, xs => xs
  | k + 1, xs => scanStep f (2 ^ k) (scanOf f k xs)

/-- RLOG with an operation and identity (R135). -/
def rlog (i : Instr) (o : V2) (f : Team → Word → Word → Word) (id : Word) (s : State) :
    Host.Outcome State Fault Refusal :=
  issue i s fun s =>
    let t := s.team
    let m := active t o.g
    let x := treeOf (f t) t.rf.n.log2 (terms t m o.a.toNat id)
    .next (retire (s.withTeam (setV t o.d.toNat m fun _ => x)))

/-- SCAN with an operation and identity (R136). -/
def scan (i : Instr) (o : V2) (f : Team → Word → Word → Word) (id : Word) (s : State) :
    Host.Outcome State Fault Refusal :=
  issue i s fun s =>
    let t := s.team
    let m := active t o.g
    let xs := scanOf (f t) t.rf.n.log2 (terms t m o.a.toNat id)
    .next (retire (s.withTeam (setV t o.d.toNat m fun L => xs.getD L 0)))

/-- FP32 addition at a node of RLOG.FADD: RNE, with `%ftz`. -/
def nodeAdd (t : Team) (a b : Word) : Word := BitVec.ofNat 32 (fAdd (fp32.ftz (ftzOf t)) .rne a.toNat b.toNat)

/-- FP32 addition at a node of SCAN.FADD: RNE, subnormals exact, since R154 lets `%ftz` act on RLOG and not on SCAN. -/
def scanAdd (a b : Word) : Word := BitVec.ofNat 32 (fAdd fp32 .rne a.toNat b.toNat)

/-- FP32 maximum at a node. -/
def nodeMax (t : Team) (a b : Word) : Word := BitVec.ofNat 32 (fMax (fp32.ftz (ftzOf t)) a.toNat b.toNat)

/-- RLOG.IADD. -/
def execRlogIadd (o : V2) (s : State) : Host.Outcome State Fault Refusal :=
  rlog (.rlogIadd o) o (fun _ a b => a + b) 0 s

/-- RLOG.IMAX.S. -/
def execRlogImaxS (o : V2) (s : State) : Host.Outcome State Fault Refusal :=
  rlog (.rlogImaxS o) o (fun _ => maxS) 0x80000000 s

/-- RLOG.FADD. -/
def execRlogFadd (o : V2) (s : State) : Host.Outcome State Fault Refusal :=
  rlog (.rlogFadd o) o nodeAdd 0x80000000 s

/-- RLOG.FMAX. -/
def execRlogFmax (o : V2) (s : State) : Host.Outcome State Fault Refusal :=
  rlog (.rlogFmax o) o nodeMax 0xFF800000 s

/-- SCAN.IADD. -/
def execScanIadd (o : V2) (s : State) : Host.Outcome State Fault Refusal :=
  scan (.scanIadd o) o (fun _ a b => a + b) 0 s

/-- SCAN.FADD. -/
def execScanFadd (o : V2) (s : State) : Host.Outcome State Fault Refusal :=
  scan (.scanFadd o) o (fun _ => scanAdd) 0x80000000 s

/-- ELECT (R137): the lowest active lane. -/
def execElect (o : GP) (s : State) : Host.Outcome State Fault Refusal :=
  issue (.elect o) s fun s =>
    let t := s.team
    let m : LaneSet := match lowestLane t.rf.n (active t o.g) with
      | some L => BitVec.ofNat 1024 (2 ^ L)
      | none => 0
    .next (retire (s.withTeam (setP t o.d.toNat m)))

/-- MSKRD (R137): a mask word, or the summary word. -/
def execMskrd (o : S2) (s : State) : Host.Outcome State Fault Refusal :=
  scalarOp (.mskrd o) o.d (fun t =>
    let k := (sget t o.a.toNat).toNat
    if k < 32 then maskWord t.ctl.mask k else if k = 32 then summary t.ctl.mask else 0) s

end Sys2Proof.Machine
end

