-- ==== Sys2Proof/Machine/Marl.lean ====
section
/-! DEFINITION. Marl mode: slices that compute in their subarrays, majors 0x58 to 0x5A (R332, R343 to R353). -/

namespace Sys2Proof.Machine

/-! ### Slices -/

/-- The slice in marl mode with a number. -/
def sliceOf (s : State) (n : Nat) : Option MarlSlice := s.marl.find? fun m => m.num == n

/-- Change a slice. -/
def modSlice (s : State) (n : Nat) (f : MarlSlice → MarlSlice) : State :=
  { s with marl := s.marl.map fun m => if m.num == n then f m else m }

/-- Whether the team's gang owns the slice. -/
def ownsSlice (t : Team) (m : MarlSlice) : Bool := m.grid == t.pl.grid && m.gang == t.pl.gang

/-- Whether a slice is in marl mode and the team's gang owns it. -/
def owned (s : State) (t : Team) (n : Nat) : Bool := (sliceOf s n).any (ownsSlice t)

/-- The highest number of a slice's sectors that fall into one set. -/
def maxPerSet (map : BitVec 512) (slice : Nat) (ns : List Nat) : Nat :=
  let sets := (ns.filter fun n => isCached (64 * n) && sliceOfSector map n == slice).map setOfSector
  sets.foldl (fun m k => max m (sets.filter fun x => x == k).length) 0

/-- Whether the keel test of R344 fails: a set's entries and held sectors need more than the four sectors of its two keel ways. -/
def keelFull (s : State) (slice : Nat) : Bool :=
  decide (4 < maxPerSet s.mgmt.map slice (s.teams.flatMap fun t => homeSectors t.ver))

/-- The lines of a slice that stand in its marl subarrays: those outside the keel ways (R332). -/
def marlLines (s : State) (slice : Nat) : List Sector :=
  s.ms.l2.filter fun x => sliceOfSector s.mgmt.map x.num == slice && decide (2 ≤ x.way)

/-- MARLMAX (R333). -/
def marlMax (s : State) : Nat := (s.res.l2cfg.extractLsb' 8 9).toNat

/-- The status MRON returns (R344). -/
def mronStatus (s : State) (t : Team) (slice : Nat) : Nat :=
  match sliceOf s slice with
  | some m => if ownsSlice t m then 4 else 2
  | none => if marlMax s ≤ s.marl.length then 3 else if keelFull s slice then 1 else 0

/-- The switch of R344: write-backs of the lines of the marl subarrays; unless the keel is full they are dropped, entries and held sectors
take the keel ways that they need, and the rows are zero. -/
def switchOn (s : State) (t : Team) (slice st : Nat) : State :=
  let v := l2View s
  let xs := marlLines s slice
  if st = 0 then
    settleWays { s with
      ms := xs.foldl (flushSector v) s.ms,
      marl := s.marl ++ [{ num := slice, grid := t.pl.grid, gang := t.pl.gang, rows := [], queue := [], reds := [] }] }
  else { s with ms := xs.foldl (writeBack v) s.ms }

/-- MRON (R344). -/
def execMron (o : S2) (s : State) : Host.Outcome State Fault Refusal :=
  issue (.mron o) s fun s =>
    let t := s.team
    let w := (sget t o.a.toNat).toNat
    let slice := w % 256
    if w / 256 ≠ 0 then .trap (trap9 2 slice (codeOff t t.ctl.pc))
    else
      let st := mronStatus s t slice
      let s1 := if st = 0 ∨ st = 1 then switchOn s t slice st else s
      .next (retire (s1.withTeam (setS t o.d.toNat (BitVec.ofNat 32 st))))

/-- Whether the MC counter of an issuing team has still to fall past one of some commands that have completed (R199, R357). -/
def counterBehind (s : State) (xs : List (Nat × Nat)) : Bool :=
  xs.any fun x => (s.find x.1).any fun t => (openTags t).contains x.2

/-- MROFF (R346): it takes effect at once when no command is before it and the MC counters have fallen past the MRREDs that were (R357),
else when the slice reaches it. -/
def execMroff (o : S1) (s : State) : Host.Outcome State Fault Refusal :=
  issue (.mroff o) s fun s =>
    let t := s.team
    let w := (sget t o.a.toNat).toNat
    let slice := w % 256
    if !owned s t slice then .trap (trap9 1 slice (codeOff t t.ctl.pc))
    else if w / 256 ≠ 0 then .trap (trap9 2 slice (codeOff t t.ctl.pc))
    else if ((sliceOf s slice).map fun m => m.queue.isEmpty && !counterBehind s m.reds).getD true then
      .next (retire { s with marl := s.marl.filter fun m => m.num != slice })
    else
      let e : MarlEntry := { uid := t.uid, tag := 0, code := codeOff t t.ctl.pc, cmd := .off }
      .next ((modSlice s slice fun m => { m with queue := m.queue ++ [e] }).withTeam { t with wait := .marl none })

/-! ### Operand words (R348) -/

/-- FIRST of a target word. -/
def tFirst (w : Word) : Nat := bitsOf w.toNat 8 6
/-- LAST. -/
def tLast (w : Word) : Nat := bitsOf w.toNat 14 6
/-- SLICE. -/
def tSlice (w : Word) : Nat := w.toNat % 256
/-- MASKED. -/
def tMasked (w : Word) : Bool := w.getLsbD 30
/-- MROW. -/
def tMrow (w : Word) : Nat := bitsOf w.toNat 20 10
/-- D of a row word. -/
def rD (w : Word) : Nat := bitsOf w.toNat 0 10
/-- X. -/
def rX (w : Word) : Nat := bitsOf w.toNat 10 10
/-- Y. -/
def rY (w : Word) : Nat := bitsOf w.toNat 20 10
/-- PLEN of an MRLD's row word. -/
def rPlen (w : Word) : Nat := bitsOf w.toNat 14 18
/-- KP. -/
def rKp (w : Word) : Nat := bitsOf w.toNat 10 4

/-- The lowest precise reason that applies, given the command's own conditions (R353). -/
def marlReason (s : State) (t : Team) (target : Word) (rsv bad4 bad5 bad6 bad7 : Bool) : Option Nat :=
  if !owned s t (tSlice target) then some 1
  else if target.getLsbD 31 || rsv then some 2
  else if tLast target < tFirst target ∨ 55 < tLast target then some 3
  else if bad4 then some 4
  else if bad5 then some 5
  else if bad6 then some 6
  else if bad7 then some 7
  else none

/-- Whether the fields of `n` rows at `a` and of `m` rows at `b` meet. -/
def fieldsMeet (a n b m : Nat) : Bool := decide (a < b + m ∧ b < a + n)

/-- Row errors of a computing command (R351): `n` destination rows, `k` source rows. -/
def rowsBad (row : Word) (n k : Nat) (imm apart : Bool) : Bool :=
  decide (1024 < rD row + n) || decide (1024 < rX row + k) || (!imm && decide (1024 < rY row + k))
    || (apart && (fieldsMeet (rD row) n (rX row) k || (!imm && fieldsMeet (rD row) n (rY row) k)))

/-- Queue a command at its slice; the MC counter rises (R349). -/
def queueMarl (s : State) (target : Word) (bad : Option Nat) (dst : Dst) (cmd : MarlCmd) : Result :=
  let t := s.team
  if !hasRoom t 5 then .wait .counter
  else match bad with
    | some r => .trap (trap9 r (tSlice target) (codeOff t t.ctl.pc))
    | none =>
      let e : MarlEntry := { uid := t.uid, tag := t.nextTag, code := codeOff t t.ctl.pc, cmd := cmd }
      let s1 := modSlice s (tSlice target) fun m => { m with queue := m.queue ++ [e] }
      .next (retire (s1.withTeam (addOp t 5 dst 0 false)))

/-- MRLD and MRST (R350). -/
def marlMove (i : Instr) (o : RangeOp) (cmd : DWord → Word → Word → MarlCmd) (s : State) : Host.Outcome State Fault Refusal :=
  issue i s fun s =>
    let t := s.team
    let base := spair t (2 * o.a.toNat)
    let target := sget t o.b.toNat
    let row := sget t (o.b.toNat + 1)
    let bad4 := decide (1024 < rD row + rKp row) || decide (rPlen row < tLast target + 1 - tFirst target)
    let bad6 := decide (rKp row = 0 ∨ 8 < rKp row) || tMasked target
    queueMarl s target (marlReason s t target false bad4 false bad6 (base.toNat % 128 != 0 || !canonical base)) .none
      (cmd base target row)

/-- MRLD. -/
def execMrld (o : RangeOp) (s : State) : Host.Outcome State Fault Refusal := marlMove (.mrld o) o .ld s
/-- MRST. -/
def execMrst (o : RangeOp) (s : State) : Host.Outcome State Fault Refusal := marlMove (.mrst o) o .st s

/-- MROP (R351). -/
def execMrop (o : MropOp) (s : State) : Host.Outcome State Fault Refusal :=
  issue (.mrop o) s fun s =>
    let t := s.team
    let row := sget t o.a.toNat
    let target := sget t o.b.toNat
    queueMarl s target (marlReason s t target (row.getLsbD 31 || row.getLsbD 30) (rowsBad row 1 1 false false) false false false)
      .none (.op o.op target row)

/-- The immediate of a computing command: the scalar after the target word. -/
def marlImm (t : Team) (b : BitVec 5) : Word := sget t (b.toNat + 1)

/-- MRADD (R351). -/
def execMradd (o : MrkOp) (s : State) : Host.Outcome State Fault Refusal :=
  issue (.mradd o) s fun s =>
    let t := s.team
    let row := sget t o.a.toNat
    let target := sget t o.b.toNat
    let k := o.k.toNat + 1
    let imm := row.getLsbD 30
    queueMarl s target (marlReason s t target false (rowsBad row (k + 1) k imm true) false (imm && o.b == 31) false)
      .none (.add k target row (marlImm t o.b))

/-- MRMUL (R351). -/
def execMrmul (o : MrkOp) (s : State) : Host.Outcome State Fault Refusal :=
  issue (.mrmul o) s fun s =>
    let t := s.team
    let row := sget t o.a.toNat
    let target := sget t o.b.toNat
    let k := o.k.toNat + 1
    let imm := row.getLsbD 30
    queueMarl s target (marlReason s t target false (rowsBad row (2 * k) k imm true) (decide (16 < k)) (imm && o.b == 31) false)
      .none (.mul k target row (marlImm t o.b))

/-- MRCMP (R351). -/
def execMrcmp (o : MrcmpOp) (s : State) : Host.Outcome State Fault Refusal :=
  issue (.mrcmp o) s fun s =>
    let t := s.team
    let row := sget t o.a.toNat
    let target := sget t o.b.toNat
    let k := o.k.toNat + 1
    let imm := row.getLsbD 30
    queueMarl s target (marlReason s t target false (rowsBad row 1 k imm false) false (imm && o.b == 31) false)
      .none (.cmp o.lt k target row (marlImm t o.b))

/-- MRRED (R352). -/
def execMrred (o : S3) (s : State) : Host.Outcome State Fault Refusal :=
  issue (.mrred o) s fun s =>
    let t := s.team
    let row := sget t o.a.toNat
    let target := sget t o.b.toNat
    queueMarl s target
      (marlReason s t target (row.toNat / 2 ^ 16 != 0) (decide (1024 < rD row + (bitsOf row.toNat 10 5 + 1))) false false false)
      (.scalar o.d.toNat 0) (.red target row)

/-! ### Rows (R347) -/

/-- A row: the lanes as bits of one number. -/
def rowGet (rows : List (Nat × Nat)) (r : Nat) : Nat := ((rows.find? fun x => x.1 == r).map fun x => x.2).getD 0

/-- Write a row; a row of zeros is not listed. -/
def rowSet (rows : List (Nat × Nat)) (r x : Nat) : List (Nat × Nat) :=
  let rest := rows.filter fun y => y.1 != r
  if x = 0 then rest else (r, x) :: rest

/-- Bit `e` of row `r`. -/
def rowBit (rows : List (Nat × Nat)) (r e : Nat) : Bool := (rowGet rows r).testBit e

/-- The lanes of subarrays `first` to `last` of a row get `f`; the others keep their bits. -/
def rowWith (old first last : Nat) (f : Nat → Bool) : Nat :=
  let lo := 1024 * first
  let n := 1024 * (last + 1 - first)
  old % 2 ^ lo + packLanes n (fun c => f (lo + c)) * 2 ^ lo + old / 2 ^ (lo + n) * 2 ^ (lo + n)

/-- The `k`-bit field at row `r` of lane `e`, row `r` the most significant bit. -/
def fieldAt (rows : List (Nat × Nat)) (r k e : Nat) : Nat := packLanes k fun i => rowBit rows (r + (k - 1 - i)) e

/-- A field's number. -/
def fieldVal (uns : Bool) (k x : Nat) : Int := if uns then (x : Int) else signedOf k x

/-- Whether a lane is written (R348): MASKED takes the lane's bit in MROW, as the row stands before the command. -/
def selected (rows : List (Nat × Nat)) (target : Word) (e : Nat) : Bool := !tMasked target || rowBit rows (tMrow target) e

/-- Write an `n`-bit field at row `d` in the selected lanes of the range. Sources are read before any row is written. -/
def writeField (rows : List (Nat × Nat)) (target : Word) (d n : Nat) (f : Nat → Nat) : List (Nat × Nat) :=
  (List.range n).foldl (fun out i =>
    rowSet out (d + i) (rowWith (rowGet rows (d + i)) (tFirst target) (tLast target) fun e =>
      if selected rows target e then (f e).testBit (n - 1 - i) else rowBit rows (d + i) e)) rows

/-- Source y of a computing command: its field, or the constant. -/
def sourceY (rows : List (Nat × Nat)) (row imm : Word) (k e : Nat) : Nat :=
  if row.getLsbD 30 then imm.toNat % 2 ^ k else fieldAt rows (rY row) k e

/-- The bit of MROP (R82, R351). -/
def mropBit (f : BitVec 3) (x y : Bool) : Bool :=
  if f = 0 then x && y else if f = 1 then x || y else if f = 2 then x != y else if f = 3 then x && !y else !x

/-- The rows after a computing command (R351). -/
def marlCompute (rows : List (Nat × Nat)) (cmd : MarlCmd) : List (Nat × Nat) :=
  match cmd with
  | .op f target row =>
    writeField rows target (rD row) 1 fun e => if mropBit f (rowBit rows (rX row) e) (rowBit rows (rY row) e) then 1 else 0
  | .add k target row imm =>
    let v := fun (x : Nat) => fieldVal (row.getLsbD 31) k x
    writeField rows target (rD row) (k + 1) fun e =>
      ((v (fieldAt rows (rX row) k e) + v (sourceY rows row imm k e)) % (2 ^ (k + 1) : Int)).toNat
  | .mul k target row imm =>
    let v := fun (x : Nat) => fieldVal (row.getLsbD 31) k x
    writeField rows target (rD row) (2 * k) fun e =>
      ((v (fieldAt rows (rX row) k e) * v (sourceY rows row imm k e)) % (2 ^ (2 * k) : Int)).toNat
  | .cmp lt k target row imm =>
    let v := fun (x : Nat) => fieldVal (row.getLsbD 31) k x
    rowSet rows (rD row) (rowWith (rowGet rows (rD row)) (tFirst target) (tLast target) fun e =>
      selected rows target e &&
        (decide (v (fieldAt rows (rX row) k e) < v (sourceY rows row imm k e)) == lt))
  | _ => rows

/-- The sum of MRRED (R352). -/
def marlSum (rows : List (Nat × Nat)) (target row : Word) : Word :=
  let k := bitsOf row.toNat 10 5 + 1
  let uns := row.getLsbD 15
  let lanes := (regsFrom (1024 * tFirst target) (1024 * (tLast target + 1 - tFirst target))).filter (selected rows target)
  let sum := lanes.foldl (fun (x : Int) e => x + fieldVal uns k (fieldAt rows (rD row) k e)) 0
  if uns then BitVec.ofInt 32 (min sum 4294967295)
  else BitVec.ofInt 32 (max (-2147483648) (min sum 2147483647))

/-! ### Moving tensors (R350) -/

/-- The pieces of 128 bytes of a move: address, row, subarray. -/
def marlPieces (base : DWord) (target row : Word) : List (DWord × Nat × Nat) :=
  (List.range (tLast target + 1 - tFirst target)).flatMap fun i =>
    (List.range (rKp row)).map fun p =>
      (base + BitVec.ofNat 64 (p * rPlen row * 128 + 128 * i), rD row + p, tFirst target + i)

/-- A piece of a move that could be translated: physical address, whether straight to committed data, key index, row, subarray. -/
structure MarlPiece where
  pa : Nat
  direct : Bool
  key : Nat
  row : Nat
  sub : Nat

/-- Translate pieces until one fails or waits: how that ended, and those before it. -/
def transPieces (t : Team) (tag : Nat) (acc : Access) : List (DWord × Nat × Nat) → State → List MarlPiece →
    EngineXlate × List MarlPiece
  | [], s, xs => (.ok 0 false 0 s, xs)
  | (va, r, j) :: ps, s, xs =>
    match engineXlate s ((s.find t.uid).getD t) tag acc va with
    | .ok pa direct key s1 =>
      match if acc = .read then badGranule s1.ms (granulesAt s1.ms pa 128) else none with
      | some bad => (.fail 17 (eccReport s1 bad), xs)
      | none =>
        transPieces t tag acc ps (if acc = .read then correctGranules s1 (granulesAt s1.ms pa 128) else s1)
          (xs ++ [{ pa := pa, direct := direct, key := key, row := r, sub := j }])
    | e => (e, xs)

/-- Put 1,024 lanes of a row. -/
def putLanes (rows : List (Nat × Nat)) (r j x : Nat) : List (Nat × Nat) :=
  rowSet rows r (rowWith (rowGet rows r) j j fun e => x.testBit (e - 1024 * j))

/-- MRLD on the pieces that could be read: committed data. -/
def loadPieces (ms : MemSide) (rows : List (Nat × Nat)) (xs : List MarlPiece) : List (Nat × Nat) :=
  xs.foldl (fun rows x => putLanes rows x.row x.sub (ofLeBytes (commBytesK ms x.key x.pa 128))) rows

/-- The destination rows of a command: the first and how many (R350, R351). -/
def marlDest : MarlCmd → Nat × Nat
  | .ld _ _ row => (rD row, rKp row)
  | .op _ _ row => (rD row, 1)
  | .add k _ row _ => (rD row, k + 1)
  | .mul k _ row _ => (rD row, 2 * k)
  | .cmp _ _ _ row _ => (rD row, 1)
  | .st _ _ _ | .red _ _ | .off => (0, 0)

/-- The target word of a command. -/
def marlTarget : MarlCmd → Word
  | .ld _ target _ | .st _ target _ | .op _ target _ | .add _ target _ _ | .mul _ target _ _ | .cmp _ _ target _ _
  | .red target _ => target
  | .off => 0

/-- The rows a command reads (R350 to R352): its sources and its mask row. -/
def marlSources (c : MarlCmd) : List Nat :=
  let y := fun (row : Word) (k : Nat) => if row.getLsbD 30 then [] else regsFrom (rY row) k
  (match c with
    | .st _ _ row => regsFrom (rD row) (rKp row)
    | .op f _ row => rX row :: if f.toNat < 4 then [rY row] else []
    | .add k _ row _ | .mul k _ row _ | .cmp _ k _ row _ => regsFrom (rX row) k ++ y row k
    | .red _ row => regsFrom (rD row) (bitsOf row.toNat 10 5 + 1)
    | .ld _ _ _ | .off => []) ++ if tMasked (marlTarget c) then [tMrow (marlTarget c)] else []

/-- Whether a command meets an uncorrectable error in a row it reads, in a subarray of its range (R353 reason 9). -/
def rowBad (s : State) (slice : Nat) (c : MarlCmd) : Bool :=
  s.upsets.any fun u => match u with
    | .row k r j => k == slice && (marlSources c).contains r && decide (tFirst (marlTarget c) ≤ j ∧ j ≤ tLast (marlTarget c))
    | _ => false

/-- The destination rows of a failed command are free values in the lanes of its range (R353). -/
def spoilRows (free : Nat) (rows : List (Nat × Nat)) (c : MarlCmd) : List (Nat × Nat) :=
  (List.range (marlDest c).2).foldl (fun rows p =>
    rowSet rows ((marlDest c).1 + p) (rowWith (rowGet rows ((marlDest c).1 + p)) (tFirst (marlTarget c)) (tLast (marlTarget c)) fun e =>
      (Config.freeWord (free + 65536 * p + e)).getLsbD 0)) rows

/-- Free words that spoiled rows may take. -/
def spoilWords : Nat := 64 * 65536

/-- The 128 bytes of a piece that an MRST stores. -/
def pieceBytes (rows : List (Nat × Nat)) (r j : Nat) : List Byte := leBytes 128 (rowGet rows r / 2 ^ (1024 * j))

/-- Stored pieces of a command join the team's write side as entries at their home slices, beyond the quota too, under the operation's tag: a
publication takes them once its counter entry has retired; pages mapped immediate take them at once (R181, R211, R350). -/
def storePieces (s : State) (uid tag : Nat) (xs : List (MarlPiece × List Byte)) : State :=
  let cells := fun (ys : List (MarlPiece × List Byte)) => ys.flatMap fun x => cellsAt x.1.pa x.2
  let ins := fun (ys : List (MarlPiece × List Byte)) =>
    ys.flatMap fun x => (regsFrom (x.1.pa / 64) 2).map fun n => (n, { Ins.plain with key := x.1.key })
  let now := cells (xs.filter fun x => x.1.direct)
  let later := cells (xs.filter fun x => !x.1.direct)
  let s1 := if now.isEmpty then s else immediateAs s (insIn (ins xs)) now
  s1.modTeam uid fun t =>
    let v := if now.isEmpty then t.ver else ownDirect t.ver s1.ms.stamp now
    let secs := (sectorsOf later).eraseDups.filter fun n => !v.spilled.contains n
    { t with ver := { ownScatter v tag (ins (xs.filter fun x => !x.1.direct)) later with spilled := secs ++ v.spilled } }

/-- What a failed MRST still had to write: free values, where a page could take them (R353). -/
def spoilPieces (s : State) (t : Team) (tag : Nat) (ps : List (DWord × Nat × Nat)) : State :=
  let xs := ps.zipIdx.filterMap fun x =>
    match if canonical x.1.1 then xlateT s t .write x.1.1 else .error (.g5 2) with
    | .ok (pa, l) => if inRegion s x.1.1 then none
        else some (({ pa := pa, direct := l.imm || isRaw pa, key := l.key, row := 0, sub := 0 } : MarlPiece),
          (List.range 128).map fun i => Config.freeByte (s.free + 128 * x.2 + i))
    | .error _ => none
  storePieces { s with free := s.free + 128 * ps.length } t.uid tag xs

/-! ### Completion -/

/-- A command has failed (R353). -/
def failMarl (s : State) (slice : Nat) (e : MarlEntry) (reason : Nat) : State :=
  settleOp (s.modTeam e.uid fun t => noteErr t e.tag 5 (trap9 reason slice e.code)) e.uid e.tag

/-- A team that waits in MROFF goes on, with the error of an MROFF that came too late (R346, R389); where the MROFF's loop-end trap takes
its place the error stays for a later wait or FENCE (R128). -/
def offDone (s : State) (uid : Nat) (late : Option Trap) : State :=
  onTeam s uid fun s =>
    match s.team.wait, late with
    | .marl _, none => endWait s
    | .marl _, some tr =>
      if s.team.passed.isSome then
        if loopEndPending s.team then endWait (s.withTeam (noteErr s.team 0 5 tr))
        else endWait (s.withTeam { s.team with pending := s.team.pending ++ [tr] })
      else retireReport (s.withTeam (noteErr s.team 0 5 tr)) (s, some tr)
    | _, _ => s

/-- A later MROFF finds its slice returned (R346): it completes, with its error, when the counters have fallen past the MRREDs that were
before it (R357). -/
def offLate (s : State) (w : OffLate) (uid : Nat) : State :=
  if counterBehind s w.reds then
    s.modTeam uid fun t => match t.wait with
      | .marl _ => { t with wait := .marl (some w) }
      | _ => t
  else offDone s uid (some (trap9 1 w.slice w.code))

/-- The MRREDs among a slice's entries, each with its team. -/
def redsOf (es : List MarlEntry) : List (Nat × Nat) :=
  es.filterMap fun e => match e.cmd with
    | .red _ _ => some (e.uid, e.tag)
    | _ => none

/-- What an MROFF overtook: commands fail, and later MROFFs find the slice returned (R346, R353); `before` are the entries
between. -/
def overtake (slice : Nat) : List MarlEntry → List MarlEntry → State → State
  | [], _, s => s
  | e :: es, before, s =>
    let s1 := match e.cmd with
      | .off => offLate s { slice := slice, code := e.code, reds := redsOf before } e.uid
      | _ => failMarl s slice e 1
    overtake slice es (e :: before) s1

/-- A finished MRRED fills its register. -/
def fillSum (s : State) (e : MarlEntry) (x : Word) : State :=
  settleOp (s.modTeam e.uid fun t => modOp t e.tag fun o => { o with dst := match o.dst with
    | .scalar r _ => .scalar r x
    | d => d }) e.uid e.tag

/-- The oldest command of a slice leaves its queue; the slice has other rows, and remembers an MRRED until an MROFF (R357). -/
def popMarl (s : State) (slice : Nat) (rest : List MarlEntry) (rows : List (Nat × Nat)) : State :=
  modSlice s slice fun m => { m with rows := rows, queue := rest, reds := m.reds ++ redsOf (m.queue.take 1) }

/-- A command that meets an uncorrectable error in a subarray (R353 reason 9): the error is counted, the destination rows or the bytes
to store are free values. -/
def spoilMarl (s : State) (slice : Nat) (m : MarlSlice) (e : MarlEntry) (rest : List MarlEntry) : State :=
  let s1 := logEvent { s with free := s.free + spoilWords } 5 (2 * 2 ^ 24 + slice) (leBytes 8 0 ++ leBytes 4 1)
  let s2 := popMarl s1 slice rest (spoilRows s.free m.rows e.cmd)
  let s3 := match e.cmd, s.find e.uid with
    | .st base target row, some t => spoilPieces s2 t e.tag (marlPieces base target row)
    | _, _ => s2
  failMarl s3 slice e 9

/-- An MRLD runs (R350). -/
def runMrld (s : State) (slice : Nat) (m : MarlSlice) (e : MarlEntry) (rest : List MarlEntry) (base : DWord) (target row : Word) : State :=
  match s.find e.uid with
  | none => popMarl s slice rest m.rows
  | some t =>
    let r := transPieces t e.tag .read (marlPieces base target row) s []
    match r.1 with
    | .ok _ _ _ s1 => settleOp (popMarl s1 slice rest (loadPieces s1.ms m.rows r.2)) e.uid e.tag
    | .wait s1 => s1
    | .fail _ s1 =>
      failMarl (popMarl { s1 with free := s1.free + spoilWords } slice rest (spoilRows s1.free m.rows e.cmd)) slice e 8

/-- An MRST runs (R350). -/
def runMrst (s : State) (slice : Nat) (m : MarlSlice) (e : MarlEntry) (rest : List MarlEntry) (base : DWord) (target row : Word) : State :=
  match s.find e.uid with
  | none => popMarl s slice rest m.rows
  | some t =>
    let ps := marlPieces base target row
    let r := transPieces t e.tag .write ps s []
    let put := fun (s : State) => storePieces s e.uid e.tag (r.2.map fun x => (x, pieceBytes m.rows x.row x.sub))
    match r.1 with
    | .ok _ _ _ s1 => settleOp (popMarl (put s1) slice rest m.rows) e.uid e.tag
    | .wait s1 => s1
    | .fail _ s1 => failMarl (popMarl (spoilPieces (put s1) t e.tag (ps.drop r.2.length)) slice rest m.rows) slice e 8

/-- MARL_CMD_COMPLETE: the oldest command of a slice takes effect (R346, R349 to R353, R357). -/
def execMarlCmdComplete (slice : Nat) (s : State) : Host.Outcome State Fault Refusal :=
  match sliceOf s slice with
  | none => .next s
  | some m =>
    match m.queue with
    | [] => .next s
    | e :: rest =>
      if rowBad s slice e.cmd then .next (spoilMarl s slice m e rest)
      else match e.cmd with
        | .off =>
          if counterBehind s m.reds then .next s
          else .next (overtake slice rest [] (offDone { s with marl := s.marl.filter fun m => m.num != slice } e.uid none))
        | .red target row => .next (fillSum (popMarl s slice rest m.rows) e (marlSum m.rows target row))
        | .ld base target row => .next (runMrld s slice m e rest base target row)
        | .st base target row => .next (runMrst s slice m e rest base target row)
        | cmd => .next (settleOp (popMarl s slice rest (marlCompute m.rows cmd)) e.uid e.tag)

end Sys2Proof.Machine
end

