-- ==== Sys2Proof/Machine/Locus.lean ====
section
/-! DEFINITION. The Locus engine: the records, the arithmetic and the step of R358 to R378, R386 and R441. -/

namespace Sys2Proof.Machine

/-! ### FP32 arithmetic, RNE, subnormals kept (R369) -/

/-- Sum. -/
def lAdd (a b : Word) : Word := BitVec.ofNat 32 (fAdd fp32 .rne a.toNat b.toNat)
/-- Difference. -/
def lSub (a b : Word) : Word := BitVec.ofNat 32 (fSub fp32 .rne a.toNat b.toNat)
/-- Product. -/
def lMul (a b : Word) : Word := BitVec.ofNat 32 (fMul fp32 .rne a.toNat b.toNat)
/-- a × b + c, rounded once. -/
def lFma (a b c : Word) : Word := BitVec.ofNat 32 (fFma fp32 .rne a.toNat b.toNat c.toNat)
/-- Quotient. -/
def lDiv (a b : Word) : Word := BitVec.ofNat 32 (fDiv fp32 .rne a.toNat b.toNat)
/-- Correctly rounded square root (R386). -/
def lSqrt (a : Word) : Word := BitVec.ofNat 32 (fp32.encode .rne false (sqrtVal (fp32.decode a.toNat)))
/-- The other sign. -/
def lNeg (a : Word) : Word := a ^^^ 0x80000000
/-- Magnitude. -/
def lAbs (a : Word) : Word := a &&& 0x7FFFFFFF
/-- The value of a word. -/
def lVal (a : Word) : FVal := fp32.decode a.toNat
/-- a < b. -/
def lLt (a b : Word) : Bool := (lVal a).lt (lVal b)
/-- a ≤ b, false with a NaN. -/
def lLe (a b : Word) : Bool := !(lVal a).isNan && !(lVal b).isNan && !lLt b a
/-- Whether a word is finite. -/
def lFinite (a : Word) : Bool := match lVal a with | .fin _ _ _ _ => true | _ => false
/-- Whether a word is neither zero. -/
def lNonzero (a : Word) : Bool := lAbs a != 0
/-- 1.0. -/
def lOne : Word := 0x3F800000
/-- A whole number as FP32. -/
def lOfNat (n : Nat) : Word := BitVec.ofNat 32 (fp32.encode .rne false (FVal.ofInt n))

/-! ### The tableau record (R360, R361) -/

/-- Header of a tableau. -/
def tbHead (w : List Word) : Nat := (w.getD 0 0).toNat
/-- Stages S. -/
def tbS (w : List Word) : Nat := bitsOf (tbHead w) 0 4
/-- KIND. -/
def tbKind (w : List Word) : Nat := bitsOf (tbHead w) 4 2
/-- P. -/
def tbP (w : List Word) : Nat := bitsOf (tbHead w) 8 4
/-- Q. -/
def tbQ (w : List Word) : Nat := bitsOf (tbHead w) 12 4
/-- DENSE. -/
def tbDense (w : List Word) : Nat := bitsOf (tbHead w) 16 2
/-- FSAL. -/
def tbFsal (w : List Word) : Bool := bitsOf (tbHead w) 18 1 == 1
/-- HASBH. -/
def tbHasbh (w : List Word) : Bool := bitsOf (tbHead w) 19 1 == 1
/-- a(i, j). -/
def tbA (w : List Word) (i j : Nat) : Word := w.getD (4 + 8 * i + j) 0
/-- The explicit part's coefficient. -/
def tbAE (w : List Word) (i j : Nat) : Word := w.getD (68 + 8 * i + j) 0
/-- b(j). -/
def tbB (w : List Word) (j : Nat) : Word := w.getD (132 + j) 0
/-- b̂(j). -/
def tbBh (w : List Word) (j : Nat) : Word := w.getD (140 + j) 0
/-- c(j). -/
def tbC (w : List Word) (j : Nat) : Word := w.getD (148 + j) 0

/-- Whether two coefficients are equal numbers. -/
def lEq (a b : Word) : Bool := !lLt a b && !lLt b a

/-- FSAL's conditions (R361). -/
def fsalOk (w : List Word) : Bool :=
  decide (2 ≤ tbS w) && decide (tbKind w < 2) && (List.range 8).all (fun j => !lNonzero (tbA w 0 j)) && !lNonzero (tbC w 0)
    && (List.range 8).all (fun j => lEq (tbA w (tbS w - 1) j) (tbB w j)) && lEq (tbC w (tbS w - 1)) lOne

/-- The lowest of the bits that conditions report, none where all hold (R439). -/
def lowestBad (cs : List (Bool × Nat)) : Option Nat :=
  ((cs.filter fun c => c.1).map fun c => c.2).foldl (fun m b => match m with
    | none => some b
    | some x => some (min x b)) none

/-- The lowest failing bit of a tableau record (R361, R439). -/
def tableauBad (w : List Word) : Option Nat :=
  let s := tbS w
  let kind := tbKind w
  let pairs := (List.range 8).flatMap fun i => (List.range 8).map fun j => (i, j)
  lowestBad
    ([(bitsOf (tbHead w) 20 12 != 0, 20), (bitsOf (tbHead w) 6 2 != 0, 6), ((w.drop 1).take 3 != [0, 0, 0], 32),
      (decide (1 < tbDense w), 16), (kind == 3, 4), (decide (s < 1 ∨ 8 < s), 0), (tbP w == 0, 8),
      (tbHasbh w != (tbQ w != 0), 12), (!tbHasbh w && (decide (1 < s) || kind == 2), 0), (tbFsal w && !fsalOk w, 0)]
    ++ (List.range 152).map (fun k => (!lFinite (w.getD (4 + k) 0), 32 * (4 + k)))
    ++ pairs.flatMap (fun x =>
      let a := lNonzero (tbA w x.1 x.2)
      let ae := lNonzero (tbAE w x.1 x.2)
      [((a || ae) && decide (s ≤ x.1 ∨ s ≤ x.2), 0), (a && (decide (x.1 < x.2) || (kind == 0 && x.1 == x.2)), 4),
       (ae && (decide (kind < 2) || decide (x.1 ≤ x.2)), 4)])
    ++ (List.range 8).map (fun j => ((lNonzero (tbB w j) || lNonzero (tbBh w j) || lNonzero (tbC w j)) && decide (s ≤ j), 0)))

/-- Whether stage i is implicit. -/
def implicitStage (w : List Word) (i : Nat) : Bool := lNonzero (tbA w i i)
/-- Whether a tableau has an implicit stage. -/
def needsJac (w : List Word) : Bool := (List.range (tbS w)).any (implicitStage w)
/-- Whether F0 is needed (R368). -/
def f0Needed (w : List Word) : Bool := !tbHasbh w || tbDense w == 1 || implicitStage w 0 || tbFsal w

/-! ### The problem record (R362, R363) -/

/-- Word 0 of a problem record. -/
def prHead (w : List Word) : Nat := (w.getD 0 0).toNat
/-- NDIM. -/
def prN (w : List Word) : Nat := bitsOf (prHead w) 0 5
/-- NEWTMAX. -/
def prNewtmax (w : List Word) : Nat := if bitsOf (prHead w) 8 4 = 0 then 4 else bitsOf (prHead w) 8 4
/-- EVCOUNT. -/
def prEv (w : List Word) : Nat := bitsOf (prHead w) 12 3
/-- The filter of event k. -/
def prDir (w : List Word) (k : Nat) : Nat := bitsOf (prHead w) (16 + 2 * k) 2
/-- RTOL. -/
def prRtol (w : List Word) : Word := w.getD 2 0
/-- ATOL. -/
def prAtol (w : List Word) : Word := w.getD 3 0
/-- KAPPA; either zero means 0.03. -/
def prKappa (w : List Word) : Word := if lNonzero (w.getD 4 0) then w.getD 4 0
  else BitVec.ofNat 32 (fp32.encode .rne false (.fin false 3 100 0))
/-- T0. -/
def prT0 (w : List Word) : Word := w.getD 5 0
/-- H0. -/
def prH0 (w : List Word) : Word := w.getD 6 0
/-- HMIN. -/
def prHmin (w : List Word) : Word := w.getD 7 0
/-- HMAX. -/
def prHmax (w : List Word) : Word := w.getD 8 0
/-- TEND. -/
def prTend (w : List Word) : Word := w.getD 9 0
/-- WORK. -/
def prWork (w : List Word) : Nat := (w.getD 13 0).toNat

/-- Whether a tolerance is negative or not finite; −0 is neither. -/
def badTol (x : Word) : Bool := !lFinite x || lLt x 0

/-- The lowest failing bit of a problem record (R363, R439); `jac` says that the Jacobian routine is used. -/
def problemBad (w : List Word) (jac : Bool) : Option Nat :=
  let h := prHead w
  let low := fun (k : Nat) => (w.getD k 0).toNat % 4 != 0
  let pos := fun (x : Word) => lFinite x && lLt 0 x
  lowestBad
    ([(bitsOf h 5 3 != 0, 5), (bitsOf h 15 1 != 0, 15), (bitsOf h 24 8 != 0, 24), ((w.drop 14).any (fun x => x != 0), 448),
      (decide (prN w < 1 ∨ 16 < prN w), 0), (decide (4 < prEv w), 12),
      (badTol (prRtol w), 64), (badTol (prAtol w), 96), (!lNonzero (prRtol w) && !lNonzero (prAtol w), 64),
      (badTol (w.getD 4 0), 128), (!lFinite (prT0 w), 160), (!lFinite (prTend w), 288), (lLt (prTend w) (prT0 w), 160),
      (!pos (prH0 w), 192), (!pos (prHmin w), 224), (!pos (prHmax w), 256),
      (!(lLe (prHmin w) (prH0 w) && lLe (prH0 w) (prHmax w)), 192),
      (low 10, 320), (jac && low 11, 352), (prEv w != 0 && low 12, 12), (prWork w % 16 != 0, 416)]
    ++ (List.range 4).map fun k => (if k < prEv w then prDir w k == 3 else prDir w k != 0, 12))

/-! ### The context and its work area (R364) -/

/-- Dimension n. -/
def LocusCtx.n (c : LocusCtx) : Nat := prN c.problem
/-- Stages. -/
def LocusCtx.st (c : LocusCtx) : Nat := tbS c.tableau
/-- Whether the tableau is split. -/
def LocusCtx.split (c : LocusCtx) : Bool := tbKind c.tableau == 2
/-- S′. -/
def LocusCtx.st2 (c : LocusCtx) : Nat := if c.split then 2 * c.st else c.st
/-- Lane L. -/
def LocusCtx.lane (c : LocusCtx) (L : Nat) : LocusLane := c.lanes.getD L
  { t := 0, h := 0, err := 0, solves := 0, attempts := 0, stat := 5, tprev := 0, hlast := 0, stepped := false, gprev := [],
    ynAcc := [], f0Acc := [], f1Acc := [], f1valid := false, ret := [], inStep := false, ha := 0, clipped := false, h0 := 0, base := [],
    yi := [], lu := [], perm := [], dprev := 0, converged := false, failed := false, accepted := false, root := none }

/-- Change lane L. -/
def LocusCtx.modLane (c : LocusCtx) (L : Nat) (f : LocusLane → LocusLane) : LocusCtx :=
  { c with lanes := c.lanes.set L (f (c.lane L)) }

/-- Where word w of lane L lies. -/
def workOff (t : Team) (c : LocusCtx) (L w : Nat) : Nat := prWork c.problem + 4 * (w * t.rf.n + L)

/-- Word w of lane L of the work area of the team in focus. -/
def workGet (s : State) (c : LocusCtx) (L w : Nat) : Word :=
  BitVec.ofNat 32 (ofLeBytes ((List.range 4).map fun k => scrByte s s.team (workOff s.team c L w + k)))

/-- Write it. -/
def workSet (s : State) (c : LocusCtx) (L w : Nat) (x : Word) : State :=
  scrSets s s.team (cellsAt (workOff s.team c L w) (leBytes 4 x.toNat))

/-- The n words of an area from index `w` on. -/
def areaGet (s : State) (c : LocusCtx) (L w : Nat) : List Word := (List.range c.n).map fun m => workGet s c L (w + m)

/-- Write an area. -/
def areaSet (s : State) (c : LocusCtx) (L w : Nat) (xs : List Word) : State :=
  xs.zipIdx.foldl (fun s x => workSet s c L (w + x.2) x.1) s

/-- Area YN. -/
def aYN (c : LocusCtx) : Nat := c.n
/-- Area YP. -/
def aYP (c : LocusCtx) : Nat := 2 * c.n
/-- Area F0. -/
def aF0 (c : LocusCtx) : Nat := 3 * c.n
/-- Area F1. -/
def aF1 (c : LocusCtx) : Nat := 4 * c.n
/-- Area E. -/
def aE (c : LocusCtx) : Nat := 5 * c.n
/-- Area K(j). -/
def aK (c : LocusCtx) (j : Nat) : Nat := (6 + j) * c.n
/-- Area J. -/
def aJ (c : LocusCtx) : Nat := (6 + c.st2) * c.n

/-- Bytes of the work area. -/
def workBytes (n st2 lanes : Nat) : Nat := 4 * (n * (st2 + 6) + n * n) * lanes

/-- Vectors word by word. -/
def zipVec (f : Word → Word → Word) (xs ys : List Word) : List Word := xs.zipWith f ys

/-! ### Arithmetic of the step -/

/-- The weighted norm of R370 and R371, in the order of R386. -/
def wnorm (p : List Word) (xs mags : List Word) : Word :=
  let sum := (xs.zip mags).foldl (fun acc x =>
    let q := lDiv x.1 (lFma (prRtol p) x.2 (prAtol p))
    lAdd acc (lMul q q)) 0
  lSqrt (lDiv sum (lOfNat xs.length))

/-- Bits of the p-th root: the greatest K with K^p × den ≤ num, from bit `k` down. -/
def rootGo (p num den : Nat) : Nat → Nat → Nat
  | 0, r => r
  | k + 1, r => if (r + 2 ^ k) ^ p * den ≤ num then rootGo p num den k (r + 2 ^ k) else rootGo p num den k r

/-- The step factor (R372, R386): min(fmax, max(0.2, 0.9·err^(−1/(q+1)))), exact, rounded once. -/
def stepFactor (err : Word) (q fmax : Nat) : Word :=
  match lVal err with
  | .fin _ n _ x =>
    if n = 0 then lOfNat fmax
    else
      let p := q + 1
      let num := 9 ^ p * 2 ^ (-x).toNat
      let den := 10 ^ p * n * 2 ^ x.toNat
      if fmax ^ p * den ≤ num then lOfNat fmax
      else if num * 5 ^ p ≤ den then BitVec.ofNat 32 (fp32.encode .rne false (.fin false 1 5 0))
      else
        let big := num * 2 ^ (30 * p)
        let k := rootGo p big den 33 0
        BitVec.ofNat 32 (fp32.encode .rne false (.fin false (if k ^ p * den = big then 2 * k else 2 * k + 1) 1 (-31)))
  | _ => BitVec.ofNat 32 (fp32.encode .rne false (.fin false 1 5 0))

/-- The interpolant (R373), component by component. -/
def interpolate (dense : Nat) (yp yn f0 f1 : List Word) (h th : Word) : List Word :=
  (List.range yp.length).map fun m =>
    let d := lSub (yn.getD m 0) (yp.getD m 0)
    let lin := lAdd (yp.getD m 0) (lMul th d)
    if dense = 0 then lin
    else
      let t1 := lSub th lOne
      let inner := lAdd (lAdd (lMul (lSub lOne (lMul 0x40000000 th)) d) (lMul (lMul t1 h) (f0.getD m 0)))
        (lMul (lMul th h) (f1.getD m 0))
      lAdd lin (lMul (lMul th t1) inner)

/-- Element (r, c) of a matrix. -/
def mAt (m : List (List Word)) (r c : Nat) : Word := (m.getD r []).getD c 0

/-- The pivot row of column k: the lowest row with the largest magnitude; none for a NaN in the column or a zero pivot. -/
def pivotOf (m : List (List Word)) (n k : Nat) : Option Nat :=
  let rs := (List.range n).filter fun r => decide (k ≤ r)
  if rs.any fun r => (lVal (mAt m r k)).isNan then none
  else
    let p := rs.foldl (fun p r => if lLt (lAbs (mAt m p k)) (lAbs (mAt m r k)) then r else p) k
    if lNonzero (mAt m p k) then some p else none

/-- Exchange two entries of a list. -/
def swapAt {α : Type} (xs : List α) (i j : Nat) : List α :=
  match xs[i]?, xs[j]? with
  | some a, some b => (xs.set i b).set j a
  | _, _ => xs

/-- One row below the pivot (R441). -/
def elimRow (n k : Nat) (pivot row : List Word) : List Word :=
  let l := lDiv (row.getD k 0) (pivot.getD k 0)
  (List.range n).map fun c => if c < k then row.getD c 0 else if c = k then l
    else lFma (lNeg l) (pivot.getD c 0) (row.getD c 0)

/-- The factorisation from column k on; `fuel` counts the columns left (R441). -/
def factorGo (n : Nat) : Nat → Nat → List (List Word) → List Nat → Option (List (List Word) × List Nat)
  | 0, _, m, ps => some (m, ps)
  | fuel + 1, k, m, ps =>
    match pivotOf m n k with
    | none => none
    | some p =>
      let m1 := swapAt m k p
      let m2 := m1.zipIdx.map fun x => if k < x.2 then elimRow n k (m1.getD k []) x.1 else x.1
      factorGo n fuel (k + 1) m2 (ps ++ [p])

/-- Factor an n by n matrix: factors and exchanges. -/
def factor (n : Nat) (m : List (List Word)) : Option (List (List Word) × List Nat) := factorGo n n 0 m []

/-- Back substitution from row `r - 1` down to row 0 (R441). -/
def backGo (n : Nat) (m : List (List Word)) : Nat → List Word → List Word
  | 0, x => x
  | r + 1, x =>
    let v := ((List.range n).filter fun c => decide (r < c)).foldl (fun v c => lFma (lNeg (mAt m r c)) (x.getD c 0) v) (x.getD r 0)
    backGo n m r (x.set r (lDiv v (mAt m r r)))

/-- Solve with the factors (R441 step 5). -/
def solveWith (n : Nat) (m : List (List Word)) (ps : List Nat) (rhs : List Word) : List Word :=
  let b := ps.zipIdx.foldl (fun b x => swapAt b x.2 x.1) rhs
  let z := (List.range n).foldl (fun z r =>
    z.set r ((List.range r).foldl (fun v c => lFma (lNeg (mAt m r c)) (z.getD c 0) v) (z.getD r 0))) b
  backGo n m n z

/-! ### Phases of the engine (R367) -/

/-- The engine's next move: on to the next phase, a routine call with the lanes' arguments (time, h, state), or the end of the
IGRUN. -/
inductive EngineMove where
  | go
  | call (stage : Nat) (args : Nat → Word × Word × List Word)
  | finish

/-- The team's state and its context, as a phase leaves them. -/
structure Engine where
  s : State
  c : LocusCtx
  move : EngineMove

/-- CODE of a lane. -/
def laneCode_ (x : LocusLane) : Nat := x.stat.toNat % 16

/-- The running lanes of the IGRUN. -/
def runningLanes (s : State) (c : LocusCtx) : List Nat :=
  (lanesOf s.team.rf.n c.active).filter fun L => laneCode_ (c.lane L) == 0

/-- The lanes of the attempt that satisfy a condition. -/
def stepLanes (s : State) (c : LocusCtx) (p : LocusLane → Bool) : List Nat :=
  (lanesOf s.team.rf.n c.active).filter fun L => (c.lane L).inStep && p (c.lane L)

/-- The lanes of the call that has returned. -/
def calledLanes (s : State) (c : LocusCtx) : List Nat := lanesOf s.team.rf.n c.called

/-- Change some lanes. -/
def modLanes (c : LocusCtx) (Ls : List Nat) (f : Nat → LocusLane → LocusLane) : LocusCtx :=
  Ls.foldl (fun c L => c.modLane L (f L)) c

/-- Write an area in some lanes. -/
def setAreas (s : State) (c : LocusCtx) (Ls : List Nat) (w : Nat) (f : Nat → List Word) : State :=
  Ls.foldl (fun s L => areaSet s c L w (f L)) s

/-- Ask for a routine call in some lanes and go on in `next` with what it returns; no call is made for no lane. -/
def request (s : State) (c : LocusCtx) (kind part stage : Nat) (Ls : List Nat) (args : Nat → Word × Word × List Word)
    (next : LocusPhase) : Engine :=
  let c1 := { c with phase := next, kind := kind, part := part, called := laneSet s.team.rf.n fun L => Ls.contains L }
  { s := s, c := c1, move := if Ls.isEmpty then .go else .call stage args }

/-- Go on in another phase. -/
def goTo (s : State) (c : LocusCtx) (next : LocusPhase) : Engine := { s := s, c := { c with phase := next }, move := .go }

/-- Arguments at the start of the step. -/
def argsAtStart (s : State) (c : LocusCtx) (L : Nat) : Word × Word × List Word := ((c.lane L).t, (c.lane L).h, areaGet s c L 0)

/-- The time of the end of the step (R372). -/
def stepTime (c : LocusCtx) (L : Nat) : Word :=
  let x := c.lane L
  if x.clipped then prTend c.problem else lAdd x.t x.ha

/-- Arguments at the end of the step. -/
def argsAtEnd (s : State) (c : LocusCtx) (L : Nat) : Word × Word × List Word :=
  (stepTime c L, (c.lane L).ha, areaGet s c L (aYN c))

/-- Arguments of stage i: its time, rounded once (R369), and the lane's iterate. -/
def argsAtStage (c : LocusCtx) (i L : Nat) : Word × Word × List Word :=
  let x := c.lane L
  (lFma (tbC c.tableau i) x.ha x.t, x.ha, x.yi)

/-- A new attempt (R367): clip, counters, F0. -/
def beginAttempt (s : State) (c : LocusCtx) : Engine :=
  match runningLanes s c with
  | [] => { s := s, c := { c with phase := .idle }, move := .finish }
  | Ls =>
    let c1 := modLanes c Ls fun _ x =>
      let rem := lSub (prTend c.problem) x.t
      let clip := lLt rem x.h
      { x with inStep := true, ha := if clip then rem else x.h, clipped := clip, h0 := x.h, solves := 0,
               attempts := x.attempts + 1, failed := false, accepted := false, converged := false, root := none }
    let reuse := Ls.filter fun L => f0Needed c.tableau && (c.lane L).f1valid
    let need := Ls.filter fun L => f0Needed c.tableau && !(c.lane L).f1valid && !(tbFsal c.tableau && !c.first)
    let s1 := setAreas s c reuse (aF0 c) fun L => areaGet s c L (aF1 c)
    request s1 { c1 with first := false } 0 0 0 need
      (fun L => ((c1.lane L).t, (c1.lane L).ha, areaGet s c L 0)) .f0Again

/-- The accumulated slope of stage i (R369). -/
def stageAcc (s : State) (c : LocusCtx) (i L : Nat) : List Word :=
  let terms := if c.split then
      (List.range i).map (fun j => (tbAE c.tableau i j, areaGet s c L (aK c j)))
        ++ (List.range i).map (fun j => (tbA c.tableau i j, areaGet s c L (aK c (c.st + j))))
    else (List.range i).map fun j => (tbA c.tableau i j, areaGet s c L (aK c j))
  terms.foldl (fun acc x => zipVec (fun k a => lFma x.1 k a) x.2 acc) (List.replicate c.n 0)

/-- The slot of K that a stage's implicit part fills. -/
def stageSlot (c : LocusCtx) (i : Nat) : Nat := if c.split then c.st + i else i

/-- Form stage i (R369, R370): base and predictor, then the first call. -/
def beginStage (s : State) (c : LocusCtx) (i : Nat) : Engine :=
  if c.st ≤ i then goTo s c .stepEnd
  else
    let Ls := stepLanes s c fun x => !x.failed
    let imp := implicitStage c.tableau i
    let c1 := modLanes c Ls fun L x =>
      let base := zipVec (fun a y => lFma x.ha a y) (stageAcc s c i L) (areaGet s c L 0)
      let ha := lMul x.ha (tbA c.tableau i i)
      let p := if i = 0 then areaGet s c L (aF0 c) else areaGet s c L (aK c (stageSlot c i - 1))
      { x with base := base, yi := if imp then zipVec (fun k b => lFma ha k b) p base else base, converged := false, dprev := 0 }
    if imp then request s c1 4 0 i Ls (argsAtStage c1 i) (.jacBack i)
    else request s c1 1 (if c.split then 2 else 0) i Ls (argsAtStage c1 i) (.impBack i)

/-- The Jacobian is in area J: form M and factor it (R441). -/
def takeJacobian (s : State) (c : LocusCtx) (i : Nat) : Engine :=
  let c1 := modLanes c (calledLanes s c) fun L x =>
    let ha := lMul x.ha (tbA c.tableau i i)
    let m := (List.range c.n).map fun r => (List.range c.n).map fun k =>
      lFma (lNeg ha) (workGet s c L (aJ c + r * c.n + k)) (if r = k then lOne else 0)
    match factor c.n m with
    | none => { x with failed := true }
    | some (lu, ps) => { x with lu := lu, perm := ps }
  goTo s c1 (.newton i 1)

/-- After the implicit part of stage i: the explicit part of a split tableau, then the next stage. -/
def afterImplicit (s : State) (c : LocusCtx) (i : Nat) : Engine :=
  if c.split then request s c 1 1 i (stepLanes s c fun x => !x.failed) (argsAtStage c i) (.expBack i)
  else goTo s c (.stage (i + 1))

/-- Newton iteration `it` of stage i, or the end of the iteration (R370). -/
def beginNewton (s : State) (c : LocusCtx) (i it : Nat) : Engine :=
  let live := stepLanes s c fun x => !x.failed && !x.converged
  if live.isEmpty ∨ prNewtmax c.problem < it then
    let c1 := modLanes c live fun _ x => { x with failed := true }
    let ok := stepLanes s c1 fun x => !x.failed
    let s1 := setAreas s c1 ok (aK c (stageSlot c i)) fun L =>
      let x := c1.lane L
      let ha := lMul x.ha (tbA c.tableau i i)
      zipVec (fun y b => lDiv (lSub y b) ha) x.yi x.base
    afterImplicit s1 c1 i
  else request s c 2 (if c.split then 2 else 0) i live (argsAtStage c i) (.resBack i it)

/-- One residual is there: solve and move (R370, R441). -/
def takeResidual (s : State) (c : LocusCtx) (i it : Nat) : Engine :=
  let c1 := modLanes c (calledLanes s c) fun L x =>
    let ha := lMul x.ha (tbA c.tableau i i)
    let g := (List.range c.n).map fun m => lFma (lNeg ha) (x.ret.getD m 0) (lSub (x.yi.getD m 0) (x.base.getD m 0))
    let d := solveWith c.n x.lu x.perm (g.map lNeg)
    let dn := wnorm c.problem d ((areaGet s c L 0).map lAbs)
    let x1 := { x with yi := zipVec lAdd x.yi d, solves := x.solves + 1 }
    if decide (2 ≤ it) && ((lVal x.dprev).mul (.fin false 2 1 0)).lt (lVal dn) then { x1 with failed := true }
    else if lLe dn (prKappa c.problem) then { x1 with converged := true }
    else { x1 with dprev := dn }
  goTo s c1 (.newton i (it + 1))

/-- k(j) of a step: for a split tableau the sum of both parts (R371). -/
def slopeOf (s : State) (c : LocusCtx) (L j : Nat) : List Word :=
  if c.split then zipVec lAdd (areaGet s c L (aK c j)) (areaGet s c L (aK c (c.st + j))) else areaGet s c L (aK c j)

/-- Σ w(j)·k(j), by multiply-add in ascending j. -/
def slopeSum (s : State) (c : LocusCtx) (L : Nat) (w : Nat → Word) : List Word :=
  (List.range c.st).foldl (fun acc j => zipVec (fun k a => lFma (w j) k a) (slopeOf s c L j) acc) (List.replicate c.n 0)

/-- YN of R367. -/
def candidate (s : State) (c : LocusCtx) (L : Nat) : List Word :=
  zipVec (fun a y => lFma (c.lane L).ha a y) (slopeSum s c L (tbB c.tableau)) (areaGet s c L 0)

/-- The error vector of R371. -/
def errorVec (s : State) (c : LocusCtx) (L : Nat) : List Word :=
  let ha := (c.lane L).ha
  if tbHasbh c.tableau then (slopeSum s c L fun j => c.bdiff.getD j 0).map (lMul ha)
  else (zipVec lSub (slopeOf s c L 0) (areaGet s c L (aF0 c))).map fun d => lMul (lMul ha d) 0x3F000000

/-- The engine's q (R361). -/
def qOf (w : List Word) : Nat := if tbHasbh w then tbQ w else tbP w

/-- Accept or reject a lane, and its next step size (R371, R372). -/
def decideLane (c : LocusCtx) (x : LocusLane) : LocusLane :=
  let nan := (lVal x.err).isNan
  let ok := !x.failed && lLe x.err lOne
  let hn := if x.failed ∨ nan then lMul x.ha 0x3E800000
    else lMul x.ha (stepFactor x.err (qOf c.tableau) (if ok && x.stat.getLsbD 5 then 1 else 5))
  { x with accepted := ok, h := if lLt (prHmax c.problem) hn then prHmax c.problem else hn,
           stat := if ok then x.stat &&& ~~~32 else x.stat ||| 32 }

/-- The larger magnitude; a NaN counts as the largest. -/
def lMagMax (a b : Word) : Word := if (lAbs a).toNat < (lAbs b).toNat then lAbs b else lAbs a

/-- The stages are done (R367, R371, R372). -/
def endStages (s : State) (c : LocusCtx) : Engine :=
  let all := stepLanes s c fun _ => true
  let ok := stepLanes s c fun x => !x.failed
  let s1 := ok.foldl (fun (q : State) L => areaSet (areaSet q c L (aYN c) (candidate s c L)) c L (aE c) (errorVec s c L)) s
  let c1 := modLanes c all fun L x =>
    let err := if x.failed then 0x7F800000
      else wnorm c.problem (areaGet s1 c L (aE c)) (zipVec lMagMax (areaGet s1 c L 0) (areaGet s1 c L (aYN c)))
    decideLane c { x with err := err }
  let lost := stepLanes s c1 fun x => !x.accepted && x.stepped
  let s2 := setAreas s1 c1 lost (aYN c) fun L => (c1.lane L).ynAcc
  let won := stepLanes s c1 fun x => x.accepted
  let s3 := if tbFsal c.tableau then setAreas s2 c1 won (aF1 c) (fun L => areaGet s2 c1 L (aK c (c.st - 1))) else s2
  let c2 := if tbFsal c.tableau then modLanes c1 won fun _ x => { x with f1valid := true } else c1
  request s3 c2 3 0 0 (if !tbFsal c.tableau && tbDense c.tableau == 1 then won else []) (argsAtEnd s3 c2) .f1Back

/-- Whether event k crosses (R374). -/
def crosses (dir : Nat) (gp g : Word) : Bool :=
  let up := lLt gp 0 && lLe 0 g
  let down := lLt 0 gp && lLe g 0
  if dir = 1 then up else if dir = 2 then down else up || down

/-- The crossing event with the smallest estimate (R374). -/
def firstCrossing (c : LocusCtx) (x : LocusLane) : Option (Nat × Word) :=
  (List.range (prEv c.problem)).foldl (fun (best : Option (Nat × Word)) k =>
    let gp := x.gprev.getD k 0
    let g := x.ret.getD k 0
    if crosses (prDir c.problem k) gp g then
      let th := lDiv (lNeg gp) (lSub g gp)
      match best with
      | none => some (k, th)
      | some b => if lLt th b.2 then some (k, th) else best
    else best) none

/-- The event values at the end of the step are there. -/
def takeEvents (s : State) (c : LocusCtx) : Engine :=
  let c1 := modLanes c (calledLanes s c) fun _ x =>
    match firstCrossing c x with
    | none => { x with gprev := x.ret.take (prEv c.problem) }
    | some (k, _) =>
      { x with root := some { ev := k, a := 0, ga := x.gprev.getD k 0, b := lOne, gb := x.ret.getD k 0, last := 0, iters := 0,
                              closed := false } }
  goTo s c1 .roots

/-- The interpolant of the step just accepted, not yet committed (R375). -/
def stepInterp (s : State) (c : LocusCtx) (L : Nat) (th : Word) : List Word :=
  interpolate (tbDense c.tableau) (areaGet s c L 0) (areaGet s c L (aYN c)) (areaGet s c L (aF0 c)) (areaGet s c L (aF1 c))
    (c.lane L).ha th

/-- The next iterate of R375. -/
def rootTheta (r : RootState) : Word := lDiv (lSub (lMul r.a r.gb) (lMul r.b r.ga)) (lSub r.gb r.ga)

/-- Root finding: one more call, or the commit (R375). -/
def beginRoots (s : State) (c : LocusCtx) : Engine :=
  let open_ := stepLanes s c fun x => match x.root with | some r => !r.closed | none => false
  if open_.isEmpty then goTo s c .commit
  else request s c 7 0 0 open_ (fun L =>
    let x := c.lane L
    let th := rootTheta (x.root.getD { ev := 0, a := 0, ga := 0, b := 0, gb := 0, last := 0, iters := 0, closed := true })
    (lFma th x.ha x.t, x.ha, stepInterp s c L th)) .rootBack

/-- Whether b − a ≤ 2^-20, which a NaN never is (R375). -/
def bracketSmall (r : RootState) : Bool :=
  let d := FVal.add .rne (lVal r.b) (lVal r.a).neg
  !d.isNan && !(FVal.fin false 1 1 (-20)).lt d

/-- One iterate's event value is there: `gp` is g_prev of the chosen event (R375). -/
def rootMove (r : RootState) (gp v : Word) : RootState :=
  let th := rootTheta r
  let far := if lLt gp 0 then lLe 0 v else lLe v 0
  let r1 := if far then
      { r with b := th, gb := v, ga := if r.last = 1 then lMul r.ga 0x3F000000 else r.ga, last := 1 }
    else { r with a := th, ga := v, gb := if r.last = 2 then lMul r.gb 0x3F000000 else r.gb, last := 2 }
  { r1 with iters := r.iters + 1, closed := !lNonzero v || bracketSmall r1 || r.iters == 7 }

/-- Take the iterates' event values. -/
def takeRoots (s : State) (c : LocusCtx) : Engine :=
  let c1 := modLanes c (calledLanes s c) fun _ x =>
    { x with root := x.root.map fun r => rootMove r (x.gprev.getD r.ev 0) (x.ret.getD r.ev 0) }
  goTo s c1 .roots

/-- A status word with a new CODE and event index, REJ as it stands (R377). -/
def withCode (w : Word) (code ev : Nat) : Word := (w &&& 32) ||| BitVec.ofNat 32 (code + 64 * ev)

/-- Commit one accepted lane (R367, R375): areas and fields. -/
def commitLane (s : State) (c : LocusCtx) (L : Nat) : State × LocusCtx :=
  let x := c.lane L
  let y := areaGet s c L 0
  let yn := areaGet s c L (aYN c)
  let f0 := areaGet s c L (aF0 c)
  let x1 := { x with tprev := x.t, hlast := x.ha, stepped := true, ynAcc := yn, f0Acc := f0, f1Acc := areaGet s c L (aF1 c) }
  let s1 := areaSet s c L (aYP c) y
  match x.root with
  | some r =>
    (areaSet s1 c L 0 (stepInterp s c L r.b),
     c.modLane L fun _ => { x1 with t := lFma r.b x.ha x.t, stat := withCode x.stat 2 r.ev })
  | none =>
    let t := stepTime c L
    (areaSet s1 c L 0 yn,
     c.modLane L fun _ => { x1 with t := t, stat := if lLe (prTend c.problem) t then withCode x.stat 1 0 else x.stat })

/-- The status of a lane that neither finished nor met an event (R372, R367). -/
def stopLane (c : LocusCtx) (x : LocusLane) : LocusLane :=
  if laneCode_ x ≠ 0 then x
  else if lLt x.h (prHmin c.problem) then { x with stat := withCode x.stat 3 0 }
  else if (c.problem.getD 1 0).toNat ≠ 0 ∧ (c.problem.getD 1 0).toNat ≤ x.attempts then { x with stat := withCode x.stat 4 0 }
  else x

/-- Whether the engine fills area F1 (R367). -/
def f1Used (w : List Word) : Bool := tbFsal w || tbDense w == 1

/-- Put back what the interpolant needs in lanes whose attempt is lost (R373, R382). -/
def restoreAreas (s : State) (c : LocusCtx) (Ls : List Nat) : State :=
  (Ls.filter fun L => (c.lane L).stepped).foldl (fun s L =>
    let s1 := areaSet (areaSet s c L (aF0 c) (c.lane L).f0Acc) c L (aYN c) (c.lane L).ynAcc
    if f1Used c.tableau then areaSet s1 c L (aF1 c) (c.lane L).f1Acc else s1) s

/-- The end of the attempt. -/
def endStep (s : State) (c : LocusCtx) : Engine :=
  let won := stepLanes s c fun x => x.accepted
  let all := stepLanes s c fun _ => true
  let r := won.foldl (fun (q : State × LocusCtx) L => commitLane q.1 q.2 L) (s, c)
  let c1 := modLanes r.2 all fun _ x => stopLane c x
  let lost := all.filter fun L => !(c1.lane L).accepted && laneCode_ (c1.lane L) != 0
  goTo (restoreAreas r.1 c1 lost) (modLanes c1 all fun _ x => { x with inStep := false }) .attempt

/-- One phase of the engine for the team in focus (R359, R367). -/
def phaseStep (s : State) (c : LocusCtx) : Engine :=
  let back := calledLanes s c
  let ret := fun (L : Nat) => ((c.lane L).ret).take c.n
  match c.phase with
  | .idle => { s := s, c := c, move := .finish }
  | .start => request s c 0 0 0 (if f0Needed c.tableau then runningLanes s c else []) (argsAtStart s c) .f0Back
  | .f0Back =>
    let s1 := setAreas s c back (aF0 c) ret
    request s1 c 5 0 0 (if prEv c.problem = 0 then [] else runningLanes s c) (argsAtStart s1 c) .g0Back
  | .g0Back => goTo s (modLanes c back fun _ x => { x with gprev := x.ret.take (prEv c.problem) }) .attempt
  | .attempt => beginAttempt s c
  | .f0Again => goTo (setAreas s c back (aF0 c) ret) c (.stage 0)
  | .stage i => beginStage s c i
  | .jacBack i => takeJacobian s c i
  | .newton i it => beginNewton s c i it
  | .resBack i it => takeResidual s c i it
  | .impBack i => afterImplicit (setAreas s c back (aK c (stageSlot c i)) ret) c i
  | .expBack i => goTo (setAreas s c back (aK c i) ret) c (.stage (i + 1))
  | .stepEnd => endStages s c
  | .f1Back =>
    let s1 := setAreas s c back (aF1 c) ret
    let c1 := modLanes c back fun _ x => { x with f1valid := true }
    request s1 c1 6 0 0 (if prEv c.problem = 0 then [] else stepLanes s c1 fun x => x.accepted) (argsAtEnd s1 c1) .g1Back
  | .g1Back => takeEvents s c
  | .roots => beginRoots s c
  | .rootBack => takeRoots s c
  | .commit => endStep s c

/-- Phases until a routine call or the end of the IGRUN; no more than about fifty lie between two calls. -/
def runEngine : Nat → State → LocusCtx → Engine
  | 0, s, c => { s := s, c := c, move := .go }
  | fuel + 1, s, c =>
    let e := phaseStep s c
    match e.move with
    | .go => runEngine fuel e.s e.c
    | _ => e

end Sys2Proof.Machine
end

