-- ==== Sys2Proof/Machine/LocusOps.lean ====
section
/-! DEFINITION. The Locus instructions, majors 0x5D and 0x5E, and the engine's two events (R358, R365 to R367, R376 to
R384, R387). -/

namespace Sys2Proof.Machine

/-- The context bound to the team in focus. -/
def boundCtx (s : State) : Option LocusCtx := s.locus.find? fun c => c.uid == s.team.uid

/-- Put a context back. -/
def putCtx (s : State) (c : LocusCtx) : State := { s with locus := s.locus.map fun x => if x.uid == c.uid then c else x }

/-- Group 10 of the team in focus. -/
def locusTrap (s : State) (reason : Nat) : Result := .trap (trap10 s.team reason (s.team.locus.getD 0) none 0)

/-- 32-bit words of some bytes. -/
def wordsFrom (bs : List Byte) : Nat → List Word
  | 0 => []
  | k + 1 => wordsFrom bs k ++ [BitVec.ofNat 32 (numAt bs (4 * k) 4)]

/-- A lane as IGBIND sets it (R376). -/
def freshLane (p : List Word) : LocusLane :=
  { t := prT0 p, h := prH0 p, err := 0, solves := 0, attempts := 0, stat := 0, tprev := prT0 p, hlast := 0, stepped := false,
    gprev := [], ynAcc := [], f0Acc := [], f1Acc := [], f1valid := false, ret := [], inStep := false, ha := 0, clipped := false, h0 := prH0 p,
    base := [], yi := [], lu := [], perm := [], dprev := 0, converged := false, failed := false, accepted := false, root := none }

/-- A context as IGBIND makes it. -/
def freshCtx (core num uid lanes : Nat) (tb p : List Word) : LocusCtx :=
  { core := core, num := num, uid := uid, tableau := tb, problem := p,
    bdiff := (List.range 8).map fun j => lSub (tbB tb j) (tbBh tb j), lanes := List.replicate lanes (freshLane p),
    phase := .idle, inRoutine := false, kind := 0, part := 0, called := 0, depth := 0, frames := [], active := 0, savedMask := 0,
    savedStack := [], savedLoops := [], igrunPc := 0, igretPc := none, first := false, byHandler := false }

/-- Whether a context stands on a core: an evicted team's is in the context area (R358). -/
def onCore (s : State) (c : LocusCtx) (core : Nat) : Bool := c.core == core && (residents s).any fun t => t.uid == c.uid

/-- The lowest free context of a core (R387). -/
def freeCtx (s : State) (core : Nat) : Option Nat :=
  (List.range 4).find? fun k => !s.locus.any fun c => onCore s c core && c.num == k

/-- An ill-formed record: the error record and the trap (R378). -/
def badLocusRecord (s : State) (reason bit : Nat) (va : DWord) : Result :=
  let t := s.team
  let num := (freeCtx s t.pl.core).getD 0
  let e : LocusErr := { core := t.pl.core, num := num, addr := va, reason := reason, bit := bit }
  .next (trapBefore { s with locusErr := e :: s.locusErr.filter fun x => x.core != e.core || x.num != num }
    (trap10 t reason num none bit))

/-- IGBIND (R379). -/
def execIgbind (o : IgbindOp) (s : State) : Host.Outcome State Fault Refusal :=
  issue (.igbind o) s fun s =>
    let t := s.team
    let done := fun (s : State) (x : Word) => Result.next (retire (s.withTeam (setS s.team o.d.toNat x)))
    let ta := spair t (2 * o.a.toNat)
    let pa := spair t (2 * o.b.toNat)
    if t.locus.isSome then done s 0x20000000
    else if t.rf.nv < 24 then locusTrap s 3
    else withBytes 128 s ta 624 fun tbs s => withBytes 64 s pa 64 fun pbs s =>
      let tb := wordsFrom tbs 156
      let p := wordsFrom pbs 16
      match tableauBad tb with
      | some bit => badLocusRecord s 1 bit ta
      | none =>
        match problemBad p (needsJac tb) with
        | some bit => badLocusRecord s 2 bit pa
        | none =>
          let st2 := if tbKind tb = 2 then 2 * tbS tb else tbS tb
          if allotment s t < prWork p + workBytes (prN p) st2 t.rf.n then .trap (trap5 3 none (BitVec.ofNat 64 (prWork p)))
          else match freeCtx s t.pl.core with
            | none => done s 0x10000000
            | some k =>
              let s1 := { s with locus := s.locus ++ [freshCtx t.pl.core k t.uid t.rf.n tb p],
                                 team := { s.team with locus := some k } }
              done s1 (BitVec.ofNat 32 k)

/-- Write the engine's registers in some lanes (R365, R367). -/
def engineRegs (t : Team) (n : Nat) (Ls : List Nat) (f : Nat → List Word) (t16 h desc : Nat → Word) : Team :=
  let m := laneSet t.rf.n fun L => Ls.contains L
  let t1 := (List.range n).foldl (fun t k => setV t k m fun L => (f L).getD k 0) t
  setV (setV (setV t1 16 m t16) 17 m h) 18 m desc

/-- The registers at the end of an IGRUN, in every lane that was active (R367). -/
def finishRegs (s : State) (c : LocusCtx) : Team :=
  engineRegs s.team c.n (lanesOf s.team.rf.n c.active) (fun L => areaGet s c L 0) (fun L => (c.lane L).t) (fun L => (c.lane L).h)
    fun L => (c.lane L).stat

/-- The IGRUN is complete: the results, the mask as it stood, and on after the IGRUN. Under `%step` the routine's last instruction
traps too, before the IGRUN (R380). -/
def finishIgrun (s : State) (c : LocusCtx) : State :=
  let t := finishRegs s c
  let c1 := { c with phase := .idle, inRoutine := false, igretPc := none }
  let s1 := putCtx (s.withTeam { t with wait := .ready, ctl := { t.ctl with mask := c.savedMask, pc := c.igrunPc, hints := none } }) c1
  match c.igretPc with
  | some from_ =>
    if stepping t then
      let r := loopEnd c.igrunPc s1.team.ctl.loops.length s1.team
      let s2 := s1.withTeam r.1
      let pc := s2.team.ctl.pc
      let own : Trap := if r.2 then trap3 { r.1 with ctl := { r.1.ctl with pc := c.igrunPc } } 4 0 else ⟨14, 0, codeOff t pc, codeOff t c.igrunPc⟩
      takeTrap (s2.withTeam { s2.team with pending := s2.team.pending ++ [own] }) ⟨14, 0, codeOff t pc, codeOff t from_⟩ pc
    else retire s1
  | none => retire s1

/-- IGRUN (R367, R380): the team is handed to the engine, or goes on at once when no lane runs. -/
def execIgrun (s : State) : Host.Outcome State Fault Refusal :=
  issue .igrun s fun s =>
    let t := s.team
    match boundCtx s with
    | none => locusTrap s 4
    | some c =>
      if c.phase ≠ .idle then locusTrap s 6
      else
        let c1 := { c with active := t.ctl.mask, savedMask := t.ctl.mask, savedStack := t.ctl.stack, savedLoops := t.ctl.loops,
                           igrunPc := t.ctl.pc, igretPc := none, first := true, phase := .start, called := 0,
                           byHandler := t.handler.isSome }
        let c2 := modLanes c1 (runningLanes s c1) fun _ x =>
          if lLe (prTend c.problem) x.t then { x with stat := withCode x.stat 1 0 } else x
        let c3 := modLanes c2 (List.range t.rf.n) fun _ x => { x with f1valid := false, inStep := false }
        let book := schedHints s t
        let s1 := s.withTeam { t with book := book, ctl := { t.ctl with hints := none } }
        if (runningLanes s c3).isEmpty then .next (finishIgrun s1 c3)
        else .next (putCtx (s1.withTeam { s1.team with wait := .locus }) c3)

/-- The entry a call goes to (R366). -/
def routinePc (t : Team) (c : LocusCtx) : DWord :=
  let off := c.problem.getD (if c.kind ≤ 3 then 10 else if c.kind = 4 then 11 else 12) 0
  t.pl.codebase + off.setWidth 64

/-- A routine call (R365). Under `%step` an IGRET that led here traps now (R396). -/
def enterRoutine (s : State) (c : LocusCtx) (stage : Nat) (args : Nat → Word × Word × List Word) : State :=
  let Ls := calledLanes s c
  let desc : Word := BitVec.ofNat 32 (c.part * 256 + c.kind * 16 + stage)
  let t := engineRegs s.team c.n Ls (fun L => (args L).2.2) (fun L => (args L).1) (fun L => (args L).2.1) fun _ => desc
  let pc := routinePc t c
  let t1 := { t with wait := .ready, ctl := { t.ctl with mask := c.called, pc := pc, hints := none } }
  let c1 := { c with inRoutine := true, depth := t.ctl.stack.length, frames := t.ctl.loops }
  let s1 := putCtx (s.withTeam t1) c1
  match c.igretPc with
  | some from_ => if stepping t then takeTrap s1 ⟨14, 0, codeOff t1 pc, codeOff t1 from_⟩ pc else s1
  | none => s1

/-- Whether a core's engine serves a context next: round robin over the contexts whose teams wait for it, from the one it served last on
(R359). -/
def servedNext (s : State) (c : LocusCtx) : Bool :=
  let waits := s.locus.filter fun x => onCore s x c.core && s.teams.any fun t => t.uid == x.uid && t.wait == .locus
  let last := ((s.served.find? fun x => x.1 == c.core).map fun x => x.2).getD 3
  waits.all fun x => decide ((c.num + 7 - last) % 4 ≤ (x.num + 7 - last) % 4)

/-- Whether a queued matrix command has still to read a register that the engine writes or reads (R239, R366). -/
def matrixHolds (s : State) (n : Nat) : Bool := (locusRegs n).any fun r => (matrixReads s s.team).contains r

/-- Run the engine of the team in focus if it has the team, on its group, and serves it next; it writes no register that a queued
matrix command has still to read (R239). -/
def engineOf (s : State) : Option Engine :=
  match boundCtx s, s.team.wait with
  | some c, .locus =>
    if s.team.stage == .resident && servedNext s c && !matrixHolds s c.n then some (runEngine 200 s c) else none
  | _, _ => none

/-- The engine has served the context of the team in focus. -/
def noteServed (e : Engine) : State :=
  { e.s with served := (e.c.core, e.c.num) :: e.s.served.filter fun x => x.1 != e.c.core }

/-- ROUTINE_CALL (R365). -/
def execRoutineCall (uid : Nat) (s : State) : Host.Outcome State Fault Refusal :=
  .next (onTeam s uid fun s => match engineOf s with
    | some e => (match e.move with
      | .call stage args => enterRoutine (noteServed e) e.c stage args
      | _ => s)
    | none => s)

/-- IGRUN_COMPLETE (R367). -/
def execIgrunComplete (uid : Nat) (s : State) : Host.Outcome State Fault Refusal :=
  .next (onTeam s uid fun s => match engineOf s with
    | some e => (match e.move with
      | .finish => finishIgrun (noteServed e) e.c
      | _ => s)
    | none => s)

/-- The IGRET kind that matches a call (R366). -/
def wantedKind (c : LocusCtx) : Nat := if c.kind ≤ 3 then c.part else if c.kind = 4 then 3 else 4

/-- IGRET (R366, R381). -/
def execIgret (o : IgretOp) (s : State) : Host.Outcome State Fault Refusal :=
  issue (.igret o) s fun s =>
    let t := s.team
    match boundCtx s with
    | none => locusTrap s 5
    | some c =>
      if !inRoutine s t || o.kind.toNat != wantedKind c then locusTrap s 5
      else if t.ctl.stack.length ≠ c.depth ∨ t.ctl.loops ≠ c.frames then locusTrap s 6
      else if o.kind = 4 ∧ (List.range (prEv c.problem)).any (fun r => !vIsFull t r) then .wait .operand
      else if matrixHolds s c.n then .wait .operand
      else
        let count := if c.kind = 4 then 0 else if c.kind ≤ 3 then c.n else prEv c.problem
        let c1 := modLanes c (calledLanes s c) fun L x => { x with ret := (List.range count).map fun r => vget t r L }
        let c2 := { c1 with inRoutine := false, igretPc := some t.ctl.pc }
        let book := schedHints s t
        .next (putCtx (s.withTeam { t with wait := .locus, book := book, ctl := { t.ctl with hints := none } }) c2)

/-- IGSTOP inside a routine (R382): the attempt is discarded, every running lane stops, the IGRUN is complete. -/
def stopIgrun (s : State) (c : LocusCtx) : State :=
  let Ls := runningLanes s c
  let s1 := restoreAreas s c Ls
  let c1 := modLanes { c with igretPc := some s.team.ctl.pc } Ls fun _ x =>
    { x with stat := withCode x.stat 5 0, h := if x.inStep then x.h0 else x.h, inStep := false }
  let ctl := { s1.team.ctl with stack := c.savedStack, loops := c.savedLoops }
  finishIgrun (s1.withTeam { s1.team with ctl := ctl }) c1

/-- IGSTOP (R382). -/
def execIgstop (s : State) : Host.Outcome State Fault Refusal :=
  issue .igstop s fun s =>
    let t := s.team
    match boundCtx s with
    | none => locusTrap s 4
    | some c =>
      if inRoutine s t then
        if ((locusRegs c.n).all fun r => vIsFull t r) && !matrixHolds s c.n then
          let book := schedHints s t
          .next (stopIgrun (s.withTeam { t with book := book }) c)
        else .wait .operand
      else if c.phase ≠ .idle then locusTrap s 6
      else .next (retire { s with locus := s.locus.filter fun x => x.uid != t.uid, team := { t with locus := none } })

/-- The dense output of a lane (R373). -/
def denseOutput (s : State) (c : LocusCtx) (L : Nat) (th : Word) : List Word :=
  if (c.lane L).stepped then
    interpolate (tbDense c.tableau) (areaGet s c L (aYP c)) (areaGet s c L (aYN c)) (areaGet s c L (aF0 c)) (areaGet s c L (aF1 c))
      (c.lane L).hlast th
  else areaGet s c L 0

/-- IGQ (R383). -/
def execIgq (o : IgqOp) (s : State) : Host.Outcome State Fault Refusal :=
  issue (.igq o) s fun s =>
    let t := s.team
    match boundCtx s with
    | none => locusTrap s 4
    | some c =>
      if c.phase ≠ .idle then locusTrap s 6
      else if t.rf.nv < o.d.toNat + c.n then locusTrap s 8
      else
        let y := fun (L : Nat) =>
          let x := vget t o.a.toNat L
          denseOutput s c L (if o.t then lDiv (lSub x (c.lane L).tprev) (c.lane L).hlast else x)
        .next (retire (s.withTeam ((List.range c.n).foldl (fun (u : Team) k =>
          setV u (o.d.toNat + k) (active t o.g) fun L => (y L).getD k 0) t)))

/-- A lane's field (R376). -/
def laneField (x : LocusLane) (f : BitVec 3) : Word :=
  if f = 0 then x.t else if f = 1 then x.h else if f = 2 then x.err
  else if f = 3 then BitVec.ofNat 32 (min 255 x.solves * 2 ^ 24 + min (2 ^ 24 - 1) x.attempts)
  else x.stat

/-- IGRD (R384). -/
def execIgrd (o : IgrdOp) (s : State) : Host.Outcome State Fault Refusal :=
  issue (.igrd o) s fun s =>
    match boundCtx s with
    | none => locusTrap s 4
    | some c =>
      if c.phase ≠ .idle then locusTrap s 5
      else .next (retire (s.withTeam (setV s.team o.d.toNat (active s.team o.g) fun L => laneField (c.lane L) o.f)))

/-- Whether IGWR may write a value (R376). -/
def igwrOk (c : LocusCtx) (f : BitVec 3) (x : Word) : Bool :=
  if f = 0 then lFinite x
  else if f = 1 then lLe (prHmin c.problem) x && lLe x (prHmax c.problem)
  else if f = 4 then x == 0 || x == 5
  else false

/-- A lane with a field written; of the status only CODE is writable (R377). -/
def igwrLane (x : LocusLane) (f : BitVec 3) (w : Word) : LocusLane :=
  if f = 0 then { x with t := w } else if f = 1 then { x with h := w } else { x with stat := (x.stat &&& ~~~15) ||| (w &&& 15) }

/-- IGWR (R384). -/
def execIgwr (o : IgwrOp) (s : State) : Host.Outcome State Fault Refusal :=
  issue (.igwr o) s fun s =>
    let t := s.team
    match boundCtx s with
    | none => locusTrap s 4
    | some c =>
      if c.phase ≠ .idle then locusTrap s 5
      else
        let Ls := lanesOf t.rf.n (active t o.g)
        match Ls.find? fun L => !igwrOk c o.f (vget t o.a.toNat L) with
        | some L => .trap (trap10 t 7 c.num (some L) 0)
        | none => .next (retire (putCtx s (modLanes c Ls fun L x => igwrLane x o.f (vget t o.a.toNat L))))

end Sys2Proof.Machine
end

