-- ==== Sys2Proof/Machine/Return.lean ====
section
/-! DEFINITION. The return from a handler (R391, R401, R409). -/

namespace Sys2Proof.Machine

/-- An IGRUN that a handler has begun does not outlive it. DESIGN CHOICE (log 73): its attempt is discarded as by IGSTOP (R382), the context
stays bound. -/
def abandonIgrun (s : State) : State :=
  match boundCtx s with
  | some c =>
    if c.byHandler && c.phase != .idle then
      let Ls := runningLanes s c
      let c1 := modLanes c Ls fun _ x => { x with h := if x.inStep then x.h0 else x.h, inStep := false }
      putCtx (restoreAreas s c Ls) { c1 with phase := .idle, inRoutine := false, igretPc := none }
    else s
  | none => s

/-- Restore the team in focus from an entry and leave handler mode (R409). -/
def restoreContext (s : State) (h : Handler) (bs : List Byte) (r : Saved) : State :=
  let t := s.team
  let u := applyContext t bs r
  let e := { h.saved with
    lastBatch := u.eng.lastBatch, errs := h.saved.errs ++ t.eng.errs, unsealed := h.saved.unsealed ++ t.eng.unsealed,
    maint := h.saved.maint ++ t.eng.maint }
  let u1 := { u with
    sp := { u.sp with cause := 0, d0 := 0, d1 := 0, d2 := 0 },
    eng := e, handler := none, pending := h.later, wait := .ready, book := { u.book with freeze := false } }
  { s with team := u1, sched := { s.sched with ctxUsed := s.sched.ctxUsed.filter fun k => k != h.entry } }

/-- The tiles of the pair of the team in focus, as the entry `bs` of its handler holds them (R400, R409). -/
def restoreTiles (s : State) (h : Handler) (bs : List Byte) : State :=
  if h.tiles then
    let a := bs.toArray
    modTeamPair s s.team (pairFrom (fun n => a.getD n 0) s.team.rf.n s.team.rf.nv)
  else s

/-- TRET (R409): it writes every register, so it is not ready while a matrix command has still to read one (R239). The trap of an
ill-formed entry is fatal in handler mode (R390), and ends a wave's handler (R266). -/
def execTret (s : State) : Host.Outcome State Fault Refusal :=
  issue .tret s fun s =>
    let t := s.team
    match t.handler with
    | none => .trap (trap5 6 none 0)
    | some h =>
      if !countersZero t.eng then .wait .counter
      else if !(matrixReads s t).isEmpty then .wait .operand
      else if !landed { t with eng := Engines.idle } then .wait .wait
      else
        let va := spair t 30
        let len := contextLen t + if h.tiles then 16384 + 8 * 65536 else 0
        withRecord s va len fun bs s =>
          match readSaved bs true with
          | none => .next (takeTrap s (trap12 t 7 va) t.ctl.pc)
          | some r =>
            if contextOk t bs r then
              let s1 := s.withTeam { s.team with ver := dropBytes s.team.ver (physRanges s va ctxSize) }
              .next (restoreContext (restoreTiles (abandonIgrun s1) h bs) h bs r)
            else .next (takeTrap s (trap12 t 7 va) t.ctl.pc)

end Sys2Proof.Machine
end

