-- ==== Sys2Proof/Machine/Dispatch.lean ====
section
/-! DEFINITION. One arm per constructor of Instr: a direct call of its meaning. -/

namespace Sys2Proof.Machine

def exec (i : Instr) (s : State) : Host.Outcome State Fault Refusal :=
  match i with
  | .iadd o => Sys2Proof.Machine.execIadd o s
  | .isub o => Sys2Proof.Machine.execIsub o s
  | .iabs o => Sys2Proof.Machine.execIabs o s
  | .andn o => Sys2Proof.Machine.execAndn o s
  | .iminS o => Sys2Proof.Machine.execIminS o s
  | .iminU o => Sys2Proof.Machine.execIminU o s
  | .imaxS o => Sys2Proof.Machine.execImaxS o s
  | .imaxU o => Sys2Proof.Machine.execImaxU o s
  | .imulLo o => Sys2Proof.Machine.execImulLo o s
  | .imulHiS o => Sys2Proof.Machine.execImulHiS o s
  | .imulHiU o => Sys2Proof.Machine.execImulHiU o s
  | .imad o => Sys2Proof.Machine.execImad o s
  | .and o => Sys2Proof.Machine.execAnd o s
  | .or o => Sys2Proof.Machine.execOr o s
  | .xor o => Sys2Proof.Machine.execXor o s
  | .sel o => Sys2Proof.Machine.execSel o s
  | .shl o => Sys2Proof.Machine.execShl o s
  | .shr o => Sys2Proof.Machine.execShr o s
  | .sar o => Sys2Proof.Machine.execSar o s
  | .rot o => Sys2Proof.Machine.execRot o s
  | .popc o => Sys2Proof.Machine.execPopc o s
  | .clz o => Sys2Proof.Machine.execClz o s
  | .brev o => Sys2Proof.Machine.execBrev o s
  | .bfxU o => Sys2Proof.Machine.execBfxU o s
  | .bfxS o => Sys2Proof.Machine.execBfxS o s
  | .bfi o => Sys2Proof.Machine.execBfi o s
  | .icmpS o => Sys2Proof.Machine.execIcmpS o s
  | .icmpU o => Sys2Proof.Machine.execIcmpU o s
  | .plogAnd o => Sys2Proof.Machine.execPlogAnd o s
  | .plogOr o => Sys2Proof.Machine.execPlogOr o s
  | .plogXor o => Sys2Proof.Machine.execPlogXor o s
  | .plogAndn o => Sys2Proof.Machine.execPlogAndn o s
  | .mov o => Sys2Proof.Machine.execMov o s
  | .movSp o => Sys2Proof.Machine.execMovSp o s
  | .iaddi o => Sys2Proof.Machine.execIaddi o s
  | .andi o => Sys2Proof.Machine.execAndi o s
  | .ori o => Sys2Proof.Machine.execOri o s
  | .xori o => Sys2Proof.Machine.execXori o s
  | .movi o => Sys2Proof.Machine.execMovi o s
  | .icmpi o => Sys2Proof.Machine.execIcmpi o s
  | .shli o => Sys2Proof.Machine.execShli o s
  | .shri o => Sys2Proof.Machine.execShri o s
  | .sari o => Sys2Proof.Machine.execSari o s
  | .sadd o => Sys2Proof.Machine.execSadd o s
  | .ssub o => Sys2Proof.Machine.execSsub o s
  | .smul o => Sys2Proof.Machine.execSmul o s
  | .sand o => Sys2Proof.Machine.execSand o s
  | .sor o => Sys2Proof.Machine.execSor o s
  | .sxor o => Sys2Proof.Machine.execSxor o s
  | .sshl o => Sys2Proof.Machine.execSshl o s
  | .sshr o => Sys2Proof.Machine.execSshr o s
  | .scmpS o => Sys2Proof.Machine.execScmpS o s
  | .scmpU o => Sys2Proof.Machine.execScmpU o s
  | .smov o => Sys2Proof.Machine.execSmov o s
  | .v2s o => Sys2Proof.Machine.execV2s o s
  | .s2v o => Sys2Proof.Machine.execS2v o s
  | .saddi o => Sys2Proof.Machine.execSaddi o s
  | .smovi o => Sys2Proof.Machine.execSmovi o s
  | .srd o => Sys2Proof.Machine.execSrd o s
  | .swr o => Sys2Proof.Machine.execSwr o s
  | .fadd o => Sys2Proof.Machine.execFadd o s
  | .fsub o => Sys2Proof.Machine.execFsub o s
  | .fmul o => Sys2Proof.Machine.execFmul o s
  | .ffma o => Sys2Proof.Machine.execFfma o s
  | .fmin o => Sys2Proof.Machine.execFmin o s
  | .fmax o => Sys2Proof.Machine.execFmax o s
  | .fclass o => Sys2Proof.Machine.execFclass o s
  | .fcmp o => Sys2Proof.Machine.execFcmp o s
  | .fcmpUo o => Sys2Proof.Machine.execFcmpUo o s
  | .haddBf o => Sys2Proof.Machine.execHaddBf o s
  | .hmulBf o => Sys2Proof.Machine.execHmulBf o s
  | .hfmaBf o => Sys2Proof.Machine.execHfmaBf o s
  | .hmaxBf o => Sys2Proof.Machine.execHmaxBf o s
  | .haddF16 o => Sys2Proof.Machine.execHaddF16 o s
  | .hmulF16 o => Sys2Proof.Machine.execHmulF16 o s
  | .hfmaF16 o => Sys2Proof.Machine.execHfmaF16 o s
  | .hmaxF16 o => Sys2Proof.Machine.execHmaxF16 o s
  | .nadd o => Sys2Proof.Machine.execNadd o s
  | .nmul o => Sys2Proof.Machine.execNmul o s
  | .nfma o => Sys2Proof.Machine.execNfma o s
  | .nmax o => Sys2Proof.Machine.execNmax o s
  | .nmin o => Sys2Proof.Machine.execNmin o s
  | .ncmp o => Sys2Proof.Machine.execNcmp o s
  | .rcp o => Sys2Proof.Machine.execRcp o s
  | .rsq o => Sys2Proof.Machine.execRsq o s
  | .sqrt o => Sys2Proof.Machine.execSqrt o s
  | .tanh o => Sys2Proof.Machine.execTanh o s
  | .ex2 o => Sys2Proof.Machine.execEx2 o s
  | .lg2 o => Sys2Proof.Machine.execLg2 o s
  | .sinp o => Sys2Proof.Machine.execSinp o s
  | .cosp o => Sys2Proof.Machine.execCosp o s
  | .cvtRne o => Sys2Proof.Machine.execCvtRne o s
  | .cvtRtz o => Sys2Proof.Machine.execCvtRtz o s
  | .cvtSr o => Sys2Proof.Machine.execCvtSr o s
  | .cvt o => Sys2Proof.Machine.execCvt o s
  | .cvtnRne o => Sys2Proof.Machine.execCvtnRne o s
  | .cvtnRtz o => Sys2Proof.Machine.execCvtnRtz o s
  | .cvtnSr o => Sys2Proof.Machine.execCvtnSr o s
  | .cvtn o => Sys2Proof.Machine.execCvtn o s
  | .i2fS o => Sys2Proof.Machine.execI2fS o s
  | .i2fU o => Sys2Proof.Machine.execI2fU o s
  | .f2iS o => Sys2Proof.Machine.execF2iS o s
  | .f2iU o => Sys2Proof.Machine.execF2iU o s
  | .plx o => Sys2Proof.Machine.execPlx o s
  | .pld o => Sys2Proof.Machine.execPld o s
  | .frw o => Sys2Proof.Machine.execFrw o s
  | .shflIdx o => Sys2Proof.Machine.execShflIdx o s
  | .shflXor o => Sys2Proof.Machine.execShflXor o s
  | .shflUp o => Sys2Proof.Machine.execShflUp o s
  | .shflDn o => Sys2Proof.Machine.execShflDn o s
  | .voteAny o => Sys2Proof.Machine.execVoteAny o s
  | .voteAll o => Sys2Proof.Machine.execVoteAll o s
  | .voteBal o => Sys2Proof.Machine.execVoteBal o s
  | .rlogIadd o => Sys2Proof.Machine.execRlogIadd o s
  | .rlogImaxS o => Sys2Proof.Machine.execRlogImaxS o s
  | .rlogFadd o => Sys2Proof.Machine.execRlogFadd o s
  | .rlogFmax o => Sys2Proof.Machine.execRlogFmax o s
  | .scanIadd o => Sys2Proof.Machine.execScanIadd o s
  | .scanFadd o => Sys2Proof.Machine.execScanFadd o s
  | .elect o => Sys2Proof.Machine.execElect o s
  | .mskrd o => Sys2Proof.Machine.execMskrd o s
  | .br o => Sys2Proof.Machine.execBr o s
  | .brAll o => Sys2Proof.Machine.execBrAll o s
  | .call o => Sys2Proof.Machine.execCall o s
  | .ret => Sys2Proof.Machine.execRet s
  | .jmp o => Sys2Proof.Machine.execJmp o s
  | .exit o => Sys2Proof.Machine.execExit o s
  | .nop => Sys2Proof.Machine.execNop s
  | .ifP o => Sys2Proof.Machine.execIfP o s
  | .elseP => Sys2Proof.Machine.execElseP s
  | .endif => Sys2Proof.Machine.execEndif s
  | .brk o => Sys2Proof.Machine.execBrk o s
  | .loop o => Sys2Proof.Machine.execLoop o s
  | .ld o => Sys2Proof.Machine.execLd o s
  | .st o => Sys2Proof.Machine.execSt o s
  | .lds o => Sys2Proof.Machine.execLds o s
  | .sts o => Sys2Proof.Machine.execSts o s
  | .ldt o => Sys2Proof.Machine.execLdt o s
  | .stt o => Sys2Proof.Machine.execStt o s
  | .cpt o => Sys2Proof.Machine.execCpt o s
  | .cpseal o => Sys2Proof.Machine.execCpseal o s
  | .cpwait o => Sys2Proof.Machine.execCpwait o s
  | .waitc o => Sys2Proof.Machine.execWaitc o s
  | .pref o => Sys2Proof.Machine.execPref o s
  | .shset o => Sys2Proof.Machine.execShset o s
  | .phase o => Sys2Proof.Machine.execPhase o s
  | .fence => Sys2Proof.Machine.execFence s
  | .bar o => Sys2Proof.Machine.execBar o s
  | .cleanr o => Sys2Proof.Machine.execCleanr o s
  | .invr o => Sys2Proof.Machine.execInvr o s
  | .flushr o => Sys2Proof.Machine.execFlushr o s
  | .mma o => Sys2Proof.Machine.execMma o s
  | .mzero o => Sys2Proof.Machine.execMzero o s
  | .mrd o => Sys2Proof.Machine.execMrd o s
  | .msts o => Sys2Proof.Machine.execMsts o s
  | .mstat o => Sys2Proof.Machine.execMstat o s
  | .aopAdd o => Sys2Proof.Machine.execAopAdd o s
  | .aopMin o => Sys2Proof.Machine.execAopMin o s
  | .aopMax o => Sys2Proof.Machine.execAopMax o s
  | .aopXchg o => Sys2Proof.Machine.execAopXchg o s
  | .aopAnd o => Sys2Proof.Machine.execAopAnd o s
  | .aopOr o => Sys2Proof.Machine.execAopOr o s
  | .aopXor o => Sys2Proof.Machine.execAopXor o s
  | .aopCas o => Sys2Proof.Machine.execAopCas o s
  | .callm o => Sys2Proof.Machine.execCallm o s
  | .cbatch o => Sys2Proof.Machine.execCbatch o s
  | .creply o => Sys2Proof.Machine.execCreply o s
  | .cdone => Sys2Proof.Machine.execCdone s
  | .twait o => Sys2Proof.Machine.execTwait o s
  | .mreg o => Sys2Proof.Machine.execMreg o s
  | .trig => Sys2Proof.Machine.execTrig s
  | .waitdep => Sys2Proof.Machine.execWaitdep s
  | .yield => Sys2Proof.Machine.execYield s
  | .joink => Sys2Proof.Machine.execJoink s
  | .launch o => Sys2Proof.Machine.execLaunch o s
  | .postc o => Sys2Proof.Machine.execPostc o s
  | .rput o => Sys2Proof.Machine.execRput o s
  | .rget o => Sys2Proof.Machine.execRget o s
  | .gx o => Sys2Proof.Machine.execGx o s
  | .sx o => Sys2Proof.Machine.execSx o s
  | .mron o => Sys2Proof.Machine.execMron o s
  | .mroff o => Sys2Proof.Machine.execMroff o s
  | .mrld o => Sys2Proof.Machine.execMrld o s
  | .mrst o => Sys2Proof.Machine.execMrst o s
  | .mrop o => Sys2Proof.Machine.execMrop o s
  | .mradd o => Sys2Proof.Machine.execMradd o s
  | .mrmul o => Sys2Proof.Machine.execMrmul o s
  | .mrcmp o => Sys2Proof.Machine.execMrcmp o s
  | .mrred o => Sys2Proof.Machine.execMrred o s
  | .hold o => Sys2Proof.Machine.execHold o s
  | .hset o => Sys2Proof.Machine.execHset o s
  | .hdem o => Sys2Proof.Machine.execHdem o s
  | .hpro o => Sys2Proof.Machine.execHpro o s
  | .hrel o => Sys2Proof.Machine.execHrel o s
  | .igbind o => Sys2Proof.Machine.execIgbind o s
  | .igrun => Sys2Proof.Machine.execIgrun s
  | .igret o => Sys2Proof.Machine.execIgret o s
  | .igstop => Sys2Proof.Machine.execIgstop s
  | .igq o => Sys2Proof.Machine.execIgq o s
  | .igrd o => Sys2Proof.Machine.execIgrd o s
  | .igwr o => Sys2Proof.Machine.execIgwr o s
  | .svput o => Sys2Proof.Machine.execSvput o s
  | .svget o => Sys2Proof.Machine.execSvget o s
  | .svrel o => Sys2Proof.Machine.execSvrel o s
  | .svdrop o => Sys2Proof.Machine.execSvdrop o s
  | .traps o => Sys2Proof.Machine.execTraps o s
  | .tret => Sys2Proof.Machine.execTret s
  | .bkpt => Sys2Proof.Machine.execBkpt s
  | .synci o => Sys2Proof.Machine.execSynci o s
  | .tlbinv o => Sys2Proof.Machine.execTlbinv o s
  | .himm o => Sys2Proof.Machine.execHimm o s
  | .hsched o => Sys2Proof.Machine.execHsched o s
  | .hmod o => Sys2Proof.Machine.execHmod o s
  | .stratumLd o => Sys2Proof.Machine.execStratumLd o s
  | .stratumSt o => Sys2Proof.Machine.execStratumSt o s
  | .stratumLoop o => Sys2Proof.Machine.execStratumLoop o s
  | .graphUpload v => Sys2Proof.Machine.execGraphUpload v s
  | .graphRemove v => Sys2Proof.Machine.execGraphRemove v s
  | .trigger v => Sys2Proof.Machine.execTrigger v s
  | .instanceBegin graph => Sys2Proof.Machine.execInstanceBegin graph s
  | .nodeLaunch graph node => Sys2Proof.Machine.execNodeLaunch graph node s
  | .nodeComplete graph node => Sys2Proof.Machine.execNodeComplete graph node s
  | .externalWaitWake graph node => Sys2Proof.Machine.execExternalWaitWake graph node s
  | .externalWaitTimeout graph node => Sys2Proof.Machine.execExternalWaitTimeout graph node s
  | .hostSignalAck graph node => Sys2Proof.Machine.execHostSignalAck graph node s
  | .stratumBlockRun channel => Sys2Proof.Machine.execStratumBlockRun channel s
  | .gridRetire grid => Sys2Proof.Machine.execGridRetire grid s
  | .gangPlacement => Sys2Proof.Machine.execGangPlacement s
  | .gangWaitLimit grid gang => Sys2Proof.Machine.execGangWaitLimit grid gang s
  | .teamRestore uid => Sys2Proof.Machine.execTeamRestore uid s
  | .continuationConvert uid => Sys2Proof.Machine.execContinuationConvert uid s
  | .continuationResume cont => Sys2Proof.Machine.execContinuationResume cont s
  | .continuationTargetTimeout cont => Sys2Proof.Machine.execContinuationTargetTimeout cont s
  | .taskEnd uid => Sys2Proof.Machine.execTaskEnd uid s
  | .producerComplete uid idx => Sys2Proof.Machine.execProducerComplete uid idx s
  | .futureWake uid => Sys2Proof.Machine.execFutureWake uid s
  | .copyComplete uid idx => Sys2Proof.Machine.execCopyComplete uid idx s
  | .matrixCmdStart gang pair => Sys2Proof.Machine.execMatrixCmdStart gang pair s
  | .matrixCmdRetire gang pair => Sys2Proof.Machine.execMatrixCmdRetire gang pair s
  | .publicationCommit uid => Sys2Proof.Machine.execPublicationCommit uid s
  | .entryResolve sector => Sys2Proof.Machine.execEntryResolve sector s
  | .maintenanceComplete uid idx => Sys2Proof.Machine.execMaintenanceComplete uid idx s
  | .sxAck uid idx => Sys2Proof.Machine.execSxAck uid idx s
  | .marlCmdComplete slice => Sys2Proof.Machine.execMarlCmdComplete slice s
  | .residencyComplete handle => Sys2Proof.Machine.execResidencyComplete handle s
  | .vertexRequestArrival idx => Sys2Proof.Machine.execVertexRequestArrival idx s
  | .combineAtomic home => Sys2Proof.Machine.execCombineAtomic home s
  | .twaitWake uid => Sys2Proof.Machine.execTwaitWake uid s
  | .routineCall uid => Sys2Proof.Machine.execRoutineCall uid s
  | .igrunComplete uid => Sys2Proof.Machine.execIgrunComplete uid s
  | .deadlineExpiry uid => Sys2Proof.Machine.execDeadlineExpiry uid s
  | .priorityBoost uid => Sys2Proof.Machine.execPriorityBoost uid s
  | .yieldTimeout uid => Sys2Proof.Machine.execYieldTimeout uid s
  | .hschedSpaceExpiry uid => Sys2Proof.Machine.execHschedSpaceExpiry uid s
  | .vxcfgEnable v => Sys2Proof.Machine.execVxcfgEnable v s
  | .vxcfgDisable v => Sys2Proof.Machine.execVxcfgDisable v s
  | .svcmdOpen v => Sys2Proof.Machine.execSvcmdOpen v s
  | .svcmdClose v => Sys2Proof.Machine.execSvcmdClose v s
  | .svdrain v => Sys2Proof.Machine.execSvdrain v s
  | .srcomp v => Sys2Proof.Machine.execSrcomp v s
  | .firsterrClear v => Sys2Proof.Machine.execFirsterrClear v s
  | .registerWrite off v => Sys2Proof.Machine.execRegisterWrite off v s
  | .hostWindowRead addr n => Sys2Proof.Machine.execHostWindowRead addr n s
  | .hostWindowWrite addr bytes => Sys2Proof.Machine.execHostWindowWrite addr bytes s
  | .peerWrite peer addr bytes => Sys2Proof.Machine.execPeerWrite peer addr bytes s
  | .getVersion buf => Sys2Proof.Machine.execGetVersion buf s
  | .getCapabilities buf => Sys2Proof.Machine.execGetCapabilities buf s
  | .negotiateAlgorithms buf => Sys2Proof.Machine.execNegotiateAlgorithms buf s
  | .getDigests buf => Sys2Proof.Machine.execGetDigests buf s
  | .getCertificate buf => Sys2Proof.Machine.execGetCertificate buf s
  | .challenge buf => Sys2Proof.Machine.execChallenge buf s
  | .getMeasurements buf indices => Sys2Proof.Machine.execGetMeasurements buf indices s
  | .keyExchange buf => Sys2Proof.Machine.execKeyExchange buf s
  | .finish buf => Sys2Proof.Machine.execFinish buf s
  | .endSession buf => Sys2Proof.Machine.execEndSession buf s
  | .memoryKeyInstall buf key => Sys2Proof.Machine.execMemoryKeyInstall buf key s
  | .startLogRead buf => Sys2Proof.Machine.execStartLogRead buf s
  | .managementStart results => Sys2Proof.Machine.execManagementStart results s
  | .coreFailure core => Sys2Proof.Machine.execCoreFailure core s
  | .powerThrottle => Sys2Proof.Machine.execPowerThrottle s
  | .placementHold => Sys2Proof.Machine.execPlacementHold s
  | .hbmBankTest channel bank badRows => Sys2Proof.Machine.execHbmBankTest channel bank badRows s
  | .linkFlitRetry unit leaves => Sys2Proof.Machine.execLinkFlitRetry unit leaves s
  | .powerBelowCap => Sys2Proof.Machine.execPowerBelowCap s
  | .fqtailWrite v => Sys2Proof.Machine.execFqtailWrite v s
  | .srtailWrite v => Sys2Proof.Machine.execSrtailWrite v s

end Sys2Proof.Machine
end

