-- ==== Sys2Proof/Machine/Run.lean ====
section
/-! DEFINITION. What one step does: the agenda, issue on a group (R41, R42, R62, R83), the events inside the part, and time. -/

namespace Sys2Proof.Machine

/-! ### Running one team -/

/-- The outcome of a failed fetch of the team in focus. -/
def settleFetch (s : State) (r : Result) : State :=
  match r with
  | .next s1 => s1
  | .wait w => hold s w
  | .trap tr => trapBefore (noteIssue s) tr

/-- One instruction of a core team or a vertex wave: a trap raised at resumption (R389), the deadline (R102) unless the instruction
has begun, the fetch, the checks of R83, then the instruction. -/
def runCore (s : State) : Host.Outcome State Fault Refusal :=
  let t := s.team
  match t.pending with
  | tr :: rest => .next (trapBefore (s.withTeam { t with pending := rest }) tr)
  | [] =>
    if deadlinePassed s t && !t.book.begun then .next (deadlineTrap s)
    else match fetch s t.ctl.pc with
      | .error e => .next (settleFetch s (accessFault s none .fetch t.ctl.pc e))
      | .ok (w, s1) => match decode w with
        | .error r => .next (trapBefore (noteIssue s1) (trap1 t r.code w))
        | .ok i => exec i s1

/-- The most instructions of one block run (R323). -/
def blockMax : Nat := 65536

/-- Count an instruction of a channel's block run. -/
def countBlock (s : State) : State :=
  let bump := fun (x : Nat × BlockRun) => if x.1 == s.team.pl.core then (x.1, { x.2 with issued := x.2.issued + 1 }) else x
  { s with strat := { s.strat with current := s.strat.current.map bump } }

/-- Whether an instruction is a load. -/
def isLd : Instr → Bool
  | .ld _ => true
  | _ => false

/-- One instruction of a stratum wavefront (R320, R323); a write-back under the block run is a matter of the next LD alone (R330). -/
def runStratum (s : State) : Host.Outcome State Fault Refusal :=
  let n := ((s.strat.current.find? fun x => x.1 == s.team.pl.core).map fun x => x.2.issued).getD 0
  match fetch s s.team.ctl.pc with
  | .error _ => .next (stratumFault s 6)
  | .ok (w, s1) =>
    if blockMax ≤ n then .next (stratumFault s1 7)
    else match decodeStratum w with
      | .error r => .next (stratumFault s1 r)
      | .ok i => exec i (countBlock (if isLd i then s1 else forgetBacks s1))

/-- One instruction of the team in focus. -/
def runTeam (s : State) : Host.Outcome State Fault Refusal := if s.team.kind = .stratum then runStratum s else runCore s

/-- The party that issues a team's words: its group, or the wavefront of its channel, numbered after the groups. -/
def partyOf (t : Team) : Nat := if t.kind = .stratum then 768 + t.pl.core else 4 * t.pl.core + t.pl.group

/-- How far a team's party lies behind the focus in the cyclic order of parties; the focus's own party comes last. -/
def behind (s : State) (t : Team) : Nat := (partyOf t + 1023 - partyOf s.team) % 1024

/-- The nearest of several teams. -/
def nearest (s : State) : List Team → Option Team
  | [] => none
  | t :: ts => match nearest s ts with
    | none => some t
    | some u => if behind s u < behind s t then some u else some t

/-- The team a party issues for now: a group for the team R42 chooses, a channel for its wavefront. -/
def turnOf (s : State) (p : Nat) : Option Team :=
  if p < 768 then chosen s p else (s.teams.filter (isReady s)).find? fun t => partyOf t == p

/-- The team that issues next: parties take turns. -/
def issuer (s : State) : Option Team :=
  match nearest s (s.teams.filter (isReady s)) with
  | none => none
  | some t => turnOf s (partyOf t)

/-! ### Events inside the part -/

/-- Indices below the length of a list. -/
def indices {α : Type} (xs : List α) : List Nat := List.range xs.length

/-- What an event does. -/
abbrev Meaning := State → Host.Outcome State Fault Refusal

/-- An event that is worth a try only under a condition. -/
def whenever (b : Bool) (xs : List Meaning) : List Meaning := if b then xs else []

/-- A TWAIT wakes of itself when a polled sector was written or its time has run out; an earlier wake (R268) is left to
the agenda. -/
def twaitDue (s : State) (w : Twait) : Bool := w.polls.any (pollHit s.ms) || decide (w.limit.toNat ≤ s.cycle.toNat)

/-- Events that end a team's wait. -/
def wakeEvents (s : State) (t : Team) : List Meaning :=
  let u := t.uid
  match t.wait with
  | .publish _ _ _ => [execPublicationCommit u]
  | .twait w => whenever (twaitDue s w) [execTwaitWake u] ++ [execContinuationConvert u]
  | .fault _ _ _ => [execFutureWake u, execContinuationConvert u]
  | .locus => [execRoutineCall u, execIgrunComplete u]
  | .ending => [execTaskEnd u]
  | .yield => [execYieldTimeout u]
  | .ready => []
  | .marl _ => []
  | .hset => []
  | .inval _ => []
  | _ => [execContinuationConvert u]

/-- Events of one team. -/
def teamEvents (s : State) (t : Team) : List Meaning :=
  let u := t.uid
  whenever (deadlinePassed s t) [execDeadlineExpiry u] ++ wakeEvents s t
    ++ whenever (!t.efaults.isEmpty) [execFutureWake u]
    ++ (indices (readyOps t)).map (execProducerComplete u) ++ (indices t.eng.ops).map (execSxAck u)
    ++ (indices (teamCopies t)).map (execCopyComplete u) ++ (indices (teamMaint t)).map (execMaintenanceComplete u)
    ++ whenever (t.book.spaceUntil != 0) [execHschedSpaceExpiry u]
    ++ whenever (decide (boostCycles ≤ t.book.readyCount)) [execPriorityBoost u]

/-- Events of one graph. -/
def graphEvents (x : GraphSlot × Nat) : List Meaning :=
  match x.1.graph with
  | none => []
  | some g =>
    whenever g.running ((indices g.nodes).flatMap fun n =>
      [execNodeComplete x.2 n, execNodeLaunch x.2 n, execExternalWaitWake x.2 n, execExternalWaitTimeout x.2 n,
        execHostSignalAck x.2 n])
      ++ whenever (!g.pending.isEmpty) [execInstanceBegin x.2]

/-- Events that seat a parked or evicted team. -/
def seatEvents (t : Team) : List Meaning :=
  match t.stage with
  | .evicted _ => [execTeamRestore t.uid]
  | .cont _ _ => [execContinuationResume t.cont.toNat, execContinuationTargetTimeout t.cont.toNat]
  | _ => []

/-- Events of one home. -/
def homeEvents (x : Home × Nat) : List Meaning := whenever (!x.1.queue.isEmpty) [execCombineAtomic x.2]

/-- Events of one gang's pairs. -/
def pairEvents (x : Gang × Nat) : List Meaning :=
  (indices x.1.pairs).flatMap fun p => [execMatrixCmdStart x.2 p, execMatrixCmdRetire x.2 p]

/-- Events of one grid. -/
def gridEvents (s : State) (g : Grid) : List Meaning :=
  whenever (!gridLive s g) [execGridRetire g.id] ++ whenever (decide (g.next < g.size)) [execGangWaitLimit g.id g.next, execGangPlacement]

/-- The events that may happen of themselves, in the order in which the model tries them. -/
def ownEvents (s : State) : List Meaning :=
  (s.teams.filter fun t => t.stage != .ended || (t.eng.unsealed.any fun c => !c.done) || !t.eng.maint.isEmpty).flatMap (teamEvents s)
    ++ s.gangs.zipIdx.flatMap pairEvents
    ++ (indices s.vx.travelling).map execVertexRequestArrival ++ s.vx.homes.zipIdx.flatMap homeEvents
    ++ s.marl.flatMap (fun m => whenever (!m.queue.isEmpty) [execMarlCmdComplete m.num])
    ++ s.res.handles.flatMap (fun h => whenever (!h.ops.isEmpty) [execResidencyComplete h.id])
    ++ s.sched.graphs.zipIdx.flatMap graphEvents
    ++ (s.strat.runs.flatMap fun r => r.blocks.map fun b => execStratumBlockRun b.1)
    ++ s.sched.grids.flatMap (gridEvents s) ++ s.teams.flatMap seatEvents
    ++ whenever (!vxOn s && s.teams.any fun t => t.kind == .wave) [fun s => .next (settleWaves s)]

/-- What an event leads to, if it changes anything. -/
def tryEvent (s : State) (i : Meaning) : Option State :=
  match i s with
  | .next s1 => if s1 = s then none else some s1
  | _ => none

/-! ### One step -/

/-- The team in focus tries its next instruction, which decides whether it is ready (R41): one that would have to wait waits. -/
def tryIssue (s : State) : State :=
  let ready := s.withTeam { s.team with wait := .ready }
  if s.team.stage ≠ .resident ∨ s.team.kind = .stratum then s
  else match runCore s with
    | .next s1 => match s1.team.wait with
      | .retry _ => s1
      | _ => ready
    | _ => ready

/-- A vertex wave held in CBATCH takes its batch, if there is one. -/
def tryBatch (s : State) : State :=
  match s.team.wait, runCore s with
  | .retry .batch, .next s1 => s1
  | _, _ => s

/-- A memory-side cycle, a nanosecond of `%cycle` (R26), ends: each wave that CBATCH has held takes the requests that stand in its home's
queue now, all that entered in this cycle among them (R271). -/
def formBatches (s : State) : State :=
  ((s.teams.filter fun t => t.stage == .resident && t.wait == .retry .batch).map fun t => t.uid).foldl (fun s u => onTeam s u tryBatch) s

/-- Where the team in focus stands as a step begins: a wait that is over ends, and a team at issue tries its next instruction (R41). -/
def refreshTeam (s : State) : State :=
  match s.team.wait with
  | .inval w => if invalOver s w then tryIssue (finishInval s w) else s
  | .marl (some w) => if counterBehind s w.reds then s else tryIssue (offLate s w s.team.uid)
  | .yield => if yieldOver s s.team then tryIssue (yieldDone s) else s
  | .ready => tryIssue s
  | .retry .batch => s
  | .retry _ => tryIssue s
  | _ => s

/-- The keel of a slice in marl mode gives way to entries and held sectors (R344, R345). -/
def settleKeel (s : State) : State := if s.marl.isEmpty then s else settleWays s

/-- Every live team as a step begins: those of failed cores leave (R13); late results enter registers that no matrix command reads any more (R239), then `refreshTeam`. -/
def refresh (s : State) : State :=
  ((s.teams.filter fun t => t.stage != .ended).map fun t => t.uid).foldl
    (fun s u => onTeam s u fun s => refreshTeam (s.withTeam (lateNow s s.team))) (leaveFenced (settleKeel (tidyL1 s)))

/-- Nanoseconds pass, and the events of the cycle that ends are recorded (R397), and held waves take their batches (R271): the arithmetic clock runs at its frequency, with the part of a cycle carried (R26, R434). -/
def passTime (s : State) (ns : Nat) : State :=
  let s := if ns = 0 then s else closeCycle (formBatches s)
  let n := s.frac + s.mgmt.clk * ns
  { tick s ns (n / 1000) with frac := n % 1000 }

/-- The state after the first event that changes anything. -/
def ownEvent (s : State) : Option State := (ownEvents s).findSome? (tryEvent s)

/-- A team's turn: one instruction, one nanosecond. -/
def runTurn (s : State) (t : Team) : Host.Outcome State Fault Refusal := runTeam ((passTime s 1).focus t.uid)

/-- Nothing can happen but time, unless start has stopped (R432). -/
def idle (s : State) : Host.Outcome State Fault Refusal :=
  if s.mgmt.startStopped.isSome then .fault .startStopped else .next (passTime s 100)

/-- A step with an empty agenda. Instructions and events alternate: with an even number of instructions issued a team comes
first, otherwise an event. -/
def runFree (s : State) : Host.Outcome State Fault Refusal :=
  if s.issued % 2 = 0 then
    match issuer s with
    | some t => runTurn s t
    | none => match ownEvent s with | some s1 => .next s1 | none => idle s
  else
    match ownEvent s with
    | some s1 => .next s1
    | none => match issuer s with | some t => runTurn s t | none => idle s

/-- One entry of the agenda: an event, a stretch of time, or the group that issues next. Words of the instruction stream
are no events. -/
def runAct (a : Act) (s : State) : Host.Outcome State Fault Refusal :=
  match a with
  | .event i => if encode i = none then exec i s else .next s
  | .time ns => .next (passTime s ns)
  | .group g =>
    match turnOf s g with
    | some t => runTurn s t
    | none => .next s

/-- One step of the machine: every team is brought up to date, then one thing happens. -/
def runStep (s : State) : Host.Outcome State Fault Refusal :=
  match s.agenda with
  | a :: rest => runAct a { refresh s with agenda := rest }
  | [] => runFree (refresh s)

/-! ### Placing a word for the host's probe -/

/-- A little-endian number as memory cells. -/
def numCells (a k n : Nat) : List Host.Cell := cellsAt a (leBytes k n)

/-- A resident team of the boot kind: 32 lanes, 64 registers, privileged, at virtual address 0x1000. -/
def loadTeam : Team :=
  { Team.absent with
    uid := 1, stage := .resident, pl := { Team.absent.pl with gangsz := 1, priv := true, codebase := 0x1000 },
    rf := Regs.zero 32 64, ctl := Control.entry 0x1000 32 }

/-- The address space table at 2 MiB with space 0 valid, and its page tables: one 1 GiB page that maps 0 to 0, readable,
writable and executable (R403, R404). -/
def loadCells : List Host.Cell :=
  numCells 0x200000 32 (1 + 0x400000 / 4096 * 2 ^ 76) ++ numCells 0x400000 8 (0x401000 + 1)
    ++ numCells 0x401000 8 (0x402000 + 1) ++ numCells 0x402000 8 0x9D

/-- A machine whose next step fetches at the physical address given with it: the team whose turn it is, or, where no team
can issue, a team and its address space that are loaded. -/
def fetching (s : State) : State × Nat :=
  let loaded := ({ s with agenda := [.group 0], team := loadTeam, host := { s.host with astbase := 0x200000 },
                          ms := { s.ms with mem := memSets s.ms.mem loadCells } }, 0x1000)
  match issuer (refresh s) with
  | none => loaded
  | some t =>
    match xlateT s t .fetch t.ctl.pc with
    | .ok (pa, _) => ({ s with agenda := [.group (partyOf t)] }, pa)
    | .error _ => loaded

/-- The word of an instruction where the next step fetches. -/
def placeWord (s : State) (nbits w : Nat) : State :=
  let x := fetching s
  let m := x.1.ms
  { x.1 with ms := { m with mem := memSets m.mem (numCells x.2 4 (w % 2 ^ nbits)), l2 := m.l2.filter fun l => l.num != x.2 / 64,
                            code := m.code.filter fun c => c.pa != x.2 } }

end Sys2Proof.Machine
end

