-- ==== Sys2Proof/Machine/Step.lean ====
section
/-! DEFINITION. The step function and the host's probe word. -/

namespace Sys2Proof.Machine

/-- One step (Run.lean says what it does). -/
def step (s : State) : Host.Outcome State Fault Refusal := Sys2Proof.Machine.runStep s

/-- The machine with an instruction stored where the next step fetches. -/
def State.withFetchWord (s : State) (nbits w : Nat) : State := Sys2Proof.Machine.placeWord s nbits w

end Sys2Proof.Machine
end

