-- ==== Sys2Proof/Safety.lean ====
section
/-! DEFINITION. The terms statements are made in: the shape of a register file, when an instruction issues and retires
in a straight line, what a step leaves unchanged, and the invariant of the machine. -/

namespace Sys2Proof

open Machine

/-! ### Shape -/

/-- A register file has the registers of R87: V lists of lanes, 32 scalars, 7 predicates, 3 loop counts, 4 number format
registers, 8 format slots and 8 shape records. -/
def Shaped (t : Team) : Prop :=
  t.rf.v.length = t.rf.nv ∧ t.rf.s.length = 32 ∧ t.rf.p.length = 7 ∧ t.rf.lc.length = 3 ∧ t.rf.fr.length = 4
    ∧ t.rf.fs.length = 8 ∧ t.rf.sh.length = 8

/-- The lanes of a team: N is a power of two from 32 to 1024 (R28). -/
def Laned (t : Team) : Prop := t.rf.n ∈ [32, 64, 128, 256, 512, 1024]

/-- The invariant of the machine: memory stands in its canonical form, every team has the registers of R87, every channel keeps
v11 to v15 (R320), every sector of the L2 has its 64 bytes (R19), and no kept byte is newer than the last place taken in the
device order (R210, R212). -/
def Invariant (s : State) : Prop :=
  s.ms.mem.wf = true ∧ (∀ t ∈ s.teams, Shaped t) ∧ (∀ x ∈ s.strat.kept, x.2.length = 5)
    ∧ (∀ x ∈ s.ms.l2, x.data.length = 64)
    ∧ (∀ r ∈ s.ms.retained, r.1 ≤ s.ms.stamp) ∧ (∀ r ∈ s.ms.rawOld, r.1 ≤ s.ms.stamp) ∧ ∀ t ∈ s.teams, ∀ r ∈ t.ver.ownPub, r.1 ≤ s.ms.stamp

/-! ### Issue -/

/-- The registers an instruction of the team in focus reads and writes. -/
def usesNow (i : Instr) (s : State) : Uses := usesOf s.team (hmodOf s.team).dw (locusDim s s.team) i

/-- Nothing stands against the issue of an instruction by the team in focus (R67, R83, R85, R94, R262, R366): its vector
registers exist, its hint run suits it, the team may issue it, its registers are full, and no matrix command has still
to read a destination. -/
def Ready (i : Instr) (s : State) : Prop :=
  aopBadD (hmodOf s.team).dw i = false
    ∧ (∀ x ∈ (usesNow i s).vs, x.1 < s.team.rf.nv) ∧ (∀ r ∈ (usesNow i s).vd, r < s.team.rf.nv)
    ∧ (∀ h, s.team.ctl.hints = some h → hintsOk h i = true)
    ∧ (needsPriv i = true → privileged s.team = true)
    ∧ (s.team.kind = .wave → waveForbids i = false)
    ∧ (waveOnly i = true → s.team.kind = .wave)
    ∧ (inRoutine s s.team = true → routineForbids i = false)
    ∧ (∀ x ∈ (usesNow i s).vs, vIsFull s.team x.1 = true) ∧ (∀ x ∈ (usesNow i s).ss, sIsFull s.team x.1 = true)
    ∧ (∀ r ∈ (usesNow i s).vd, vIsFull s.team r = true) ∧ (∀ r ∈ (usesNow i s).sd, sIsFull s.team r = true)
    ∧ (∀ r ∈ (usesNow i s).vd, r ∉ matrixReads s s.team)

/-- The team in focus goes on at the next word: it is not single stepping (R396), and its word is not the last of a live
loop's body (R128). -/
def Straight (s : State) : Prop :=
  stepping s.team = false
    ∧ ∀ f ∈ s.team.ctl.loops, s.team.ctl.pc ≠ f.start + BitVec.ofNat 64 (4 * (f.len - 1))

/-! ### What stays -/

/-- The byte the team in focus reads at a physical address of a page with a key index (R184, R211, R325). -/
def teamByte (s : State) (k pa : Nat) : Byte := readByte s.ms s.team.ver k pa

/-- Memory has its canonical form, the L2 holds cacheable sectors of 64 bytes, and a clean one agrees with what memory gives under its
key: nothing has written below it (R19, R310, R325). -/
def Coherent (ms : MemSide) : Prop :=
  ms.mem.wf = true ∧ ∀ x ∈ ms.l2, x.data.length = 64 ∧ isCached (64 * x.num) = true
    ∧ (x.dirty = false → ∀ i, i < 64 → keyGet ms.mem x.key (64 * x.num + i) = x.data.getD i 0)

/-- A key index is the one under which the L2 holds the sector of an address, if it holds it (R325). -/
def KeyHeld (ms : MemSide) (k a : Nat) : Prop := ∀ x ∈ ms.l2, x.num = a / 64 → x.key = k

/-- A team without the bookkeeping of issue that R42, R70 and R304 keep. -/
def unbooked (t : Team) : Team := { t with book := Team.absent.book }

/-- A team without that bookkeeping and without word of which of its sectors stand at home slices (R178). -/
def unhomed (t : Team) : Team := { unbooked t with ver := { t.ver with spilled := [], homed := [] } }

/-- An access of the team in focus to L1 may force sectors of other teams out to their home slices; that is all it does to them (R178). -/
def OthersStay (s t : State) : Prop := t.others.map unhomed = s.others.map unhomed

/-- Everything but the team in focus, the count of issued instructions and the other teams' issue bookkeeping stays. -/
def WorldKept (s t : State) : Prop :=
  t.agenda = s.agenda ∧ t.free = s.free ∧ t.cycle = s.cycle ∧ t.arith = s.arith ∧ t.frac = s.frac ∧ t.others.map unbooked = s.others.map unbooked
    ∧ t.ms = s.ms ∧ t.l1 = s.l1 ∧ t.gangs = s.gangs ∧ t.sched = s.sched ∧ t.gens = s.gens ∧ t.vx = s.vx ∧ t.res = s.res ∧ t.marl = s.marl
    ∧ t.locus = s.locus ∧ t.locusErr = s.locusErr ∧ t.served = s.served ∧ t.host = s.host ∧ t.mgmt = s.mgmt ∧ t.strat = s.strat
    ∧ t.upsets = s.upsets

/-- A team's identity, placement, version, engines and everything else but its registers, control state, special
registers, wait and bookkeeping stay. -/
def TeamKept (a b : Team) : Prop :=
  b.uid = a.uid ∧ b.kind = a.kind ∧ b.stage = a.stage ∧ b.pl = a.pl ∧ b.ver = a.ver ∧ b.eng = a.eng ∧ b.nextTag = a.nextTag
    ∧ b.handler = a.handler ∧ b.pending = a.pending ∧ b.locus = a.locus ∧ b.cont = a.cont ∧ b.children = a.children
    ∧ b.posted = a.posted ∧ b.efaults = a.efaults ∧ b.poison = a.poison ∧ b.passed = a.passed ∧ b.late = a.late

/-- Registers outside the lists stay: vector registers `vs` in every lane, scalar registers `ss` and predicates `ps`; N, V,
the full bits, loop counts, format registers, format slots and shape records all stay. -/
def RegsKept (a b : Team) (vs ss ps : List Nat) : Prop :=
  b.rf.n = a.rf.n ∧ b.rf.nv = a.rf.nv ∧ (∀ r L, r ∉ vs → vget b r L = vget a r L) ∧ (∀ r, r ∉ ss → sget b r = sget a r)
    ∧ (∀ p, p ∉ ps → pset b p = pset a p) ∧ b.rf.vfull = a.rf.vfull ∧ b.rf.sfull = a.rf.sfull ∧ b.rf.lc = a.rf.lc
    ∧ b.rf.fr = a.rf.fr ∧ b.rf.fs = a.rf.fs ∧ b.rf.sh = a.rf.sh

/-- The mask, mask stack, loop frames and loop buffer stay, the hint run is used up, and the team is ready at `pc`. -/
def GoesTo (a b : Team) (pc : DWord) : Prop :=
  b.ctl.pc = pc ∧ b.ctl.mask = a.ctl.mask ∧ b.ctl.stack = a.ctl.stack ∧ b.ctl.loops = a.ctl.loops
    ∧ b.ctl.buffer = a.ctl.buffer ∧ b.ctl.hints = none ∧ b.wait = .ready

/-- The frame of an instruction: `t` is `w` but for the listed vector, scalar and predicate registers, and the team goes on
at `pc`. A statement that lets other parts change writes `w` as the state before with those parts of `t`. -/
def Frame (t w : State) (vs ss ps : List Nat) (pc : DWord) : Prop :=
  WorldKept w t ∧ TeamKept w.team t.team ∧ RegsKept w.team t.team vs ss ps ∧ t.team.sp = w.team.sp ∧ GoesTo w.team t.team pc

/-- Every byte of memory reads for the team as before, through a page with the key under which the L2 holds it, while the L2's
clean sectors agree with memory. The raw aperture is no memory of its own: it is a second view of the bytes below the L2 (R310). -/
def BytesKept (s t : State) : Prop :=
  Coherent s.ms → ∀ k a, isRaw a = false → KeyHeld s.ms k a → KeyHeld t.ms k a → teamByte t k a = teamByte s k a

/-- The frame of an instruction that writes only registers: beside the listed vector, scalar and predicate registers
nothing changes but the program counter; every byte of memory reads as before. -/
def OnlyWrites (s t : State) (vs ss ps : List Nat) : Prop := Frame t s vs ss ps (s.team.ctl.pc + 4) ∧ BytesKept s t

/-- An instruction answers a next state, of which `P` holds. -/
def Answers (i : Instr) (s : State) (P : State → Prop) : Prop := ∃ t, exec i s = .next t ∧ P t

/-- In each lane below N: active lanes of vector register `d` take `f L`, the others keep their values (R105); nothing
else changes. -/
def WritesLanes (s t : State) (m : LaneSet) (d : Nat) (f : Nat → Word) : Prop :=
  (∀ L, L < s.team.rf.n → vget t.team d L = if m.getLsbD L then f L else vget s.team d L) ∧ OnlyWrites s t [d] [] []

/-- Scalar register `d` takes `x`; nothing else changes. -/
def WritesScalar (s t : State) (d : Nat) (x : Word) : Prop := sget t.team d = x ∧ OnlyWrites s t [] [d] []

/-- In each lane below N: active lanes of predicate `p` take `f L`, the others keep their bits (R112); nothing else
changes. -/
def WritesPred (s t : State) (m : LaneSet) (p : Nat) (f : Nat → Bool) : Prop :=
  (∀ L, L < s.team.rf.n → (pset t.team p).getLsbD L = if m.getLsbD L then f L else (pset s.team p).getLsbD L)
    ∧ OnlyWrites s t [] [] [p]

/-- An instruction of the team in focus, ready and in a straight line, of a team with its registers. -/
def Runs (i : Instr) (s : State) : Prop := i.wf = true ∧ Ready i s ∧ Straight s ∧ Shaped s.team

/-- As `Runs`, and the lanes are those of R28. -/
def RunsLanes (i : Instr) (s : State) : Prop := Runs i s ∧ Laned s.team

/-- The state after a straight-line instruction: the hints of its run act, the program counter moves on. -/
def wentOn (s : State) : State :=
  { s with team := { s.team with wait := .ready, book := schedHints s s.team,
                                 ctl := { s.team.ctl with pc := s.team.ctl.pc + 4, hints := none } } }

end Sys2Proof
end

