-- ==== Sys2Proof/Certificates/Slice0/Obligations.lean ====
section
/-! DEFINITION. What is claimed of the machine: the statements for the provers. Each docstring names the rule it states. -/

open Sys2Proof Sys2Proof.Machine

/-! ### Integers, predicates and scalars -/

/-- Lane `L` of vector register `r` of the team in focus. -/
abbrev Sys2Proof.va (s : State) (r : BitVec 6) (L : Nat) : Word := vget s.team r.toNat L

/-- Scalar register `r` of the team in focus. -/
abbrev Sys2Proof.sa (s : State) (r : BitVec 5) : Word := sget s.team r.toNat

/-- Lane `L` of predicate `p` of the team in focus. -/
abbrev Sys2Proof.pa (s : State) (p : BitVec 3) (L : Nat) : Bool := (pset s.team p.toNat).getLsbD L

/-- Whether the hint run in force asks for saturation. -/
abbrev Sys2Proof.sat (s : State) : Bool := (hmodOf s.team).sat

/-- The exact integer clamped to the signed 32-bit range (R107). -/
def Sys2Proof.clamp32 (x : Int) : Word := BitVec.ofInt 32 (max (-2147483648) (min 2147483647 x))

/-- A vector instruction that runs writes `f L` into its active lanes and nothing else. -/
abbrev Sys2Proof.LaneResult (i : Instr) (g : BitVec 3) (d : BitVec 6) (f : State → Nat → Word) : Prop :=
  ∀ s, Runs i s → Answers i s fun t => WritesLanes s t (active s.team g) d.toNat (f s)

/-- A scalar instruction that runs writes `f` into its scalar register and nothing else. -/
abbrev Sys2Proof.ScalarResult (i : Instr) (d : BitVec 5) (f : State → Word) : Prop :=
  ∀ s, Runs i s → Answers i s fun t => WritesScalar s t d.toNat (f s)

/-- A predicate instruction that runs writes `f L` into its active lanes of a predicate and nothing else. -/
abbrev Sys2Proof.PredResult (i : Instr) (g p : BitVec 3) (f : State → Nat → Bool) : Prop :=
  ∀ s, RunsLanes i s → Answers i s fun t => WritesPred s t (active s.team g) p.toNat (f s)

/-- The words of a major and fn are an instruction on three vector registers, whatever their fields. -/
abbrev Sys2Proof.Codes3 (maj : BitVec 7) (fn : BitVec 2) (k : V3 → Instr) : Prop :=
  ∀ w, fMaj w = maj → fFn w = fn → decode w = .ok (k ⟨fG w, fD w, fA w, fB w, fEa w, fEb w⟩)

/-- The words of a major and fn are an instruction on two vector registers where b and eb are zero, else ill-formed with reason 5. -/
abbrev Sys2Proof.Codes2 (maj : BitVec 7) (fn : BitVec 2) (k : V2 → Instr) : Prop :=
  ∀ w, fMaj w = maj → fFn w = fn →
    decode w = if fB w = 0 ∧ fEb w = false then .ok (k ⟨fG w, fD w, fA w, fEa w⟩) else .error .reservedField

/-- R106 and R107: addition and subtraction modulo 2^32, clamped to the signed range under `.SAT`; IADDI adds the
immediate. Only the active lanes of d change. -/
def Sys2Proof.AddSubtractClaim : Prop :=
  (∀ o : V3, LaneResult (.iadd o) o.g o.d fun s L =>
    if sat s then clamp32 ((va s o.a L).toInt + (va s o.b L).toInt)
    else BitVec.ofNat 32 ((va s o.a L).toNat + (va s o.b L).toNat))
  ∧ (∀ o : V3, LaneResult (.isub o) o.g o.d fun s L =>
    if sat s then clamp32 ((va s o.a L).toInt - (va s o.b L).toInt)
    else BitVec.ofInt 32 ((va s o.a L).toInt - (va s o.b L).toInt))
  ∧ (∀ o : VI, LaneResult (.iaddi o) o.g o.d fun s L =>
    if sat s then clamp32 ((va s o.a L).toInt + (immOf s.team true o.imm).toInt)
    else BitVec.ofNat 32 ((va s o.a L).toNat + (immOf s.team true o.imm).toNat))

/-- R106: absolute value, AND NOT, minima, maxima, the two halves of a product and multiply-add, as arithmetic on the
signed or unsigned values of the lanes. Only the active lanes of d change. -/
def Sys2Proof.IntegerArithmeticClaim : Prop :=
  (∀ o : V2, LaneResult (.iabs o) o.g o.d fun s L => BitVec.ofInt 32 ((va s o.a L).toInt.natAbs : Int))
  ∧ (∀ o : V3, LaneResult (.andn o) o.g o.d fun s L => va s o.a L &&& ~~~va s o.b L)
  ∧ (∀ o : V3, LaneResult (.iminS o) o.g o.d fun s L => BitVec.ofInt 32 (min (va s o.a L).toInt (va s o.b L).toInt))
  ∧ (∀ o : V3, LaneResult (.iminU o) o.g o.d fun s L => BitVec.ofNat 32 (min (va s o.a L).toNat (va s o.b L).toNat))
  ∧ (∀ o : V3, LaneResult (.imaxS o) o.g o.d fun s L => BitVec.ofInt 32 (max (va s o.a L).toInt (va s o.b L).toInt))
  ∧ (∀ o : V3, LaneResult (.imaxU o) o.g o.d fun s L => BitVec.ofNat 32 (max (va s o.a L).toNat (va s o.b L).toNat))
  ∧ (∀ o : V3, LaneResult (.imulLo o) o.g o.d fun s L => BitVec.ofNat 32 ((va s o.a L).toNat * (va s o.b L).toNat))
  ∧ (∀ o : V3, LaneResult (.imulHiS o) o.g o.d fun s L =>
      BitVec.ofInt 32 ((va s o.a L).toInt * (va s o.b L).toInt / 4294967296))
  ∧ (∀ o : V3, LaneResult (.imulHiU o) o.g o.d fun s L =>
      BitVec.ofNat 32 ((va s o.a L).toNat * (va s o.b L).toNat / 4294967296))
  ∧ (∀ o : V3, LaneResult (.imad o) o.g o.d fun s L =>
      BitVec.ofNat 32 ((va s o.a L).toNat * (va s o.b L).toNat + (va s o.d L).toNat))

/-- R108: bitwise logic, and SEL, which selects by the predicate its g field names, in every lane of the mask (g = 7 names no
predicate and is refused by the field rules). Immediates are zero-extended to 32 bits, or completed by HIMM. -/
def Sys2Proof.BitwiseLogicClaim : Prop :=
  (∀ o : V3, LaneResult (.and o) o.g o.d fun s L => va s o.a L &&& va s o.b L)
  ∧ (∀ o : V3, LaneResult (.or o) o.g o.d fun s L => va s o.a L ||| va s o.b L)
  ∧ (∀ o : V3, LaneResult (.xor o) o.g o.d fun s L => va s o.a L ^^^ va s o.b L)
  ∧ (∀ o : SelOp, LaneResult (.sel o) 7 o.d fun s L => if pa s o.p L then va s o.a L else va s o.b L)
  ∧ (∀ o : VI, LaneResult (.andi o) o.g o.d fun s L => va s o.a L &&& immOf s.team false o.imm)
  ∧ (∀ o : VI, LaneResult (.ori o) o.g o.d fun s L => va s o.a L ||| immOf s.team false o.imm)
  ∧ (∀ o : VI, LaneResult (.xori o) o.g o.d fun s L => va s o.a L ^^^ immOf s.team false o.imm)

/-- R106 to R108: the integer arithmetic and the bitwise logic of lanes. -/
def Obligations.IntegerAndLogic : Prop := AddSubtractClaim ∧ IntegerArithmeticClaim ∧ BitwiseLogicClaim

/-- R109: shifts by the amount in b[7:0], or by the 5-bit immediate. An amount of 32 or more gives 0 for SHL and SHR and
the sign for SAR; ROT rotates left by the amount modulo 32. -/
def Sys2Proof.ShiftsClaim : Prop :=
  (∀ o : V3, LaneResult (.shl o) o.g o.d fun s L =>
      BitVec.ofNat 32 ((va s o.a L).toNat * 2 ^ ((va s o.b L).toNat % 256)))
  ∧ (∀ o : V3, LaneResult (.shr o) o.g o.d fun s L =>
      BitVec.ofNat 32 ((va s o.a L).toNat / 2 ^ ((va s o.b L).toNat % 256)))
  ∧ (∀ o : V3, LaneResult (.sar o) o.g o.d fun s L =>
      BitVec.ofInt 32 ((va s o.a L).toInt / (2 ^ ((va s o.b L).toNat % 256) : Nat)))
  ∧ (∀ o : V3, LaneResult (.rot o) o.g o.d fun s L =>
      (va s o.a L <<< ((va s o.b L).toNat % 32)) ||| (va s o.a L >>> (32 - (va s o.b L).toNat % 32)))
  ∧ (∀ o : VShI, LaneResult (.shli o) o.g o.d fun s L => BitVec.ofNat 32 ((va s o.a L).toNat * 2 ^ o.k.toNat))
  ∧ (∀ o : VShI, LaneResult (.shri o) o.g o.d fun s L => BitVec.ofNat 32 ((va s o.a L).toNat / 2 ^ o.k.toNat))
  ∧ (∀ o : VShI, LaneResult (.sari o) o.g o.d fun s L => BitVec.ofInt 32 ((va s o.a L).toInt / (2 ^ o.k.toNat : Nat)))

/-- R109 to R111: the words of the shifts, bit counts and bit fields. A shift immediate with non-zero high bits is ill-formed, HIMM before
it is misuse, and fn 3 of major 0x05 is reserved; BFI reads d, which has no E-bit. -/
def Sys2Proof.ShiftWordsClaim : Prop :=
  Codes3 4 0 .shl ∧ Codes3 4 1 .shr ∧ Codes3 4 2 .sar ∧ Codes3 4 3 .rot
  ∧ Codes2 5 0 .popc ∧ Codes2 5 1 .clz ∧ Codes2 5 2 .brev ∧ (∀ w, fMaj w = 5 → fFn w = 3 → decode w = .error .reservedFn)
  ∧ Codes3 6 0 .bfxU ∧ Codes3 6 1 .bfxS ∧ Codes3 6 2 .bfi
  ∧ (∀ w (o : VShI), o = ⟨fG w, fD w, fA w, w.extractLsb' 0 5⟩ → ∀ i, (fMaj w = 0x10 ∧ i = .shli o) ∨ (fMaj w = 0x11 ∧ i = .shri o)
      ∨ (fMaj w = 0x12 ∧ i = .sari o) → decode w = if w.extractLsb' 5 5 = 0 then .ok i else .error .reservedField)
  ∧ (∀ (o : VShI) (run : HintRun), run.himm ≠ none → hintsOk run (.shli o) = false ∧ hintsOk run (.shri o) = false
      ∧ hintsOk run (.sari o) = false)
  ∧ ∀ (o : V3) (s : State), (o.d.toNat, false) ∈ (usesNow (.bfi o) s).vs

/-- The number of 1 bits among the low `n` bits of a word. -/
def Sys2Proof.ones (a : Word) : Nat → Nat
  | 0 => 0
  | n + 1 => ones a n + (if a.getLsbD n then 1 else 0)

/-- R110: POPC counts the 1 bits; CLZ gives the largest k ≤ 32 for which the top k bits are 0; BREV moves bit i to bit
31 - i. -/
def Sys2Proof.BitCountsClaim : Prop :=
  (∀ o : V2, LaneResult (.popc o) o.g o.d fun s L => BitVec.ofNat 32 (ones (va s o.a L) 32))
  ∧ (∀ o : V2, ∀ s, Runs (.clz o) s → Answers (.clz o) s fun t =>
      OnlyWrites s t [o.d.toNat] [] [] ∧ ∀ L, L < s.team.rf.n → (active s.team o.g).getLsbD L = true →
        (va t o.d L).toNat ≤ 32 ∧ (va s o.a L).toNat < 2 ^ (32 - (va t o.d L).toNat)
          ∧ ((va t o.d L).toNat < 32 → 2 ^ (31 - (va t o.d L).toNat) ≤ (va s o.a L).toNat))
  ∧ (∀ o : V2, ∀ s, Runs (.brev o) s → Answers (.brev o) s fun t =>
      OnlyWrites s t [o.d.toNat] [] [] ∧ ∀ L, L < s.team.rf.n → (active s.team o.g).getLsbD L = true →
        ∀ i, i < 32 → (va t o.d L).getLsbD (31 - i) = (va s o.a L).getLsbD i)

/-- The field position in bits [4:0] of b and the usable length: bits [13:8], at most 32 and at most 32 minus the
position (R111). -/
abbrev Sys2Proof.posOf (b : Word) : Nat := b.toNat % 32
abbrev Sys2Proof.lenOf (b : Word) : Nat := min (min (b.toNat / 256 % 64) 32) (32 - posOf b)

/-- R111, bit by bit: BFX_U takes the field to the bottom and clears the rest; BFX_S copies the field's top bit upward, an
empty field giving 0; BFI puts the low bits of a into the field of d. -/
def Sys2Proof.BitFieldsClaim : Prop :=
  (∀ o : V3, ∀ s, Runs (.bfxU o) s → Answers (.bfxU o) s fun t =>
      OnlyWrites s t [o.d.toNat] [] [] ∧ ∀ L, L < s.team.rf.n → (active s.team o.g).getLsbD L = true → ∀ i, i < 32 →
        (va t o.d L).getLsbD i = (decide (i < lenOf (va s o.b L)) && (va s o.a L).getLsbD (posOf (va s o.b L) + i)))
  ∧ (∀ o : V3, ∀ s, Runs (.bfxS o) s → Answers (.bfxS o) s fun t =>
      OnlyWrites s t [o.d.toNat] [] [] ∧ ∀ L, L < s.team.rf.n → (active s.team o.g).getLsbD L = true → ∀ i, i < 32 →
        (va t o.d L).getLsbD i = (decide (0 < lenOf (va s o.b L))
          && (va s o.a L).getLsbD (posOf (va s o.b L) + min i (lenOf (va s o.b L) - 1))))
  ∧ (∀ o : V3, ∀ s, Runs (.bfi o) s → Answers (.bfi o) s fun t =>
      OnlyWrites s t [o.d.toNat] [] [] ∧ ∀ L, L < s.team.rf.n → (active s.team o.g).getLsbD L = true → ∀ i, i < 32 →
        (va t o.d L).getLsbD i =
          if posOf (va s o.b L) ≤ i ∧ i < posOf (va s o.b L) + lenOf (va s o.b L) then
            (va s o.a L).getLsbD (i - posOf (va s o.b L))
          else (va s o.d L).getLsbD i)

/-- R109 to R111: shifts, bit counts, bit reversal and bit fields. -/
def Obligations.ShiftsAndBits : Prop := ShiftsClaim ∧ ShiftWordsClaim ∧ BitCountsClaim ∧ BitFieldsClaim

/-- A condition code of R75 on two integers; 6 and 7 are reserved. -/
def Sys2Proof.holds (c : BitVec 3) (a b : Int) : Bool :=
  match c.toNat with
  | 0 => decide (a = b)
  | 1 => decide (a ≠ b)
  | 2 => decide (a < b)
  | 3 => decide (a ≤ b)
  | 4 => decide (a > b)
  | _ => decide (a ≥ b)

/-- R112 and R113: compares and predicate logic write their active lanes of a predicate, and no other state. ICMPI
compares signed unless the hint run sets U. -/
def Sys2Proof.ComparesAndPredicatesClaim : Prop :=
  (∀ o : VCmp, PredResult (.icmpS o) o.g o.p fun s L => holds o.c (va s o.a L).toInt (va s o.b L).toInt)
  ∧ (∀ o : VCmp, PredResult (.icmpU o) o.g o.p fun s L => holds o.c (va s o.a L).toNat (va s o.b L).toNat)
  ∧ (∀ o : VCmpI, PredResult (.icmpi o) o.g o.p fun s L =>
      if (hmodOf s.team).u then holds o.c (va s o.a L).toNat (immOf s.team true o.imm).toNat
      else holds o.c (va s o.a L).toInt (immOf s.team true o.imm).toInt)
  ∧ (∀ o : P3, PredResult (.plogAnd o) o.g o.d fun s L => pa s o.a L && pa s o.b L)
  ∧ (∀ o : P3, PredResult (.plogOr o) o.g o.d fun s L => pa s o.a L || pa s o.b L)
  ∧ (∀ o : P3, PredResult (.plogXor o) o.g o.d fun s L => pa s o.a L != pa s o.b L)
  ∧ (∀ o : P3, PredResult (.plogAndn o) o.g o.d fun s L => pa s o.a L && !pa s o.b L)

/-- R112 and R113: the words of the compares and of PLOG; a condition of 6 or 7 and a predicate code of 7 are reserved. -/
def Sys2Proof.CompareWordsClaim : Prop :=
  (∀ w, fMaj w = 7 → let ok := (hi3 (fD w)).toNat < 6 ∧ toP (fD w) ≠ 7
      let o : VCmp := ⟨fG w, hi3 (fD w), toP (fD w), fA w, fB w, fEa w, fEb w⟩
      (fFn w = 0 → decode w = if ok then .ok (.icmpS o) else .error .reservedField)
      ∧ (fFn w = 1 → decode w = if ok then .ok (.icmpU o) else .error .reservedField))
  ∧ (∀ w, fMaj w = 0x0F → decode w = if (hi3 (fD w)).toNat < 6 ∧ toP (fD w) ≠ 7 then
      .ok (.icmpi ⟨fG w, hi3 (fD w), toP (fD w), fA w, fImm w⟩) else .error .reservedField)
  ∧ (∀ w, fMaj w = 8 → let o : P3 := ⟨fG w, toP (fD w), toP (fA w), toP (fB w)⟩
      let k : Instr := match (fFn w).toNat with | 0 => .plogAnd o | 1 => .plogOr o | 2 => .plogXor o | _ => .plogAndn o
      decode w = if (fD w).toNat < 7 ∧ (fA w).toNat < 7 ∧ (fB w).toNat < 7 ∧ fEa w = false ∧ fEb w = false then .ok k
        else .error .reservedField)

/-- R114 and R117: moves. MOV copies, MOV_SP writes the lane number, MOVI the immediate, S2V a scalar into every active
lane; V2S takes the lowest active lane of those below N, or 0 without one. -/
def Sys2Proof.MovesClaim : Prop :=
  (∀ o : V2, LaneResult (.mov o) o.g o.d fun s L => va s o.a L)
  ∧ (∀ o : V1, LaneResult (.movSp o) o.g o.d fun _ L => BitVec.ofNat 32 L)
  ∧ (∀ o : VMovI, LaneResult (.movi o) o.g o.d fun s _ => immOf s.team true o.imm)
  ∧ (∀ o : S2VOp, LaneResult (.s2v o) o.g o.d fun s _ => sa s o.a)
  ∧ (∀ o : V2SOp, ∀ s, Runs (.v2s o) s → Answers (.v2s o) s fun t =>
      OnlyWrites s t [] [o.d.toNat] []
        ∧ (∀ L, L < s.team.rf.n → (active s.team o.g).getLsbD L = true →
            (∀ K, K < L → (active s.team o.g).getLsbD K = false) → sa t o.d = va s o.a L)
        ∧ ((∀ L, L < s.team.rf.n → (active s.team o.g).getLsbD L = false) → sa t o.d = 0))


/-- R115: scalar arithmetic, logic, shifts and moves write one scalar register, once whatever the mask. -/
def Sys2Proof.ScalarInstructionsClaim : Prop :=
  (∀ o : S3, ScalarResult (.sadd o) o.d fun s => BitVec.ofNat 32 ((sa s o.a).toNat + (sa s o.b).toNat))
  ∧ (∀ o : S3, ScalarResult (.ssub o) o.d fun s => BitVec.ofInt 32 ((sa s o.a).toInt - (sa s o.b).toInt))
  ∧ (∀ o : S3, ScalarResult (.smul o) o.d fun s => BitVec.ofNat 32 ((sa s o.a).toNat * (sa s o.b).toNat))
  ∧ (∀ o : S3, ScalarResult (.sand o) o.d fun s => sa s o.a &&& sa s o.b)
  ∧ (∀ o : S3, ScalarResult (.sor o) o.d fun s => sa s o.a ||| sa s o.b)
  ∧ (∀ o : S3, ScalarResult (.sxor o) o.d fun s => sa s o.a ^^^ sa s o.b)
  ∧ (∀ o : S3, ScalarResult (.sshl o) o.d fun s =>
      BitVec.ofNat 32 ((sa s o.a).toNat * 2 ^ ((sa s o.b).toNat % 256)))
  ∧ (∀ o : S3, ScalarResult (.sshr o) o.d fun s =>
      BitVec.ofNat 32 ((sa s o.a).toNat / 2 ^ ((sa s o.b).toNat % 256)))
  ∧ (∀ o : SI, ScalarResult (.saddi o) o.d fun s =>
      BitVec.ofNat 32 ((sa s o.a).toNat + (immOf s.team true o.imm).toNat))
  ∧ (∀ o : SMovI, ScalarResult (.smovi o) o.r fun s => immOf s.team true o.imm)
  ∧ (∀ o : S2, ScalarResult (.smov o) o.d fun s => sa s o.a)

/-- R116: a scalar compare writes its one result to the predicate in every lane from 0 to N-1, active or not. -/
def Sys2Proof.ScalarComparesClaim : Prop :=
  (∀ o : SCmp, ∀ s, RunsLanes (.scmpS o) s → Answers (.scmpS o) s fun t => OnlyWrites s t [] [] [o.p.toNat]
      ∧ ∀ L, L < s.team.rf.n → pa t o.p L = holds o.c (sa s o.a).toInt (sa s o.b).toInt)
  ∧ (∀ o : SCmp, ∀ s, RunsLanes (.scmpU o) s → Answers (.scmpU o) s fun t => OnlyWrites s t [] [] [o.p.toNat]
      ∧ ∀ L, L < s.team.rf.n → pa t o.p L = holds o.c (sa s o.a).toNat (sa s o.b).toNat)

/-- R112 to R117: moves, compares, predicates and the scalar instructions. -/
def Obligations.MovesComparesAndScalars : Prop :=
  (ComparesAndPredicatesClaim ∧ CompareWordsClaim ∧ MovesClaim) ∧ ScalarInstructionsClaim ∧ ScalarComparesClaim

/-! ### Floats -/

/-- A rounding vector instruction that runs under rounding mode `m` writes `f` of the lane's rounding into its active
lanes; beside that register only the generator of the group may change, as the sweeps of R155 advance it. -/
abbrev Sys2Proof.RoundedResult (i : Instr) (g : BitVec 3) (d : BitVec 6) (m : State → RMode) (f : State → (Nat → Rnd) → Nat → Word) :
    Prop :=
  ∀ s, Runs i s → Answers i s fun t =>
    (∀ L, L < s.team.rf.n → va t d L = if (active s.team g).getLsbD L then f s ((sweeps s (m s)).2 L) L else va s d L)
      ∧ OnlyWrites { s with gens := t.gens } t [d.toNat] [] [] ∧ t.gens = (sweeps s (m s)).1.gens

/-- The common rounding mode of R151: HMOD RND, else `%rmode`. -/
abbrev Sys2Proof.commonMode (s : State) : RMode := modeOf s.team

/-- An FP32, BF16 or FP16 operation on each element of a, b and d under `%ftz`. -/
abbrev Sys2Proof.elementwise (o : V3) (c : Nat) (f : Fmt → Rnd → Nat → Nat → Nat → Nat) (s : State) (r : Nat → Rnd) (L : Nat) : Word :=
  let k := (famFmt c).ftz (ftzOf s.team)
  mapElems k.width fun e =>
    f k (r e) (elemOf k.width (va s o.a L) e) (elemOf k.width (va s o.b L) e) (elemOf k.width (va s o.d L) e)

/-- R159 and R162: sum, difference, product and fused product-sum of FP32 lanes, and of the two BF16 or FP16 elements
of a lane, each formed exactly and rounded once to its format. -/
def Sys2Proof.FloatArithmeticClaim : Prop :=
  (∀ o : V3, RoundedResult (.fadd o) o.g o.d commonMode (elementwise o 0 fun k r a b _ => fAdd k r a b))
  ∧ (∀ o : V3, RoundedResult (.fsub o) o.g o.d commonMode (elementwise o 0 fun k r a b _ => fSub k r a b))
  ∧ (∀ o : V3, RoundedResult (.fmul o) o.g o.d commonMode (elementwise o 0 fun k r a b _ => fMul k r a b))
  ∧ (∀ o : V3, RoundedResult (.ffma o) o.g o.d commonMode (elementwise o 0 fFma))
  ∧ (∀ o : V3, RoundedResult (.haddBf o) o.g o.d commonMode (elementwise o 1 fun k r a b _ => fAdd k r a b))
  ∧ (∀ o : V3, RoundedResult (.hmulBf o) o.g o.d commonMode (elementwise o 1 fun k r a b _ => fMul k r a b))
  ∧ (∀ o : V3, RoundedResult (.hfmaBf o) o.g o.d commonMode (elementwise o 1 fFma))
  ∧ (∀ o : V3, RoundedResult (.haddF16 o) o.g o.d commonMode (elementwise o 2 fun k r a b _ => fAdd k r a b))
  ∧ (∀ o : V3, RoundedResult (.hmulF16 o) o.g o.d commonMode (elementwise o 2 fun k r a b _ => fMul k r a b))
  ∧ (∀ o : V3, RoundedResult (.hfmaF16 o) o.g o.d commonMode (elementwise o 2 fFma))

/-- The class bit of an FP32 word (R160), from its sign, exponent field and mantissa. -/
def Sys2Proof.classBit (w : Word) : Nat :=
  let e := w.toNat / 2 ^ 23 % 256
  let m := w.toNat % 2 ^ 23
  if e = 255 then (if m = 0 then (if w.msb then 0 else 7) else if w.getLsbD 22 then 9 else 8)
  else if e = 0 then (if m = 0 then (if w.msb then 3 else 4) else if w.msb then 2 else 5)
  else if w.msb then 1 else 6

/-- The lesser or greater of two values (R160): of one NaN and a number the number, -0 below +0. -/
abbrev Sys2Proof.picked (greater : Bool) (k : Fmt) (a b : Nat) : Nat := if greater then fMax k a b else fMin k a b

/-- A code of FP32, BF16 or FP16 once `%ftz` has flushed a subnormal to the zero of its sign (R154). -/
def Sys2Proof.flushed (c : Nat) (z : Bool) (a : Nat) : Nat :=
  let f := famFmt c
  if z = true ∧ a / 2 ^ f.m % 2 ^ f.e = 0 then a / 2 ^ (f.e + f.m) * 2 ^ (f.e + f.m) else a

/-- What the lesser and the greater of two codes of FP32, BF16 or FP16 are (R160): of two NaNs the canonical one, of one NaN and a number the
number, -0 below +0, and otherwise the code of the lesser or the greater value. -/
def Sys2Proof.PicksClaim : Prop :=
  ∀ (c a b : Nat) (z : Bool), c ≤ 2 → let f := famFmt c
    a < 2 ^ f.width → b < 2 ^ f.width →
    let k := f.ftz z
    let x := k.decode a
    let y := k.decode b
    let both := fun (lo hi : Nat) => picked false k a b = lo ∧ picked false k b a = lo ∧ picked true k a b = hi ∧ picked true k b a = hi
    (x.isNan = true → y.isNan = true → let nan := (2 ^ (f.e + 1) - 1) * 2 ^ (f.m - 1)
      both nan nan)
    ∧ (x.isNan = true → y.isNan = false → both (flushed c z b) (flushed c z b))
    ∧ (x.lt y = true → both (flushed c z a) (flushed c z b))
    ∧ (flushed c z a = 0 → flushed c z b = 2 ^ (f.e + f.m) → both (2 ^ (f.e + f.m)) 0)
    ∧ (x.isNan = false → a = b → both (flushed c z a) (flushed c z a))

/-- R160, R161 and R162: minima and maxima of elements, the one-hot class of a word, and compares, in which a NaN gives 0
for FCMP and 1 for FCMP_UO. No generator moves. -/
def Obligations.FloatSelection : Prop :=
  PicksClaim
  ∧ (∀ o : V3, LaneResult (.fmin o) o.g o.d fun s L => elementwise o 0 (fun k _ a b _ => picked false k a b) s (fun _ => .rne) L)
  ∧ (∀ o : V3, LaneResult (.fmax o) o.g o.d fun s L => elementwise o 0 (fun k _ a b _ => picked true k a b) s (fun _ => .rne) L)
  ∧ (∀ o : V3, LaneResult (.hmaxBf o) o.g o.d fun s L => elementwise o 1 (fun k _ a b _ => picked true k a b) s (fun _ => .rne) L)
  ∧ (∀ o : V3, LaneResult (.hmaxF16 o) o.g o.d fun s L => elementwise o 2 (fun k _ a b _ => picked true k a b) s (fun _ => .rne) L)
  ∧ (∀ o : V2, LaneResult (.fclass o) o.g o.d fun s L => BitVec.ofNat 32 (2 ^ classBit (va s o.a L)))
  ∧ (∀ o : VCmp, PredResult (.fcmp o) o.g o.p fun s L =>
      let a := (fp32.ftz (ftzOf s.team)).decode (va s o.a L).toNat
      let b := (fp32.ftz (ftzOf s.team)).decode (va s o.b L).toNat
      !a.isNan && !b.isNan && condHolds o.c (a.lt b) (!a.lt b && !b.lt a))
  ∧ (∀ o : VCmp, PredResult (.fcmpUo o) o.g o.p fun s L =>
      let a := (fp32.ftz (ftzOf s.team)).decode (va s o.a L).toNat
      let b := (fp32.ftz (ftzOf s.team)).decode (va s o.b L).toNat
      a.isNan || b.isNan || condHolds o.c (a.lt b) (!a.lt b && !b.lt a))

/-- The elements of an N instruction in the format of its number-format register. -/
abbrev Sys2Proof.narrow (o : VN) (k : Fmt) (f : Fmt → Rnd → Nat → Nat → Nat → Nat) (s : State) (r : Nat → Rnd) (L : Nat) : Word :=
  mapElems k.width fun e =>
    f k (r e) (elemOf k.width (va s o.a L) e) (elemOf k.width (va s o.b L) e) (elemOf k.width (va s o.d L) e)

/-- An N instruction over a well-formed number-format register rounds each element. -/
abbrev Sys2Proof.NarrowResult (i : Instr) (o : VN) (f : Fmt → Rnd → Nat → Nat → Nat → Nat) : Prop :=
  ∀ s k, Runs i s → frFmt (frget s.team o.fr.toNat) = some k → Answers i s fun t =>
    (∀ L, L < s.team.rf.n → va t o.d L =
        if (active s.team o.g).getLsbD L then narrow o k f s ((sweeps s (commonMode s)).2 L) L else va s o.d L)
      ∧ OnlyWrites { s with gens := t.gens } t [o.d.toNat] [] [] ∧ t.gens = (sweeps s (commonMode s)).1.gens

/-- As `NarrowResult` for an operation whose result is exact: no generator moves. -/
abbrev Sys2Proof.NarrowExact (i : Instr) (o : VN) (f : Fmt → Nat → Nat → Nat) : Prop :=
  ∀ s k, Runs i s → frFmt (frget s.team o.fr.toNat) = some k → Answers i s fun t =>
    WritesLanes s t (active s.team o.g) o.d.toNat fun L => narrow o k (fun k _ a b _ => f k a b) s (fun _ => .rne) L

/-- R163 and R164: the N instructions compute like their H counterparts in the format of a well-formed number-format
register; NCMP compares element 0, a NaN giving 0. -/
def Sys2Proof.NarrowArithmeticClaim : Prop :=
  (∀ o : VN, NarrowResult (.nadd o) o fun k r a b _ => fAdd k r a b)
  ∧ (∀ o : VN, NarrowResult (.nmul o) o fun k r a b _ => fMul k r a b)
  ∧ (∀ o : VN, NarrowResult (.nfma o) o fFma)
  ∧ (∀ o : VN, NarrowExact (.nmax o) o fMax)
  ∧ (∀ o : VN, NarrowExact (.nmin o) o fMin)
  ∧ (∀ o : VNCmp, ∀ s k, RunsLanes (.ncmp o) s → frFmt (frget s.team o.fr.toNat) = some k → Answers (.ncmp o) s fun t =>
      WritesPred s t (active s.team o.g) o.p.toNat fun L =>
        let a := k.decode (elemOf k.width (va s o.a L) 0)
        let b := k.decode (elemOf k.width (va s o.b L) 0)
        !a.isNan && !b.isNan && condHolds o.c (a.lt b) (!a.lt b && !b.lt a))

/-- R164: an N instruction or CVTN whose number-format register is ill-formed takes a trap of group 4 with reason 1 and the
register's index, and no lane changes before it. -/
def Sys2Proof.IllFormedFormatTrapsClaim : Prop :=
  ∀ (s : State) (i : Instr) (fr : BitVec 2),
    ((∃ o : VN, o.fr = fr ∧ (i = .nadd o ∨ i = .nmul o ∨ i = .nfma o ∨ i = .nmax o ∨ i = .nmin o))
      ∨ (∃ o : VNCmp, o.fr = fr ∧ i = .ncmp o)
      ∨ (∃ o : CvtnOp, o.fr = fr ∧ (i = .cvtn o ∨ i = .cvtnRne o ∨ i = .cvtnRtz o ∨ i = .cvtnSr o))) →
    Ready i s → frFmt (frget s.team fr.toNat) = none →
    exec i s = .next (trapBefore (noteIssue s)
      ⟨4, BitVec.ofNat 32 (1 * 2 ^ 27 + fr.toNat * 2 ^ 24), 0, codeOff s.team s.team.ctl.pc⟩)

/-- R163 and R164: arithmetic in the format of a number-format register, and the trap of an ill-formed one. -/
def Obligations.NarrowArithmetic : Prop := NarrowArithmeticClaim ∧ IllFormedFormatTrapsClaim

/-- R165 and R166: the special functions round their internal result once; SQRT's is the exact root's. -/
def Sys2Proof.SpecialFunctionsClaim : Prop :=
  (∀ o : V2, RoundedResult (.rcp o) o.g o.d commonMode fun s r L => special rcpFn (ftzOf s.team) (r 0) (va s o.a L))
  ∧ (∀ o : V2, RoundedResult (.rsq o) o.g o.d commonMode fun s r L => special rsqFn (ftzOf s.team) (r 0) (va s o.a L))
  ∧ (∀ o : V2, RoundedResult (.sqrt o) o.g o.d commonMode fun s r L => special sqrtFn (ftzOf s.team) (r 0) (va s o.a L))
  ∧ (∀ o : V2, RoundedResult (.tanh o) o.g o.d commonMode fun s r L => special tanhFn (ftzOf s.team) (r 0) (va s o.a L))
  ∧ (∀ o : V2, RoundedResult (.ex2 o) o.g o.d commonMode fun s r L => special ex2Fn (ftzOf s.team) (r 0) (va s o.a L))
  ∧ (∀ o : V2, RoundedResult (.lg2 o) o.g o.d commonMode fun s r L => special lg2Fn (ftzOf s.team) (r 0) (va s o.a L))
  ∧ (∀ o : V2, RoundedResult (.sinp o) o.g o.d commonMode fun s r L => special sinpFn (ftzOf s.team) (r 0) (va s o.a L))
  ∧ (∀ o : V2, RoundedResult (.cosp o) o.g o.d commonMode fun s r L => special cospFn (ftzOf s.team) (r 0) (va s o.a L))

/-- R165 and R166: the edge cases that the spec calls exact, in every rounding. -/
def Sys2Proof.SpecialFunctionEdgesClaim : Prop :=
  ∀ (z : Bool) (r : Rnd),
    special rcpFn z r 0 = 0x7F800000 ∧ special rcpFn z r 0x80000000 = 0xFF800000
    ∧ special rcpFn z r 0x7F800000 = 0 ∧ special rcpFn z r 0xFF800000 = 0x80000000
    ∧ special rcpFn z r 0x00200000 = 0x7F800000
    ∧ special rsqFn z r 0 = 0x7F800000 ∧ special rsqFn z r 0x80000000 = 0xFF800000 ∧ special rsqFn z r 0x7F800000 = 0
    ∧ special sqrtFn z r 0x80000000 = 0x80000000 ∧ special sqrtFn z r 0x7F800000 = 0x7F800000
    ∧ special tanhFn z r 0 = 0 ∧ special tanhFn z r 0x80000000 = 0x80000000
    ∧ special tanhFn z r 0x7F800000 = 0x3F800000 ∧ special tanhFn z r 0xFF800000 = 0xBF800000
    ∧ special ex2Fn z r 0xFF800000 = 0 ∧ special ex2Fn z r 0x43000000 = 0x7F800000 ∧ special ex2Fn z r 0x40400000 = 0x41000000
    ∧ special lg2Fn z r 0 = 0xFF800000 ∧ special lg2Fn z r 0x7F800000 = 0x7F800000 ∧ special lg2Fn z r 0x41000000 = 0x40400000
    ∧ special sinpFn z r 0x80000000 = 0x80000000 ∧ special sinpFn z r 0x3F000000 = 0x3F800000
    ∧ special cospFn z r 0x3F800000 = 0xBF800000 ∧ special cospFn z r 0x3F000000 = 0
    ∧ ∀ w : Word, fp32.decode w.toNat = .nan →
        special rcpFn z r w = 0x7FC00000 ∧ special rsqFn z r w = 0x7FC00000 ∧ special sqrtFn z r w = 0x7FC00000
        ∧ special tanhFn z r w = 0x7FC00000 ∧ special ex2Fn z r w = 0x7FC00000 ∧ special lg2Fn z r w = 0x7FC00000
        ∧ special sinpFn z r w = 0x7FC00000 ∧ special cospFn z r w = 0x7FC00000

/-- The real number an FP32 word stands for; no number is that of an infinity or a NaN. -/
def Sys2Proof.IsReal (w : Word) (y : ℝ) : Prop :=
  match fp32.decode w.toNat with
  | .fin s n q x => y = (if s then -1 else 1) * ((n : ℝ) / q) * 2 ^ x
  | _ => False

/-- A special function's result at `w` is within `b` of the real number `y` where it rounds to nearest, and within one place of the result more in
the other modes (R165). -/
def Sys2Proof.Within (g : Special) (r : Rnd) (w : Word) (y b : ℝ) : Prop :=
  let u := special g false r w
  let place : ℝ := 2 ^ (((max (u.toNat / 2 ^ 23 % 256) 1 : ℕ) : ℤ) - 150)
  (r.mode = .rne → ∃ v, IsReal u v) ∧ ∀ v, IsReal u v → |v - y| ≤ b + if r.mode = .rne then 0 else place

/-- R165 and R166: RCP and RSQ are within a relative 2^-22 where the result is normal, RCP within one place of the subnormal grid below it; SQRT
is correctly rounded in every mode. -/
def Sys2Proof.RootAndReciprocalBounds : Prop :=
  ∀ (r : Rnd) (w : Word) (x : ℝ), IsReal w x →
    (x ≠ 0 → 2 ^ (-126 : ℤ) ≤ |x⁻¹| → |x⁻¹| ≤ (2 ^ 24 - 1) * 2 ^ 104 → Within rcpFn r w x⁻¹ (2 ^ (-22 : ℤ) * |x⁻¹|))
    ∧ (x ≠ 0 → |x⁻¹| < 2 ^ (-126 : ℤ) → Within rcpFn r w x⁻¹ (2 ^ (-149 : ℤ)))
    ∧ (0 < x → Within rsqFn r w (√x)⁻¹ (2 ^ (-22 : ℤ) * (√x)⁻¹))
    ∧ (0 < x → ∃ v, IsReal (special sqrtFn false r w) v ∧ ∀ w' v', IsReal w' v' →
        (r.mode = .rne → |v - √x| ≤ |v' - √x|)
        ∧ (r.mode = .rtz ∨ r.mode = .rdn → v ≤ √x ∧ (v' ≤ √x → v' ≤ v))
        ∧ (r.mode = .rup → √x ≤ v ∧ (√x ≤ v' → v ≤ v')))

/-- R165 and R166: the special functions, their edge cases, and the bounds of RCP, RSQ and SQRT. -/
def Obligations.SpecialFunctions : Prop := SpecialFunctionsClaim ∧ SpecialFunctionEdgesClaim ∧ RootAndReciprocalBounds

/-- R165: the bounds of TANH, EX2, LG2, SINP and COSP: TANH within 2^-21 and never above 1, EX2 within a relative 2^-22 or one place of the
subnormal grid, LG2 within 2^-22 about 1 and a relative 2^-22 elsewhere, SINP and COSP within 2^-21. Which value inside its bound a result is,
is free (log 7). -/
def Obligations.SpecialFunctionBounds : Prop :=
  ∀ (r : Rnd) (w : Word) (x : ℝ), IsReal w x →
    (Within tanhFn r w (Real.tanh x) (2 ^ (-21 : ℤ)) ∧ ∃ v, IsReal (special tanhFn false r w) v ∧ |v| ≤ 1)
    ∧ (-150 ≤ x → x < 128 → Within ex2Fn r w (2 ^ x) (if (2 : ℝ) ^ (-126 : ℤ) ≤ 2 ^ x then 2 ^ (-22 : ℤ) * 2 ^ x else 2 ^ (-149 : ℤ)))
    ∧ (0 < x → Within lg2Fn r w (Real.logb 2 x) (if 1 / 2 ≤ x ∧ x ≤ 2 then 2 ^ (-22 : ℤ) else 2 ^ (-22 : ℤ) * |Real.logb 2 x|))
    ∧ Within sinpFn r w (Real.sin (Real.pi * x)) (2 ^ (-21 : ℤ)) ∧ Within cospFn r w (Real.cos (Real.pi * x)) (2 ^ (-21 : ℤ))

/-- The input and output slots of a CVT. -/
abbrev Sys2Proof.slotIn (s : State) (o : CvtOp) : Slot := slotOf (fsget s.team o.fin.toNat)
abbrev Sys2Proof.slotOut (s : State) (o : CvtOp) : Slot := slotOf (fsget s.team o.fout.toNat)

/-- A CVT writes the converted elements of each lane's word, rounding under `m`. -/
abbrev Sys2Proof.CvtResult (i : Instr) (o : CvtOp) (m : State → RMode) : Prop :=
  RoundedResult i o.g o.d m fun s r L => cvtWord (slotIn s o) (slotOut s o) (ftzOf s.team) r (va s o.a L)

/-- A CVTN through a well-formed number-format register: .NAR rounds the FP32 value into element 0 and leaves the rest
of the word zero, .F32 decodes element 0 into FP32. -/
abbrev Sys2Proof.CvtnResult (i : Instr) (o : CvtnOp) (m : State → RMode) : Prop :=
  ∀ s k, Runs i s → frFmt (frget s.team o.fr.toNat) = some k → Answers i s fun t =>
    (∀ L, L < s.team.rf.n → va t o.d L = if (active s.team o.g).getLsbD L then
        (let f := fp32.ftz (ftzOf s.team)
         let r := (sweeps s (m s)).2 L 0
         if o.f32 then BitVec.ofNat 32 (f.encode r false (k.decode ((va s o.a L).toNat % 2 ^ k.width)))
         else BitVec.ofNat 32 (k.encode r false (f.decode (va s o.a L).toNat)))
      else va s o.d L)
    ∧ OnlyWrites { s with gens := t.gens } t [o.d.toNat] [] [] ∧ t.gens = (sweeps s (m s)).1.gens

/-- An integer value of a lane as FP32 and back (R167). -/
abbrev Sys2Proof.fromInt (s : State) (r : Rnd) (x : Int) : Word :=
  BitVec.ofNat 32 ((fp32.ftz (ftzOf s.team)).encode r false (.fin (decide (x < 0)) x.natAbs 1 0))

/-- R151, R167, R168 and R169: conversions between slots, through a number-format register, and between integers and
FP32. fn 0 to 2 round as they say, CVT with fn 3 as the output slot's ROUND, CVTN with fn 3 as `%rmode`. -/
def Sys2Proof.ConversionsClaim : Prop :=
  (∀ o, CvtResult (.cvtRne o) o fun _ => .rne) ∧ (∀ o, CvtResult (.cvtRtz o) o fun _ => .rtz)
  ∧ (∀ o, CvtResult (.cvtSr o) o fun _ => .sr)
  ∧ (∀ o, CvtResult (.cvt o) o fun s => match (slotOut s o).round with | 0 => .rne | 1 => .rtz | _ => .sr)
  ∧ (∀ o, CvtnResult (.cvtnRne o) o fun _ => .rne) ∧ (∀ o, CvtnResult (.cvtnRtz o) o fun _ => .rtz)
  ∧ (∀ o, CvtnResult (.cvtnSr o) o fun _ => .sr) ∧ (∀ o, CvtnResult (.cvtn o) o fun s => rmodeOf s.team.sp.rmode.toNat)
  ∧ (∀ o : V2, RoundedResult (.i2fS o) o.g o.d commonMode fun s r L => fromInt s (r 0) (va s o.a L).toInt)
  ∧ (∀ o : V2, RoundedResult (.i2fU o) o.g o.d commonMode fun s r L => fromInt s (r 0) (va s o.a L).toNat)
  ∧ (∀ o : V2, RoundedResult (.f2iS o) o.g o.d commonMode fun s r L =>
      BitVec.ofInt 32 (f2i (r 0) (-2147483648) 2147483647 ((fp32.ftz (ftzOf s.team)).decode (va s o.a L).toNat)))
  ∧ (∀ o : V2, RoundedResult (.f2iU o) o.g o.d commonMode fun s r L =>
      BitVec.ofInt 32 (f2i (r 0) 0 4294967295 ((fp32.ftz (ftzOf s.team)).decode (va s o.a L).toNat)))

/-- R167: F2I clamps after rounding, a NaN gives 0 and an infinity the limit of its sign; a finite value lies between the
limits and, where its rounded integer does, is that integer. -/
def Sys2Proof.FloatToIntegerClaim : Prop :=
  ∀ (r : Rnd) (lo hi : Int), lo ≤ 0 → 0 ≤ hi →
    f2i r lo hi .nan = 0 ∧ f2i r lo hi (.inf false) = hi ∧ f2i r lo hi (.inf true) = lo
    ∧ ∀ neg n q x, lo ≤ f2i r lo hi (.fin neg n q x) ∧ f2i r lo hi (.fin neg n q x) ≤ hi
      ∧ (lo ≤ roundInt r neg n q x → roundInt r neg n q x ≤ hi → f2i r lo hi (.fin neg n q x) = roundInt r neg n q x)

/-- R151, R154 and R167 to R169: the conversions, and what F2I makes of a value. That CVTN.F32 rounds a value FP32 cannot hold, and advances the
generator under stochastic rounding, is the model's choice (log 97); that F2I reads a subnormal as zero under `%ftz` is its reading (log 15). -/
def Obligations.Conversions : Prop := ConversionsClaim ∧ FloatToIntegerClaim

/-- R170: PLX gathers bit P-1-j of the 32 lanes of its block into a word, PLD puts bit L mod 32 of P plane words together
and extends the sign; a lane with P outside 2 to 8, or j at or past P in PLX, gets 0. Every lane supplies its sources. -/
def Sys2Proof.BitPlanesClaim : Prop :=
  (∀ o : V3, ∀ s, Runs (.plx o) s → Answers (.plx o) s fun t =>
      OnlyWrites s t [o.d.toNat] [] [] ∧ ∀ L, L < s.team.rf.n → (active s.team o.g).getLsbD L = true →
        let j := (va s o.b L).toNat % 16
        let p := (va s o.b L).toNat / 16 % 16
        if p < 2 ∨ 8 < p ∨ p ≤ j then va t o.d L = 0
        else ∀ i, i < 32 → (va t o.d L).getLsbD i = (va s o.a (L / 32 * 32 + i)).getLsbD (p - 1 - j))
  ∧ (∀ o : V3, ∀ s, Runs (.pld o) s → Answers (.pld o) s fun t =>
      OnlyWrites s t [o.d.toNat] [] [] ∧ ∀ L, L < s.team.rf.n → (active s.team o.g).getLsbD L = true →
        let p := (va s o.b L).toNat / 16 % 16
        if p < 2 ∨ 8 < p then va t o.d L = 0
        else ∀ i, i < 32 → (va t o.d L).getLsbD i = (va s o.a (L / 32 * 32 + (p - 1 - min i (p - 1)))).getLsbD (L % 32))

/-- R171: FRW writes a scalar into a number-format register without a check, and nothing else. -/
def Sys2Proof.FormatRegisterWriteClaim : Prop :=
  ∀ (o : FrwOp) (s : State), Runs (.frw o) s → Answers (.frw o) s fun t =>
    frget t.team o.fr.toNat = sa s o.a ∧ (∀ k, k ≠ o.fr.toNat → frget t.team k = frget s.team k)
      ∧ OnlyWrites { s with team := { s.team with rf := { s.team.rf with fr := t.team.rf.fr } } } t [] [] []

/-- R170 and R171: bit planes, and the write of a number-format register. -/
def Obligations.BitPlanesAndFormats : Prop := BitPlanesClaim ∧ FormatRegisterWriteClaim

/-- R151 and R155: a magnitude num / den × 2^u is cut to a multiple of 2^u. RTZ keeps the quotient, RUP and RDN go up
for their sign when anything is cut, RNE goes to the nearer neighbour and from the middle to the even one, and the stochastic
mode compares the first k cut bits with its draw; an exact magnitude never moves. -/
def Sys2Proof.RoundingModesClaim : Prop :=
  ∀ (r : Rnd) (neg : Bool) (n q : Nat) (x u : Int), 0 < q →
    let num := n * 2 ^ (x - u).toNat
    let den := q * 2 ^ (u - x).toNat
    let i := (roundGrid r neg n q x u).1
    (num % den = 0 → i = num / den)
    ∧ (r.mode = .rtz → i = num / den)
    ∧ (r.mode = .rup → i = if num % den ≠ 0 ∧ neg = false then num / den + 1 else num / den)
    ∧ (r.mode = .rdn → i = if num % den ≠ 0 ∧ neg = true then num / den + 1 else num / den)
    ∧ (r.mode = .rne → 2 * num ≤ 2 * (i * den) + den ∧ 2 * (i * den) ≤ 2 * num + den
        ∧ (2 * num = 2 * (i * den) + den ∨ 2 * (i * den) = 2 * num + den → i % 2 = 0))
    ∧ (r.mode = .sr → r.kmax = 32 → n % q = 0 → 0 < (u - x).toNat → num % den ≠ 0 →
        let k := min 32 (u - x).toNat
        i = if 2 ^ k ≤ num % den * 2 ^ k / den + r.draw % 2 ^ k then num / den + 1 else num / den)

/-- A function applied again and again. -/
def Sys2Proof.again {α : Type} (f : α → α) : Nat → α → α
  | 0, x => x
  | n + 1, x => again f n (f x)

/-- R155: outside the stochastic mode no generator moves. In it the generator of the team's own group advances once for each
mask word that is not zero, in ascending order; lane L of the j-th such word takes its draw from the generator after j + 1
advances, rotated by 2 (L mod 32) + 8 e; other groups' generators stay. -/
def Sys2Proof.StochasticDrawsClaim : Prop :=
  ∀ (s : State), (∀ m, m ≠ RMode.sr → (sweeps s m).1 = s ∧ ∀ L e, (sweeps s m).2 L e = ⟨m, 0, 32⟩)
    ∧ (let ws := (List.range 32).filter fun w => maskWord s.team.ctl.mask w != 0
       let g := 4 * s.team.pl.core + s.team.pl.group
       genOf (sweeps s .sr).1 g = again advGen ws.length (genOf s g)
       ∧ (∀ h, h ≠ g → genOf (sweeps s .sr).1 h = genOf s h)
       ∧ ∀ j w, ws[j]? = some w → ∀ L e, L / 32 = w →
          (sweeps s .sr).2 L e = ⟨.sr, ((again advGen (j + 1) (genOf s g)).rotateLeft ((2 * (L % 32) + 8 * e) % 64)).toNat, 32⟩)

/-- R151 and R155: the rounding modes and the draws of stochastic rounding. -/
def Obligations.RoundingAndDraws : Prop := RoundingModesClaim ∧ StochasticDrawsClaim

/-- R152, R153 and R159: a NaN operand makes an FP32 sum, difference, product or fused sum the canonical NaN, and so do the
difference of two infinities of one sign and the product of an infinity and a zero, in every rounding. -/
def Sys2Proof.FloatNaNsClaim : Prop :=
  ∀ (z : Bool) (r : Rnd) (a b d : Nat),
    let k := fp32.ftz z
    let nan : Nat := 0x7FC00000
    (k.decode a = .nan ∨ k.decode b = .nan → fAdd k r a b = nan ∧ fSub k r a b = nan ∧ fMul k r a b = nan)
    ∧ (k.decode a = .nan ∨ k.decode b = .nan ∨ k.decode d = .nan → fFma k r a b d = nan)
    ∧ (∀ n, k.decode a = .inf n → k.decode b = .inf n → fSub k r a b = nan)
    ∧ (∀ n m, k.decode a = .inf n → k.decode b = .inf m → n ≠ m → fAdd k r a b = nan)
    ∧ (∀ n m q x, k.decode a = .inf n → k.decode b = .fin m 0 q x → fMul k r a b = nan ∧ fMul k r b a = nan)

/-- R152, R153 and R159: FP32, BF16 and FP16 arithmetic, and its NaNs. -/
def Obligations.FloatArithmetic : Prop := FloatArithmeticClaim ∧ FloatNaNsClaim

/-! ### Lanes -/

/-- R132 and R133: SHFL reads its source lane in every active lane; the operand is b's lane or N / 2^k. -/
def Obligations.Shuffles : Prop :=
  let arg := fun (s : State) (o : V3) (L : Nat) => if o.eb then s.team.rf.n / 2 ^ o.b.toNat else (va s o.b L).toNat
  (∀ o : V3, LaneResult (.shflIdx o) o.g o.d fun s L => va s o.a (arg s o L % s.team.rf.n))
  ∧ (∀ o : V3, LaneResult (.shflXor o) o.g o.d fun s L => va s o.a (L ^^^ (arg s o L % s.team.rf.n)))
  ∧ (∀ o : V3, LaneResult (.shflUp o) o.g o.d fun s L => va s o.a (if arg s o L > L then L else L - arg s o L))
  ∧ (∀ o : V3, LaneResult (.shflDn o) o.g o.d fun s L => va s o.a (if L + arg s o L ≥ s.team.rf.n then L else L + arg s o L))

/-- R134: VOTE_ANY and VOTE_ALL write one bit to every lane from 0 to N-1, VOTE_BAL the number of active lanes in which the
predicate is true; with no active lane ANY gives 0 and ALL gives 1. -/
def Sys2Proof.VotesClaim : Prop :=
  let act := fun (s : State) (g : BitVec 3) (L : Nat) => (active s.team g).getLsbD L
  (∀ o : VoteOp, ∀ s, RunsLanes (.voteAny o) s → Answers (.voteAny o) s fun t => OnlyWrites s t [] [] [o.d.toNat]
      ∧ ∀ K, K < s.team.rf.n → (pa t o.d K = true ↔ ∃ L, act s o.g L = true ∧ pa s o.a L = true))
  ∧ (∀ o : VoteOp, ∀ s, RunsLanes (.voteAll o) s → Answers (.voteAll o) s fun t => OnlyWrites s t [] [] [o.d.toNat]
      ∧ ∀ K, K < s.team.rf.n → (pa t o.d K = true ↔ ∀ L, act s o.g L = true → pa s o.a L = true))
  ∧ (∀ o : VoteBalOp, ScalarResult (.voteBal o) o.d fun s =>
      BitVec.ofNat 32 ((List.range s.team.rf.n).countP fun L => act s o.g L && pa s o.a L))

/-- Level `j` of the reduction tree of R135 at lane `L`. -/
def Sys2Proof.treeAt (op : Word → Word → Word) (x : Nat → Word) : Nat → Nat → Word
  | 0, L => x L
  | j + 1, L => op (treeAt op x j L) (treeAt op x j (L + 2 ^ j))

/-- Step `j` of the prefix of R136 at lane `L`. -/
def Sys2Proof.scanAt (op : Word → Word → Word) (x : Nat → Word) : Nat → Nat → Word
  | 0, L => x L
  | j + 1, L => if 2 ^ j ≤ L then op (scanAt op x j (L - 2 ^ j)) (scanAt op x j L) else scanAt op x j L

/-- A lane's term: its value of a, or the identity where it is not active. -/
abbrev Sys2Proof.term (s : State) (o : V2) (id : Word) (L : Nat) : Word := if (active s.team o.g).getLsbD L then va s o.a L else id

/-- A reduction writes the root of the tree over N lanes into every active lane; a scan each lane's prefix. -/
abbrev Sys2Proof.TreeResult (i : Instr) (o : V2) (op : State → Word → Word → Word) (id : Word) : Prop :=
  ∀ s, RunsLanes i s → Answers i s fun t =>
    WritesLanes s t (active s.team o.g) o.d.toNat fun _ => treeAt (op s) (term s o id) s.team.rf.n.log2 0
abbrev Sys2Proof.ScanResult (i : Instr) (o : V2) (op : State → Word → Word → Word) (id : Word) : Prop :=
  ∀ s, RunsLanes i s → Answers i s fun t =>
    WritesLanes s t (active s.team o.g) o.d.toNat fun L => scanAt (op s) (term s o id) s.team.rf.n.log2 L

/-- The FP32 operations of a node: RNE, RLOG's under `%ftz` (R154). -/
abbrev Sys2Proof.addExact (a b : Word) : Word := BitVec.ofNat 32 (fAdd fp32 .rne a.toNat b.toNat)
abbrev Sys2Proof.addNode (s : State) (a b : Word) : Word := BitVec.ofNat 32 (fAdd (fp32.ftz (ftzOf s.team)) .rne a.toNat b.toNat)
abbrev Sys2Proof.maxNode (s : State) (a b : Word) : Word := BitVec.ofNat 32 (fMax (fp32.ftz (ftzOf s.team)) a.toNat b.toNat)
abbrev Sys2Proof.maxSigned (a b : Word) : Word := BitVec.ofInt 32 (max a.toInt b.toInt)

/-- R135, R136 and R154: the fixed reduction tree over lane numbers and the inclusive prefix, inactive lanes giving the identity. That
SCAN.FADD computes subnormals exactly under `%ftz`, where RLOG.FADD reads them as zero, is the model's reading (log 15). -/
def Obligations.ReductionsAndScans : Prop :=
  (∀ o, TreeResult (.rlogIadd o) o (fun _ a b => a + b) 0)
  ∧ (∀ o, TreeResult (.rlogImaxS o) o (fun _ => maxSigned) 0x80000000)
  ∧ (∀ o, TreeResult (.rlogFadd o) o addNode 0x80000000)
  ∧ (∀ o, TreeResult (.rlogFmax o) o maxNode 0xFF800000)
  ∧ (∀ o, ScanResult (.scanIadd o) o (fun _ a b => a + b) 0)
  ∧ (∀ o, ScanResult (.scanFadd o) o (fun _ => addExact) 0x80000000)

/-- R137: ELECT sets its predicate in the lowest active lane and clears it in every other; MSKRD reads a mask word, the
summary word for 32, and 0 past it, whatever the guard. -/
def Sys2Proof.ElectAndMaskClaim : Prop :=
  (∀ o : GP, ∀ s, RunsLanes (.elect o) s → Answers (.elect o) s fun t => OnlyWrites s t [] [] [o.d.toNat]
      ∧ ∀ L, L < s.team.rf.n → (pa t o.d L = true ↔ (active s.team o.g).getLsbD L = true
          ∧ ∀ K, K < L → (active s.team o.g).getLsbD K = false))
  ∧ (∀ o : S2, ∀ s, Runs (.mskrd o) s → Answers (.mskrd o) s fun t => OnlyWrites s t [] [o.d.toNat] []
      ∧ ((sa s o.a).toNat < 32 → ∀ i, i < 32 → (sa t o.d).getLsbD i = s.team.ctl.mask.getLsbD (32 * (sa s o.a).toNat + i))
      ∧ ((sa s o.a).toNat = 32 → ∀ w, w < 32 →
          ((sa t o.d).getLsbD w = true ↔ ∃ i, i < 32 ∧ s.team.ctl.mask.getLsbD (32 * w + i) = true))
      ∧ (32 < (sa s o.a).toNat → sa t o.d = 0))

/-- R134 and R137: the words of VOTE, ELECT and MSKRD, the fields' roles (R64, R74), and the scalar VOTE_BAL waits for. -/
def Sys2Proof.VoteWordsClaim : Prop :=
  (∀ w, fMaj w = 0x31 → fB w = 0 → fEa w = false → fEb w = false →
      let p := fun (f : BitVec 6) => f.toNat < 7
      (fFn w = 0 → decode w = if p (fD w) ∧ p (fA w) then .ok (.voteAny ⟨fG w, toP (fD w), toP (fA w)⟩) else .error .reservedField)
      ∧ (fFn w = 1 → decode w = if p (fD w) ∧ p (fA w) then .ok (.voteAll ⟨fG w, toP (fD w), toP (fA w)⟩) else .error .reservedField)
      ∧ (fFn w = 2 → decode w = if (fD w).toNat < 32 ∧ p (fA w) then .ok (.voteBal ⟨fG w, toS (fD w), toP (fA w)⟩) else .error .reservedField))
  ∧ (∀ w, fMaj w = 0x31 → fFn w = 3 → decode w = .error .reservedFn)
  ∧ (∀ w, fMaj w = 0x33 → fB w = 0 → fEa w = false → fEb w = false →
      (fFn w = 2 → fA w = 0 → decode w = if (fD w).toNat < 7 then .ok (.elect ⟨fG w, toP (fD w)⟩) else .error .reservedField)
      ∧ (fFn w = 3 → decode w = if fG w ≠ 7 then .error .guardMisuse else if (fD w).toNat < 32 ∧ (fA w).toNat < 32 then
          .ok (.mskrd ⟨toS (fD w), toS (fA w), false⟩) else .error .reservedField))
  ∧ ∀ (o : VoteBalOp) (s : State), (usesNow (.voteBal o) s).sd = [o.d.toNat]

/-- R134 and R137: votes, the election of a lane and the mask read as words. -/
def Obligations.VotesAndElections : Prop := VotesClaim ∧ ElectAndMaskClaim ∧ VoteWordsClaim

/-! ### Control -/

/-- The frame of an instruction that changes only the team's control state, which becomes `c`. -/
def Sys2Proof.OnlyControl (s t : State) (c : Control) : Prop :=
  WorldKept s t ∧ TeamKept s.team t.team ∧ RegsKept s.team t.team [] [] [] ∧ t.team.sp = s.team.sp ∧ t.team.ctl = c
    ∧ t.team.wait = .ready ∧ BytesKept s t

/-- The control state with another program counter, the hint run used up. -/
abbrev Sys2Proof.at_ (s : State) (pc : DWord) : Control := { s.team.ctl with pc := pc, hints := none }

/-- The next word's address. -/
abbrev Sys2Proof.nextPc (s : State) : DWord := s.team.ctl.pc + 4

/-- Going to `a` leaves no live loop (R130). -/
def Sys2Proof.StaysInLoops (s : State) (a : DWord) : Prop :=
  ∀ f ∈ s.team.ctl.loops, inBody f s.team.ctl.pc = true → inBody f a = true

/-- An instruction that issues, the team not single stepping (R396). -/
def Sys2Proof.Issues (i : Instr) (s : State) : Prop := Ready i s ∧ stepping s.team = false

/-- An instruction that issues in a straight line: the team is not single stepping and its word ends no live loop's body. -/
def Sys2Proof.FallsOn (i : Instr) (s : State) : Prop := Ready i s ∧ Straight s

/-- The loop buffer once only the loops `fs` are live (R131). -/
def Sys2Proof.bufferOf (s : State) (fs : List LoopFrame) : List (DWord × Word) :=
  s.team.ctl.buffer.filter fun x => fs.any fun f => inBody f x.1

/-- The target of a B-form word: pc + 4 × the signed 22-bit offset (R63). -/
abbrev Sys2Proof.targetOf (s : State) (off : BitVec 22) : DWord := s.team.ctl.pc + BitVec.ofInt 64 (4 * off.toInt)

/-- The address of a code offset: code base plus the unsigned offset (R125). -/
abbrev Sys2Proof.codeAt (s : State) (x : Word) : DWord := BitVec.ofNat 64 (s.team.pl.codebase.toNat + x.toNat)

/-- R124, R125 and R126: branches, calls and NOP. BR is taken when it has no guard or some active lane, BR_ALL when it has no
guard or the mask is not empty and every lane of it is active; CALL puts the code offset of the next word into s31; RET and
JMP go to the code offset in s31 or the named scalar. Nothing else changes. -/
def Sys2Proof.BranchesClaim : Prop :=
  (∀ o : BrOp, ∀ s, Issues (.br o) s → StaysInLoops s (targetOf s o.off) → Answers (.br o) s fun t =>
      ((o.g = 7 ∨ ∃ L, (active s.team o.g).getLsbD L = true) → OnlyControl s t (at_ s (targetOf s o.off)))
      ∧ (¬(o.g = 7 ∨ ∃ L, (active s.team o.g).getLsbD L = true) → Straight s → OnlyControl s t (at_ s (nextPc s))))
  ∧ (∀ o : BrOp, ∀ s, Issues (.brAll o) s → StaysInLoops s (targetOf s o.off) → Answers (.brAll o) s fun t =>
      let all := o.g = 7 ∨ (s.team.ctl.mask ≠ 0 ∧ ∀ L, s.team.ctl.mask.getLsbD L = true → (active s.team o.g).getLsbD L = true)
      (all → OnlyControl s t (at_ s (targetOf s o.off))) ∧ (¬all → Straight s → OnlyControl s t (at_ s (nextPc s))))
  ∧ (∀ o : CallOp, ∀ s, Issues (.call o) s → Shaped s.team → Answers (.call o) s fun t =>
      Frame t s [] [31] [] (targetOf s o.off) ∧ BytesKept s t ∧ sget t.team 31 = loHalf (nextPc s - s.team.pl.codebase))
  ∧ (∀ s, Issues .ret s → s.team.kind ≠ .stratum → (sget s.team 31).toNat % 4 = 0 → Answers .ret s fun t =>
      OnlyControl s t (at_ s (codeAt s (sget s.team 31))))
  ∧ (∀ o : S1, ∀ s, Issues (.jmp o) s → (sa s o.a).toNat % 4 = 0 → StaysInLoops s (codeAt s (sa s o.a)) →
      Answers (.jmp o) s fun t => OnlyControl s t (at_ s (codeAt s (sa s o.a))))
  ∧ (∀ s, FallsOn .nop s → Answers .nop s fun t => OnlyControl s t (at_ s (nextPc s)))

/-- R125: RET and JMP to an offset that is no multiple of 4 take a trap of group 3 with reason 5 and the offset in its
second word. -/
def Sys2Proof.MisalignedTargetsTrapClaim : Prop :=
  (∀ s, Ready .ret s → s.team.kind ≠ .stratum → (sget s.team 31).toNat % 4 ≠ 0 →
      exec .ret s = .next (trapBefore (noteIssue s) (trap3 s.team 5 (sget s.team 31))))
  ∧ (∀ o : S1, ∀ s, Ready (.jmp o) s → (sa s o.a).toNat % 4 ≠ 0 →
      exec (.jmp o) s = .next (trapBefore (noteIssue s) (trap3 s.team 5 (sa s o.a))))

/-- The last byte that a list of cells, in order, puts at an address. -/
def Sys2Proof.lastAt (cs : List Host.Cell) (a : Nat) : Option Byte := (cs.reverse.find? fun c => c.1 == a).map fun c => c.2

/-- A block run has ended (R320, R321): its stores reach HBM, v11 to v15 are kept for the channel, the channel has no block run. -/
def Sys2Proof.EndsBlock (s t : State) (b : BlockRun) : Prop :=
  t.team = { s.team with stage := .ended, wait := .ready, book := t.team.book }
    ∧ t.ms = commitBelow s.ms b.buffer ∧ (∀ a, memGet t.ms.mem a = (lastAt b.buffer a).getD (memGet s.ms.mem a))
    ∧ blockOf t = none ∧ t.strat.runs = s.strat.runs
    ∧ t.strat.kept = (s.team.pl.core, (List.range 5).map fun k => s.team.rf.v.getD (11 + k) [])
        :: s.strat.kept.filter fun x => x.1 != s.team.pl.core

/-- A wavefront stops at a stratum fault (R323): its block run is over with nothing of it in HBM, its node has failed, and an event with the
reason is noted. -/
def Sys2Proof.StopsBlock (s t : State) (b : BlockRun) (reason : Nat) : Prop :=
  t.team.stage = .ended ∧ t.ms = s.ms ∧ blockOf t = none ∧ t.strat.kept = s.strat.kept
    ∧ (∀ r ∈ t.strat.runs, r.graph = b.graph → r.node = b.node → r.failed = true)
    ∧ ∃ p, t.host.events = s.host.events ++ [⟨2, 2 ^ 24 + s.team.pl.core, p⟩] ∧ p.getD 0 0 = BitVec.ofNat 8 reason

/-- R130 and R323: a taken branch out of the innermost live loop ends it: the mask and the stack are those of the loop's entry, and the loop
counter stays as it was (log 21); a branch out of it from inside an IF traps with group 3 reason 5, and on a stratum wavefront is fault 3. -/
def Sys2Proof.BranchOutOfLoopClaim : Prop :=
  ∀ (o : BrOp) (s : State) (fs : List LoopFrame) (f : LoopFrame), Issues (.br o) s → o.g = 7 → s.team.ctl.loops = fs ++ [f] →
    inBody f s.team.ctl.pc = true → inBody f (targetOf s o.off) = false →
    (∀ h ∈ fs, inBody h s.team.ctl.pc = true → inBody h (targetOf s o.off) = true) →
    (∀ e st, s.team.ctl.stack = e :: st → e.kind = .loopK → Answers (.br o) s fun t =>
      OnlyControl s t { s.team.ctl with pc := targetOf s o.off, hints := none, mask := e.mask, stack := st, loops := fs, buffer := bufferOf s fs })
    ∧ (∀ e st, s.team.ctl.stack = e :: st → e.kind ≠ .loopK →
      exec (.br o) s = .next (trapBefore (noteIssue s) (trap3 s.team 5 (loHalf (targetOf s o.off - s.team.pl.codebase))))
        ∧ ∀ b, s.team.kind = .stratum → blockOf s = some b → Answers (.br o) s fun t => StopsBlock s t b 3)

/-- R121, R126 and R321: EXIT takes its active lanes out of the mask and of every stack entry for good. With lanes left the team
goes on; with none left a core team waits to end, and a stratum wavefront's block run ends. In handler mode EXIT ends the grid instead. -/
def Sys2Proof.ExitsClaim : Prop :=
  ∀ (o : GOnly) (s : State), Issues (.exit o) s → s.team.handler = none →
    let gone := active s.team o.g
    let mask := s.team.ctl.mask &&& ~~~gone
    let stack := s.team.ctl.stack.map fun e => { e with mask := e.mask &&& ~~~gone }
    ((mask ≠ 0 ∨ ∃ e ∈ stack, e.mask ≠ 0) → Straight s → Answers (.exit o) s fun t =>
      OnlyControl s t { at_ s (nextPc s) with mask := mask, stack := stack })
    ∧ (∀ b, (mask = 0 ∧ ∀ e ∈ stack, e.mask = 0) → s.team.kind = .stratum → Invariant s → blockOf s = some b →
        Answers (.exit o) s fun t => EndsBlock s t b)
    ∧ ((mask = 0 ∧ ∀ e ∈ stack, e.mask = 0) → s.team.kind ≠ .stratum → Answers (.exit o) s fun t =>
      t.team.wait = .ending ∧ t.team.ctl = { at_ s (nextPc s) with mask := mask, stack := stack } ∧ WorldKept s t
        ∧ TeamKept s.team t.team ∧ RegsKept s.team t.team [] [] [] ∧ BytesKept s t)

/-- R121, R124 to R126, R130, R321 and R323: branches, calls, returns and jumps, misaligned targets, branches out of a loop, and EXIT. That the
counter of a loop left by a branch stays is the model's reading (log 21). -/
def Obligations.BranchesAndExits : Prop := BranchesClaim ∧ MisalignedTargetsTrapClaim ∧ BranchOutOfLoopClaim ∧ ExitsClaim

/-- R86, R119, R122, R321 and R323: IF pushes the mask and narrows it to its predicate; ELSE turns the entry into an ELSE entry and takes the
lanes that were not in the mask; ENDIF pops the entry and restores its mask. A full stack, of 8 entries or of a wavefront's 4, makes IF trap
with group 3 reason 1, an entry of another kind or no entry makes ELSE and ENDIF trap with reason 2; on a stratum wavefront each of these is
stratum fault 2. -/
def Obligations.IfElseEndif : Prop :=
  let room := fun (s : State) => s.team.ctl.stack.length < if s.team.kind = .stratum then 4 else 8
  (∀ o : GOnly, ∀ s, FallsOn (.ifP o) s → room s → Answers (.ifP o) s fun t =>
      OnlyControl s t { at_ s (nextPc s) with
        mask := s.team.ctl.mask &&& pset s.team o.g.toNat
        stack := { mask := s.team.ctl.mask, kind := .ifK } :: s.team.ctl.stack })
  ∧ (∀ (i : Instr) (s : State) (b : BlockRun), Ready i s → s.team.kind = .stratum → blockOf s = some b →
      (∃ o, i = .ifP o ∧ ¬room s) ∨ (i = .elseP ∧ ∀ e st, s.team.ctl.stack = e :: st → e.kind ≠ .ifK)
        ∨ (i = .endif ∧ ∀ e st, s.team.ctl.stack = e :: st → e.kind = .loopK) → Answers i s fun t => StopsBlock s t b 2)
  ∧ (∀ o : GOnly, ∀ s, Ready (.ifP o) s → ¬room s →
      exec (.ifP o) s = .next (trapBefore (noteIssue s) (trap3 s.team 1 0)))
  ∧ (∀ s e st, FallsOn .elseP s → s.team.ctl.stack = e :: st → e.kind = .ifK → Answers .elseP s fun t =>
      OnlyControl s t { at_ s (nextPc s) with mask := e.mask &&& ~~~s.team.ctl.mask, stack := { e with kind := .elseK } :: st })
  ∧ (∀ s, Ready .elseP s → (∀ e st, s.team.ctl.stack = e :: st → e.kind ≠ .ifK) →
      exec .elseP s = .next (trapBefore (noteIssue s) (trap3 s.team 2 0)))
  ∧ (∀ s e st, FallsOn .endif s → s.team.ctl.stack = e :: st → e.kind ≠ .loopK → Answers .endif s fun t =>
      OnlyControl s t { at_ s (nextPc s) with mask := e.mask, stack := st })
  ∧ (∀ s, Ready .endif s → (∀ e st, s.team.ctl.stack = e :: st → e.kind = .loopK) →
      exec .endif s = .next (trapBefore (noteIssue s) (trap3 s.team 2 0)))

/-- The address of a loop's last body word. -/
abbrev Sys2Proof.lastWord (f : LoopFrame) : DWord := f.start + BitVec.ofNat 64 (4 * (f.len - 1))

/-- R127: LOOP with a count starts a loop over the words that follow it: a frame, the count in the loop counter of its
level, and a LOOP entry that keeps the mask; with the count 0 it skips the body. The last word of the body is read ahead. A
third nested loop is the deepest: another traps with group 3 reason 3; a full stack traps with reason 1. -/
def Sys2Proof.LoopStartsClaim : Prop :=
  ∀ (i : Instr) (s s1 : State) (w count : Word) (len : Nat),
    ((∃ o : LoopOp, i = .loop o ∧ count = sa s o.a ∧ len = o.len.toNat)
      ∨ (∃ o : StrLoop, i = .stratumLoop o ∧ count = vget s.team o.a.toNat 0 ∧ len = o.len.toNat)) →
    let last := s.team.ctl.pc + BitVec.ofNat 64 (4 * len)
    let depth := s.team.ctl.loops.length
    (Ready i s → loopMax s.team ≤ depth → exec i s = .next (trapBefore (noteIssue s) (trap3 s.team 3 0)))
    ∧ (Issues i s → depth < loopMax s.team → StaysInLoops s last → fetch (noteIssue s) last = .ok (w, s1) → badLast w = false →
        (count = 0 → Answers i s fun t =>
          OnlyControl { s with ms := s1.ms } t { at_ s (last + 4) with buffer := s1.team.ctl.buffer })
        ∧ (count ≠ 0 → s.team.ctl.stack.length < stackMax s.team → Answers i s fun t =>
          t.team.rf.lc = s.team.rf.lc.set depth count
          ∧ OnlyControl { s with ms := s1.ms, team := { s.team with rf := { s.team.rf with lc := t.team.rf.lc } } } t
            { at_ s (nextPc s) with
              loops := s.team.ctl.loops ++ [{ start := nextPc s, len := len }]
              stack := { mask := s.team.ctl.mask, kind := .loopK } :: s.team.ctl.stack
              buffer := s1.team.ctl.buffer })
        ∧ (count ≠ 0 → stackMax s.team ≤ s.team.ctl.stack.length →
          exec i s = .next (trapBefore (noteIssue s) (trap3 s.team 1 0))))

/-- R128: at the last word of the innermost live loop every straight-line instruction, here written as its retirement, counts
down: while the counter is not used up the body starts again; when it is, the loop ends, its entry gives the mask back and
the team goes on; with an IF still open the loop end traps with group 3 reason 4. -/
def Sys2Proof.LoopEndsClaim : Prop :=
  ∀ (s : State) (fs : List LoopFrame) (f : LoopFrame) (c : Word), s.team.ctl.loops = fs ++ [f] → s.team.ctl.pc = lastWord f →
    stepping s.team = false → (∀ h ∈ fs, s.team.ctl.pc ≠ lastWord h) → Shaped s.team → fs.length < 3 →
    c = s.team.rf.lc.getD fs.length 0 - 1 →
    let lc := s.team.rf.lc.set fs.length c
    let u := { s with team := { s.team with rf := { s.team.rf with lc := lc } } }
    (c ≠ 0 → WorldKept u (retire s) ∧ TeamKept u.team (retire s).team ∧ RegsKept u.team (retire s).team [] [] []
        ∧ (retire s).team.ctl = at_ s f.start)
    ∧ (c = 0 → ∀ e st, s.team.ctl.stack = e :: st → e.kind = .loopK →
        WorldKept u (retire s) ∧ TeamKept u.team (retire s).team ∧ RegsKept u.team (retire s).team [] [] []
          ∧ (retire s).team.ctl = { at_ s (nextPc s) with mask := e.mask, stack := st, loops := fs, buffer := bufferOf s fs })
    ∧ (c = 0 → s.team.kind ≠ .stratum → ∀ e st, s.team.ctl.stack = e :: st → e.kind ≠ .loopK →
        ∃ v, retire s = takeTrap v (trap3 s.team 4 0) (nextPc s) ∧ v.team.rf = s.team.rf ∧ v.ms = s.ms)

/-- R129: BRK takes its active lanes out of the innermost loop: out of the mask and of every entry above the LOOP entry. While
lanes of the loop are left the team goes on; when none are, the loop ends: the LOOP entry gives its mask back and the team goes
on behind the body. Outside a loop BRK traps with group 3 reason 6. -/
def Sys2Proof.BreaksClaim : Prop :=
  ∀ (o : GOnly) (s : State), 
    (Ready (.brk o) s → (∀ e ∈ s.team.ctl.stack, e.kind ≠ .loopK) →
      exec (.brk o) s = .next (trapBefore (noteIssue s) (trap3 s.team 6 0)))
    ∧ ∀ (up st : List MaskEntry) (e : MaskEntry), Issues (.brk o) s → s.team.ctl.stack = up ++ e :: st → e.kind = .loopK →
      (∀ x ∈ up, x.kind ≠ .loopK) →
      let gone := active s.team o.g
      let mask := s.team.ctl.mask &&& ~~~gone
      let up1 := up.map fun x => { x with mask := x.mask &&& ~~~gone }
      let left := match up1.reverse with | [] => mask | x :: _ => x.mask
      (left ≠ 0 → Straight s → Answers (.brk o) s fun t => OnlyControl s t { at_ s (nextPc s) with mask := mask, stack := up1 ++ e :: st })
      ∧ (left = 0 → ∀ fs f, s.team.ctl.loops = fs ++ [f] → Answers (.brk o) s fun t =>
        OnlyControl s t { at_ s (f.start + BitVec.ofNat 64 (4 * f.len)) with
          mask := e.mask, stack := st, loops := fs, buffer := bufferOf s fs })

/-- R127, R128 and R129: how a loop starts, goes round, ends and is left. -/
def Obligations.Loops : Prop := LoopStartsClaim ∧ LoopEndsClaim ∧ BreaksClaim

/-- R72 and R73: a hint word issues, joins the team's pending run and touches nothing else; the first hint of a run fixes where
a trap of the run resumes. -/
def Sys2Proof.HintWordsClaim : Prop :=
  ∀ (s : State) (i : Instr) (run : HintRun),
    let old := s.team.ctl.hints.getD { first := s.team.ctl.pc, himm := none, hsched := none, hmod := none, twice := false }
    ((∃ o, i = .himm o ∧ run = { old with himm := some o, twice := old.twice || old.himm.isSome })
      ∨ (∃ o, i = .hsched o ∧ run = { old with hsched := some o, twice := old.twice || old.hsched.isSome })
      ∨ (∃ o, i = .hmod o ∧ run = { old with hmod := some o, twice := old.twice || old.hmod.isSome })) →
    Answers i s fun t => OnlyControl s t { s.team.ctl with pc := nextPc s, hints := some run }

/-- R68: without HIMM an immediate is sign- or zero-extended from 10 bits; with HIMM its 22 bits stand above them. -/
def Sys2Proof.ImmediatesClaim : Prop :=
  ∀ (t : Team) (imm : BitVec 10),
    (t.ctl.hints = none → (immOf t true imm).toInt = imm.toInt ∧ (immOf t false imm).toNat = imm.toNat)
    ∧ ∀ h x signed, t.ctl.hints = some h → h.himm = some x → (immOf t signed imm).toNat = x.v.toNat * 1024 + imm.toNat

/-- Whether an instruction is a form of a stratum wavefront, which its own decoder reads (R86). -/
def Sys2Proof.stratumForm : Instr → Bool
  | .stratumLd _ => true
  | .stratumSt _ => true
  | .stratumLoop _ => true
  | _ => false

/-- A hint word. -/
def Sys2Proof.isHint : Instr → Bool
  | .himm _ => true
  | .hsched _ => true
  | .hmod _ => true
  | _ => false

/-- R67, R83, R85 and R94: what stands against the issue of an instruction word, in this order: a register rule that a modifier adds,
a register at or above V, a hint run that does not suit it, privilege, what a wave or a Locus routine may not issue, an empty
source whose E-bit is 1, and last an empty source or destination, for which it waits. -/
def Sys2Proof.IssueOrderClaim : Prop :=
  (∀ (i : Instr) (w : Word) (s : State), encode i = some w → isHint i = false → stratumForm i = false → s.team.kind ≠ .stratum →
      let u := usesNow i s
      let traps := fun tr => exec i s = .next (trapBefore (noteIssue s) tr)
      let high := (∃ x ∈ u.vs, s.team.rf.nv ≤ x.1) ∨ ∃ r ∈ u.vd, s.team.rf.nv ≤ r
      let allowed := (needsPriv i = true → privileged s.team = true) ∧ (s.team.kind = .wave → waveForbids i = false)
        ∧ (waveOnly i = true → s.team.kind = .wave) ∧ (inRoutine s s.team = true → routineForbids i = false)
      let eVec := ∃ x ∈ u.vs, x.2 = true ∧ vIsFull s.team x.1 = false
      let eScal := ∃ x ∈ u.ss, x.2 = true ∧ sIsFull s.team x.1 = false
      let empty := (∃ x ∈ u.vs, vIsFull s.team x.1 = false) ∨ (∃ x ∈ u.ss, sIsFull s.team x.1 = false)
        ∨ (∃ r ∈ u.vd, vIsFull s.team r = false) ∨ ∃ r ∈ u.sd, sIsFull s.team r = false
      (aopBadD (hmodOf s.team).dw i = true → traps (trap1 s.team 5 w))
      ∧ (aopBadD (hmodOf s.team).dw i = false →
        (high → traps (trap1 s.team 6 w))
        ∧ (¬high → (∀ run, s.team.ctl.hints = some run → hintsOk run i = false → traps (trap1 s.team 7 w))
          ∧ ((∀ run, s.team.ctl.hints = some run → hintsOk run i = true) →
            (needsPriv i = true → privileged s.team = false → traps (trap5 6 none 0))
            ∧ (needsPriv i = false → s.team.kind = .wave → waveForbids i = true → traps (trap11 s.team 3 none 0))
            ∧ (needsPriv i = false → s.team.kind = .core → waveOnly i = true → traps (trap11 s.team 2 none 0))
            ∧ (needsPriv i = false → s.team.kind = .core → waveOnly i = false → inRoutine s s.team = true → routineForbids i = true →
                traps (trap10 s.team 6 (s.team.locus.getD 0) none 0))
            ∧ (allowed → eVec → ∃ x ∈ u.vs, x.2 = true ∧ vIsFull s.team x.1 = false ∧ traps (trap2 s.team false x.1))
            ∧ (allowed → ¬eVec → eScal → ∃ x ∈ u.ss, x.2 = true ∧ sIsFull s.team x.1 = false ∧ traps (trap2 s.team true x.1))
            ∧ (allowed → ¬eVec → ¬eScal → empty → exec i s = .next (hold s .operand))))))
  ∧ (∀ i, needsPriv i = true ↔ (∃ o, i = .mreg o) ∨ ∃ o, i = .tlbinv o)
  ∧ (∀ (s : State), Ready .tret s → s.team.handler = none → exec .tret s = .next (trapBefore (noteIssue s) (trap5 6 none 0)))

/-- R67, R68, R72, R73, R83, R85 and R94: hint words, the immediates they complete, and the checks and waits at issue. The rules give the
checks; that they stand in one order is the model's reading (log 17). -/
def Obligations.IssueAndHints : Prop := HintWordsClaim ∧ ImmediatesClaim ∧ IssueOrderClaim

/-! ### Memory -/

/-- Word `j` of a loaded value of width code `w` from its bytes (R76, R187): short values are extended as their code says,
longer ones are little-endian words. -/
def Sys2Proof.loaded (w : BitVec 3) (b : Nat → Byte) (j : Nat) : Word :=
  match w.toNat with
  | 0 => (b 0).setWidth 32
  | 1 => (b 0).signExtend 32
  | 2 => (b 1 ++ b 0).setWidth 32
  | 3 => (b 1 ++ b 0).signExtend 32
  | _ => (b (4 * j + 3) ++ b (4 * j + 2)) ++ (b (4 * j + 1) ++ b (4 * j))

/-- The vector and the scalar registers a result goes to. -/
def Sys2Proof.vecDst : Dst → List Nat
  | .vec r _ data => regsFrom r data.length
  | _ => []
def Sys2Proof.scalarDst : Dst → List Nat
  | .scalar r _ => [r]
  | _ => []

/-- `t` has one more operation in flight than `s`, the youngest, on a path; its destination registers are empty, every other
register's full bit is as before (R93, R199). -/
def Sys2Proof.Posts (s t : State) (path : Nat) (dst : Dst) (waits : LaneSet) (arrived : Bool) : Prop :=
  t.team.eng = { s.team.eng with ops := s.team.eng.ops ++
      [{ tag := s.team.nextTag, path := path, dst := dst, waits := waits, arrived := arrived, done := false }] }
    ∧ t.team.nextTag = s.team.nextTag + 1
    ∧ (∀ q, q < 64 → vIsFull t.team q = (vIsFull s.team q && !(vecDst dst).contains q))
    ∧ (∀ q, q < 32 → sIsFull t.team q = (sIsFull s.team q && !(scalarDst dst).contains q))

/-- `s` with the in-flight operations, the name of the next one and the full bits of `t`. -/
abbrev Sys2Proof.posting (s t : State) : State :=
  { s with team := { s.team with eng := t.team.eng, nextTag := t.team.nextTag,
                                 rf := { s.team.rf with vfull := t.team.rf.vfull, sfull := t.team.rf.sfull } } }

/-- `w` but for the memory side, the L1s, the team's version and the other teams, of which only the place of their sectors may change. -/
abbrev Sys2Proof.throughL1 (w t : State) : State :=
  { w with ms := t.ms, l1 := t.l1, others := t.others, team := { w.team with ver := t.team.ver } }

/-- The frame of a load: an operation is posted, the snapshot and the caches may move, no byte of memory reads otherwise. -/
def Sys2Proof.LoadFrame (s t : State) : Prop :=
  Frame t (throughL1 (posting s t) t) [] [] [] (nextPc s) ∧ OthersStay s t ∧ BytesKept s t

/-- The frame of a store to the scratchpad of the team's gang: only that scratchpad's bytes may change. -/
def Sys2Proof.ScratchFrame (s t : State) : Prop :=
  (∀ h ∈ s.gangs, h.grid ≠ s.team.pl.grid ∨ h.idx ≠ s.team.pl.gang → h ∈ t.gangs)
    ∧ t.gangs.map (fun h => { h with scratch := [] }) = s.gangs.map (fun h => { h with scratch := [] })
    ∧ Frame t { s with gangs := t.gangs } [] [] [] (nextPc s) ∧ BytesKept s t

/-- The frame of a scratchpad load or of another instruction that only posts an operation. -/
def Sys2Proof.PostFrame (s t : State) : Prop := Frame t (posting s t) [] [] [] (nextPc s) ∧ BytesKept s t

/-- In every lane of `xs` the `k` words of a posted result are `f` of the lane's access. -/
def Sys2Proof.Delivers {α : Type} (xs : List α) (lane : α → Nat) (k : Nat) (data : List (List Word)) (f : α → Nat → Word) : Prop :=
  data.length = k ∧ ∀ x ∈ xs, ∀ j, j < k → (data.getD j []).getD (lane x) 0 = f x j

/-- No access of the list meets a scatter of the team that is not yet acknowledged (R316). -/
def Sys2Proof.NoScatter (s : State) (xs : List LaneAcc) : Prop := ∀ x ∈ xs, scattering s.team (x.pa / 64) = false

/-- R76, R93, R182 to R188 and R315: LD, LDS and GX, when their path has room, their checks pass in every active lane, no data
they read has an error and no scatter of the team to their sectors is outstanding, post an operation with the little-endian
bytes at each active lane's address, sign- or zero-extended by the width code; the destination becomes empty until the result is
written. Bytes and registers stay. A load from a sector with an outstanding scatter waits (R316). -/
def Obligations.Loads : Prop :=
  (∀ (o : MemOp) (s : State) (xs : List LaneAcc), Runs (.ld o) s → s.team.eng.count 0 < 32 → s.ms.ecc = [] → NoScatter s xs →
      checkLanes s .read true (widthBytes o.w) (laneAddrs s.team o.g (memAddr s.team o.s o.a)) = .ok xs →
      Answers (.ld o) s fun t => ∃ data, Posts s t 0 (.vec o.d.toNat (active s.team o.g) data) 0 true ∧ LoadFrame s t
        ∧ Delivers xs (fun x => x.lane) (widthRegs o.w) data
            fun x => loaded o.w fun i => seeByte s x.via x.key (x.pa + i))
  ∧ (∀ (o : MemOp) (s : State) (xs : List LaneAcc), Ready (.ld o) s → s.team.eng.count 0 < 32 → ¬NoScatter s xs →
      checkLanes s .read true (widthBytes o.w) (laneAddrs s.team o.g (memAddr s.team o.s o.a)) = .ok xs →
      exec (.ld o) s = .next (hold s .wait))
  ∧ (∀ (o : SpOp) (s : State), Runs (.lds o) s → s.team.eng.count 0 < 32 → s.upsets = [] →
      scrCheck s (widthBytes o.w) (scrLanes s.team o) = none →
      Answers (.lds o) s fun t => ∃ data, Posts s t 0 (.vec o.d.toNat (active s.team o.g) data) 0 true ∧ PostFrame s t
        ∧ Delivers (scrLanes s.team o) (fun x => x.1) (widthRegs o.w) data
            fun x => loaded o.w fun i => scrByte s s.team (x.2 + i))
  ∧ (∀ (o : GxOp) (s : State) (xs : List LaneAcc), Runs (.gx o) s → s.team.eng.count 3 < 32 → s.ms.ecc = [] → NoScatter s xs →
      checkLanes s .read true (2 ^ o.w.toNat) (laneAddrs s.team o.g (memAddr s.team o.s o.a)) = .ok xs →
      Answers (.gx o) s fun t => ∃ data, Posts s t 3 (.vec o.d.toNat (active s.team o.g) data) 0 true ∧ LoadFrame s t
        ∧ Delivers xs (fun x => x.lane) (gxRegs o.w) data fun x =>
            loaded (if o.w = 0 then 0 else if o.w = 1 then 2 else 4) fun i => seeByte s x.via x.key (x.pa + i))

/-- A byte after a list of bits, in order, has been put into memory: address, mask and value (R185, R197). -/
def Sys2Proof.merged (cs : List (Nat × Byte × Byte)) (a : Nat) (old : Byte) : Byte :=
  (cs.filter fun c => c.1 == a).foldl (fun b c => (b &&& ~~~c.2.1) ||| (c.2.2 &&& c.2.1)) old

/-- Byte `i` of what lane `L` stores from the registers from `d` on, little-endian. -/
def Sys2Proof.storedByte (t : Team) (d L i : Nat) : Byte := (vget t (d + i / 4) L).extractLsb' (8 * (i % 4)) 8

/-- The cells a store of `n` bytes writes in the accesses that go one way, in ascending lane order. -/
abbrev Sys2Proof.storedCells (t : Team) (d n : Nat) (via : Via) (xs : List LaneAcc) : List Host.Cell :=
  (xs.filter fun x => x.via == via).flatMap fun x => cellsAt x.pa ((List.range n).map (storedByte t d x.lane))

/-- The whole bytes a store of `n` bytes writes, in ascending lane order. -/
abbrev Sys2Proof.storedBits (t : Team) (d n : Nat) (xs : List LaneAcc) : List (Nat × Byte × Byte) :=
  xs.flatMap fun x => (List.range n).map fun i => (x.pa + i, 0xFF, storedByte t d x.lane i)

/-- The address `a` of a page with key `k` is one that the accesses leave to be judged by: the L2 holds its sector under that key if at
all, before and after; accesses to the sector have the key; no aperture access reaches its granule. -/
def Sys2Proof.Plain (s t : State) (xs : List LaneAcc) (k a : Nat) : Prop :=
  isRaw a = false ∧ KeyHeld s.ms k a ∧ KeyHeld t.ms k a ∧ (∀ x ∈ xs, x.pa / 64 = a / 64 → x.key = k)
    ∧ ∀ x ∈ xs, isRaw x.pa = true → rawTarget x.pa / 16 ≠ a / 16

/-- What a store through checked accesses of `n` bytes does to memory as the team reads it, `cs` being the bits it puts down in
order: where a sector is reached under the phase rules, the team reads them back (R184); where it is reached through an immediate
mapping, they stand in committed state at once (R181); every byte outside the accesses reads as before. -/
def Sys2Proof.Stores (s t : State) (n : Nat) (xs : List LaneAcc) (cs : List (Nat × Byte × Byte)) : Prop :=
  Coherent s.ms → ∀ k a, Plain s t xs k a →
    ((∀ x ∈ xs, x.pa / 64 = a / 64 → x.via = .phase) → teamByte t k a = merged cs a (teamByte s k a))
    ∧ ((∀ x ∈ xs, x.pa / 64 = a / 64 → x.via = .direct) → commByteK t.ms k a = merged cs a (commByteK s.ms k a))
    ∧ ((∀ x ∈ xs, a < x.pa ∨ x.pa + n ≤ a) → teamByte t k a = teamByte s k a)

/-- A store through the aperture changes the bytes below the L2 (R310). -/
def Sys2Proof.RawStores (s t : State) (d n : Nat) (xs : List LaneAcc) : Prop :=
  ∀ a b, isRaw a = true → lastAt (storedCells s.team d n .direct xs) a = some b → commByteK t.ms 0 a = b

/-- The frame of a store to memory: the memory side, the L1s, the team's version, the place of other teams' sectors and the buffer of the
wave's open batch may change. -/
abbrev Sys2Proof.StoreFrame (w t : State) : Prop := Frame t { throughL1 w t with vx := t.vx } [] [] [] (nextPc w) ∧ OthersStay w t

/-- R182 to R188, R215, R216, R263 and R316: ST and SX store each active lane's low bytes at its address, STS at its scratchpad
offset; of lanes that meet the highest wins (R185). A vertex wave's ST to the cell of its open batch goes into the batch's buffer.
SX posts an operation without a result. Only the stored bytes change. -/
def Obligations.Stores : Prop :=
  (∀ (o : MemOp) (s : State) (xs : List LaneAcc), Runs (.st o) s → Invariant s → NoScatter s xs →
      overQuota (noteIssue s) ((hmodOf s.team).l1 == 1) (l1Near s o.cls.toNat) xs = none →
      checkLanes s .write true (widthBytes o.w) (laneAddrs s.team o.g (memAddr s.team o.s o.a)) = .ok xs →
      Answers (.st o) s fun t => Sys2Proof.Stores s t (widthBytes o.w) xs (storedBits s.team o.d.toNat (widthBytes o.w) xs)
        ∧ RawStores s t o.d.toNat (widthBytes o.w) xs
        ∧ t.vx = (bufferCells s (storedCells s.team o.d.toNat (widthBytes o.w) .cell xs)).vx
        ∧ StoreFrame s t)
  ∧ (∀ (o : GxOp) (s : State) (xs : List LaneAcc), Runs (.sx o) s → Invariant s → s.team.eng.count 3 < 32 → NoScatter s xs →
      overQuota (noteIssue s) true false (sxEntries (noteIssue s) ((hmodOf s.team).l1 == 1) xs) = none →
      checkLanes s .write false (2 ^ o.w.toNat) (laneAddrs s.team o.g (memAddr s.team o.s o.a)) = .ok xs →
      Answers (.sx o) s fun t => Posts s t 3 .none 0 false
        ∧ Sys2Proof.Stores s t (2 ^ o.w.toNat) xs (storedBits s.team o.d.toNat (2 ^ o.w.toNat) xs)
        ∧ RawStores s t o.d.toNat (2 ^ o.w.toNat) xs ∧ t.vx = s.vx
        ∧ StoreFrame (posting s t) t)
  ∧ (∀ (o : SpOp) (s : State) (g : Gang), Runs (.sts o) s → s.gangOf s.team = some g →
      scrCheck s (widthBytes o.w) (scrLanes s.team o) = none →
      let cs := (scrLanes s.team o).flatMap fun x =>
        cellsAt x.2 ((List.range (widthBytes o.w)).map (storedByte s.team o.d.toNat x.1))
      Answers (.sts o) s fun t =>
        (∀ a, scrByte t t.team a = (lastAt cs a).getD (scrByte s s.team a)) ∧ ScratchFrame s t)

/-- R183: the checks of an access. Over the active lanes in ascending order, an address that is no multiple of the size gives
reason 1 before any that is not canonical gives reason 2, and both come before every translation; the trap names the first lane
that fails and its address. Scratchpad: reason 1, then reason 3 for bytes past the allotment. -/
def Obligations.AccessChecks : Prop :=
  (∀ (o : MemOp) (s : State) (L : Nat), Ready (.ld o) s → s.team.eng.count 0 < 32 → L < s.team.rf.n →
      (active s.team o.g).getLsbD L = true →
      let addr := memAddr s.team o.s o.a
      let before := fun (p : DWord → Prop) (M : Nat) => ∀ K, K < M → (active s.team o.g).getLsbD K = true → p (addr K)
      let word := fun (r : Nat) => BitVec.ofNat 32 (r * 2 ^ 27 + L * 2 ^ 17 + 2 ^ 16)
      let trap := fun (r : Nat) => (⟨5, word r, loHalf (addr L), hiHalf (addr L)⟩ : Trap)
      (((addr L).toNat % widthBytes o.w ≠ 0 → before (fun a => a.toNat % widthBytes o.w = 0) L →
          exec (.ld o) s = .next (trapBefore (noteIssue s) (trap 1))))
      ∧ (canonical (addr L) = false → before (fun a => a.toNat % widthBytes o.w = 0) s.team.rf.n →
          before (fun a => canonical a = true) L → exec (.ld o) s = .next (trapBefore (noteIssue s) (trap 2))))
  ∧ (∀ (o : SpOp) (s : State) (L : Nat), Ready (.sts o) s → L < s.team.rf.n → (active s.team o.g).getLsbD L = true →
      let off := fun (K : Nat) => scrAddr s.team o.s o.a K
      let n := widthBytes o.w
      let before := fun (p : Nat → Prop) (M : Nat) => ∀ K, K < M → (active s.team o.g).getLsbD K = true → p (off K)
      let word := fun (r : Nat) => BitVec.ofNat 32 (r * 2 ^ 27 + L * 2 ^ 17 + 2 ^ 16)
      let trap := fun (r : Nat) => (⟨5, word r, BitVec.ofNat 32 (off L), 0⟩ : Trap)
      (off L % n ≠ 0 → before (fun a => a % n = 0) L → exec (.sts o) s = .next (trapBefore (noteIssue s) (trap 1)))
      ∧ (allotment s s.team < off L + n → before (fun a => a % n = 0) s.team.rf.n →
          before (fun a => a + n ≤ allotment s s.team) L → exec (.sts o) s = .next (trapBefore (noteIssue s) (trap 3))))

/-! ### Prefetch, shapes, special registers, tensors -/

/-- The special registers of R99 by number. -/
def Sys2Proof.specialOf (s : State) (n : Nat) : DWord :=
  let t := s.team
  let k : Nat → DWord := fun x => (BitVec.ofNat 32 x).setWidth 64
  let w : Word → DWord := fun x => x.setWidth 64
  [k t.rf.n, 32, k t.pl.team, k t.pl.gang, k t.pl.gangsz, k t.pl.core, k (t.pl.core / 8), k t.pl.role, k t.pl.prio, k t.pl.depth,
    w t.sp.vid, w t.sp.phase, s.cycle, t.sp.tcyc, t.sp.tdl, w t.sp.cause, w t.sp.d0, w t.sp.d1, w t.sp.d2, w t.sp.step,
    w t.sp.ftz, w t.sp.rmode].getD n 0

/-- An instruction that changes only the team's special registers, which become `x`. -/
def Sys2Proof.WritesSpecials (s t : State) (x : Specials) : Prop :=
  t.team.sp = x ∧ Frame t { s with team := { s.team with sp := x } } [] [] [] (nextPc s) ∧ BytesKept s t

/-- R99, R104 and R118: SRD reads a special register into a scalar, a 64-bit one into a pair; SWR writes `%tdl`, `%step`, `%ftz`
or `%rmode`, and with a reserved value takes a trap of group 1 with reason 5 instead. -/
def Obligations.SpecialRegisters : Prop :=
  (∀ (o : SMovI) (s : State), Runs (.srd o) s → Answers (.srd o) s fun t =>
      (o.imm = 12 ∨ o.imm = 13 ∨ o.imm = 14 → sget t.team o.r.toNat = loHalf (specialOf s o.imm.toNat)
        ∧ sget t.team (o.r.toNat + 1) = hiHalf (specialOf s o.imm.toNat) ∧ OnlyWrites s t [] [o.r.toNat, o.r.toNat + 1] [])
      ∧ (¬(o.imm = 12 ∨ o.imm = 13 ∨ o.imm = 14) → sget t.team o.r.toNat = loHalf (specialOf s o.imm.toNat)
        ∧ OnlyWrites s t [] [o.r.toNat] []))
  ∧ (∀ (o : SMovI) (s : State), Runs (.swr o) s →
      let x := sget s.team o.r.toNat
      let sp := s.team.sp
      (o.imm = 14 → Answers (.swr o) s fun t => WritesSpecials s t { sp with tdl := spair s.team o.r.toNat })
      ∧ (o.imm = 19 → x.toNat ≤ 3 → Answers (.swr o) s fun t => WritesSpecials s t { sp with step := x })
      ∧ (o.imm = 20 → x.toNat ≤ 1 → Answers (.swr o) s fun t => WritesSpecials s t { sp with ftz := x })
      ∧ (o.imm = 21 → x.toNat ≤ 4 → Answers (.swr o) s fun t => WritesSpecials s t { sp with rmode := x })
      ∧ ((o.imm = 19 ∧ 3 < x.toNat) ∨ (o.imm = 20 ∧ 1 < x.toNat) ∨ (o.imm = 21 ∧ 4 < x.toNat) →
        exec (.swr o) s = .next (trapBefore (noteIssue s)
          ⟨1, BitVec.ofNat 32 (5 * 2 ^ 27), (encode (.swr o)).getD 0, codeOff s.team s.team.ctl.pc⟩)))

/-- The scratchpad address of SHSET (R182, R196): the scalar plus 32 times the sign-extended offset. -/
abbrev Sys2Proof.shapeAt (s : State) (o : ShsetOp) : Nat := (sget s.team o.a.toNat + immOf s.team true (o.off ++ (0 : BitVec 5))).toNat

/-- The 256-bit record at a scratchpad offset, byte by byte. -/
def Sys2Proof.IsRecord (s : State) (off : Nat) (r : BitVec 256) : Prop := ∀ k, k < 32 → r.extractLsb' (8 * k) 8 = scrByte s s.team (off + k)

/-- R180, R189, R195, R196 and R334: PREF of one lane that passes its checks and whose sector the team has not at hand brings the sector into
the L2, unless `.NA` is set or the set has no way for it, and into L1 as a clean sector, unless `.L1B` is set; PREF does nothing else whatever
its lanes, whose sectors it may only move between L1 and home slices (R178). That a clean sector stands as of the moment it was brought, and
which sectors leave L1 for it, is the model's choice (log 93). SHSET takes a 32-byte record from scratchpad into a shape register, or, when the record is ill-formed, traps with
group 4 reason 2, the register and the lowest failing bit. -/
def Obligations.PrefetchAndShapes : Prop :=
  (∀ (o : PrefOp) (s : State), Runs (.pref o) s → Answers (.pref o) s fun t =>
      Frame t (throughL1 s t) [] [] [] (nextPc s) ∧ OthersStay s t ∧ BytesKept s t
      ∧ { t.team.ver with spilled := s.team.ver.spilled, homed := s.team.ver.homed } = s.team.ver
      ∧ ∀ x pa l, laneAddrs s.team o.g (memAddr s.team o.s o.a) = [x] → canonical x.2 = true →
          xlateT s s.team .read x.2 = .ok (pa, l) → isCached pa = true → atHand s true (pa / 64) = false → s.ms.ecc = [] →
          ((hmodOf s.team).na = false →
            (∃ y ∈ s.ms.l2, y.num / 2 = pa / 64 / 2) ∨ (makeWay (l2View s) s.ms (pa / 64)).isSome = true →
            (l2Find t.ms (pa / 64)).isSome = true)
          ∧ (l.imm = false → (hmodOf s.team).l1 ≠ 1 → (inL1 s.team.ver).contains (pa / 64) = false →
            ∃ f ∈ t.l1, f.isFor s.team.pl.core s.team.uid (pa / 128) = true ∧ pa / 64 ∈ f.sectors ∧ (pa / 64, t.ms.stamp) ∈ f.clean))
  ∧ (∀ (o : ShsetOp) (s : State), Runs (.shset o) s → s.upsets = [] → shapeAt s o % 32 = 0 → shapeAt s o + 32 ≤ allotment s s.team →
      ∀ r, IsRecord s (shapeAt s o) r →
        (shapeBad r (fsget s.team) = none → Answers (.shset o) s fun t => shget t.team o.sh.toNat = r
          ∧ (∀ k, k ≠ o.sh.toNat → shget t.team k = shget s.team k)
          ∧ OnlyWrites { s with team := { s.team with rf := { s.team.rf with sh := t.team.rf.sh } } } t [] [] [])
        ∧ (∀ b, shapeBad r (fsget s.team) = some b → exec (.shset o) s = .next (trapBefore (noteIssue s)
            ⟨4, BitVec.ofNat 32 (2 * 2 ^ 27 + (o.sh.toNat * 2 ^ 24 + b * 2 ^ 16)), 0, codeOff s.team s.team.ctl.pc⟩)))

/-- The elements of a tensor access that lie in bounds, with the unit each one's bits stand in. -/
abbrev Sys2Proof.inElems (s : State) (r : BitVec 256) (o : TensorOp) : List Elem := (tensorElems s.team r o).filter fun e => e.inb

/-- The bytes of the unit of a tensor access of a record. -/
abbrev Sys2Proof.unitOf (s : State) (r : BitVec 256) : Nat := (innerLoc (shWidth s.team r) 0).2.1

/-- A posted tensor word: an element in bounds is the code at its place in memory or scratchpad, one out of bounds is zero or,
under skip, what the register held (R194, R197). -/
def Sys2Proof.TensorWords (s : State) (r : BitVec 256) (o : TensorOp) (data : List Word) (byte : Elem → Nat → Byte) : Prop :=
  ∀ e ∈ tensorElems s.team r o,
    elemOf (shWidth s.team r) (data.getD e.lane 0) e.field =
      if e.inb then bitsOf (ofLeBytes ((List.range e.unit).map (byte e))) e.shift (shWidth s.team r)
      else if shSkip r then elemOf (shWidth s.team r) (va s o.d e.lane) e.field else 0

/-- The bits a tensor store puts down: for each byte of each in-bounds element its offset from the element's unit, a mask and a
value. -/
abbrev Sys2Proof.elemBits (s : State) (r : BitVec 256) (o : TensorOp) (e : Elem) : List (Nat × Byte × Byte) :=
  fieldBytes (shWidth s.team r) e.unit e.shift (elemOf (shWidth s.team r) (va s o.d e.lane) e.field)

/-- The bits a tensor store puts down, at the place `at` gives each element's unit, in ascending lane and field order. -/
abbrev Sys2Proof.tensorBits {α : Type} (s : State) (r : BitVec 256) (o : TensorOp) (ps : List (Elem × α)) (at_ : α → Nat) :
    List (Nat × Byte × Byte) :=
  ps.flatMap fun p => (elemBits s r o p.1).map fun b => (at_ p.2 + b.1, b.2.1, b.2.2)

/-- The state in which a tensor store meets its quota: elements narrower than a byte are merged, so their units are read first (R197). -/
abbrev Sys2Proof.mergeReads (s : State) (r : BitVec 256) (o : TensorOp) (xs : List LaneAcc) : State :=
  if shWidth s.team r = 4 ∨ shWidth s.team r = 6 then noteReads (noteIssue s) none o.cls.toNat (hmodOf s.team).na xs else noteIssue s

/-- R191 to R197: LDT posts one register whose elements come from the tensor's addresses, or from permuted scratchpad offsets
with `.SP`; STT puts the active lanes' elements there, in ascending order, and touches no other bit. An unbound
shape traps with group 4 reason 3, one of too low a rank with reason 4. -/
def Obligations.Tensors : Prop :=
  (∀ (o : TensorOp) (s : State) (r : BitVec 256), Runs (.ldt o) s → s.team.eng.count 0 < 32 → s.ms.ecc = [] → s.upsets = [] →
      boundShape s.team o.sh o.n = .ok r →
      (o.sp = false → ∀ xs, checkLanes s .read true (unitOf s r) ((inElems s r o).map fun e => (e.lane, e.va)) = .ok xs →
        NoScatter s xs →
        Answers (.ldt o) s fun t => ∃ data, Posts s t 0 (.vec o.d.toNat (active s.team o.g) [data]) 0 true ∧ LoadFrame s t
          ∧ TensorWords s r o data fun e i => match ((inElems s r o).zip xs).find? fun p => p.1 == e with
            | some p => seeByte s p.2.via p.2.key (p.2.pa + i)
            | none => 0)
      ∧ (o.sp = true → scrCheck s (unitOf s r) ((inElems s r o).map fun e => (e.lane, e.va.toNat)) = none →
        Answers (.ldt o) s fun t => ∃ data, Posts s t 0 (.vec o.d.toNat (active s.team o.g) [data]) 0 true ∧ PostFrame s t
          ∧ TensorWords s r o data fun e i => scrByte s s.team (e.va.toNat + i)))
  ∧ (∀ (o : TensorOp) (s : State) (r : BitVec 256), Runs (.stt o) s → Invariant s → s.ms.ecc = [] →
      boundShape s.team o.sh o.n = .ok r →
      (o.sp = false → ∀ xs, checkLanes s .write false (unitOf s r) ((inElems s r o).map fun e => (e.lane, e.va)) = .ok xs →
        NoScatter s xs → overQuota (mergeReads s r o xs) ((hmodOf s.team).l1 == 1) (l1Near s o.cls.toNat) xs = none →
        Answers (.stt o) s fun t =>
          Sys2Proof.Stores s t (unitOf s r) xs (tensorBits s r o ((inElems s r o).zip xs) fun x => x.pa)
          ∧ t.vx = s.vx ∧ StoreFrame s t)
      ∧ (o.sp = true → scrCheck s (unitOf s r) ((inElems s r o).map fun e => (e.lane, e.va.toNat)) = none →
        ∀ g, s.gangOf s.team = some g → Answers (.stt o) s fun t => ScratchFrame s t
          ∧ ∀ a, scrByte t t.team a =
            merged (tensorBits s r o ((inElems s r o).map fun e => (e, e.va.toNat)) id) a (scrByte s s.team a)))
  ∧ (∀ (o : TensorOp) (s : State), (Ready (.ldt o) s ∧ s.team.eng.count 0 < 32 → shRank (shget s.team o.sh.toNat) = 0 →
        exec (.ldt o) s = .next (trapBefore (noteIssue s) (trap4 s.team 3 o.sh.toNat 0)))
      ∧ (Ready (.stt o) s → shRank (shget s.team o.sh.toNat) ≠ 0 → shRank (shget s.team o.sh.toNat) < o.n.toNat + 1 →
        exec (.stt o) s = .next (trapBefore (noteIssue s) (trap4 s.team 4 o.sh.toNat 0))))

/-! ### Stratum wavefronts -/

/-- R320, R321 and R330: a wavefront's LD reads its block as its own stores and HBM give it, each granule on one side of a write-back
that came while it ran, and the data is there at once; ST goes to the granule buffer; RET ends the block run, its stores reach HBM and v11 to
v15 are kept for the channel, whose next block run starts with them. -/
def Obligations.StratumWavefronts : Prop :=
  (∀ (o : StrMem) (s : State) (b : BlockRun), Runs (.stratumLd o) s → s.ms.ecc = [] → blockOf s = some b → bankCheck s.team o = none →
      Answers (.stratumLd o) s fun t =>
        OnlyWrites { s with free := t.free, ms := { s.ms with backs := t.ms.backs } } t (regsFrom o.d.toNat (widthRegs o.w)) [] []
        ∧ ∀ L, L < s.team.rf.n → ∀ j, j < widthRegs o.w → vget t.team (o.d.toNat + j) L =
            if (active s.team o.g).getLsbD L then
              loaded o.w (fun i => bankByte s b (b.pa + (vget s.team o.a.toNat L).toNat + i)) j
            else vget s.team (o.d.toNat + j) L)
  ∧ (∀ (s : State) (b : BlockRun) (a : Nat),
      ((∀ x ∈ s.ms.backs, x.1 ≠ a / 16) → bankByte s b a = (cellGet b.buffer a).getD (memGet s.ms.mem a))
      ∧ (bankByte s b a = (cellGet b.buffer a).getD (memGet s.ms.mem a)
        ∨ ∃ x ∈ s.ms.backs, x.1 = a / 16 ∧ bankByte s b a = (cellGet b.buffer a).getD (x.2.getD (a % 16) 0)))
  ∧ (∀ (o : StrMem) (s : State) (b : BlockRun), Runs (.stratumSt o) s → blockOf s = some b → bankCheck s.team o = none →
      let cs := (lanesOf s.team.rf.n (active s.team o.g)).flatMap fun L =>
        cellsAt (b.pa + (vget s.team o.a.toNat L).toNat) ((List.range (widthBytes o.w)).map (storedByte s.team o.d.toNat L))
      Answers (.stratumSt o) s fun t => Frame t { s with strat := t.strat } [] [] [] (nextPc s) ∧ BytesKept s t
        ∧ t.strat.runs = s.strat.runs ∧ t.strat.kept = s.strat.kept
        ∧ ∃ c, blockOf t = some c ∧ c = { b with buffer := c.buffer } ∧
          ∀ a, cellGet c.buffer a = match lastAt cs a with | some v => some v | none => cellGet b.buffer a)
  ∧ (∀ (s : State) (b : BlockRun), Ready .ret s → s.team.kind = .stratum → Invariant s → blockOf s = some b → Answers .ret s fun t =>
      EndsBlock s t b)
  ∧ (∀ (s : State) (ch : Nat) (r : StratumRun) (va : DWord) (pa i : Nat), s.strat.current.any (fun x => x.1 == ch) = false →
      s.strat.runs.find? (fun x => !x.failed && x.blocks.any fun b => b.1 == ch) = some r →
      r.blocks.find? (fun b => b.1 == ch) = some (ch, va, pa, i) →
      Answers (.stratumBlockRun ch) s fun t => ∃ w, t.others = s.others ++ [w] ∧ w.kind = .stratum ∧ w.stage = .resident
        ∧ w.pl.core = ch ∧ w.ctl = Control.entry r.codeVa 32
        ∧ (∀ L, L < 32 → vget w 0 L = BitVec.ofNat 32 (4 * L) ∧ vget w 1 L = BitVec.ofNat 32 i ∧ vget w 2 L = BitVec.ofNat 32 ch
            ∧ (∀ k, k < 8 → vget w (3 + k) L = r.params.getD k 0)
            ∧ ∀ k xs, k < 5 → s.strat.kept.find? (fun x => x.1 == ch) = some xs → vget w (11 + k) L = (xs.2.getD k []).getD L 0)
        ∧ t.team = s.team ∧ t.ms = { s.ms with backs := t.ms.backs } ∧ BytesKept s t
        ∧ t.strat.current = (ch, { graph := r.graph, node := r.node, va := va, pa := pa, index := i, buffer := [], issued := 0 })
            :: s.strat.current)

/-! ### The copy engine and waits -/

/-- The copy a CPT makes: what the record, the slot and the scalars say at issue (R201). -/
abbrev Sys2Proof.copyOf (s : State) (o : CptOp) (r : BitVec 256) : Copy :=
  { tag := s.team.nextTag, out := o.out, sh := r, slot := fsget s.team (shSlot r), base := spair s.team (shBase r),
    coords := (List.range (o.n.toNat + 1)).map fun j => sget s.team (o.c.toNat + j), sbase := sget s.team o.d.toNat,
    cls := o.cls, na := (hmodOf s.team).na, done := false, fail := none, told := false, writes := [] }

/-- A copy with room on its engine whose shape, alignment and box pass their checks (R201, R202). -/
def Sys2Proof.CopyReady (s : State) (o : CptOp) (r : BitVec 256) : Prop :=
  s.team.pl.role = 1 ∧ engineLoad s s.team.pl.core < 64 ∧ boundShape s.team o.sh o.n = .ok r
    ∧ (shPerm r = 0 ∨ boxPitch r (shWidth s.team r) % 128 = 0) ∧ (sget s.team o.d.toNat).toNat % 16 = 0
    ∧ (sget s.team o.d.toNat).toNat + shBox1 r * boxPitch r (shWidth s.team r) ≤ allotment s s.team ∧ s.team.eng.unsealed.length < 64

/-- An instruction that changes only what the team has in flight and its write side. -/
def Sys2Proof.EngineFrame (s t : State) : Prop :=
  Frame t { s with team := { s.team with eng := t.team.eng, nextTag := t.team.nextTag, ver := t.team.ver } } [] [] [] (nextPc s)

/-- The bits that a copy into scratchpad puts down, element by element in row-major order: memory's code, or for an element out of bounds zero,
or nothing under skip (R201). -/
abbrev Sys2Proof.copyInBits (s : State) (c : Copy) (es : List BoxElem) : List (Nat × Byte × Byte) :=
  let w := (slotOf c.slot).width
  es.flatMap fun x =>
    let l := boxLoc c w x.j0 x.j1
    let m := innerLoc w ((boxCoords c x.j0 x.j1).getD 0 0).toNat
    let code := if x.inb then bitsOf (ofLeBytes (x.pas.map fun p => commByteK s.ms p.2.2 p.1)) m.2.2 w else 0
    if x.inb || !shSkip c.sh then (fieldBytes w l.2.1 l.2.2 code).map fun b => (l.1 + b.1, b.2.1, b.2.2) else []

/-- The bits that a copy out of scratchpad writes to memory, in the same order, with the key index of each one's page (R201). -/
abbrev Sys2Proof.copyOutBits (s : State) (t : Team) (c : Copy) (es : List BoxElem) : List (Nat × Nat × Byte × Byte) :=
  let w := (slotOf c.slot).width
  es.flatMap fun x =>
    let l := boxLoc c w x.j0 x.j1
    let m := innerLoc w ((boxCoords c x.j0 x.j1).getD 0 0).toNat
    let code := bitsOf (ofLeBytes ((List.range l.2.1).map fun k => scrByte s t (l.1 + k))) l.2.2 w
    if x.inb then (fieldBytes w m.2.1 m.2.2 code).map fun b => ((x.pas.getD b.1 (0, false, 0)).1, (x.pas.getD b.1 (0, false, 0)).2.2, b.2.1, b.2.2)
    else []

/-- R201, R204 and R205: what a copy whose box translates leaves. Into scratchpad, the box's bytes take memory's codes and every other byte of
the scratchpad and of memory is as before. Out of scratchpad, a copy of the open batch keeps its bits until its batch completes, and one that is
alone in its batch joins the write side with them: the team reads them there and every other byte as before. That a batch's writes take effect
in issue order is log 98. -/
def Sys2Proof.CopyLeavesClaim : Prop :=
  ∀ (s u : State) (uid idx pa key : Nat) (d : Bool) (va : DWord) (t v : Team) (c : Copy) (es : List BoxElem), s.find uid = some t →
    ((teamCopies t).filter fun c => !c.done)[idx]? = some c → s.upsets = [] →
    transBox t c (slotOf c.slot).width (boxElems c.sh) s [] = (.ok pa d key u, va, es) → u.find uid = some v → u.upsets = [] →
    let ps := es.flatMap fun x => x.pas
    let oneKey := fun (k a : Nat) => isRaw a = false ∧ KeyHeld u.ms k a ∧ ∀ p ∈ ps, p.1 / 64 = a / 64 → p.2.2 = k
    (∀ p ∈ ps, oneKey p.2.2 p.1) → Coherent u.ms →
    (c.out = false → ∀ g, u.gangOf t = some g → Answers (.copyComplete uid idx) s fun z =>
      (∀ a, scrByte z t a = merged (copyInBits u c es) a (scrByte u t a))
      ∧ z.gangs.map (fun h => { h with scratch := [] }) = u.gangs.map (fun h => { h with scratch := [] })
      ∧ (∀ h ∈ u.gangs, h.grid ≠ t.pl.grid ∨ h.idx ≠ t.pl.gang → h ∈ z.gangs)
      ∧ (∀ x ∈ u.teams, x.uid ≠ uid → x ∈ z.teams) ∧ ∀ k a, oneKey k a → KeyHeld z.ms k a → commByteK z.ms k a = commByteK u.ms k a)
    ∧ (c.out = true → (∀ p ∈ ps, p.2.1 = false) → Answers (.copyComplete uid idx) s fun z => ∃ w, z.find uid = some w ∧ z.gangs = u.gangs
      ∧ z.ms = u.ms ∧ (∀ x ∈ u.teams, x.uid ≠ uid → x ∈ z.teams)
      ∧ (∀ cs, v.handler = none → v.eng.batches = [] → v.eng.unsealed = c :: cs → (∀ x ∈ cs, x.tag ≠ c.tag) → w.ver = v.ver
        ∧ ∃ c', w.eng = { v.eng with unsealed := c' :: cs } ∧ c'.done = true ∧ c'.fail = none
          ∧ c'.writes.map (fun x => (x.1, x.2.1.key, x.2.2.1, x.2.2.2)) = copyOutBits u t c es)
      ∧ (∀ b, v.handler = none → v.eng.batches = [b] → b.copies = [c] → (∀ x ∈ v.eng.unsealed, x.tag ≠ c.tag) →
        w.eng = { v.eng with batches := [] }
        ∧ ∀ k a, oneKey k a → readByte z.ms w.ver k a = merged ((copyOutBits u t c es).map fun x => (x.1, x.2.2.1, x.2.2.2)) a
            (readByte u.ms v.ver k a)))

/-- R200 to R205 and R226: CPT adds one copy to the open batch; CPSEAL closes the batch under the next number and writes the
number; CPWAIT and WAITC wait, and go on when the batches up to a number are complete or a counter is low enough, with no error
to report; a team in another role traps with group 12 reason 3. -/
def Sys2Proof.CopiesClaim : Prop :=
  (∀ (o : CptOp) (s : State) (r : BitVec 256), Runs (.cpt o) s → CopyReady s o r → Answers (.cpt o) s fun t =>
      t.team.eng = { s.team.eng with unsealed := s.team.eng.unsealed ++ [copyOf s o r] } ∧ t.team.nextTag = s.team.nextTag + 1
        ∧ EngineFrame s t ∧ BytesKept s t)
  ∧ (∀ (o : CptOp) (s : State), Ready (.cpt o) s → s.team.pl.role ≠ 1 →
      exec (.cpt o) s = .next (trapBefore (noteIssue s) (trapRole s.team 0x46 o.cls.toNat)))
  ∧ (∀ (o : SD) (s : State), Runs (.cpseal o) s → s.team.pl.role = 1 → s.team.eng.lastBatch < 0xFFFFFFFF → s.team.eng.count 1 < 16 →
      Answers (.cpseal o) s fun t =>
        let num := s.team.eng.lastBatch + 1
        let b : Batch := { tag := s.team.nextTag, num := num, copies := s.team.eng.unsealed, complete := false }
        t.team.eng.lastBatch = num ∧ t.team.eng.unsealed = []
          ∧ ((∃ c ∈ s.team.eng.unsealed, c.done = false) → b ∈ t.team.eng.batches)
          ∧ sget t.team o.d.toNat = BitVec.ofNat 32 num ∧ t.team.nextTag = s.team.nextTag + 1
          ∧ Frame t { s with team := { s.team with eng := t.team.eng, nextTag := t.team.nextTag, ver := t.team.ver } } []
              [o.d.toNat] [] (nextPc s))
  ∧ (∀ (o : S1) (s : State), Runs (.cpwait o) s →
      ((∃ b ∈ s.team.eng.batches, b.num ≤ (sget s.team o.a.toNat).toNat) → exec (.cpwait o) s = .next (hold s .wait))
      ∧ ((∀ b ∈ s.team.eng.batches, (sget s.team o.a.toNat).toNat < b.num) → s.team.eng.errs = [] →
          Answers (.cpwait o) s fun t => OnlyWrites s t [] [] []))
  ∧ (∀ (o : WaitcOp) (s : State), Runs (.waitc o) s →
      ((sget s.team o.a.toNat).toNat < s.team.eng.count o.path.toNat → exec (.waitc o) s = .next (hold s .wait))
      ∧ (s.team.eng.count o.path.toNat ≤ (sget s.team o.a.toNat).toNat → s.team.eng.errs = [] →
          (∀ p, pairOfTeam s s.team = some p → toReport p = false) → Answers (.waitc o) s fun t => OnlyWrites s t [] [] []))
  ∧ (∀ (s : State) (uid idx : Nat) (t : Team) (c : Copy), s.find uid = some t →
      ((teamCopies t).filter fun c => !c.done)[idx]? = some c → exec (.copyComplete uid idx) s = .next (runCopy s t c))

/-- R93, R95 and R199: when the engine has a result, its completion writes the active lanes or the scalar, fills the destination (one
without an active lane when its counter entry retires) and, once no older operation of its path is left, takes the operation out of its counter; nothing else of the team changes. -/
def Sys2Proof.ProducerCompletesClaim : Prop :=
  ∀ (s : State) (i : Nat) (o : Op), s.team.handler = none → s.team.poison = [] → s.team.stage = .resident →
    (∀ u ∈ s.others, u.uid ≠ s.team.uid) → (readyOps s.team)[i]? = some (false, o) →
    (s.team.eng.ops.filter fun x => x.tag == o.tag) = [o] →
    Answers (.producerComplete s.team.uid i) s fun t =>
      t = { s with team := t.team }
      ∧ t.team = { s.team with rf := t.team.rf, eng := { s.team.eng with ops := t.team.eng.ops } }
      ∧ (∀ r m data, o.dst = .vec r m data → Shaped s.team → r + data.length ≤ s.team.rf.nv → s.team.rf.nv ≤ 64 →
          (m ≠ 0 ∨ s.team.eng.ops.head? = some o → ∀ k, k < data.length → vIsFull t.team (r + k) = true)
          ∧ (∀ k L, k < data.length → L < s.team.rf.n → vget t.team (r + k) L =
              if m.getLsbD L then (data.getD k []).getD L 0 else vget s.team (r + k) L)
          ∧ (∀ q L, q < r ∨ r + data.length ≤ q → vget t.team q L = vget s.team q L) ∧ t.team.rf.s = s.team.rf.s)
      ∧ (∀ r x, o.dst = .scalar r x → Shaped s.team → r < 32 → sget t.team r = x ∧ sIsFull t.team r = true
          ∧ (∀ q, q ≠ r → sget t.team q = sget s.team q) ∧ t.team.rf.v = s.team.rf.v)
      ∧ (s.team.eng.ops.head? = some o → ∀ x ∈ t.team.eng.ops, x.tag ≠ o.tag)

/-- R93, R95, R199 to R205 and R226: copies and batches, the waits on counters, what a copy leaves, and how an engine's result arrives. -/
def Obligations.Copies : Prop := CopiesClaim ∧ CopyLeavesClaim ∧ ProducerCompletesClaim

/-! ### Boundaries, barriers and maintenance -/

/-- The bytes that a publication under way commits at a scope: all at `.SY` (2), else those inside the device (R213). -/
abbrev Sys2Proof.goingOut (s : State) (scope : Nat) : List Host.Cell :=
  s.team.ver.pub.filter fun c => decide (scope = 2) || !isOutside c.1

/-- What the team reads after an acquire at a scope (R211, R213, R225, R272): its own unpublished bytes, else what is committed now; at `.CL` a
byte that another cluster's home has written since may also read as it was. That a `.CL` acquire sees every publication of a team at once, and
which of the homes' old bytes it leaves, is log 90. -/
def Sys2Proof.AcquiredReads (s t : State) (scope : Nat) : Prop :=
  (∀ k a, (openByte s.team.ver a).isSome = true ∨ scope ≠ 0 → teamByte t k a = (openByte s.team.ver a).getD (commByteK s.ms k a))
  ∧ ∀ k a, openByte s.team.ver a = none → teamByte t k a = commByteK s.ms k a
      ∨ ∃ x ∈ homeUnseen s scope, x.2.1 = a ∧ teamByte t k a = x.2.2

/-- The memory side with the superseded bytes that another keeps. -/
abbrev Sys2Proof.keptLike (ms old : MemSide) : MemSide := { ms with retained := old.retained, rawOld := old.rawOld, homeOld := old.homeOld }

/-- R208 to R213, R225: PHASE with kind 2 acquires: the next reads see what is committed now, or the team's own unpublished
bytes; the other kinds put the team into a publication at their scope, of its write side as it stands. When the publication commits, its bytes stand in
committed state together and every other committed byte is as it was; `%phase` counts the boundary. An entry that cannot be read back,
or a link that cannot carry it to host memory, raises group 17 and nothing is published (R209, R414). The report of an entry is log 94, that
of a link log 84, the acquire of a scope log 90. -/
def Sys2Proof.BoundariesClaim : Prop :=
  (∀ (o : PhaseOp) (s : State), Runs (.phase o) s → Invariant s →
      let sp1 := { s.team.sp with phase := s.team.sp.phase + 1 }
      (o.kind = 2 → Answers (.phase o) s fun t => t.team.ver.wside = s.team.ver.wside ∧ t.team.ver.snap = none
        ∧ Frame t { s with free := t.free, ms := keptLike s.ms t.ms, team := { s.team with ver := t.team.ver, sp := sp1 } } [] [] [] (nextPc s)
        ∧ AcquiredReads s t o.scope.toNat)
      ∧ (o.kind ≠ 2 → exec (.phase o) s = .next { noteIssue s with
          team := { beginPublish (noteIssue s).team with wait := .publish o.scope.toNat (.phase (o.kind == 3)) false } }))
  ∧ (∀ t : Team, (beginPublish t).ver.wside = [] ∧ (t.ver.sx = [] →
      ∀ a, cellGet (beginPublish t).ver.pub a = match lastAt t.ver.wside a with | some b => some b | none => cellGet t.ver.pub a))
  ∧ (∀ (s : State) (sc : Nat) (acq pressed : Bool), s.team.wait = .publish sc (.phase acq) pressed → s.team.stage ≠ .ended →
      Invariant s → Straight s → entryBad s = none → pubLost s sc = none → overSpace s.mgmt.map s.ms (purge (publish s sc)).ms = none →
      Answers (.publicationCommit s.team.uid) s fun t =>
        (Coherent s.ms → ∀ k a, isRaw a = false → KeyHeld s.ms k a → KeyHeld t.ms k a →
          (∀ c ∈ goingOut s sc, c.1 / 64 = a / 64 → (insIn s.team.ver.ins (a / 64)).key = k) →
          commByteK t.ms k a = (lastAt (goingOut s sc) a).getD (commByteK s.ms k a))
        ∧ (∀ c ∈ t.team.ver.wside, c ∈ s.team.ver.wside ∨ (c ∈ s.team.ver.pub ∧ sc ≠ 2 ∧ isOutside c.1 = true)) ∧ t.team.ver.pub = []
        ∧ (acq = true → t.team.ver.snap = none)
        ∧ Frame t { s with free := t.free, ms := t.ms,
                           team := { s.team with ver := t.team.ver, sp := { s.team.sp with phase := s.team.sp.phase + 1 } } } [] [] [] (nextPc s))
  ∧ (∀ (s : State) (sc n : Nat) (next : AfterPub) (pressed : Bool), s.team.wait = .publish sc next pressed → s.team.stage ≠ .ended →
      entryBad s = some n → let src := 2 * 2 ^ 24 + sliceOfSector s.mgmt.map n
      exec (.publicationCommit s.team.uid) s = .next ((takeTrap
        (logEvent (s.withTeam { unpublish s.team with wait := .ready }) 5 src (leBytes 8 (64 * n) ++ leBytes 4 4))
        ⟨17, det0 4 src, BitVec.ofNat 32 (64 * n), BitVec.ofNat 32 (64 * n / 2 ^ 32)⟩ (resumePc s.team)).focus s.team.uid))
  ∧ (∀ (s : State) (sc lane : Nat) (c : Host.Cell) (next : AfterPub) (pressed : Bool), s.team.wait = .publish sc next pressed →
      s.team.stage ≠ .ended → entryBad s = none → lostLink s = some lane →
      s.team.ver.pub.find? (fun c => sc == 2 && isHost c.1) = some c →
      exec (.publicationCommit s.team.uid) s = .next ((takeTrap (s.withTeam { unpublish s.team with wait := .ready })
        ⟨17, det0 3 (4 * 2 ^ 24 + lane), BitVec.ofNat 32 c.1, BitVec.ofNat 32 (c.1 / 2 ^ 32)⟩ (resumePc s.team)).focus s.team.uid))
  ∧ (∀ (s : State) (n : Nat), Invariant s → Answers (.entryResolve n) s fun t =>
      t = { s with ms := { s.ms with retained := t.ms.retained, rawOld := t.ms.rawOld } } ∧ (∀ r ∈ t.ms.retained, r ∈ s.ms.retained)
        ∧ (∀ r ∈ s.ms.retained, r.2.1 / 64 ≠ n → r ∈ t.ms.retained)
        ∧ ∀ u ∈ s.teams, ∀ k a, readByte t.ms u.ver k a = readByte s.ms u.ver k a)

/-- The gang of the team in focus after one more of its teams has arrived (R227). -/
abbrev Sys2Proof.arrivedGang (g : Gang) (team : Nat) : Gang :=
  { g with pendingArr := (team, g.gen) :: g.pendingArr, arrived := g.arrived + 1 }

/-- R226 and R227: FENCE waits while copies, maintenance, or operations other than loads are under way, then goes on. BAR without
`.RLX` publishes first; then the team arrives, releases its snapshot (R212), and waits until every live team of the gang has arrived: the last
arrival begins the next generation, acquires and counts a boundary. BAR.ARV arrives and goes on, and counts a boundary unless `.RLX`; it waits
while an earlier arrival of the team is pending, and a plain BAR then waits for that arrival's generation and does not arrive twice. The
acquire of a scope is log 90. -/
def Sys2Proof.BarriersClaim : Prop :=
  (∀ (s : State), Runs .fence s → (fenceBusy s.team.eng = true → exec .fence s = .next (hold s .fence))
      ∧ (fenceBusy s.team.eng = false → s.team.eng.errs = [] → unsealedErr s.team.eng = [] → (∀ p, pairOfTeam s s.team = some p → toReport p = false) →
          Answers .fence s fun t => OnlyWrites s t [] [] []))
  ∧ (∀ (o : BarOp) (s : State) (g : Gang), Runs (.bar o) s → s.team.posted = false → s.gangOf s.team = some g →
      pendingOf g s.team.pl.team = none → s.team.stage = .resident → (∀ u ∈ s.others, ∀ n sc, u.wait ≠ .barrier n sc) →
      (o.rlx = false → o.arv = false → exec (.bar o) s = .next { noteIssue s with
          team := { beginPublish (noteIssue s).team with wait := .publish o.scope.toNat (.barrier false) false } })
      ∧ (o.rlx = false → o.arv = true → Answers (.bar o) s fun t => t.gangOf t.team = some g
          ∧ t.team = { beginPublish (noteIssue s).team with wait := .publish o.scope.toNat (.barrier true) false })
      ∧ (o.rlx = true → o.arv = true → g.arrived + 1 < g.live → Answers (.bar o) s fun t =>
          t.gangOf t.team = some (arrivedGang g s.team.pl.team) ∧ Frame t { s with gangs := t.gangs } [] [] [] (nextPc s) ∧ BytesKept s t)
      ∧ (o.rlx = true → o.arv = false → g.arrived + 1 < g.live → Invariant s → Answers (.bar o) s fun t =>
          t.team.wait = .barrier g.gen o.scope.toNat ∧ t.gangOf t.team = some (arrivedGang g s.team.pl.team)
            ∧ t.team.ver = { acquire s.team.ver with seen := t.team.ver.seen, stale := t.team.ver.stale }
            ∧ t.team.rf = s.team.rf ∧ t.team.sp = s.team.sp ∧ t.team.ctl = s.team.ctl ∧ t.ms = keptLike s.ms t.ms
            ∧ AcquiredReads s t o.scope.toNat)
      ∧ (o.rlx = true → o.arv = false → g.live = g.arrived + 1 → Invariant s → Answers (.bar o) s fun t =>
          (∃ h, t.gangOf t.team = some h ∧ h.gen = g.gen + 1 ∧ h.arrived = 0) ∧ t.team.ver.snap = none
            ∧ Frame t { s with free := t.free, ms := t.ms, gangs := t.gangs, team := { s.team with
                ver := t.team.ver, sp := { s.team.sp with phase := s.team.sp.phase + 1 } } } [] [] [] (nextPc s)))
  ∧ (∀ (o : BarOp) (s : State) (g : Gang) (gen : Nat), Runs (.bar o) s → s.team.posted = false → s.gangOf s.team = some g →
      pendingOf g s.team.pl.team = some gen → s.team.stage = .resident → (∀ u ∈ s.others, ∀ n sc, u.wait ≠ .barrier n sc) →
      (o.arv = true → g.gen ≤ gen → exec (.bar o) s = .next (hold s .wait))
      ∧ (o.rlx = true → o.arv = true → gen < g.gen → g.arrived + 1 < g.live → Answers (.bar o) s fun t =>
          t.gangOf t.team = some (arrivedGang (dropPending g s.team.pl.team) s.team.pl.team)
            ∧ Frame t { s with gangs := t.gangs } [] [] [] (nextPc s) ∧ BytesKept s t)
      ∧ (o.rlx = true → o.arv = false → g.gen ≤ gen → g.arrived < g.live → Answers (.bar o) s fun t =>
          t.team.wait = .barrier gen o.scope.toNat ∧ t.gangOf t.team = some g ∧ t.team.rf = s.team.rf ∧ t.team.sp = s.team.sp
            ∧ t.team.ctl = s.team.ctl)
      ∧ (o.rlx = true → o.arv = false → gen < g.gen → g.arrived < g.live → Invariant s → Answers (.bar o) s fun t =>
          t.gangOf t.team = some (dropPending g s.team.pl.team) ∧ t.team.ver.snap = none
            ∧ Frame t { s with free := t.free, ms := t.ms, gangs := t.gangs, team := { s.team with
                ver := t.team.ver, sp := { s.team.sp with phase := s.team.sp.phase + 1 } } } [] [] [] (nextPc s)))
  ∧ (∀ (s : State) (sc : Nat) (pressed : Bool) (g : Gang), s.team.wait = .publish sc (.barrier true) pressed → s.team.stage = .resident →
      Invariant s → Straight s → entryBad s = none → pubLost s sc = none → overSpace s.mgmt.map s.ms (purge (publish s sc)).ms = none →
      s.gangOf s.team = some g → pendingOf g s.team.pl.team = none → g.arrived + 1 < g.live →
      (∀ u ∈ s.others, ∀ n sc, u.wait ≠ .barrier n sc) → Answers (.publicationCommit s.team.uid) s fun t =>
        t.gangOf t.team = some (arrivedGang g s.team.pl.team)
          ∧ Frame t { s with ms := t.ms, gangs := t.gangs, team := { s.team with
              ver := t.team.ver, sp := { s.team.sp with phase := s.team.sp.phase + 1 } } } [] [] [] (nextPc s))

/-- R208 to R213 and R225 to R227: boundaries, fences and barriers. What an acquire of a scope sees is the model's choice (log 90), the report of
an entry's error log 94, a link that cannot deliver log 84. -/
def Obligations.BoundariesAndBarriers : Prop := BoundariesClaim ∧ BarriersClaim

/-- The base and the length of a range instruction. -/
abbrev Sys2Proof.rangeBase (s : State) (o : RangeOp) : DWord := spair s.team (2 * o.a.toNat)
abbrev Sys2Proof.rangeLen (s : State) (o : RangeOp) : Nat := (sget s.team o.b.toNat).toNat

/-- A maintenance instruction queues one operation on its range, does nothing for an empty one, and traps with group 5 reason 2
for a base that is not canonical. -/
def Sys2Proof.Maintains (i : Instr) (o : RangeOp) (kind : MaintKind) : Prop :=
  ∀ s, Runs i s →
    (canonical (rangeBase s o) = true → rangeLen s o ≠ 0 → s.team.eng.maint.length < 16 → Answers i s fun t =>
      t.team.eng = { s.team.eng with maint := s.team.eng.maint ++
          [{ tag := s.team.nextTag, kind := kind, base := rangeBase s o, len := rangeLen s o }] }
        ∧ t.team.nextTag = s.team.nextTag + 1 ∧ EngineFrame s t ∧ BytesKept s t)
    ∧ (canonical (rangeBase s o) = true → rangeLen s o = 0 → Answers i s fun t => OnlyWrites s t [] [] [])
    ∧ (canonical (rangeBase s o) = false → exec i s = .next (trapBefore (noteIssue s) (trap5 2 none (rangeBase s o))))

/-- R228: CLEANR, INVR and FLUSHR queue maintenance of the L2. On one sector, clean writes a dirty sector to memory, invalidate
drops it so that memory's bytes are the committed ones, flush does the first and then the second; clean and flush change no
committed byte; invalidate and flush drop the range's clean sectors of L1 too. A page that fails stops the operation, and its address is reported later with group 5 reason 9. -/
def Obligations.Maintenance : Prop :=
  (∀ o, Maintains (.cleanr o) o .clean) ∧ (∀ o, Maintains (.invr o) o .inv) ∧ (∀ o, Maintains (.flushr o) o .flush)
  ∧ (∀ (s s1 : State) (idx : Nat) (m : MaintOp) (va : DWord) (pa key : Nat) (d : Bool) (rs : List (Nat × Nat)),
      (teamMaint s.team)[idx]? = some m →
      transPages s.team m.tag (if m.kind = .clean then .read else .write) (rangePages m.base m.len) s [] = (.ok pa d key s1, va, rs) →
      exec (.maintenanceComplete s.team.uid idx) s =
        let s2 := { s1 with ms := maintRanges (l2View s1) m.kind s1.ms rs }
        .next (State.modTeam (if m.kind = .clean then s2 else dropClean rs s2) s.team.uid fun t => dropMaint t m.tag))
  ∧ (∀ (s s1 : State) (idx e : Nat) (m : MaintOp) (va : DWord) (rs : List (Nat × Nat)), (teamMaint s.team)[idx]? = some m →
      transPages s.team m.tag (if m.kind = .clean then .read else .write) (rangePages m.base m.len) s [] = (.fail e s1, va, rs) →
      exec (.maintenanceComplete s.team.uid idx) s =
        let s2 := { s1 with ms := maintRanges (l2View s1) m.kind s1.ms rs }
        .next (State.modTeam (if m.kind = .clean then s2 else dropClean rs s2) s.team.uid fun t =>
          dropMaint (noteErr t m.tag 7 (trap5 9 none (va &&& ~~~0xFFF))) m.tag))
  ∧ (∀ (v : L2View) (ms : MemSide) (x : Sector), ms.mem.wf = true → l2Find ms x.num = some x → x.data.length = 64 →
      isCached (64 * x.num) = true →
      (∀ j, j < 64 → x.dirty = true → keyGet (maintSector v .clean ms x).mem x.key (64 * x.num + j) = x.data.getD j 0)
      ∧ (∀ k a, isRaw a = false → commByteK (maintSector v .clean ms x) k a = commByteK ms k a)
      ∧ l2Find (maintSector v .inv ms x) x.num = none ∧ (maintSector v .inv ms x).mem = ms.mem
      ∧ (∀ k j, j < 64 → commByteK (maintSector v .inv ms x) k (64 * x.num + j) = keyGet ms.mem k (64 * x.num + j))
      ∧ l2Find (maintSector v .flush ms x) x.num = none
      ∧ (x.dirty = true → ∀ k a, isRaw a = false → (a / 64 = x.num → k = x.key) →
          commByteK (maintSector v .flush ms x) k a = commByteK ms k a))

/-- R411 and R412: SYNCI drops every fetched copy of the range's sectors; TLBINV drops the translations of an address space on
its range and the fetched words there at once, waits for the accesses that may have used them, and then drops what the address space's
teams had not published on the pages dropped. That TLBINV drops fetched words, and SYNCI those of the team's own address space by their
virtual address, is the model's choice (log 61). -/
def Obligations.CodeAndTranslation : Prop :=
  (∀ (o : RangeOp) (s : State), Runs (.synci o) s → canonical (rangeBase s o) = true → Answers (.synci o) s fun t =>
      let lo := (rangeBase s o).toNat / 64 * 64
      let hi := ((rangeBase s o).toNat + rangeLen s o + 63) / 64 * 64
      let hit := fun (a : DWord) => rangeLen s o ≠ 0 ∧ lo ≤ a.toNat ∧ a.toNat < hi
      (∀ c, c ∈ t.ms.code ↔ c ∈ s.ms.code ∧ (c.asid ≠ s.team.pl.asid ∨ ¬hit c.va))
      ∧ (∀ x, x ∈ t.team.ctl.buffer ↔ x ∈ s.team.ctl.buffer ∧ ¬hit x.1)
      ∧ Frame t { s with ms := { s.ms with code := t.ms.code },
                         team := { s.team with ctl := { s.team.ctl with buffer := t.team.ctl.buffer } } } [] [] [] (nextPc s)
      ∧ BytesKept s t)
  ∧ (∀ (o : RangeOp) (s : State) (asid b len : Nat), Runs (.tlbinv o) s →
      tlbinvArgs (rangeBase s o) (rangeLen s o) = some (asid, b, len) → s.team.passed = none → usesOld s asid b len = false → Answers (.tlbinv o) s fun t =>
      let gone := fun (e : TlbEntry) => e.asid = asid ∧ e.page < b + len ∧ b < e.page + e.size
      (∀ e, e ∈ t.ms.tlb ↔ e ∈ s.ms.tlb ∧ ¬gone e)
      ∧ (∀ c, c ∈ t.ms.code ↔ c ∈ s.ms.code ∧ ¬(c.asid = asid ∧ c.va.toNat < b + len ∧ b < c.va.toNat + 4))
      ∧ t.ms = { s.ms with tlb := t.ms.tlb, code := t.ms.code }
      ∧ (s.team.pl.asid ≠ asid → t.team.ver = s.team.ver ∧ BytesKept s t)
      ∧ (s.team.kind ≠ .stratum → s.team.pl.asid = asid → ∀ e ∈ s.ms.tlb, gone e → ∀ c ∈ t.team.ver.wside,
          ¬((droppedRange s e b len).1 ≤ c.1 ∧ c.1 < (droppedRange s e b len).1 + (droppedRange s e b len).2))
      ∧ t.team.rf = s.team.rf ∧ t.team.sp = s.team.sp ∧ GoesTo s.team t.team (nextPc s))
  ∧ (∀ (o : RangeOp) (s : State) (asid b len : Nat), Runs (.tlbinv o) s →
      tlbinvArgs (rangeBase s o) (rangeLen s o) = some (asid, b, len) → usesOld s asid b len = true → Answers (.tlbinv o) s fun t =>
      (∃ w, t.team = { (noteIssue s).team with wait := .inval w } ∧ invalOver t w = false)
      ∧ (∀ e, e ∈ t.ms.tlb ↔ e ∈ s.ms.tlb ∧ ¬(e.asid = asid ∧ e.page < b + len ∧ b < e.page + e.size)) ∧ BytesKept s t)

/-! ### The matrix unit -/

/-- The command a matrix instruction queues (R238, R239, R243). -/
abbrev Sys2Proof.cmdOf (s : State) (p : Pair) (kind : MCmdKind) : MCmd :=
  { uid := s.team.uid, team := s.team.pl.team, follower := isFollower p s.team.pl.core, tag := s.team.nextTag, pc := s.team.ctl.pc,
    seq := p.seq + 1, kind := kind }

/-- An instruction puts a command at the end of its pair's queue and an operation in flight, and changes nothing else. -/
def Sys2Proof.Enqueues (i : Instr) (s : State) (p : Pair) (dst : Dst) (kind : MCmdKind) : Prop :=
  s.team.eng.count 2 < 8 → p.queue.length < 8 → closedNow s p = false → Answers i s fun t =>
    pairOfTeam t t.team = some { p with seq := p.seq + 1, queue := p.queue ++ [cmdOf s p kind] }
      ∧ Posts s t 2 dst 0 false ∧ Frame t { posting s t with gangs := t.gangs } [] [] [] (nextPc s) ∧ BytesKept s t

/-- R237 to R248: MMA, MZERO, MRD and MSTS of a matrix team queue their command with the scalars and slots as they stand at
issue; MMA with no active lane does nothing; MSTAT writes the pair's record and tile states into a scalar at once; a team in
another role traps with group 12 reason 3, and so does a follower that issues MZERO. -/
def Obligations.MatrixCommands : Prop :=
  (∀ (o : MmaOp) (s : State) (p : Pair), Runs (.mma o) s → active s.team o.g ≠ 0 → pairOfTeam s s.team = some p → s.team.pl.role = 2 →
      s.team.pl.core = p.leader → p.halted = false → (sget s.team o.sa.toNat).toNat % 128 = 0 →
      (sget s.team o.sa.toNat).toNat + aBytes (slotOf (fsget s.team o.fa.toNat)) ≤ allotment s s.team →
      Enqueues (.mma o) s p .none (.mma o.t.toNat (sget s.team o.sa.toNat) o.vb.toNat (fsget s.team o.fa.toNat)
        (fsget s.team o.fb.toNat) o.z o.low.toNat))
  ∧ (∀ (o : MmaOp) (s : State), Runs (.mma o) s → active s.team o.g = 0 → Answers (.mma o) s fun t => OnlyWrites s t [] [] [])
  ∧ (∀ (o : MzeroOp) (s : State) (p : Pair), Runs (.mzero o) s → pairOfTeam s s.team = some p → s.team.pl.role = 2 →
      s.team.pl.core = p.leader → Enqueues (.mzero o) s p .none (.mzero o.t.toNat))
  ∧ (∀ (o : MrdOp) (s : State) (p : Pair), Runs (.mrd o) s → pairOfTeam s s.team = some p → s.team.pl.role = 2 → p.halted = false →
      tileState p ((sget s.team o.a.toNat).toNat % 4) ≠ .invalid →
      Enqueues (.mrd o) s p (.vec o.d.toNat (active s.team o.g) [List.replicate s.team.rf.n 0]) (.mrd (sget s.team o.a.toNat)))
  ∧ (∀ (o : SS) (s : State) (p : Pair), Runs (.msts o) s → pairOfTeam s s.team = some p → s.team.pl.role = 2 → p.halted = false →
      let sel := sget s.team o.a.toNat
      let dst := sget s.team o.b.toNat
      let slot := fsget s.team (bitsOf sel.toNat 2 3)
      dst.toNat % 16 = 0 → dst.toNat + 128 * mstsPitch sel slot ≤ allotment s s.team → Enqueues (.msts o) s p .none (.msts sel dst slot))
  ∧ (∀ (o : SD) (s : State) (p : Pair), Runs (.mstat o) s → pairOfTeam s s.team = some p → s.team.pl.role = 2 →
      p.err.code < 16 → p.queue.length ≤ 8 → Answers (.mstat o) s fun t => OnlyWrites s t [] [o.d.toNat] []
        ∧ bitsOf (sget t.team o.d.toNat).toNat 28 4 = (if p.err.valid then p.err.code else 0)
        ∧ bitsOf (sget t.team o.d.toNat).toNat 20 8 = p.err.seq.toNat % 256
        ∧ (sget t.team o.d.toNat).getLsbD 19 = p.err.reported ∧ (sget t.team o.d.toNat).getLsbD 18 = p.halted
        ∧ bitsOf (sget t.team o.d.toNat).toNat 14 4 = p.queue.length
        ∧ ∀ k, k < 4 → bitsOf (sget t.team o.d.toNat).toNat (2 * k) 2 =
            match tileState p k with | .untyped => 0 | .fp32 => 1 | .int32 => 2 | .invalid => 3)
  ∧ (∀ (o : MzeroOp) (s : State) (p : Pair), Ready (.mzero o) s → pairOfTeam s s.team = some p → s.team.pl.core ≠ p.leader →
      exec (.mzero o) s = .next (trapBefore (noteIssue s) (trapRole s.team 0x4D 0)))
  ∧ (∀ (o : MrdOp) (s : State), Ready (.mrd o) s → s.team.pl.role ≠ 2 →
      exec (.mrd o) s = .next (trapBefore (noteIssue s) (trapRole s.team 0x4D 1)))

/-- The value of an accumulator after some K-groups of a bit-plane product: each group's exact sum is added with saturation (R157). -/
def Sys2Proof.afterGroups (sum : Nat → Int) (acc : Word) : Nat → Word
  | 0 => acc
  | g + 1 => clamp32 ((afterGroups sum acc g).toInt + sum g)

/-- The exact sum of one K-group of 16 products (R157). -/
abbrev Sys2Proof.groupSum (a b : Nat → Int) (g : Nat) : Int := ((List.range 16).map fun n => a (16 * g + n) * b (16 * g + n)).sum

/-- The code that MSTS stores of an FP32 element under its output slot (R168, R247). -/
abbrev Sys2Proof.convertedCode (slot : DWord) (x : Word) : Nat :=
  let o := slotOf slot
  (o.fmt false).encode ⟨if o.round = 1 then .rtz else .rne, 0, 32⟩ o.sat ((fp32.decode x.toNat).div o.ts)

/-- R247: the bytes that an MSTS stores of its core's half of a tile: the 128 words of each row raw, or the row's elements converted and packed;
nothing else. -/
def Sys2Proof.MstsBytesClaim : Prop :=
  ∀ (s : State) (grid gang : Nat) (p : Pair) (scr : Nat → Byte) (c : MCmd) (sel dst : Word) (slot : DWord), c.kind = .msts sel dst slot →
    mstsErr p sel slot = none → ∃ cells, startCmd s grid gang p scr c = .ok (.store cells)
      ∧ let tile := p.tiles.getD (sel.toNat % 4) ⟨.untyped, [], []⟩
        let word := fun (i j : Nat) => tileWord (if c.follower then tile.foll else tile.lead) (128 * i + j)
        let w := (slotOf slot).width
        let row := if sel.getLsbD 5 then rowBytes w 128 else 512
        (sel.getLsbD 5 = false → mstsPitch sel slot = 512 ∧ ∀ i j k, i < 128 → j < 128 → k < 4 →
          lastAt cells (dst.toNat + 512 * i + 4 * j + k) = some ((word i j).extractLsb' (8 * k) 8))
        ∧ (sel.getLsbD 5 = true → mstsPitch sel slot % 16 = 0 ∧ row ≤ mstsPitch sel slot ∧ mstsPitch sel slot < row + 16
          ∧ ∀ i j, i < 128 → j < 128 → let l := innerLoc w j
            bitsOf (ofLeBytes ((List.range l.2.1).map fun k => (lastAt cells (dst.toNat + mstsPitch sel slot * i + l.1 + k)).getD 0)) l.2.2 w
              = convertedCode slot (word i j) % 2 ^ w)
        ∧ ∀ a, (lastAt cells a).isSome = true ↔ ∃ i, i < 128 ∧ dst.toNat + mstsPitch sel slot * i ≤ a
            ∧ a < dst.toNat + mstsPitch sel slot * i + row

/-- R157, R233 to R247: the head of a pair's queue starts when the registers it reads are full, and retires with its effect: an
MMA leaves in every element of its tile the old element, or zero, plus the K-groups of the products, of a float pairing or of bit planes; MZERO
clears its tile, and on a halted queue whose record was reported it clears the record and restarts the queue; MRD
delivers 32 elements of a row; MSTS writes its bytes into scratchpad; the next command follows. That a command reads all of A as it starts is
log 31; that a tile changes in a handler's entry that holds it too is log 47. -/
def Obligations.MatrixExecution : Prop :=
  (∀ (s : State) (gi pi : Nat) (g : Gang) (p : Pair) (c : MCmd) (rest : List MCmd) (r : MRun), s.gangs[gi]? = some g →
      g.pairs[pi]? = some p → p.running = none → p.queue = c :: rest → canStart s g.grid g.idx p c = true →
      startCmd s g.grid g.idx p (fun n => (cellGet g.scratch n).getD 0) c = .ok r → storageErr s g.grid g.idx p c = none →
      exec (.matrixCmdStart gi pi) s =
        .next (modPair { s with free := s.free + 16384 } g.grid g.idx p.idx fun p => { p with running := some r }))
  ∧ (∀ (s : State) (gi pi : Nat) (g : Gang) (p : Pair) (c : MCmd) (rest : List MCmd) (r : MRun), s.gangs[gi]? = some g →
      g.pairs[pi]? = some p → p.running = some r → p.queue = c :: rest →
      let put := fun (q : Pair) => putPair s g.grid g.idx p q
      let gone := { p with running := none, queue := rest }
      ((∀ u ∈ s.teams, ∀ h, u.handler = some h → h.tiles = false) → ∀ q : Pair, put q = modPair s g.grid g.idx p.idx fun _ => q)
      ∧ (∀ t x, r = .tile t x → exec (.matrixCmdRetire gi pi) s =
          .next (retireCmd (put { p with running := none, queue := rest, tiles := p.tiles.set t x }) c []))
      ∧ (∀ t, r = .clear t →
          let cleared := { gone with tiles := p.tiles.set t ⟨.untyped, [], []⟩ }
          (p.halted = false ∨ p.err.reported = false → exec (.matrixCmdRetire gi pi) s = .next (retireCmd (put cleared) c []))
          ∧ (p.halted = true → p.err.reported = true → exec (.matrixCmdRetire gi pi) s =
              .next (retireCmd (put { cleared with err := MErr.clear, halted := false }) c [])))
      ∧ (∀ vals, r = .row vals → exec (.matrixCmdRetire gi pi) s =
          .next (retireCmd (put { p with running := none, queue := rest }) c vals))
      ∧ (∀ cells, r = .store cells → exec (.matrixCmdRetire gi pi) s =
          .next (retireCmd ((put { p with running := none, queue := rest }).modGang g.grid g.idx fun g =>
            { g with scratch := cellSets g.scratch cells }) c [])))
  ∧ (∀ (s : State) (grid gang : Nat) (p : Pair) (scr : Nat → Byte) (c : MCmd) (t vb low : Nat) (a0 : Word) (fa fb : DWord) (z : Bool),
      c.kind = .mma t a0 vb fa fb z low → mmaErr s grid gang p t vb fa fb z low = none → (slotOf fa).fam ≠ 8 →
      ∃ new kk, startCmd s grid gang p scr c = .ok (.tile t new) ∧ new.state = .fp32
        ∧ pairingOf (slotOf fa) (slotOf fb) = some (kk, false)
        ∧ ∀ i j, i < 128 → j < 128 →
          let reg := fun (half r : Nat) => bReg s (quadTeams s grid gang p) (128 * half + j) (vb + r)
          let val := fun (half : Nat) (old : Word) => dotFloat (aElem (fun n => scr (a0.toNat + n)) (slotOf fa) kk i)
            (bElem (reg half) (slotOf fb)) (kk / 16) (if z then 0 else old)
          let was := p.tiles.getD t ⟨.untyped, [], []⟩
          tileWord new.lead (128 * i + j) = val 0 (tileWord was.lead (128 * i + j))
            ∧ tileWord new.foll (128 * i + j) = val 1 (tileWord was.foll (128 * i + j)))
  ∧ (∀ (s : State) (grid gang : Nat) (p : Pair) (scr : Nat → Byte) (c : MCmd) (t vb low : Nat) (a0 : Word) (fa fb : DWord) (z : Bool),
      c.kind = .mma t a0 vb fa fb z low → mmaErr s grid gang p t vb fa fb z low = none → (slotOf fa).fam = 8 →
      ∃ new, startCmd s grid gang p scr c = .ok (.tile t new) ∧ new.state = .int32 ∧ pairingOf (slotOf fa) (slotOf fb) = some (64, true)
        ∧ ∀ i j, i < 128 → j < 128 →
          let reg := fun (half r : Nat) => bReg s (quadTeams s grid gang p) (128 * half + j) (vb + r)
          let val := fun (half : Nat) (old : Word) =>
            afterGroups (groupSum (aPlane (fun n => scr (a0.toNat + n)) (slotOf fa).planes i) (bPlane (reg half) (slotOf fb).planes))
              (if z then 0 else old) 4
          let was := p.tiles.getD t ⟨.untyped, [], []⟩
          tileWord new.lead (128 * i + j) = val 0 (tileWord was.lead (128 * i + j))
            ∧ tileWord new.foll (128 * i + j) = val 1 (tileWord was.foll (128 * i + j)))
  ∧ MstsBytesClaim
  ∧ (∀ (s : State) (grid gang : Nat) (p : Pair) (scr : Nat → Byte) (c : MCmd) (sel : Word), c.kind = .mrd sel → sel.toNat < 2048 →
      tileState p (sel.toNat % 4) ≠ .invalid →
      let tile := p.tiles.getD (sel.toNat % 4) ⟨.untyped, [], []⟩
      startCmd s grid gang p scr c = .ok (.row ((List.range 32).map fun L =>
        tileWord (if c.follower then tile.foll else tile.lead) (128 * bitsOf sel.toNat 2 7 + 32 * bitsOf sel.toNat 9 2 + L))))
  ∧ (∀ (s : State) (grid gang : Nat) (p : Pair) (scr : Nat → Byte) (c : MCmd) (t : Nat), c.kind = .mzero t →
      startCmd s grid gang p scr c = .ok (.clear t))

/-! ### Vertex homes -/

/-- The requests of a vertex instruction (R257): one for each active lane, in lane order. -/
abbrev Sys2Proof.requestsOf (s : State) (xs : List LaneAcc) (kind : Nat → VReqKind) : List VReq :=
  xs.map fun x => { uid := s.team.uid, tag := s.team.nextTag, lane := x.lane, home := homeOf s x.va, va := x.va, pa := x.pa,
                    key := x.key, kind := kind x.lane }

/-- A vertex instruction sends its requests and posts an operation on the AT path that waits for each of its lanes. -/
def Sys2Proof.Sends (i : Instr) (s : State) (g : BitVec 3) (d regs : Nat) (xs : List LaneAcc) (kind : Nat → VReqKind) : Prop :=
  Answers i s fun t => ∃ waits : LaneSet, ∃ data, data.length = regs
    ∧ Posts s t 4 (.vec d (active s.team g) data) waits xs.isEmpty
    ∧ (∀ L, L < s.team.rf.n → waits.getLsbD L = (active s.team g).getLsbD L)
    ∧ t.vx = { s.vx with travelling := s.vx.travelling ++ requestsOf s xs kind }
    ∧ Frame t { posting s t with ms := t.ms, vx := t.vx } [] [] [] (nextPc s) ∧ BytesKept s t

/-- The addresses of a vertex instruction pass R260 and R261: aligned, canonical, in the region, readable and writable; none lies in
a sector with an outstanding scatter (R316). -/
def Sys2Proof.VertexOk (s : State) (align : Nat) (as : List (Nat × DWord)) (xs : List LaneAcc) : Prop :=
  formOk align as = none ∧ (∀ x ∈ as, inRegion s x.2 = true) ∧ checkLanes s .rw false 1 as = .ok xs ∧ NoScatter s xs

/-- An AOP sends its operation with the lane's operand, a doubleword's from two registers under `.DW` (R260). -/
def Sys2Proof.AopResult (i : AopOp → Instr) (op : AopOp → AtomicOp) : Prop :=
  ∀ (o : AopOp) (s : State) (xs : List LaneAcc), RunsLanes (i o) s → s.team.eng.count 4 < 64 →
    let dw := (hmodOf s.team).dw
    let k := if dw then 2 else 1
    VertexOk s (4 * k) (laneAddrs s.team o.g (memAddr s.team o.s o.a)) xs →
    Sends (i o) s o.g o.d.toNat k xs fun L =>
      .aop (op o) dw (aopArg s.team dw o.d.toNat L) (if op o = .cas then aopArg s.team dw (o.d.toNat + k) L else 0)

/-- R252, R257, R260 and R261: the eight AOPs and CALLM send one request for each active lane to the home of its address; the
destination stays empty until the replies are there. -/
def Obligations.VertexRequests : Prop :=
  AopResult .aopAdd (fun _ => .add) ∧ AopResult .aopMin (fun o => if o.u then .minU else .minS)
  ∧ AopResult .aopMax (fun o => if o.u then .maxU else .maxS) ∧ AopResult .aopXchg (fun _ => .xchg)
  ∧ AopResult .aopAnd (fun _ => .and) ∧ AopResult .aopOr (fun _ => .or) ∧ AopResult .aopXor (fun _ => .xor)
  ∧ AopResult .aopCas (fun _ => .cas)
  ∧ (∀ (o : CallmOp) (s : State) (xs : List LaneAcc), RunsLanes (.callm o) s → s.team.eng.count 4 < 64 →
      VertexOk s 1 (laneAddrs s.team o.g fun L => vbase s + ((vget s.team o.a.toNat L).setWidth 64 : DWord) * 64) xs →
      Sends (.callm o) s o.g o.d.toNat 1 xs fun L => .call o.m.toNat (va s o.d L))
  ∧ (∀ (s : State) (i : Nat) (q : VReq), s.vx.travelling[i]? = some q →
      (∀ p ∈ s.vx.travelling.take i, p.uid = q.uid → p.home ≠ q.home) → (s.vx.homes.getD q.home Home.empty).queue.length < 2048 →
      exec (.vertexRequestArrival i) s = .next (modHome { s with vx := { s.vx with travelling := s.vx.travelling.eraseIdx i } } q.home
        fun h => { h with queue := h.queue ++ [q] }))

/-- R258 to R260: a home takes its first request that may act. An atomic replaces the word or doubleword in committed memory by
the function of its operation and replies with the old value, and no other byte changes; a call that must be refused is answered
with status 3 and the refusal's number. -/
def Obligations.VertexAtomics : Prop :=
  (∀ (s : State) (h : Nat) (q : VReq), Invariant s →
      eligible s.ms (lockedBlocks (s.vx.homes.getD h Home.empty)) (fun q => !q.isCall || (refusalOf s q).isSome) []
        (s.vx.homes.getD h Home.empty).queue = some q →
      (∀ op dw x new, q.kind = .aop op dw x new → isRaw q.pa = false → q.pa % 8 + (if dw then 8 else 4) ≤ 8 →
        let n := if dw then 8 else 4
        let old : DWord := BitVec.ofNat 64 (ofLeBytes (commBytesK s.ms q.key q.pa n))
        Answers (.combineAtomic h) s fun t => ∃ u, t = replyTo u q (if dw then [loHalf old, hiHalf old] else [loHalf old])
          ∧ u = { modHome s h (fun x => { x with queue := x.queue.erase q }) with ms := u.ms }
          ∧ (Coherent s.ms → KeyHeld s.ms q.key q.pa → KeyHeld t.ms q.key q.pa →
            ∀ k, k < n → commByteK t.ms q.key (q.pa + k) = (atomicFn op dw old x new).extractLsb' (8 * k) 8)
          ∧ (Coherent s.ms → ∀ k a, isRaw a = false → KeyHeld s.ms k a → KeyHeld t.ms k a → (a / 64 = q.pa / 64 → k = q.key) →
            a < q.pa ∨ q.pa + n ≤ a → commByteK t.ms k a = commByteK s.ms k a))
      ∧ (∀ m x r, q.kind = .call m x → refusalOf s q = some r → Answers (.combineAtomic h) s fun t => ∃ u,
          t = replyTo u q [BitVec.ofNat 32 (3 * 2 ^ 30 + r)] ∧ u.ms = s.ms))
  ∧ (∀ (a x n : Word), let f := fun op => loHalf (atomicFn op false (a.setWidth 64) (x.setWidth 64) (n.setWidth 64))
      f .add = a + x ∧ f .minS = BitVec.ofInt 32 (min a.toInt x.toInt) ∧ f .maxS = BitVec.ofInt 32 (max a.toInt x.toInt)
      ∧ f .minU = BitVec.ofNat 32 (min a.toNat x.toNat) ∧ f .maxU = BitVec.ofNat 32 (max a.toNat x.toNat) ∧ f .xchg = x
      ∧ f .and = a &&& x ∧ f .or = a ||| x ∧ f .xor = a ^^^ x ∧ f .cas = if a = x then n else a)
  ∧ (∀ (a x n : DWord), let f := fun op => atomicFn op true a x n
      f .add = a + x ∧ f .minS = BitVec.ofInt 64 (min a.toInt x.toInt) ∧ f .maxS = BitVec.ofInt 64 (max a.toInt x.toInt)
      ∧ f .minU = BitVec.ofNat 64 (min a.toNat x.toNat) ∧ f .maxU = BitVec.ofNat 64 (max a.toNat x.toNat) ∧ f .xchg = x
      ∧ f .and = a &&& x ∧ f .or = a ||| x ∧ f .xor = a ^^^ x ∧ f .cas = if a = x then n else a)

/-- The home of the cluster the team in focus runs in (R18, R262). -/
abbrev Sys2Proof.ownHome (s : State) : Home := s.vx.homes.getD (clusterOf s.team.pl.core) Home.empty

/-- The vertex state with another value of the home of the team in focus. -/
abbrev Sys2Proof.withHome (s : State) (h : Home) : VertexUnit := { s.vx with homes := s.vx.homes.set (clusterOf s.team.pl.core) h }

/-- The state after the replies of a batch: each request's lane gets its slot, or the value that R265 gives an unanswered one. -/
abbrev Sys2Proof.answered (s : State) (b : VBatch) : State :=
  (b.reqs.zip b.slots).foldl (fun s x => replyTo s x.1 [x.2.getD 0x7FFFFFFF]) s

/-- The entry of a class and method in the class store. -/
abbrev Sys2Proof.methodEntry (s : State) (cls m : Nat) : Word :=
  match s.vx.classes.find? fun c => c.1 == cls with | some c => c.2.getD m 0 | none => 0

/-- R263: CBATCH forms a batch of calls of one method of one object: its lanes become the mask, each gets its argument,
four scalars describe the batch. With no request that may act the wave waits. -/
def Sys2Proof.BatchFormsClaim : Prop :=
  (∀ (o : CbatchOp) (s : State) (first : VReq) (size cls : Nat), Runs (.cbatch o) s → clusterOf s.team.pl.core < s.vx.homes.length →
      (ownHome s).batch = none → s.team.ctl.stack = [] →
      eligible s.ms [] (fun q => q.isCall && (refusalOf s q).isNone) [] (ownHome s).queue = some first →
      headerOf s.ms first.key first.pa = some (size, cls) → Answers (.cbatch o) s fun t =>
        ∃ b reqs, b.reqs = first :: reqs ∧ reqs.length ≤ 31
          ∧ (∀ q ∈ reqs, q ∈ (ownHome s).queue ∧ q.va = first.va ∧ q.isCall = true ∧ reqMethod q = reqMethod first)
          ∧ b = { reqs := first :: reqs, va := first.va, pa := first.pa, key := first.key, size := size, cls := cls,
                  method := reqMethod first, slots := List.replicate (reqs.length + 1) none, buffer := [] }
          ∧ t.vx = withHome s { ownHome s with batch := some b, queue := (ownHome s).queue.filter fun q => !b.reqs.contains q }
          ∧ t.team.ctl.mask = allLanes b.reqs.length
          ∧ (∀ L, L < s.team.rf.n → va t o.d L = match b.reqs[L]? with | some q => reqArg q | none => va s o.d L)
          ∧ spair t.team (4 * o.a.toNat) = first.va
          ∧ sget t.team (4 * o.a.toNat + 2)
            = BitVec.ofNat 32 (cls * 2 ^ 22 + reqMethod first * 2 ^ 16 + size * 2 ^ 12 + b.reqs.length)
          ∧ sget t.team (4 * o.a.toNat + 3) = methodEntry s cls (reqMethod first) &&& ~~~3
          ∧ Frame t { s with vx := t.vx, team := { s.team with ctl := { s.team.ctl with mask := t.team.ctl.mask } } } [o.d.toNat]
              (regsFrom (4 * o.a.toNat) 4) [] (nextPc s)
          ∧ BytesKept s t)
  ∧ (∀ (o : CbatchOp) (s : State), Ready (.cbatch o) s → (ownHome s).batch = none → s.team.ctl.stack = [] →
      eligible s.ms [] (fun q => q.isCall && (refusalOf s q).isNone) [] (ownHome s).queue = none →
      exec (.cbatch o) s = .next (hold s .batch))

/-- R264: CREPLY puts a lane's status and value into its return slot; a status above 1 traps with group 11 reason 5 and names the
lowest such lane. -/
def Sys2Proof.BatchRepliesClaim : Prop :=
  ∀ (o : CreplyOp) (s : State) (b : VBatch), (ownHome s).batch = some b → clusterOf s.team.pl.core < s.vx.homes.length →
    let mine := fun (L : Nat) => L < s.team.rf.n ∧ s.team.ctl.mask.getLsbD L = true ∧ L < b.reqs.length
    (Runs (.creply o) s → (∀ L, mine L → (va s o.b L).toNat % 4 < 2) → Answers (.creply o) s fun t =>
      ∃ c : VBatch, t.vx = withHome s { ownHome s with batch := some c } ∧ c = { b with slots := c.slots } ∧ c.slots.length = b.slots.length
        ∧ (∀ L, L < b.slots.length → (mine L → c.slots.getD L none
            = some (BitVec.ofNat 32 ((va s o.b L).toNat % 4 * 2 ^ 30 + (va s o.a L).toNat % 2 ^ 30)))
          ∧ (¬mine L → c.slots.getD L none = b.slots.getD L none))
        ∧ Frame t { s with vx := t.vx } [] [] [] (nextPc s) ∧ BytesKept s t)
    ∧ (∀ L, Ready (.creply o) s → mine L → 2 ≤ (va s o.b L).toNat % 4 → (∀ K, K < L → mine K → (va s o.b K).toNat % 4 < 2) →
      exec (.creply o) s = .next (trapBefore (noteIssue s) (trap11 s.team 5 (some L) 0)))

/-- R265: CDONE makes the cell's bytes committed, answers every request of the batch with its slot, closes the batch, and sets all
lanes. -/
def Sys2Proof.BatchEndsClaim : Prop :=
  ∀ (s : State) (b : VBatch), Runs .cdone s → Invariant s → clusterOf s.team.pl.core < s.vx.homes.length → (ownHome s).batch = some b →
    s.team.ctl.stack = [] → s.team.ctl.loops = [] → (∀ c ∈ b.buffer, isRaw c.1 = false) → Answers .cdone s fun t =>
      (Coherent s.ms → ∀ k a, isRaw a = false → KeyHeld s.ms k a → KeyHeld t.ms k a → (∀ c ∈ b.buffer, c.1 / 64 = a / 64 → b.key = k) →
        commByteK t.ms k a = (lastAt b.buffer a).getD (commByteK s.ms k a))
      ∧ t.vx = withHome s { ownHome s with batch := none, seq := (ownHome s).seq + 1 }
      ∧ Frame t { answered s b with ms := t.ms, vx := t.vx, team := { (answered s b).team with
          ctl := { s.team.ctl with mask := allLanes 32 } } } [] [] [] (nextPc s)

/-- R262 to R265: CBATCH forms a batch of calls, CREPLY fills a return slot, CDONE commits the cell and answers the batch. Outside a
batch CREPLY and CDONE trap with group 11 reason 4. -/
def Obligations.VertexBatches : Prop :=
  BatchFormsClaim ∧ BatchRepliesClaim ∧ BatchEndsClaim
  ∧ (∀ (o : CreplyOp) (s : State), Ready (.creply o) s → (ownHome s).batch = none →
      exec (.creply o) s = .next (trapBefore (noteIssue s) (trap11 s.team 4 none 0)))
  ∧ (∀ (s : State), Ready .cdone s → (ownHome s).batch = none →
      exec .cdone s = .next (trapBefore (noteIssue s) (trap11 s.team 4 none 0)))

/-- The polls a TWAIT makes (R268): each lane's sector and its watch point, the place in the device order its held state dates
from. -/
abbrev Sys2Proof.pollsOf (s : State) (xs : List LaneAcc) : List (Nat × Nat × Nat) :=
  xs.map fun x => (x.lane, x.pa / 64,
    watchPoint s.ms { s.team.ver with snap := some (s.team.ver.snap.getD s.ms.stamp) } (x.pa / 64))

/-- The end of a wait of R268 of a team whose version the wait has left as `v`: each polled lane's predicate says whether its sector was written,
the rest of the predicate stays, the holds on the polled sectors are released, so that they read as committed now, the snapshot stays and every
other sector reads as before; the team goes on. -/
def Sys2Proof.Polled (s t : State) (v : Version) (polls : List (Nat × Nat × Nat)) (p : BitVec 3) : Prop :=
  (∀ L, L < s.team.rf.n → pa t p L =
      if polls.any fun x => x.1 == L then polls.any fun x => x.1 == L && decide (x.2.2 < lastWrite s.ms x.2.1) else pa s p L)
    ∧ t.team.ver.snap = v.snap
    ∧ (∀ x ∈ polls, x.2.1 ∉ t.team.ver.held ∧ (Invariant s → ∀ k a, a / 64 = x.2.1 →
        teamByte t k a = (openByte s.team.ver a).getD (commByteK s.ms k a)))
    ∧ (∀ n, (∀ x ∈ polls, x.2.1 ≠ n) → (n ∈ t.team.ver.held ↔ n ∈ s.team.ver.held) ∧ ∀ k a, a / 64 = n →
        teamByte t k a = readByte s.ms v k a)
    ∧ Frame t { s with ms := t.ms, team := { s.team with ver := t.team.ver } } [] [] [p.toNat] (nextPc s)

/-- R256, R268 and R269: MREG copies a table of 64 words into a class of every home. TWAIT with no
sector written yet and a limit that is not zero waits; otherwise, and when a waiting team wakes, it writes its predicate. A team that a long
limit had parked fetches its loop body anew (R131). -/
def Obligations.WaitsAndClasses : Prop :=
  (∀ (o : MregOp) (s : State) (x : LaneAcc), Runs (.mreg o) s → s.ms.ecc = [] → (∀ p ∈ s.team.poison, p.1 ≠ s.team.nextTag) →
      checkLanes s .read true 256 [(0, spair s.team (2 * o.b.toNat))] = .ok [x] → NoScatter s (sectorAccs x 256) →
      let cls := (sget s.team o.a.toNat).toNat
      let word := fun (i : Nat) => loaded 4 (fun k => seeByte s x.via x.key (x.pa + 4 * i + k)) 0
      1 ≤ cls → cls ≤ 1023 → (∀ i, i < 64 → (word i).getLsbD 1 = false) → Answers (.mreg o) s fun t =>
        t.vx.classes = (cls, (List.range 64).map word) :: s.vx.classes.filter (fun c => c.1 != cls)
        ∧ Frame t { throughL1 s t with vx := { s.vx with classes := t.vx.classes } } [] [] [] (nextPc s) ∧ OthersStay s t ∧ BytesKept s t)
  ∧ (∀ (o : TwaitOp) (s : State) (xs : List LaneAcc), RunsLanes (.twait o) s → active s.team o.g ≠ 0 → s.team.stage = .resident →
      s.team.passed = none → NoScatter s xs → checkLanes s .read false 1 (laneAddrs s.team o.g (memAddr s.team o.s o.a)) = .ok xs →
      let ticks := (sget s.team o.d.toNat).toNat
      let hit := (pollsOf s xs).any fun x => decide (x.2.2 < lastWrite s.ms x.2.1)
      (ticks ≠ 0 → hit = false → Answers (.twait o) s fun t =>
        t.team.wait = .twait { polls := pollsOf s xs, limit := s.cycle + BitVec.ofNat 64 ticks, p := o.p, long := decide (16384 ≤ ticks) }
          ∧ t.team.rf = s.team.rf ∧ t.team.ctl = s.team.ctl ∧ t.team.sp = s.team.sp ∧ BytesKept s t)
      ∧ (ticks = 0 ∨ hit = true → Answers (.twait o) s fun t =>
        Polled s t { s.team.ver with snap := some (s.team.ver.snap.getD s.ms.stamp) } (pollsOf s xs) o.p))
  ∧ (∀ (o : TwaitOp) (s : State), Runs (.twait o) s → active s.team o.g = 0 → Answers (.twait o) s fun t => OnlyWrites s t [] [] [])
  ∧ (∀ (s : State) (w : Twait), s.team.wait = .twait w → s.team.stage = .resident → s.team.passed = none → w.p ≠ 7 → Shaped s.team → Laned s.team →
      Straight s → Answers (.twaitWake s.team.uid) s fun t =>
        Polled { s with team := { s.team with ctl := { s.team.ctl with buffer := if w.long then [] else s.team.ctl.buffer } } } t s.team.ver
          w.polls w.p)

/-! ### Launching, waiting for grids, stage rings -/

/-- A record of `len` bytes can be read by the team in focus at an aligned address (R184, R211): its bytes, and the state in which
the read has fixed the snapshot and filled the caches, for which sectors may have left L1. -/
def Sys2Proof.ReadsRecord (s : State) (align : Nat) (va : DWord) (len : Nat) (bs : List Byte) (u : State) : Prop :=
  (∀ k, withBytes align s va len k = k bs u) ∧ u = throughL1 s u ∧ OthersStay s u ∧ BytesKept s u

/-- The bytes of a record whose pages' accesses have passed their checks, as the team reads them (R184). -/
abbrev Sys2Proof.recordBytes (s : State) (va : DWord) (len : Nat) (xs : List LaneAcc) : List Byte :=
  (xs.zip ((rangePages va len).map fun p => p.2)).flatMap fun p => (List.range p.2).map fun i => seeByte s p.1.via p.1.key (p.1.pa + i)

/-- A record is read page by page as the team reads memory: where its pages pass the checks of R183, no data of it has an error and
no scatter of the team is outstanding, its bytes are those the team reads. -/
def Sys2Proof.RecordsReadClaim : Prop :=
  ∀ (s : State) (align len : Nat) (va : DWord) (xs : List LaneAcc),
    checkLanes s .read true align ((0, va) :: ((rangePages va len).drop 1).map fun p => (0, p.1)) = .ok xs →
    s.ms.ecc = [] → (∀ p ∈ s.team.poison, p.1 ≠ s.team.nextTag) → s.team.ver.sx = [] →
    ∃ u, ReadsRecord s align va len (recordBytes s va len xs) u

/-- The grid a team's LAUNCH starts from a record (R294, R306). -/
abbrev Sys2Proof.childGrid (s : State) (r : List DWord) : Grid :=
  { id := s.sched.nextGrid, from_ := .team s.team.uid s.team.pl.grid, rec_ := r, asid := s.team.pl.asid,
    prio := if s.team.pl.priv then recPrio r else min (recPrio r) s.team.pl.prio, depth := s.team.pl.depth + 1, priv := recPriv r,
    cores := recClusters r &&& coresOf s s.team, since := s.cycle, next := 0, size := gangCount r, last := 23, fatal := false }

/-- R302 to R307: TRIG marks the team of a graph node's grid; WAITDEP and JOINK wait for their condition and then do nothing;
YIELD waits while other teams of the group are ready, until they have issued or 64 cycles are over; LAUNCH starts a child grid from a well-formed record, with the next id,
the launcher's address space, at most its priority and one level deeper, and seeds the generators of its core set; at depth 10 a readable
record's LAUNCH traps; POSTC queues a record as a continuation. That ids, VIDs and CONT_IDs count up is log 4, that a waiting LAUNCH reads its
record again at each try log 52, and that a first gang is tried in cluster 0 first log 102. -/
def Obligations.Launches : Prop :=
  RecordsReadClaim ∧
  (∀ (s : State), Runs .trig s → Answers .trig s fun t => OnlyWrites s t [] [] []
      ∧ t.team.book.trig = (s.team.book.trig || match s.gridOf s.team.pl.grid with | some g => fromNode g | none => false))
  ∧ (∀ (s : State), Runs .waitdep s → (depMet s s.team = true → Answers .waitdep s fun t => OnlyWrites s t [] [] [])
      ∧ (depMet s s.team = false → exec .waitdep s = .next (hold s .waitdep)))
  ∧ (∀ (s : State), Runs .joink s → (s.team.children = [] → Answers .joink s fun t => OnlyWrites s t [] [] [])
      ∧ (s.team.children ≠ [] → exec .joink s = .next (hold s .joink)))
  ∧ (∀ (s : State), Runs .yield s →
      let other := fun (o : Team) => o ∈ s.others ∧ isReady s o = true ∧ o.kind ≠ .stratum ∧ o.pl.core = s.team.pl.core
        ∧ o.pl.group = s.team.pl.group
      ((∀ o, ¬other o) → Answers .yield s fun t => OnlyWrites s t [] [] [])
      ∧ ((∃ o, other o) → Answers .yield s fun t => t.team.wait = .yield ∧ t.team.book.yieldUntil = s.arith + 64
          ∧ (∀ u, u ∈ t.team.book.yieldTo ↔ ∃ o, other o ∧ o.uid = u)
          ∧ t = { noteIssue s with team := { (noteIssue s).team with wait := .yield, book := t.team.book } }))
  ∧ (∀ (s : State), yieldOver s s.team = true → Straight s → Answers (.yieldTimeout s.team.uid) s fun t => OnlyWrites s t [] [] [])
  ∧ (∀ (o : X1) (s u : State) (bs : List Byte), Runs (.launch o) s →
      ReadsRecord (noteIssue s) 256 (spair s.team (2 * o.a.toNat)) 256 bs u →
      let r := dwordsOf 32 bs
      s.team.pl.depth ≠ 10 → badRecord r s.team.pl.priv (coresOf s s.team) = false → s.team.children.length < 256 →
      s.sched.grids.length < 4096 → Answers (.launch o) s fun t =>
        t.sched = { s.sched with grids := s.sched.grids ++ [childGrid s r], nextGrid := s.sched.nextGrid + 1 }
        ∧ t.team.children = s.team.children ++ [s.sched.nextGrid]
        ∧ (∀ c k, c < 24 → k < 32 → (childGrid s r).cores.getLsbD c = true → genOf t (32 * c + k) = seedGen (r.getD 2 0) (32 * c + k))
        ∧ Frame t { s with ms := t.ms, l1 := t.l1, others := t.others, gens := t.gens, sched := t.sched, team := { s.team with
            ver := t.team.ver, children := t.team.children } } [] [] [] (nextPc s)
        ∧ OthersStay s t ∧ BytesKept s t)
  ∧ (∀ (o : X1) (s : State), Ready (.launch o) s → let va := spair s.team (2 * o.a.toNat)
      (s.team.pl.depth = 10 → recordReadable (noteIssue s) va 256 = true → exec (.launch o) s = .next (trapBefore (noteIssue s) (trap12 s.team 2 0)))
      ∧ (va.toNat % 256 ≠ 0 → exec (.launch o) s = .next (trapBefore (noteIssue s) (trap5 1 none va))))
  ∧ (∀ (o : X1) (s u v : State) (bs cs : List Byte) (len k : Nat) (r : Saved), Runs (.postc o) s →
      ReadsRecord (noteIssue s) 256 (spair s.team (2 * o.a.toNat)) 0xA00 bs u → recordLen bs = some len →
      ReadsRecord u 256 (spair s.team (2 * o.a.toNat)) len cs v → readSaved cs false = some r → postOk v r = true →
      freePool v = some k → Answers (.postc o) s fun t => ∃ p, t.others = v.others ++ [p] ∧ p.stage = .cont k (some ⟨s.cycle, s.sched.nextPlace, targetOf v p, false⟩)
        ∧ p.posted = true ∧ p.cont = BitVec.ofNat 32 s.sched.nextCont ∧ p.rf.v = r.v ∧ p.rf.p = r.p ∧ p.rf.s = r.s ∧ p.rf.fs = s.team.rf.fs
        ∧ p.ctl.pc = r.pc ∧ p.ctl.mask = r.mask ∧ p.ctl.stack = r.stack ∧ p.ctl.loops = r.loops
        ∧ t.sched = { s.sched with poolUsed := k :: s.sched.poolUsed, nextUid := s.sched.nextUid + 1,
                                   nextVid := s.sched.nextVid + 1, nextCont := s.sched.nextCont + 1, nextPlace := s.sched.nextPlace + 1 }
        ∧ t.team.rf = s.team.rf ∧ t.team.sp = s.team.sp ∧ GoesTo s.team t.team (nextPc s))

/-- The frame of a ring operation: the scratchpad and the waiters of the team's gang may change. -/
def Sys2Proof.RingFrame (s t : State) (ss : List Nat) : Prop :=
  (∀ h ∈ s.gangs, h.grid ≠ s.team.pl.grid ∨ h.idx ≠ s.team.pl.gang → h ∈ t.gangs)
    ∧ t.gangs.map (fun h => { h with scratch := [], ringWait := [] }) = s.gangs.map (fun h => { h with scratch := [], ringWait := [] })
    ∧ Frame t { s with gangs := t.gangs } [] ss [] (nextPc s) ∧ BytesKept s t

/-- An armed conversion is this team's to carry out with its operation on ring `h` (R298): it has the source role, no unsealed copies, and
leaves at least MINC copy teams or MINV vector teams in the role. -/
def Sys2Proof.MayConvert (s : State) (v : Governor) (h : Nat) (toVector : Bool) (minimum : Nat) : Prop :=
  v.armed = some (h, toVector) ∧ s.team.pl.role = (if toVector then 1 else 0) ∧ s.team.eng.unsealed = []
    ∧ minimum + 1 ≤ roleCount s s.team (if toVector then 1 else 0)

/-- What a ring operation that moves the occupancy from `r.occ` to `after` does to the governor entry of its ring and to the team (R298): a
conversion is carried out, the arming is cleared and the quiet time starts; else outside the quiet time a crossing arms one, in place of the one
that is armed. That a crossing on another ring of the entry moves the arming there, in the armed direction too, is log 102. -/
def Sys2Proof.Governs (s t : State) (g : Gang) (v : Governor) (h after : Nat) (r : RingHdr) (ss : List Nat) : Prop :=
  let w := govWord s s.team r.gid
  let may := fun (toVector : Bool) => MayConvert s v h toVector (if toVector then bitsOf w 40 7 else bitsOf w 32 7)
  (∃ d x, t.gangOf t.team = some d ∧ d.govs.find? (fun y => y.idx == r.gid) = some x ∧ (∀ y ∈ g.govs, y.idx ≠ r.gid → y ∈ d.govs)
    ∧ (∀ toVector, may toVector → x = { v with armed := none, quiet := s.cycle + BitVec.ofNat 64 (256 * bitsOf w 48 12) }
        ∧ t.team.pl.role = if toVector then 0 else 1)
    ∧ ((∀ toVector, ¬may toVector) → t.team.pl.role = s.team.pl.role
        ∧ x = if s.cycle < v.quiet then v
              else if r.occ < bitsOf w 0 13 ∧ bitsOf w 0 13 ≤ after then { v with armed := some (h, true) }
              else if bitsOf w 16 13 < r.occ ∧ after ≤ bitsOf w 16 13 then { v with armed := some (h, false) } else v))
  ∧ (∀ d ∈ s.gangs, d.grid ≠ s.team.pl.grid ∨ d.idx ≠ s.team.pl.gang → d ∈ t.gangs)
  ∧ t.gangs.map (fun d => { d with scratch := [], ringWait := [], govs := [] })
      = s.gangs.map (fun d => { d with scratch := [], ringWait := [], govs := [] })
  ∧ Frame t { s with gangs := t.gangs, team := { s.team with pl := { s.team.pl with role := t.team.pl.role } } } [] ss [] (nextPc s)
  ∧ BytesKept s t

/-- R296, R298 and R308: RPUT puts a word and its lap tag into the slot at TAIL and raises TAIL; RGET reads the slot at HEAD and raises
HEAD. Every other byte of scratchpad and memory stays, and where the ring has a governor entry that entry follows R298, else nothing more
changes. At a full ring RPUT waits, at an empty one RGET. -/
def Obligations.StageRings : Prop :=
  let quiet := fun (s : State) (r : RingHdr) => r.gid = 7 ∨ bitsOf (govWord s s.team r.gid) 63 1 = 0
  let governed := fun (s t : State) (g : Gang) (h after : Nat) (r : RingHdr) (ss : List Nat) =>
    (quiet s r → RingFrame s t ss)
      ∧ ∀ v, r.gid ≠ 7 → bitsOf (govWord s s.team r.gid) 63 1 = 1 → g.govs.find? (fun y => y.idx == r.gid) = some v →
        Governs s t g v h after r ss
  (∀ (o : SS) (s : State) (g : Gang), Runs (.rput o) s → s.gangOf s.team = some g →
      let h := (sget s.team o.a.toNat).toNat
      let r := ringHdr s s.team h
      let slot := h + 16 + 8 * (r.tail % 2 ^ r.logcap)
      ringCheck s h = none → r.occ < 2 ^ r.logcap → ringAhead s h true = false → Answers (.rput o) s fun t =>
        scrNum t t.team slot 4 = (sget s.team o.b.toNat).toNat ∧ scrNum t t.team (slot + 4) 4 = (r.tail / 2 ^ r.logcap + 1) % 2
        ∧ scrNum t t.team (h + 8) 4 = (r.tail + 1) % 2 ^ 32
        ∧ (∀ a, ¬(slot ≤ a ∧ a < slot + 8) → ¬(h + 8 ≤ a ∧ a < h + 12) → scrByte t t.team a = scrByte s s.team a)
        ∧ governed s t g h (r.occ + 1) r [])
  ∧ (∀ (o : SS) (s : State), let h := (sget s.team o.a.toNat).toNat
      Ready (.rput o) s → ringCheck s h = none → (ringHdr s s.team h).occ = 2 ^ (ringHdr s s.team h).logcap →
      exec (.rput o) s = .next (hold s (.ring h true)))
  ∧ (∀ (o : S2) (s : State), let h := (sget s.team o.a.toNat).toNat
      Ready (.rget o) s → ringCheck s h = none → (ringHdr s s.team h).occ = 0 → exec (.rget o) s = .next (hold s (.ring h false)))
  ∧ (∀ (o : S2) (s : State) (g : Gang), Runs (.rget o) s → s.gangOf s.team = some g →
      let h := (sget s.team o.a.toNat).toNat
      let r := ringHdr s s.team h
      let slot := h + 16 + 8 * (r.head % 2 ^ r.logcap)
      ringCheck s h = none → 0 < r.occ → ringAhead s h false = false → Answers (.rget o) s fun t =>
        sget t.team o.d.toNat = BitVec.ofNat 32 (scrNum s s.team slot 4) ∧ scrNum t t.team (h + 4) 4 = (r.head + 1) % 2 ^ 32
        ∧ (∀ a, ¬(h + 4 ≤ a ∧ a < h + 8) → scrByte t t.team a = scrByte s s.team a)
        ∧ governed s t g h (r.occ - 1) r [o.d.toNat])

/-! ### Marl mode -/

/-- A marl command of the owner whose words pass their checks: it joins its slice's queue, and the MC counter rises. -/
def Sys2Proof.QueuesMarl (i : Instr) (s : State) (b : BitVec 5) (dst : Dst) (ok : Prop) (cmd : MarlCmd) : Prop :=
  let target := sget s.team b.toNat
  ∀ m, sliceOf s (tSlice target) = some m → ownsSlice s.team m = true → target.getLsbD 31 = false → tFirst target ≤ tLast target →
    tLast target ≤ 55 → s.team.eng.count 5 < 16 → ok → Answers i s fun t =>
      sliceOf t m.num = some { m with queue := m.queue ++
          [{ uid := s.team.uid, tag := s.team.nextTag, code := codeOff s.team s.team.ctl.pc, cmd := cmd }] }
      ∧ Posts s t 5 dst 0 false ∧ Frame t { posting s t with marl := t.marl } [] [] [] (nextPc s) ∧ BytesKept s t

/-- R344 to R352 and R357: the commands of marl mode. MRON switches a free slice on for the gang, whose lines outside the keel it writes
back and drops, and returns 0, or returns why it does not; where the keel is full it writes the lines back and returns 1. MROFF gives
a slice back that is idle and whose completed MRREDs have left their counters, or waits in its queue; the others queue their command with the operand words as they stand. -/
def Obligations.MarlCommands : Prop :=
  (∀ (o : S2) (s : State), Runs (.mron o) s → (sget s.team o.a.toNat).toNat < 256 →
      let slice := (sget s.team o.a.toNat).toNat
      (∀ m, sliceOf s slice = some m → Answers (.mron o) s fun t =>
          sget t.team o.d.toNat = (if ownsSlice s.team m then 4 else 2) ∧ OnlyWrites s t [] [o.d.toNat] [])
      ∧ (sliceOf s slice = none → marlMax s ≤ s.marl.length → Answers (.mron o) s fun t =>
          sget t.team o.d.toNat = 3 ∧ OnlyWrites s t [] [o.d.toNat] [])
      ∧ (sliceOf s slice = none → s.marl.length < marlMax s → keelFull s slice = true → Answers (.mron o) s fun t =>
          sget t.team o.d.toNat = 1
          ∧ (∀ x ∈ t.ms.l2, sliceOfSector s.mgmt.map x.num = slice → 2 ≤ x.way → x.dirty = false)
          ∧ Frame t { s with ms := t.ms } [] [o.d.toNat] [] (nextPc s) ∧ BytesKept s t)
      ∧ (sliceOf s slice = none → s.marl.length < marlMax s → keelFull s slice = false → Answers (.mron o) s fun t =>
          sget t.team o.d.toNat = 0
          ∧ t.marl = s.marl ++ [{ num := slice, grid := s.team.pl.grid, gang := s.team.pl.gang, rows := [], queue := [], reds := [] }]
          ∧ (∀ x ∈ t.ms.l2, sliceOfSector s.mgmt.map x.num = slice → x.way < 2)
          ∧ Frame t { s with ms := t.ms, marl := t.marl } [] [o.d.toNat] [] (nextPc s) ∧ BytesKept s t))
  ∧ (∀ (o : S1) (s : State) (m : MarlSlice), Runs (.mroff o) s → (sget s.team o.a.toNat).toNat < 256 →
      sliceOf s (sget s.team o.a.toNat).toNat = some m → ownsSlice s.team m = true →
      (m.queue = [] → counterBehind s m.reds = false → Answers (.mroff o) s fun t =>
        sliceOf t m.num = none ∧ (∀ x ∈ s.marl, x.num ≠ m.num → x ∈ t.marl)
        ∧ Frame t { s with marl := t.marl } [] [] [] (nextPc s) ∧ BytesKept s t)
      ∧ (m.queue ≠ [] ∨ counterBehind s m.reds = true → Answers (.mroff o) s fun t =>
        sliceOf t m.num = some { m with queue := m.queue ++
            [{ uid := s.team.uid, tag := 0, code := codeOff s.team s.team.ctl.pc, cmd := .off }] }
        ∧ t.team = { (noteIssue s).team with wait := .marl none } ∧ BytesKept s t))
  ∧ (∀ (o : RangeOp) (s : State), let row := sget s.team (o.b.toNat + 1)
      let target := sget s.team o.b.toNat
      let ok := 1 ≤ rKp row ∧ rKp row ≤ 8 ∧ tMasked target = false ∧ rD row + rKp row ≤ 1024
        ∧ tLast target + 1 - tFirst target ≤ rPlen row ∧ (rangeBase s o).toNat % 128 = 0 ∧ canonical (rangeBase s o) = true
      (Runs (.mrld o) s → QueuesMarl (.mrld o) s o.b .none ok (.ld (rangeBase s o) target row))
      ∧ (Runs (.mrst o) s → QueuesMarl (.mrst o) s o.b .none ok (.st (rangeBase s o) target row)))
  ∧ (∀ (o : MropOp) (s : State), Runs (.mrop o) s → let row := sget s.team o.a.toNat
      QueuesMarl (.mrop o) s o.b .none (row.getLsbD 31 = false ∧ row.getLsbD 30 = false) (.op o.op (sget s.team o.b.toNat) row))
  ∧ (∀ (o : MrkOp) (s : State), let row := sget s.team o.a.toNat
      let k := o.k.toNat + 1
      let ok := fun (n : Nat) => rowsBad row n k (row.getLsbD 30) true = false ∧ ¬(row.getLsbD 30 = true ∧ o.b = 31)
      (Runs (.mradd o) s → QueuesMarl (.mradd o) s o.b .none (ok (k + 1)) (.add k (sget s.team o.b.toNat) row (marlImm s.team o.b)))
      ∧ (Runs (.mrmul o) s → QueuesMarl (.mrmul o) s o.b .none (ok (2 * k) ∧ k ≤ 16)
          (.mul k (sget s.team o.b.toNat) row (marlImm s.team o.b))))
  ∧ (∀ (o : MrcmpOp) (s : State), Runs (.mrcmp o) s → let row := sget s.team o.a.toNat
      let k := o.k.toNat + 1
      QueuesMarl (.mrcmp o) s o.b .none (rowsBad row 1 k (row.getLsbD 30) false = false ∧ ¬(row.getLsbD 30 = true ∧ o.b = 31))
        (.cmp o.lt k (sget s.team o.b.toNat) row (marlImm s.team o.b)))
  ∧ (∀ (o : S3) (s : State), Runs (.mrred o) s → let row := sget s.team o.a.toNat
      QueuesMarl (.mrred o) s o.b (.scalar o.d.toNat 0) (row.toNat < 2 ^ 16 ∧ rD row + (bitsOf row.toNat 10 5 + 1) ≤ 1024)
        (.red (sget s.team o.b.toNat) row))

/-- R347, R348 and R351: what a computing command leaves in a lane of its range. A lane that is selected gets the result, most
significant bit in the first row, as the sources stood before; a lane of the range that is not selected keeps its bits, but MRCMP writes 0 into
its row D; every lane outside the range and every other row keeps its bits. That MRADD and MRMUL read their mask row before they write any row
is log 70. -/
def Obligations.MarlComputes : Prop :=
  ∀ (rows : List (Nat × Nat)) (target row imm : Word) (k e : Nat), 1 ≤ k → k ≤ 32 →
    let new := fun (c : MarlCmd) => marlCompute rows c
    let inRange := 1024 * tFirst target ≤ e ∧ e < 1024 * (tLast target + 1)
    let hit := tMasked target = false ∨ rowBit rows (tMrow target) e = true
    let x := fieldVal (row.getLsbD 31) k (fieldAt rows (rX row) k e)
    let y := fieldVal (row.getLsbD 31) k (sourceY rows row imm k e)
    (inRange → hit →
      (fieldAt (new (.add k target row imm)) (rD row) (k + 1) e : Int) = (x + y) % (2 ^ (k + 1) : Nat)
      ∧ (fieldAt (new (.mul k target row imm)) (rD row) (2 * k) e : Int) = (x * y) % (2 ^ (2 * k) : Nat)
      ∧ (∀ lt, rowBit (new (.cmp lt k target row imm)) (rD row) e = (decide (x < y) == lt))
      ∧ (∀ f, rowBit (new (.op f target row)) (rD row) e = mropBit f (rowBit rows (rX row) e) (rowBit rows (rY row) e)))
    ∧ (¬(inRange ∧ hit) → ∀ r lt f, rowBit (new (.add k target row imm)) r e = rowBit rows r e
      ∧ rowBit (new (.mul k target row imm)) r e = rowBit rows r e ∧ rowBit (new (.op f target row)) r e = rowBit rows r e
      ∧ rowBit (new (.cmp lt k target row imm)) r e = (if inRange ∧ r = rD row then false else rowBit rows r e))
    ∧ ∀ r lt f, (r < rD row ∨ rD row + (k + 1) ≤ r → rowBit (new (.add k target row imm)) r e = rowBit rows r e)
      ∧ (r < rD row ∨ rD row + 2 * k ≤ r → rowBit (new (.mul k target row imm)) r e = rowBit rows r e)
      ∧ (r ≠ rD row → rowBit (new (.cmp lt k target row imm)) r e = rowBit rows r e
        ∧ rowBit (new (.op f target row)) r e = rowBit rows r e)

/-- What it means that an operation without a result is done: the oldest operation in flight leaves its counter, and nothing
else changes but that destinations of producers without a lane, whose counter entries retire with it, become full (R93, R199). -/
def Sys2Proof.Settles : Prop :=
  ∀ (s : State) (o : Op), s.team.handler = none → s.team.stage = .resident → (∀ u ∈ s.others, u.uid ≠ s.team.uid) →
    s.team.eng.ops.head? = some o → (s.team.eng.ops.filter fun x => x.tag == o.tag) = [o] → o.dst = .none → o.done = false →
    let t := settleOp s s.team.uid o.tag
    t = { s with team := t.team } ∧ t.team = { s.team with rf := t.team.rf, eng := { s.team.eng with ops := t.team.eng.ops } }
      ∧ ((∀ x ∈ s.team.eng.ops, x.laneless = false) → t.team.rf = s.team.rf)
      ∧ t.team.rf = { s.team.rf with v := t.team.rf.v, vfull := t.team.rf.vfull }
      ∧ (∀ r L, L < s.team.rf.n → vget t.team r L = vget s.team r L)
      ∧ ∀ x ∈ t.team.eng.ops, x ∈ s.team.eng.ops ∧ x.tag ≠ o.tag

/-- The sum of MRRED (R352): over the lanes of the range that are selected, exact, then clamped to the range of a word. -/
def Sys2Proof.SumsLanes : Prop :=
  ∀ (rows : List (Nat × Nat)) (target row : Word),
    let k := bitsOf row.toNat 10 5 + 1
    let value := fun (i : Nat) => let e := 1024 * tFirst target + i
      if tMasked target = false ∨ rowBit rows (tMrow target) e = true then fieldVal (row.getLsbD 15) k (fieldAt rows (rD row) k e) else 0
    let sum := ((List.range (1024 * (tLast target + 1 - tFirst target))).map value).sum
    marlSum rows target row = if row.getLsbD 15 then BitVec.ofInt 32 (min sum 4294967295) else clamp32 sum

/-- R353: the destination rows of a failed command are undefined in the lanes of its range, and every other bit stays. -/
def Sys2Proof.SpoilsLanes : Prop :=
  ∀ (free : Nat) (rows : List (Nat × Nat)) (c : MarlCmd) (r e : Nat),
    (r < (marlDest c).1 ∨ (marlDest c).1 + (marlDest c).2 ≤ r) ∨ e < 1024 * tFirst (marlTarget c) ∨ 1024 * (tLast (marlTarget c) + 1) ≤ e →
    rowBit (spoilRows free rows c) r e = rowBit rows r e

/-- The bytes that a failed MRST still had to write are free values; a command of another kind writes none (R353). -/
abbrev Sys2Proof.storesSpoiled (s : State) (e : MarlEntry) (old : State) : State :=
  match e.cmd, old.find e.uid with
  | .st base target row, some t => spoilPieces s t e.tag (marlPieces base target row)
  | _, _ => s

/-- R199, R316, R346, R349, R350, R352, R353 and R357: a slice takes its oldest command: a computing one leaves its rows, MRRED gives its sum,
MRLD puts the bytes of its pieces into its rows and MRST the rows into the write side; then the command leaves its counter, as a
scatter does when it is acknowledged. A command that reads an uncorrectable error in a row of a subarray of its range fails with reason 9: the
error is counted, and its destination is undefined. An MROFF waits for the counters of the MRREDs before it, then the slice is returned and its
team goes on. -/
def Obligations.EngineCompletions : Prop :=
  (∀ (s : State) (slice : Nat) (m : MarlSlice) (e : MarlEntry) (rest : List MarlEntry), sliceOf s slice = some m → m.queue = e :: rest →
    let done := fun (s1 : State) (rows : List (Nat × Nat)) =>
      exec (.marlCmdComplete slice) s = .next (settleOp (popMarl s1 slice rest rows) e.uid e.tag)
    (rowBad s slice e.cmd = true → let s1 := logEvent { s with free := s.free + spoilWords } 5 (2 * 2 ^ 24 + slice) (leBytes 8 0 ++ leBytes 4 1)
      exec (.marlCmdComplete slice) s =
        .next (failMarl (storesSpoiled (popMarl s1 slice rest (spoilRows s.free m.rows e.cmd)) e s1) slice e 9))
    ∧ (e.cmd = .off → (counterBehind s m.reds = true → exec (.marlCmdComplete slice) s = .next s)
      ∧ (counterBehind s m.reds = false → rest = [] → e.uid = s.team.uid → s.team.wait = .marl none → s.team.passed = none → Straight s →
        Answers (.marlCmdComplete slice) s fun t => sliceOf t slice = none ∧ (∀ x ∈ s.marl, x.num ≠ slice → x ∈ t.marl)
          ∧ Frame t { s with marl := t.marl } [] [] [] (nextPc s) ∧ BytesKept s t))
    ∧ (rowBad s slice e.cmd = false →
    (∀ f target row imm k lt, e.cmd = .op f target row ∨ e.cmd = .add k target row imm ∨ e.cmd = .mul k target row imm
        ∨ e.cmd = .cmp lt k target row imm → done s (marlCompute m.rows e.cmd))
    ∧ (∀ target row, e.cmd = .red target row →
        exec (.marlCmdComplete slice) s = .next (fillSum (popMarl s slice rest m.rows) e (marlSum m.rows target row)))
    ∧ (∀ base target row t pa d k s1 xs, e.cmd = .ld base target row → s.find e.uid = some t →
        transPieces t e.tag .read (marlPieces base target row) s [] = (.ok pa d k s1, xs) → done s1 (loadPieces s1.ms m.rows xs))
    ∧ (∀ base target row t pa d k s1 xs, e.cmd = .st base target row → s.find e.uid = some t →
        transPieces t e.tag .write (marlPieces base target row) s [] = (.ok pa d k s1, xs) →
        done (storePieces s1 e.uid e.tag (xs.map fun x => (x, pieceBytes m.rows x.row x.sub))) m.rows)))
  ∧ SumsLanes ∧ SpoilsLanes
  ∧ (∀ (s : State) (uid idx : Nat) (t : Team) (o : Op), s.find uid = some t → (openScatters t)[idx]? = some o →
      exec (.sxAck uid idx) s = .next (settleOp s uid o.tag))
  ∧ Settles

/-! ### Residency -/

/-- An instruction queues a residency operation at the handle it names, and the HR counter rises (R339 to R342). -/
def Sys2Proof.QueuesHr (i : Instr) (o : S1) (kind : HOpKind) : Prop :=
  ∀ (s : State) (h : Handle), Runs i s → handleOf s s.team.pl.asid (sget s.team o.a.toNat) = some h → s.team.eng.count 6 < 8 →
    Answers i s fun t => Posts s t 6 .none 0 false ∧ BytesKept s t
      ∧ t.res.handles = s.res.handles.map (fun x => if x.id = h.id then
          { x with ops := x.ops ++ [{ kind := kind, uid := s.team.uid, tag := s.team.nextTag }] } else x)
      ∧ Frame t { posting s t with res := { s.res with handles := t.res.handles } } [] [] [] (nextPc s)

/-- R335 to R342: HOLD makes a handle for a range that nothing speaks against, under a free id, or returns one of the refusals
that apply; HSET gives a handle its priority and class, behind the operations queued there; HDEM, HPRO and HREL queue at it; a number that
names no handle of the address space traps with group 5 reason 10. The oldest operation of a handle runs: HREL frees the id, and what
is queued behind it finds it freed; a migration waits while old translations are in use and the pages of the range are translated, and
when the pool lacks pages it fails with reason 3 and nothing has moved. That what stands behind an HREL fails with reason 1 and that a migration
waits is log 68; which pages a pool gives and what a failed translation reports is log 67. -/
def Obligations.Residency : Prop :=
  (∀ (o : HoldOp) (s : State), Runs (.hold o) s →
      let base := spair s.team (2 * o.a.toNat)
      let len := (sget s.team o.b.toNat).toNat
      let no := holdRefusals s s.team.pl.asid base len
      (canonical base = true → no = [] → Answers (.hold o) s fun t => ∃ id, id < 4096 ∧ (∀ h ∈ s.res.handles, h.id ≠ id)
        ∧ t.res.handles = s.res.handles ++ [{ id := id, asid := s.team.pl.asid, base := base, len := len, prio := 0, cls := 3, ops := [] }]
        ∧ sget t.team o.d.toNat = BitVec.ofNat 32 id
        ∧ Frame t { s with res := { s.res with handles := t.res.handles } } [] [o.d.toNat] [] (nextPc s) ∧ BytesKept s t)
      ∧ (canonical base = true → no ≠ [] → Answers (.hold o) s fun t => (∃ r ∈ no, sget t.team o.d.toNat = BitVec.ofNat 32 (r * 2 ^ 28))
        ∧ Frame t { s with free := t.free } [] [o.d.toNat] [] (nextPc s) ∧ BytesKept s t)
      ∧ (canonical base = false → exec (.hold o) s = .next (trapBefore (noteIssue s) (trap5 2 none base))))
  ∧ (∀ (o : SS) (s : State) (h : Handle), Runs (.hset o) s → handleOf s s.team.pl.asid (sget s.team o.a.toNat) = some h →
      let w := (sget s.team o.b.toNat).toNat
      (w < 64 → h.ops ≠ [] → Answers (.hset o) s fun t =>
        t.res.handles = s.res.handles.map (fun x => if x.id = h.id then
          { x with ops := x.ops ++ [{ kind := .set (w % 16) (w / 16), uid := s.team.uid, tag := s.team.nextTag }] } else x)
        ∧ t.team = { (noteIssue s).team with wait := .hset } ∧ BytesKept s t)
      ∧ (w < 64 → h.ops = [] → Answers (.hset o) s fun t =>
        t.res.handles = s.res.handles.map (fun x => if x.id = h.id then { x with prio := w % 16, cls := w / 16 } else x)
        ∧ Frame t { s with res := { s.res with handles := t.res.handles } } [] [] [] (nextPc s) ∧ BytesKept s t)
      ∧ (64 ≤ w → exec (.hset o) s = .next (trapBefore (noteIssue s) (trap5r 2 0))))
  ∧ (∀ o, QueuesHr (.hdem o) o .dem) ∧ (∀ o, QueuesHr (.hpro o) o .pro) ∧ (∀ o, QueuesHr (.hrel o) o .rel)
  ∧ (∀ (s : State) (i : Instr) (r : BitVec 5), (∃ o : S1, o.a = r ∧ (i = .hdem o ∨ i = .hpro o ∨ i = .hrel o)) ∨ (∃ o : SS, o.a = r ∧ i = .hset o) →
      Ready i s → handleOf s s.team.pl.asid (sget s.team r.toNat) = none →
      exec i s = .next (trapBefore (noteIssue s) (trap5r 1 0)))
  ∧ (∀ (s : State) (id : Nat) (h : Handle) (x : HOp) (rest : List HOp), s.res.handles.find? (fun h => h.id == id) = some h →
      h.ops = x :: rest →
      let pop := fun (s : State) => modHandle s h.id fun h => { h with ops := rest }
      (x.kind = .rel → exec (.residencyComplete id) s = .next (rest.foldl endFreed (settleOp
          { s with res := { s.res with handles := s.res.handles.filter fun y => y.id != h.id } } x.uid x.tag)))
      ∧ (∀ p c, x.kind = .set p c → exec (.residencyComplete id) s =
          .next (endHset (modHandle (pop s) h.id fun h => { h with prio := p, cls := c }) x none))
      ∧ (x.kind = .dem ∨ x.kind = .pro →
          (usesOld s h.asid h.base.toNat h.len = true → exec (.residencyComplete id) s = .next s)
          ∧ (usesOld s h.asid h.base.toNat h.len = false → ∀ s1, walkRange s h x = .go s1 →
            (∀ t, migrate (pop s1) h (x.kind == .dem) = (t, none) → exec (.residencyComplete id) s = .next (settleOp t x.uid x.tag))
            ∧ (∀ t r, migrate (pop s1) h (x.kind == .dem) = (t, some r) → exec (.residencyComplete id) s =
                .next (settleOp (t.modTeam x.uid fun u => noteErr u x.tag 6 (trap5r r h.base)) x.uid x.tag)))
          ∧ (usesOld s h.asid h.base.toNat h.len = false → (∀ s1, walkRange s h x = .wait s1 → exec (.residencyComplete id) s = .next s1)
            ∧ ∀ s1 tr, walkRange s h x = .fail s1 tr → exec (.residencyComplete id) s =
                .next (settleOp ((pop s1).modTeam x.uid fun u => noteErr u x.tag 6 tr) x.uid x.tag))))
  ∧ (∀ (s : State) (h : Handle) (dem : Bool), let d := drainLines s h (pagesToMove s h dem)
      planMoves (pagesToMove s h dem) (if dem then poolFrom s.res.hrpool0 false s.res.used0 s.res.extra0
        else poolFrom s.res.hrpool1 true s.res.used1 s.res.extra1) = none →
      migrate s h dem = (d, some 3) ∧ d = { s with ms := d.ms, l1 := d.l1 }
        ∧ d.ms = { s.ms with mem := d.ms.mem, l2 := d.ms.l2, stamp := d.ms.stamp, retained := d.ms.retained, backs := d.ms.backs }
        ∧ (∀ a, Coherent s.ms → isRaw a = false → ∀ k, KeyHeld s.ms k a → commByteK d.ms k a = commByteK s.ms k a))

/-! ### The Locus engine -/

/-- The context of the team in focus, with a record for each of its lanes. -/
def Sys2Proof.Bound (s : State) (c : LocusCtx) : Prop := boundCtx s = some c ∧ c.lanes.length = s.team.rf.n

/-- The registers of an IGRUN's results, in every lane below N (R367): `present` says what a lane shows. -/
def Sys2Proof.ShowsLanes (t : Team) (c : LocusCtx) (y : Nat → Nat → Word) (L : Nat) : Prop :=
  (∀ k, k < c.n → vget t k L = y L k) ∧ vget t 16 L = (c.lane L).t ∧ vget t 17 L = (c.lane L).h

/-- The tableau and the problem record of an IGBIND as 32-bit words. -/
abbrev Sys2Proof.tableauOf (bs : List Byte) : List Word := wordsFrom bs 156
abbrev Sys2Proof.problemOf (bs : List Byte) : List Word := wordsFrom bs 16

/-- Component `k` of the interpolant of a lane at `th` (R373): Y where the lane has no accepted step, else the line from YP to YN, and
with DENSE 1 the cubic over it, each operation rounded in the order the rule writes them. YN, YP, F0 and F1 stand from word n, 2n, 3n
and 4n of the work area on (R364). -/
def Sys2Proof.denseValue (s : State) (c : LocusCtx) (L k : Nat) (th : Word) : Word :=
  let at_ := fun (area : Nat) => workGet s c L (area * c.n + k)
  let h := (c.lane L).hlast
  let d := lSub (at_ 1) (at_ 2)
  let line := lAdd (at_ 2) (lMul th d)
  let back := lSub th lOne
  if (c.lane L).stepped = false then at_ 0
  else if tbDense c.tableau = 0 then line
  else lAdd line (lMul (lMul th back)
    (lAdd (lAdd (lMul (lSub lOne (lMul (lAdd lOne lOne) th)) d) (lMul (lMul back h) (at_ 3))) (lMul (lMul th h) (at_ 4))))

/-- R376, R379, R383 and R384: IGBIND binds the lowest free context of the core to the team, each lane at T0 and H0 with status 0; it
returns 0x20000000 to a team that has one and 0x10000000 where none is free, and traps with group 10 reason 3 below 24 registers. IGRD
reads a field of each lane, IGWR writes one, or, when a lane's value may not be written, traps with reason 7 and writes none; IGQ
evaluates the interpolant of R373, or traps with reason 8 when its registers pass the team's last. -/
def Obligations.LocusBindings : Prop :=
  (∀ (o : IgbindOp) (s : State), Runs (.igbind o) s →
      (s.team.locus ≠ none → Answers (.igbind o) s fun t => sget t.team o.d.toNat = 0x20000000 ∧ OnlyWrites s t [] [o.d.toNat] [])
      ∧ (s.team.locus = none → s.team.rf.nv < 24 → exec (.igbind o) s = .next (trapBefore (noteIssue s) (trap10 s.team 3 0 none 0)))
      ∧ (∀ u v tbs pbs, s.team.locus = none → 24 ≤ s.team.rf.nv →
        ReadsRecord (noteIssue s) 128 (spair s.team (2 * o.a.toNat)) 624 tbs u →
        ReadsRecord u 64 (spair s.team (2 * o.b.toNat)) 64 pbs v →
        let tb := tableauOf tbs
        let p := problemOf pbs
        tableauBad tb = none → problemBad p (needsJac tb) = none →
        prWork p + workBytes (prN p) (if tbKind tb = 2 then 2 * tbS tb else tbS tb) s.team.rf.n ≤ allotment s s.team →
        (freeCtx s s.team.pl.core = none → Answers (.igbind o) s fun t => sget t.team o.d.toNat = 0x10000000 ∧ BytesKept s t
          ∧ Frame t (throughL1 s t) [] [o.d.toNat] [] (nextPc s) ∧ OthersStay s t)
        ∧ (∀ k, freeCtx s s.team.pl.core = some k → Answers (.igbind o) s fun t => sget t.team o.d.toNat = BitVec.ofNat 32 k
          ∧ t.team.locus = some k ∧ BytesKept s t
          ∧ (∃ c, t.locus = s.locus ++ [c] ∧ c.core = s.team.pl.core ∧ c.num = k ∧ c.uid = s.team.uid ∧ c.tableau = tb ∧ c.problem = p
            ∧ c.phase = .idle ∧ c.lanes.length = s.team.rf.n
            ∧ ∀ L, L < s.team.rf.n → laneField (c.lane L) 0 = prT0 p ∧ laneField (c.lane L) 1 = prH0 p ∧ laneField (c.lane L) 2 = 0
              ∧ laneField (c.lane L) 3 = 0 ∧ laneField (c.lane L) 4 = 0)
          ∧ Frame t (throughL1 { s with locus := t.locus, team := { s.team with locus := t.team.locus } } t) [] [o.d.toNat] [] (nextPc s)
          ∧ OthersStay s t)))
  ∧ (∀ (o : IgrdOp) (s : State) (c : LocusCtx), Runs (.igrd o) s → boundCtx s = some c → c.phase = .idle →
      Answers (.igrd o) s fun t => WritesLanes s t (active s.team o.g) o.d.toNat fun L => laneField (c.lane L) o.f)
  ∧ (∀ (o : IgwrOp) (s : State) (c : LocusCtx), Runs (.igwr o) s → Bound s c → c.phase = .idle →
      ((∀ L, L < s.team.rf.n → (active s.team o.g).getLsbD L = true → igwrOk c o.f (va s o.a L) = true) →
        Answers (.igwr o) s fun t => Frame t { s with locus := t.locus } [] [] [] (nextPc s) ∧ BytesKept s t
          ∧ ∃ d, boundCtx t = some d ∧ d = { c with lanes := d.lanes } ∧ ∀ L, L < s.team.rf.n →
            d.lane L = if (active s.team o.g).getLsbD L then igwrLane (c.lane L) o.f (va s o.a L) else c.lane L)
      ∧ (∀ L, L < s.team.rf.n → (active s.team o.g).getLsbD L = true → igwrOk c o.f (va s o.a L) = false →
          (∀ K, K < L → (active s.team o.g).getLsbD K = true → igwrOk c o.f (va s o.a K) = true) →
          exec (.igwr o) s = .next (trapBefore (noteIssue s) (trap10 s.team 7 c.num (some L) 0))))
  ∧ (∀ (o : IgqOp) (s : State) (c : LocusCtx), Ready (.igq o) s → boundCtx s = some c → c.phase = .idle → s.team.rf.nv < o.d.toNat + c.n →
      exec (.igq o) s = .next (trapBefore (noteIssue s) (trap10 s.team 8 c.num none 0)))
  ∧ (∀ (o : IgqOp) (s : State) (c : LocusCtx), Runs (.igq o) s → boundCtx s = some c → c.phase = .idle → o.a.toNat < s.team.rf.nv →
      o.d.toNat + c.n ≤ s.team.rf.nv → Answers (.igq o) s fun t =>
        Frame t s (regsFrom o.d.toNat c.n) [] [] (nextPc s) ∧ BytesKept s t
        ∧ ∀ k L, k < c.n → L < s.team.rf.n → vget t.team (o.d.toNat + k) L =
            if (active s.team o.g).getLsbD L then
              denseValue s c L k (if o.t then lDiv (lSub (va s o.a L) (c.lane L).tprev) (c.lane L).hlast else va s o.a L)
            else vget s.team (o.d.toNat + k) L)

/-- R365 to R367, R380 to R382: IGRUN hands the team to the engine, or, with no lane to run, is complete at once; a routine call
enters the routine with its lanes as the mask, its arguments in v0 on, v16 and v17 and the descriptor in v18; IGRET gives what the
routine returns to the engine, or traps with group 10 reason 5 for another kind; IGSTOP outside an IGRUN unbinds the context, and
in a routine ends the IGRUN with its running lanes at status 5. Both ends write each lane that was active at the IGRUN: Y into v0 on,
t, h and the status word, h after an IGSTOP as it stood when the discarded attempt began. The engine writes only its work areas in the
scratchpad between calls, and serves the contexts whose teams wait for it in turn (R359). That the loop counters stay as the routine left
them is the model's choice (log 73). -/
def Obligations.LocusRuns : Prop :=
  (∀ (s : State) (c : LocusCtx), Runs .igrun s → Bound s c → c.phase = .idle → c.n ≤ 16 → 24 ≤ s.team.rf.nv →
      let runs := fun (L : Nat) => L < s.team.rf.n ∧ s.team.ctl.mask.getLsbD L = true ∧ laneCode_ (c.lane L) = 0
        ∧ lLe (prTend c.problem) (c.lane L).t = false
      ((∃ L, runs L) → Answers .igrun s fun t => t.team.wait = .locus ∧ t.team.rf = s.team.rf
        ∧ t.team.ctl = { s.team.ctl with hints := none } ∧ t.team.sp = s.team.sp ∧ BytesKept s t
        ∧ ∃ d, boundCtx t = some d ∧ d.phase = .start ∧ d.active = s.team.ctl.mask ∧ d.savedMask = s.team.ctl.mask
          ∧ d.savedStack = s.team.ctl.stack ∧ d.savedLoops = s.team.ctl.loops ∧ d.igrunPc = s.team.ctl.pc)
      ∧ ((∀ L, ¬runs L) → Answers .igrun s fun t =>
          Frame t { s with locus := t.locus } (regsFrom 0 c.n ++ [16, 17, 18]) [] [] (nextPc s) ∧ BytesKept s t
          ∧ ∀ L, L < s.team.rf.n → s.team.ctl.mask.getLsbD L = true →
            ShowsLanes t.team c (fun L k => workGet s c L k) L ∧ (vget t.team 18 L).toNat % 16 ≠ 0))
  ∧ (∀ (s : State), Ready .igrun s → boundCtx s = none →
      exec .igrun s = .next (trapBefore (noteIssue s) (trap10 s.team 4 (s.team.locus.getD 0) none 0)))
  ∧ (∀ (s : State) (e : Engine), engineOf s = some e →
      e.s = { s with gangs := e.s.gangs }
      ∧ (∃ c, boundCtx s = some c ∧ s.team.wait = .locus ∧ s.team.stage = .resident ∧ (∀ r ∈ locusRegs c.n, r ∉ matrixReads s s.team)
        ∧ ∀ x ∈ s.locus, onCore s x c.core = true → (∃ u ∈ s.teams, u.uid = x.uid ∧ u.wait = .locus) →
          let last := ((s.served.find? fun x => x.1 == c.core).map fun x => x.2).getD 3
          (c.num + 7 - last) % 4 ≤ (x.num + 7 - last) % 4)
      ∧ (∀ stage args, e.move = .call stage args →
        exec (.routineCall s.team.uid) s = .next ((enterRoutine (noteServed e) e.c stage args).focus s.team.uid))
      ∧ (e.move = .finish → Shaped s.team → e.c.lanes.length = s.team.rf.n → 24 ≤ s.team.rf.nv → e.c.n ≤ 16 → stepping s.team = false →
          (∀ f ∈ s.team.ctl.loops, e.c.igrunPc ≠ lastWord f) → Answers (.igrunComplete s.team.uid) s fun t => t.team.wait = .ready
            ∧ RegsKept s.team t.team (regsFrom 0 e.c.n ++ [16, 17, 18]) [] [] ∧ t.team.sp = s.team.sp
            ∧ t.team.ctl = { s.team.ctl with pc := e.c.igrunPc + 4, mask := e.c.savedMask, hints := none }
            ∧ (∀ L, L < s.team.rf.n → e.c.active.getLsbD L = true → ShowsLanes t.team e.c (fun L k => workGet e.s e.c L k) L
              ∧ vget t.team 18 L = (e.c.lane L).stat)
            ∧ (∀ q L, L < s.team.rf.n → e.c.active.getLsbD L = false → vget t.team q L = vget s.team q L)
            ∧ (∃ d, boundCtx t = some d ∧ d.phase = .idle ∧ d.inRoutine = false ∧ d.lanes = e.c.lanes)
            ∧ t.served.find? (fun x => x.1 == e.c.core) = some (e.c.core, e.c.num)))
  ∧ (∀ (s : State) (c : LocusCtx) (stage : Nat) (args : Nat → Word × Word × List Word), Shaped s.team → 24 ≤ s.team.rf.nv → c.n ≤ 16 →
      s.team.rf.n ≤ 1024 → stepping s.team = false →
      let t := enterRoutine s c stage args
      t.team.wait = .ready ∧ t.team.ctl = { s.team.ctl with mask := c.called, pc := routinePc s.team c, hints := none } ∧ t.ms = s.ms
        ∧ (∀ L, L < s.team.rf.n → c.called.getLsbD L = true →
            (∀ k, k < c.n → vget t.team k L = (args L).2.2.getD k 0) ∧ vget t.team 16 L = (args L).1 ∧ vget t.team 17 L = (args L).2.1
              ∧ vget t.team 18 L = BitVec.ofNat 32 (c.part * 256 + c.kind * 16 + stage))
        ∧ ∀ q L, (c.called.getLsbD L = false ∨ (c.n ≤ q ∧ q ≠ 16 ∧ q ≠ 17 ∧ q ≠ 18)) → L < s.team.rf.n → vget t.team q L = vget s.team q L)
  ∧ (∀ (o : IgretOp) (s : State) (c : LocusCtx), Ready (.igret o) s → Bound s c →
      (inRoutine s s.team = true → o.kind.toNat = wantedKind c → s.team.ctl.stack.length = c.depth → s.team.ctl.loops = c.frames →
        (o.kind = 4 → ∀ r, r < prEv c.problem → vIsFull s.team r = true) → (∀ r ∈ locusRegs c.n, r ∉ matrixReads s s.team) →
        Answers (.igret o) s fun t =>
          t.team.wait = .locus ∧ t.team.rf = s.team.rf ∧ t.team.ctl = { s.team.ctl with hints := none } ∧ t.team.sp = s.team.sp
            ∧ BytesKept s t ∧ ∃ d, boundCtx t = some d ∧ d.inRoutine = false ∧ d.phase = c.phase
              ∧ ∀ L, L < s.team.rf.n → c.called.getLsbD L = true →
                (d.lane L).ret = (List.range (if c.kind = 4 then 0 else if c.kind ≤ 3 then c.n else prEv c.problem)).map
                  fun r => vget s.team r L)
      ∧ (inRoutine s s.team = true → o.kind.toNat = wantedKind c → s.team.ctl.stack.length = c.depth → s.team.ctl.loops = c.frames →
          (∃ r ∈ locusRegs c.n, r ∈ matrixReads s s.team) → exec (.igret o) s = .next (hold s .operand))
      ∧ (inRoutine s s.team = false ∨ o.kind.toNat ≠ wantedKind c →
          exec (.igret o) s = .next (trapBefore (noteIssue s) (trap10 s.team 5 (s.team.locus.getD 0) none 0))))
  ∧ (∀ (s : State) (c : LocusCtx), boundCtx s = some c →
      (Runs .igstop s → inRoutine s s.team = false → c.phase = .idle → Answers .igstop s fun t => t.team.locus = none ∧ BytesKept s t
        ∧ (∀ x, x ∈ t.locus ↔ x ∈ s.locus ∧ x.uid ≠ s.team.uid)
        ∧ Frame t { s with locus := t.locus, team := { s.team with locus := none } } [] [] [] (nextPc s))
      ∧ (Ready .igstop s → stepping s.team = false → Bound s c → Shaped s.team → 24 ≤ s.team.rf.nv → c.n ≤ 16 → inRoutine s s.team = true →
          (∀ r ∈ locusRegs c.n, vIsFull s.team r = true ∧ r ∉ matrixReads s s.team) →
          (∀ f ∈ c.savedLoops, c.igrunPc ≠ lastWord f) → Answers .igstop s fun t => t.team.wait = .ready
            ∧ RegsKept s.team t.team (regsFrom 0 c.n ++ [16, 17, 18]) [] [] ∧ t.team.sp = s.team.sp ∧ BytesKept s t
            ∧ t.team.ctl = { s.team.ctl with pc := c.igrunPc + 4, mask := c.savedMask, stack := c.savedStack, loops := c.savedLoops, hints := none }
            ∧ (∀ q L, L < s.team.rf.n → c.active.getLsbD L = false → vget t.team q L = vget s.team q L)
            ∧ ∃ d, boundCtx t = some d ∧ d.phase = .idle ∧ d.inRoutine = false ∧ ∀ L, L < s.team.rf.n → c.active.getLsbD L = true →
              laneCode_ (d.lane L) = (if laneCode_ (c.lane L) = 0 then 5 else laneCode_ (c.lane L))
              ∧ (∀ k, k < c.n → vget t.team k L = workGet s c L k) ∧ vget t.team 16 L = (c.lane L).t
              ∧ vget t.team 17 L = (if laneCode_ (c.lane L) = 0 ∧ (c.lane L).inStep = true then (c.lane L).h0 else (c.lane L).h)
              ∧ vget t.team 18 L = if laneCode_ (c.lane L) = 0 then ((c.lane L).stat &&& 32) ||| 5 else (c.lane L).stat))

/-! ### The sieve -/

/-- Stream `k` is open for the team's address space, the sieve is on, and the record and the entries of the stream lie in HBM, in
pages without a key. -/
def Sys2Proof.StreamHere (s : State) (k : Nat) : Prop :=
  let here := fun (a : Nat) => isHbm a = true ∧ KeyHeld s.ms 0 a
  svOn s = true ∧ k < 65536 ∧ Coherent s.ms ∧ (∀ i, i < 64 → here (svRecPa s k + i))
    ∧ (∀ i, i < 16 * 2 ^ svLog s → here (base12 s.host.svcfg + 2 ^ 22 + 16 * (k * 2 ^ svLog s) + i))
    ∧ (svRead s k).isOpen = true ∧ (svRead s k).asid = s.team.pl.asid

/-- The number of active lanes below `L`. -/
abbrev Sys2Proof.rankOf (s : State) (g : BitVec 3) (L : Nat) : Nat := ((List.range L).filter fun K => (active s.team g).getLsbD K).length

/-- The number of active lanes. -/
abbrev Sys2Proof.activeCount (s : State) (g : BitVec 3) : Nat := rankOf s g s.team.rf.n

/-- The instruction changes only memory, at the addresses that `put` names, and the listed registers. -/
def Sys2Proof.SieveFrame (s t : State) (vs ss : List Nat) (put : Nat → Prop) : Prop :=
  Frame t { s with ms := t.ms } vs ss [] (nextPc s)
    ∧ ∀ key a, isRaw a = false → KeyHeld s.ms key a → KeyHeld t.ms key a → ((∃ b, put b ∧ b / 64 = a / 64) → key = 0) → ¬put a →
      teamByte t key a = teamByte s key a

/-- The bytes of the record of stream `k`. -/
abbrev Sys2Proof.inRecord (s : State) (k a : Nat) : Prop := svRecPa s k ≤ a ∧ a < svRecPa s k + 64

/-- The bytes of the entry of number `q`. -/
abbrev Sys2Proof.inEntry (s : State) (k q a : Nat) : Prop := svEntryPa s k q ≤ a ∧ a < svEntryPa s k q + 16

/-- R421 to R426: SVPUT gives each active lane, in order, the next number of its stream and stores token, tag, number and no flag
in its entry; it waits while the stream is full. SVGET returns token, tag and status of a number. SVREL raises REL, SVDROP marks
the entries of a range above REL and counts those it newly marks. The host's commands open and close streams, and DRAIN moves
only between its old value and REL. A close traps each SVPUT that waits for room in its stream. A stream that is closed or
another space's traps with group 18 reason 1. That openStreams stands beside the records is log 74, that a refused SVDRAIN names SOURCE 0
log 65. -/
def Obligations.SieveStreams : Prop :=
  (∀ (o : SvOp) (s : State), Runs (.svput o) s → Invariant s → StreamHere s (sget s.team o.b.toNat).toNat →
      let k := (sget s.team o.b.toNat).toNat
      let x := svRead s k
      let c := activeCount s o.g
      c ≠ 0 → x.put + c < 2 ^ 32 →
      (x.put - x.drain + c ≤ 2 ^ svLog s → Answers (.svput o) s fun t =>
        svRead t k = { x with put := x.put + c }
        ∧ (∀ L, L < s.team.rf.n → va t o.d L = if (active s.team o.g).getLsbD L then BitVec.ofNat 32 (x.put + 1 + rankOf s o.g L) else va s o.d L)
        ∧ (∀ L, L < s.team.rf.n → (active s.team o.g).getLsbD L = true → let q := x.put + 1 + rankOf s o.g L
            svField t k q 0 = (va s o.d L).toNat ∧ svField t k q 1 = (va s o.a L).toNat ∧ svField t k q 2 = q ∧ svField t k q 3 = 0)
        ∧ SieveFrame s t [o.d.toNat] [] fun a => inRecord s k a ∨ ∃ q, x.put < q ∧ q ≤ x.put + c ∧ inEntry s k q a)
      ∧ (2 ^ svLog s < x.put - x.drain + c → exec (.svput o) s = .next (hold s (.sieve k))))
  ∧ (∀ (o : SvOp) (s : State), Runs (.svput o) s → activeCount s o.g = 0 → Answers (.svput o) s fun t => OnlyWrites s t [] [] [])
  ∧ (∀ (o : SvOp) (s : State), Runs (.svget o) s → active s.team o.g ≠ 0 → StreamHere s (sget s.team o.b.toNat).toNat →
      let k := (sget s.team o.b.toNat).toNat
      let x := svRead s k
      Answers (.svget o) s fun t => OnlyWrites s t (regsFrom o.d.toNat 3) [] []
        ∧ ∀ L, L < s.team.rf.n → (active s.team o.g).getLsbD L = true →
          let q := (va s o.a L).toNat
          let gets := fun (tok tag st : Word) =>
            vget t.team o.d.toNat L = tok ∧ vget t.team (o.d.toNat + 1) L = tag ∧ vget t.team (o.d.toNat + 2) L = st
          (q = 0 ∨ x.put < q → gets 0 0 1) ∧ (q ≠ 0 → q ≤ x.put → q ≤ x.drain → gets 0 0 2)
          ∧ (q ≤ x.put → x.drain < q → gets (BitVec.ofNat 32 (svField s k q 0)) (BitVec.ofNat 32 (svField s k q 1))
              (if svField s k q 3 % 2 = 1 then 3 else 0)))
  ∧ (∀ (o : SS) (s : State), Runs (.svrel o) s → Invariant s → StreamHere s (sget s.team o.a.toNat).toNat →
      let k := (sget s.team o.a.toNat).toNat
      let x := svRead s k
      let n := (sget s.team o.b.toNat).toNat
      (n ≤ x.put → Answers (.svrel o) s fun t => svRead t k = { x with rel := max n x.rel }
        ∧ SieveFrame s t [] [] fun a => x.rel < n ∧ inRecord s k a)
      ∧ (x.put < n → exec (.svrel o) s = .next (trapBefore (noteIssue s) (trap18 2 k (BitVec.ofNat 32 n)))))
  ∧ (∀ (o : S3) (s : State), Runs (.svdrop o) s → Invariant s → StreamHere s (sget s.team o.a.toNat).toNat →
      let k := (sget s.team o.a.toNat).toNat
      let x := svRead s k
      let lo := (sget s.team o.b.toNat).toNat
      let hi := (sget s.team (o.b.toNat + 1)).toNat
      1 ≤ lo → lo ≤ hi → hi ≤ x.put → x.drain ≤ x.rel → x.put - x.drain ≤ 2 ^ svLog s → Answers (.svdrop o) s fun t =>
        let qs := (List.range (hi + 1)).filter fun q => decide (lo ≤ q ∧ x.rel < q)
        (∀ q ∈ qs, svField t k q 3 % 2 = 1)
          ∧ sget t.team o.d.toNat = BitVec.ofNat 32 (qs.filter fun q => svField s k q 3 % 2 == 0).length ∧ svRead t k = x
          ∧ SieveFrame s t [] [o.d.toNat] fun a => ∃ q ∈ qs, svEntryPa s k q + 12 ≤ a ∧ a < svEntryPa s k q + 16)
  ∧ (∀ (s : State) (i : Instr) (w : Word), (∃ o : SvOp, active s.team o.g ≠ 0 ∧ lanesOf s.team.rf.n (active s.team o.g) ≠ []
        ∧ sget s.team o.b.toNat = w ∧ (i = .svput o ∨ i = .svget o))
      ∨ (∃ o : SS, i = .svrel o ∧ sget s.team o.a.toNat = w) ∨ (∃ o : S3, i = .svdrop o ∧ sget s.team o.a.toNat = w) →
      Ready i s → w.toNat < 65536 →
      (svOn s = false → exec i s = .next (trapBefore (noteIssue s) (trap18 4 w.toNat 0)))
      ∧ (svOn s = true → (svRead s w.toNat).isOpen = false ∨ (svRead s w.toNat).asid ≠ s.team.pl.asid →
          exec i s = .next (trapBefore (noteIssue s) (trap18 1 w.toNat 0))))
  ∧ (∀ (s : State) (k asid : Nat), Invariant s → lostLink s = none → svOn s = true → k < 65536 → asid < 65536 → (∀ i, i < 64 → isHbm (svRecPa s k + i) = true) →
      ((svRead s k).isOpen = false → Answers (.svcmdOpen (BitVec.ofNat 64 (1 + k * 2 ^ 16 + asid * 2 ^ 32))) s fun t =>
          svRead t k = { isOpen := true, asid := asid, put := 0, rel := 0, drain := 0 }
            ∧ t = { s with ms := t.ms, host := { s.host with openStreams := k :: s.host.openStreams } })
      ∧ ((svRead s k).isOpen = true → Answers (.svcmdClose (BitVec.ofNat 64 (2 + k * 2 ^ 16))) s fun t =>
          svRead t k = { svRead s k with isOpen := false }
            ∧ (let told := fun (u : Team) => if u.wait = .retry (.sieve k) then { u with wait := .ready, pending := u.pending ++ [trap18 1 k 0] } else u
              t = { s with ms := t.ms, host := { s.host with openStreams := s.host.openStreams.filter fun j => j != k },
                           team := told s.team, others := s.others.map told }))
      ∧ (∀ n, n < 2 ^ 32 → (svRead s k).isOpen = true → (svRead s k).drain ≤ n → n ≤ (svRead s k).rel →
          Answers (.svdrain (BitVec.ofNat 64 (k + n * 2 ^ 32))) s fun t =>
            svRead t k = { svRead s k with drain := n } ∧ t = { s with ms := t.ms })
      ∧ (∀ n, n < 2 ^ 32 → n < (svRead s k).drain ∨ (svRead s k).rel < n →
          exec (.svdrain (BitVec.ofNat 64 (k + n * 2 ^ 32))) s
            = .next (refuseWrite s 0 0x90010 (BitVec.ofNat 64 (k + n * 2 ^ 32)))))

/-! ### Traps -/

/-- What delivery leaves (R391): the team runs at the trap vector in handler mode with its registers but for x15, which holds its
context entry's address, no stack and no loops, and counters at zero; the entry holds its context with the resume point as its
PC. -/
def Sys2Proof.Delivered (s t : State) (tr : Trap) (resume : DWord) : Prop :=
  ∃ k, k < ctxEntries s ∧ k ∉ s.sched.ctxUsed ∧ t.sched = { s.sched with ctxUsed := k :: s.sched.ctxUsed }
    ∧ t.team.ctl = { s.team.ctl with pc := s.host.trapvec &&& ~~~3, stack := [], loops := [], buffer := [], hints := none }
    ∧ t.team.wait = .ready ∧ privileged t.team = true
    ∧ t.team.sp = { s.team.sp with cause := BitVec.ofNat 32 tr.group, d0 := tr.d0, d1 := tr.d1, d2 := tr.d2 }
    ∧ t.team.handler = some { entry := k, group := tr.group, saved := s.team.eng, resume := resume, later := s.team.pending,
                              tiles := (contextPair s s.team).isSome }
    ∧ t.team.pending = [] ∧ t = { s with ms := t.ms, team := t.team, sched := t.sched }
    ∧ (∀ p, t.team.eng.count p = 0)
    ∧ (Shaped s.team → spair t.team 30 = entryVa s k) ∧ (∀ r, r ≠ 30 → r ≠ 31 → sget t.team r = sget s.team r)
    ∧ t.team.rf = { s.team.rf with s := t.team.rf.s, sfull := t.team.rf.sfull } ∧ t.team.pl = s.team.pl
    ∧ (Invariant s → contextPair s s.team = none →
        (∀ i, i < 0xC00 + 4 * s.team.rf.n * s.team.rf.nv → isHbm (entryPa s k + i) = true) →
        (∀ i, i < (ctxBytes { s.team with ctl := { s.team.ctl with hints := none } } resume).length →
          commByte t.ms (entryPa s k + i)
            = (ctxBytes { s.team with ctl := { s.team.ctl with hints := none } } resume).getD i 0)
        ∧ commNum t.ms (entryPa s k + 0x78) 8 = resume.toNat)

/-- R389 to R393 and R410: a trap that may be delivered, with a context entry free, is delivered; otherwise it is fatal, and every team
of its grid has ended. A trap before an instruction resumes at the first word of its hint run. BKPT is complete, then its trap is
taken. -/
def Obligations.TrapEntry : Prop :=
  (∀ (s : State) (tr : Trap) (resume : DWord), s.team.kind = .core →
      (deliverable s tr.group = true → (∃ k, k < ctxEntries s ∧ k ∉ s.sched.ctxUsed) → Delivered s (takeTrap s tr resume) tr resume)
      ∧ (deliverable s tr.group = false ∨ (∀ k, k < ctxEntries s → k ∈ s.sched.ctxUsed) →
          (∀ u ∈ (takeTrap s tr resume).teams, u.kind = .core → u.pl.grid = s.team.pl.grid → u.stage = .ended)
          ∧ ∀ g ∈ (takeTrap s tr resume).sched.grids, g.id = s.team.pl.grid → g.fatal = true))
  ∧ (∀ (s : State) (tr : Trap), trapBefore s tr = takeTrap s tr (match s.team.ctl.hints with | some h => h.first | none => s.team.ctl.pc))
  ∧ (∀ (s : State), Ready .bkpt s → (∀ f ∈ s.team.ctl.loops, s.team.ctl.pc ≠ lastWord f) →
      exec .bkpt s = .next (takeTrap (wentOn (noteIssue s)) ⟨15, 0, codeOff s.team s.team.ctl.pc, 0⟩ (nextPc s)))

/-- R102, R239, R401, R408, R409, R419 and R420: TRAPS sends one request for its active lanes, its header and an argument block a lane
in host memory, and parks the team, which fetches anew when it goes on; over a link that cannot deliver it traps with group 17 reason 3
(R414); the host's completion puts the reply into v0 on, or leaves a
pending trap of group 13 reason 2. TRET restores the team from its entry, with the pair's tiles where the entry holds them; outside
handler mode it traps with group 5 reason 6. A passed deadline ends the wait, becomes zero and traps with group 16 and its value. That
CONT_ID is the next count is log 4, the rings' physical bases and the size 0 log 63, SOURCE 0 of a refused SRCOMP log 65, the link's effect
log 84. -/
def Obligations.ServicesAndReturns : Prop :=
  (∀ (o : TrapsOp) (s : State), Runs (.traps o) s →
      let m := active s.team o.g
      let c := (lanesOf s.team.rf.n m).length
      let num := sget s.team o.a.toNat
      (m = 0 → Answers (.traps o) s fun t => OnlyWrites s t [] [] [])
      ∧ (m ≠ 0 → (∃ r ∈ matrixReads s s.team, r < 16) → exec (.traps o) s = .next (hold s .operand))
      ∧ ((∀ r ∈ matrixReads s s.team, 16 ≤ r) → m ≠ 0 → ringLog s = 0 ∨ argLog s = 0 →
          exec (.traps o) s = .next (trapBefore (noteIssue s) (trap13 1 num (codeOff s.team s.team.ctl.pc))))
      ∧ ((∀ r ∈ matrixReads s s.team, 16 ≤ r) → s.team.passed = none → m ≠ 0 → ringLog s ≠ 0 → argLog s ≠ 0 →
          let room := (s.host.srhead - s.host.srtail).toNat < 2 ^ ringLog s ∧ (s.host.srahead - s.host.sratail).toNat + c ≤ 2 ^ argLog s
          (¬room → exec (.traps o) s = .next (hold s .room))
          ∧ (∀ lane, room → lostLink s = some lane →
              exec (.traps o) s = .next (trapBefore (noteIssue s) (trapLink lane (blockPa s s.host.srahead.toNat))))
          ∧ (room → lostLink s = none → Answers (.traps o) s fun t => t.team.wait = .service m num (trap13 2 num (codeOff s.team s.team.ctl.pc))
            ∧ t.team.cont = BitVec.ofNat 32 s.sched.nextCont ∧ t.sched = { s.sched with nextCont := s.sched.nextCont + 1 }
            ∧ t.host.srhead = s.host.srhead + 1 ∧ t.host.srahead = s.host.srahead + BitVec.ofNat 64 c
            ∧ t.host.requests = s.host.requests ++ [⟨BitVec.ofNat 32 s.sched.nextCont, some s.team.uid, m, s.host.srahead.toNat, c, false⟩]
            ∧ t.team.rf = s.team.rf ∧ t.team.sp = s.team.sp ∧ t.team.ctl = { at_ s (nextPc s) with buffer := [] }
            ∧ t.team.pending = s.team.pending ∧ t.team.passed = none
            ∧ let hdr := hostPa (base12 s.host.srbase + 256 * (s.host.srhead.toNat % 2 ^ ringLog s))
              (s.ms.mem.wf = true → (∀ i, i < 256 → isHost (hdr + i) = true) →
                (∀ i, i < 256 → commByte t.ms (hdr + i) = (svcHeader s (BitVec.ofNat 32 s.sched.nextCont) num m c).getD i 0)
                ∧ ∀ L, L < s.team.rf.n → m.getLsbD L = true →
                  let b := blockPa s (s.host.srahead.toNat + rankOf s o.g L)
                  (∀ i, i < 64 → isHost (b + i) = true ∧ (b + i < hdr ∨ hdr + 256 ≤ b + i)) →
                  ∀ i, i < 64 → commByte t.ms (b + i) = (argBlock s.team L).getD i 0))))
  ∧ (∀ (s : State) (v : DWord) (r : SvcReq) (m : LaneSet) (num : Word) (failed : Trap), bitsOf v.toNat 2 30 = 0 → bitsOf v.toNat 0 2 < 2 →
      s.host.requests.find? (fun r => r.cont == hiHalf v && !r.freed) = some r → r.uid = some s.team.uid → s.team.cont = r.cont →
      s.team.wait = .service m num failed → s.team.stage = .resident → (∀ r ∈ matrixReads s s.team, 16 ≤ r) → lostLink s = none → Answers (.srcomp v) s fun t =>
        t.team.wait = .ready ∧ t.team.ctl = { s.team.ctl with buffer := [] } ∧ t.ms = s.ms ∧ t.team.rf.s = s.team.rf.s ∧ t.team.rf.p = s.team.rf.p
        ∧ (bitsOf v.toNat 0 2 = 1 → t.team.pending = s.team.pending ++ [failed] ∧ t.team.rf = s.team.rf)
        ∧ (bitsOf v.toNat 0 2 = 0 → Shaped s.team → t.team.pending = s.team.pending ∧ ∀ q L, L < s.team.rf.n → q < s.team.rf.nv →
            vget t.team q L = if q < 16 ∧ m.getLsbD L = true then
              BitVec.ofNat 32 (commNum s.ms (blockPa s (r.first + ((List.range L).filter fun K => m.getLsbD K).length) + 4 * q) 4)
            else vget s.team q L))
  ∧ (∀ (s : State) (v : DWord), lostLink s = none → bitsOf v.toNat 2 30 ≠ 0 ∨ 2 ≤ bitsOf v.toNat 0 2 ∨ (∀ r ∈ s.host.requests, r.cont ≠ hiHalf v ∨ r.freed = true) →
      exec (.srcomp v) s = .next (refuseWrite s 0 0x80030 v))
  ∧ (∀ (s : State), Ready .tret s → s.team.handler = none → exec .tret s = .next (trapBefore (noteIssue s) (trap5 6 none 0)))
  ∧ (∀ (s u : State) (h : Handler) (bs : List Byte), Ready .tret s → s.team.kind = .core → s.team.handler = some h → countersZero s.team.eng = true →
      matrixReads s s.team = [] → landed { s.team with eng := Engines.idle } = true →
      let vectors := 0xC00 + 4 * s.team.rf.n * s.team.rf.nv
      ReadsRecord (noteIssue s) 256 (spair s.team 30) (vectors + if h.tiles then 16384 + 8 * 65536 else 0) bs u →
      (∀ r, readSaved bs true = some r → contextOk s.team bs r = true → Answers .tret s fun t =>
        t.team.ctl = { pc := r.pc, mask := r.mask, stack := r.stack, loops := r.loops, buffer := [], hints := none }
        ∧ t.team.rf.v = r.v ∧ t.team.rf.s = r.s ∧ t.team.rf.p = r.p ∧ t.team.rf.lc = r.lc ∧ t.team.rf.fr = r.fr
        ∧ t.team.rf.fs = s.team.rf.fs ∧ t.team.rf.sh = (contextTail bs).sh
        ∧ t.team.sp.cause = 0 ∧ t.team.sp.d0 = 0 ∧ t.team.sp.d1 = 0 ∧ t.team.sp.d2 = 0 ∧ t.team.sp.phase = r.phase
        ∧ t.team.handler = none ∧ t.team.wait = .ready ∧ t.team.pending = h.later ∧ t.team.eng.ops = h.saved.ops
        ∧ (h.tiles = true → ∀ g p, t.gangOf t.team = some g → p ∈ g.pairs → p.idx = s.team.pl.pair →
            p.tiles.length = 4 ∧ tileStates p = (bs.getD 0xB08 0).toNat
            ∧ ∀ k x, p.tiles[k]? = some x → ∀ e, e < 16384 → let at_ := vectors + 16384 + 65536 * k + 4 * e
              let word := fun (o : Nat) => (BitVec.ofNat 32 (ofLeBytes ((bs.drop o).take 4)) : Word)
              tileWord x.lead e = word at_ ∧ tileWord x.foll e = word (at_ + 262144))
        ∧ t.sched = { s.sched with ctxUsed := s.sched.ctxUsed.filter fun k => k != h.entry })
      ∧ ((∀ r, readSaved bs true = some r → contextOk s.team bs r = false) →
          exec .tret s = .next (fatalTrap u (trap12 s.team 7 (spair s.team 30)) s.team.ctl.pc)))
  ∧ (∀ (s : State), deadlineEnds s.team = true → s.team.sp.tdl ≠ 0 → s.team.sp.tdl.toNat ≤ s.cycle.toNat →
      ∃ u, exec (.deadlineExpiry s.team.uid) s = .next ((trapBefore u ⟨16, 0, loHalf s.team.sp.tdl, hiHalf s.team.sp.tdl⟩).focus s.team.uid)
        ∧ u = { s with gangs := u.gangs, team := { s.team with
            wait := .ready, sp := { s.team.sp with tdl := 0 }, book := { s.team.book with yieldTo := [] } } })

/-! ### Graphs -/

/-- Only slot `n` of the 256 graph slots changes. -/
def Sys2Proof.OneSlot (s t : State) (n : Nat) : Prop :=
  (∀ k, k ≠ n → t.sched.graphs.getD k GraphSlot.empty = s.sched.graphs.getD k GraphSlot.empty)
    ∧ t.sched = { s.sched with graphs := t.sched.graphs } ∧ t.team = s.team ∧ t.others = s.others ∧ t.ms = s.ms

/-- The slot of a graph. -/
abbrev Sys2Proof.slotAt (s : State) (n : Nat) : GraphSlot := s.sched.graphs.getD n GraphSlot.empty

/-- R275 to R281: GCMD with OP 1 loads a well-formed image into an idle slot when it fits, and otherwise leaves why not in the slot's
status; with OP 2 it empties an idle slot; a reserved bit or OP is refused and logged; PRIV from a queue that is not the
privileged one leaves only a CMDSTAT other than 0 (log 95). A trigger of a loaded graph with fewer than four pending is pending with its patches, and TRIGSEQ counts it;
one of an empty or full slot, or whose patch list is refused, is refused. The oldest pending trigger of a graph that does not run
begins an instance with its patches applied and every node waiting. The scheduler's reads change only what errors in the memory they
read are counted and logged by. That an unreadable image leaves CMDSTAT 3 is log 41, that a pending trigger makes a remove refused log 43,
the SOURCE of refused writes log 65, and that an upload and a remove clear the status's other fields log 102. -/
def Obligations.GraphCommands : Prop :=
  (∀ (s : State) (v : DWord), s.sched.graphs.length = 256 → lostLink s = none →
      let n := bitsOf v.toNat 0 8
      let allowed := v.getLsbD 9 = true → s.host.privq = true
      let turnedAway := fun (i : Instr) => Answers i s fun t => OneSlot s t n ∧ t.host = s.host
        ∧ ∃ c, 1 ≤ c ∧ c ≤ 15 ∧ slotAt t n = { slotAt s n with cmdstat := c }
      (gcmdBad v = true → exec (.graphUpload v) s = .next (refuseWrite s schedSource 0x40008 v)
        ∧ exec (.graphRemove v) s = .next (refuseWrite s schedSource 0x40008 v))
      ∧ (gcmdBad v = false → ¬allowed → (bitsOf v.toNat 10 2 = 1 → turnedAway (.graphUpload v))
        ∧ (bitsOf v.toNat 10 2 = 2 → turnedAway (.graphRemove v)))
      ∧ (gcmdBad v = false → allowed → bitsOf v.toNat 10 2 = 1 →
        (graphBusy (slotAt s n) = true → Answers (.graphUpload v) s fun t => OneSlot s t n ∧ slotAt t n = { slotAt s n with cmdstat := 2 })
        ∧ (∀ u, graphBusy (slotAt s n) = false → readImage s (bitsOf v.toNat 16 16) (v.getLsbD 9) = (u, none) →
            Answers (.graphUpload v) s fun t => OneSlot u t n ∧ slotAt t n = { slotAt s n with cmdstat := 3 })
        ∧ ∀ u g, graphBusy (slotAt s n) = false → readImage s (bitsOf v.toNat 16 16) (v.getLsbD 9) = (u, some g) →
          let old := match (slotAt s n).graph with | some g => g.units | none => 0
          Answers (.graphUpload v) s fun t => OneSlot u t n ∧ slotAt t n =
            if 4096 < unitsUsed s - old + g.units then { slotAt s n with cmdstat := 1 }
            else { graph := some g, failNode := 0, failCode := 0, count := 0, cmdstat := 0 })
      ∧ (gcmdBad v = false → allowed → bitsOf v.toNat 10 2 = 2 → Answers (.graphRemove v) s fun t => OneSlot s t n ∧ slotAt t n =
          if graphBusy (slotAt s n) then { slotAt s n with cmdstat := 2 } else GraphSlot.empty))
  ∧ (∀ (s : State) (asid : Nat) (priv : Bool), let u := (readImage s asid priv).1
      u = { s with ms := u.ms, host := u.host } ∧ (s.ms.ecc = [] → u = s))
  ∧ (∀ (s : State) (v : DWord), s.sched.graphs.length = 256 → lostLink s = none →
      let n := bitsOf v.toNat 0 8
      let list : DWord := v &&& ~~~0xFF
      let accepted := fun (u : State) (g : Graph) (ps : Option (List Patch)) => Answers (.trigger v) s fun t =>
        t.sched.trigseq = s.sched.trigseq + 1
          ∧ slotAt t n = { slotAt s n with graph := some { g with pending := g.pending ++ [ps] }, cmdstat := 0 }
          ∧ OneSlot { u with sched := { u.sched with trigseq := u.sched.trigseq + 1 } } t n
      ((∀ g, (slotAt s n).graph = some g → 4 ≤ g.pending.length) →
        exec (.trigger v) s = .next (refuseWrite (cmdStat s n 4) schedSource 0x40010 v))
      ∧ ∀ g, (slotAt s n).graph = some g → g.pending.length < 4 →
        (list = 0 → unitsUsed s ≤ 4096 → accepted s g none)
        ∧ (∀ u, list ≠ 0 → readPatches s g list = (u, none) →
            exec (.trigger v) s = .next (refuseWrite (cmdStat u n 5) schedSource 0x40010 v))
        ∧ (∀ u ps, list ≠ 0 → readPatches s g list = (u, some ps) →
            (unitsUsed u + patchUnits (some ps) ≤ 4096 → accepted u g (some ps))
            ∧ (4096 < unitsUsed u + patchUnits (some ps) →
                exec (.trigger v) s = .next (refuseWrite (cmdStat u n 1) schedSource 0x40010 v))))
  ∧ (∀ (s : State) (n : Nat) (g : Graph) (ps : Option (List Patch)) (rest : List (Option (List Patch))),
      s.sched.graphs.length = 256 → n < 256 → (slotAt s n).graph = some g → g.pending = ps :: rest → g.running = false →
      let h := { (ps.getD []).foldl applyPatch g with
        pending := rest, running := true, states := List.replicate g.nodes.length .waiting }
      Answers (.instanceBegin n) s fun t => OneSlot s t n ∧ slotAt t n = { slotAt s n with graph := some h })

/-- The node's graph is loaded, its state list has the node, and the node's state is `x`. -/
def Sys2Proof.NodeIs (s : State) (n k : Nat) (g : Graph) (x : NodeState) : Prop :=
  s.sched.graphs.length = 256 ∧ n < 256 ∧ graphAt s n = some g ∧ k < g.states.length ∧ nodeState g k = x

/-- Only the slot of graph `n` changes among the scheduler's tables, beside what `u` says. -/
def Sys2Proof.OnlySlot (u : Sched) (t : State) (n : Nat) : Prop :=
  t.sched = { u with graphs := t.sched.graphs } ∧ ∀ m, m ≠ n → t.sched.graphs.getD m GraphSlot.empty = u.graphs.getD m GraphSlot.empty

/-- Node `k` of graph `n` is in state `x`; nothing else of the graph changes. -/
def Sys2Proof.NodeNow (s t : State) (n k : Nat) (g : Graph) (x : NodeState) : Prop :=
  slotAt t n = { slotAt s n with graph := some { g with states := g.states.set k x } }

/-- What an event leaves of graph `n` whose nodes are then in the states of `h`: when every node has ended, the running instance is
complete and counted, and the slot names its first failed node (R279, R284). -/
def Sys2Proof.InstanceAt (s t : State) (n : Nat) (g h : Graph) : Prop :=
  let ended := g.running && h.states.all nodeOver
  let x := slotAt t n
  h = { g with states := h.states, running := g.running && !ended }
    ∧ x = { slotAt s n with
              graph := some h, failNode := x.failNode, failCode := x.failCode,
              count := if ended then ((slotAt s n).count + 1) % 2 ^ 24 else (slotAt s n).count }
    ∧ (ended = false → x.failNode = (slotAt s n).failNode ∧ x.failCode = (slotAt s n).failCode)
    ∧ (ended = true → (∀ j c, nodeState h j = .failed c → (∀ i d, i < j → nodeState h i ≠ .failed d) → x.failNode = j ∧ x.failCode = c)
      ∧ ((∀ j c, nodeState h j ≠ .failed c) → x.failNode = 0 ∧ x.failCode = 0))
    ∧ OnlySlot s.sched t n

/-- After the event node `k` is done, and no other node's state changes (R282, R284). -/
def Sys2Proof.NodeDone (s t : State) (n k : Nat) (g : Graph) : Prop :=
  ∃ h, InstanceAt s t n g h ∧ h.states = g.states.set k .done

/-- After the event node `k` has failed with a code, the nodes that depend on it and had not launched are cancelled, no other node's
state changes, and the log has the failure (R284, R398). `u` is the state before. -/
def Sys2Proof.NodeFailed (u t : State) (n k code : Nat) (g : Graph) : Prop :=
  t = { logEvent u 7 schedSource (leBytes 4 n ++ leBytes 4 k ++ leBytes 4 code) with sched := t.sched }
    ∧ ∃ h, InstanceAt u t n g h ∧ h.states.length = g.states.length ∧ nodeState h k = .failed code
      ∧ ∀ j, j < g.states.length → j ≠ k → let hit := Relation.TransGen (fun a b => b ∈ nodeSuccs g a) k j
        (hit → nodeState g j = .waiting → nodeState h j = .cancelled) ∧ (¬hit ∨ nodeState g j ≠ .waiting → nodeState h j = nodeState g j)

/-- The grid a KERNEL node starts from its record (R282, R291, R294). -/
abbrev Sys2Proof.nodeGrid (s : State) (n k asid : Nat) (r : List DWord) : Grid :=
  { id := s.sched.nextGrid, from_ := .node n k, rec_ := r, asid := asid, prio := recPrio r, depth := 0, priv := recPriv r,
    cores := recClusters r, since := s.cycle, next := 0, size := gangCount r, last := 23, fatal := false }

/-- What a STRATUM node asks of its arguments (R319): code and base at multiples of 4 KiB, a length of whole pages up to 4 GiB, and
parameters at a multiple of 32. -/
def Sys2Proof.StratumArgs (g : Graph) (k : Nat) : Prop :=
  (nodeArg g k 0).toNat % 4096 = 0 ∧ (nodeArg g k 1).toNat % 4096 = 0 ∧ (nodeArg g k 2).toNat % 4096 = 0 ∧ 0 < (nodeArg g k 2).toNat
    ∧ (nodeArg g k 2).toNat ≤ 2 ^ 32 ∧ (nodeArg g k 3).toNat % 32 = 0

/-- R278, R282 and R319: the launchable node of lowest index of a running graph launches. A KERNEL node with a good record starts a
grid under the next id and seeds its generators; a COPY reads its source; a STRATUM node whose arguments and pages are good is ready to
run its blocks; a HOST-SIGNAL writes its value to host memory; an EXTERNAL-WAIT watches its word. What may not launch fails with the
code of its kind. -/
def Sys2Proof.NodeLaunchClaim : Prop :=
  ∀ (s : State) (n k : Nat) (g : Graph), NodeIs s n k g .waiting → g.running = true → k < g.nodes.length → canLaunch s g k = true →
      (∀ j, j < k → canLaunch s g j = false) → s.ms.ecc = [] →
      let kind := nodeKind g k
      let arg := fun (j : Nat) => nodeArg g k j
      let r := g.recs.getD k []
      let fails := fun (code : Nat) => Answers (.nodeLaunch n k) s fun t => NodeFailed s t n k code g
      let pieces := schedPieces s g.asid g.priv
      (kind = 0 → badRecord r g.priv (BitVec.allOnes 24) = true → fails 1)
      ∧ (kind = 0 → badRecord r g.priv (BitVec.allOnes 24) = false → Answers (.nodeLaunch n k) s fun t =>
          NodeNow s t n k g (.grid s.sched.nextGrid) ∧ t = { s with gens := t.gens, sched := t.sched }
          ∧ OnlySlot { s.sched with grids := s.sched.grids ++ [nodeGrid s n k g.asid r], nextGrid := s.sched.nextGrid + 1 } t n
          ∧ (∀ c j, c < 24 → j < 32 → (recClusters r).getLsbD c = true → genOf t (32 * c + j) = seedGen (r.getD 2 0) (32 * c + j))
          ∧ ∀ q, (∀ c j, c < 24 → j < 32 → (recClusters r).getLsbD c = true → q ≠ 32 * c + j) → genOf t q = genOf s q)
      ∧ (kind = 1 → pieces .read (arg 0) (arg 2).toNat = none ∨ pieces .write (arg 1) (arg 2).toNat = none ∨ (arg 2).toNat % 64 ≠ 0 → fails 2)
      ∧ (∀ src dst, kind = 1 → (arg 2).toNat % 64 = 0 → pieces .read (arg 0) (arg 2).toNat = some src →
          pieces .write (arg 1) (arg 2).toNat = some dst → Answers (.nodeLaunch n k) s fun t =>
          NodeNow s t n k g (.copying ((dst.flatMap fun p => regsFrom p.pa p.len).zip (schedBytes s.ms src)) (schedIns dst))
          ∧ t = { s with sched := t.sched } ∧ OnlySlot s.sched t n)
      ∧ (kind = 2 → ¬StratumArgs g k ∨ (schedRead s g.asid g.priv (arg 0) 4096).2 = none
            ∨ (arg 3 ≠ 0 ∧ (schedRead s g.asid g.priv (arg 3) 32).2 = none) ∨ stratumPages s g (arg 1) ((arg 2).toNat / 4096) 0 = none →
          Answers (.nodeLaunch n k) s fun t => ∃ u, NodeFailed u t n k 3 g ∧ u.sched = s.sched)
      ∧ (∀ cs ps blocks, kind = 2 → StratumArgs g k → schedRead s g.asid g.priv (arg 0) 4096 = (s, some cs) →
          (if arg 3 = 0 then (s, some []) else schedRead s g.asid g.priv (arg 3) 32) = (s, some ps) →
          stratumPages s g (arg 1) ((arg 2).toNat / 4096) 0 = some blocks → Answers (.nodeLaunch n k) s fun t =>
          NodeNow s t n k g .stratum ∧ OnlySlot s.sched t n
          ∧ t = { s with sched := t.sched, strat := { s.strat with runs := s.strat.runs ++
              [{ graph := n, node := k, codeVa := arg 0, code := wordsOf 1024 cs, params := wordsOf 8 ps, blocks := blocks, failed := false }] } })
      ∧ (∀ p, kind = 3 → pieces .write (arg 0) 8 = some [p] → isHost p.pa = true → (arg 0).toNat % 8 = 0 → s.ms.mem.wf = true →
          Answers (.nodeLaunch n k) s fun t => NodeNow s t n k g .signal ∧ t = { s with ms := t.ms, sched := t.sched }
          ∧ OnlySlot s.sched t n ∧ (∀ i, i < 8 → commByte t.ms (p.pa + i) = (leBytes 8 (arg 1).toNat).getD i 0)
          ∧ ∀ a key, isRaw a = false → a < p.pa ∨ p.pa + 8 ≤ a → commByteK t.ms key a = commByteK s.ms key a)
      ∧ (kind = 3 → (∀ p, pieces .write (arg 0) 8 = some [p] → isHost p.pa = false ∨ (arg 0).toNat % 8 ≠ 0) → fails 6)
      ∧ (∀ p, 4 ≤ kind → pieces .read (arg 0) 8 = some [p] → (arg 0).toNat % 8 = 0 → Answers (.nodeLaunch n k) s fun t =>
          NodeNow s t n k g (.watch p.pa p.key s.cycle) ∧ t = { s with sched := t.sched } ∧ OnlySlot s.sched t n)
      ∧ (4 ≤ kind → (∀ p, pieces .read (arg 0) 8 = some [p] → (arg 0).toNat % 8 ≠ 0) → fails 4)

/-- R278, R282 to R284, R320 and R323: a node completes when its grid retires, its copy commits, its blocks are done, its word reaches
the target or its signal is acknowledged; it fails with code 5 after a fatal trap, with code 3 when a wavefront has failed and with
code 4 when its wait times out. -/
def Sys2Proof.NodeEndClaim : Prop :=
  ∀ (s : State) (n k : Nat) (g : Graph),
      (NodeIs s n k g (.retired false) → Answers (.nodeComplete n k) s fun t => NodeDone s t n k g ∧ t = { s with sched := t.sched })
      ∧ (NodeIs s n k g (.retired true) → Answers (.nodeComplete n k) s fun t => NodeFailed s t n k 5 g)
      ∧ (∀ cells ins, NodeIs s n k g (.copying cells ins) → Answers (.nodeComplete n k) s fun t => NodeDone s t n k g
          ∧ t = { s with ms := t.ms, sched := t.sched }
          ∧ (Coherent s.ms → ∀ key a, isRaw a = false → KeyHeld s.ms key a → KeyHeld t.ms key a →
              (∀ c ∈ cells, c.1 / 64 = a / 64 → (insIn ins (a / 64)).key = key) →
              (∀ c ∈ cells, isRaw c.1 = true → rawTarget c.1 / 16 ≠ a / 16) →
              commByteK t.ms key a = (lastAt cells a).getD (commByteK s.ms key a)))
      ∧ (NodeIs s n k g .stratum → stratumOver s n k = false → exec (.nodeComplete n k) s = .next s)
      ∧ (NodeIs s n k g .stratum → stratumOver s n k = true → Answers (.nodeComplete n k) s fun t =>
          (∀ r, r ∈ t.strat.runs ↔ r ∈ s.strat.runs ∧ ¬(r.graph = n ∧ r.node = k))
          ∧ ((∀ r ∈ s.strat.runs, r.graph = n → r.node = k → r.failed = false) → NodeDone s t n k g ∧ t.ms = s.ms)
          ∧ ((∃ r ∈ s.strat.runs, r.graph = n ∧ r.node = k ∧ r.failed = true) → ∃ u, NodeFailed u t n k 3 g ∧ u.sched = s.sched))
      ∧ (∀ pa key since, NodeIs s n k g (.watch pa key since) →
          let target := (nodeArg g k 1).toNat
          let limit := (nodeArg g k 2).toNat
          let word := ofLeBytes (commBytesK s.ms key pa 8)
          (target ≤ word → Answers (.externalWaitWake n k) s fun t => NodeDone s t n k g ∧ t = { s with sched := t.sched })
          ∧ (word < target → exec (.externalWaitWake n k) s = .next s)
          ∧ (limit ≠ 0 → limit ≤ (s.cycle - since).toNat → Answers (.externalWaitTimeout n k) s fun t => NodeFailed s t n k 4 g)
          ∧ (limit = 0 ∨ (s.cycle - since).toNat < limit → exec (.externalWaitTimeout n k) s = .next s))
      ∧ (NodeIs s n k g .signal → Answers (.hostSignalAck n k) s fun t => NodeDone s t n k g ∧ t = { s with sched := t.sched })

/-- R278, R279, R282 to R284, R319, R320 and R323: how the nodes of a graph launch, complete and fail. That the grid takes the next count as its
id is log 4, that the addresses of HOST-SIGNAL and EXTERNAL-WAIT are translated in the graph's space log 44, that a failure is logged when
the node fails logs 43 and 65, and that a grid's first gang starts at cluster 0 log 102. -/
def Obligations.GraphNodes : Prop := NodeLaunchClaim ∧ NodeEndClaim

/-! ### Grids, gangs and teams -/

/-- A team at its first instruction (R88, R290): N and V of its record, the parameter pair and the gang's coordinates in s0 to s4, every
other register zero and full, every lane of the mask set, at the record's entry. -/
def Sys2Proof.Fresh (t : Team) (r : List DWord) (gang : Nat) : Prop :=
  let n := recLanes r
  t.rf.n = n ∧ t.rf.nv = recRegs r ∧ t.ctl.pc = r.getD 0 0 ∧ t.ctl.stack = [] ∧ t.ctl.loops = [] ∧ t.ctl.hints = none
    ∧ (∀ L, t.ctl.mask.getLsbD L = decide (L < n))
    ∧ spair t 0 = r.getD 1 0 ∧ sget t 2 = BitVec.ofNat 32 (gang % gdim r 0) ∧ sget t 3 = BitVec.ofNat 32 (gang / gdim r 0 % gdim r 1)
    ∧ sget t 4 = BitVec.ofNat 32 (gang / (gdim r 0 * gdim r 1)) ∧ (∀ q, 5 ≤ q → sget t q = 0)
    ∧ (∀ q L, vget t q L = 0) ∧ (∀ p, pset t p = 0) ∧ t.rf.lc = List.replicate 3 0 ∧ t.rf.fr = List.replicate 4 0 ∧ (∀ q, q < 64 → vIsFull t q = true) ∧ (∀ q, q < 32 → sIsFull t q = true)
    ∧ (∀ k, k < 8 → fsget t k = r.getD (12 + k) 0) ∧ t.wait = .ready ∧ t.stage = .resident

/-- What one entry of the waiting list does when the distributor's walk reaches it: the state with it placed, if it can be (R292). -/
def Sys2Proof.placed (r : State) (w : WaitEntry) : Option State :=
  match w.what with
  | .gang id => if r.mgmt.hold then none else (r.gridOf id).bind (tryGang r)
  | .team uid => (r.find uid).bind (tryRestore r)

/-- R292 and R402: the waiting list holds the next gang of each grid that has one left, and each evicted team that may be restored, by priority,
then by the launch time of the grid, then by gang. -/
def Sys2Proof.WaitingOrder : Prop :=
  ∀ s : State,
    (waitList s).Pairwise (fun a b => b.prio ≤ a.prio ∧ (a.prio = b.prio → a.since ≤ b.since ∧ (a.since = b.since → a.gang ≤ b.gang)))
    ∧ ∀ w, w ∈ waitList s ↔
      (∃ g ∈ s.sched.grids, g.next < g.size ∧ w = { prio := g.prio, since := g.since.toNat, gang := g.next, what := .gang g.id })
      ∨ ∃ t ∈ s.teams, wantsRestore s t = true ∧ w = { prio := t.pl.prio, since := ((s.gridOf t.pl.grid).map fun g => g.since.toNat).getD 0,
                                                       gang := t.pl.gang, what := .team t.uid }

/-- R292: the walk passes over what cannot be placed and places the first that can. -/
def Sys2Proof.WalksInOrder : Prop :=
  ∀ (s t : State) (pre post : List WaitEntry) (w : WaitEntry), let r := closePairs (sweepGangs s) []
    waitList r = pre ++ w :: post → (∀ x ∈ pre, placed r x = none) → placed r w = some t →
      (∀ id, w.what = .gang id → exec .gangPlacement s = .next t) ∧ ∀ uid, w.what = .team uid → exec (.teamRestore uid) s = .next t

/-- R29, R292 and R293: the clusters of the core set are tried in ascending order with wrapping, after the one that received the grid's previous
gang; none is tried that a gang of no lower priority waits for, past its limit; the gang goes to the first that holds P teams, else to the
first that holds F. -/
def Sys2Proof.GangGoes : Prop :=
  (∀ g : Grid, g.last < 24 → (clusterOrder g).Pairwise (fun a b => (a + 23 - g.last) % 24 < (b + 23 - g.last) % 24)
      ∧ ∀ c, c ∈ clusterOrder g ↔ c < 24 ∧ g.cores.getLsbD c = true)
  ∧ ∀ (s : State) (g : Grid),
    (openClusters s g).Sublist (clusterOrder g)
    ∧ (∀ c ∈ openClusters s g, ∀ h ∈ s.sched.grids, h.id ≠ g.id → h.next < h.size → 2 ^ 20 ≤ (s.cycle - h.since).toNat → g.prio ≤ h.prio →
        h.cores.getLsbD c = true → waitedOut s g = true ∧ h.prio ≤ g.prio
          ∧ ¬(h.since < g.since) ∧ (h.since = g.since → g.next ≤ h.next))
    ∧ ∀ (pre post : List Nat) (c n : Nat) (r : List Seat × List Nat), gcbRoom s = true → openClusters s g = pre ++ c :: post →
      (n = prefSize g.rec_ ∨ (n = fallSize g.rec_ ∧ ∀ x ∈ openClusters s g, fitGang s (residents s) g.rec_ (prefSize g.rec_) x = none)) →
      (∀ x ∈ pre, fitGang s (residents s) g.rec_ n x = none) → fitGang s (residents s) g.rec_ n c = some r →
      tryGang s g = some (placeGang s g n c r.1 r.2)

/-- R29, R40, R88, R126, R290 to R293 and R402: the distributor places the gang, or restores the evicted team, that its walk of the waiting list
reaches first, the list standing in the order of priority, launch time and gang; each team of a placed gang starts as its record says. A gang that has waited the limit is noted. A team without
lanes whose counters are zero ends and publishes all it wrote. A grid with nothing left alive retires. The order of seats and
victims is the model's choice (logs 49 and 50), and a task's end is one step (log 12). -/
def Obligations.Placement : Prop :=
  WaitingOrder ∧ WalksInOrder ∧ GangGoes
  ∧ (∀ (s : State) (g : Grid) (n c e : Nat) (seats : List Seat) (leaders : List Nat) (seat : Seat), seats[e]? = some seat →
      bitsOf (teamCfg g.rec_) 0 3 ≤ 5 →
      let t := placeGang s g n c seats leaders
      ∃ u, t.others[s.others.length + e]? = some u ∧ Fresh u g.rec_ g.next ∧ u.pl.core = seat.core ∧ u.pl.group = seat.group
        ∧ u.pl.slot = seat.slot ∧ u.pl.grid = g.id ∧ u.pl.gang = g.next ∧ u.pl.team = e ∧ u.pl.gangsz = n ∧ u.pl.role = roleAt g.rec_ e
        ∧ u.pl.prio = g.prio ∧ u.pl.depth = g.depth ∧ u.pl.asid = g.asid ∧ u.pl.priv = g.priv ∧ unhomed t.team = unhomed s.team ∧ t.ms = s.ms
        ∧ ∃ x, t.gangs = s.gangs ++ [x] ∧ x.grid = g.id ∧ x.idx = g.next ∧ x.cluster = c ∧ x.size = n ∧ x.live = n ∧ x.arrived = 0
          ∧ x.scratchLen = 1024 * recScratch g.rec_ ∧ x.scratch = [])
  ∧ (∀ (s : State) (grid gang : Nat) (g : Grid), s.gridOf grid = some g →
      let due := g.next = gang ∧ gang < g.size ∧ 2 ^ 20 ≤ (s.cycle - g.since).toNat ∧ s.sched.waited.contains (grid, gang) = false
      (due → exec (.gangWaitLimit grid gang) s = .next { s with sched := { s.sched with waited := (grid, gang) :: s.sched.waited } })
      ∧ (¬due → exec (.gangWaitLimit grid gang) s = .next s))
  ∧ (∀ (s : State), (∀ u ∈ s.others, ∀ n sc, u.wait ≠ .barrier n sc) → Invariant s →
      let b := s.withTeam (beginPublish s.team)
      (mayEnd s s.team = true → entryBad b = none → pubLost b 2 = none → overSpace s.mgmt.map s.ms (purge (publish b 2)).ms = none →
        Answers (.taskEnd s.team.uid) s fun t => t.team.stage = .ended ∧ t.team.uid = s.team.uid
        ∧ t.team.ver.wside = [] ∧ t.team.ver.pub = []
        ∧ (Coherent s.ms → ∀ k a, isRaw a = false → KeyHeld s.ms k a → KeyHeld t.ms k a →
            (∀ c ∈ goingOut b 2, c.1 / 64 = a / 64 → (insIn s.team.ver.ins (a / 64)).key = k) →
            commByteK t.ms k a = (lastAt (goingOut b 2) a).getD (commByteK s.ms k a))
        ∧ ∀ c ∈ t.locus, c.uid ≠ s.team.uid)
      ∧ (mayEnd s s.team = false → exec (.taskEnd s.team.uid) s = .next s))
  ∧ (∀ (s : State) (id : Nat) (g : Grid), s.gridOf id = some g → g.from_ ≠ .waves →
      (gridLive s g = true → exec (.gridRetire id) s = .next s)
      ∧ (gridLive s g = false → Answers (.gridRetire id) s fun t => t.gridOf id = none ∧ t.ms = s.ms
        ∧ (∀ u ∈ t.others, u.kind = .core → u.pl.grid ≠ id) ∧ (∀ x ∈ t.gangs, x.grid ≠ id)
        ∧ (∀ uid p u, g.from_ = .team uid p → u ∈ t.others → u.uid = uid → id ∉ u.children)
        ∧ ∀ n k h, g.from_ = .node n k → NodeIs s n k h (nodeState h k) →
          NodeNow s t n k h (.retired g.fatal)))

/-- R49 and R299: a continuation that is queued goes to its home cluster when it is gang-bound; else, where x0 translates to HBM, to the cluster
nearest to that address's home slice, and otherwise to the one its bits name. -/
def Sys2Proof.RoutesContinuations : Prop :=
  ∀ (s : State) (t : Team), let va := spair t 0
    let far := (va.toNat >>> 12 ^^^ va.toNat >>> 24) % 24
    let leaf := leafOf s t.pl.core t.pl.asid va.toNat
    (t.pl.gangBound = true → Machine.targetOf s t = clusterOf t.pl.core)
    ∧ (t.pl.gangBound = false →
      (∀ l, canonical va = true → leaf = .ok l → isHbm (l.pa va.toNat) = true → let slice := channelOf s.mgmt.map (l.pa va.toNat)
        Machine.targetOf s t = 12 * (slice / 128) + slice % 128 * 12 / 128)
      ∧ ((canonical va = false ∨ ∀ l, leaf = .ok l → isHbm (l.pa va.toNat) = false) → Machine.targetOf s t = far))

/-- R47 to R53, R43, R70, R299, R304, R406 and R437: a parked team becomes a continuation that keeps its vectors, predicates and s0 to s7
and takes a pool entry; its wake queues it behind those of its priority, for the cluster it is routed to then; the first of its cluster's queue
resumes on a seat, its registers read back from the record (log 47); after the time limit any cluster may take it. A future
that is resolved lets its team go on, one that is refused leaves it a pending trap. Boosts, yields and spaces act when they are
due. The order among equals is log 51, futures are read as committed bytes (log 88), CONT_ID is the next count (log 4), and an ill-formed
record ends the grid (log 91). -/
def Obligations.Continuations : Prop :=
  (∀ (s : State) (reason k : Nat) (detail : Word), parkReason s.team = some (reason, detail) → freePool s = some k → convertible s.team = true →
      (∀ u ∈ s.others, u.uid ≠ s.team.uid) → Answers (.continuationConvert s.team.uid) s fun t =>
        t.team.stage = .cont k none ∧ t.team.wait = s.team.wait ∧ t.team.rf.v = s.team.rf.v ∧ t.team.rf.p = s.team.rf.p
        ∧ t.team.rf.fr = s.team.rf.fr ∧ t.team.rf.fs = s.team.rf.fs
        ∧ (Shaped s.team → (∀ q, q < 8 → sget t.team q = sget s.team q) ∧ ∀ q, 8 ≤ q → sget t.team q = 0)
        ∧ (reason ≠ 3 → t.team.ctl.pc = resumePc s.team)
        ∧ (reason = 3 → s.team.passed = none → s.team.ctl.loops = [] → t.team.ctl.pc = nextPc s)
        ∧ (reason ≠ 3 ∨ s.team.ctl.loops = [] → t.team.ctl.mask = s.team.ctl.mask ∧ t.team.ctl.stack = s.team.ctl.stack
          ∧ t.team.ctl.loops = s.team.ctl.loops ∧ t.team.rf.lc = s.team.rf.lc)
        ∧ t.team.ctl.hints = none ∧ t.team.ctl.buffer = [] ∧ t.team.sp.tdl = 0 ∧ t.team.sp.step = 0 ∧ t.team.sp.phase = s.team.sp.phase
        ∧ t.sched.poolUsed = k :: s.sched.poolUsed
        ∧ t.team.cont = (if reason = 1 then s.team.cont else BitVec.ofNat 32 s.sched.nextCont))
  ∧ RoutesContinuations
  ∧ (∀ (s : State) (cont k : Nat) (t : Team) (q : Queued), findCont s cont = some t → t.stage = .cont k (some q) →
      (∀ seat, (q.anywhere = false → ∀ u ∈ s.teams, ∀ j p, u.stage = .cont j (some p) → p.target = q.target →
            u.pl.prio < t.pl.prio ∨ (u.pl.prio = t.pl.prio ∧ q.place ≤ p.place)) →
        (resumeClusters s t q.target q.anywhere).findSome? (fun c => fitTeam s (residents s) t c) = some seat →
        exec (.continuationResume cont) s = .next (enterRecord (seatTeam { s with sched := { s.sched with
          poolUsed := s.sched.poolUsed.filter fun x => x != k } } t.uid seat) t.uid (fun u => loadRecord s u k) (BitVec.ofNat 64 (poolPa s k))))
      ∧ ((q.anywhere = false ∧ ∃ u ∈ s.teams, ∃ j p, u.stage = .cont j (some p) ∧ p.target = q.target
            ∧ (t.pl.prio < u.pl.prio ∨ (u.pl.prio = t.pl.prio ∧ p.place < q.place))) → exec (.continuationResume cont) s = .next s)
      ∧ ((65536 ≤ (s.cycle - q.since).toNat ∧ t.pl.gangBound = false) → exec (.continuationTargetTimeout cont) s =
          .next (s.modTeam t.uid fun t => { t with stage := .cont k (some { q with anywhere := true }) }))
      ∧ (¬(65536 ≤ (s.cycle - q.since).toNat ∧ t.pl.gangBound = false) → exec (.continuationTargetTimeout cont) s = .next s))
  ∧ (∀ (s : State) (t : Team) (k : Nat) (r : Saved),
      readSaved (commBytes s.ms (poolPa s k) (0xA00 + 4 * t.rf.n * t.rf.nv)) false = some r → r.n = t.rf.n → r.nv = t.rf.nv →
      ∃ u, loadRecord s t k = some u ∧ u.rf.v = r.v ∧ u.rf.s = r.s ∧ u.rf.p = r.p ∧ u.rf.lc = r.lc ∧ u.rf.fr = r.fr ∧ u.rf.fs = t.rf.fs ∧ u.ctl.pc = r.pc ∧ u.ctl.mask = r.mask
        ∧ u.ctl.stack = r.stack ∧ u.ctl.loops = r.loops ∧ u.sp.phase = r.phase ∧ u.sp.vid = r.vid)
  ∧ (∀ (s : State) (load : Team → Option Team) (va : DWord),
      (∀ u, load s.team = some u → u.uid = s.team.uid → enterRecord s s.team.uid load va = s.withTeam (settleLate u))
      ∧ (load s.team = none → enterRecord s s.team.uid load va = (fatalTrap s (trap12 s.team 4 va) s.team.ctl.pc).focus s.team.uid))
  ∧ (∀ (s : State) (seat : Seat), let t := seatTeam s s.team.uid seat
      t.team.stage = .resident ∧ t.team.pl = { s.team.pl with core := seat.core, group := seat.group, slot := seat.slot, placed := s.cycle }
        ∧ t.team.rf = s.team.rf ∧ t.team.ctl = s.team.ctl ∧ t.team.sp = s.team.sp ∧ t.team.ver = s.team.ver ∧ t.team.eng = s.team.eng
        ∧ t.team.wait = s.team.wait ∧ t.ms = s.ms ∧ t.team.book.readyCount = s.team.book.readyCount ∧ t.team.book.boosted = s.team.book.boosted)
  ∧ (∀ (s : State) (va : DWord) (pa : Nat) (refused : Trap) (k : Nat), s.team.wait = .fault va pa refused → s.team.stage = .cont k none →
      2 ≤ (commByteK s.ms (keyOf s s.team.pl.core s.team.pl.asid va) pa).toNat % 4 → Answers (.futureWake s.team.uid) s fun t =>
        t.team.wait = .ready ∧ (∃ q, t.team.stage = .cont k (some q) ∧ q.since = s.cycle ∧ q.place = s.sched.nextPlace ∧ q.anywhere = false)
        ∧ t.sched.nextPlace = s.sched.nextPlace + 1)
  ∧ (∀ (s : State) (va : DWord) (pa : Nat) (refused : Trap), s.team.wait = .fault va pa refused → s.team.stage = .resident →
      let key := keyOf s s.team.pl.core s.team.pl.asid va
      let b := (commByteK s.ms key pa).toNat % 4
      (b < 2 → exec (.futureWake s.team.uid) s = .next s)
      ∧ (2 ≤ b → Answers (.futureWake s.team.uid) s fun t => t.team.wait = .ready ∧ t.team.rf = s.team.rf
        ∧ t.team.ctl = { s.team.ctl with buffer := [] } ∧ t.team.pending = (if b = 3 then s.team.pending ++ [refused] else s.team.pending)
        ∧ (Coherent s.ms → isRaw pa = false → KeyHeld s.ms key pa → commByteK t.ms key pa = commByteK s.ms key pa &&& 0xFC
          ∧ ∀ k a, isRaw a = false → KeyHeld s.ms k a → KeyHeld t.ms k a → a ≠ pa → (a / 64 = pa / 64 → k = key) →
            commByteK t.ms k a = commByteK s.ms k a)))
  ∧ (∀ (s : State), (∀ u ∈ s.others, u.uid ≠ s.team.uid) →
      let set := fun (book : IssueBook) => (.next { s with team := { s.team with book := book } } : Host.Outcome State Fault Refusal)
      let b := s.team.book
      exec (.priorityBoost s.team.uid) s = (if 4096 ≤ b.readyCount then set { b with boosted := true } else .next s)
      ∧ (yieldOver s s.team = false → exec (.yieldTimeout s.team.uid) s = .next s)
      ∧ exec (.hschedSpaceExpiry s.team.uid) s = (if b.spaceUntil ≤ s.arith then set { b with spaceUntil := 0 } else .next s))

/-! ### The host -/

/-- A write of a register that has no event of its own: ignored while it is locked, refused and logged where it sets a reserved bit or a
value outside its range, and otherwise read back as `keep` says; no other register changes (R415, R438). -/
def Sys2Proof.Register (off : Nat) (lock : State → Bool) (bad : Nat → Prop) (keep : State → DWord → DWord) : Prop :=
  ∀ (s : State) (v : DWord), s.host.pwin.length = 256 → lostLink s = none →
    (lock s = true → exec (.registerWrite off v) s = .next s)
    ∧ (lock s = false → bad v.toNat → exec (.registerWrite off v) s = .next (refuseWrite s 0 off v))
    ∧ (lock s = false → ¬bad v.toNat → Answers (.registerWrite off v) s fun t => readReg t off = keep s v
        ∧ (∀ x, x ≠ off → readReg t x = readReg s x) ∧ t.team = s.team ∧ t.others = s.others ∧ t.ms = s.ms ∧ t.gangs = s.gangs)

/-- A size code outside its range, 0 meaning none (R438). -/
abbrev Sys2Proof.OddSize (n lo hi : Nat) : Prop := n ≠ 0 ∧ (n < lo ∨ hi < n)

/-- A pool register, which also logs a pool outside its memory (R333). -/
def Sys2Proof.PoolRegister (off : Nat) (hbm : Bool) (old : State → DWord) : Prop :=
  ∀ (s : State) (v : DWord), lostLink s = none → (otherGridLive s = true → exec (.registerWrite off v) s = .next s)
    ∧ (otherGridLive s = false → Answers (.registerWrite off v) s fun t => readReg t off = v
        ∧ (poolAstray v hbm = false → (∀ x, x ≠ off → readReg t x = readReg s x) ∧ t.ms = s.ms)
        ∧ (poolAstray v hbm = true → t.host = (refuseWrite s 0 off v).host ∧ t.ms = (refuseWrite s 0 off v).ms)
        ∧ (∀ x, x ≠ off → x = 0x50008 ∨ x = 0x50010 → readReg t x = readReg s x) ∧ t.team = s.team ∧ t.others = s.others)
    ∧ readReg s off = old s

/-- L2CFG (R332, R333): FARWAYS 7 leaves that field; a change of it writes lines back, which changes no committed byte. -/
def Sys2Proof.L2Register : Prop :=
  ∀ (s : State) (v : DWord), lostLink s = none →
    let bad := v.toNat / 2 ^ 17 ≠ 0 ∨ v.toNat / 8 % 32 ≠ 0 ∨ 256 < v.toNat / 256 % 512
    (otherGridLive s = true → exec (.registerWrite 0x50000 v) s = .next s)
    ∧ (otherGridLive s = false → bad → exec (.registerWrite 0x50000 v) s = .next (refuseWrite s 0 0x50000 v))
    ∧ (otherGridLive s = false → ¬bad → Answers (.registerWrite 0x50000 v) s fun t =>
        readReg t 0x50000 = (if v.toNat % 8 = 7 then BitVec.ofNat 64 (v.toNat / 256 * 256 + s.res.l2cfg.toNat % 8) else v)
        ∧ t = { s with ms := t.ms, res := { s.res with l2cfg := t.res.l2cfg } }
        ∧ (Coherent s.ms → ∀ k a, isRaw a = false → KeyHeld s.ms k a → KeyHeld t.ms k a → commByteK t.ms k a = commByteK s.ms k a))

/-- The offsets of R251, R274, R333, R388, R417, R418, R421, R428 and R429. -/
def Sys2Proof.assigned (off : Nat) : Bool :=
  off % 8 == 0 && (off == 0 || (decide (0x40000 ≤ off ∧ off ≤ 0x40028)) || (decide (0x40800 ≤ off ∧ off < 0x41000))
    || (decide (0x50000 ≤ off ∧ off ≤ 0x50010)) || (decide (0x60000 ≤ off ∧ off ≤ 0x60070)) || (decide (0x61000 ≤ off ∧ off < 0x62980))
    || (decide (0x70000 ≤ off ∧ off ≤ 0x70010)) || (decide (0x80000 ≤ off ∧ off ≤ 0x80030)) || (decide (0x90000 ≤ off ∧ off ≤ 0x90010))
    || (decide (0x98000 ≤ off ∧ off < 0x98800)) || (decide (0xA0000 ≤ off ∧ off ≤ 0xA0018)))

/-- The registers a host write leaves alone without a log entry: those the host only reads (R8), and, by the model's reading, MBXREQ,
whose requests are events of their own (log entry 76). -/
def Sys2Proof.hostReadOnly (off : Nat) : Bool :=
  off % 8 == 0 && ([0, 0x40018, 0x60030, 0x60048, 0x60058, 0x60060, 0x60068, 0x80010, 0x80020, 0x80028, 0xA0000, 0xA0008, 0xA0018].contains off
    || (decide (0x40800 ≤ off ∧ off < 0x41000)) || (decide (0x61000 ≤ off ∧ off < 0x62980)))

/-- R8, R251, R274, R333, R388, R397, R414, R415, R417, R418, R421, R429 and R438: what a host write does at every offset of the aperture; over a
link that cannot deliver it has no effect and receives an error response. By the model's reading a read-only register's writes are not logged, a
lock beats a refusal and TRAPDLV keeps only the groups that exist (log 77), the scheduler's refused writes name it as their SOURCE and other
writes name 0 (log 65), EN without a size is refused (log 74), MBXREQ's requests are events of their own (log 76), and FIRSTERR1 clears bit by
bit where VALID is written 0 (log 92). -/
def Obligations.HostRegisters : Prop :=
  let free : State → Bool := fun _ => false
  let id : State → DWord → DWord := fun _ v => v
  Register 0x40000 free (fun x => x % 256 ≠ 0) id
  ∧ Register 0x40020 otherGridLive (fun _ => False) id
  ∧ Register 0x40028 otherGridLive (fun x => x / 2 ^ 15 % 32 ≠ 0) id
  ∧ L2Register
  ∧ PoolRegister 0x50008 false (fun s => s.res.hrpool0) ∧ PoolRegister 0x50010 true (fun s => s.res.hrpool1)
  ∧ Register 0x60000 otherGridLive (fun x => x / 2 % 2 ≠ 0) id
  ∧ Register 0x60008 otherGridLive (fun _ => False) (fun _ v => v &&& 0x5FFFE)
  ∧ Register 0x60010 otherGridLive (fun x => x / 2 ^ 14 % 128 ≠ 0) id
  ∧ Register 0x60018 otherGridLive (fun x => x % 2 ^ 21 ≠ 0) id
  ∧ Register 0x60020 otherGridLive (fun x => x % 2 ^ 21 ≠ 0) id
  ∧ Register 0x60028 otherGridLive (fun x => x / 32 % 128 ≠ 0 ∨ OddSize (x % 32) 6 16) id
  ∧ Register 0x60040 otherGridLive (fun x => x / 32 % 128 ≠ 0 ∨ OddSize (x % 32) 6 20) id
  ∧ Register 0x60050 free (fun _ => False) id
  ∧ Register 0x70008 vxOn (fun x => x % 256 ≠ 0) id
  ∧ Register 0x70010 vxOn (fun x => x / 2 ^ 16 ≠ 0) id
  ∧ Register 0x80000 otherGridLive (fun x => x / 32 % 128 ≠ 0 ∨ OddSize (x % 32) 4 12) id
  ∧ Register 0x80008 otherGridLive (fun x => x / 32 % 128 ≠ 0 ∨ OddSize (x % 32) 10 20) id
  ∧ Register 0x90000 (fun s => !s.host.openStreams.isEmpty) (fun x => x / 256 % 16 ≠ 0 ∨ x / 2 % 8 ≠ 0 ∨ OddSize (x / 16 % 16) 6 15
      ∨ (x % 2 = 1 ∧ x / 16 % 16 = 0)) id
  ∧ Register 0xA0010 free (fun x => x < 600 ∨ 1800 < x) id
  ∧ (∀ w, w < 256 → Register (0x98000 + 8 * w) free (fun x => x / 2 ^ 10 % 2 ^ 53 ≠ 0) id)
  ∧ (∀ (s : State) (v : DWord), lostLink s = none →
      (bitsOf v.toNat 48 15 = 0 → v.getLsbD 63 = true → Answers (.firsterrClear v) s fun t => readReg t 0x60068 = 0 ∧ readReg t 0x60070 = 0
        ∧ t = { s with host := { s.host with firsterr0 := t.host.firsterr0, firsterr1 := t.host.firsterr1 } })
      ∧ (bitsOf v.toNat 48 15 = 0 → v.getLsbD 63 = false → Answers (.firsterrClear v) s fun t =>
          (∀ i, i < 64 → (readReg t 0x60070).getLsbD i = ((readReg s 0x60070).getLsbD i && !v.getLsbD i))
          ∧ t = { s with host := { s.host with firsterr1 := t.host.firsterr1 } })
      ∧ (bitsOf v.toNat 48 15 ≠ 0 → exec (.firsterrClear v) s = .next (refuseWrite s 0 0x60070 v))
      ∧ (Answers (.fqtailWrite v) s fun t => readReg t 0x60038 = v ∧ t = { s with host := { s.host with fqtail := t.host.fqtail } })
      ∧ (Answers (.srtailWrite v) s fun t => readReg t 0x80018 = v ∧ t = { s with host := { s.host with srtail := t.host.srtail } }))
  ∧ (∀ (s : State) (v : DWord) (off : Nat) (i : Instr), (lostLink s).isSome = true →
      i ∈ [.registerWrite off v, .graphUpload v, .graphRemove v, .trigger v, .vxcfgEnable v, .vxcfgDisable v, .firsterrClear v, .fqtailWrite v,
        .srtailWrite v, .srcomp v, .svcmdOpen v, .svcmdClose v, .svdrain v] → exec i s = .next { s with host := { s.host with answer := [] } })
  ∧ (∀ (s : State) (v : DWord) (off : Nat), lostLink s = none → let w := exec (.registerWrite off v) s
      (off = 0x40008 → bitsOf v.toNat 10 2 = 1 → w = exec (.graphUpload v) s)
      ∧ (off = 0x40008 → bitsOf v.toNat 10 2 = 2 → w = exec (.graphRemove v) s)
      ∧ (off = 0x40008 → bitsOf v.toNat 10 2 % 3 = 0 → w = .next (refuseWrite s schedSource off v))
      ∧ (off = 0x40010 → w = exec (.trigger v) s) ∧ (off = 0x60038 → w = exec (.fqtailWrite v) s)
      ∧ (off = 0x60070 → w = exec (.firsterrClear v) s) ∧ (off = 0x70000 → w = exec (.vxcfgDisable v) s)
      ∧ (off = 0x80018 → w = exec (.srtailWrite v) s) ∧ (off = 0x80030 → w = exec (.srcomp v) s)
      ∧ (off = 0x90008 → w = exec (.svcmdOpen v) s) ∧ (off = 0x90010 → w = exec (.svdrain v) s)
      ∧ (hostReadOnly off = true → w = .next s)
      ∧ (assigned off = false → w = .next (refuseWrite s 0 off v) ∧ readReg s off = 0))

/-- Bytes of the host or of a peer are in committed memory, and every other committed byte is as it was (R215, R416). -/
def Sys2Proof.HostStored (s t : State) (cells : List Host.Cell) : Prop :=
  Coherent s.ms → ∀ k a, isRaw a = false → KeyHeld s.ms k a → KeyHeld t.ms k a → ((∃ c ∈ cells, c.1 / 64 = a / 64) → k = 0) →
    commByteK t.ms k a = (lastAt cells a).getD (commByteK s.ms k a)

/-- R9, R251, R335, R414, R416, R417 and R422: VXCFG enables the vertex region only with a well-formed size, a valid address space and a
privileged record with N 32, V 64, no reserved bit, rounding mode or role, and then places a wave in each cluster; disabling it ends the waves of the homes
that have finished. The host's window reads committed bytes, but a gang control block's error records, and writes at once; a write into
a live sieve is refused with an error response, and over a link that cannot deliver reads and writes get one. Handles of address spaces
that a write ends are freed. A peer's bytes are written the same way. The window reads a page as one without a key (log 94). How the waves are enabled and ended is logs 36 and 37, that a
range is read as a whole and a sieve write refused as a whole log 78, when the link cannot deliver log 84, and that the same event writes the
host's own memory log 104. -/
def Obligations.HostAccesses : Prop :=
  (∀ (s : State) (v : DWord), lostLink s = none →
      let x := v.toNat
      let odd := bitsOf x 57 7 ≠ 0 ∨ bitsOf x 23 7 ≠ 0 ∨ bitsOf x 1 15 ≠ 0
      let size := bitsOf x 16 7
      let no := exec (.vxcfgEnable v) s = .next (refuseWrite s 0 0x70000 v)
      (odd → no)
      ∧ (¬odd → vxOn s = true → v.getLsbD 0 = true → exec (.vxcfgEnable v) s = .next s)
      ∧ (¬odd → vxOn s = false → v.getLsbD 0 = false → exec (.vxcfgEnable v) s = .next { s with vx := { s.vx with cfg := v } })
      ∧ (vxOn s = false → v.getLsbD 0 = true → (size = 0 ∨ 64 < size ∨ wavesLive s = true ∨ gridRoom s = false) → no)
      ∧ ∀ q rec, waveRecord s = (q, rec) → vxOn s = false → v.getLsbD 0 = true → ¬odd → 1 ≤ size → size ≤ 64 → wavesLive s = false →
        gridRoom s = true →
        (rec = none → exec (.vxcfgEnable v) s = .next (refuseWrite q 0 0x70000 v))
        ∧ ∀ r, rec = some r →
          (waveRecordOk r = true → recPriv r = true ∧ recLanes r = 32 ∧ recRegs r = 64 ∧ recReserved r = false
            ∧ bitsOf (teamCfg r) 17 3 ≤ 4 ∧ ∀ e, e < 64 → roleAt r e ≠ 3)
          ∧ (waveRecordOk r = false → exec (.vxcfgEnable v) s = .next (refuseWrite q 0 0x70000 v))
          ∧ (waveRecordOk r = true → (∀ g ∈ s.sched.grids, g.id ≠ s.sched.nextGrid) → Answers (.vxcfgEnable v) s fun t =>
            readReg t 0x70000 = v ∧ (∀ h ∈ t.vx.homes, h.stopped = false) ∧ t.team = s.team ∧ t.ms = q.ms
            ∧ ∀ c, c < 24 → ∃ u ∈ t.others, u.kind = .wave ∧ u.uid = s.sched.nextUid + c ∧ Fresh u r c ∧ u.pl.core = (waveSeat s c).1
              ∧ u.pl.group = 0 ∧ u.pl.slot = (waveSeat s c).2 ∧ u.pl.prio = 15 ∧ u.pl.priv = true
              ∧ u.pl.asid = bitsOf s.vx.asid.toNat 0 16))
  ∧ (∀ (s : State) (v : DWord), lostLink s = none → vxOn s = true → v.getLsbD 0 = false → bitsOf v.toNat 57 7 = 0 → bitsOf v.toNat 23 7 = 0 →
      bitsOf v.toNat 1 15 = 0 →
      let leaving := fun (u : Team) => u.kind = .wave ∧ homeIdle s (clusterOf u.pl.core) = true
      (exec (.vxcfgEnable v) s = .next { s with vx := { s.vx with cfg := s.vx.cfg &&& ~~~1 } })
      ∧ Answers (.vxcfgDisable v) s fun t => vxOn t = false ∧ readReg t 0x70000 = s.vx.cfg &&& ~~~1 ∧ t.ms = s.ms
        ∧ t.vx.homes = s.vx.homes ∧ t.vx.travelling = s.vx.travelling ∧ (leaving s.team → t.team = Team.absent) ∧ (¬leaving s.team → t.team = s.team)
        ∧ (∀ u, u ∈ t.others ↔ u ∈ s.others ∧ ¬leaving u)
        ∧ ((∃ u ∈ s.teams, u.kind = .wave ∧ ¬leaving u) → t.sched.grids = s.sched.grids)
        ∧ ((∀ u ∈ s.teams, u.kind = .wave → leaving u) → ∀ g, g ∈ t.sched.grids ↔ g ∈ s.sched.grids ∧ g.from_ ≠ .waves))
  ∧ (∀ (s : State) (addr n : Nat),
      (n = 0 ∨ isHbm addr = false ∨ isHbm (addr + n - 1) = false → exec (.hostWindowRead addr n) s = .next s)
      ∧ (0 < n → isHbm addr = true → isHbm (addr + n - 1) = true →
        ((lostLink s).isSome = true → exec (.hostWindowRead addr n) s = .next { s with host := { s.host with answer := [] } })
        ∧ (lostLink s = none → s.ms.ecc = [] → Answers (.hostWindowRead addr n) s fun t => t = { s with host := { s.host with answer := t.host.answer } }
          ∧ t.host.answer.length = n
          ∧ ∀ i, i < n → t.host.answer.getD i 0 = (blockByte s (addr + i)).getD (commByte s.ms (addr + i)))
        ∧ (∀ pa, lostLink s = none → badGranule s.ms (granulesAt s.ms addr n) = some pa → Answers (.hostWindowRead addr n) s fun t =>
            t.host.answer = [] ∧ t.team = s.team ∧ t.others = s.others
            ∧ t = { eccReport (correctGranules s (granulesAt s.ms addr n)) pa with host := t.host })))
  ∧ (∀ (s : State) (addr : Nat) (bytes : List Byte), let cells := cellsAt addr bytes
      ((∀ c ∈ cells, isHost c.1 = true) → Answers (.hostWindowWrite addr bytes) s fun t => HostStored s t cells ∧ t = { s with ms := t.ms })
      ∧ ((∃ c ∈ cells, isHbm c.1 = false) → (∃ c ∈ cells, isHost c.1 = false) → exec (.hostWindowWrite addr bytes) s = .next s)
      ∧ (bytes ≠ [] → (∀ c ∈ cells, isHbm c.1 = true) → (lostLink s).isSome = true →
          exec (.hostWindowWrite addr bytes) s = .next { s with host := { s.host with answer := [] } })
      ∧ ((∀ c ∈ cells, isHbm c.1 = true) → lostLink s = none → (∃ c ∈ cells, inSieve s c.1 = true) → exec (.hostWindowWrite addr bytes) s =
          .next (refuseWrite { s with host := { s.host with answer := [] } } 0 addr (BitVec.ofNat 64 (ofLeBytes (bytes.take 8)))))
      ∧ (bytes ≠ [] → (∀ c ∈ cells, isHbm c.1 = true ∧ inSieve s c.1 = false) → lostLink s = none → Answers (.hostWindowWrite addr bytes) s fun t =>
          let gone := fun (h : Handle) => (spaceOf s h.asid).isSome = true ∧ (spaceOf (immediate s cells) h.asid).isNone = true
          (∀ h, h ∈ t.res.handles ↔ h ∈ s.res.handles ∧ ¬gone h)
          ∧ ((∀ h ∈ s.res.handles, gone h → h.ops = []) → HostStored s t cells ∧ t = { s with ms := t.ms, res := t.res }))
      ∧ ∀ peer, ((1023 < peer ∨ ∃ c ∈ cells, isHbm c.1 = false) → exec (.peerWrite peer addr bytes) s = .next s)
        ∧ (peer ≤ 1023 → (∀ c ∈ cells, isHbm c.1 = true) → Answers (.peerWrite peer addr bytes) s fun t =>
            HostStored s t cells ∧ t = { s with ms := t.ms }))

/-! ### The management controller -/

/-- A request over a link that cannot deliver receives an error response (R414); otherwise it is answered: MBXRSP counts it, the controller's state is `m` otherwise, and the response takes only the bytes of the
request's buffer (R429). -/
def Sys2Proof.Responds (i : Instr) (s : State) (buf : DWord) (m : Mgmt) : Prop :=
  ((lostLink s).isSome = true → exec i s = .next { s with host := { s.host with answer := [] } })
    ∧ (lostLink s = none → Answers i s fun t => t.mgmt = { m with mbxrsp := s.mgmt.mbxrsp + 1 }
      ∧ t = { s with ms := t.ms, free := t.free, mgmt := t.mgmt }
      ∧ (Invariant s → ∀ k a, isRaw a = false → (a < hostPa buf.toNat ∨ hostPa buf.toNat + 4096 ≤ a) → commByteK t.ms k a = commByteK s.ms k a))

/-- An SPDM request moves the responder where the protocol allows it, and is answered in any case (R430). -/
def Sys2Proof.Negotiates (i : DWord → Instr) (ok : Spdm → Prop) (move : Spdm → Spdm) : Prop :=
  ∀ (s : State) (buf : DWord), (ok s.mgmt.spdm → Responds (i buf) s buf { s.mgmt with spdm := move s.mgmt.spdm })
    ∧ (¬ok s.mgmt.spdm → Responds (i buf) s buf s.mgmt)

/-- R2, R3 and R429 to R431: the mailbox. Measurements report the firmware, the part's identity with the step that start stopped at, and
the configuration records in use. A key index is installed only inside a secured session whose measurements 3 to 6 were sent, if the
key policy lists it. The order in which the protocol allows its requests is the model's reading of SPDM 1.3 (log entry 75). -/
def Obligations.Mailbox : Prop :=
  Negotiates .getVersion (fun _ => True) (fun _ => ⟨true, false, false, false, false, []⟩)
  ∧ Negotiates .getCapabilities (fun p => p.version = true) (fun p => { p with caps := true })
  ∧ Negotiates .negotiateAlgorithms (fun p => p.caps = true) (fun p => { p with algs := true })
  ∧ Negotiates .getDigests (fun p => p.algs = true) (fun p => p)
  ∧ Negotiates .getCertificate (fun p => p.algs = true) (fun p => p)
  ∧ Negotiates .challenge (fun p => p.algs = true ∧ p.secured = false) (fun p => p)
  ∧ (∀ (s : State) (buf : DWord) (js : List Nat), let p := s.mgmt.spdm
      let ok := p.algs = true ∧ ∀ j ∈ js, 1 ≤ j ∧ j ≤ 6
      (ok → Responds (.getMeasurements buf js) s buf { s.mgmt with
        spdm := if p.secured then { p with measured := p.measured ++ js.filter fun j => !p.measured.contains j } else p,
        report := js.map (measureOf s.mgmt) })
      ∧ (¬ok → Responds (.getMeasurements buf js) s buf s.mgmt))
  ∧ (∀ m : Mgmt, measureOf m 1 = .firmware ∧ measureOf m 2 = .identity 0x4D5800000000B100 m.startStopped
      ∧ ∀ i, 3 ≤ i → measureOf m i = .record (m.recordOf i))
  ∧ Negotiates .keyExchange (fun p => p.algs = true) (fun p => { p with exchanged := true, secured := false, measured := [] })
  ∧ Negotiates .finish (fun p => p.exchanged = true ∧ p.secured = false) (fun p => { p with secured := true })
  ∧ Negotiates .endSession (fun p => p.secured = true) (fun p => { p with exchanged := false, secured := false, measured := [] })
  ∧ (∀ (s : State) (buf : DWord), Responds (.startLogRead buf) s buf s.mgmt)
  ∧ (∀ (s : State) (buf : DWord) (key : Nat), ∃ keys, Responds (.memoryKeyInstall buf key) s buf { s.mgmt with keys := keys }
      ∧ ∀ k, k ∈ keys ↔ k ∈ s.mgmt.keys ∨ (k = key ∧ s.mgmt.spdm.secured = true ∧ 3 ∈ s.mgmt.spdm.measured ∧ 4 ∈ s.mgmt.spdm.measured
        ∧ 5 ∈ s.mgmt.spdm.measured ∧ 6 ∈ s.mgmt.spdm.measured ∧ 1 ≤ key ∧ key ≤ 15
        ∧ Config.keyListed (s.mgmt.recordOf 6).words key = true))

/-- A step of start that its failures make start skip (R432). -/
def Sys2Proof.skipped (x : StartStep) : Bool := x.fails != 0 && x.alt == 0 && x.skip

/-- A step that start runs, itself or through its alternative (R432). -/
def Sys2Proof.startRuns (x : StartStep) : Bool := x.fails == 0 || x.alt != 0

/-- Start from step records that are all run or skipped, in which no run fails. -/
abbrev Sys2Proof.wellStarted (pre : List StartStep) : Prop := ∀ x ∈ pre, startRuns x = true ∨ skipped x = true

/-- What a start takes for a kind of configuration record (R433): one offered whose signature verifies and that is well formed, else the
last verified one, else none. -/
def Sys2Proof.TakesRecord : Prop :=
  ∀ (m : Mgmt) (kind : Nat), let good := fun (r : ConfigRec) => r ∈ m.offered ∧ r.kind = kind ∧ Config.signed kind r.words = true ∧ recordOk r = true
    (∀ r, takeRecord m kind = some (r, false) → good r)
    ∧ (∀ r, takeRecord m kind = some (r, true) → r ∈ m.records ∧ r.kind = kind ∧ recordOk r = true ∧ ∀ x, ¬good x)
    ∧ (takeRecord m kind = none → (∀ x, ¬good x) ∧ ∀ r ∈ m.records, r.kind = kind → recordOk r = false)

/-- A bank and the channel's spare have changed places, and spare rows of the bank, the spare now, are in use for some bad rows (R327). -/
def Sys2Proof.Swapped (m n : Mgmt) (channel bank : Nat) (rows : List (Nat × Nat)) : Prop :=
  let b := m.bankMap channel
  let c := n.bankMap channel
  let at_ := fun (x : BankMap) (k : Nat) => x.banks.getD k 0
  (b.banks.length = 33 → at_ c bank = at_ b 32 ∧ at_ c 32 = at_ b bank ∧ ∀ k, k < 32 → k ≠ bank → at_ c k = at_ b k)
    ∧ c.used = b.used ++ rows.map (fun r => (at_ b bank, r.1)) ∧ ∀ other, other ≠ channel → n.bankMap other = m.bankMap other

/-- R3, R13, R312, R327, R328, R414 and R432 to R434: start verifies its configuration records, takes the last verified one for one that fails
and notes it, and stops where there is none; then it runs its steps, skips or stops at those that failed, and leaves the part at reset
with memory beyond the links kept; a part with a fenced core stops at the step that enables its cores. A core that fails takes a spare,
or, with none left, is fenced: its teams leave it, and the cluster's vertex wave moves to a core that is not fenced. The clock goes
down in steps of 100 MHz to 1,000; above the cap the hold keeps gangs out. A bank whose bad rows still find spare rows, 64 in a
sub-channel, is repaired row by row, a worse one retired; whichever it is, bank and spare change places. Which step a record belongs to is
free, and the step records at first are the model's choice (log 96). That failed steps stay and memory is lost is log 80, how teams and the
wave leave a core log 81, the test's bookkeeping and its log entry log 82, what the controller notes log 83, a lane's part log 84. -/
def Obligations.Management : Prop :=
  (∀ (s : State) (results : List Bool) (pre : List StartStep), wellStarted pre →
      (∀ x ∈ pre, ∀ core ∈ s.mgmt.fenced, coreStep (core / 96) ≠ x.step) →
      let base := { State.reset with agenda := s.agenda, free := s.free, ms := { MemSide.empty with mem := s.ms.mem.filter fun c => isOutside c.1 } }
      let m := s.mgmt
      let kept := { Mgmt.reset with steps := m.steps, log := m.log, records := m.records, offered := m.offered, map := m.map,
                                    repairs := m.repairs, banks := m.banks, spares := m.spares, fenced := m.fenced }
      let fencedStep := fun (k : Nat) => ∃ core ∈ m.fenced, coreStep (core / 96) = k
      let stop := fun (m : Mgmt) (k : Nat) =>
        exec (.managementStart results) s = .next { base with mgmt := { m with started := false, startStopped := some k } }
      let taken := fun (steps : List StartStep) =>
        { installRecords kept ([3, 4, 5, 6].filterMap (takeRecord m)) with steps := steps }
      let stops := fun (k : Nat) (steps : List StartStep) => stop (taken steps) k
      (∀ k, 3 ≤ k → k ≤ 6 → takeRecord m k = none → (∀ j, 3 ≤ j → j < k → takeRecord m j ≠ none) → stop kept (Config.recordStep k))
      ∧ ((∀ j, 3 ≤ j → j ≤ 6 → takeRecord m j ≠ none) →
      (s.mgmt.steps = pre → results = List.replicate (pre.filter startRuns).length true →
        (s.mgmt.fenced = [] → exec (.managementStart results) s = .next { base with mgmt := taken pre })
        ∧ (∀ core cs, s.mgmt.fenced = core :: cs → stops (coreStep (core / 96)) pre))
      ∧ (∀ (x : StartStep) (post : List StartStep), s.mgmt.steps = pre ++ x :: post →
        (∀ rest, results = List.replicate (pre.filter startRuns).length true ++ rest → fencedStep x.step → stops x.step s.mgmt.steps)
        ∧ (¬fencedStep x.step → ∀ rest, results = List.replicate (pre.filter startRuns).length true ++ rest → startRuns x = false → skipped x = false →
          stops x.step s.mgmt.steps)
        ∧ (¬fencedStep x.step → ∀ rest, results = List.replicate (pre.filter startRuns).length true ++ false :: rest → startRuns x = true →
          stops x.step (pre ++ { x with fails := min 255 (x.fails + 1) } :: post)))))
  ∧ TakesRecord
  ∧ (∀ (m : Mgmt) (rs : List (ConfigRec × Bool)), let n := installRecords m rs
      n.records = rs.map (fun r => r.1) ∧ n.spares = (n.recordOf 3).words.map BitVec.toNat ∧ n.map = mapOf (n.recordOf 4).words
        ∧ n.repairs = (n.recordOf 5).words ∧ (n.repairs = m.repairs → n.banks = m.banks)
        ∧ n.log = m.log ++ (rs.filter fun r => r.2).map fun r => .replaced r.1.kind)
  ∧ (∀ (s : State) (core : Nat), let left := s.mgmt.spares.getD (core / 96) 0
      ((192 ≤ core ∨ core ∈ s.mgmt.fenced) → exec (.coreFailure core) s = .next s)
      ∧ (core < 192 → core ∉ s.mgmt.fenced → 0 < left → exec (.coreFailure core) s =
          let now := s.mgmt.spares.set (core / 96) (left - 1)
          let renewed := fun (rs : List ConfigRec) => rs.map fun r => if r.kind == 3 then ⟨3, now.map (BitVec.ofNat 64)⟩ else r
          .next { s with mgmt := { s.mgmt with spares := now, records := renewed s.mgmt.records, offered := renewed s.mgmt.offered } })
      ∧ (core < 192 → core ∉ s.mgmt.fenced → left = 0 →
        let fenced := { s with mgmt := { s.mgmt with fenced := core :: s.mgmt.fenced } }
        let goes := fun (u : Team) => u ∈ residents fenced ∧ leaves fenced u = true
        ((residents fenced).filter (leaves fenced)).length ≤ (freeEntries s).length → (s.teams.map (·.uid)).Nodup →
        (∀ u, goes u → u.wait ≠ .locus ∧ pairBusy s u = false) →
        s.mgmt.waves.length = 24 → Answers (.coreFailure core) s fun t =>
          let home := (waveSeat s (clusterOf core)).1 = core
          t.mgmt = { s.mgmt with fenced := core :: s.mgmt.fenced, log := s.mgmt.log ++ [.coreFailed core], waves := t.mgmt.waves }
          ∧ (∀ u ∈ t.teams, u.kind = .core → u.stage = .resident → u.pl.core ≠ core)
          ∧ (∀ u, goes u → ∃ v ∈ t.teams, ∃ k, v.uid = u.uid ∧ v.stage = .evicted k ∧ v.rf = { u.rf with lc := v.rf.lc } ∧ v.sp = u.sp)
          ∧ (home → ∀ u ∈ s.teams, u.kind = .wave → u.pl.core = core → ∃ v ∈ t.teams, v.uid = u.uid
              ∧ v.pl.core = (waveSeat t (clusterOf core)).1 ∧ v.pl.slot = (waveSeat t (clusterOf core)).2 ∧ v.pl.group = 0 ∧ v.rf = u.rf ∧ v.ctl = u.ctl)
          ∧ (home → (∃ k, k < 8 ∧ core / 8 * 8 + k ∉ t.mgmt.fenced) → (waveSeat t (clusterOf core)).1 ∉ t.mgmt.fenced)
          ∧ (¬home → t.mgmt.waves = s.mgmt.waves)
          ∧ (¬home ∨ (waveRoom fenced (nextWaveCore fenced core)).isSome = true →
              ∀ u ∈ s.teams, ¬goes u → ¬(u.kind = .wave ∧ u.pl.core = core) → u ∈ t.teams))
      ∧ (core < 192 → core ∉ s.mgmt.fenced → left = 0 → (s.teams.map (·.uid)).Nodup → Answers (.coreFailure core) s fun t =>
          ∀ u ∈ s.teams, u.kind = .core → u.stage = .resident → u.pl.core = core → u.wait = .locus → u ∈ t.teams))
  ∧ (∀ (s : State), s.mgmt.fenced = [] → leaveFenced s = s)
  ∧ (∀ (s : State), let m := s.mgmt
      exec .powerThrottle s = .next { s with mgmt := { m with clk := if 1100 ≤ m.clk then m.clk - 100 else m.clk } }
      ∧ (m.clk ≤ 1000 → m.hold = false → exec .placementHold s = .next { s with mgmt := { m with hold := true, log := m.log ++ [.hold m.clk] } })
      ∧ ((1000 < m.clk ∨ m.hold = true) → exec .placementHold s = .next s)
      ∧ exec .powerBelowCap s = .next { s with mgmt := { m with hold := false } })
  ∧ (∀ (s : State) (channel bank : Nat) (bad : List (Nat × Nat)),
      let rows := bad.eraseDups
      let few := ∀ b, b < 4 → spareRowsUsed s.mgmt channel bank b + (rows.filter fun r => r.1 == b).length ≤ 64
      let logged := fun (t : State) => t.host = (refuseWrite s 0 0 0).host ∧ t.ms = (refuseWrite s 0 0 0).ms ∧ t.team = s.team ∧ t.others = s.others
      ((256 ≤ channel ∨ 32 ≤ bank ∨ channel ∈ s.mgmt.noSpare ∨ ∃ r ∈ rows, 4 ≤ r.1 ∨ 2 ^ 14 ≤ r.2) →
        exec (.hbmBankTest channel bank bad) s = .next s)
      ∧ (channel < 256 → bank < 32 → channel ∉ s.mgmt.noSpare → rows = [] → Answers (.hbmBankTest channel bank bad) s fun t =>
          t = { s with mgmt := { s.mgmt with banks := t.mgmt.banks } } ∧ Swapped s.mgmt t.mgmt channel bank [])
      ∧ (channel < 256 → bank < 32 → channel ∉ s.mgmt.noSpare → rows ≠ [] → (∀ r ∈ rows, r.1 < 4 ∧ r.2 < 2 ^ 14) →
        (few → Answers (.hbmBankTest channel bank bad) s fun t => logged t ∧ ∃ new, new.length = rows.length
          ∧ t.mgmt = { addRepairs s.mgmt new with banks := t.mgmt.banks } ∧ Swapped s.mgmt t.mgmt channel bank rows ∧ t.mgmt.repairs = s.mgmt.repairs ++ new
          ∧ ∀ j r, rows[j]? = some r → ∃ e : DWord, new[j]? = some e ∧ bitsOf e.toNat 62 2 = 1 ∧ bitsOf e.toNat 54 8 = channel
            ∧ bitsOf e.toNat 52 2 = r.1 ∧ bitsOf e.toNat 47 5 = bank ∧ bitsOf e.toNat 33 14 = r.2 ∧ bitsOf e.toNat 0 27 = 0
            ∧ bitsOf e.toNat 27 6 = spareRowsUsed s.mgmt channel bank r.1 + ((rows.take j).filter fun x => x.1 == r.1).length)
        ∧ (¬few → Answers (.hbmBankTest channel bank bad) s fun t => logged t ∧ ∃ e : DWord,
            t.mgmt = { addRepairs s.mgmt [e] with noSpare := channel :: s.mgmt.noSpare, banks := t.mgmt.banks }
            ∧ Swapped s.mgmt t.mgmt channel bank [] ∧ t.mgmt.repairs = s.mgmt.repairs ++ [e]
            ∧ bitsOf e.toNat 62 2 = 2 ∧ bitsOf e.toNat 54 8 = channel ∧ bitsOf e.toNat 47 5 = bank ∧ bitsOf e.toNat 27 6 = 0)))
  ∧ (∀ (s : State) (lane : Nat) (leaves : Bool),
      ((32 ≤ lane ∨ lane ∈ s.mgmt.lanesOut) → exec (.linkFlitRetry lane leaves) s = .next s)
      ∧ (lane < 32 → lane ∉ s.mgmt.lanesOut → exec (.linkFlitRetry lane leaves) s = .next { s with
          mgmt := { s.mgmt with lanesOut := if leaves then lane :: s.mgmt.lanesOut else s.mgmt.lanesOut },
          host := { s.host with events := s.host.events ++ [⟨10, 4 * 2 ^ 24 + lane, leBytes 8 1 ++ leBytes 4 (if leaves then 1 else 0)⟩] } }))

/-- R388, R397 and R398: an event is kept until its cycle ends; the events of a cycle are then recorded in the order of SOURCE and kind.
A recorded event takes the next sequence number and advances its unit's counter; FIRSTERR takes it when it is free, unless it is a corrected
soft error; with room its entry stands in the log, COUNT being the counter of the unit that SOURCE names, and otherwise OVFCNT counts
it. The soft errors that fills of the cycle have corrected are events of it too (R313). Which half of a counter an event other than a corrected
soft error advances, and that COUNT is the counter of the unit SOURCE names, is the model's reading (log 64), as is ELOGBASE taken as a
physical address (log 63). -/
def Obligations.EventLog : Prop :=
  (∀ (s : State) (kind src : Nat) (payload : List Byte),
    logEvent s kind src payload = { s with host := { s.host with events := s.host.events ++ [⟨kind, src, payload⟩] } })
  ∧ (∀ s : State, ∃ xs : List LogItem,
      xs.Perm (s.host.events ++ s.ms.soft.map fun g => ⟨4, 2 ^ 24 + channelOf s.mgmt.map (16 * g), leBytes 8 (16 * g)⟩)
      ∧ xs.Pairwise (fun a b => a.src < b.src ∨ (a.src = b.src ∧ a.kind ≤ b.kind))
      ∧ closeCycle s = xs.foldl recordEvent { s with ms := { s.ms with soft := [] }, host := { s.host with events := [] } })
  ∧ ∀ (s : State) (x : LogItem), x.kind < 2 ^ 32 → x.src < 2 ^ 32 → x.payload.length ≤ 96 →
    let kind := x.kind
    let src := x.src
    let payload := x.payload
    let t := recordEvent s x
    let h := s.host
    let logn := bitsOf h.elogbase.toNat 0 5
    let used := h.eloghead.toNat - h.elogtail.toNat
    let pa := h.elogbase.toNat / 4096 * 4096 + 128 * (h.eloghead.toNat % 2 ^ logn)
    t.host.eseq = h.eseq + 1
    ∧ (∀ u, unitOf src = some u → (loHalf (ecntOf t u) = loHalf (ecntOf s u) + (if kind = 4 then 1 else 0))
        ∧ (hiHalf (ecntOf t u) = hiHalf (ecntOf s u) + (if kind = 4 then 0 else 1)))
    ∧ (∀ u, unitOf src ≠ some u → ecntOf t u = ecntOf s u)
    ∧ (h.firsterr1.getLsbD 63 = false → kind ≠ 4 → t.host.firsterr0 = h.eseq + 1
        ∧ t.host.firsterr1 = BitVec.ofNat 64 (2 ^ 63 + kind * 2 ^ 32 + src))
    ∧ ((h.firsterr1.getLsbD 63 = true ∨ kind = 4) → t.host.firsterr0 = h.firsterr0 ∧ t.host.firsterr1 = h.firsterr1)
    ∧ (logn = 0 → t.ms = s.ms ∧ t.host.eloghead = h.eloghead ∧ t.host.ovfcnt = h.ovfcnt)
    ∧ (logn ≠ 0 → 2 ^ logn ≤ used → t.ms = s.ms ∧ t.host.eloghead = h.eloghead ∧ t.host.ovfcnt = h.ovfcnt + 1)
    ∧ (logn ≠ 0 → used < 2 ^ logn → t.host.eloghead = h.eloghead + 1 ∧ t.host.ovfcnt = h.ovfcnt
        ∧ (Invariant s → isPhys pa = true → isRaw pa = false →
          commNum t.ms pa 8 = (h.eseq + 1).toNat ∧ commNum t.ms (pa + 8) 4 = kind ∧ commNum t.ms (pa + 12) 4 = src
          ∧ commNum t.ms (pa + 16) 8 = (match unitOf src with | some u => (ecntOf t u).toNat | none => 0)
          ∧ commNum t.ms (pa + 24) 8 = s.cycle.toNat
          ∧ commBytes t.ms (pa + 32) 96 = payload ++ List.replicate (96 - payload.length) 0
          ∧ (Coherent s.ms → ∀ k a, isRaw a = false → KeyHeld s.ms k a → KeyHeld t.ms k a → (a / 128 = pa / 128 → k = 0) →
              (a < pa ∨ pa + 128 ≤ a) → commByteK t.ms k a = commByteK s.ms k a)))
    ∧ t.team = s.team ∧ t.others = s.others ∧ t.mgmt = s.mgmt

/-! ### The machine as a whole -/

/-- The registers of the aperture that reset with a value (R333, R388, R428, R429). -/
abbrev Sys2Proof.resetOf (off : Nat) : DWord :=
  match off with
  | 0 => 0x4D5800000000B100
  | 0x50000 => 2
  | 0x60008 => 0x1C000
  | 0xA0010 => 1800
  | 0xA0018 => 2500
  | _ => 0

/-- R12, R251, R274, R333, R388, R418, R421, R428, R429: after reset every register of the aperture reads its reset value, no team is placed, no
grid, gang or graph lives, no key is installed, each die has its four spares, and the invariant holds. That the peer windows and
the registers that can only be written read zero, and that an unlisted byte of memory reads zero, are the model's choices (log entries
1, 5 and 92). -/
def Obligations.ResetValues : Prop :=
  (∀ off, readReg State.reset off = resetOf off) ∧ Invariant State.reset
  ∧ State.reset.team.stage = .ended ∧ State.reset.others = [] ∧ State.reset.gangs = [] ∧ State.reset.sched.grids = []
  ∧ State.reset.cycle = 0 ∧ State.reset.host.openStreams = []
  ∧ (∀ k, (State.reset.sched.graphs.getD k GraphSlot.empty).graph = none) ∧ vxOn State.reset = false ∧ svOn State.reset = false
  ∧ (∀ h ∈ State.reset.vx.homes, h.queue = [] ∧ h.batch = none) ∧ State.reset.vx.homes.length = 24
  ∧ State.reset.mgmt.keys = [] ∧ State.reset.mgmt.spares = [4, 4] ∧ State.reset.mgmt.fenced = [] ∧ State.reset.mgmt.spdm.secured = false
  ∧ (∀ a, commByte State.reset.ms a = 0)

/-- The state in which a team's turn begins: a nanosecond of device time has passed and the team is in focus. -/
abbrev Sys2Proof.turn (s : State) (t : Team) : State := (passTime s 1).focus t.uid

/-- What a step does with the team whose turn it is, in the state its turn begins with. -/
def Sys2Proof.TakesTurn (s u : State) : Prop :=
  let due := deadlinePassed u u.team = true ∧ u.team.book.begun = false
  (u.team.kind ≠ .stratum → u.team.pending = [] → ¬due →
    (∀ w v i, fetch u u.team.ctl.pc = .ok (w, v) → decode w = .ok i → step s = exec i v)
    ∧ (∀ w v r, fetch u u.team.ctl.pc = .ok (w, v) → decode w = .error r →
        step s = .next (trapBefore (noteIssue v) (trap1 u.team r.code w))))
  ∧ (u.team.kind ≠ .stratum → ∀ tr rest, u.team.pending = tr :: rest →
      step s = .next (trapBefore { u with team := { u.team with pending := rest } } tr))
  ∧ (u.team.kind ≠ .stratum → u.team.pending = [] → due → step s = .next (deadlineTrap u))
  ∧ (u.team.kind = .stratum → ∀ w v b, fetch u u.team.ctl.pc = .ok (w, v) → u.strat.current.find? (fun x => x.1 == u.team.pl.core) = some b →
      (65536 ≤ b.2.issued → step s = .next (stratumFault v 7))
      ∧ (b.2.issued < 65536 → (∀ i, decodeStratum w = .ok i → step s = exec i (countBlock (if isLd i then v else forgetBacks v)))
        ∧ ∀ r, decodeStratum w = .error r → step s = .next (stratumFault v r)))

/-- R41, R42, R62, R83, R125, R320, R323: every team is brought up to date as a step begins. When a group issues, the step is the instruction
that the fetched word decodes to, in the state after the fetch and a nanosecond of time; a word that is no instruction traps with
group 1 and its reason. A word that no buffer or cache of the core holds is the four committed bytes at the translated address. A cycle
that ends records its events (R397). An event of the agenda is its own meaning, and time passes at the clock. Which group issues where
the agenda is empty is the model's choice (log entry 60). -/
def Obligations.StepRunsDecoded : Prop :=
  (∀ (s : State) (g : Nat) (rest : List Act) (t : Team), s.agenda = .group g :: rest →
      let r := { refresh s with agenda := rest }
      turnOf r g = some t → TakesTurn s (turn r t))
  ∧ (∀ (s : State) (t : Team), s.agenda = [] → (refresh s).issued % 2 = 0 → issuer (refresh s) = some t → TakesTurn s (turn (refresh s) t))
  ∧ (∀ (s : State) (i : Instr) (rest : List Act), s.agenda = .event i :: rest →
      let r := { refresh s with agenda := rest }
      (encode i = none → step s = exec i r) ∧ (encode i ≠ none → step s = .next r))
  ∧ (∀ (s : State) (ns : Nat) (rest : List Act), s.agenda = .time ns :: rest → step s = .next (passTime { refresh s with agenda := rest } ns))
  ∧ (∀ (s : State) (ns : Nat), let t := passTime s ns
      let c := if ns = 0 then s else closeCycle (formBatches s)
      t.cycle = s.cycle + BitVec.ofNat 64 ns ∧ 1000 * t.arith + t.frac = 1000 * s.arith + s.frac + s.mgmt.clk * ns ∧ t.frac < 1000
        ∧ t.ms = c.ms ∧ t.host = c.host ∧ t.gangs = c.gangs ∧ t.sched = c.sched)
  ∧ (∀ (u : State) (pc : DWord) (pa : Nat) (l : Leaf), u.team.kind ≠ .stratum → u.team.ctl.buffer.find? (fun x => x.1 == pc) = none →
      u.ms.code.find? (fun c => c.core == u.team.pl.core && c.asid == u.team.pl.asid && c.va == pc) = none → canonical pc = true →
      xlateT u u.team .fetch pc = .ok (pa, l) → (isHost pa = true → lostLink u = none) → ∃ v, fetch u pc = .ok (BitVec.ofNat 32 (ofLeBytes (commBytesK u.ms l.key pa 4)), v)
        ∧ v.team.rf = u.team.rf ∧ v.team.ctl = { u.team.ctl with buffer := v.team.ctl.buffer } ∧ v.others = u.others ∧ v.ms.mem = u.ms.mem
        ∧ v.ms.l2 = u.ms.l2)
  ∧ (∀ (s : State), (∀ u ∈ s.teams, u.stage = .ended) → refresh s = leaveFenced (settleKeel (tidyL1 s)))
  ∧ (∀ (s : State), s.l1 = [] → s.marl = [] → s.mgmt.fenced = [] → leaveFenced (settleKeel (tidyL1 s)) = s)

/-- R63, R74 to R83 and R427: words that the encoding tables of the chapters write out decode to what they stand for, and words that R427
calls ill-formed are refused with the reason it gives. -/
def Obligations.DecodeWords : Prop :=
  decode 0x40C4146B = .ok (.ffma ⟨3, 4, 5, 6, true, false⟩)
  ∧ decode 0x81C81C90 = .ok (.ld ⟨7, 8, 7, 2, 4, 0⟩)
  ∧ decode 0x0FD10830 = .ok (.icmpS ⟨7, 2, 1, 2, 3, false, false⟩)
  ∧ decode 0x68000006 = .ok (.br ⟨0, 6⟩)
  ∧ decode 0x95D40000 = .ok (.phase ⟨1, 1⟩)
  ∧ decode 0x35CC000C = .ok (.srd ⟨12, 12⟩)
  ∧ decode 0x989620E0 = .ok (.mma ⟨2, 1, 12, 16, 3, 4, false, 0⟩)
  ∧ decode 0xA0843580 = .ok (.aopAdd ⟨2, 4, 13, 6, false⟩)
  ∧ decode 0xADC03892 = .ok (.rput ⟨14, 9, false, false⟩)
  ∧ decode 0xAFCA1C8D = .ok (.sx ⟨7, 10, 7, 2, 3⟩)
  ∧ decode 0xB3E720A3 = .ok (.mrcmp ⟨true, 7, 8, 10, false, false⟩)
  ∧ decode 0xBDD44C10 = .ok (.igq ⟨7, 20, 19, true, false⟩)
  ∧ decode 0xC1C02063 = .ok (.synci ⟨4, 6, false⟩)
  ∧ decode 0xBFC818A3 = .ok (.svdrop ⟨8, 6, 10, false, false⟩)
  ∧ decode 0xBE001872 = .error .guardMisuse ∧ decode 0xBFC11872 = .error .reservedField
  ∧ decode 0xBFC92461 = .error .reservedField ∧ decode 0xBFC819F3 = .error .reservedField

/-- R63, R74 to R83 and R86: the decoder reads back every word the encoder writes for a well-formed instruction, and the encoder writes
the word that either decoder has read: no bit of a word is dropped, and no word is read as two instructions. -/
def Obligations.RoundTrip : Prop :=
  (∀ i w, i.wf = true → encode i = some w → (stratumForm i = false → decode w = .ok i) ∧ (stratumForm i = true → decodeStratum w = .ok i))
  ∧ ∀ i w, (decode w = .ok i → encode i = some w ∧ i.wf = true) ∧ (decodeStratum w = .ok i → encode i = some w ∧ i.wf = true)

/-- R19, R87, R210, R212, R320: every step keeps the invariant of the machine, from every state that has it. -/
def Obligations.InvariantKept : Prop := ∀ s t : State, Invariant s → step s = .next t → Invariant t
end

