-- ==== Sys2Proof/Laws/Regs.lean ====
section
/-! SUPPORT. Reading a register after a write: the written one, and every other. -/

namespace Sys2Proof.Machine

/-- The written vector register, in each lane (R105). -/
theorem vget_setV_same {t : Team} {r L : Nat} {m : LaneSet} {f : Nat → Word} (hr : r < t.rf.v.length) (hL : L < t.rf.n) :
    vget (setV t r m f) r L = if m.getLsbD L then f L else vget t r L := by
  simp [vget, setV, List.getD_eq_getElem?_getD, hr, hL]

/-- Every other vector register. -/
theorem vget_setV_other {t : Team} {r q L : Nat} {m : LaneSet} {f : Nat → Word} (h : q ≠ r) :
    vget (setV t r m f) q L = vget t q L := by
  simp [vget, setV, List.getD_eq_getElem?_getD, Ne.symm h]

/-- The written scalar register. -/
theorem sget_setS_same {t : Team} {r : Nat} {x : Word} (hr : r < t.rf.s.length) : sget (setS t r x) r = x := by
  simp [sget, setS, List.getD_eq_getElem?_getD, hr]

/-- Every other scalar register. -/
theorem sget_setS_other {t : Team} {r q : Nat} {x : Word} (h : q ≠ r) : sget (setS t r x) q = sget t q := by
  simp [sget, setS, List.getD_eq_getElem?_getD, Ne.symm h]

/-- The written predicate. -/
theorem pset_setP_same {t : Team} {p : Nat} {m : LaneSet} (hp : p < t.rf.p.length) : pset (setP t p m) p = m := by
  simp [pset, setP, List.getD_eq_getElem?_getD, hp]

/-- Every other predicate. -/
theorem pset_setP_other {t : Team} {p q : Nat} {m : LaneSet} (h : q ≠ p) : pset (setP t p m) q = pset t q := by
  simp [pset, setP, List.getD_eq_getElem?_getD, Ne.symm h]

/-- Packed lane bits fit their lanes. -/
theorem packLanes_lt (n : Nat) (f : Nat → Bool) : packLanes n f < 2 ^ n := by
  induction n with
  | zero => simp [packLanes]
  | succ n ih => simp only [packLanes]; split <;> omega

/-- Each packed bit is its lane's. -/
theorem testBit_packLanes (n : Nat) (f : Nat → Bool) (L : Nat) :
    (packLanes n f).testBit L = (decide (L < n) && f L) := by
  induction n with
  | zero => simp [packLanes]
  | succ n ih =>
    simp only [packLanes]
    have hlt := packLanes_lt n f
    cases hf : f n
    · simp only [Bool.false_eq_true, ↓reduceIte, Nat.add_zero, ih]
      by_cases h : L = n
      · subst h; simp [hf]
      · have : (L < n) ↔ (L < n + 1) := by omega
        simp [this]
    · simp only [↓reduceIte]
      have e := Nat.testBit_two_pow_mul_add 1 hlt L
      rw [Nat.mul_one] at e
      rw [Nat.add_comm, e]
      by_cases h : L < n
      · have : L < n + 1 := by omega
        simp [h, this, ih]
      · by_cases h2 : L = n
        · subst h2; simp [hf]
        · have h3 : ¬ L < n + 1 := by omega
          have h4 : L - n ≠ 0 := by omega
          obtain ⟨j, hj⟩ := Nat.exists_eq_succ_of_ne_zero h4
          simp [h, h3, hj, Nat.testBit_succ]

/-- Membership in a set of lanes. -/
theorem getLsbD_laneSet {n L : Nat} {f : Nat → Bool} (hL : L < n) (hn : n ≤ 1024) : (laneSet n f).getLsbD L = f L := by
  unfold laneSet
  rw [BitVec.getLsbD_ofNat, testBit_packLanes]
  simp [hL, Nat.lt_of_lt_of_le hL hn]

/-- The written predicate, lane by lane (R112). -/
theorem pset_setPLanes_same {t : Team} {p L : Nat} {m : LaneSet} {f : Nat → Bool} (hp : p < t.rf.p.length) (hL : L < t.rf.n)
    (hn : t.rf.n ≤ 1024) :
    (pset (setPLanes t p m f) p).getLsbD L = if m.getLsbD L then f L else (pset t p).getLsbD L := by
  unfold setPLanes
  rw [pset_setP_same hp]
  have h : L < 1024 := by omega
  rw [BitVec.getLsbD_or, BitVec.getLsbD_and, BitVec.getLsbD_and, BitVec.getLsbD_not, getLsbD_laneSet hL hn]
  cases hm : m.getLsbD L <;> simp [h]

/-- Every other predicate. -/
theorem pset_setPLanes_other {t : Team} {p q : Nat} {m : LaneSet} {f : Nat → Bool} (h : q ≠ p) :
    pset (setPLanes t p m f) q = pset t q := pset_setP_other h

/-- Full bits alone change when vector registers are marked (R93). -/
theorem markVs_eq (t : Team) (r k : Nat) (full : Bool) :
    markVs t r k full = { t with rf := { t.rf with vfull := (markVs t r k full).rf.vfull } } := by
  induction k with
  | zero => rfl
  | succ k ih =>
    unfold markVs markV
    rw [ih]

/-- A register group written keeps the team, the scalars and predicates, and the full bits. -/
theorem setVs_eq (t : Team) (r : Nat) (m : LaneSet) (data : List (List Word)) :
    setVs t r m data = { t with rf := { t.rf with v := (setVs t r m data).rf.v } } := by
  induction data generalizing t r with
  | nil => rfl
  | cons x xs ih =>
    unfold setVs
    rw [ih]
    rfl

/-- A register outside a written group keeps its lanes. -/
theorem vget_setVs_other {t : Team} {r q L : Nat} {m : LaneSet} {data : List (List Word)}
    (h : q < r ∨ r + data.length ≤ q) : vget (setVs t r m data) q L = vget t q L := by
  induction data generalizing t r with
  | nil => rfl
  | cons x xs ih =>
    unfold setVs
    simp only [List.length_cons] at h
    rw [ih (by omega), vget_setV_other (by omega)]

end Sys2Proof.Machine
end

