-- ==== Sys2Proof/Laws/Issue.lean ====
section
/-! SUPPORT. What issuing and retiring an instruction does (R67, R83, R128), and what the shared shapes of register
instructions do with it. -/

namespace Sys2Proof.Machine

/-- A ready instruction passes every check and wait at issue. -/
theorem gate_of_ready {i : Instr} {s : State} (h : Ready i s) : gate s i = none := by
  obtain ⟨h1, h2, h3, h4, h5, h6, h7, h8, h9, h10, h11, h12, h13⟩ := h
  simp only [usesNow] at *
  have hw : wordReason s.team (usesOf s.team (hmodOf s.team).dw (locusDim s s.team) i) i = none := by
    unfold wordReason
    have a : ((usesOf s.team (hmodOf s.team).dw (locusDim s s.team) i).vs.map fun x => x.1).any (fun r => decide (s.team.rf.nv ≤ r)) = false := by
      simp only [List.any_map, List.any_eq_false, Function.comp, decide_eq_true_eq, Nat.not_le]; exact h2
    have b : (usesOf s.team (hmodOf s.team).dw (locusDim s s.team) i).vd.any (fun r => decide (s.team.rf.nv ≤ r)) = false := by
      simp only [List.any_eq_false, decide_eq_true_eq, Nat.not_le]; exact h3
    simp only [h1, a, b, Bool.or_self, Bool.false_eq_true, ↓reduceIte]
    cases hh : s.team.ctl.hints with
    | none => rfl
    | some x => simp [h4 x hh]
  unfold gate
  simp only [hw]
  have e1 : (needsPriv i && !privileged s.team) = false := by
    cases hp : needsPriv i <;> simp_all
  have e2 : (s.team.kind == TeamKind.wave && waveForbids i) = false := by
    by_cases hk : s.team.kind = .wave <;> simp_all
  have e3 : (s.team.kind != TeamKind.wave && waveOnly i) = false := by
    cases ho : waveOnly i <;> simp_all
  have e4 : (inRoutine s s.team && routineForbids i) = false := by
    cases ho : inRoutine s s.team <;> simp_all
  have f1 : (usesOf s.team (hmodOf s.team).dw (locusDim s s.team) i).vs.find? (fun x => x.2 && !vIsFull s.team x.1) = none := by
    simp only [List.find?_eq_none]; intro x hx; simp [h9 x hx]
  have f2 : (usesOf s.team (hmodOf s.team).dw (locusDim s s.team) i).ss.find? (fun x => x.2 && !sIsFull s.team x.1) = none := by
    simp only [List.find?_eq_none]; intro x hx; simp [h10 x hx]
  simp only [e1, e2, e3, e4, f1, f2, Bool.false_eq_true, ↓reduceIte]
  rw [if_pos]
  simp only [Bool.and_eq_true, List.all_eq_true, Bool.not_eq_true', List.any_eq_false, List.contains_iff_mem]
  exact ⟨⟨⟨⟨fun x hx => h9 x hx, fun x hx => h10 x hx⟩, h11⟩, h12⟩, fun x hx => by simpa using h13 x hx⟩

/-- No loop action at a word that ends no body. -/
theorem loopEnd_straight {t : Team}
    (h : ∀ f ∈ t.ctl.loops, t.ctl.pc ≠ f.start + BitVec.ofNat 64 (4 * (f.len - 1))) :
    loopEnd t.ctl.pc t.ctl.loops.length t = ({ t with ctl := { t.ctl with pc := t.ctl.pc + 4 } }, false) := by
  cases hl : t.ctl.loops.length with
  | zero => rfl
  | succ k =>
    unfold loopEnd
    have hk : k < t.ctl.loops.length := by omega
    simp only [List.getElem?_eq_getElem hk]
    rw [if_neg (h _ (List.getElem_mem hk))]

/-- Retirement in a straight line. -/
theorem retire_straight {s : State} (h : Straight s) : retire s = wentOn s := by
  unfold retire retireWith retireWithStep
  simp only [loopEnd_straight h.2, h.1, Bool.false_eq_true, ↓reduceIte, retireToStep]
  rfl

/-- Going straight on depends on the control state, `%step`, the handler and the kind of team alone. -/
theorem straight_congr {s t : State} (hs : Straight s) (h1 : t.team.ctl = s.team.ctl) (h2 : t.team.sp = s.team.sp)
    (h3 : t.team.handler = s.team.handler) (h4 : t.team.kind = s.team.kind) : Straight t := by
  unfold Straight stepping at *
  rw [h1, h2, h3, h4]; exact hs

/-- A ready instruction has its own effect at issue. -/
theorem issue_ready {i : Instr} {s : State} {e : State → Result} (h : Ready i s) :
    issue i s e = match e (noteIssue s) with
      | .next s' => .next s'
      | .wait w => .next (hold s w)
      | .trap tr => .next (trapBefore (noteIssue s) tr) := by
  unfold issue; rw [gate_of_ready h] <;> rfl

/-- Issue and retirement keep the world but the team in focus. -/
theorem worldKept_wentOn (s : State) (u : Team) : WorldKept s (wentOn ((noteIssue s).withTeam u)) := by
  unfold WorldKept wentOn State.withTeam noteIssue
  refine ⟨rfl, rfl, rfl, rfl, rfl, ?_, rfl, rfl, rfl, rfl, rfl, rfl, rfl, rfl, rfl, rfl, rfl, rfl, rfl, rfl, rfl⟩
  simp only [List.map_map]
  apply List.map_congr_left
  intro o _
  simp only [Function.comp]
  split <;> rfl

/-! ### The shapes of straight-line register instructions -/

/-- A team has at most 1024 lanes. -/
theorem laned_le {t : Team} (h : Laned t) : t.rf.n ≤ 1024 := by
  unfold Laned at h; simp only [List.mem_cons, List.not_mem_nil, or_false] at h; omega

/-- Issue changes nothing that going straight on depends on. -/
theorem straight_noteIssue {s : State} (h : Straight s) : Straight (noteIssue s) := straight_congr h rfl rfl rfl rfl

/-- Issue, a change of the team's registers that keeps the rest, and going on: the frame. -/
theorem onlyWrites_of {s : State} {u : Team} {vs ss ps : List Nat} (hk : TeamKept (noteIssue s).team u)
    (hr : RegsKept (noteIssue s).team u vs ss ps) (hp : u.sp = s.team.sp) (hc : u.ctl = s.team.ctl) :
    OnlyWrites s (wentOn ((noteIssue s).withTeam u)) vs ss ps := by
  refine ⟨⟨worldKept_wentOn s _, hk, hr, hp, ?_⟩, fun _ k a _ _ _ => ?_⟩
  · unfold GoesTo wentOn State.withTeam
    rw [show u.ctl = s.team.ctl from hc]
    exact ⟨rfl, rfl, rfl, rfl, rfl, rfl, rfl⟩
  · unfold teamByte
    rw [show (wentOn ((noteIssue s).withTeam u)).team.ver = s.team.ver from hk.2.2.2.2.1]
    rfl

/-- A change of registers alone keeps the team. -/
theorem teamKept_regs (t : Team) (rf : Regs) : TeamKept t { t with rf := rf } :=
  ⟨rfl, rfl, rfl, rfl, rfl, rfl, rfl, rfl, rfl, rfl, rfl, rfl, rfl, rfl, rfl, rfl, rfl⟩

/-- The frame of a vector result. -/
theorem onlyWrites_vec {s : State} {r : Nat} {m : LaneSet} {f : Nat → Word} :
    OnlyWrites s (wentOn ((noteIssue s).withTeam (setV (noteIssue s).team r m f))) [r] [] [] :=
  onlyWrites_of (teamKept_regs _ _)
    ⟨rfl, rfl, fun _ _ hq => vget_setV_other (t := (noteIssue s).team) (by simpa using hq), fun _ _ => rfl, fun _ _ => rfl,
      rfl, rfl, rfl, rfl, rfl, rfl⟩ rfl rfl

/-- The frame of a scalar result. -/
theorem onlyWrites_scalar {s : State} {r : Nat} {x : Word} :
    OnlyWrites s (wentOn ((noteIssue s).withTeam (setS (noteIssue s).team r x))) [] [r] [] :=
  onlyWrites_of (teamKept_regs _ _)
    ⟨rfl, rfl, fun _ _ _ => rfl, fun _ hq => sget_setS_other (t := (noteIssue s).team) (by simpa using hq), fun _ _ => rfl,
      rfl, rfl, rfl, rfl, rfl, rfl⟩ rfl rfl

/-- The frame of a predicate result. -/
theorem onlyWrites_pred {s : State} {p : Nat} {x : LaneSet} :
    OnlyWrites s (wentOn ((noteIssue s).withTeam (setP (noteIssue s).team p x))) [] [] [p] :=
  onlyWrites_of (teamKept_regs _ _)
    ⟨rfl, rfl, fun _ _ _ => rfl, fun _ _ => rfl, fun _ hq => pset_setP_other (t := (noteIssue s).team) (by simpa using hq),
      rfl, rfl, rfl, rfl, rfl, rfl⟩ rfl rfl

/-- An instruction that issues, changes the team's registers and retires. -/
theorem issue_retires {i : Instr} {s : State} {u : Team} {e : State → Result} (hr : Ready i s) (hs : Straight s)
    (he : e (noteIssue s) = .next (retire ((noteIssue s).withTeam u))) (h1 : u.ctl = s.team.ctl) (h2 : u.sp = s.team.sp)
    (h3 : u.handler = s.team.handler) (h4 : u.kind = s.team.kind) :
    issue i s e = .next (wentOn ((noteIssue s).withTeam u)) := by
  rw [issue_ready hr, he]
  exact congrArg Host.Outcome.next (retire_straight (straight_congr hs h1 h2 h3 h4))

/-- What `vecOp` does when the instruction runs (R105). -/
theorem vecOp_answers {i : Instr} {s : State} {g : BitVec 3} {d : BitVec 6} {f : Team → Nat → Word} (h : Runs i s)
    (hd : d.toNat < s.team.rf.nv) :
    ∃ t, vecOp i g d f s = .next t ∧ WritesLanes s t (active s.team g) d.toNat (f (noteIssue s).team) := by
  obtain ⟨-, hr, hs, hsh⟩ := h
  refine ⟨wentOn ((noteIssue s).withTeam (setV (noteIssue s).team d.toNat (active s.team g) (f (noteIssue s).team))), ?_, ?_, ?_⟩
  · exact issue_retires hr hs rfl rfl rfl rfl rfl
  · intro L hL
    exact vget_setV_same (t := (noteIssue s).team) (by rw [← hsh.1] at hd; exact hd) hL
  · exact onlyWrites_vec

/-- What `scalarOp` does when the instruction runs (R115). -/
theorem scalarOp_answers {i : Instr} {s : State} {d : BitVec 5} {f : Team → Word} (h : Runs i s) :
    ∃ t, scalarOp i d f s = .next t ∧ WritesScalar s t d.toNat (f (noteIssue s).team) := by
  obtain ⟨-, hr, hs, hsh⟩ := h
  refine ⟨wentOn ((noteIssue s).withTeam (setS (noteIssue s).team d.toNat (f (noteIssue s).team))), ?_, ?_, ?_⟩
  · exact issue_retires hr hs rfl rfl rfl rfl rfl
  · exact sget_setS_same (t := (noteIssue s).team) (by have := hsh.2.1; have := d.isLt; change _ < s.team.rf.s.length; omega)
  · exact onlyWrites_scalar

/-- What `predOp` does when the instruction runs (R112). -/
theorem predOp_answers {i : Instr} {s : State} {g p : BitVec 3} {f : Team → Nat → Bool} (h : RunsLanes i s) (hp : p ≠ 7) :
    ∃ t, predOp i g p f s = .next t ∧ WritesPred s t (active s.team g) p.toNat (f (noteIssue s).team) := by
  obtain ⟨⟨-, hr, hs, hsh⟩, hn⟩ := h
  refine ⟨wentOn ((noteIssue s).withTeam (setPLanes (noteIssue s).team p.toNat (active s.team g) (f (noteIssue s).team))),
    ?_, ?_, ?_⟩
  · exact issue_retires hr hs rfl rfl rfl rfl rfl
  · intro L hL
    refine pset_setPLanes_same (t := (noteIssue s).team) ?_ hL (laned_le hn)
    have := hsh.2.2.1; have h7 : p.toNat ≠ 7 := fun e => hp (BitVec.eq_of_toNat_eq e); have := p.isLt
    change _ < s.team.rf.p.length; omega
  · exact onlyWrites_pred

end Sys2Proof.Machine
end

