-- ==== Sys2Proof/Laws/Memory.lean ====
section
/-! SUPPORT. The memory below the L2: the canonical form is kept by every write, and a read after a write. -/

namespace Sys2Proof.Machine

/-! ### The canonical form -/

/-- A lower bound may be lowered. -/
theorem wfFrom_mono {m : Memory} {lo k : Nat} (h : Memory.wfFrom k m = true) (hk : lo ≤ k) : Memory.wfFrom lo m = true := by
  cases m with
  | nil => rfl
  | cons c m =>
    simp only [Memory.wfFrom, Bool.and_eq_true, decide_eq_true_eq] at h ⊢
    exact ⟨⟨by omega, h.1.2⟩, h.2⟩

/-- Below its bound a memory lists nothing. -/
theorem memGet_below {m : Memory} {lo x : Nat} (h : Memory.wfFrom lo m = true) (hx : x < lo) : memGet m x = Memory.unlisted := by
  cases m with
  | nil => rfl
  | cons c m =>
    simp only [Memory.wfFrom, Bool.and_eq_true, decide_eq_true_eq] at h
    have h1 : c.1 ≠ x := by omega
    have h2 : x < c.1 := by omega
    simp [memGet, h1, h2]

/-- Writing a byte keeps the canonical form. -/
theorem memSet_wfFrom {m : Memory} {lo a : Nat} {b : Byte} (h : Memory.wfFrom lo m = true) (ha : lo ≤ a) :
    Memory.wfFrom lo (memSet m a b) = true := by
  induction m generalizing lo with
  | nil =>
    unfold memSet
    split
    · rfl
    · rename_i hb; simp [Memory.wfFrom, ha, hb]
  | cons c m ih =>
    have hc := h
    simp only [Memory.wfFrom, Bool.and_eq_true, decide_eq_true_eq] at h
    unfold memSet
    split
    · simp only [Memory.wfFrom, Bool.and_eq_true, decide_eq_true_eq]
      exact ⟨h.1, ih h.2 (by omega)⟩
    · split
      · rename_i _ he
        split
        · exact wfFrom_mono h.2 (by omega)
        · rename_i hb
          simp only [Memory.wfFrom, Bool.and_eq_true, decide_eq_true_eq, bne_iff_ne, ne_eq]
          exact ⟨⟨ha, hb⟩, he ▸ h.2⟩
      · rename_i h1 h2
        split
        · exact hc
        · rename_i hb
          have hne : c.2 ≠ Memory.unlisted := by simpa using h.1.2
          simp only [Memory.wfFrom, Bool.and_eq_true, decide_eq_true_eq, bne_iff_ne, ne_eq]
          exact ⟨⟨ha, hb⟩, ⟨⟨by omega, hne⟩, h.2⟩⟩

theorem memSet_wf {m : Memory} (a : Nat) (b : Byte) (h : m.wf = true) : (memSet m a b).wf = true :=
  memSet_wfFrom h (Nat.zero_le a)

theorem memSets_wf {m : Memory} (cells : List Host.Cell) (h : m.wf = true) : (memSets m cells).wf = true := by
  unfold memSets
  induction cells generalizing m with
  | nil => exact h
  | cons c cs ih => exact ih (memSet_wf c.1 c.2 h)

/-- Leaving cells out keeps the canonical form. -/
theorem filter_wfFrom {m : Memory} {lo : Nat} (p : Host.Cell → Bool) (h : Memory.wfFrom lo m = true) :
    Memory.wfFrom lo (m.filter p) = true := by
  induction m generalizing lo with
  | nil => rfl
  | cons c m ih =>
    simp only [Memory.wfFrom, Bool.and_eq_true, decide_eq_true_eq] at h
    rw [List.filter_cons]
    split
    · simp only [Memory.wfFrom, Bool.and_eq_true, decide_eq_true_eq]; exact ⟨h.1, ih h.2⟩
    · exact wfFrom_mono (ih h.2) (by omega)

/-! ### Reading after a write -/

/-- A byte reads as it was last written, and every other byte as before. -/
theorem memGet_memSet {m : Memory} {lo a x : Nat} {b : Byte} (h : Memory.wfFrom lo m = true) :
    memGet (memSet m a b) x = if x = a then b else memGet m x := by
  induction m generalizing lo with
  | nil =>
    unfold memSet
    by_cases hb : b = Memory.unlisted
    · simp only [hb, ↓reduceIte, memGet, ite_self]
    · simp only [hb, ↓reduceIte, memGet]
      by_cases hx : x = a
      · simp [hx]
      · simp [hx, Ne.symm hx]
  | cons c m ih =>
    simp only [Memory.wfFrom, Bool.and_eq_true, decide_eq_true_eq] at h
    unfold memSet
    by_cases h1 : c.1 < a
    · simp only [h1, ↓reduceIte, memGet]
      by_cases h2 : c.1 = x
      · have : x ≠ a := by omega
        simp [h2, this]
      · by_cases h3 : x < c.1
        · have : x ≠ a := by omega
          simp [h2, h3, this]
        · simp only [h2, h3, ↓reduceIte]; exact ih h.2
    · by_cases h2 : c.1 = a
      · subst h2
        simp only [Nat.lt_irrefl, ↓reduceIte]
        by_cases hb : b = Memory.unlisted
        · simp only [hb, ↓reduceIte, memGet]
          by_cases h3 : x = c.1
          · simp only [h3, ↓reduceIte]; exact memGet_below h.2 (by omega)
          · by_cases h4 : x < c.1
            · simp only [h3, Ne.symm h3, h4, ↓reduceIte]; exact memGet_below h.2 (by omega)
            · simp only [h3, Ne.symm h3, h4, ↓reduceIte]
        · simp only [hb, ↓reduceIte, memGet]
          by_cases h3 : x = c.1
          · simp [h3]
          · simp [h3, Ne.symm h3]
      · have hlt : a < c.1 := by omega
        simp only [h1, h2, ↓reduceIte]
        by_cases hb : b = Memory.unlisted
        · simp only [hb, ↓reduceIte, memGet]
          by_cases h3 : x = a
          · have : c.1 ≠ x := by omega
            have h4 : x < c.1 := by omega
            simp [h3, h2, hlt]
          · simp [h3]
        · simp only [hb, ↓reduceIte, memGet]
          by_cases h3 : x = a
          · simp [h3]
          · by_cases h4 : x < a
            · have : c.1 ≠ x := by omega
              have h5 : x < c.1 := by omega
              simp [h3, Ne.symm h3, h4, this, h5]
            · simp [h3, Ne.symm h3, h4]

/-- After several writes a byte reads as the last of them that names it. -/
theorem memGet_memSets {m : Memory} {cells : List Host.Cell} {x : Nat} (h : m.wf = true) :
    memGet (memSets m cells) x = ((cells.filter fun c => c.1 == x).getLast?.map Prod.snd).getD (memGet m x) := by
  unfold memSets
  induction cells generalizing m with
  | nil => rfl
  | cons c cs ih =>
    rw [List.foldl_cons, ih (memSet_wf c.1 c.2 h), memGet_memSet (lo := 0) h, List.filter_cons]
    by_cases hc : c.1 = x
    · subst hc
      simp only [beq_self_eq_true, ↓reduceIte]
      cases hl : cs.filter fun d => d.1 == c.1 with
      | nil => rfl
      | cons d ds => rw [List.getLast?_cons_cons, List.getLast?_eq_some_getLast (List.cons_ne_nil d ds)]; rfl
    · simp only [beq_iff_eq, hc, Ne.symm hc, ↓reduceIte]

/-! ### Scratch lists -/

/-- A scratch list gives back what was last put, and every other byte as before. -/
theorem cellGet_cellSet (cs : List Host.Cell) (a x : Nat) (b : Byte) :
    cellGet (cellSet cs a b) x = if x = a then some b else cellGet cs x := by
  induction cs with
  | nil => by_cases h : x = a <;> simp [cellSet, cellGet, h, Ne.symm]
  | cons c cs ih =>
    unfold cellSet
    by_cases h1 : c.1 = a
    · subst h1
      by_cases h2 : x = c.1
      · simp [cellGet, h2]
      · simp [cellGet, h2, Ne.symm h2]
    · simp only [h1, ↓reduceIte, cellGet]
      by_cases h2 : c.1 = x
      · have : x ≠ a := fun e => h1 (h2.trans e)
        simp [h2, this]
      · simp only [h2, ↓reduceIte]; exact ih

/-- Memory after reset lists nothing, so it has the canonical form. -/
theorem memory_reset : State.reset.ms.mem.wf = true := rfl

end Sys2Proof.Machine
end

