-- ==== Sys2Proof/Laws/L2.lean ====
section
/-! SUPPORT. The L2: encryption below it undoes itself (R325), what fills, evictions and write-backs keep (R19, R332, R334), and what
a commit does (R209, R210, R212, R215). -/

namespace Sys2Proof.Machine

/-! ### Bytes and numbers -/

theorem leBytes_length (n x : Nat) : (leBytes n x).length = n := by
  induction n generalizing x with
  | zero => rfl
  | succ n ih => simp [leBytes, ih]

theorem leBytes_getD (n x i : Nat) (h : i < n) : (leBytes n x).getD i 0 = BitVec.ofNat 8 (x / 256 ^ i) := by
  induction n generalizing x i with
  | zero => omega
  | succ n ih =>
    cases i with
    | zero => simp [leBytes]
    | succ i => simp only [leBytes, List.getD_cons_succ, ih (x / 256) i (by omega)]; rw [Nat.pow_succ', Nat.div_div_eq_div_mul]

theorem ofLeBytes_lt (bs : List Byte) : ofLeBytes bs < 256 ^ bs.length := by
  induction bs with
  | nil => simp [ofLeBytes]
  | cons b bs ih =>
    have := b.isLt
    simp only [ofLeBytes, List.length_cons, Nat.pow_succ']
    omega

theorem ofLeBytes_digit (bs : List Byte) (i : Nat) : BitVec.ofNat 8 (ofLeBytes bs / 256 ^ i) = bs.getD i 0 := by
  induction bs generalizing i with
  | nil => simp [ofLeBytes]
  | cons b bs ih =>
    cases i with
    | zero =>
      apply BitVec.eq_of_toNat_eq
      have hb := b.isLt
      simp only [ofLeBytes, Nat.pow_zero, Nat.div_one, BitVec.toNat_ofNat, List.getD_cons_zero]
      omega
    | succ i =>
      have hb := b.isLt
      rw [Nat.pow_succ', ← Nat.div_div_eq_div_mul]
      have : ofLeBytes (b :: bs) / 256 = ofLeBytes bs := by simp only [ofLeBytes]; omega
      rw [this, ih]; simp

/-! ### Encryption below the slices (R325) -/

/-- Consecutive bytes read back where they were put, and other bytes as before. -/
theorem memGet_cellsAt {m : Memory} (h : m.wf = true) (bs : List Byte) (a x : Nat) :
    memGet (memSets m (cellsAt a bs)) x = if a ≤ x ∧ x < a + bs.length then bs.getD (x - a) 0 else memGet m x := by
  unfold memSets
  induction bs generalizing m a with
  | nil => simp [cellsAt]
  | cons b bs ih =>
    simp only [cellsAt, List.foldl_cons, ih (memSet_wf a b h), memGet_memSet (lo := 0) h, List.length_cons]
    by_cases h1 : a + 1 ≤ x ∧ x < a + 1 + bs.length
    · have h2 : a ≤ x ∧ x < a + (bs.length + 1) := by omega
      obtain ⟨k, hk⟩ : ∃ k, x - a = k + 1 := ⟨x - a - 1, by omega⟩
      have h3 : x - (a + 1) = k := by omega
      simp [h1, h2, hk, h3]
    · by_cases h2 : x = a
      · subst h2; simp
      · rw [if_neg h1, if_neg h2, if_neg (by omega)]

/-- A byte of a number below 2^128. -/
theorem extract_byte (n i : Nat) (h : n < 2 ^ 128) : (BitVec.ofNat 128 n).extractLsb' (8 * i) 8 = BitVec.ofNat 8 (n / 256 ^ i) := by
  apply BitVec.eq_of_toNat_eq
  rw [BitVec.extractLsb'_toNat, BitVec.toNat_ofNat, BitVec.toNat_ofNat, Nat.mod_eq_of_lt h, Nat.shiftRight_eq_div_pow, Nat.pow_mul]

/-- A granule is the number of its bytes. -/
theorem granuleOf_byte (m : Memory) (g i : Nat) (hi : i < 16) : (granuleOf m g).extractLsb' (8 * i) 8 = memGet m (16 * g + i) := by
  unfold granuleOf
  have h1 := ofLeBytes_lt ((List.range 16).map fun k => memGet m (16 * g + k))
  have h2 := ofLeBytes_digit ((List.range 16).map fun k => memGet m (16 * g + k)) i
  have h3 : ((List.range 16).map fun k => memGet m (16 * g + k)).getD i 0 = memGet m (16 * g + i) := by
    rw [List.getD_eq_getElem _ _ (by simpa using hi)]; simp
  rw [List.length_map, List.length_range, show (256 : Nat) ^ 16 = 2 ^ 128 by norm_num] at h1
  generalize ofLeBytes ((List.range 16).map fun k => memGet m (16 * g + k)) = n at h1 h2
  rw [extract_byte n i h1, h2, h3]

/-- Granules with the same bytes are the same. -/
theorem granuleOf_congr {m n : Memory} {g : Nat} (h : ∀ i, i < 16 → memGet m (16 * g + i) = memGet n (16 * g + i)) :
    granuleOf m g = granuleOf n g := by
  unfold granuleOf
  congr 2
  exact List.map_congr_left fun k hk => h k (List.mem_range.mp hk)

/-- A granule put as 16 bytes reads back. -/
theorem granuleOf_put {m : Memory} (h : m.wf = true) (g : Nat) (x : BitVec 128) :
    granuleOf (memSets m (cellsAt (16 * g) (leBytes 16 x.toNat))) g = x := by
  apply BitVec.eq_of_getLsbD_eq
  intro j hj
  have h1 := granuleOf_byte (memSets m (cellsAt (16 * g) (leBytes 16 x.toNat))) g (j / 8) (by omega)
  rw [memGet_cellsAt h, leBytes_length, if_pos (by omega), Nat.add_sub_cancel_left, leBytes_getD _ _ _ (by omega)] at h1
  have h2 := congrArg (fun b : Byte => b.getLsbD (j % 8)) h1
  simp only [BitVec.getLsbD_extractLsb', BitVec.getLsbD_ofNat] at h2
  have h3 : 8 * (j / 8) + j % 8 = j := by omega
  have h4 : j % 8 < 8 := by omega
  rw [h3, decide_eq_true h4, Bool.true_and, Bool.true_and] at h2
  rw [h2, show (256 : Nat) ^ (j / 8) = 2 ^ (8 * (j / 8)) by rw [Nat.pow_mul], Nat.testBit_div_two_pow, Nat.add_comm, h3]
  rfl

/-- What is put leaves the bytes of other granules alone. -/
theorem memGet_keyPut_far {m : Memory} (h : m.wf = true) (k a x : Nat) (b : Byte) (hx : x / 16 ≠ a / 16) :
    memGet (keyPut m k a b) x = memGet m x := by
  unfold keyPut
  split
  · rw [memGet_memSet (lo := 0) h, if_neg (by omega)]
  · rw [memGet_cellsAt h, leBytes_length, if_neg (by omega)]

/-- A put keeps the canonical form. -/
theorem keyPut_wf {m : Memory} (k a : Nat) (b : Byte) (h : m.wf = true) : (keyPut m k a b).wf = true := by
  unfold keyPut
  split
  · exact memSet_wf _ _ h
  · exact memSets_wf _ h

/-- What is put leaves other granules alone, under every key. -/
theorem keyGet_keyPut_far {m : Memory} (h : m.wf = true) (k j a x : Nat) (b : Byte) (hx : x / 16 ≠ a / 16) :
    keyGet (keyPut m k a b) j x = keyGet m j x := by
  have hg : granuleOf (keyPut m k a b) (x / 16) = granuleOf m (x / 16) :=
    granuleOf_congr fun i hi => memGet_keyPut_far h _ _ _ _ (by omega)
  unfold keyGet
  rw [hg, memGet_keyPut_far h _ _ _ _ hx]

/-- One granule lies in HBM or outside it. -/
theorem belowKey_granule (k : Nat) {a x : Nat} (h : x / 16 = a / 16) : belowKey k x = belowKey k a := by
  unfold belowKey isHbm
  have : (x < 0x8000000000) = (a < 0x8000000000) := propext ⟨fun _ => by omega, fun _ => by omega⟩
  simp only [this]

/-- A byte put under a key reads back under that key, and other bytes read as before. -/
theorem keyGet_keyPut {m : Memory} (h : m.wf = true) (k a x : Nat) (b : Byte) :
    keyGet (keyPut m k a b) k x = if x = a then b else keyGet m k x := by
  by_cases hx : x / 16 = a / 16
  · have hk := belowKey_granule k hx
    by_cases h0 : belowKey k a = 0
    · unfold keyGet keyPut
      rw [if_pos (hk.trans h0), if_pos (hk.trans h0), if_pos h0, memGet_memSet (lo := 0) h]
    · have h1 : ¬belowKey k x = 0 := by rw [hk]; exact h0
      have hput : keyPut m k a b = memSets m (cellsAt (16 * (a / 16)) (leBytes 16 (Config.cipher k (a / 16) (BitVec.ofNat 128 (ofLeBytes
          ((leBytes 16 (Config.plain k (a / 16) (granuleOf m (a / 16))).toNat).set (a % 16) b)))).toNat)) := by
        unfold keyPut; rw [if_neg h0, Nat.mul_comm (a / 16) 16]
      have hd : ∀ y, Config.plain k (a / 16) (Config.cipher k (a / 16) y) = y := fun y =>
        (@Config.xts Cipher.inhabited k (a / 16)).dec_enc y
      unfold keyGet plainByte
      rw [if_neg h1, if_neg h1, hx, hput, granuleOf_put h, hd]
      generalize Config.plain k (a / 16) (granuleOf m (a / 16)) = p
      have hl := ofLeBytes_lt ((leBytes 16 p.toNat).set (a % 16) b)
      have hi := ofLeBytes_digit ((leBytes 16 p.toNat).set (a % 16) b) (x % 16)
      rw [List.length_set, leBytes_length, show (256 : Nat) ^ 16 = 2 ^ 128 by norm_num] at hl
      rw [extract_byte _ _ hl, hi, List.getD_eq_getElem _ _ (by rw [List.length_set, leBytes_length]; omega), List.getElem_set]
      by_cases hxa : x = a
      · simp [hxa]
      · rw [if_neg (by omega), if_neg hxa, ← List.getD_eq_getElem _ 0 (by rw [leBytes_length]; omega), leBytes_getD _ _ _ (by omega)]
        have he := extract_byte p.toNat (x % 16) p.isLt
        rw [BitVec.ofNat_toNat, BitVec.setWidth_eq] at he
        exact he.symm
  · rw [keyGet_keyPut_far h _ _ _ _ _ hx, if_neg (fun e => hx (by rw [e]))]

/-! ### Sectors that leave and enter (R19, R228, R332, R334) -/

/-- A memory side whose memory is canonical and whose L2 sectors have 64 bytes. -/
def Sound (ms : MemSide) : Prop := ms.mem.wf = true ∧ ∀ x ∈ ms.l2, x.data.length = 64

/-- No retained copy is newer than the last place in the device order (R210, R212). -/
def Stamped (ms : MemSide) : Prop := ∀ r ∈ ms.retained, r.1 ≤ ms.stamp

/-- Several bytes put under one key keep the canonical form. -/
theorem keyPuts_wf {m : Memory} (k : Nat) (cs : List Host.Cell) (h : m.wf = true) :
    (cs.foldl (fun m c => keyPut m k c.1 c.2) m).wf = true := by
  induction cs generalizing m with
  | nil => exact h
  | cons c cs ih => exact ih (keyPut_wf k c.1 c.2 h)

/-- Consecutive bytes put under a key read back. -/
theorem keyGet_puts {m : Memory} (h : m.wf = true) (k : Nat) (bs : List Byte) (a x : Nat) :
    keyGet ((cellsAt a bs).foldl (fun m c => keyPut m k c.1 c.2) m) k x
      = if a ≤ x ∧ x < a + bs.length then bs.getD (x - a) 0 else keyGet m k x := by
  induction bs generalizing m a with
  | nil => simp [cellsAt]
  | cons b bs ih =>
    simp only [cellsAt, List.foldl_cons, ih (keyPut_wf k a b h), keyGet_keyPut h, List.length_cons]
    by_cases h1 : a + 1 ≤ x ∧ x < a + 1 + bs.length
    · have h2 : a ≤ x ∧ x < a + (bs.length + 1) := by omega
      obtain ⟨j, hj⟩ : ∃ j, x - a = j + 1 := ⟨x - a - 1, by omega⟩
      have h3 : x - (a + 1) = j := by omega
      simp [h1, h2, hj, h3]
    · by_cases h2 : x = a
      · subst h2; simp
      · rw [if_neg h1, if_neg h2, if_neg (by omega)]

/-- Bytes put in a sector leave other sectors alone, under every key. -/
theorem keyGet_puts_far {m : Memory} (h : m.wf = true) (k j : Nat) (bs : List Byte) (n i x : Nat) (hb : i + bs.length ≤ 64)
    (hx : x / 64 ≠ n) :
    keyGet ((cellsAt (64 * n + i) bs).foldl (fun m c => keyPut m k c.1 c.2) m) j x = keyGet m j x
      ∧ memGet ((cellsAt (64 * n + i) bs).foldl (fun m c => keyPut m k c.1 c.2) m) x = memGet m x := by
  induction bs generalizing m i with
  | nil => exact ⟨rfl, rfl⟩
  | cons b bs ih =>
    simp only [List.length_cons] at hb
    simp only [cellsAt, List.foldl_cons]
    have := ih (keyPut_wf k (64 * n + i) b h) (i + 1) (by omega)
    rw [← Nat.add_assoc] at this
    rw [this.1, this.2, keyGet_keyPut_far h _ _ _ _ _ (by omega), memGet_keyPut_far h _ _ _ _ (by omega)]
    exact ⟨rfl, rfl⟩

/-- A memory side after steps that only add to the device order: sound, and no retained copy is newer than its last place. -/
structure Grows (ms ms' : MemSide) : Prop where
  sound : Sound ms → Sound ms'
  stamped : Stamped ms → Stamped ms'
  stamp : ms.stamp ≤ ms'.stamp

theorem Grows.refl (ms : MemSide) : Grows ms ms := ⟨id, id, le_refl _⟩

theorem Grows.trans {a b c : MemSide} (h : Grows a b) (k : Grows b c) : Grows a c :=
  ⟨k.sound ∘ h.sound, k.stamped ∘ h.stamped, le_trans h.stamp k.stamp⟩

/-- Any number of steps, each of which grows. -/
theorem Grows.foldl {α : Type} (f : MemSide → α → MemSide) (xs : List α) (ms : MemSide) (h : ∀ ms x, x ∈ xs → Grows ms (f ms x)) :
    Grows ms (xs.foldl f ms) := by
  induction xs generalizing ms with
  | nil => exact Grows.refl ms
  | cons x xs ih =>
    exact (h ms x (List.mem_cons_self ..)).trans (ih _ fun ms y hy => h ms y (List.mem_cons_of_mem _ hy))

theorem writeBack_grows (v : L2View) (ms : MemSide) (x : Sector) : Grows ms (writeBack v ms x) := by
  unfold writeBack
  split
  · refine ⟨fun h => ⟨keyPuts_wf _ _ h.1, fun y hy => ?_⟩, fun h => h, le_refl _⟩
    obtain ⟨z, hz, rfl⟩ := List.mem_map.mp hy
    split
    · exact h.2 z hz
    · exact h.2 z hz
  · exact Grows.refl ms

theorem dropSector_grows (ms : MemSide) (x : Sector) : Grows ms (dropSector ms x) := by
  unfold dropSector
  simp only
  split
  · exact ⟨fun h => ⟨h.1, fun y hy => h.2 y (List.mem_filter.mp hy).1⟩, fun h => h, le_refl _⟩
  · refine ⟨fun h => ⟨h.1, fun y hy => h.2 y (List.mem_filter.mp hy).1⟩, fun h r hr => ?_, Nat.le_succ _⟩
    simp only [List.mem_append, List.mem_map] at hr
    rcases hr with hr | ⟨c, -, rfl⟩
    · exact Nat.le_succ_of_le (h r hr)
    · exact le_refl _

theorem flushSector_grows (v : L2View) (ms : MemSide) (x : Sector) : Grows ms (flushSector v ms x) := by
  unfold flushSector
  split
  · exact (writeBack_grows _ _ _).trans (dropSector_grows _ _)
  · exact Grows.refl ms

theorem ageLines_grows (ms : MemSide) (ls : List Nat) (n : Nat) : Grows ms (ageLines ms ls n) := by
  unfold ageLines
  split
  · exact Grows.refl ms
  · refine ⟨fun h => ⟨h.1, fun y hy => ?_⟩, fun h => h, le_refl _⟩
    obtain ⟨z, hz, rfl⟩ := List.mem_map.mp hy
    split <;> exact h.2 z hz

theorem takeVictim_grows {v : L2View} {ms ms' : MemSide} {cs : List Cand} {w : Nat} (h : takeVictim v ms cs = some (w, ms')) :
    Grows ms ms' := by
  unfold takeVictim at h
  obtain ⟨x, -, hx⟩ := Option.map_eq_some_iff.mp h
  obtain ⟨-, rfl⟩ := Prod.mk.inj hx
  exact (ageLines_grows ..).trans (Grows.foldl _ _ _ fun ms y _ => flushSector_grows v ms y)

theorem makeWay_grows {v : L2View} {ms ms' : MemSide} {n w : Nat} (h : makeWay v ms n = some (w, ms')) : Grows ms ms' := by
  unfold makeWay at h
  simp only at h
  split at h
  · exact takeVictim_grows h
  · split at h
    · simp only [Option.some.injEq, Prod.mk.injEq] at h; exact h.2 ▸ Grows.refl ms
    · exact takeVictim_grows h

/-- A new sector keeps the sectors whole. -/
theorem freshSector_grows (ms : MemSide) (n p w r k : Nat) : Grows ms { ms with l2 := freshSector ms n p w r k :: ms.l2 } := by
  refine ⟨fun h => ⟨h.1, fun y hy => ?_⟩, fun h => h, le_refl _⟩
  rcases List.mem_cons.mp hy with rfl | hy
  · simp [freshSector]
  · exact h.2 y hy

/-- The soft errors that a fill corrects touch nothing else. -/
theorem softFill_grows (ms : MemSide) (n : Nat) : Grows ms (softFill ms n) := ⟨fun h => h, fun h => h, le_refl _⟩

/-- A fill keeps memory canonical and the sectors whole. -/
theorem l2Fill_grows (v : L2View) (i : Ins) (ms : MemSide) (n : Nat) : Grows ms (l2Fill v i ms n) := by
  unfold l2Fill
  split
  · exact Grows.refl ms
  · split
    · exact Grows.refl ms
    · split
      · exact (freshSector_grows ..).trans (softFill_grows _ n)
      · split
        · exact Grows.refl ms
        · rename_i h; exact ((makeWay_grows h).trans (freshSector_grows ..)).trans (softFill_grows _ n)

theorem l2Touch_grows (v : L2View) (i : Ins) (ms : MemSide) (n : Nat) : Grows ms (l2Touch v i ms n) := by
  unfold l2Touch
  split
  · split
    · exact Grows.refl ms
    · refine ⟨fun h => ⟨h.1, fun y hy => ?_⟩, fun h => h, le_refl _⟩
      obtain ⟨z, hz, rfl⟩ := List.mem_map.mp hy
      split <;> exact h.2 z hz
  · exact l2Fill_grows ..

/-- Putting a byte keeps memory canonical and the sectors whole. -/
theorem putByte_grows (ins : Nat → Ins) (ms : MemSide) (c : Host.Cell) : Grows ms (putByte ins ms c) := by
  unfold putByte
  split
  · split
    · refine ⟨fun h => ⟨h.1, fun y hy => ?_⟩, fun h => h, le_refl _⟩
      obtain ⟨z, hz, rfl⟩ := List.mem_map.mp hy
      split
      · simp [h.2 z hz]
      · exact h.2 z hz
    · exact ⟨fun h => ⟨keyPut_wf _ _ _ h.1, h.2⟩, fun h => h, le_refl _⟩
  · exact ⟨fun h => ⟨memSet_wf _ _ h.1, h.2⟩, fun h => h, le_refl _⟩

/-- Putting a byte takes no place in the device order and keeps no copy. -/
theorem putBytes_order (ins : Nat → Ins) (cs : List Host.Cell) (ms : MemSide) :
    (cs.foldl (putByte ins) ms).stamp = ms.stamp ∧ (cs.foldl (putByte ins) ms).retained = ms.retained := by
  induction cs generalizing ms with
  | nil => exact ⟨rfl, rfl⟩
  | cons c cs ih =>
    have : (putByte ins ms c).stamp = ms.stamp ∧ (putByte ins ms c).retained = ms.retained := by
      unfold putByte; split
      · split <;> exact ⟨rfl, rfl⟩
      · exact ⟨rfl, rfl⟩
    exact ⟨(ih _).1.trans this.1, (ih _).2.trans this.2⟩

/-- Copies kept at the next place in the order. -/
theorem stamped_append {old : List (Nat × Nat × Byte)} {st : Nat} {cs : List Host.Cell} {f : Host.Cell → Byte}
    (h : ∀ r ∈ old, r.1 ≤ st) : ∀ r ∈ old ++ cs.map (fun c => (st + 1, c.1, f c)), r.1 ≤ st + 1 := by
  intro r hr
  simp only [List.mem_append, List.mem_map] at hr
  rcases hr with hr | ⟨c, -, rfl⟩
  · exact Nat.le_succ_of_le (h r hr)
  · exact le_refl _

/-- A commit keeps memory canonical and the sectors whole; it takes the next place in the device order, and what it retains is no
newer (R210, R212). -/
theorem commit_grows (v : L2View) (ins : Nat → Ins) (ms : MemSide) (cells : List Host.Cell) : Grows ms (commit v ins ms cells) := by
  unfold commit
  cases cells with
  | nil => exact Grows.refl ms
  | cons c cs =>
    simp only
    have h1 := Grows.foldl (fun ms n => l2Fill v (ins n) ms n) (sectorsOf (c :: cs)) ms fun ms n _ => l2Fill_grows v (ins n) ms n
    generalize (sectorsOf (c :: cs)).foldl (fun ms n => l2Fill v (ins n) ms n) ms = m at h1 ⊢
    generalize c :: cs = l
    have h2 := Grows.foldl (putByte ins) l m fun ms x _ => putByte_grows ins ms x
    exact ⟨fun h => (h2.sound (h1.sound h)), fun h => stamped_append (h1.stamped h), Nat.le_succ_of_le h1.stamp⟩

/-- A write below the L2 keeps what `commit_grows` says (R221, R223). -/
theorem commitBelow_grows (ms : MemSide) (cells : List Host.Cell) : Grows ms (commitBelow ms cells) := by
  unfold commitBelow
  cases cells with
  | nil => exact Grows.refl ms
  | cons c cs => exact ⟨fun h => ⟨memSets_wf _ h.1, h.2⟩, fun h => stamped_append h, Nat.le_succ _⟩

/-- Immediate writes keep what `commit_grows` says (R215). -/
theorem commitAll_grows (v : L2View) (ins : Nat → Ins) (ms : MemSide) (cells : List Host.Cell) :
    Grows ms (commitAll v ins ms cells) := (commit_grows ..).trans (commitBelow_grows ..)

/-- Dropping retained copies, and what homes superseded, changes nothing else. -/
theorem purge_ms (s : State) :
    (purge s).ms = { s.ms with retained := (purge s).ms.retained, rawOld := (purge s).ms.rawOld, homeOld := (purge s).ms.homeOld }
    ∧ ∀ r ∈ (purge s).ms.retained, r ∈ s.ms.retained :=
  ⟨rfl, fun _ hr => (List.mem_filter.mp hr).1⟩

/-- An immediate write keeps memory canonical, and the invariant's bounds (R215). -/
theorem immediateAs_grows (s : State) (ins : Nat → Ins) (cells : List Host.Cell) : Grows s.ms (immediateAs s ins cells).ms := by
  have h := commitAll_grows (l2View s) ins s.ms cells
  exact ⟨fun k => h.sound k, fun k r hr => h.stamped k r ((purge_ms _).2 r hr), h.stamp⟩

theorem immediate_grows (s : State) (cells : List Host.Cell) : Grows s.ms (immediate s cells).ms := immediateAs_grows ..

/-! ### What fills and evictions leave as it was (R19, R208, R211) -/

/-- Memory as it would stand with a sector's bytes written back. -/
def flushedMem (ms : MemSide) (n : Nat) : Memory :=
  match l2Find ms n with
  | some y => if y.dirty then (cellsAt (64 * y.num) y.data).foldl (fun m c => keyPut m y.key c.1 c.2) ms.mem else ms.mem
  | none => ms.mem

/-- A memory side after lines have entered or left the L2: it is coherent, what memory would hold with everything written back is the
same, and no place in the device order is taken. -/
structure Moves (ms ms' : MemSide) : Prop where
  coherent : Coherent ms'
  bytes : ∀ a, memGet (flushedMem ms' (a / 64)) a = memGet (flushedMem ms (a / 64)) a
  stamp : ms'.stamp = ms.stamp
  retained : ms'.retained = ms.retained
  rawOld : ms'.rawOld = ms.rawOld

theorem Moves.refl {ms : MemSide} (h : Coherent ms) : Moves ms ms := ⟨h, fun _ => rfl, rfl, rfl, rfl⟩

theorem Moves.trans {a b c : MemSide} (h : Moves a b) (k : Moves b c) : Moves a c :=
  ⟨k.coherent, fun x => (k.bytes x).trans (h.bytes x), k.stamp.trans h.stamp, k.retained.trans h.retained, k.rawOld.trans h.rawOld⟩

theorem l2Find_mem {ms : MemSide} {n : Nat} {y : Sector} (h : l2Find ms n = some y) : y ∈ ms.l2 ∧ y.num = n :=
  ⟨List.mem_of_find?_eq_some h, by simpa using List.find?_some h⟩

/-- A cacheable sector's bytes are cacheable. -/
theorem isCached_sector {n a : Nat} (h : isCached (64 * n) = true) (ha : a / 64 = n) : isCached a = true := by
  simp only [isCached, isHbm, isCxl, Bool.or_eq_true, decide_eq_true_eq] at h ⊢
  omega

/-- A key reads a byte alike where the bytes of its sector are alike. -/
theorem keyGet_congr {m n : Memory} {k a : Nat} (h : ∀ x, x / 64 = a / 64 → memGet m x = memGet n x) : keyGet m k a = keyGet n k a := by
  unfold keyGet
  rw [granuleOf_congr fun i hi => h (16 * (a / 16) + i) (by omega), h a rfl]

/-- The committed byte is the one that memory would give with its sector written back. -/
theorem commByteK_flushed {ms : MemSide} {k a : Nat} (h : Coherent ms) (hr : isRaw a = false) (hk : KeyHeld ms k a) :
    commByteK ms k a = if isCached a then keyGet (flushedMem ms (a / 64)) k a else memGet (flushedMem ms (a / 64)) a := by
  unfold commByteK flushedMem
  simp only [hr, Bool.false_eq_true, ↓reduceIte]
  cases hf : l2Find ms (a / 64) with
  | none => rfl
  | some y =>
    obtain ⟨hy, hn⟩ := l2Find_mem hf
    obtain ⟨hl, hc, hcl⟩ := h.2 y hy
    have hca := isCached_sector hc hn.symm
    have hkey := hk y hy hn
    simp only [hca, ↓reduceIte]
    by_cases hd : y.dirty = true
    · rw [if_pos hd, hkey, keyGet_puts h.1, hn, if_pos (by omega)]
      congr 1; omega
    · rw [if_neg hd]
      have := hcl (by simpa using hd) (a % 64) (by omega)
      rw [hkey, hn, show 64 * (a / 64) + a % 64 = a by omega] at this
      exact this.symm

/-- The bytes of other sectors stay as they stand in memory when a sector is written back. -/
theorem memGet_flushed_far {ms : MemSide} (h : Coherent ms) {n a : Nat} (ha : a / 64 ≠ n) : memGet (flushedMem ms n) a = memGet ms.mem a := by
  unfold flushedMem
  cases hf : l2Find ms n with
  | none => rfl
  | some y =>
    obtain ⟨hy, hn⟩ := l2Find_mem hf
    simp only
    split
    · exact (keyGet_puts_far h.1 y.key 0 y.data y.num 0 a (by have := (h.2 y hy).1; omega) (by rw [hn]; exact ha)).2
    · rfl

/-- Two memories alike in a sector are alike there after the same byte is put. -/
theorem memGet_keyPut_congr {m n : Memory} (hm : m.wf = true) (hn : n.wf = true) {k a x : Nat} {b : Byte}
    (h : ∀ y, y / 64 = a / 64 → memGet m y = memGet n y) (hx : x / 64 = a / 64) :
    memGet (keyPut m k a b) x = memGet (keyPut n k a b) x := by
  unfold keyPut
  rw [granuleOf_congr (m := m) (n := n) fun i hi => h _ (by omega)]
  split
  · rw [memGet_memSet (lo := 0) hm, memGet_memSet (lo := 0) hn, h x hx]
  · rw [memGet_cellsAt hm, memGet_cellsAt hn, h x hx]

theorem memGet_puts_congr {m n : Memory} (hm : m.wf = true) (hn : n.wf = true) {k : Nat} {bs : List Byte} {s i : Nat} {x : Nat}
    (h : ∀ y, y / 64 = s → memGet m y = memGet n y) (hb : i + bs.length ≤ 64) (hx : x / 64 = s) :
    memGet ((cellsAt (64 * s + i) bs).foldl (fun m c => keyPut m k c.1 c.2) m) x
      = memGet ((cellsAt (64 * s + i) bs).foldl (fun m c => keyPut m k c.1 c.2) n) x := by
  induction bs generalizing m n i with
  | nil => exact h x hx
  | cons b bs ih =>
    simp only [List.length_cons] at hb
    simp only [cellsAt, List.foldl_cons]
    rw [Nat.add_assoc]
    exact ih (keyPut_wf _ _ _ hm) (keyPut_wf _ _ _ hn)
      (fun y hy => memGet_keyPut_congr hm hn (fun z hz => h z (by omega)) (by omega)) (by omega)

/-- The L2 keeps another sector when one is dropped. -/
theorem l2Find_filter (ms : MemSide) {n m : Nat} (h : m ≠ n) :
    (ms.l2.filter fun y => y.num != n).find? (fun x => x.num == m) = ms.l2.find? fun x => x.num == m := by
  rw [List.find?_filter]
  congr 1
  funext x
  by_cases hx : x.num = m
  · simp [hx, h]
  · simp [hx]

/-- Flushing a sector of a coherent L2 writes its bytes to memory and drops it: nothing else. -/
theorem flushSector_moves (v : L2View) {ms : MemSide} (h : Coherent ms) (x : Sector) : Moves ms (flushSector v ms x) := by
  unfold flushSector
  cases hf : l2Find ms x.num with
  | none => exact Moves.refl h
  | some y =>
    obtain ⟨hy, hn⟩ := l2Find_mem hf
    obtain ⟨hl, hc, hcl⟩ := h.2 y hy
    have hfl : flushedMem ms y.num = (writeBack v ms y).mem := by
      have hf' : l2Find ms y.num = some y := hn.symm ▸ hf
      unfold flushedMem writeBack
      simp only [hf']
      split <;> rfl
    have hwf : (writeBack v ms y).mem.wf = true := by
      unfold writeBack
      split
      · exact keyPuts_wf _ _ h.1
      · exact h.1
    have hold : ((cellsAt (64 * y.num) y.data).filter fun c => keyGet (writeBack v ms y).mem y.key c.1 != c.2) = [] := by
      rw [List.filter_eq_nil_iff]
      intro c hc'
      have hcell : ∀ (bs : List Byte) (a : Nat), c ∈ cellsAt a bs → a ≤ c.1 ∧ c.1 < a + bs.length ∧ bs.getD (c.1 - a) 0 = c.2 := by
        intro bs
        induction bs with
        | nil => intro a hm; simp [cellsAt] at hm
        | cons b bs ih =>
          intro a hm
          simp only [cellsAt, List.mem_cons] at hm
          rcases hm with rfl | hm
          · simp
          · obtain ⟨h1, h2, h3⟩ := ih (a + 1) hm
            refine ⟨by omega, by simp only [List.length_cons]; omega, ?_⟩
            obtain ⟨j, hj⟩ : ∃ j, c.1 - a = j + 1 := ⟨c.1 - a - 1, by omega⟩
            rw [hj, List.getD_cons_succ, ← h3]
            congr 1; omega
      obtain ⟨h1, h2, h3⟩ := hcell _ _ hc'
      simp only [bne_iff_ne, ne_eq, Decidable.not_not]
      unfold writeBack
      split
      · rw [keyGet_puts h.1, if_pos ⟨h1, h2⟩, h3]
      · rename_i hd
        have := hcl (by simpa using hd) (c.1 - 64 * y.num) (by omega)
        rw [show 64 * y.num + (c.1 - 64 * y.num) = c.1 by omega, h3] at this
        exact this
    have hl2 : (writeBack v ms y).l2.filter (fun z => z.num != y.num) = ms.l2.filter fun z => z.num != y.num := by
      unfold writeBack
      split
      · simp only [List.filter_map]
        have : (fun z : Sector => z.num != y.num) ∘ (fun z : Sector => if (z.num == y.num) = true then { z with dirty := false } else z)
            = fun z => z.num != y.num := by
          funext z; simp only [Function.comp]; split <;> rfl
        rw [this]
        conv => rhs; rw [← List.map_id (ms.l2.filter _)]
        refine List.map_congr_left fun z hz => ?_
        have := (List.mem_filter.mp hz).2
        simp only [bne_iff_ne, ne_eq] at this
        simp [this]
      · rfl
    have hw : dropSector (writeBack v ms y) y = { writeBack v ms y with l2 := ms.l2.filter fun z => z.num != y.num } := by
      unfold dropSector
      simp only [hold, hl2]
    have hst : (writeBack v ms y).stamp = ms.stamp ∧ (writeBack v ms y).retained = ms.retained ∧ (writeBack v ms y).rawOld = ms.rawOld := by
      unfold writeBack; split <;> exact ⟨rfl, rfl, rfl⟩
    simp only [hw]
    have hfar : ∀ a, a / 64 ≠ y.num → memGet (writeBack v ms y).mem a = memGet ms.mem a := fun a ha => by
      rw [← hfl]; exact memGet_flushed_far h ha
    refine ⟨⟨hwf, fun z hz => ?_⟩, fun a => ?_, hst.1, hst.2.1, hst.2.2⟩
    · obtain ⟨hz1, hz2⟩ := List.mem_filter.mp hz
      simp only [bne_iff_ne, ne_eq] at hz2
      obtain ⟨k1, k2, k3⟩ := h.2 z hz1
      refine ⟨k1, k2, fun hd i hi => ?_⟩
      rw [← k3 hd i hi]
      exact keyGet_congr fun b hb => hfar b (by omega)
    · by_cases ha : a / 64 = y.num
      · rw [ha, hfl]
        unfold flushedMem l2Find
        have : (ms.l2.filter fun z => z.num != y.num).find? (fun z => z.num == y.num) = none := by
          rw [List.find?_eq_none]; intro z hz
          have := (List.mem_filter.mp hz).2
          simpa using this
        simp only [this]
      · unfold flushedMem l2Find
        simp only [l2Find_filter ms ha]
        cases hz : ms.l2.find? fun x => x.num == a / 64 with
        | none => exact hfar a ha
        | some z =>
          obtain ⟨hz1, hz2⟩ := l2Find_mem (ms := ms) hz
          simp only
          split
          · have := (h.2 z hz1).1
            rw [hz2]
            exact memGet_puts_congr (i := 0) hwf h.1 (fun b hb => hfar b (by rw [hb]; exact ha)) (by omega) rfl
          · exact hfar a ha

/-- Sectors that change only how replacement sees them. -/
theorem map_moves {ms : MemSide} (h : Coherent ms) (f : Sector → Sector)
    (hf : ∀ x, (f x).num = x.num ∧ (f x).dirty = x.dirty ∧ (f x).key = x.key ∧ (f x).data = x.data) :
    Moves ms { ms with l2 := ms.l2.map f } := by
  refine ⟨⟨h.1, fun x hx => ?_⟩, fun a => ?_, rfl, rfl, rfl⟩
  · obtain ⟨y, hy, rfl⟩ := List.mem_map.mp hx
    obtain ⟨h1, h2, h3, h4⟩ := hf y
    rw [h1, h2, h3, h4]
    exact h.2 y hy
  · unfold flushedMem l2Find
    simp only [List.find?_map]
    have : ((fun x : Sector => x.num == a / 64) ∘ f) = fun x => x.num == a / 64 := by
      funext x; simp only [Function.comp, (hf x).1]
    rw [this]
    cases ms.l2.find? fun x => x.num == a / 64 with
    | none => rfl
    | some y =>
      obtain ⟨h1, h2, h3, h4⟩ := hf y
      simp only [Option.map_some, h1, h2, h3, h4]

theorem ageLines_moves {ms : MemSide} (h : Coherent ms) (ls : List Nat) (n : Nat) : Moves ms (ageLines ms ls n) := by
  unfold ageLines
  split
  · exact Moves.refl h
  · exact map_moves h _ fun x => by split <;> exact ⟨rfl, rfl, rfl, rfl⟩

theorem evictLine_moves (v : L2View) {ms : MemSide} (h : Coherent ms) (line : Nat) : Moves ms (evictLine v ms line) := by
  unfold evictLine
  generalize ms.l2.filter (fun x => x.num / 2 == line) = xs
  induction xs generalizing ms with
  | nil => exact Moves.refl h
  | cons x xs ih =>
    have h1 := flushSector_moves v h x
    exact h1.trans (ih h1.coherent)

theorem takeVictim_moves {v : L2View} {ms ms' : MemSide} {cs : List Cand} {w : Nat} (hc : Coherent ms)
    (h : takeVictim v ms cs = some (w, ms')) : Moves ms ms' := by
  unfold takeVictim at h
  obtain ⟨x, -, hx⟩ := Option.map_eq_some_iff.mp h
  obtain ⟨-, rfl⟩ := Prod.mk.inj hx
  have h1 := ageLines_moves hc x.2.1 x.2.2
  exact h1.trans (evictLine_moves v h1.coherent _)

theorem makeWay_moves {v : L2View} {ms ms' : MemSide} {n w : Nat} (hc : Coherent ms) (h : makeWay v ms n = some (w, ms')) :
    Moves ms ms' := by
  unfold makeWay at h
  simp only at h
  split at h
  · exact takeVictim_moves hc h
  · split at h
    · simp only [Option.some.injEq, Prod.mk.injEq] at h; exact h.2 ▸ Moves.refl hc
    · exact takeVictim_moves hc h

/-- A sector enters as memory gives it. -/
theorem freshSector_moves {ms : MemSide} (h : Coherent ms) {n p w r k : Nat} (hc : isCached (64 * n) = true) (hn : l2Find ms n = none) :
    Moves ms { ms with l2 := freshSector ms n p w r k :: ms.l2 } := by
  refine ⟨⟨h.1, fun x hx => ?_⟩, fun a => ?_, rfl, rfl, rfl⟩
  · rcases List.mem_cons.mp hx with rfl | hx
    · refine ⟨by simp [freshSector], hc, fun _ i hi => ?_⟩
      simp [freshSector, hi]
    · exact h.2 x hx
  · unfold flushedMem l2Find
    by_cases ha : n = a / 64
    · subst ha
      simp only [List.find?_cons, freshSector, beq_self_eq_true, Bool.false_eq_true, ↓reduceIte]
      unfold l2Find at hn
      rw [hn]
    · have : ((freshSector ms n p w r k).num == a / 64) = false := by simpa [freshSector] using ha
      simp only [List.find?_cons, this]

/-- What a line's entry of a free way does to a set: a flushed line is gone. -/
theorem l2Find_flush (v : L2View) {ms : MemSide} (x : Sector) {n : Nat} (h : l2Find ms n = none) : l2Find (flushSector v ms x) n = none := by
  have hf : ∀ z ∈ ms.l2, z.num ≠ n := fun z hz e => by
    unfold l2Find at h
    exact (List.find?_eq_none.mp h) z hz (by simp [e])
  have hw : ∀ y, ∀ z ∈ (writeBack v ms y).l2, z.num ≠ n := by
    intro y z hz
    unfold writeBack at hz
    split at hz
    · obtain ⟨u, hu, rfl⟩ := List.mem_map.mp hz
      split <;> exact hf u hu
    · exact hf z hz
  unfold l2Find
  rw [List.find?_eq_none]
  intro z hz
  unfold flushSector at hz
  split at hz
  · rename_i y _
    unfold dropSector at hz
    simp only at hz
    split at hz
    · have := hw y z (List.mem_filter.mp hz).1; simpa using this
    · have := hw y z (List.mem_filter.mp hz).1; simpa using this
  · simpa using hf z hz

theorem l2Find_makeWay {v : L2View} {ms ms' : MemSide} {n w : Nat} (hn : l2Find ms n = none) (h : makeWay v ms n = some (w, ms')) :
    l2Find ms' n = none := by
  have hv : ∀ {cs : List Cand}, takeVictim v ms cs = some (w, ms') → l2Find ms' n = none := by
    intro cs h
    unfold takeVictim at h
    obtain ⟨x, -, hx⟩ := Option.map_eq_some_iff.mp h
    obtain ⟨-, rfl⟩ := Prod.mk.inj hx
    have ha : l2Find (ageLines ms x.2.1 x.2.2) n = none := by
      unfold ageLines
      split
      · exact hn
      · unfold l2Find at hn ⊢
        rw [List.find?_eq_none] at hn ⊢
        intro z hz
        obtain ⟨u, hu, rfl⟩ := List.mem_map.mp hz
        split <;> exact hn u hu
    unfold evictLine
    generalize (ageLines ms x.2.1 x.2.2).l2.filter (fun y => y.num / 2 == x.1.line) = xs
    generalize ageLines ms x.2.1 x.2.2 = m at ha
    induction xs generalizing m with
    | nil => exact ha
    | cons y ys ih => exact ih _ (l2Find_flush v y ha)
  unfold makeWay at h
  simp only at h
  split at h
  · exact hv h
  · split at h
    · simp only [Option.some.injEq, Prod.mk.injEq] at h; exact h.2 ▸ hn
    · exact hv h

/-- The soft errors that a fill corrects are no bytes. -/
theorem softFill_moves {ms : MemSide} (h : Coherent ms) (n : Nat) : Moves ms (softFill ms n) := ⟨h, fun _ => rfl, rfl, rfl, rfl⟩

/-- A fill brings a line in and may put another out: nothing else (R19, R332, R334). -/
theorem l2Fill_moves (v : L2View) (i : Ins) {ms : MemSide} (h : Coherent ms) (n : Nat) : Moves ms (l2Fill v i ms n) := by
  unfold l2Fill
  split
  · exact Moves.refl h
  · rename_i hc
    have hc : isCached (64 * n) = true := by
      simp only [Bool.or_eq_true, Bool.not_eq_true', not_or, Bool.not_eq_false] at hc; exact hc.1.1
    split
    · exact Moves.refl h
    · rename_i hn
      split
      · refine (freshSector_moves h hc hn).trans (softFill_moves ?_ n)
        exact (freshSector_moves h hc hn).coherent
      · split
        · exact Moves.refl h
        · rename_i hw
          have h1 := makeWay_moves h hw
          refine (h1.trans (freshSector_moves h1.coherent hc (l2Find_makeWay hn hw))).trans (softFill_moves ?_ n)
          exact (freshSector_moves h1.coherent hc (l2Find_makeWay hn hw)).coherent

/-- So does a read that finds its line or fills it. -/
theorem l2Touch_moves (v : L2View) (i : Ins) {ms : MemSide} (h : Coherent ms) (n : Nat) : Moves ms (l2Touch v i ms n) := by
  unfold l2Touch
  split
  · split
    · exact Moves.refl h
    · exact map_moves h _ fun x => by split <;> exact ⟨rfl, rfl, rfl, rfl⟩
  · exact l2Fill_moves v i h n

/-- Lines that come and go leave every committed byte as it was, under the key that the L2 holds it with. -/
theorem Moves.commByteK {ms ms' : MemSide} (h : Coherent ms) (m : Moves ms ms') {k a : Nat} (hr : isRaw a = false) (hk : KeyHeld ms k a)
    (hk' : KeyHeld ms' k a) : commByteK ms' k a = commByteK ms k a := by
  have e : ∀ x, x / 64 = a / 64 → memGet (flushedMem ms' (a / 64)) x = memGet (flushedMem ms (a / 64)) x := fun x hx => by
    have := m.bytes x; rwa [hx] at this
  rw [commByteK_flushed m.coherent hr hk', commByteK_flushed h hr hk, keyGet_congr e, e a rfl]

/-- So does every byte a team reads (R211). -/
theorem Moves.readByte {ms ms' : MemSide} (h : Coherent ms) (m : Moves ms ms') (v : Version) {k a : Nat} (hr : isRaw a = false)
    (hk : KeyHeld ms k a) (hk' : KeyHeld ms' k a) : readByte ms' v k a = readByte ms v k a := by
  unfold Machine.readByte byteAt rawAt cutOf
  rw [m.stamp, m.retained, m.rawOld, m.commByteK h hr hk hk']

end Sys2Proof.Machine
end

