-- ==== Sys2Proof/Laws/Matrix.lean ====
section
/-! SUPPORT. What a tile made from a function holds, and that a table of scratchpad bytes reads as the scratchpad (R234, R236). -/

namespace Sys2Proof.Machine

/-- The byte table changes no byte. -/
@[simp] theorem tabled_byteTable (scr : Nat → Byte) (a0 n : Nat) : tabled (byteTable scr a0) scr a0 n = scr (a0 + n) := by
  unfold tabled byteTable
  by_cases h : n < 9216 <;> simp [h]

/-- A tile made from a function lists no word outside the range it was made over. -/
theorem tileWord_filterMap_range (f : Nat → Word) (k n : Nat) :
    tileWord ((List.range k).filterMap fun n => let x := f n; if x = 0 then none else some (n, x)) n = if n < k then f n else 0 := by
  induction k with
  | zero => simp [tileWord]
  | succ k ih =>
    simp only [tileWord] at ih ⊢
    rw [List.range_succ, List.filterMap_append, List.find?_append]
    by_cases hn : n < k
    · rw [if_pos hn] at ih
      rw [if_pos (by omega)]
      generalize hx : List.find? _ _ = x at ih ⊢
      cases x with
      | some y => simpa using ih
      | none =>
        have : f n = 0#32 := by simpa using ih.symm
        have hne : k ≠ n := by omega
        by_cases hk : f k = 0#32 <;> simp [hk, this, hne]
    · have hnone : ((List.range k).filterMap fun n => let x := f n; if x = 0 then none else some (n, x)).find? (fun e => e.1 == n) = none := by
        rw [List.find?_eq_none]
        simp only [List.mem_filterMap, List.mem_range]
        rintro ⟨a, w⟩ ⟨m, hm, he⟩
        by_cases h0 : f m = 0#32 <;> simp [h0] at he ⊢
        omega
      rw [hnone]
      by_cases hnk : n = k
      · subst hnk
        by_cases hk : f n = 0#32 <;> simp [hk]
      · rw [if_neg (by omega)]
        have hne : k ≠ n := Ne.symm hnk
        by_cases hk : f k = 0#32 <;> simp [hk, hne]

/-- A tile made from a function holds its words. -/
theorem tileWord_tileOf (f : Nat → Word) {n : Nat} (h : n < 16384) : tileWord (tileOf f) n = f n :=
  (tileWord_filterMap_range f 16384 n).trans (if_pos h)

end Sys2Proof.Machine
end

