-- ==== Sys2Proof/Laws/State.lean ====
section
/-! SUPPORT. What each update of the state and of a team leaves of each field. -/

namespace Sys2Proof.Machine

/-! Another team in focus -/

@[simp] theorem withTeam_agenda (s : State) (t : Team) : (s.withTeam t).agenda = s.agenda := rfl
@[simp] theorem withTeam_free (s : State) (t : Team) : (s.withTeam t).free = s.free := rfl
@[simp] theorem withTeam_cycle (s : State) (t : Team) : (s.withTeam t).cycle = s.cycle := rfl
@[simp] theorem withTeam_arith (s : State) (t : Team) : (s.withTeam t).arith = s.arith := rfl
@[simp] theorem withTeam_frac (s : State) (t : Team) : (s.withTeam t).frac = s.frac := rfl
@[simp] theorem withTeam_issued (s : State) (t : Team) : (s.withTeam t).issued = s.issued := rfl
@[simp] theorem withTeam_team (s : State) (t : Team) : (s.withTeam t).team = t := rfl
@[simp] theorem withTeam_others (s : State) (t : Team) : (s.withTeam t).others = s.others := rfl
@[simp] theorem withTeam_ms (s : State) (t : Team) : (s.withTeam t).ms = s.ms := rfl
@[simp] theorem withTeam_l1 (s : State) (t : Team) : (s.withTeam t).l1 = s.l1 := rfl
@[simp] theorem withTeam_gangs (s : State) (t : Team) : (s.withTeam t).gangs = s.gangs := rfl
@[simp] theorem withTeam_sched (s : State) (t : Team) : (s.withTeam t).sched = s.sched := rfl
@[simp] theorem withTeam_gens (s : State) (t : Team) : (s.withTeam t).gens = s.gens := rfl
@[simp] theorem withTeam_vx (s : State) (t : Team) : (s.withTeam t).vx = s.vx := rfl
@[simp] theorem withTeam_res (s : State) (t : Team) : (s.withTeam t).res = s.res := rfl
@[simp] theorem withTeam_marl (s : State) (t : Team) : (s.withTeam t).marl = s.marl := rfl
@[simp] theorem withTeam_locus (s : State) (t : Team) : (s.withTeam t).locus = s.locus := rfl
@[simp] theorem withTeam_locusErr (s : State) (t : Team) : (s.withTeam t).locusErr = s.locusErr := rfl
@[simp] theorem withTeam_served (s : State) (t : Team) : (s.withTeam t).served = s.served := rfl
@[simp] theorem withTeam_host (s : State) (t : Team) : (s.withTeam t).host = s.host := rfl
@[simp] theorem withTeam_mgmt (s : State) (t : Team) : (s.withTeam t).mgmt = s.mgmt := rfl
@[simp] theorem withTeam_strat (s : State) (t : Team) : (s.withTeam t).strat = s.strat := rfl
@[simp] theorem withTeam_upsets (s : State) (t : Team) : (s.withTeam t).upsets = s.upsets := rfl

/-! Every team changed -/

@[simp] theorem mapTeams_agenda (s : State) (f : Team → Team) : (s.mapTeams f).agenda = s.agenda := rfl
@[simp] theorem mapTeams_free (s : State) (f : Team → Team) : (s.mapTeams f).free = s.free := rfl
@[simp] theorem mapTeams_cycle (s : State) (f : Team → Team) : (s.mapTeams f).cycle = s.cycle := rfl
@[simp] theorem mapTeams_arith (s : State) (f : Team → Team) : (s.mapTeams f).arith = s.arith := rfl
@[simp] theorem mapTeams_frac (s : State) (f : Team → Team) : (s.mapTeams f).frac = s.frac := rfl
@[simp] theorem mapTeams_issued (s : State) (f : Team → Team) : (s.mapTeams f).issued = s.issued := rfl
@[simp] theorem mapTeams_team (s : State) (f : Team → Team) : (s.mapTeams f).team = f s.team := rfl
@[simp] theorem mapTeams_others (s : State) (f : Team → Team) : (s.mapTeams f).others = s.others.map f := rfl
@[simp] theorem mapTeams_ms (s : State) (f : Team → Team) : (s.mapTeams f).ms = s.ms := rfl
@[simp] theorem mapTeams_l1 (s : State) (f : Team → Team) : (s.mapTeams f).l1 = s.l1 := rfl
@[simp] theorem mapTeams_gangs (s : State) (f : Team → Team) : (s.mapTeams f).gangs = s.gangs := rfl
@[simp] theorem mapTeams_sched (s : State) (f : Team → Team) : (s.mapTeams f).sched = s.sched := rfl
@[simp] theorem mapTeams_gens (s : State) (f : Team → Team) : (s.mapTeams f).gens = s.gens := rfl
@[simp] theorem mapTeams_vx (s : State) (f : Team → Team) : (s.mapTeams f).vx = s.vx := rfl
@[simp] theorem mapTeams_res (s : State) (f : Team → Team) : (s.mapTeams f).res = s.res := rfl
@[simp] theorem mapTeams_marl (s : State) (f : Team → Team) : (s.mapTeams f).marl = s.marl := rfl
@[simp] theorem mapTeams_locus (s : State) (f : Team → Team) : (s.mapTeams f).locus = s.locus := rfl
@[simp] theorem mapTeams_locusErr (s : State) (f : Team → Team) : (s.mapTeams f).locusErr = s.locusErr := rfl
@[simp] theorem mapTeams_served (s : State) (f : Team → Team) : (s.mapTeams f).served = s.served := rfl
@[simp] theorem mapTeams_host (s : State) (f : Team → Team) : (s.mapTeams f).host = s.host := rfl
@[simp] theorem mapTeams_mgmt (s : State) (f : Team → Team) : (s.mapTeams f).mgmt = s.mgmt := rfl
@[simp] theorem mapTeams_strat (s : State) (f : Team → Team) : (s.mapTeams f).strat = s.strat := rfl
@[simp] theorem mapTeams_upsets (s : State) (f : Team → Team) : (s.mapTeams f).upsets = s.upsets := rfl

/-! A gang changed -/

@[simp] theorem modGang_agenda (s : State) (grid idx : Nat) (f : Gang → Gang) : (s.modGang grid idx f).agenda = s.agenda := rfl
@[simp] theorem modGang_free (s : State) (grid idx : Nat) (f : Gang → Gang) : (s.modGang grid idx f).free = s.free := rfl
@[simp] theorem modGang_cycle (s : State) (grid idx : Nat) (f : Gang → Gang) : (s.modGang grid idx f).cycle = s.cycle := rfl
@[simp] theorem modGang_arith (s : State) (grid idx : Nat) (f : Gang → Gang) : (s.modGang grid idx f).arith = s.arith := rfl
@[simp] theorem modGang_frac (s : State) (grid idx : Nat) (f : Gang → Gang) : (s.modGang grid idx f).frac = s.frac := rfl
@[simp] theorem modGang_issued (s : State) (grid idx : Nat) (f : Gang → Gang) : (s.modGang grid idx f).issued = s.issued := rfl
@[simp] theorem modGang_team (s : State) (grid idx : Nat) (f : Gang → Gang) : (s.modGang grid idx f).team = s.team := rfl
@[simp] theorem modGang_others (s : State) (grid idx : Nat) (f : Gang → Gang) : (s.modGang grid idx f).others = s.others := rfl
@[simp] theorem modGang_ms (s : State) (grid idx : Nat) (f : Gang → Gang) : (s.modGang grid idx f).ms = s.ms := rfl
@[simp] theorem modGang_l1 (s : State) (grid idx : Nat) (f : Gang → Gang) : (s.modGang grid idx f).l1 = s.l1 := rfl
@[simp] theorem modGang_gangs (s : State) (grid idx : Nat) (f : Gang → Gang) : (s.modGang grid idx f).gangs = s.gangs.map fun g => if g.grid == grid && g.idx == idx then f g else g := rfl
@[simp] theorem modGang_sched (s : State) (grid idx : Nat) (f : Gang → Gang) : (s.modGang grid idx f).sched = s.sched := rfl
@[simp] theorem modGang_gens (s : State) (grid idx : Nat) (f : Gang → Gang) : (s.modGang grid idx f).gens = s.gens := rfl
@[simp] theorem modGang_vx (s : State) (grid idx : Nat) (f : Gang → Gang) : (s.modGang grid idx f).vx = s.vx := rfl
@[simp] theorem modGang_res (s : State) (grid idx : Nat) (f : Gang → Gang) : (s.modGang grid idx f).res = s.res := rfl
@[simp] theorem modGang_marl (s : State) (grid idx : Nat) (f : Gang → Gang) : (s.modGang grid idx f).marl = s.marl := rfl
@[simp] theorem modGang_locus (s : State) (grid idx : Nat) (f : Gang → Gang) : (s.modGang grid idx f).locus = s.locus := rfl
@[simp] theorem modGang_locusErr (s : State) (grid idx : Nat) (f : Gang → Gang) : (s.modGang grid idx f).locusErr = s.locusErr := rfl
@[simp] theorem modGang_served (s : State) (grid idx : Nat) (f : Gang → Gang) : (s.modGang grid idx f).served = s.served := rfl
@[simp] theorem modGang_host (s : State) (grid idx : Nat) (f : Gang → Gang) : (s.modGang grid idx f).host = s.host := rfl
@[simp] theorem modGang_mgmt (s : State) (grid idx : Nat) (f : Gang → Gang) : (s.modGang grid idx f).mgmt = s.mgmt := rfl
@[simp] theorem modGang_strat (s : State) (grid idx : Nat) (f : Gang → Gang) : (s.modGang grid idx f).strat = s.strat := rfl
@[simp] theorem modGang_upsets (s : State) (grid idx : Nat) (f : Gang → Gang) : (s.modGang grid idx f).upsets = s.upsets := rfl

/-! A home changed -/

@[simp] theorem modHome_agenda (s : State) (h : Nat) (f : Home → Home) : (modHome s h f).agenda = s.agenda := rfl
@[simp] theorem modHome_free (s : State) (h : Nat) (f : Home → Home) : (modHome s h f).free = s.free := rfl
@[simp] theorem modHome_cycle (s : State) (h : Nat) (f : Home → Home) : (modHome s h f).cycle = s.cycle := rfl
@[simp] theorem modHome_arith (s : State) (h : Nat) (f : Home → Home) : (modHome s h f).arith = s.arith := rfl
@[simp] theorem modHome_frac (s : State) (h : Nat) (f : Home → Home) : (modHome s h f).frac = s.frac := rfl
@[simp] theorem modHome_issued (s : State) (h : Nat) (f : Home → Home) : (modHome s h f).issued = s.issued := rfl
@[simp] theorem modHome_team (s : State) (h : Nat) (f : Home → Home) : (modHome s h f).team = s.team := rfl
@[simp] theorem modHome_others (s : State) (h : Nat) (f : Home → Home) : (modHome s h f).others = s.others := rfl
@[simp] theorem modHome_ms (s : State) (h : Nat) (f : Home → Home) : (modHome s h f).ms = s.ms := rfl
@[simp] theorem modHome_l1 (s : State) (h : Nat) (f : Home → Home) : (modHome s h f).l1 = s.l1 := rfl
@[simp] theorem modHome_gangs (s : State) (h : Nat) (f : Home → Home) : (modHome s h f).gangs = s.gangs := rfl
@[simp] theorem modHome_sched (s : State) (h : Nat) (f : Home → Home) : (modHome s h f).sched = s.sched := rfl
@[simp] theorem modHome_gens (s : State) (h : Nat) (f : Home → Home) : (modHome s h f).gens = s.gens := rfl
@[simp] theorem modHome_vx (s : State) (h : Nat) (f : Home → Home) : (modHome s h f).vx = { s.vx with homes := s.vx.homes.set h (f (s.vx.homes.getD h Home.empty)) } := rfl
@[simp] theorem modHome_res (s : State) (h : Nat) (f : Home → Home) : (modHome s h f).res = s.res := rfl
@[simp] theorem modHome_marl (s : State) (h : Nat) (f : Home → Home) : (modHome s h f).marl = s.marl := rfl
@[simp] theorem modHome_locus (s : State) (h : Nat) (f : Home → Home) : (modHome s h f).locus = s.locus := rfl
@[simp] theorem modHome_locusErr (s : State) (h : Nat) (f : Home → Home) : (modHome s h f).locusErr = s.locusErr := rfl
@[simp] theorem modHome_served (s : State) (h : Nat) (f : Home → Home) : (modHome s h f).served = s.served := rfl
@[simp] theorem modHome_host (s : State) (h : Nat) (f : Home → Home) : (modHome s h f).host = s.host := rfl
@[simp] theorem modHome_mgmt (s : State) (h : Nat) (f : Home → Home) : (modHome s h f).mgmt = s.mgmt := rfl
@[simp] theorem modHome_strat (s : State) (h : Nat) (f : Home → Home) : (modHome s h f).strat = s.strat := rfl
@[simp] theorem modHome_upsets (s : State) (h : Nat) (f : Home → Home) : (modHome s h f).upsets = s.upsets := rfl

/-! An instruction issues -/

@[simp] theorem noteIssue_agenda (s : State) : (noteIssue s).agenda = s.agenda := rfl
@[simp] theorem noteIssue_free (s : State) : (noteIssue s).free = s.free := rfl
@[simp] theorem noteIssue_cycle (s : State) : (noteIssue s).cycle = s.cycle := rfl
@[simp] theorem noteIssue_arith (s : State) : (noteIssue s).arith = s.arith := rfl
@[simp] theorem noteIssue_frac (s : State) : (noteIssue s).frac = s.frac := rfl
@[simp] theorem noteIssue_issued (s : State) : (noteIssue s).issued = s.issued + 1 := rfl
@[simp] theorem noteIssue_ms (s : State) : (noteIssue s).ms = s.ms := rfl
@[simp] theorem noteIssue_l1 (s : State) : (noteIssue s).l1 = s.l1 := rfl
@[simp] theorem noteIssue_gangs (s : State) : (noteIssue s).gangs = s.gangs := rfl
@[simp] theorem noteIssue_sched (s : State) : (noteIssue s).sched = s.sched := rfl
@[simp] theorem noteIssue_gens (s : State) : (noteIssue s).gens = s.gens := rfl
@[simp] theorem noteIssue_vx (s : State) : (noteIssue s).vx = s.vx := rfl
@[simp] theorem noteIssue_res (s : State) : (noteIssue s).res = s.res := rfl
@[simp] theorem noteIssue_marl (s : State) : (noteIssue s).marl = s.marl := rfl
@[simp] theorem noteIssue_locus (s : State) : (noteIssue s).locus = s.locus := rfl
@[simp] theorem noteIssue_locusErr (s : State) : (noteIssue s).locusErr = s.locusErr := rfl
@[simp] theorem noteIssue_served (s : State) : (noteIssue s).served = s.served := rfl
@[simp] theorem noteIssue_host (s : State) : (noteIssue s).host = s.host := rfl
@[simp] theorem noteIssue_mgmt (s : State) : (noteIssue s).mgmt = s.mgmt := rfl
@[simp] theorem noteIssue_strat (s : State) : (noteIssue s).strat = s.strat := rfl
@[simp] theorem noteIssue_upsets (s : State) : (noteIssue s).upsets = s.upsets := rfl

/-! A team that cannot issue yet -/

@[simp] theorem hold_agenda (s : State) (w : Why) : (hold s w).agenda = s.agenda := rfl
@[simp] theorem hold_free (s : State) (w : Why) : (hold s w).free = s.free := rfl
@[simp] theorem hold_cycle (s : State) (w : Why) : (hold s w).cycle = s.cycle := rfl
@[simp] theorem hold_arith (s : State) (w : Why) : (hold s w).arith = s.arith := rfl
@[simp] theorem hold_frac (s : State) (w : Why) : (hold s w).frac = s.frac := rfl
@[simp] theorem hold_issued (s : State) (w : Why) : (hold s w).issued = s.issued := rfl
@[simp] theorem hold_others (s : State) (w : Why) : (hold s w).others = s.others := rfl
@[simp] theorem hold_ms (s : State) (w : Why) : (hold s w).ms = s.ms := rfl
@[simp] theorem hold_l1 (s : State) (w : Why) : (hold s w).l1 = s.l1 := rfl
@[simp] theorem hold_sched (s : State) (w : Why) : (hold s w).sched = s.sched := rfl
@[simp] theorem hold_gens (s : State) (w : Why) : (hold s w).gens = s.gens := rfl
@[simp] theorem hold_vx (s : State) (w : Why) : (hold s w).vx = s.vx := rfl
@[simp] theorem hold_res (s : State) (w : Why) : (hold s w).res = s.res := rfl
@[simp] theorem hold_marl (s : State) (w : Why) : (hold s w).marl = s.marl := rfl
@[simp] theorem hold_locus (s : State) (w : Why) : (hold s w).locus = s.locus := rfl
@[simp] theorem hold_locusErr (s : State) (w : Why) : (hold s w).locusErr = s.locusErr := rfl
@[simp] theorem hold_served (s : State) (w : Why) : (hold s w).served = s.served := rfl
@[simp] theorem hold_host (s : State) (w : Why) : (hold s w).host = s.host := rfl
@[simp] theorem hold_mgmt (s : State) (w : Why) : (hold s w).mgmt = s.mgmt := rfl
@[simp] theorem hold_strat (s : State) (w : Why) : (hold s w).strat = s.strat := rfl
@[simp] theorem hold_upsets (s : State) (w : Why) : (hold s w).upsets = s.upsets := rfl

/-! Retained copies that no snapshot needs are dropped -/

@[simp] theorem purge_agenda (s : State) : (purge s).agenda = s.agenda := rfl
@[simp] theorem purge_free (s : State) : (purge s).free = s.free := rfl
@[simp] theorem purge_cycle (s : State) : (purge s).cycle = s.cycle := rfl
@[simp] theorem purge_arith (s : State) : (purge s).arith = s.arith := rfl
@[simp] theorem purge_frac (s : State) : (purge s).frac = s.frac := rfl
@[simp] theorem purge_issued (s : State) : (purge s).issued = s.issued := rfl
@[simp] theorem purge_team (s : State) : (purge s).team = s.team := rfl
@[simp] theorem purge_others (s : State) : (purge s).others = s.others := rfl
@[simp] theorem purge_l1 (s : State) : (purge s).l1 = s.l1 := rfl
@[simp] theorem purge_gangs (s : State) : (purge s).gangs = s.gangs := rfl
@[simp] theorem purge_sched (s : State) : (purge s).sched = s.sched := rfl
@[simp] theorem purge_gens (s : State) : (purge s).gens = s.gens := rfl
@[simp] theorem purge_vx (s : State) : (purge s).vx = s.vx := rfl
@[simp] theorem purge_res (s : State) : (purge s).res = s.res := rfl
@[simp] theorem purge_marl (s : State) : (purge s).marl = s.marl := rfl
@[simp] theorem purge_locus (s : State) : (purge s).locus = s.locus := rfl
@[simp] theorem purge_locusErr (s : State) : (purge s).locusErr = s.locusErr := rfl
@[simp] theorem purge_served (s : State) : (purge s).served = s.served := rfl
@[simp] theorem purge_host (s : State) : (purge s).host = s.host := rfl
@[simp] theorem purge_mgmt (s : State) : (purge s).mgmt = s.mgmt := rfl
@[simp] theorem purge_strat (s : State) : (purge s).strat = s.strat := rfl
@[simp] theorem purge_upsets (s : State) : (purge s).upsets = s.upsets := rfl

/-! A write that takes effect at once, as told how it enters the L2 -/

@[simp] theorem immediateAs_agenda (s : State) (ins : Nat → Ins) (cells : List Host.Cell) : (immediateAs s ins cells).agenda = s.agenda := rfl
@[simp] theorem immediateAs_free (s : State) (ins : Nat → Ins) (cells : List Host.Cell) : (immediateAs s ins cells).free = s.free := rfl
@[simp] theorem immediateAs_cycle (s : State) (ins : Nat → Ins) (cells : List Host.Cell) : (immediateAs s ins cells).cycle = s.cycle := rfl
@[simp] theorem immediateAs_arith (s : State) (ins : Nat → Ins) (cells : List Host.Cell) : (immediateAs s ins cells).arith = s.arith := rfl
@[simp] theorem immediateAs_frac (s : State) (ins : Nat → Ins) (cells : List Host.Cell) : (immediateAs s ins cells).frac = s.frac := rfl
@[simp] theorem immediateAs_issued (s : State) (ins : Nat → Ins) (cells : List Host.Cell) : (immediateAs s ins cells).issued = s.issued := rfl
@[simp] theorem immediateAs_team (s : State) (ins : Nat → Ins) (cells : List Host.Cell) : (immediateAs s ins cells).team = s.team := rfl
@[simp] theorem immediateAs_others (s : State) (ins : Nat → Ins) (cells : List Host.Cell) : (immediateAs s ins cells).others = s.others := rfl
@[simp] theorem immediateAs_l1 (s : State) (ins : Nat → Ins) (cells : List Host.Cell) : (immediateAs s ins cells).l1 = s.l1 := rfl
@[simp] theorem immediateAs_gangs (s : State) (ins : Nat → Ins) (cells : List Host.Cell) : (immediateAs s ins cells).gangs = s.gangs := rfl
@[simp] theorem immediateAs_sched (s : State) (ins : Nat → Ins) (cells : List Host.Cell) : (immediateAs s ins cells).sched = s.sched := rfl
@[simp] theorem immediateAs_gens (s : State) (ins : Nat → Ins) (cells : List Host.Cell) : (immediateAs s ins cells).gens = s.gens := rfl
@[simp] theorem immediateAs_vx (s : State) (ins : Nat → Ins) (cells : List Host.Cell) : (immediateAs s ins cells).vx = s.vx := rfl
@[simp] theorem immediateAs_res (s : State) (ins : Nat → Ins) (cells : List Host.Cell) : (immediateAs s ins cells).res = s.res := rfl
@[simp] theorem immediateAs_marl (s : State) (ins : Nat → Ins) (cells : List Host.Cell) : (immediateAs s ins cells).marl = s.marl := rfl
@[simp] theorem immediateAs_locus (s : State) (ins : Nat → Ins) (cells : List Host.Cell) : (immediateAs s ins cells).locus = s.locus := rfl
@[simp] theorem immediateAs_locusErr (s : State) (ins : Nat → Ins) (cells : List Host.Cell) : (immediateAs s ins cells).locusErr = s.locusErr := rfl
@[simp] theorem immediateAs_served (s : State) (ins : Nat → Ins) (cells : List Host.Cell) : (immediateAs s ins cells).served = s.served := rfl
@[simp] theorem immediateAs_host (s : State) (ins : Nat → Ins) (cells : List Host.Cell) : (immediateAs s ins cells).host = s.host := rfl
@[simp] theorem immediateAs_mgmt (s : State) (ins : Nat → Ins) (cells : List Host.Cell) : (immediateAs s ins cells).mgmt = s.mgmt := rfl
@[simp] theorem immediateAs_strat (s : State) (ins : Nat → Ins) (cells : List Host.Cell) : (immediateAs s ins cells).strat = s.strat := rfl
@[simp] theorem immediateAs_upsets (s : State) (ins : Nat → Ins) (cells : List Host.Cell) : (immediateAs s ins cells).upsets = s.upsets := rfl

/-! A write that takes effect at once -/

@[simp] theorem immediate_agenda (s : State) (cells : List Host.Cell) : (immediate s cells).agenda = s.agenda := rfl
@[simp] theorem immediate_free (s : State) (cells : List Host.Cell) : (immediate s cells).free = s.free := rfl
@[simp] theorem immediate_cycle (s : State) (cells : List Host.Cell) : (immediate s cells).cycle = s.cycle := rfl
@[simp] theorem immediate_arith (s : State) (cells : List Host.Cell) : (immediate s cells).arith = s.arith := rfl
@[simp] theorem immediate_frac (s : State) (cells : List Host.Cell) : (immediate s cells).frac = s.frac := rfl
@[simp] theorem immediate_issued (s : State) (cells : List Host.Cell) : (immediate s cells).issued = s.issued := rfl
@[simp] theorem immediate_team (s : State) (cells : List Host.Cell) : (immediate s cells).team = s.team := rfl
@[simp] theorem immediate_others (s : State) (cells : List Host.Cell) : (immediate s cells).others = s.others := rfl
@[simp] theorem immediate_l1 (s : State) (cells : List Host.Cell) : (immediate s cells).l1 = s.l1 := rfl
@[simp] theorem immediate_gangs (s : State) (cells : List Host.Cell) : (immediate s cells).gangs = s.gangs := rfl
@[simp] theorem immediate_sched (s : State) (cells : List Host.Cell) : (immediate s cells).sched = s.sched := rfl
@[simp] theorem immediate_gens (s : State) (cells : List Host.Cell) : (immediate s cells).gens = s.gens := rfl
@[simp] theorem immediate_vx (s : State) (cells : List Host.Cell) : (immediate s cells).vx = s.vx := rfl
@[simp] theorem immediate_res (s : State) (cells : List Host.Cell) : (immediate s cells).res = s.res := rfl
@[simp] theorem immediate_marl (s : State) (cells : List Host.Cell) : (immediate s cells).marl = s.marl := rfl
@[simp] theorem immediate_locus (s : State) (cells : List Host.Cell) : (immediate s cells).locus = s.locus := rfl
@[simp] theorem immediate_locusErr (s : State) (cells : List Host.Cell) : (immediate s cells).locusErr = s.locusErr := rfl
@[simp] theorem immediate_served (s : State) (cells : List Host.Cell) : (immediate s cells).served = s.served := rfl
@[simp] theorem immediate_host (s : State) (cells : List Host.Cell) : (immediate s cells).host = s.host := rfl
@[simp] theorem immediate_mgmt (s : State) (cells : List Host.Cell) : (immediate s cells).mgmt = s.mgmt := rfl
@[simp] theorem immediate_strat (s : State) (cells : List Host.Cell) : (immediate s cells).strat = s.strat := rfl
@[simp] theorem immediate_upsets (s : State) (cells : List Host.Cell) : (immediate s cells).upsets = s.upsets := rfl

/-! A vector register -/

@[simp] theorem setV_uid (t : Team) (r : Nat) (m : LaneSet) (f : Nat → Word) : (setV t r m f).uid = t.uid := rfl
@[simp] theorem setV_kind (t : Team) (r : Nat) (m : LaneSet) (f : Nat → Word) : (setV t r m f).kind = t.kind := rfl
@[simp] theorem setV_stage (t : Team) (r : Nat) (m : LaneSet) (f : Nat → Word) : (setV t r m f).stage = t.stage := rfl
@[simp] theorem setV_pl (t : Team) (r : Nat) (m : LaneSet) (f : Nat → Word) : (setV t r m f).pl = t.pl := rfl
@[simp] theorem setV_ctl (t : Team) (r : Nat) (m : LaneSet) (f : Nat → Word) : (setV t r m f).ctl = t.ctl := rfl
@[simp] theorem setV_sp (t : Team) (r : Nat) (m : LaneSet) (f : Nat → Word) : (setV t r m f).sp = t.sp := rfl
@[simp] theorem setV_ver (t : Team) (r : Nat) (m : LaneSet) (f : Nat → Word) : (setV t r m f).ver = t.ver := rfl
@[simp] theorem setV_eng (t : Team) (r : Nat) (m : LaneSet) (f : Nat → Word) : (setV t r m f).eng = t.eng := rfl
@[simp] theorem setV_nextTag (t : Team) (r : Nat) (m : LaneSet) (f : Nat → Word) : (setV t r m f).nextTag = t.nextTag := rfl
@[simp] theorem setV_wait (t : Team) (r : Nat) (m : LaneSet) (f : Nat → Word) : (setV t r m f).wait = t.wait := rfl
@[simp] theorem setV_book (t : Team) (r : Nat) (m : LaneSet) (f : Nat → Word) : (setV t r m f).book = t.book := rfl
@[simp] theorem setV_handler (t : Team) (r : Nat) (m : LaneSet) (f : Nat → Word) : (setV t r m f).handler = t.handler := rfl
@[simp] theorem setV_pending (t : Team) (r : Nat) (m : LaneSet) (f : Nat → Word) : (setV t r m f).pending = t.pending := rfl
@[simp] theorem setV_locus (t : Team) (r : Nat) (m : LaneSet) (f : Nat → Word) : (setV t r m f).locus = t.locus := rfl
@[simp] theorem setV_cont (t : Team) (r : Nat) (m : LaneSet) (f : Nat → Word) : (setV t r m f).cont = t.cont := rfl
@[simp] theorem setV_children (t : Team) (r : Nat) (m : LaneSet) (f : Nat → Word) : (setV t r m f).children = t.children := rfl
@[simp] theorem setV_posted (t : Team) (r : Nat) (m : LaneSet) (f : Nat → Word) : (setV t r m f).posted = t.posted := rfl
@[simp] theorem setV_efaults (t : Team) (r : Nat) (m : LaneSet) (f : Nat → Word) : (setV t r m f).efaults = t.efaults := rfl
@[simp] theorem setV_poison (t : Team) (r : Nat) (m : LaneSet) (f : Nat → Word) : (setV t r m f).poison = t.poison := rfl
@[simp] theorem setV_passed (t : Team) (r : Nat) (m : LaneSet) (f : Nat → Word) : (setV t r m f).passed = t.passed := rfl
@[simp] theorem setV_late (t : Team) (r : Nat) (m : LaneSet) (f : Nat → Word) : (setV t r m f).late = t.late := rfl

/-! A scalar register -/

@[simp] theorem setS_uid (t : Team) (r : Nat) (x : Word) : (setS t r x).uid = t.uid := rfl
@[simp] theorem setS_kind (t : Team) (r : Nat) (x : Word) : (setS t r x).kind = t.kind := rfl
@[simp] theorem setS_stage (t : Team) (r : Nat) (x : Word) : (setS t r x).stage = t.stage := rfl
@[simp] theorem setS_pl (t : Team) (r : Nat) (x : Word) : (setS t r x).pl = t.pl := rfl
@[simp] theorem setS_ctl (t : Team) (r : Nat) (x : Word) : (setS t r x).ctl = t.ctl := rfl
@[simp] theorem setS_sp (t : Team) (r : Nat) (x : Word) : (setS t r x).sp = t.sp := rfl
@[simp] theorem setS_ver (t : Team) (r : Nat) (x : Word) : (setS t r x).ver = t.ver := rfl
@[simp] theorem setS_eng (t : Team) (r : Nat) (x : Word) : (setS t r x).eng = t.eng := rfl
@[simp] theorem setS_nextTag (t : Team) (r : Nat) (x : Word) : (setS t r x).nextTag = t.nextTag := rfl
@[simp] theorem setS_wait (t : Team) (r : Nat) (x : Word) : (setS t r x).wait = t.wait := rfl
@[simp] theorem setS_book (t : Team) (r : Nat) (x : Word) : (setS t r x).book = t.book := rfl
@[simp] theorem setS_handler (t : Team) (r : Nat) (x : Word) : (setS t r x).handler = t.handler := rfl
@[simp] theorem setS_pending (t : Team) (r : Nat) (x : Word) : (setS t r x).pending = t.pending := rfl
@[simp] theorem setS_locus (t : Team) (r : Nat) (x : Word) : (setS t r x).locus = t.locus := rfl
@[simp] theorem setS_cont (t : Team) (r : Nat) (x : Word) : (setS t r x).cont = t.cont := rfl
@[simp] theorem setS_children (t : Team) (r : Nat) (x : Word) : (setS t r x).children = t.children := rfl
@[simp] theorem setS_posted (t : Team) (r : Nat) (x : Word) : (setS t r x).posted = t.posted := rfl
@[simp] theorem setS_efaults (t : Team) (r : Nat) (x : Word) : (setS t r x).efaults = t.efaults := rfl
@[simp] theorem setS_poison (t : Team) (r : Nat) (x : Word) : (setS t r x).poison = t.poison := rfl
@[simp] theorem setS_passed (t : Team) (r : Nat) (x : Word) : (setS t r x).passed = t.passed := rfl
@[simp] theorem setS_late (t : Team) (r : Nat) (x : Word) : (setS t r x).late = t.late := rfl

/-! A predicate -/

@[simp] theorem setP_uid (t : Team) (p : Nat) (m : LaneSet) : (setP t p m).uid = t.uid := rfl
@[simp] theorem setP_kind (t : Team) (p : Nat) (m : LaneSet) : (setP t p m).kind = t.kind := rfl
@[simp] theorem setP_stage (t : Team) (p : Nat) (m : LaneSet) : (setP t p m).stage = t.stage := rfl
@[simp] theorem setP_pl (t : Team) (p : Nat) (m : LaneSet) : (setP t p m).pl = t.pl := rfl
@[simp] theorem setP_ctl (t : Team) (p : Nat) (m : LaneSet) : (setP t p m).ctl = t.ctl := rfl
@[simp] theorem setP_sp (t : Team) (p : Nat) (m : LaneSet) : (setP t p m).sp = t.sp := rfl
@[simp] theorem setP_ver (t : Team) (p : Nat) (m : LaneSet) : (setP t p m).ver = t.ver := rfl
@[simp] theorem setP_eng (t : Team) (p : Nat) (m : LaneSet) : (setP t p m).eng = t.eng := rfl
@[simp] theorem setP_nextTag (t : Team) (p : Nat) (m : LaneSet) : (setP t p m).nextTag = t.nextTag := rfl
@[simp] theorem setP_wait (t : Team) (p : Nat) (m : LaneSet) : (setP t p m).wait = t.wait := rfl
@[simp] theorem setP_book (t : Team) (p : Nat) (m : LaneSet) : (setP t p m).book = t.book := rfl
@[simp] theorem setP_handler (t : Team) (p : Nat) (m : LaneSet) : (setP t p m).handler = t.handler := rfl
@[simp] theorem setP_pending (t : Team) (p : Nat) (m : LaneSet) : (setP t p m).pending = t.pending := rfl
@[simp] theorem setP_locus (t : Team) (p : Nat) (m : LaneSet) : (setP t p m).locus = t.locus := rfl
@[simp] theorem setP_cont (t : Team) (p : Nat) (m : LaneSet) : (setP t p m).cont = t.cont := rfl
@[simp] theorem setP_children (t : Team) (p : Nat) (m : LaneSet) : (setP t p m).children = t.children := rfl
@[simp] theorem setP_posted (t : Team) (p : Nat) (m : LaneSet) : (setP t p m).posted = t.posted := rfl
@[simp] theorem setP_efaults (t : Team) (p : Nat) (m : LaneSet) : (setP t p m).efaults = t.efaults := rfl
@[simp] theorem setP_poison (t : Team) (p : Nat) (m : LaneSet) : (setP t p m).poison = t.poison := rfl
@[simp] theorem setP_passed (t : Team) (p : Nat) (m : LaneSet) : (setP t p m).passed = t.passed := rfl
@[simp] theorem setP_late (t : Team) (p : Nat) (m : LaneSet) : (setP t p m).late = t.late := rfl

/-! Lanes of a predicate -/

@[simp] theorem setPLanes_uid (t : Team) (p : Nat) (m : LaneSet) (f : Nat → Bool) : (setPLanes t p m f).uid = t.uid := rfl
@[simp] theorem setPLanes_kind (t : Team) (p : Nat) (m : LaneSet) (f : Nat → Bool) : (setPLanes t p m f).kind = t.kind := rfl
@[simp] theorem setPLanes_stage (t : Team) (p : Nat) (m : LaneSet) (f : Nat → Bool) : (setPLanes t p m f).stage = t.stage := rfl
@[simp] theorem setPLanes_pl (t : Team) (p : Nat) (m : LaneSet) (f : Nat → Bool) : (setPLanes t p m f).pl = t.pl := rfl
@[simp] theorem setPLanes_ctl (t : Team) (p : Nat) (m : LaneSet) (f : Nat → Bool) : (setPLanes t p m f).ctl = t.ctl := rfl
@[simp] theorem setPLanes_sp (t : Team) (p : Nat) (m : LaneSet) (f : Nat → Bool) : (setPLanes t p m f).sp = t.sp := rfl
@[simp] theorem setPLanes_ver (t : Team) (p : Nat) (m : LaneSet) (f : Nat → Bool) : (setPLanes t p m f).ver = t.ver := rfl
@[simp] theorem setPLanes_eng (t : Team) (p : Nat) (m : LaneSet) (f : Nat → Bool) : (setPLanes t p m f).eng = t.eng := rfl
@[simp] theorem setPLanes_nextTag (t : Team) (p : Nat) (m : LaneSet) (f : Nat → Bool) : (setPLanes t p m f).nextTag = t.nextTag := rfl
@[simp] theorem setPLanes_wait (t : Team) (p : Nat) (m : LaneSet) (f : Nat → Bool) : (setPLanes t p m f).wait = t.wait := rfl
@[simp] theorem setPLanes_book (t : Team) (p : Nat) (m : LaneSet) (f : Nat → Bool) : (setPLanes t p m f).book = t.book := rfl
@[simp] theorem setPLanes_handler (t : Team) (p : Nat) (m : LaneSet) (f : Nat → Bool) : (setPLanes t p m f).handler = t.handler := rfl
@[simp] theorem setPLanes_pending (t : Team) (p : Nat) (m : LaneSet) (f : Nat → Bool) : (setPLanes t p m f).pending = t.pending := rfl
@[simp] theorem setPLanes_locus (t : Team) (p : Nat) (m : LaneSet) (f : Nat → Bool) : (setPLanes t p m f).locus = t.locus := rfl
@[simp] theorem setPLanes_cont (t : Team) (p : Nat) (m : LaneSet) (f : Nat → Bool) : (setPLanes t p m f).cont = t.cont := rfl
@[simp] theorem setPLanes_children (t : Team) (p : Nat) (m : LaneSet) (f : Nat → Bool) : (setPLanes t p m f).children = t.children := rfl
@[simp] theorem setPLanes_posted (t : Team) (p : Nat) (m : LaneSet) (f : Nat → Bool) : (setPLanes t p m f).posted = t.posted := rfl
@[simp] theorem setPLanes_efaults (t : Team) (p : Nat) (m : LaneSet) (f : Nat → Bool) : (setPLanes t p m f).efaults = t.efaults := rfl
@[simp] theorem setPLanes_poison (t : Team) (p : Nat) (m : LaneSet) (f : Nat → Bool) : (setPLanes t p m f).poison = t.poison := rfl
@[simp] theorem setPLanes_passed (t : Team) (p : Nat) (m : LaneSet) (f : Nat → Bool) : (setPLanes t p m f).passed = t.passed := rfl
@[simp] theorem setPLanes_late (t : Team) (p : Nat) (m : LaneSet) (f : Nat → Bool) : (setPLanes t p m f).late = t.late := rfl

/-! A full bit of a vector register -/

@[simp] theorem markV_uid (t : Team) (r : Nat) (b : Bool) : (markV t r b).uid = t.uid := rfl
@[simp] theorem markV_kind (t : Team) (r : Nat) (b : Bool) : (markV t r b).kind = t.kind := rfl
@[simp] theorem markV_stage (t : Team) (r : Nat) (b : Bool) : (markV t r b).stage = t.stage := rfl
@[simp] theorem markV_pl (t : Team) (r : Nat) (b : Bool) : (markV t r b).pl = t.pl := rfl
@[simp] theorem markV_ctl (t : Team) (r : Nat) (b : Bool) : (markV t r b).ctl = t.ctl := rfl
@[simp] theorem markV_sp (t : Team) (r : Nat) (b : Bool) : (markV t r b).sp = t.sp := rfl
@[simp] theorem markV_ver (t : Team) (r : Nat) (b : Bool) : (markV t r b).ver = t.ver := rfl
@[simp] theorem markV_eng (t : Team) (r : Nat) (b : Bool) : (markV t r b).eng = t.eng := rfl
@[simp] theorem markV_nextTag (t : Team) (r : Nat) (b : Bool) : (markV t r b).nextTag = t.nextTag := rfl
@[simp] theorem markV_wait (t : Team) (r : Nat) (b : Bool) : (markV t r b).wait = t.wait := rfl
@[simp] theorem markV_book (t : Team) (r : Nat) (b : Bool) : (markV t r b).book = t.book := rfl
@[simp] theorem markV_handler (t : Team) (r : Nat) (b : Bool) : (markV t r b).handler = t.handler := rfl
@[simp] theorem markV_pending (t : Team) (r : Nat) (b : Bool) : (markV t r b).pending = t.pending := rfl
@[simp] theorem markV_locus (t : Team) (r : Nat) (b : Bool) : (markV t r b).locus = t.locus := rfl
@[simp] theorem markV_cont (t : Team) (r : Nat) (b : Bool) : (markV t r b).cont = t.cont := rfl
@[simp] theorem markV_children (t : Team) (r : Nat) (b : Bool) : (markV t r b).children = t.children := rfl
@[simp] theorem markV_posted (t : Team) (r : Nat) (b : Bool) : (markV t r b).posted = t.posted := rfl
@[simp] theorem markV_efaults (t : Team) (r : Nat) (b : Bool) : (markV t r b).efaults = t.efaults := rfl
@[simp] theorem markV_poison (t : Team) (r : Nat) (b : Bool) : (markV t r b).poison = t.poison := rfl
@[simp] theorem markV_passed (t : Team) (r : Nat) (b : Bool) : (markV t r b).passed = t.passed := rfl
@[simp] theorem markV_late (t : Team) (r : Nat) (b : Bool) : (markV t r b).late = t.late := rfl

/-! A full bit of a scalar register -/

@[simp] theorem markS_uid (t : Team) (r : Nat) (b : Bool) : (markS t r b).uid = t.uid := rfl
@[simp] theorem markS_kind (t : Team) (r : Nat) (b : Bool) : (markS t r b).kind = t.kind := rfl
@[simp] theorem markS_stage (t : Team) (r : Nat) (b : Bool) : (markS t r b).stage = t.stage := rfl
@[simp] theorem markS_pl (t : Team) (r : Nat) (b : Bool) : (markS t r b).pl = t.pl := rfl
@[simp] theorem markS_ctl (t : Team) (r : Nat) (b : Bool) : (markS t r b).ctl = t.ctl := rfl
@[simp] theorem markS_sp (t : Team) (r : Nat) (b : Bool) : (markS t r b).sp = t.sp := rfl
@[simp] theorem markS_ver (t : Team) (r : Nat) (b : Bool) : (markS t r b).ver = t.ver := rfl
@[simp] theorem markS_eng (t : Team) (r : Nat) (b : Bool) : (markS t r b).eng = t.eng := rfl
@[simp] theorem markS_nextTag (t : Team) (r : Nat) (b : Bool) : (markS t r b).nextTag = t.nextTag := rfl
@[simp] theorem markS_wait (t : Team) (r : Nat) (b : Bool) : (markS t r b).wait = t.wait := rfl
@[simp] theorem markS_book (t : Team) (r : Nat) (b : Bool) : (markS t r b).book = t.book := rfl
@[simp] theorem markS_handler (t : Team) (r : Nat) (b : Bool) : (markS t r b).handler = t.handler := rfl
@[simp] theorem markS_pending (t : Team) (r : Nat) (b : Bool) : (markS t r b).pending = t.pending := rfl
@[simp] theorem markS_locus (t : Team) (r : Nat) (b : Bool) : (markS t r b).locus = t.locus := rfl
@[simp] theorem markS_cont (t : Team) (r : Nat) (b : Bool) : (markS t r b).cont = t.cont := rfl
@[simp] theorem markS_children (t : Team) (r : Nat) (b : Bool) : (markS t r b).children = t.children := rfl
@[simp] theorem markS_posted (t : Team) (r : Nat) (b : Bool) : (markS t r b).posted = t.posted := rfl
@[simp] theorem markS_efaults (t : Team) (r : Nat) (b : Bool) : (markS t r b).efaults = t.efaults := rfl
@[simp] theorem markS_poison (t : Team) (r : Nat) (b : Bool) : (markS t r b).poison = t.poison := rfl
@[simp] theorem markS_passed (t : Team) (r : Nat) (b : Bool) : (markS t r b).passed = t.passed := rfl
@[simp] theorem markS_late (t : Team) (r : Nat) (b : Bool) : (markS t r b).late = t.late := rfl

/-! The team that issues keeps all but its bookkeeping -/

@[simp] theorem noteIssue_team_uid (s : State) : (noteIssue s).team.uid = s.team.uid := rfl
@[simp] theorem noteIssue_team_kind (s : State) : (noteIssue s).team.kind = s.team.kind := rfl
@[simp] theorem noteIssue_team_stage (s : State) : (noteIssue s).team.stage = s.team.stage := rfl
@[simp] theorem noteIssue_team_pl (s : State) : (noteIssue s).team.pl = s.team.pl := rfl
@[simp] theorem noteIssue_team_rf (s : State) : (noteIssue s).team.rf = s.team.rf := rfl
@[simp] theorem noteIssue_team_ctl (s : State) : (noteIssue s).team.ctl = s.team.ctl := rfl
@[simp] theorem noteIssue_team_sp (s : State) : (noteIssue s).team.sp = s.team.sp := rfl
@[simp] theorem noteIssue_team_ver (s : State) : (noteIssue s).team.ver = s.team.ver := rfl
@[simp] theorem noteIssue_team_eng (s : State) : (noteIssue s).team.eng = s.team.eng := rfl
@[simp] theorem noteIssue_team_nextTag (s : State) : (noteIssue s).team.nextTag = s.team.nextTag := rfl
@[simp] theorem noteIssue_team_wait (s : State) : (noteIssue s).team.wait = s.team.wait := rfl
@[simp] theorem noteIssue_team_handler (s : State) : (noteIssue s).team.handler = s.team.handler := rfl
@[simp] theorem noteIssue_team_pending (s : State) : (noteIssue s).team.pending = s.team.pending := rfl
@[simp] theorem noteIssue_team_locus (s : State) : (noteIssue s).team.locus = s.team.locus := rfl
@[simp] theorem noteIssue_team_cont (s : State) : (noteIssue s).team.cont = s.team.cont := rfl
@[simp] theorem noteIssue_team_children (s : State) : (noteIssue s).team.children = s.team.children := rfl
@[simp] theorem noteIssue_team_posted (s : State) : (noteIssue s).team.posted = s.team.posted := rfl
@[simp] theorem noteIssue_team_efaults (s : State) : (noteIssue s).team.efaults = s.team.efaults := rfl
@[simp] theorem noteIssue_team_poison (s : State) : (noteIssue s).team.poison = s.team.poison := rfl
@[simp] theorem noteIssue_team_passed (s : State) : (noteIssue s).team.passed = s.team.passed := rfl
@[simp] theorem noteIssue_team_late (s : State) : (noteIssue s).team.late = s.team.late := rfl

/-! A team that cannot issue yet keeps all but its wait and its bookkeeping -/

@[simp] theorem hold_team_uid (s : State) (w : Why) : (hold s w).team.uid = s.team.uid := rfl
@[simp] theorem hold_team_kind (s : State) (w : Why) : (hold s w).team.kind = s.team.kind := rfl
@[simp] theorem hold_team_stage (s : State) (w : Why) : (hold s w).team.stage = s.team.stage := rfl
@[simp] theorem hold_team_pl (s : State) (w : Why) : (hold s w).team.pl = s.team.pl := rfl
@[simp] theorem hold_team_rf (s : State) (w : Why) : (hold s w).team.rf = s.team.rf := rfl
@[simp] theorem hold_team_ctl (s : State) (w : Why) : (hold s w).team.ctl = s.team.ctl := rfl
@[simp] theorem hold_team_sp (s : State) (w : Why) : (hold s w).team.sp = s.team.sp := rfl
@[simp] theorem hold_team_ver (s : State) (w : Why) : (hold s w).team.ver = s.team.ver := rfl
@[simp] theorem hold_team_eng (s : State) (w : Why) : (hold s w).team.eng = s.team.eng := rfl
@[simp] theorem hold_team_nextTag (s : State) (w : Why) : (hold s w).team.nextTag = s.team.nextTag := rfl
@[simp] theorem hold_team_handler (s : State) (w : Why) : (hold s w).team.handler = s.team.handler := rfl
@[simp] theorem hold_team_pending (s : State) (w : Why) : (hold s w).team.pending = s.team.pending := rfl
@[simp] theorem hold_team_locus (s : State) (w : Why) : (hold s w).team.locus = s.team.locus := rfl
@[simp] theorem hold_team_cont (s : State) (w : Why) : (hold s w).team.cont = s.team.cont := rfl
@[simp] theorem hold_team_children (s : State) (w : Why) : (hold s w).team.children = s.team.children := rfl
@[simp] theorem hold_team_posted (s : State) (w : Why) : (hold s w).team.posted = s.team.posted := rfl
@[simp] theorem hold_team_efaults (s : State) (w : Why) : (hold s w).team.efaults = s.team.efaults := rfl
@[simp] theorem hold_team_poison (s : State) (w : Why) : (hold s w).team.poison = s.team.poison := rfl
@[simp] theorem hold_team_passed (s : State) (w : Why) : (hold s w).team.passed = s.team.passed := rfl
@[simp] theorem hold_team_late (s : State) (w : Why) : (hold s w).team.late = s.team.late := rfl
@[simp] theorem hold_team_wait (s : State) (w : Why) : (hold s w).team.wait = .retry w := rfl

/-! One field of a register file changes -/

@[simp] theorem setV_rf_n (t : Team) (r : Nat) (m : LaneSet) (f : Nat → Word) : (setV t r m f).rf.n = t.rf.n := rfl
@[simp] theorem setV_rf_nv (t : Team) (r : Nat) (m : LaneSet) (f : Nat → Word) : (setV t r m f).rf.nv = t.rf.nv := rfl
@[simp] theorem setV_rf_s (t : Team) (r : Nat) (m : LaneSet) (f : Nat → Word) : (setV t r m f).rf.s = t.rf.s := rfl
@[simp] theorem setV_rf_vfull (t : Team) (r : Nat) (m : LaneSet) (f : Nat → Word) : (setV t r m f).rf.vfull = t.rf.vfull := rfl
@[simp] theorem setV_rf_sfull (t : Team) (r : Nat) (m : LaneSet) (f : Nat → Word) : (setV t r m f).rf.sfull = t.rf.sfull := rfl
@[simp] theorem setV_rf_p (t : Team) (r : Nat) (m : LaneSet) (f : Nat → Word) : (setV t r m f).rf.p = t.rf.p := rfl
@[simp] theorem setV_rf_lc (t : Team) (r : Nat) (m : LaneSet) (f : Nat → Word) : (setV t r m f).rf.lc = t.rf.lc := rfl
@[simp] theorem setV_rf_fr (t : Team) (r : Nat) (m : LaneSet) (f : Nat → Word) : (setV t r m f).rf.fr = t.rf.fr := rfl
@[simp] theorem setV_rf_fs (t : Team) (r : Nat) (m : LaneSet) (f : Nat → Word) : (setV t r m f).rf.fs = t.rf.fs := rfl
@[simp] theorem setV_rf_sh (t : Team) (r : Nat) (m : LaneSet) (f : Nat → Word) : (setV t r m f).rf.sh = t.rf.sh := rfl
@[simp] theorem setS_rf_n (t : Team) (r : Nat) (x : Word) : (setS t r x).rf.n = t.rf.n := rfl
@[simp] theorem setS_rf_nv (t : Team) (r : Nat) (x : Word) : (setS t r x).rf.nv = t.rf.nv := rfl
@[simp] theorem setS_rf_v (t : Team) (r : Nat) (x : Word) : (setS t r x).rf.v = t.rf.v := rfl
@[simp] theorem setS_rf_vfull (t : Team) (r : Nat) (x : Word) : (setS t r x).rf.vfull = t.rf.vfull := rfl
@[simp] theorem setS_rf_sfull (t : Team) (r : Nat) (x : Word) : (setS t r x).rf.sfull = t.rf.sfull := rfl
@[simp] theorem setS_rf_p (t : Team) (r : Nat) (x : Word) : (setS t r x).rf.p = t.rf.p := rfl
@[simp] theorem setS_rf_lc (t : Team) (r : Nat) (x : Word) : (setS t r x).rf.lc = t.rf.lc := rfl
@[simp] theorem setS_rf_fr (t : Team) (r : Nat) (x : Word) : (setS t r x).rf.fr = t.rf.fr := rfl
@[simp] theorem setS_rf_fs (t : Team) (r : Nat) (x : Word) : (setS t r x).rf.fs = t.rf.fs := rfl
@[simp] theorem setS_rf_sh (t : Team) (r : Nat) (x : Word) : (setS t r x).rf.sh = t.rf.sh := rfl
@[simp] theorem setP_rf_n (t : Team) (p : Nat) (m : LaneSet) : (setP t p m).rf.n = t.rf.n := rfl
@[simp] theorem setP_rf_nv (t : Team) (p : Nat) (m : LaneSet) : (setP t p m).rf.nv = t.rf.nv := rfl
@[simp] theorem setP_rf_v (t : Team) (p : Nat) (m : LaneSet) : (setP t p m).rf.v = t.rf.v := rfl
@[simp] theorem setP_rf_s (t : Team) (p : Nat) (m : LaneSet) : (setP t p m).rf.s = t.rf.s := rfl
@[simp] theorem setP_rf_vfull (t : Team) (p : Nat) (m : LaneSet) : (setP t p m).rf.vfull = t.rf.vfull := rfl
@[simp] theorem setP_rf_sfull (t : Team) (p : Nat) (m : LaneSet) : (setP t p m).rf.sfull = t.rf.sfull := rfl
@[simp] theorem setP_rf_lc (t : Team) (p : Nat) (m : LaneSet) : (setP t p m).rf.lc = t.rf.lc := rfl
@[simp] theorem setP_rf_fr (t : Team) (p : Nat) (m : LaneSet) : (setP t p m).rf.fr = t.rf.fr := rfl
@[simp] theorem setP_rf_fs (t : Team) (p : Nat) (m : LaneSet) : (setP t p m).rf.fs = t.rf.fs := rfl
@[simp] theorem setP_rf_sh (t : Team) (p : Nat) (m : LaneSet) : (setP t p m).rf.sh = t.rf.sh := rfl
@[simp] theorem setPLanes_rf_n (t : Team) (p : Nat) (m : LaneSet) (f : Nat → Bool) : (setPLanes t p m f).rf.n = t.rf.n := rfl
@[simp] theorem setPLanes_rf_nv (t : Team) (p : Nat) (m : LaneSet) (f : Nat → Bool) : (setPLanes t p m f).rf.nv = t.rf.nv := rfl
@[simp] theorem setPLanes_rf_v (t : Team) (p : Nat) (m : LaneSet) (f : Nat → Bool) : (setPLanes t p m f).rf.v = t.rf.v := rfl
@[simp] theorem setPLanes_rf_s (t : Team) (p : Nat) (m : LaneSet) (f : Nat → Bool) : (setPLanes t p m f).rf.s = t.rf.s := rfl
@[simp] theorem setPLanes_rf_vfull (t : Team) (p : Nat) (m : LaneSet) (f : Nat → Bool) : (setPLanes t p m f).rf.vfull = t.rf.vfull := rfl
@[simp] theorem setPLanes_rf_sfull (t : Team) (p : Nat) (m : LaneSet) (f : Nat → Bool) : (setPLanes t p m f).rf.sfull = t.rf.sfull := rfl
@[simp] theorem setPLanes_rf_lc (t : Team) (p : Nat) (m : LaneSet) (f : Nat → Bool) : (setPLanes t p m f).rf.lc = t.rf.lc := rfl
@[simp] theorem setPLanes_rf_fr (t : Team) (p : Nat) (m : LaneSet) (f : Nat → Bool) : (setPLanes t p m f).rf.fr = t.rf.fr := rfl
@[simp] theorem setPLanes_rf_fs (t : Team) (p : Nat) (m : LaneSet) (f : Nat → Bool) : (setPLanes t p m f).rf.fs = t.rf.fs := rfl
@[simp] theorem setPLanes_rf_sh (t : Team) (p : Nat) (m : LaneSet) (f : Nat → Bool) : (setPLanes t p m f).rf.sh = t.rf.sh := rfl
@[simp] theorem markV_rf_n (t : Team) (r : Nat) (b : Bool) : (markV t r b).rf.n = t.rf.n := rfl
@[simp] theorem markV_rf_nv (t : Team) (r : Nat) (b : Bool) : (markV t r b).rf.nv = t.rf.nv := rfl
@[simp] theorem markV_rf_v (t : Team) (r : Nat) (b : Bool) : (markV t r b).rf.v = t.rf.v := rfl
@[simp] theorem markV_rf_s (t : Team) (r : Nat) (b : Bool) : (markV t r b).rf.s = t.rf.s := rfl
@[simp] theorem markV_rf_sfull (t : Team) (r : Nat) (b : Bool) : (markV t r b).rf.sfull = t.rf.sfull := rfl
@[simp] theorem markV_rf_p (t : Team) (r : Nat) (b : Bool) : (markV t r b).rf.p = t.rf.p := rfl
@[simp] theorem markV_rf_lc (t : Team) (r : Nat) (b : Bool) : (markV t r b).rf.lc = t.rf.lc := rfl
@[simp] theorem markV_rf_fr (t : Team) (r : Nat) (b : Bool) : (markV t r b).rf.fr = t.rf.fr := rfl
@[simp] theorem markV_rf_fs (t : Team) (r : Nat) (b : Bool) : (markV t r b).rf.fs = t.rf.fs := rfl
@[simp] theorem markV_rf_sh (t : Team) (r : Nat) (b : Bool) : (markV t r b).rf.sh = t.rf.sh := rfl
@[simp] theorem markS_rf_n (t : Team) (r : Nat) (b : Bool) : (markS t r b).rf.n = t.rf.n := rfl
@[simp] theorem markS_rf_nv (t : Team) (r : Nat) (b : Bool) : (markS t r b).rf.nv = t.rf.nv := rfl
@[simp] theorem markS_rf_v (t : Team) (r : Nat) (b : Bool) : (markS t r b).rf.v = t.rf.v := rfl
@[simp] theorem markS_rf_s (t : Team) (r : Nat) (b : Bool) : (markS t r b).rf.s = t.rf.s := rfl
@[simp] theorem markS_rf_vfull (t : Team) (r : Nat) (b : Bool) : (markS t r b).rf.vfull = t.rf.vfull := rfl
@[simp] theorem markS_rf_p (t : Team) (r : Nat) (b : Bool) : (markS t r b).rf.p = t.rf.p := rfl
@[simp] theorem markS_rf_lc (t : Team) (r : Nat) (b : Bool) : (markS t r b).rf.lc = t.rf.lc := rfl
@[simp] theorem markS_rf_fr (t : Team) (r : Nat) (b : Bool) : (markS t r b).rf.fr = t.rf.fr := rfl
@[simp] theorem markS_rf_fs (t : Team) (r : Nat) (b : Bool) : (markS t r b).rf.fs = t.rf.fs := rfl
@[simp] theorem markS_rf_sh (t : Team) (r : Nat) (b : Bool) : (markS t r b).rf.sh = t.rf.sh := rfl

end Sys2Proof.Machine
end

