-- ==== Sys2Proof/Laws/Traps.lean ====
section
/-! SUPPORT. What recording an event and taking a trap do (R389 to R393, R397, R398): one lemma for each shared operation. -/

namespace Sys2Proof.Machine

/-! ### The error log -/

/-- An event changes nothing but the list of this cycle's events (R397). -/
theorem logEvent_eq (s : State) (kind src : Nat) (payload : List Byte) :
    logEvent s kind src payload = { s with host := { s.host with events := s.host.events ++ [⟨kind, src, payload⟩] } } := rfl

@[simp] theorem logEvent_ms (s : State) (kind src : Nat) (payload : List Byte) : (logEvent s kind src payload).ms = s.ms := rfl
@[simp] theorem logEvent_team (s : State) (kind src : Nat) (payload : List Byte) : (logEvent s kind src payload).team = s.team := rfl
@[simp] theorem logEvent_others (s : State) (kind src : Nat) (payload : List Byte) : (logEvent s kind src payload).others = s.others := rfl

/-- Recording an event changes the host registers, and of memory what its entry writes. -/
theorem recordEvent_frame (s : State) (x : LogItem) :
    recordEvent s x = { s with host := (recordEvent s x).host, ms := (recordEvent s x).ms } := by
  unfold recordEvent
  simp only
  split
  · rfl
  · split
    · split <;> rfl
    · rfl

/-- Recording an event counts it and leaves every register but the log's counters (R397, R398). -/
theorem recordEvent_host (s : State) (x : LogItem) :
    (recordEvent s x).host =
      { s.host with eseq := s.host.eseq + 1, ecnt := (recordEvent s x).host.ecnt,
                    firsterr0 := (recordEvent s x).host.firsterr0, firsterr1 := (recordEvent s x).host.firsterr1,
                    eloghead := (recordEvent s x).host.eloghead, ovfcnt := (recordEvent s x).host.ovfcnt } := by
  unfold recordEvent
  simp only
  split
  · rfl
  · split
    · split <;> rfl
    · rfl

/-- Recording an event keeps memory canonical, the sectors whole and the device order (R397). -/
theorem recordEvent_grows (s : State) (x : LogItem) : Grows s.ms (recordEvent s x).ms := by
  unfold recordEvent
  simp only
  split
  · exact Grows.refl _
  · split
    · split
      · exact immediate_grows _ _
      · exact Grows.refl _
    · exact Grows.refl _

/-- So does recording several. -/
theorem recordEvents_grows (xs : List LogItem) (s : State) : Grows s.ms (xs.foldl recordEvent s).ms := by
  induction xs generalizing s with
  | nil => exact Grows.refl _
  | cons x xs ih => exact (recordEvent_grows s x).trans (ih _)

/-- Counting the soft errors that fills have corrected changes nothing of the memory side but that list (R313). -/
theorem countSoft_ms (s : State) : (countSoft s).ms = { s.ms with soft := [] } := by
  unfold countSoft
  generalize s.ms.soft = xs
  generalize hs : ({ s with ms := { s.ms with soft := [] } } : State) = t
  have ht : t.ms = { s.ms with soft := [] } := by rw [← hs]
  clear hs
  induction xs generalizing t with
  | nil => exact ht
  | cons x xs ih => exact ih _ ht

/-- The end of a cycle keeps memory canonical and the invariant's bounds (R397). -/
theorem closeCycle_grows (s : State) : Grows s.ms (closeCycle s).ms := by
  have h := recordEvents_grows (sortBy LogItem.before (countSoft s).host.events)
    { countSoft s with host := { (countSoft s).host with events := [] } }
  have hm := countSoft_ms s
  change Grows (countSoft s).ms _ at h
  rw [hm] at h
  exact ⟨fun k => h.sound k, fun k => h.stamped k, h.stamp⟩

/-! ### Taking a trap -/

/-- The lowest free context entry exists and is free (R391). -/
theorem freeEntry_some {s : State} {k : Nat} (h : freeEntry s = some k) : k < ctxEntries s ∧ k ∉ s.sched.ctxUsed := by
  unfold freeEntry at h
  have h1 := List.mem_of_find?_eq_some h
  have h2 := List.find?_some h
  exact ⟨List.mem_range.mp h1, by simpa using h2⟩

/-- No entry is found where none is free. -/
theorem freeEntry_none {s : State} (h : ∀ k, k < ctxEntries s → k ∈ s.sched.ctxUsed) : freeEntry s = none := by
  unfold freeEntry
  rw [List.find?_eq_none]
  intro k hk
  simpa using h k (List.mem_range.mp hk)

/-- An entry is found where one is free. -/
theorem freeEntry_exists {s : State} (h : ∃ k, k < ctxEntries s ∧ k ∉ s.sched.ctxUsed) : ∃ k, freeEntry s = some k := by
  cases hf : freeEntry s with
  | some k => exact ⟨k, rfl⟩
  | none =>
    obtain ⟨k, hk, hn⟩ := h
    unfold freeEntry at hf
    rw [List.find?_eq_none] at hf
    have := hf k (List.mem_range.mpr hk)
    simp [hn] at this

/-- A trap of a core's team: delivered into the lowest free entry, or fatal (R390 to R393). -/
theorem takeTrap_core {s : State} (tr : Trap) (resume : DWord) (h : s.team.kind = .core) :
    (∃ k, deliverable s tr.group = true ∧ freeEntry s = some k ∧ takeTrap s tr resume = deliver s tr resume k)
    ∨ ((deliverable s tr.group = false ∨ freeEntry s = none) ∧ takeTrap s tr resume = fatalTrap s tr resume) := by
  unfold takeTrap
  simp only [h]
  by_cases hd : deliverable s tr.group = true
  · rw [if_pos hd]
    cases hf : freeEntry s with
    | some k => exact .inl ⟨k, hd, rfl, rfl⟩
    | none => exact .inr ⟨.inr rfl, rfl⟩
  · rw [if_neg hd]
    exact .inr ⟨.inl (by simpa using hd), rfl⟩

/-- A trap of a vertex wave (R266). -/
theorem takeTrap_wave {s : State} (tr : Trap) (resume : DWord) (h : s.team.kind = .wave) :
    takeTrap s tr resume = waveTrap s tr resume := by
  unfold takeTrap; simp only [h]

/-- A fault of a stratum wavefront (R323). -/
theorem takeTrap_stratum {s : State} (tr : Trap) (resume : DWord) (h : s.team.kind = .stratum) :
    takeTrap s tr resume = stratumFault s (stratumReason tr) := by
  unfold takeTrap; simp only [h]

/-- Delivery changes the team, memory and the entries in use, nothing else (R391). -/
theorem deliver_frame (s : State) (tr : Trap) (resume : DWord) (k : Nat) :
    deliver s tr resume k = { s with team := (deliver s tr resume k).team, ms := (deliver s tr resume k).ms,
                                     sched := { s.sched with ctxUsed := k :: s.sched.ctxUsed } } := rfl

/-- What delivery does to the team's control state, special registers and placement (R391, R394). -/
theorem deliver_team (s : State) (tr : Trap) (resume : DWord) (k : Nat) :
    (deliver s tr resume k).team.ctl
        = { s.team.ctl with pc := s.host.trapvec &&& ~~~3, stack := [], loops := [], buffer := [], hints := none }
      ∧ (deliver s tr resume k).team.sp
        = { s.team.sp with cause := BitVec.ofNat 32 tr.group, d0 := tr.d0, d1 := tr.d1, d2 := tr.d2 }
      ∧ (deliver s tr resume k).team.handler = some { entry := k, group := tr.group, saved := s.team.eng, resume := resume, later := s.team.pending,
                                                      tiles := (contextPair s { s.team with ctl := { s.team.ctl with hints := none } }).isSome }
      ∧ (deliver s tr resume k).team.pending = []
      ∧ (deliver s tr resume k).team.pl = s.team.pl ∧ (deliver s tr resume k).team.kind = s.team.kind
      ∧ (deliver s tr resume k).team.uid = s.team.uid ∧ (deliver s tr resume k).team.stage = s.team.stage
      ∧ (deliver s tr resume k).team.wait = .ready := ⟨rfl, rfl, rfl, rfl, rfl, rfl, rfl, rfl, rfl⟩

/-- Delivery writes no register but x15 (R391). -/
theorem deliver_scalar (s : State) (tr : Trap) (resume : DWord) (k r : Nat) (h0 : r ≠ 30) (h1 : r ≠ 31) :
    sget (deliver s tr resume k).team r = sget s.team r := by
  change (((s.team.rf.s.set 30 _).set 31 _).getD r 0) = s.team.rf.s.getD r 0
  simp [List.getD_eq_getElem?_getD, Ne.symm h0, Ne.symm h1]

/-- Delivery keeps the vector registers, predicates, loop counts and formats. -/
theorem deliver_regs (s : State) (tr : Trap) (resume : DWord) (k : Nat) :
    (deliver s tr resume k).team.rf
      = { s.team.rf with s := (deliver s tr resume k).team.rf.s, sfull := (deliver s tr resume k).team.rf.sfull } := rfl

/-- Delivery keeps memory canonical, the sectors whole and the device order. -/
theorem deliver_grows (s : State) (tr : Trap) (resume : DWord) (k : Nat) : Grows s.ms (deliver s tr resume k).ms :=
  immediate_grows _ _

/-- A trap before an instruction resumes at its hint run's first word (R73, R389). -/
theorem trapBefore_eq (s : State) (tr : Trap) : trapBefore s tr = takeTrap s tr (resumePc s.team) := rfl

/-! ### Retiring -/

/-- Retiring at an address without a report, the team not single stepping, moves the team there and uses up its hint run. -/
theorem retireTo_plain {s : State} (pc : DWord) (h : stepping s.team = false) :
    retireTo s pc none = { s with team := { s.team with wait := .ready, book := schedHints s s.team,
                                                        ctl := { s.team.ctl with pc := pc, hints := none } } } := by
  unfold retireTo retireToStep
  simp only [h, Bool.false_eq_true, ↓reduceIte]

/-- Retiring with a report ends in its trap, which resumes at the address; under single step the step trap is then pending (R389,
R396). -/
theorem retireTo_report {s : State} (pc : DWord) (tr : Trap) :
    retireTo s pc (some tr) = takeTrap (s.withTeam { s.team with
      wait := .ready, book := schedHints s s.team, ctl := { s.team.ctl with pc := pc, hints := none },
      pending := if stepping s.team then s.team.pending ++ [stepTrap s.team pc] else s.team.pending }) tr pc := by
  unfold retireTo retireToStep
  by_cases h : stepping s.team = true <;> simp [h, State.withTeam]

/-- Retiring under single step ends in the step trap, which resumes at the address (R396). -/
theorem retireTo_step {s : State} (pc : DWord) (h : stepping s.team = true) :
    retireTo s pc none = takeTrap (s.withTeam { s.team with
      wait := .ready, book := schedHints s s.team, ctl := { s.team.ctl with pc := pc, hints := none } }) (stepTrap s.team pc) pc := by
  unfold retireTo retireToStep
  simp only [h, ↓reduceIte]
  rfl

/-- Going to an address inside every live loop's body leaves no loop (R130). -/
theorem leaveLoops_none (pc a : DWord) (n : Nat) (t : Team)
    (h : ∀ f ∈ t.ctl.loops, inBody f pc = true → inBody f a = true) : leaveLoops pc a n t = some t := by
  cases n with
  | zero => rfl
  | succ k =>
    unfold leaveLoops
    split
    · rfl
    · rename_i f hf
      have := h f (List.mem_of_getElem? hf)
      split
      · rename_i hh; simp at hh; rw [this hh.1] at hh; simp at hh
      · rfl

/-! ### In-flight operations -/

/-- A posted operation goes last of its team's, under a new tag (R93, R199). -/
theorem addOp_ops (t : Team) (path : Nat) (dst : Dst) (waits : LaneSet) (arrived : Bool) :
    (addOp t path dst waits arrived).eng.ops
        = t.eng.ops ++ [{ tag := t.nextTag, path := path, dst := dst, waits := waits, arrived := arrived, done := false }]
      ∧ (addOp t path dst waits arrived).nextTag = t.nextTag + 1 := by
  unfold addOp
  cases dst with
  | none => exact ⟨rfl, rfl⟩
  | vec r m data => simp only; rw [markVs_eq]; simp
  | scalar r x => exact ⟨rfl, rfl⟩
  | pred p m vals => exact ⟨rfl, rfl⟩

/-- A posted operation writes no register. -/
theorem addOp_regs (t : Team) (path : Nat) (dst : Dst) (waits : LaneSet) (arrived : Bool) :
    (∀ r L, vget (addOp t path dst waits arrived) r L = vget t r L) ∧ (∀ r, sget (addOp t path dst waits arrived) r = sget t r)
      ∧ (∀ p, pset (addOp t path dst waits arrived) p = pset t p) := by
  unfold addOp
  cases dst with
  | none => exact ⟨fun _ _ => rfl, fun _ => rfl, fun _ => rfl⟩
  | vec r m data => simp only; rw [markVs_eq]; exact ⟨fun _ _ => rfl, fun _ => rfl, fun _ => rfl⟩
  | scalar r x => exact ⟨fun _ _ => rfl, fun _ => rfl, fun _ => rfl⟩
  | pred p m vals => exact ⟨fun _ _ => rfl, fun _ => rfl, fun _ => rfl⟩

/-- With no operation of the tag arrived and open, completion changes nothing. -/
theorem completeOp_none {t : Team} {tag : Nat} (h : ∀ o ∈ t.eng.ops, o.tag = tag → o.arrived = false ∨ o.done = true) :
    completeOp t tag = t := by
  unfold completeOp
  have : (t.eng.ops.find? fun o => o.tag == tag && o.arrived && !o.done) = none := by
    rw [List.find?_eq_none]
    intro o ho
    by_cases ht : o.tag = tag
    · rcases h o ho ht with e | e <;> simp [e]
    · simp [ht]
  rw [this]

end Sys2Proof.Machine
end

