-- ==== Sys2Proof/Tests/Slice0.lean ====
section
/-! SUPPORT. The package's own tests: field rules, words of the spec's encoding tables, witnesses for the hypotheses of the
statements, and one-step tests of instructions. -/

set_option Elab.async false

namespace Sys2Proof.Tests

open Machine

/-! ### Field rules

Each theorem holds an ill-formed term for one check of `Instr.wf`, beside a well-formed neighbour. -/

theorem wf_predicate : (Instr.elect ⟨7, 7⟩).wf = false ∧ (Instr.elect ⟨7, 6⟩).wf = true
    ∧ (Instr.sel ⟨7, 1, 2, 3, false, false⟩).wf = false ∧ (Instr.plogAnd ⟨7, 0, 7, 0⟩).wf = false ∧ (Instr.ifP ⟨7⟩).wf = false
    ∧ (Instr.voteAny ⟨7, 7, 0⟩).wf = false ∧ (Instr.voteBal ⟨7, 0, 7⟩).wf = false ∧ (Instr.twait ⟨7, 0, 0, 0, 7⟩).wf = false := by decide
theorem wf_condition : (Instr.icmpS ⟨7, 6, 0, 1, 2, false, false⟩).wf = false ∧ (Instr.icmpS ⟨7, 5, 6, 1, 2, false, false⟩).wf = true
    ∧ (Instr.icmpS ⟨7, 5, 7, 1, 2, false, false⟩).wf = false ∧ (Instr.ncmp ⟨7, 7, 0, 1, 2, 0⟩).wf = false
    ∧ (Instr.scmpU ⟨6, 0, 1, 2, false, false⟩).wf = false := by decide
theorem wf_loop_length : (Instr.loop ⟨1, 0⟩).wf = false ∧ (Instr.loop ⟨1, 1⟩).wf = true ∧ (Instr.loop ⟨1, 256⟩).wf = true
    ∧ (Instr.loop ⟨1, 257⟩).wf = false ∧ (Instr.stratumLoop ⟨1, 0⟩).wf = false := by decide
theorem wf_shuffle : (Instr.shflUp ⟨7, 1, 2, 0, false, true⟩).wf = false ∧ (Instr.shflUp ⟨7, 1, 2, 5, false, true⟩).wf = true
    ∧ (Instr.shflUp ⟨7, 1, 2, 6, false, true⟩).wf = false ∧ (Instr.shflUp ⟨7, 1, 2, 63, false, false⟩).wf = true := by decide
theorem wf_load_width : (Instr.ld ⟨7, 8, 7, 2, 7, 0⟩).wf = false ∧ (Instr.ld ⟨7, 9, 7, 2, 5, 0⟩).wf = false
    ∧ (Instr.ld ⟨7, 10, 7, 2, 6, 0⟩).wf = false ∧ (Instr.ld ⟨7, 12, 7, 2, 6, 0⟩).wf = true ∧ (Instr.lds ⟨7, 1, 2, 3, 5⟩).wf = false
    ∧ (Instr.stratumLd ⟨7, 1, 2, 5⟩).wf = false := by decide
theorem wf_store_width : (Instr.st ⟨7, 8, 7, 2, 1, 0⟩).wf = false ∧ (Instr.st ⟨7, 8, 7, 2, 3, 0⟩).wf = false
    ∧ (Instr.st ⟨7, 8, 7, 2, 2, 0⟩).wf = true ∧ (Instr.sts ⟨7, 9, 7, 2, 5⟩).wf = false ∧ (Instr.stratumSt ⟨7, 1, 2, 3⟩).wf = false := by decide
theorem wf_coordinates : (Instr.ldt ⟨7, 4, 10, 2, 7, false, false, 0⟩).wf = false ∧ (Instr.ldt ⟨7, 4, 31, 2, 1, false, false, 0⟩).wf = false
    ∧ (Instr.ldt ⟨7, 4, 30, 2, 1, false, false, 0⟩).wf = true ∧ (Instr.cpt ⟨16, 20, 1, 7, false, 0⟩).wf = false
    ∧ (Instr.stt ⟨7, 4, 10, 2, 2, true, false, 1⟩).wf = false ∧ (Instr.stt ⟨7, 4, 10, 2, 2, true, true, 0⟩).wf = true := by decide
theorem wf_gather : (Instr.gx ⟨7, 8, 7, 2, 5⟩).wf = false ∧ (Instr.gx ⟨7, 9, 7, 2, 3⟩).wf = false ∧ (Instr.sx ⟨7, 10, 7, 2, 4⟩).wf = false
    ∧ (Instr.sx ⟨7, 12, 7, 2, 4⟩).wf = true := by decide
theorem wf_special_register : (Instr.srd ⟨12, 22⟩).wf = false ∧ (Instr.srd ⟨13, 12⟩).wf = false ∧ (Instr.srd ⟨13, 21⟩).wf = true
    ∧ (Instr.swr ⟨12, 12⟩).wf = false ∧ (Instr.swr ⟨13, 14⟩).wf = false ∧ (Instr.swr ⟨12, 14⟩).wf = true := by decide
theorem wf_wait_path : (Instr.waitc ⟨7, 9, false⟩).wf = false ∧ (Instr.waitc ⟨6, 9, false⟩).wf = true := by decide
theorem wf_boundary : (Instr.phase ⟨0, 1⟩).wf = false ∧ (Instr.phase ⟨1, 3⟩).wf = false ∧ (Instr.phase ⟨3, 2⟩).wf = true
    ∧ (Instr.bar ⟨true, true, 3⟩).wf = false := by decide
theorem wf_atomic : (Instr.aopAdd ⟨7, 4, 1, 2, true⟩).wf = false ∧ (Instr.aopMin ⟨7, 4, 1, 2, true⟩).wf = true
    ∧ (Instr.aopCas ⟨7, 5, 1, 2, false⟩).wf = false ∧ (Instr.aopCas ⟨7, 4, 1, 2, false⟩).wf = true := by decide
theorem wf_engine_codes : (Instr.mrld ⟨2, 31, false⟩).wf = false ∧ (Instr.mrst ⟨2, 30, false⟩).wf = true
    ∧ (Instr.mrop ⟨5, 8, 10, false, false⟩).wf = false ∧ (Instr.igret ⟨5⟩).wf = false ∧ (Instr.igrd ⟨7, 1, 5⟩).wf = false
    ∧ (Instr.igwr ⟨7, 1, 5, false⟩).wf = false ∧ (Instr.igret ⟨4⟩).wf = true := by decide
theorem wf_sieve : (Instr.svget ⟨7, 9, 9, 6, false, false⟩).wf = false ∧ (Instr.svget ⟨7, 8, 9, 6, false, false⟩).wf = true
    ∧ (Instr.svdrop ⟨8, 6, 31, false, false⟩).wf = false := by decide
theorem wf_hints : (Instr.hsched ⟨3, false, 0⟩).wf = false ∧ (Instr.hmod ⟨6, false, false, false, 0, false⟩).wf = false
    ∧ (Instr.hmod ⟨5, false, false, false, 2, true⟩).wf = true := by decide

/-! ### Words

The words of the chapters' encoding tables, and for the other instructions words laid out by the forms of R63. -/

/-- A word and what it stands for: the decoder reads it, the encoder writes it, its fields are legal. -/
def reads (x : Word × Instr) : Bool :=
  (match decode x.1 with | .ok j => decide (j = x.2) | .error _ => false) && decide (encode x.2 = some x.1) && x.2.wf

/-- The three-register form of R63. -/
def aForm (maj g d a b ea eb fn : Nat) : Word :=
  BitVec.ofNat 32 (maj * 2 ^ 25 + g * 2 ^ 22 + d * 2 ^ 16 + a * 2 ^ 10 + b * 2 ^ 4 + ea * 2 ^ 3 + eb * 2 ^ 2 + fn)
/-- The immediate form of R63. -/
def iForm (maj g d a imm : Nat) : Word := BitVec.ofNat 32 (maj * 2 ^ 25 + g * 2 ^ 22 + d * 2 ^ 16 + a * 2 ^ 10 + imm)
/-- The memory form of R63. -/
def mForm (maj g d a s wm fn : Nat) : Word :=
  BitVec.ofNat 32 (maj * 2 ^ 25 + g * 2 ^ 22 + d * 2 ^ 16 + a * 2 ^ 10 + s * 2 ^ 5 + wm * 2 ^ 2 + fn)
/-- The tensor form of R63. -/
def tForm (maj g d c sh n mod fn : Nat) : Word :=
  BitVec.ofNat 32 (maj * 2 ^ 25 + g * 2 ^ 22 + d * 2 ^ 16 + c * 2 ^ 10 + sh * 2 ^ 7 + n * 2 ^ 4 + mod * 2 ^ 2 + fn)

theorem words_encoding_chapter : [
    ((0x40C4146B : Word), Instr.ffma ⟨3, 4, 5, 6, true, false⟩), (0x81C81C90, .ld ⟨7, 8, 7, 2, 4, 0⟩),
    (0x0FD10830, .icmpS ⟨7, 2, 1, 2, 3, false, false⟩), (0x68000006, .br ⟨0, 6⟩), (0x95D40000, .phase ⟨1, 1⟩),
    (0xFE900000, .hmod ⟨2, false, false, false, 0, false⟩), (0x41C10830, .fadd ⟨7, 1, 2, 3, false, false⟩),
    (0xFE3FFFFF, .himm ⟨0x3FFFFF⟩), (0x17C30FF0, .andi ⟨7, 3, 3, 0x3F0⟩)].all reads = true := by decide +kernel

theorem words_registers_chapter : [
    ((0x01C30420 : Word), Instr.iadd ⟨7, 3, 1, 2, false, false⟩), (0xFE810000, .hmod ⟨0, false, false, true, 0, false⟩),
    (0x06851873, .sel ⟨2, 5, 6, 7, false, false⟩), (0xFE820000, .hmod ⟨0, false, true, false, 0, false⟩),
    (0x1FEC27FF, .icmpi ⟨7, 5, 4, 9, 0x3FF⟩), (0x21C41003, .shli ⟨7, 4, 4, 3⟩), (0x13C20001, .movSp ⟨7, 2⟩),
    (0x35CC000C, .srd ⟨12, 12⟩)].all reads = true := by decide +kernel

theorem words_control_chapter : [
    ((0x61C50C15 : Word), Instr.shflXor ⟨7, 5, 3, 1, false, true⟩), (0x63C30400, .voteAny ⟨7, 3, 1⟩), (0x65C40C02, .rlogFadd ⟨7, 4, 3, false⟩),
    (0x67C20002, .elect ⟨7, 2⟩), (0x67C20C03, .mskrd ⟨2, 3, false⟩), (0x6FC02001, .jmp ⟨8, false⟩), (0x70400000, .ifP ⟨1⟩),
    (0x70800003, .brk ⟨2⟩), (0x69FFFFFD, .br ⟨7, 0x3FFFFD⟩), (0x73C0200C, .loop ⟨8, 12⟩)].all reads = true := by decide +kernel

theorem words_formats_chapter : [
    ((0x41C41463 : Word), Instr.ffma ⟨7, 4, 5, 6, false, false⟩), (0x45D20421, .fcmpUo ⟨7, 2, 2, 1, 2, false, false⟩),
    (0x47C824A2, .hfmaBf ⟨7, 8, 9, 10, false, false⟩), (0x4BC31054, .nadd ⟨7, 3, 4, 5, 1⟩), (0x4FC21C00, .rcp ⟨7, 2, 7, false⟩),
    (0x55C61C83, .cvtn ⟨7, 6, 7, false, 0, true⟩), (0x57C92002, .f2iS ⟨7, 9, 8, false⟩), (0x59CA2CC0, .plx ⟨7, 10, 11, 12, false, false⟩),
    (0x5BC01402, .frw ⟨2, 5, false⟩)].all reads = true := by decide +kernel

theorem words_memory_chapter : [
    ((0x83C31C90 : Word), Instr.st ⟨7, 3, 7, 2, 4, 0⟩), (0x85CC50D0, .lds ⟨7, 12, 20, 6, 4⟩), (0x87CC50D0, .sts ⟨7, 12, 20, 6, 4⟩),
    (0x81CA1D17, .ld ⟨7, 10, 7, 4, 5, 3⟩), (0xFE804000, .hmod ⟨0, false, false, false, 1, false⟩),
    (0x89C42924, .ldt ⟨7, 4, 10, 2, 2, false, true, 0⟩), (0x89C4292C, .ldt ⟨7, 4, 10, 2, 2, true, true, 0⟩),
    (0x8DD05090, .cpt ⟨16, 20, 1, 1, false, 0⟩), (0x8FCA0000, .cpseal ⟨10⟩), (0x8FC02801, .cpwait ⟨10, false⟩),
    (0x8FC12402, .waitc ⟨1, 9, false⟩), (0x91C01C82, .pref ⟨7, 7, 2, 2⟩), (0x93C15000, .shset ⟨1, 20, 0⟩)].all reads = true := by decide +kernel

theorem words_ordering_chapter : [
    ((0x95D00000 : Word), Instr.phase ⟨1, 0⟩), (0x95E40000, .phase ⟨2, 1⟩), (0x95F80000, .phase ⟨3, 2⟩), (0x95C00001, .fence),
    (0x95C00002, .bar ⟨false, false, 0⟩), (0x95C40002, .bar ⟨false, false, 1⟩), (0x95F40002, .bar ⟨true, true, 1⟩),
    (0x97C01060, .cleanr ⟨2, 6, false⟩), (0x97C05091, .invr ⟨10, 9, false⟩), (0x97C020A2, .flushr ⟨4, 10, false⟩)].all reads = true := by
  decide +kernel

theorem words_matrix_chapter : [
    ((0x99C40004 : Word), Instr.mma ⟨7, 0, 8, 0, 0, 0, true, 0⟩), (0x989620E0, .mma ⟨2, 1, 12, 16, 3, 4, false, 0⟩), (0x9BC20000, .mzero ⟨2⟩),
    (0x9BC61001, .mrd ⟨7, 6, 4, false⟩), (0x9BC028C2, .msts ⟨10, 12, false, false⟩), (0x9BC50003, .mstat ⟨5⟩)].all reads = true := by
  decide +kernel

theorem words_vertex_chapter : [
    ((0xA0843580 : Word), Instr.aopAdd ⟨2, 4, 13, 6, false⟩), (0xA1C61C85, .aopMin ⟨7, 6, 7, 2, true⟩),
    (0xFE840000, .hmod ⟨0, true, false, false, 0, false⟩), (0xA3C81C83, .aopCas ⟨7, 8, 7, 2, false⟩), (0xA5C61002, .callm ⟨7, 6, 4, 2⟩),
    (0xA7C11000, .cbatch ⟨1, 1⟩), (0xA7C00831, .creply ⟨2, 3, false, false⟩), (0xA7C00002, .cdone),
    (0xA7C93587, .twait ⟨7, 9, 13, 6, 1⟩), (0xA9C00880, .mreg ⟨2, 4, false⟩), (0xA0441C83, .aopXchg ⟨1, 4, 7, 2, false⟩)].all reads = true := by
  decide +kernel

theorem words_scheduler_chapter : [
    ((0xABC00000 : Word), Instr.trig), (0xABC00001, .waitdep), (0xABC00002, .yield), (0xABC00003, .joink), (0xADC02000, .launch ⟨4⟩),
    (0xADC03001, .postc ⟨6⟩), (0xADC03892, .rput ⟨14, 9, false, false⟩), (0xADC83803, .rget ⟨8, 14, false⟩),
    (0xAFC81C88, .gx ⟨7, 8, 7, 2, 2⟩), (0xAFCA1C8D, .sx ⟨7, 10, 7, 2, 3⟩), (0xAE4324C0, .gx ⟨1, 3, 9, 3, 0⟩)].all reads = true := by
  decide +kernel

theorem words_capacity_chapter : [
    ((0xB1C30800 : Word), Instr.mron ⟨3, 2, false⟩), (0xB1C00801, .mroff ⟨2, false⟩), (0xB1C02062, .mrld ⟨4, 6, false⟩),
    (0xB1C02063, .mrst ⟨4, 6, false⟩), (0xB3D020A0, .mrop ⟨2, 8, 10, false, false⟩), (0xB3C720A1, .mradd ⟨7, 8, 10, false, false⟩),
    (0xB3C320A2, .mrmul ⟨3, 8, 10, false, false⟩), (0xB3C720A3, .mrcmp ⟨false, 7, 8, 10, false, false⟩),
    (0xB3E720A3, .mrcmp ⟨true, 7, 8, 10, false, false⟩), (0xB5C920A0, .mrred ⟨9, 8, 10, false, false⟩), (0xB7C71060, .hold ⟨7, 2, 6, false⟩),
    (0xB7C01C51, .hset ⟨7, 5, false, false⟩), (0xB7C01C02, .hdem ⟨7, false⟩), (0xB7C01C03, .hpro ⟨7, false⟩),
    (0xB9C01C00, .hrel ⟨7, false⟩)].all reads = true := by decide +kernel

theorem words_integrator_chapter : [
    ((0xBBC320C0 : Word), Instr.igbind ⟨3, 4, 6⟩), (0xBBC00001, .igrun), (0xBBC00002, .igret ⟨0⟩), (0xBBC10002, .igret ⟨1⟩),
    (0xBBC20002, .igret ⟨2⟩), (0xBBC30002, .igret ⟨3⟩), (0xBBC40002, .igret ⟨4⟩), (0xBBC00003, .igstop),
    (0xBDD44C00, .igq ⟨7, 20, 19, false, false⟩), (0xBDD44C10, .igq ⟨7, 20, 19, true, false⟩), (0xBDD50041, .igrd ⟨7, 21, 4⟩),
    (0xBDC05C12, .igwr ⟨7, 23, 1, false⟩)].all reads = true := by decide +kernel

theorem words_traps_and_sieve_chapters : [
    ((0xC1C00800 : Word), Instr.traps ⟨7, 2, false⟩), (0xC0400800, .traps ⟨1, 2, false⟩), (0xC1C00001, .tret), (0xC1C00002, .bkpt),
    (0xC1C02063, .synci ⟨4, 6, false⟩), (0xC3C01060, .tlbinv ⟨2, 6, false⟩), (0xBFC41460, .svput ⟨7, 4, 5, 6, false, false⟩),
    (0xBE441460, .svput ⟨1, 4, 5, 6, false, false⟩), (0xBFC82461, .svget ⟨7, 8, 9, 6, false, false⟩), (0xBFC01872, .svrel ⟨6, 7, false, false⟩),
    (0xBFC818A3, .svdrop ⟨8, 6, 10, false, false⟩)].all reads = true := by decide +kernel

theorem words_integer_rows : [
    (aForm 0 7 3 1 2 1 0 1, Instr.isub ⟨7, 3, 1, 2, true, false⟩), (aForm 0 7 3 1 0 0 0 2, .iabs ⟨7, 3, 1, false⟩),
    (aForm 0 7 3 1 2 0 1 3, .andn ⟨7, 3, 1, 2, false, true⟩), (aForm 1 0 3 1 2 0 0 0, .iminS ⟨0, 3, 1, 2, false, false⟩),
    (aForm 1 0 3 1 2 0 0 1, .iminU ⟨0, 3, 1, 2, false, false⟩), (aForm 1 6 3 1 2 0 0 2, .imaxS ⟨6, 3, 1, 2, false, false⟩),
    (aForm 1 6 3 1 2 0 0 3, .imaxU ⟨6, 3, 1, 2, false, false⟩), (aForm 2 7 63 62 61 0 0 0, .imulLo ⟨7, 63, 62, 61, false, false⟩),
    (aForm 2 7 3 1 2 0 0 1, .imulHiS ⟨7, 3, 1, 2, false, false⟩), (aForm 2 7 3 1 2 0 0 2, .imulHiU ⟨7, 3, 1, 2, false, false⟩),
    (aForm 2 7 3 1 2 1 1 3, .imad ⟨7, 3, 1, 2, true, true⟩), (aForm 3 7 3 1 2 0 0 0, .and ⟨7, 3, 1, 2, false, false⟩),
    (aForm 3 7 3 1 2 0 0 1, .or ⟨7, 3, 1, 2, false, false⟩), (aForm 3 7 3 1 2 0 0 2, .xor ⟨7, 3, 1, 2, false, false⟩),
    (aForm 4 7 3 1 2 0 0 0, .shl ⟨7, 3, 1, 2, false, false⟩), (aForm 4 7 3 1 2 0 0 1, .shr ⟨7, 3, 1, 2, false, false⟩),
    (aForm 4 7 3 1 2 0 0 2, .sar ⟨7, 3, 1, 2, false, false⟩), (aForm 4 7 3 1 2 0 0 3, .rot ⟨7, 3, 1, 2, false, false⟩),
    (aForm 5 7 3 1 0 0 0 0, .popc ⟨7, 3, 1, false⟩), (aForm 5 7 3 1 0 0 0 1, .clz ⟨7, 3, 1, false⟩), (aForm 5 7 3 1 0 0 0 2, .brev ⟨7, 3, 1, false⟩),
    (aForm 6 7 3 1 2 0 0 0, .bfxU ⟨7, 3, 1, 2, false, false⟩), (aForm 6 7 3 1 2 0 0 1, .bfxS ⟨7, 3, 1, 2, false, false⟩),
    (aForm 6 7 3 1 2 0 0 2, .bfi ⟨7, 3, 1, 2, false, false⟩), (aForm 7 7 (5 * 8 + 6) 1 2 0 0 1, .icmpU ⟨7, 5, 6, 1, 2, false, false⟩),
    (aForm 8 7 3 1 2 0 0 0, .plogAnd ⟨7, 3, 1, 2⟩), (aForm 8 7 3 1 2 0 0 1, .plogOr ⟨7, 3, 1, 2⟩), (aForm 8 7 3 1 2 0 0 2, .plogXor ⟨7, 3, 1, 2⟩),
    (aForm 8 7 3 1 2 0 0 3, .plogAndn ⟨7, 3, 1, 2⟩), (aForm 9 7 3 1 0 1 0 0, .mov ⟨7, 3, 1, true⟩), (iForm 10 7 3 1 0x3FF, .iaddi ⟨7, 3, 1, 0x3FF⟩),
    (iForm 12 7 3 1 5, .ori ⟨7, 3, 1, 5⟩), (iForm 13 7 3 1 5, .xori ⟨7, 3, 1, 5⟩), (iForm 14 7 3 0 5, .movi ⟨7, 3, 5⟩),
    (iForm 17 7 3 1 31, .shri ⟨7, 3, 1, 31⟩), (iForm 18 7 3 1 31, .sari ⟨7, 3, 1, 31⟩)].all reads = true := by decide +kernel

theorem words_scalar_rows : [
    (aForm 0x14 7 3 1 2 0 0 0, Instr.sadd ⟨3, 1, 2, false, false⟩), (aForm 0x14 7 3 1 2 0 0 1, .ssub ⟨3, 1, 2, false, false⟩),
    (aForm 0x14 7 3 1 2 0 0 2, .smul ⟨3, 1, 2, false, false⟩), (aForm 0x14 7 31 30 29 1 1 3, .sand ⟨31, 30, 29, true, true⟩),
    (aForm 0x15 7 3 1 2 0 0 0, .sor ⟨3, 1, 2, false, false⟩), (aForm 0x15 7 3 1 2 0 0 1, .sxor ⟨3, 1, 2, false, false⟩),
    (aForm 0x15 7 3 1 2 0 0 2, .sshl ⟨3, 1, 2, false, false⟩), (aForm 0x15 7 3 1 2 0 0 3, .sshr ⟨3, 1, 2, false, false⟩),
    (aForm 0x16 7 (3 * 8 + 4) 1 2 0 0 0, .scmpS ⟨3, 4, 1, 2, false, false⟩), (aForm 0x16 7 (3 * 8 + 4) 1 2 0 0 1, .scmpU ⟨3, 4, 1, 2, false, false⟩),
    (aForm 0x17 7 3 1 0 0 0 0, .smov ⟨3, 1, false⟩), (aForm 0x17 2 3 63 0 0 0 1, .v2s ⟨2, 3, 63, false⟩), (aForm 0x17 2 63 3 0 0 0 2, .s2v ⟨2, 63, 3, false⟩),
    (iForm 0x18 7 3 1 9, .saddi ⟨3, 1, 9⟩), (iForm 0x19 7 3 0 9, .smovi ⟨3, 9⟩), (iForm 0x1B 7 0 6 14, .swr ⟨6, 14⟩)].all reads = true := by
  decide +kernel

theorem words_float_rows : [
    (aForm 0x20 7 3 1 2 0 0 1, Instr.fsub ⟨7, 3, 1, 2, false, false⟩), (aForm 0x20 7 3 1 2 0 0 2, .fmul ⟨7, 3, 1, 2, false, false⟩),
    (aForm 0x21 7 3 1 2 0 0 0, .fmin ⟨7, 3, 1, 2, false, false⟩), (aForm 0x21 7 3 1 2 0 0 1, .fmax ⟨7, 3, 1, 2, false, false⟩),
    (aForm 0x21 7 3 1 0 0 0 2, .fclass ⟨7, 3, 1, false⟩), (aForm 0x22 7 (1 * 8 + 2) 1 2 0 0 0, .fcmp ⟨7, 1, 2, 1, 2, false, false⟩),
    (aForm 0x23 7 3 1 2 0 0 0, .haddBf ⟨7, 3, 1, 2, false, false⟩), (aForm 0x23 7 3 1 2 0 0 1, .hmulBf ⟨7, 3, 1, 2, false, false⟩),
    (aForm 0x23 7 3 1 2 0 0 3, .hmaxBf ⟨7, 3, 1, 2, false, false⟩), (aForm 0x24 7 3 1 2 0 0 0, .haddF16 ⟨7, 3, 1, 2, false, false⟩),
    (aForm 0x24 7 3 1 2 0 0 1, .hmulF16 ⟨7, 3, 1, 2, false, false⟩), (aForm 0x24 7 3 1 2 0 0 2, .hfmaF16 ⟨7, 3, 1, 2, false, false⟩),
    (aForm 0x24 7 3 1 2 0 0 3, .hmaxF16 ⟨7, 3, 1, 2, false, false⟩), (aForm 0x25 7 3 1 2 0 1 1, .nmul ⟨7, 3, 1, 2, 1⟩),
    (aForm 0x25 7 3 1 2 1 0 2, .nfma ⟨7, 3, 1, 2, 2⟩), (aForm 0x25 7 3 1 2 1 1 3, .nmax ⟨7, 3, 1, 2, 3⟩), (aForm 0x26 7 3 1 2 0 0 0, .nmin ⟨7, 3, 1, 2, 0⟩),
    (aForm 0x26 7 (4 * 8 + 5) 1 2 1 1 1, .ncmp ⟨7, 4, 5, 1, 2, 3⟩), (aForm 0x27 7 3 1 0 0 0 1, .rsq ⟨7, 3, 1, false⟩),
    (aForm 0x27 7 3 1 0 0 0 2, .sqrt ⟨7, 3, 1, false⟩), (aForm 0x27 7 3 1 0 0 0 3, .tanh ⟨7, 3, 1, false⟩), (aForm 0x28 7 3 1 0 0 0 0, .ex2 ⟨7, 3, 1, false⟩),
    (aForm 0x28 7 3 1 0 0 0 1, .lg2 ⟨7, 3, 1, false⟩), (aForm 0x28 7 3 1 0 0 0 2, .sinp ⟨7, 3, 1, false⟩), (aForm 0x28 7 3 1 0 0 0 3, .cosp ⟨7, 3, 1, false⟩),
    (aForm 0x29 7 3 1 (5 * 8 + 2) 0 0 0, .cvtRne ⟨7, 3, 1, false, 5, 2⟩), (aForm 0x29 7 3 1 (5 * 8 + 2) 0 0 1, .cvtRtz ⟨7, 3, 1, false, 5, 2⟩),
    (aForm 0x29 7 3 1 (5 * 8 + 2) 0 0 2, .cvtSr ⟨7, 3, 1, false, 5, 2⟩), (aForm 0x29 7 3 1 (5 * 8 + 2) 0 0 3, .cvt ⟨7, 3, 1, false, 5, 2⟩),
    (aForm 0x2A 7 3 1 (2 * 16) 0 0 0, .cvtnRne ⟨7, 3, 1, false, 2, false⟩), (aForm 0x2A 7 3 1 (2 * 16 + 8) 0 0 1, .cvtnRtz ⟨7, 3, 1, false, 2, true⟩),
    (aForm 0x2A 7 3 1 (3 * 16) 0 0 2, .cvtnSr ⟨7, 3, 1, false, 3, false⟩), (aForm 0x2B 7 3 1 0 0 0 0, .i2fS ⟨7, 3, 1, false⟩),
    (aForm 0x2B 7 3 1 0 0 0 1, .i2fU ⟨7, 3, 1, false⟩), (aForm 0x2B 7 3 1 0 0 0 3, .f2iU ⟨7, 3, 1, false⟩),
    (aForm 0x2C 7 3 1 2 0 0 1, .pld ⟨7, 3, 1, 2, false, false⟩)].all reads = true := by decide +kernel

theorem words_lane_and_control_rows : [
    (aForm 0x30 7 3 1 2 0 0 0, Instr.shflIdx ⟨7, 3, 1, 2, false, false⟩), (aForm 0x30 7 3 1 2 0 0 2, .shflUp ⟨7, 3, 1, 2, false, false⟩),
    (aForm 0x30 7 3 1 2 0 1 3, .shflDn ⟨7, 3, 1, 2, false, true⟩), (aForm 0x31 7 3 1 0 0 0 1, .voteAll ⟨7, 3, 1⟩),
    (aForm 0x31 7 30 1 0 0 0 2, .voteBal ⟨7, 30, 1⟩), (aForm 0x32 7 3 1 0 0 0 0, .rlogIadd ⟨7, 3, 1, false⟩),
    (aForm 0x32 7 3 1 0 0 0 1, .rlogImaxS ⟨7, 3, 1, false⟩), (aForm 0x32 7 3 1 0 0 0 3, .rlogFmax ⟨7, 3, 1, false⟩),
    (aForm 0x33 7 3 1 0 0 0 0, .scanIadd ⟨7, 3, 1, false⟩), (aForm 0x33 7 3 1 0 0 0 1, .scanFadd ⟨7, 3, 1, false⟩),
    (BitVec.ofNat 32 (0x35 * 2 ^ 25 + 3 * 2 ^ 22 + 5), .brAll ⟨3, 5⟩), (BitVec.ofNat 32 (0x36 * 2 ^ 25 + 7 * 2 ^ 22 + 5), .call ⟨5⟩),
    (aForm 0x37 7 0 0 0 0 0 0, .ret), (aForm 0x37 3 0 0 0 0 0 2, .exit ⟨3⟩), (aForm 0x37 7 0 0 0 0 0 3, .nop), (aForm 0x38 7 0 0 0 0 0 1, .elseP),
    (aForm 0x38 7 0 0 0 0 0 2, .endif)].all reads = true := by decide +kernel

theorem words_other_rows : [
    (tForm 0x45 7 4 10 2 2 1 3, Instr.stt ⟨7, 4, 10, 2, 2, false, true, 3⟩), (mForm 0x50 7 4 13 12 0 2, .aopMax ⟨7, 4, 13, 6, false⟩),
    (mForm 0x51 7 4 13 12 0 0, .aopAnd ⟨7, 4, 13, 6, false⟩), (mForm 0x51 7 4 13 12 0 1, .aopOr ⟨7, 4, 13, 6, false⟩),
    (mForm 0x51 7 4 13 12 0 2, .aopXor ⟨7, 4, 13, 6, false⟩),
    (BitVec.ofNat 32 (0x7F * 2 ^ 25 + 1 * 2 ^ 22 + 2 * 2 ^ 20 + 2 ^ 19 + 5 * 2 ^ 16), .hsched ⟨2, true, 5⟩)].all reads = true := by decide +kernel

/-- A stratum word and what it stands for (R321). -/
def readsStratum (x : Word × Instr) : Bool :=
  (match decodeStratum x.1 with | .ok j => decide (j = x.2) | .error _ => false) && decide (encode x.2 = some x.1) && x.2.wf

theorem words_stratum_rows : [
    (mForm 0x40 7 8 3 0 5 0, Instr.stratumLd ⟨7, 8, 3, 5⟩), (mForm 0x41 2 9 3 0 2 0, .stratumSt ⟨2, 9, 3, 2⟩),
    (iForm 0x39 7 0 5 12, .stratumLoop ⟨5, 12⟩)].all readsStratum = true := by decide +kernel

/-- The reason with which a word is refused. -/
def refused (x : Word × Nat) : Bool := match decode x.1 with | .ok _ => false | .error r => r.code == x.2

theorem words_refused : [
    ((0x81C81C9C : Word), 5), (0x83C31C84, 5), (0x81C81CB0, 5), (0x85CC50D1, 5), (0x8DD050F0, 5), (0x8D105090, 4), (0x8FC72402, 5),
    (0x93C15010, 5), (0x89C4292D, 5), (0xBE001872, 4), (0xBFC11872, 5), (0xBFC92461, 5), (0xBFC819F3, 5),
    (aForm 0x13 7 0 0 0 0 0 0, 1), (aForm 0x1F 7 0 0 0 0 0 0, 1), (aForm 0x2E 7 0 0 0 0 0 0, 1), (aForm 0x4F 7 0 0 0 0 0 0, 1),
    (aForm 0x62 7 0 0 0 0 0 0, 1), (aForm 0x7E 7 0 0 0 0 0 0, 1), (aForm 5 7 3 1 0 0 0 3, 2), (aForm 0x22 7 0 1 2 0 0 2, 2),
    (aForm 0x5C 7 0 7 0 0 0 1, 2), (BitVec.ofNat 32 (0x7F * 2 ^ 25 + 3 * 2 ^ 22), 3), (aForm 0x14 6 3 1 2 0 0 0, 4), (aForm 3 7 3 1 2 0 0 3, 5),
    (aForm 0x14 7 32 1 2 0 0 0, 5), (aForm 8 7 7 1 2 0 0 0, 5), (aForm 0 7 3 1 2 0 0 2, 5), (aForm 0x31 7 3 1 0 1 0 0, 5),
    (iForm 0x10 7 4 4 32, 5), (iForm 0x39 7 0 32 12, 5), (BitVec.ofNat 32 (0x7F * 2 ^ 25 + 1 * 2 ^ 22 + 3 * 2 ^ 20), 5)].all refused = true := by
  decide +kernel

/-! ### A small machine -/

/-- Lanes of the test team: lane L holds `f L`. -/
def lanes (f : Nat → Nat) : List Word := (List.range 32).map fun L => BitVec.ofNat 32 (f L)

/-- The registers of the test team: 64 vector registers; v1 holds 5 and 4 L, v2 holds 3 in every lane. -/
def regs : Regs :=
  { Regs.zero 32 64 with
    v := [lanes fun L => 4 * L, lanes fun _ => 5, lanes fun _ => 3] ++ List.replicate 61 (List.replicate 32 0),
    p := [0xF0, 0xFF, 0x5, 0, 0, 0, 0] }

/-- A resident team of a core, at 0x1000, privileged. -/
def core : Team := { loadTeam with rf := regs, pl := { loadTeam.pl with grid := 1 } }

/-- The machine with a team in focus. -/
def at1 (t : Team) : State := { State.reset with team := t, sched := { State.reset.sched with nextUid := 9 } }

/-- What `Ready` asks, as a check. -/
def readyB (i : Instr) (s : State) : Bool :=
  let u := usesNow i s
  !aopBadD (hmodOf s.team).dw i && u.vs.all (fun x => decide (x.1 < s.team.rf.nv)) && u.vd.all (fun r => decide (r < s.team.rf.nv))
    && (match s.team.ctl.hints with | none => true | some h => hintsOk h i) && (!needsPriv i || privileged s.team)
    && (s.team.kind != .wave || !waveForbids i) && (!waveOnly i || s.team.kind == .wave)
    && (!inRoutine s s.team || !routineForbids i) && u.vs.all (fun x => vIsFull s.team x.1) && u.ss.all (fun x => sIsFull s.team x.1)
    && u.vd.all (fun r => vIsFull s.team r) && u.sd.all (fun r => sIsFull s.team r)
    && u.vd.all fun r => !(matrixReads s s.team).contains r

/-- What `RunsLanes` asks, as a check. -/
def runsB (i : Instr) (s : State) : Bool :=
  let f := s.team.rf
  i.wf && readyB i s && !stepping s.team
    && s.team.ctl.loops.all (fun f => s.team.ctl.pc != f.start + BitVec.ofNat 64 (4 * (f.len - 1)))
    && f.v.length == f.nv && f.s.length == 32 && f.p.length == 7 && f.lc.length == 3 && f.fr.length == 4 && f.fs.length == 8
    && f.sh.length == 8 && [32, 64, 128, 256, 512, 1024].contains f.n

theorem ready_of {i : Instr} {s : State} (h : readyB i s = true) : Ready i s := by
  unfold readyB at h
  simp only [Bool.and_eq_true, Bool.not_eq_true', List.all_eq_true, decide_eq_true_eq, Bool.or_eq_true, bne_iff_ne, beq_iff_eq] at h
  obtain ⟨⟨⟨⟨⟨⟨⟨⟨⟨⟨⟨⟨h1, h2⟩, h3⟩, h4⟩, h5⟩, h6⟩, h7⟩, h8⟩, h9⟩, h10⟩, h11⟩, h12⟩, h13⟩ := h
  refine ⟨h1, h2, h3, ?_, ?_, ?_, ?_, ?_, h9, h10, h11, h12, ?_⟩
  · intro h hh; rw [hh] at h4; exact h4
  · intro hp; rcases h5 with h5 | h5
    · rw [hp] at h5; exact absurd h5 (by decide)
    · exact h5
  · intro hk; rcases h6 with h6 | h6
    · exact absurd hk h6
    · exact h6
  · intro hw; rcases h7 with h7 | h7
    · rw [hw] at h7; exact absurd h7 (by decide)
    · exact h7
  · intro hr; rcases h8 with h8 | h8
    · rw [hr] at h8; exact absurd h8 (by decide)
    · exact h8
  · intro r hr; have := h13 r hr; simpa using this

theorem runs_of {i : Instr} {s : State} (h : runsB i s = true) : RunsLanes i s := by
  unfold runsB at h
  simp only [Bool.and_eq_true, Bool.not_eq_true', List.all_eq_true, beq_iff_eq, bne_iff_ne] at h
  obtain ⟨⟨⟨⟨⟨⟨⟨⟨⟨⟨⟨h1, h2⟩, h3⟩, h4⟩, h5⟩, h6⟩, h7⟩, h8⟩, h9⟩, h10⟩, h11⟩, h12⟩ := h
  exact ⟨⟨h1, ready_of h2, ⟨h3, h4⟩, ⟨h5, h6, h7, h8, h9, h10, h11⟩⟩, by simpa [Laned] using h12⟩

/-- The checks of a list of instructions. -/
theorem all_runs {l : List Instr} {s : State} (h : l.all (fun i => runsB i s) = true) : ∀ i ∈ l, RunsLanes i s :=
  fun i hi => runs_of (List.all_eq_true.mp h i hi)

theorem issues_of {i : Instr} {s : State} (h : readyB i s = true) (h2 : stepping s.team = false) : Issues i s := ⟨ready_of h, h2⟩

/-! ### Witnesses: registers, floats and lanes

Each theorem shows a state and operands that meet the hypotheses of the statement, or of the clause, that its name says. -/

/-- The instructions whose only hypothesis is that they run. -/
def registerInstrs : List Instr := [
  .iadd ⟨7, 3, 1, 2, false, false⟩, .isub ⟨0, 3, 1, 2, true, true⟩, .iaddi ⟨7, 63, 63, 0x200⟩, .iabs ⟨7, 3, 1, false⟩, .andn ⟨7, 3, 1, 2, false, false⟩,
  .iminS ⟨7, 3, 1, 2, false, false⟩, .iminU ⟨7, 3, 1, 2, false, false⟩, .imaxS ⟨7, 3, 1, 2, false, false⟩, .imaxU ⟨7, 3, 1, 2, false, false⟩,
  .imulLo ⟨7, 3, 1, 2, false, false⟩, .imulHiS ⟨7, 3, 1, 2, false, false⟩, .imulHiU ⟨7, 3, 1, 2, false, false⟩, .imad ⟨7, 3, 1, 2, false, false⟩,
  .and ⟨7, 3, 1, 2, false, false⟩, .or ⟨7, 3, 1, 2, false, false⟩, .xor ⟨7, 3, 1, 2, false, false⟩, .sel ⟨2, 3, 1, 2, false, false⟩,
  .andi ⟨7, 3, 1, 0x3FF⟩, .ori ⟨7, 3, 1, 0⟩, .xori ⟨7, 3, 1, 1⟩, .shl ⟨7, 3, 1, 2, false, false⟩, .shr ⟨7, 3, 1, 2, false, false⟩,
  .sar ⟨7, 3, 1, 2, false, false⟩, .rot ⟨7, 3, 1, 2, false, false⟩, .shli ⟨7, 3, 1, 31⟩, .shri ⟨7, 3, 1, 0⟩, .sari ⟨7, 3, 1, 31⟩,
  .popc ⟨7, 3, 1, false⟩, .clz ⟨7, 3, 1, false⟩, .brev ⟨7, 3, 1, false⟩, .bfxU ⟨7, 3, 1, 2, false, false⟩, .bfxS ⟨7, 3, 1, 2, false, false⟩,
  .bfi ⟨7, 3, 1, 2, false, false⟩, .icmpS ⟨7, 5, 6, 1, 2, false, false⟩, .icmpU ⟨7, 0, 0, 1, 2, false, false⟩, .icmpi ⟨7, 5, 4, 1, 0x3FF⟩,
  .plogAnd ⟨7, 6, 0, 1⟩, .plogOr ⟨7, 3, 0, 1⟩, .plogXor ⟨7, 3, 0, 1⟩, .plogAndn ⟨7, 3, 0, 1⟩, .mov ⟨7, 3, 1, false⟩, .movSp ⟨7, 3⟩, .movi ⟨7, 3, 0x200⟩,
  .s2v ⟨7, 3, 31, false⟩, .v2s ⟨7, 31, 0, false⟩, .sadd ⟨31, 0, 1, true, true⟩, .ssub ⟨3, 1, 2, false, false⟩, .smul ⟨3, 1, 2, false, false⟩,
  .sand ⟨3, 1, 2, false, false⟩, .sor ⟨3, 1, 2, false, false⟩, .sxor ⟨3, 1, 2, false, false⟩, .sshl ⟨3, 1, 2, false, false⟩,
  .sshr ⟨3, 1, 2, false, false⟩, .saddi ⟨3, 1, 0x3FF⟩, .smovi ⟨3, 0x3FF⟩, .smov ⟨3, 1, false⟩, .scmpS ⟨5, 6, 1, 2, false, false⟩,
  .scmpU ⟨0, 0, 1, 2, false, false⟩, .fadd ⟨7, 3, 1, 2, false, false⟩, .fsub ⟨7, 3, 1, 2, false, false⟩, .fmul ⟨7, 3, 1, 2, false, false⟩,
  .ffma ⟨7, 3, 1, 2, false, false⟩, .haddBf ⟨7, 3, 1, 2, false, false⟩, .hmulBf ⟨7, 3, 1, 2, false, false⟩, .hfmaBf ⟨7, 3, 1, 2, false, false⟩,
  .haddF16 ⟨7, 3, 1, 2, false, false⟩, .hmulF16 ⟨7, 3, 1, 2, false, false⟩, .hfmaF16 ⟨7, 3, 1, 2, false, false⟩, .fmin ⟨7, 3, 1, 2, false, false⟩,
  .fmax ⟨7, 3, 1, 2, false, false⟩, .hmaxBf ⟨7, 3, 1, 2, false, false⟩, .hmaxF16 ⟨7, 3, 1, 2, false, false⟩, .fclass ⟨7, 3, 1, false⟩,
  .fcmp ⟨7, 5, 6, 1, 2, false, false⟩, .fcmpUo ⟨7, 0, 0, 1, 2, false, false⟩, .rcp ⟨7, 3, 1, false⟩, .rsq ⟨7, 3, 1, false⟩, .sqrt ⟨7, 3, 1, false⟩,
  .tanh ⟨7, 3, 1, false⟩, .ex2 ⟨7, 3, 1, false⟩, .lg2 ⟨7, 3, 1, false⟩, .sinp ⟨7, 3, 1, false⟩, .cosp ⟨7, 3, 1, false⟩,
  .cvtRne ⟨7, 3, 1, false, 7, 0⟩, .cvtRtz ⟨7, 3, 1, false, 0, 7⟩, .cvtSr ⟨7, 3, 1, false, 0, 0⟩, .cvt ⟨7, 3, 1, false, 0, 0⟩, .i2fS ⟨7, 3, 1, false⟩,
  .i2fU ⟨7, 3, 1, false⟩, .f2iS ⟨7, 3, 1, false⟩, .f2iU ⟨7, 3, 1, false⟩, .plx ⟨7, 3, 1, 2, false, false⟩, .pld ⟨7, 3, 1, 2, false, false⟩,
  .frw ⟨3, 1, false⟩, .shflIdx ⟨7, 3, 1, 2, false, false⟩, .shflXor ⟨7, 3, 1, 5, false, true⟩, .shflUp ⟨7, 3, 1, 1, false, true⟩,
  .shflDn ⟨7, 3, 1, 2, false, false⟩, .voteAny ⟨7, 6, 0⟩, .voteAll ⟨7, 0, 6⟩, .voteBal ⟨7, 31, 0⟩, .rlogIadd ⟨7, 3, 1, false⟩,
  .rlogImaxS ⟨7, 3, 1, false⟩, .rlogFadd ⟨7, 3, 1, false⟩, .rlogFmax ⟨7, 3, 1, false⟩, .scanIadd ⟨7, 3, 1, false⟩, .scanFadd ⟨7, 3, 1, false⟩,
  .elect ⟨7, 6⟩, .mskrd ⟨31, 0, false⟩, .srd ⟨31, 0⟩, .srd ⟨30, 12⟩, .srd ⟨31, 21⟩, .trig, .yield]

theorem witness_register_instructions : ∀ i ∈ registerInstrs, RunsLanes i (at1 core) := all_runs (by decide +kernel)

/-- A hint run before the word at `core`'s address. -/
def hinted (himm : Option HimmOp) (hmod : Option HmodOp) : State :=
  at1 { core with ctl := { core.ctl with hints := some { first := 0xFF8, himm := himm, hsched := none, hmod := hmod, twice := false } } }

/-- The same instructions run behind a hint word that suits them. -/
theorem witness_hinted_instructions :
    (∀ i ∈ [Instr.iaddi ⟨7, 3, 1, 5⟩, .andi ⟨7, 3, 1, 5⟩, .ori ⟨7, 3, 1, 5⟩, .xori ⟨7, 3, 1, 5⟩, .movi ⟨7, 3, 5⟩, .icmpi ⟨7, 0, 0, 1, 5⟩, .saddi ⟨3, 1, 5⟩,
      .smovi ⟨3, 5⟩], RunsLanes i (hinted (some ⟨0x3FFFFF⟩) none))
    ∧ (∀ i ∈ [Instr.iadd ⟨7, 3, 1, 2, false, false⟩, .isub ⟨7, 3, 1, 2, false, false⟩, .iaddi ⟨7, 3, 1, 5⟩],
      RunsLanes i (hinted none (some ⟨0, false, false, true, 0, false⟩)))
    ∧ (∀ i ∈ [Instr.icmpi ⟨7, 0, 0, 1, 5⟩], RunsLanes i (hinted none (some ⟨0, false, true, false, 0, false⟩)))
    ∧ ∀ i ∈ [Instr.fadd ⟨7, 3, 1, 2, false, false⟩, .haddBf ⟨7, 3, 1, 2, false, false⟩, .haddF16 ⟨7, 3, 1, 2, false, false⟩,
      .nadd ⟨7, 3, 1, 2, 0⟩, .rcp ⟨7, 3, 1, false⟩, .ex2 ⟨7, 3, 1, false⟩, .i2fS ⟨7, 3, 1, false⟩],
      RunsLanes i (hinted none (some ⟨5, false, false, false, 0, false⟩)) :=
  ⟨all_runs (by decide +kernel), all_runs (by decide +kernel), all_runs (by decide +kernel), all_runs (by decide +kernel)⟩

/-- The team with E4M3 in fr0 and an ill-formed fr3. -/
def narrowCore : Team := { core with rf := { regs with fr := [0x280E34, 0, 0, 0x800000] } }

theorem witness_narrow :
    (∀ i ∈ [Instr.nadd ⟨7, 3, 1, 2, 0⟩, .nmul ⟨7, 3, 1, 2, 0⟩, .nfma ⟨7, 3, 1, 2, 0⟩, .nmax ⟨7, 3, 1, 2, 0⟩, .nmin ⟨7, 3, 1, 2, 0⟩,
      .ncmp ⟨7, 5, 6, 1, 2, 0⟩, .cvtnRne ⟨7, 3, 1, false, 0, true⟩, .cvtnRtz ⟨7, 3, 1, false, 0, false⟩, .cvtnSr ⟨7, 3, 1, false, 0, true⟩,
      .cvtn ⟨7, 3, 1, false, 0, false⟩], RunsLanes i (at1 narrowCore)) ∧ ∃ k, frFmt (frget narrowCore 0) = some k :=
  ⟨all_runs (by decide +kernel), _, rfl⟩

theorem witness_narrow_ill_formed :
    (∀ i ∈ [Instr.nadd ⟨7, 3, 1, 2, 3⟩, .nmul ⟨7, 3, 1, 2, 3⟩, .nfma ⟨7, 3, 1, 2, 3⟩, .nmax ⟨7, 3, 1, 2, 3⟩, .nmin ⟨7, 3, 1, 2, 3⟩,
      .ncmp ⟨7, 5, 6, 1, 2, 3⟩, .cvtnRne ⟨7, 3, 1, false, 3, true⟩, .cvtnRtz ⟨7, 3, 1, false, 3, false⟩, .cvtnSr ⟨7, 3, 1, false, 3, true⟩,
      .cvtn ⟨7, 3, 1, false, 3, false⟩], RunsLanes i (at1 narrowCore)) ∧ frFmt (frget narrowCore 3) = none :=
  ⟨all_runs (by decide +kernel), rfl⟩

theorem witness_special_function_edges : fp32.decode (0x7FC00000 : Word).toNat = .nan ∧ fp32.decode (0xFF800001 : Word).toNat = .nan := by
  decide +kernel

theorem witness_float_nans : let k := fp32.ftz false
    k.decode 0x7F800000 = .inf false ∧ k.decode 0xFF800000 = .inf true ∧ ∃ q x, k.decode 0 = .fin false 0 q x :=
  ⟨by decide +kernel, by decide +kernel, _, _, rfl⟩

theorem witness_float_to_integer : (0 : Int) ≤ 0 ∧ (-2147483648 : Int) ≤ 0 ∧ (-2147483648 : Int) ≤ roundInt ⟨.rne, 0, 32⟩ true 3 2 0
    ∧ roundInt ⟨.rne, 0, 32⟩ true 3 2 0 ≤ 2147483647 := by decide +kernel

theorem witness_rounding : (0 : Nat) < 3 ∧ (1 : Nat) * 2 ^ ((0 : Int) - 0).toNat % (3 * 2 ^ ((0 : Int) - 0).toNat) ≠ 0
    ∧ (5 : Nat) % 1 = 0 ∧ 0 < ((2 : Int) - 0).toNat ∧ 5 * 2 ^ ((0 : Int) - 2).toNat % (1 * 2 ^ ((2 : Int) - 0).toNat) ≠ 0 := by decide

theorem witness_draws : ((List.range 32).filter fun w => maskWord core.ctl.mask w != 0)[0]? = some 0 ∧ 31 / 32 = 0 := by decide +kernel

theorem witness_words : fMaj (aForm 4 7 3 1 2 0 0 3) = 4 ∧ fFn (aForm 4 7 3 1 2 0 0 3) = 3 ∧ fMaj (aForm 5 7 3 1 0 0 0 3) = 5 ∧ fFn (aForm 5 7 3 1 0 0 0 3) = 3
    ∧ fMaj (iForm 0x12 7 3 1 31) = 0x12 ∧ fMaj (aForm 7 7 46 1 2 0 0 1) = 7 ∧ fFn (aForm 7 7 46 1 2 0 0 1) = 1 ∧ fMaj (iForm 0x0F 7 46 1 5) = 0x0F
    ∧ fMaj (aForm 8 7 6 1 2 0 0 3) = 8 ∧ fMaj (aForm 0x31 7 3 1 0 0 0 2) = 0x31 ∧ fB (aForm 0x31 7 3 1 0 0 0 2) = 0
    ∧ fEa (aForm 0x31 7 3 1 0 0 0 2) = false ∧ fMaj (aForm 0x33 7 6 0 0 0 0 2) = 0x33 ∧ fA (aForm 0x33 7 6 0 0 0 0 2) = 0
    ∧ fFn (aForm 0x33 7 31 31 0 0 0 3) = 3 ∧ (some (⟨5⟩ : HimmOp)) ≠ none := by decide

/-- MSKRD of a mask word, of the summary word, and past it. -/
theorem witness_mskrd : ∀ x ∈ [(0 : Word), 31, 32, 33],
    Runs (.mskrd ⟨2, 3, false⟩) (at1 (setS core 3 x)) ∧ sget (setS core 3 x) 3 = x := by
  intro x hx; fin_cases hx <;> exact ⟨(runs_of (by decide +kernel)).1, rfl⟩

/-- V2S with an active lane, whose lower lanes are not, and without one. -/
theorem witness_v2s : Runs (.v2s ⟨0, 5, 1, false⟩) (at1 core) ∧ (active core 0).getLsbD 4 = true
    ∧ (∀ K, K < 4 → (active core 0).getLsbD K = false) ∧ Runs (.v2s ⟨3, 5, 1, false⟩) (at1 core)
    ∧ ∀ L, L < 32 → (active core 3).getLsbD L = false :=
  ⟨(runs_of (by decide +kernel)).1, by decide +kernel, by decide +kernel, (runs_of (by decide +kernel)).1, by decide +kernel⟩

/-- SWR of each register with a legal and with a reserved value. -/
theorem witness_swr : (∀ i ∈ [Instr.swr ⟨30, 14⟩], RunsLanes i (at1 core))
    ∧ (∀ i ∈ [Instr.swr ⟨3, 19⟩, .swr ⟨3, 20⟩, .swr ⟨3, 21⟩], RunsLanes i (at1 (setS core 3 1))) ∧ (1 : Word).toNat ≤ 1
    ∧ (∀ i ∈ [Instr.swr ⟨3, 19⟩, .swr ⟨3, 20⟩, .swr ⟨3, 21⟩], RunsLanes i (at1 (setS core 3 5))) ∧ 4 < (5 : Word).toNat :=
  ⟨all_runs (by decide +kernel), all_runs (by decide +kernel), by decide, all_runs (by decide +kernel), by decide⟩

/-! ### Witnesses: issue -/

/-- `core` with registers v1 and s1 empty. -/
def emptyCore : Team := markS (markV core 1 false) 1 false

/-- A register at or above V, in a team of 16 registers. -/
def smallCore : Team := { core with rf := { regs with nv := 16, v := regs.v.take 16 } }

theorem witness_issue_order :
    (let s := hinted none (some ⟨0, true, false, false, 0, false⟩)
     aopBadD (hmodOf s.team).dw (.aopAdd ⟨7, 5, 1, 2, false⟩) = true)
    ∧ (∃ x ∈ (usesNow (.iadd ⟨7, 3, 16, 2, false, false⟩) (at1 smallCore)).vs, (at1 smallCore).team.rf.nv ≤ x.1)
    ∧ (∃ r ∈ (usesNow (.iadd ⟨7, 63, 1, 2, false, false⟩) (at1 smallCore)).vd, (at1 smallCore).team.rf.nv ≤ r)
    ∧ (∀ run, (hinted (some ⟨1⟩) none).team.ctl.hints = some run → hintsOk run (.iadd ⟨7, 3, 1, 2, false, false⟩) = false)
    ∧ (needsPriv (.mreg ⟨1, 2, false⟩) = true ∧ privileged { core with pl := { core.pl with priv := false } } = false)
    ∧ (waveForbids (.exit ⟨7⟩) = true ∧ needsPriv (.exit ⟨7⟩) = false) ∧ (waveOnly .cdone = true ∧ core.kind = .core)
    ∧ (routineForbids .igrun = true ∧ waveOnly .igrun = false)
    ∧ (∃ x ∈ (usesNow (.iadd ⟨7, 3, 1, 2, true, false⟩) (at1 emptyCore)).vs, x.2 = true ∧ vIsFull emptyCore x.1 = false)
    ∧ (∃ x ∈ (usesNow (.sadd ⟨3, 1, 2, true, false⟩) (at1 emptyCore)).ss, x.2 = true ∧ sIsFull emptyCore x.1 = false)
    ∧ (∃ x ∈ (usesNow (.iadd ⟨7, 3, 1, 2, false, false⟩) (at1 emptyCore)).vs, vIsFull emptyCore x.1 = false)
    ∧ (∃ r ∈ (usesNow (.mov ⟨7, 1, 2, false⟩) (at1 emptyCore)).vd, vIsFull emptyCore r = false)
    ∧ ∃ r ∈ (usesNow (.smov ⟨1, 2, false⟩) (at1 emptyCore)).sd, sIsFull emptyCore r = false := by
  refine ⟨by decide +kernel, ⟨(16, false), by decide +kernel⟩, ⟨63, by decide +kernel⟩, ?_, by decide, by decide, by decide, by decide,
    ⟨(1, true), by decide +kernel⟩, ⟨(1, true), by decide +kernel⟩, ⟨(1, false), by decide +kernel⟩, ⟨1, by decide +kernel⟩,
    ⟨1, by decide +kernel⟩⟩
  intro run h; cases h; decide +kernel

theorem witness_immediates : core.ctl.hints = none ∧ ∃ h x, (hinted (some ⟨5⟩) none).team.ctl.hints = some h ∧ h.himm = some x :=
  ⟨rfl, _, _, rfl, rfl⟩

/-! ### Witnesses: control -/

/-- `core` with another control state. -/
def withCtl (f : Control → Control) : State := at1 { core with ctl := f core.ctl }

/-- A live loop of 4 words, the team at word `k` of its body, over an empty stack but for its entry, and IF entries above it. -/
def looping (k : Nat) (ifs : List MaskEntry) : State :=
  withCtl fun c => { c with
    pc := 0x1000 + BitVec.ofNat 64 (4 * k), loops := [⟨0x1000, 4⟩], stack := ifs ++ [{ mask := 0xFF, kind := .loopK }] }

/-- Branches: taken and not taken, forward and to the farthest words, with `BR.ALL` over a false and a true guard. -/
theorem witness_branches :
    (∀ o ∈ [(⟨7, 6⟩ : BrOp), ⟨1, 0x1FFFFF⟩, ⟨3, 0x200000⟩], Issues (.br o) (at1 core) ∧ StaysInLoops (at1 core) (targetOf (at1 core) o.off))
    ∧ (∃ L, (active core 1).getLsbD L = true) ∧ (¬∃ L, L < 1024 ∧ (active core 3).getLsbD L = true)
    ∧ (∀ o ∈ [(⟨7, 6⟩ : BrOp), ⟨1, 6⟩], Issues (.brAll o) (at1 core) ∧ StaysInLoops (at1 core) (targetOf (at1 core) o.off))
    ∧ Issues (.call ⟨5⟩) (at1 core) ∧ Shaped core ∧ Issues .ret (at1 core) ∧ core.kind ≠ .stratum ∧ (sget core 31).toNat % 4 = 0
    ∧ Issues (.jmp ⟨8, false⟩) (at1 core) ∧ StaysInLoops (at1 core) (codeAt (at1 core) (sget core 8)) ∧ Issues .nop (at1 core) := by
  have none : ∀ a, StaysInLoops (at1 core) a := fun a f hf => absurd hf List.not_mem_nil
  refine ⟨fun o ho => ⟨?_, none _⟩, ⟨0, by decide +kernel⟩, by decide +kernel, fun o ho => ⟨?_, none _⟩, ?_, ?_, ?_, by decide, by decide,
    ?_, none _, ?_⟩
  · fin_cases ho <;> exact issues_of (by decide +kernel) rfl
  · fin_cases ho <;> exact issues_of (by decide +kernel) rfl
  · exact issues_of (by decide +kernel) rfl
  · unfold Shaped; decide
  · exact issues_of (by decide +kernel) rfl
  · exact issues_of (by decide +kernel) rfl
  · exact issues_of (by decide +kernel) rfl

/-- RET and JMP to an offset that is no multiple of 4. -/
theorem witness_misaligned_targets : Ready .ret (at1 (setS core 31 2)) ∧ (sget (setS core 31 2) 31).toNat % 4 ≠ 0
    ∧ Ready (.jmp ⟨31, false⟩) (at1 (setS core 31 2)) := ⟨ready_of (by decide +kernel), by decide, ready_of (by decide +kernel)⟩

/-- A branch from the body out of the one live loop, with its entry on top and with an IF above it. -/
theorem witness_branch_out_of_loop : ∀ ifs ∈ [[], [({ mask := 0xFF, kind := .ifK } : MaskEntry)]],
    Issues (.br ⟨7, 64⟩) (looping 1 ifs) ∧ (looping 1 ifs).team.ctl.loops = [] ++ [⟨0x1000, 4⟩] ∧ inBody ⟨0x1000, 4⟩ (looping 1 ifs).team.ctl.pc = true
      ∧ inBody ⟨0x1000, 4⟩ (targetOf (looping 1 ifs) 64) = false := by
  intro ifs h; fin_cases h <;> exact ⟨issues_of (by decide +kernel) rfl, rfl, by decide +kernel, by decide +kernel⟩

/-- EXIT of some lanes and of all. -/
theorem witness_exits : Issues (.exit ⟨1⟩) (at1 core) ∧ core.ctl.mask &&& ~~~active core 1 ≠ 0 ∧ Issues (.exit ⟨7⟩) (at1 core)
    ∧ core.ctl.mask &&& ~~~active core 7 = 0 ∧ (∀ e ∈ core.ctl.stack, e.mask = 0) ∧ matrixReads (at1 core) core = [] ∧ core.handler = none :=
  ⟨issues_of (by decide +kernel) rfl, by decide +kernel, issues_of (by decide +kernel) rfl, by decide +kernel, by decide, rfl, rfl⟩

/-- A full stack of IF entries. -/
def fullStack : State := withCtl fun c => { c with stack := List.replicate 8 { mask := 0xFF, kind := .ifK } }

theorem witness_if_else_endif :
    (Issues (.ifP ⟨6⟩) (withCtl fun c => { c with stack := List.replicate 7 { mask := 0xFF, kind := .ifK } }))
    ∧ (Ready (.ifP ⟨0⟩) fullStack ∧ 8 ≤ fullStack.team.ctl.stack.length) ∧ (Issues .elseP fullStack ∧ Issues .endif fullStack)
    ∧ (Ready .elseP (at1 core) ∧ Ready .endif (at1 core) ∧ core.ctl.stack = []) ∧ (Ready .elseP (looping 1 []) ∧ Ready .endif (looping 1 [])) :=
  ⟨issues_of (by decide +kernel) rfl, ⟨ready_of (by decide +kernel), by decide⟩,
    ⟨issues_of (by decide +kernel) rfl, issues_of (by decide +kernel) rfl⟩, ⟨ready_of (by decide +kernel), ready_of (by decide +kernel), rfl⟩,
    ready_of (by decide +kernel), ready_of (by decide +kernel)⟩

/-- The machine with the first gibibyte mapped to itself, readable, writable and executable. -/
def mapped (t : Team) : State :=
  { at1 t with ms := { MemSide.empty with tlb := [{ core := 0, asid := 0, page := 0, size := 0x40000000, pte := 0x9D }] } }

/-- LOOP over 2 words, at depths 0 and 2, with the count 0, with a count, and where the stack or the loops are full. The last body word
reads as IADD (zero). -/
theorem witness_loop_starts :
    (∃ s1, Issues (.loop ⟨3, 2⟩) (mapped core) ∧ fetch (noteIssue (mapped core)) ((mapped core).team.ctl.pc + BitVec.ofNat 64 8) = .ok (0, s1)
      ∧ badLast 0 = false ∧ core.ctl.loops.length < loopMax core ∧ sget core 3 = 0)
    ∧ (∃ s1, let t := { core with rf := (setS core 3 9).rf, ctl := { core.ctl with
          loops := [⟨0x100, 4⟩, ⟨0x200, 4⟩], stack := List.replicate 7 { mask := 0xFF, kind := .loopK } } }
      Issues (.loop ⟨3, 2⟩) (mapped t) ∧ StaysInLoops (mapped t) (t.ctl.pc + BitVec.ofNat 64 8)
        ∧ fetch (noteIssue (mapped t)) (t.ctl.pc + BitVec.ofNat 64 8) = .ok (0, s1) ∧ t.ctl.loops.length < loopMax t ∧ sget t 3 ≠ 0
        ∧ t.ctl.stack.length < stackMax t)
    ∧ (let t := { core with rf := (setS core 3 9).rf, ctl := { core.ctl with stack := List.replicate 8 { mask := 0xFF, kind := .ifK } } }
      Issues (.loop ⟨3, 2⟩) (mapped t) ∧ sget t 3 ≠ 0 ∧ stackMax t ≤ t.ctl.stack.length)
    ∧ (let t := { core with ctl := { core.ctl with loops := List.replicate 3 ⟨0x100, 4⟩ } }
      Ready (.loop ⟨3, 2⟩) (mapped t) ∧ loopMax t ≤ t.ctl.loops.length) := by
  refine ⟨⟨_, issues_of (by decide +kernel) rfl, rfl, by decide, by decide, rfl⟩, ⟨_, issues_of (by decide +kernel) rfl, ?_, rfl, by decide,
    by decide, by decide⟩, ⟨issues_of (by decide +kernel) rfl, by decide, by decide⟩, ready_of (by decide +kernel), by decide⟩
  intro f hf h
  fin_cases hf <;> exact absurd h (by decide +kernel)

/-- At the last word of the loop's body with the count `n`. -/
def lastOf (n : Word) (ifs : List MaskEntry) : Team := { (looping 3 ifs).team with rf := { (looping 3 ifs).team.rf with lc := [n, 0, 0] } }

/-- The last word of the body: with counts left, with none, and with an IF open. -/
theorem witness_loop_ends : ∀ n : Word, ∀ ifs : List MaskEntry,
    (lastOf n ifs).ctl.loops = [] ++ [⟨0x1000, 4⟩] ∧ (lastOf n ifs).ctl.pc = lastWord ⟨0x1000, 4⟩ ∧ stepping (lastOf n ifs) = false
      ∧ Shaped (lastOf n ifs) ∧ (lastOf n ifs).rf.lc.getD 0 0 = n :=
  fun n ifs => ⟨rfl, show (0x100C : DWord) = _ by decide, show stepping (looping 3 []).team = false by decide +kernel,
    ⟨rfl, rfl, rfl, rfl, rfl, rfl, rfl⟩, rfl⟩

/-- BRK outside a loop, with lanes of the loop left, and with none. -/
theorem witness_breaks : Ready (.brk ⟨7⟩) (at1 core) ∧ (∀ e ∈ core.ctl.stack, e.kind ≠ .loopK)
    ∧ (let s := looping 1 [{ mask := 0xFF, kind := .ifK }]
       Issues (.brk ⟨2⟩) s ∧ s.team.ctl.stack = [{ mask := 0xFF, kind := .ifK }] ++ { mask := 0xFF, kind := .loopK } :: []
         ∧ (0xFF : LaneSet) &&& ~~~active s.team 2 ≠ 0)
    ∧ (let s := looping 1 []
       Issues (.brk ⟨7⟩) s ∧ s.team.ctl.mask &&& ~~~active s.team 7 = 0 ∧ s.team.ctl.loops = [] ++ [⟨0x1000, 4⟩]) :=
  ⟨ready_of (by decide +kernel), by decide, ⟨issues_of (by decide +kernel) rfl, rfl, by decide +kernel⟩,
    issues_of (by decide +kernel) rfl, by decide +kernel, rfl⟩

/-! ### Witnesses: memory -/

/-- What `Invariant` asks, as a check. -/
def invB (s : State) : Bool :=
  s.ms.mem.wf && s.teams.all (fun t => t.rf.v.length == t.rf.nv && t.rf.s.length == 32 && t.rf.p.length == 7 && t.rf.lc.length == 3
      && t.rf.fr.length == 4 && t.rf.fs.length == 8 && t.rf.sh.length == 8)
    && s.strat.kept.all (fun x => x.2.length == 5) && s.ms.l2.all (fun x => x.data.length == 64)
    && s.ms.retained.all (fun r => decide (r.1 ≤ s.ms.stamp)) && s.ms.rawOld.all (fun r => decide (r.1 ≤ s.ms.stamp)) && s.teams.all fun t => t.ver.ownPub.all fun r => decide (r.1 ≤ s.ms.stamp)

theorem inv_of {s : State} (h : invB s = true) : Invariant s := by
  unfold invB at h
  simp only [Bool.and_eq_true, List.all_eq_true, beq_iff_eq, decide_eq_true_eq] at h
  obtain ⟨⟨⟨⟨⟨⟨h1, h2⟩, h3⟩, h4⟩, h5⟩, h6⟩, h7⟩ := h
  refine ⟨h1, fun t ht => ?_, h3, h4, h5, h6, h7⟩
  obtain ⟨⟨⟨⟨⟨⟨a, b⟩, c⟩, d⟩, e⟩, f⟩, g⟩ := h2 t ht
  exact ⟨a, b, c, d, e, f, g⟩

/-- What an operation that may fail gives, where it does not. -/
theorem ok_of {ε α : Type} {x : Except ε α} (h : (match x with | .ok _ => true | .error _ => false) = true) : ∃ a, x = .ok a := by
  cases x with
  | ok a => exact ⟨a, rfl⟩
  | error e => cases h

/-- The same, with something that holds of it. -/
theorem ok_and {ε α : Type} {x : Except ε α} {P : α → Prop} [DecidablePred P]
    (h : (match x with | .ok a => decide (P a) | .error _ => false) = true) : ∃ a, x = .ok a ∧ P a := by
  cases x with
  | ok a => exact ⟨a, rfl, of_decide_eq_true h⟩
  | error e => cases h

/-- The team with bases 0x4000, at its highest register pair too; two lanes are active under p2. -/
def memCore : Team := setPair (setPair core 8 0x4000) 30 0x4000

/-- The accesses of the lanes of p2 pass their checks. -/
theorem witness_loads :
    (∀ w ∈ [(0 : BitVec 3), 3, 4, 5, 6], Runs (.ld ⟨2, 12, 0, 4, w, 0⟩) (mapped memCore)) ∧ Runs (.ld ⟨2, 63, 0, 15, 2, 3⟩) (mapped memCore)
    ∧ (∀ n ∈ [4, 8], ∃ xs, checkLanes (mapped memCore) .read true n (laneAddrs memCore 2 (memAddr memCore 4 0)) = .ok xs ∧ NoScatter (mapped memCore) xs)
    ∧ memCore.eng.count 0 < 32
    ∧ (∀ w ∈ [(0 : BitVec 3), 1, 2, 3, 4], Runs (.gx ⟨2, 12, 0, 4, w⟩) (mapped memCore)) ∧ memCore.eng.count 3 < 32 ∧ (mapped memCore).ms.ecc = [] :=
  ⟨by intro w hw; fin_cases hw <;> exact (runs_of (by decide +kernel)).1, (runs_of (by decide +kernel)).1,
    by
      intro n hn
      fin_cases hn <;> exact ok_and (P := fun xs : List LaneAcc => ∀ x ∈ xs, scattering (mapped memCore).team (x.pa / 64) = false) (by decide +kernel),
    by decide, by intro w hw; fin_cases hw <;> exact (runs_of (by decide +kernel)).1, by decide, rfl⟩

/-- The team with a scatter to lane 0's sector that is not yet acknowledged. -/
def scattered : Team :=
  { memCore with nextTag := 2, ver := { Version.fresh with sx := [(1, 0x4000, 7)] },
                 eng := { Engines.idle with ops := [⟨1, 3, .none, 0, false, false⟩] } }

theorem witness_load_behind_scatter : Ready (.ld ⟨2, 12, 0, 4, 4, 0⟩) (mapped scattered) ∧ scattered.eng.count 0 < 32
    ∧ ∃ xs, checkLanes (mapped scattered) .read true 4 (laneAddrs scattered 2 (memAddr scattered 4 0)) = .ok xs ∧ ¬NoScatter (mapped scattered) xs :=
  ⟨ready_of (by decide +kernel), by decide,
    ok_and (P := fun xs : List LaneAcc => ¬∀ x ∈ xs, scattering (mapped scattered).team (x.pa / 64) = false) (by decide +kernel)⟩

/-- A gang of one team with 4 KiB of scratchpad. -/
def gang1 : Gang :=
  { grid := 1, idx := 0, block := 0, cluster := 0, size := 1, scratchLen := 4096, carve := [⟨0, 1, 4⟩], scratch := [], gen := 0, arrived := 0, live := 1, pendingArr := [],
    pairs := [], govs := [], ringWait := [] }

/-- The machine with that gang. -/
def ganged (t : Team) : State := { mapped t with gangs := [gang1] }

theorem witness_scratchpad :
    (∀ w ∈ [(0 : BitVec 3), 3, 4, 5, 6], Runs (.lds ⟨2, 12, 0, 0, w⟩) (ganged memCore)) ∧ (∀ w ∈ [(0 : BitVec 3), 2, 4, 5, 6],
      Runs (.sts ⟨2, 12, 0, 0, w⟩) (ganged memCore)) ∧ (ganged memCore).gangOf memCore = some gang1
    ∧ (ganged memCore).upsets = [] ∧ scrCheck (ganged memCore) 4 (scrLanes memCore ⟨2, 12, 0, 0, 4⟩) = none ∧ scrCheck (ganged memCore) 8 (scrLanes memCore ⟨2, 12, 0, 0, 5⟩) = none :=
  ⟨by intro w hw; fin_cases hw <;> exact (runs_of (by decide +kernel)).1, by intro w hw; fin_cases hw <;> exact (runs_of (by decide +kernel)).1,
    by decide +kernel, rfl, by decide +kernel, by decide +kernel⟩

theorem witness_stores :
    (∀ w ∈ [(0 : BitVec 3), 2, 4, 5, 6], Runs (.st ⟨2, 12, 0, 4, w, 0⟩) (mapped memCore)) ∧ Invariant (mapped memCore)
    ∧ (∃ xs, checkLanes (mapped memCore) .write true 8 (laneAddrs memCore 2 (memAddr memCore 4 0)) = .ok xs
      ∧ NoScatter (mapped memCore) xs ∧ overQuota (noteIssue (mapped memCore)) ((hmodOf memCore).l1 == 1) (l1Near (mapped memCore) 0) xs = none)
    ∧ (∀ w ∈ [(0 : BitVec 3), 1, 2, 3, 4], Runs (.sx ⟨2, 12, 0, 4, w⟩) (mapped memCore)) ∧ memCore.eng.count 3 < 32
    ∧ ∃ xs, checkLanes (mapped memCore) .write false 4 (laneAddrs memCore 2 (memAddr memCore 4 0)) = .ok xs
      ∧ NoScatter (mapped memCore) xs
      ∧ overQuota (noteIssue (mapped memCore)) true false (sxEntries (noteIssue (mapped memCore)) ((hmodOf memCore).l1 == 1) xs) = none :=
  ⟨by intro w hw; fin_cases hw <;> exact (runs_of (by decide +kernel)).1, inv_of (by decide +kernel),
    ok_and (P := fun xs : List LaneAcc => (∀ x ∈ xs, scattering (mapped memCore).team (x.pa / 64) = false) ∧ overQuota (noteIssue (mapped memCore)) _ _ xs = none)
      (by decide +kernel),
    by intro w hw; fin_cases hw <;> exact (runs_of (by decide +kernel)).1, by decide,
    ok_and (P := fun xs : List LaneAcc => (∀ x ∈ xs, scattering (mapped memCore).team (x.pa / 64) = false)
      ∧ overQuota (noteIssue (mapped memCore)) _ _ (sxEntries (noteIssue (mapped memCore)) _ xs) = none) (by decide +kernel)⟩

/-- Lane 0's address fails each check, and lane 2's fails while lane 0's passes. -/
theorem witness_access_checks :
    (let t := setPair core 8 0x4001
     Ready (.ld ⟨2, 12, 0, 4, 4, 0⟩) (mapped t) ∧ (active t 2).getLsbD 0 = true ∧ (memAddr t 4 0 0).toNat % 4 ≠ 0)
    ∧ (let t := { setPair core 8 0x01FFFFFFFFFFFFF8 with rf := { (setPair core 8 0x00FFFFFFFFFFFFF8).rf with
          v := (setPair core 8 0).rf.v.set 0 (lanes fun L => 4 * L) } }
       Ready (.ld ⟨2, 12, 0, 4, 4, 0⟩) (mapped t) ∧ canonical (memAddr t 4 0 2) = false ∧ (active t 2).getLsbD 2 = true
        ∧ (∀ K, K < 32 → (active t 2).getLsbD K = true → (memAddr t 4 0 K).toNat % 4 = 0)
        ∧ ∀ K, K < 2 → (active t 2).getLsbD K = true → canonical (memAddr t 4 0 K) = true)
    ∧ (let t := setS core 0 2
       Ready (.sts ⟨2, 12, 0, 0, 4⟩) (ganged t) ∧ scrAddr t 0 0 0 % 4 ≠ 0)
    ∧ (let t := setS core 0 4088
       Ready (.sts ⟨2, 12, 0, 0, 4⟩) (ganged t) ∧ allotment (ganged t) t < scrAddr t 0 0 2 + 4 ∧ scrAddr t 0 0 0 + 4 ≤ allotment (ganged t) t
        ∧ ∀ K, K < 32 → (active t 2).getLsbD K = true → scrAddr t 0 0 K % 4 = 0) :=
  ⟨⟨ready_of (by decide +kernel), by decide +kernel, by decide +kernel⟩,
    ⟨ready_of (by decide +kernel), by decide +kernel, by decide +kernel, by decide +kernel, by decide +kernel⟩,
    ⟨ready_of (by decide +kernel), by decide +kernel⟩, ready_of (by decide +kernel), by decide +kernel, by decide +kernel, by decide +kernel⟩

/-! ### Witnesses: shapes, tensors, wavefronts, copies -/

/-- A record of rank 2 over slot 0 (FP32): base pair s8, box of 16 by 2, extents 32 by 4, rows 128 bytes apart. -/
def rec2 : BitVec 256 := BitVec.ofNat 256 (2 + 4 * 2 ^ 10 + 15 * 2 ^ 14 + 2 ^ 22 + 31 * 2 ^ 32 + 3 * 2 ^ 48 + 8 * 2 ^ 148)

/-- The gang with that record at offset 64 of scratchpad, and at offset 96 one whose reserved bit 30 is set. -/
def recGang : Gang :=
  { gang1 with scratch := ((List.range 32).map fun k => ((64 + k, rec2.extractLsb' (8 * k) 8) : Host.Cell))
      ++ (List.range 32).map fun k => ((96 + k, (rec2 ||| 1 <<< 30).extractLsb' (8 * k) 8) : Host.Cell) }

/-- The machine with it. -/
def recorded (t : Team) : State := { mapped t with gangs := [recGang] }

theorem witness_prefetch_and_shapes :
    (let s := mapped { memCore with rf := { memCore.rf with p := [0xF0, 1, 0x5, 0, 0, 0, 0] } }
     Runs (.pref ⟨1, 0, 4, 0⟩) s ∧ (hmodOf s.team).na = false ∧ ∃ x, laneAddrs s.team 1 (memAddr s.team 4 0) = [x] ∧ canonical x.2 = true
       ∧ ∃ r, xlateT s s.team .read x.2 = .ok r ∧ isCached r.1 = true ∧ atHand s true (r.1 / 64) = false ∧ s.ms.ecc = []
         ∧ (makeWay (l2View s) s.ms (r.1 / 64)).isSome = true ∧ r.2.imm = false ∧ (hmodOf s.team).l1 ≠ 1 ∧ (inL1 s.team.ver).contains (r.1 / 64) = false)
    ∧ (let s := recorded (setS core 3 64)
       Runs (.shset ⟨7, 3, 0⟩) s ∧ s.upsets = [] ∧ shapeAt s ⟨7, 3, 0⟩ % 32 = 0 ∧ shapeAt s ⟨7, 3, 0⟩ + 32 ≤ allotment s s.team ∧ IsRecord s (shapeAt s ⟨7, 3, 0⟩) rec2
         ∧ shapeBad rec2 (fsget s.team) = none)
    ∧ (let s := recorded (setS core 3 64)
       Runs (.shset ⟨0, 3, 1⟩) s ∧ shapeAt s ⟨0, 3, 1⟩ % 32 = 0 ∧ shapeAt s ⟨0, 3, 1⟩ + 32 ≤ allotment s s.team ∧ IsRecord s (shapeAt s ⟨0, 3, 1⟩) (rec2 ||| 1 <<< 30)
         ∧ shapeBad (rec2 ||| 1 <<< 30) (fsget s.team) = some 30) :=
  ⟨⟨(runs_of (by decide +kernel)).1, rfl, (0, 0x4000), by decide +kernel, by decide, ok_and (by decide +kernel)⟩,
    ⟨(runs_of (by decide +kernel)).1, rfl, by decide +kernel, by decide +kernel, by unfold IsRecord; decide +kernel, by decide +kernel⟩,
    (runs_of (by decide +kernel)).1, by decide +kernel, by decide +kernel, by unfold IsRecord; decide +kernel, by decide +kernel⟩

/-- A team whose sh0 holds the record, with base 0x4000 and coordinates (20, 0) in s0 and s1. -/
def shaped : Team := { setS memCore 0 20 with rf := { (setS memCore 0 20).rf with sh := rec2 :: List.replicate 7 0 } }

/-- Loads and stores of tensors, in memory and in scratchpad; lanes 12 and above lie out of bounds. -/
theorem witness_tensors :
    (let s := recorded shaped
     boundShape s.team 0 1 = .ok rec2 ∧ s.team.eng.count 0 < 32 ∧ s.ms.ecc = [] ∧ s.upsets = [] ∧ Invariant s
     ∧ (Runs (.ldt ⟨7, 12, 0, 0, 1, false, true, 0⟩) s
       ∧ (∃ xs, checkLanes s .read true (unitOf s rec2) ((inElems s rec2 ⟨7, 12, 0, 0, 1, false, true, 0⟩).map fun e => (e.lane, e.va)) = .ok xs
         ∧ NoScatter s xs)
       ∧ ∃ e ∈ tensorElems s.team rec2 ⟨7, 12, 0, 0, 1, false, true, 0⟩, e.inb = false)
     ∧ (Runs (.stt ⟨7, 12, 0, 0, 1, false, false, 0⟩) s
       ∧ ∃ xs, checkLanes s .write false (unitOf s rec2) ((inElems s rec2 ⟨7, 12, 0, 0, 1, false, false, 0⟩).map fun e => (e.lane, e.va)) = .ok xs
         ∧ NoScatter s xs ∧ overQuota (mergeReads s rec2 ⟨7, 12, 0, 0, 1, false, false, 0⟩ xs) ((hmodOf s.team).l1 == 1) (l1Near s 0) xs = none))
    ∧ (let s := recorded { shaped with rf := (setPair shaped 8 0).rf }
       (Runs (.ldt ⟨7, 12, 0, 0, 1, true, true, 0⟩) s
         ∧ scrCheck s (unitOf s rec2) ((inElems s rec2 ⟨7, 12, 0, 0, 1, true, true, 0⟩).map fun e => (e.lane, e.va.toNat)) = none)
       ∧ (s.gangOf s.team = some recGang ∧ Runs (.stt ⟨7, 12, 0, 0, 1, true, true, 0⟩) s
         ∧ scrCheck s (unitOf s rec2) ((inElems s rec2 ⟨7, 12, 0, 0, 1, true, true, 0⟩).map fun e => (e.lane, e.va.toNat)) = none))
    ∧ (Ready (.ldt ⟨7, 12, 0, 1, 0, false, true, 0⟩) (recorded shaped) ∧ shRank (shget shaped 1) = 0)
    ∧ (Ready (.stt ⟨7, 12, 0, 0, 2, false, true, 0⟩) (recorded shaped) ∧ shRank (shget shaped 0) ≠ 0 ∧ shRank (shget shaped 0) < 3) :=
  ⟨⟨by decide +kernel, by decide +kernel, rfl, rfl, inv_of (by decide +kernel),
      ⟨(runs_of (by decide +kernel)).1,
        ok_and (P := fun xs : List LaneAcc => ∀ x ∈ xs, scattering (recorded shaped).team (x.pa / 64) = false) (by decide +kernel), by decide +kernel⟩,
      (runs_of (by decide +kernel)).1,
      ok_and (P := fun xs : List LaneAcc => (∀ x ∈ xs, scattering (recorded shaped).team (x.pa / 64) = false)
        ∧ overQuota (mergeReads (recorded shaped) rec2 _ xs) _ _ xs = none) (by decide +kernel)⟩,
    ⟨⟨(runs_of (by decide +kernel)).1, by decide +kernel⟩, by decide +kernel, (runs_of (by decide +kernel)).1, by decide +kernel⟩,
    ⟨ready_of (by decide +kernel), by decide +kernel⟩, ready_of (by decide +kernel), by decide +kernel, by decide +kernel⟩

/-- A wavefront of channel 0 in the block at 0x200000. -/
def wavefront : Team := { core with kind := .stratum, rf := { regs with nv := 16, v := regs.v.take 16 } }

/-- The machine with it, its block run and its node's run. -/
def banked : State :=
  { mapped wavefront with
    strat := { kept := [], current := [(0, { graph := 0, node := 0, va := 0x200000, pa := 0x200000, index := 0, buffer := [(0x200000, 7)], issued := 0 })],
               runs := [{ graph := 0, node := 0, codeVa := 0x8000, code := [0], params := [1, 2], blocks := [(0, 0x200000, 0x200000, 0), (1, 0x201000, 0x201000, 1)],
                          failed := false }] } }

theorem witness_wavefronts :
    (∀ w ∈ [(0 : BitVec 3), 1, 2, 3, 4], Runs (.stratumLd ⟨2, 8, 0, w⟩) banked ∧ bankCheck banked.team ⟨2, 8, 0, w⟩ = none)
    ∧ (∀ w ∈ [(0 : BitVec 3), 2, 4], Runs (.stratumSt ⟨2, 8, 0, w⟩) banked ∧ bankCheck banked.team ⟨2, 8, 0, w⟩ = none)
    ∧ (blockOf banked).isSome = true ∧ banked.ms.ecc = [] ∧ banked.team.kind = .stratum ∧ Invariant banked
    ∧ banked.strat.current.any (fun x => x.1 == 1) = false
    ∧ (∃ r, banked.strat.runs.find? (fun x => !x.failed && x.blocks.any fun b => b.1 == 1) = some r
      ∧ r.blocks.find? (fun b => b.1 == 1) = some (1, 0x201000, 0x201000, 1))
    ∧ ∃ xs, ({ banked.strat with kept := [(1, List.replicate 5 (List.replicate 32 7))] } : StratumUnit).kept.find? (fun x => x.1 == 1) = some xs :=
  ⟨fun w hw => ⟨by fin_cases hw <;> exact (runs_of (by decide +kernel)).1, by fin_cases hw <;> decide +kernel⟩,
    fun w hw => ⟨by fin_cases hw <;> exact (runs_of (by decide +kernel)).1, by fin_cases hw <;> decide +kernel⟩,
    rfl, rfl, rfl, inv_of (by decide +kernel), by decide +kernel, ⟨_, rfl, by decide +kernel⟩, _, rfl⟩

/-- A producer of the scratchpad gang, with an open copy and a sealed batch of one copy. -/
def producer : Team := { shaped with pl := { shaped.pl with role := 1 } }

/-- A copy into scratchpad. -/
def copy1 (tag : Nat) : Copy := copyOf (recorded { producer with nextTag := tag }) ⟨16, 0, 0, 1, false, 0⟩ rec2

/-- The producer with batch 1 outstanding and one copy open. -/
def copying : Team :=
  { producer with nextTag := 4, eng := { Engines.idle with unsealed := [copy1 3], lastBatch := 1,
                                                           batches := [{ tag := 2, num := 1, copies := [copy1 1], complete := false }] } }

theorem witness_copies :
    (∀ o ∈ [(⟨16, 0, 0, 1, false, 0⟩ : CptOp), ⟨31, 0, 0, 0, true, 2⟩], Runs (.cpt o) (recorded copying) ∧ CopyReady (recorded copying) o rec2)
    ∧ (Ready (.cpt ⟨16, 0, 0, 1, false, 0⟩) (recorded shaped) ∧ shaped.pl.role ≠ 1)
    ∧ (Runs (.cpseal ⟨31⟩) (recorded copying) ∧ copying.eng.lastBatch < 0xFFFFFFFF ∧ copying.eng.count 1 < 16 ∧ ∃ c ∈ copying.eng.unsealed, c.done = false)
    ∧ (Runs (.cpwait ⟨3, false⟩) (recorded (setS copying 3 1)) ∧ ∃ b ∈ copying.eng.batches, b.num ≤ (sget (setS copying 3 1) 3).toNat)
    ∧ (Runs (.cpwait ⟨3, false⟩) (recorded copying) ∧ (∀ b ∈ copying.eng.batches, (sget copying 3).toNat < b.num) ∧ copying.eng.errs = [])
    ∧ (Runs (.waitc ⟨1, 3, false⟩) (recorded copying) ∧ (sget copying 3).toNat < copying.eng.count 1)
    ∧ (∀ p ∈ [(0 : BitVec 3), 6], Runs (.waitc ⟨p, 3, true⟩) (recorded copying) ∧ copying.eng.count p.toNat ≤ (sget copying 3).toNat)
    ∧ (Runs (.waitc ⟨1, 3, false⟩) (recorded (setS copying 3 1)) ∧ copying.eng.count 1 ≤ (sget (setS copying 3 1) 3).toNat)
    ∧ (pairOfTeam (recorded copying) copying).isNone = true
    ∧ ∃ t, (recorded copying).find copying.uid = some t ∧ ((teamCopies t).filter fun c => !c.done).length = 2 :=
  ⟨fun o ho => by fin_cases ho <;> exact ⟨(runs_of (by decide +kernel)).1, by unfold CopyReady; decide +kernel⟩,
    ⟨ready_of (by decide +kernel), by decide⟩, ⟨(runs_of (by decide +kernel)).1, by decide, by decide +kernel, by decide +kernel⟩,
    ⟨(runs_of (by decide +kernel)).1, by decide +kernel⟩, ⟨(runs_of (by decide +kernel)).1, by decide +kernel, rfl⟩,
    ⟨(runs_of (by decide +kernel)).1, by decide +kernel⟩,
    fun p hp => by fin_cases hp <;> exact ⟨(runs_of (by decide +kernel)).1, by decide +kernel⟩,
    ⟨(runs_of (by decide +kernel)).1, by decide +kernel⟩, by decide +kernel, _, rfl, by decide +kernel⟩

/-- Two loads in flight: the older into v62 and v63, the younger into s31; both results have come. -/
def inFlight : Team :=
  { core with nextTag := 9, rf := { regs with vfull := BitVec.allOnes 64 >>> 2, sfull := BitVec.allOnes 32 >>> 1 },
              eng := { Engines.idle with ops := [⟨7, 0, .vec 62 0x5 [lanes id, lanes id], 0, true, false⟩, ⟨8, 4, .scalar 31 5, 0, true, false⟩] } }

theorem witness_producers : inFlight.handler = none ∧ inFlight.poison = [] ∧ inFlight.stage = .resident ∧ (at1 inFlight).others = [] ∧ Shaped inFlight
    ∧ inFlight.rf.nv ≤ 64
    ∧ (∃ o, (readyOps inFlight)[0]? = some (false, o) ∧ (inFlight.eng.ops.filter fun x => x.tag == o.tag) = [o] ∧ inFlight.eng.ops.head? = some o
      ∧ o.dst = .vec 62 0x5 [lanes id, lanes id] ∧ 62 + 2 ≤ inFlight.rf.nv)
    ∧ ∃ o, (readyOps inFlight)[1]? = some (false, o) ∧ (inFlight.eng.ops.filter fun x => x.tag == o.tag) = [o] ∧ o.dst = .scalar 31 5 :=
  ⟨rfl, rfl, rfl, rfl, ⟨rfl, rfl, rfl, rfl, rfl, rfl, rfl⟩, by decide, ⟨_, rfl, rfl, rfl, rfl, by decide⟩, _, rfl, rfl, rfl⟩

/-! ### Witnesses: boundaries, maintenance, the matrix unit -/

/-- A team with bytes on its write side, in the device and beyond the links, held sectors and a snapshot. -/
def writer (w : Wait) : Team :=
  { memCore with wait := w, ver := { Version.fresh with wside := [(0x4000, 1), (0x4001, 2), (2 ^ 46, 3)], snap := some 0, held := [0x100] } }

/-- The same bytes on their way out. -/
def publishing (sc : Nat) (acq : Bool) : Team := beginPublish (writer (.publish sc (.phase acq) false))

theorem witness_boundaries :
    (∀ o ∈ [(⟨1, 0⟩ : PhaseOp), ⟨2, 0⟩, ⟨3, 2⟩], Runs (.phase o) (mapped (writer .ready))) ∧ Invariant (mapped (writer .ready))
    ∧ (∀ sc ∈ [0, 2], ∀ acq, let s := mapped (publishing sc acq)
        s.team.wait = .publish sc (.phase acq) false ∧ s.team.stage ≠ .ended ∧ Invariant s ∧ Straight s ∧ entryBad s = none
          ∧ pubLost s sc = none ∧ overSpace s.mgmt.map s.ms (purge (publish s sc)).ms = none ∧ goingOut s sc ≠ [])
    ∧ (writer .ready).ver.sx = [] ∧ ∃ c ∈ (publishing 2 true).ver.pub, isOutside c.1 = true := by
  refine ⟨fun o ho => by fin_cases ho <;> exact (runs_of (by decide +kernel)).1, inv_of (by decide +kernel), fun sc hs acq => ?_, rfl,
    by decide +kernel⟩
  fin_cases hs <;> cases acq <;>
    exact ⟨rfl, by decide, inv_of (by decide +kernel), ⟨by decide +kernel, fun f hf => absurd hf List.not_mem_nil⟩, by decide +kernel,
      by decide +kernel, by decide +kernel, by decide +kernel⟩

/-- A publication fails where an entry of the team cannot be read back, and where the link cannot carry it to host memory. -/
theorem witness_failed_publications :
    (let t := publishing 1 false
     let s := { mapped { t with ver := { t.ver with spilled := [0x100] } } with upsets := [.entry 1 0x100] }
     s.team.uid = 1 ∧ s.team.wait = .publish 1 (.phase false) false ∧ s.team.stage ≠ .ended ∧ entryBad s = some 0x100)
    ∧ (let s := { mapped (publishing 2 true) with upsets := [.link 3] }
       s.team.wait = .publish 2 (.phase true) false ∧ s.team.stage ≠ .ended ∧ entryBad s = none ∧ lostLink s = some 3
         ∧ s.team.ver.pub.find? (fun c => (2 : Nat) == 2 && isHost c.1) = some (2 ^ 46, 3)) :=
  ⟨⟨rfl, rfl, by decide, by decide +kernel⟩, rfl, by decide, by decide +kernel, by decide +kernel, by decide +kernel⟩

/-- The small gang with `n` live teams. -/
def gangOf (n : Nat) (t : Team) : State := { mapped t with gangs := [{ gang1 with live := n }] }

theorem witness_fences : (Runs .fence (recorded copying) ∧ fenceBusy copying.eng = true)
    ∧ (Runs .fence (mapped memCore) ∧ fenceBusy memCore.eng = false ∧ memCore.eng.errs = [] ∧ unsealedErr memCore.eng = []
      ∧ pairOfTeam (mapped memCore) memCore = none) :=
  ⟨⟨(runs_of (by decide +kernel)).1, by decide +kernel⟩, (runs_of (by decide +kernel)).1, by decide, rfl, by decide +kernel, by decide +kernel⟩

/-- BAR that publishes, that waits for a second team, and that is the last arrival. -/
theorem witness_barriers :
    (∀ n ∈ [1, 2], Runs (.bar ⟨false, false, 0⟩) (gangOf n memCore) ∧ Runs (.bar ⟨true, false, 0⟩) (gangOf n memCore)
      ∧ (gangOf n memCore).gangOf memCore = some { gang1 with live := n } ∧ pendingOf { gang1 with live := n } memCore.pl.team = none)
    ∧ memCore.posted = false ∧ memCore.stage = .resident ∧ (mapped memCore).others = [] ∧ gang1.arrived + 1 < 2 ∧ 1 = gang1.arrived + 1 ∧ Invariant (gangOf 1 memCore) :=
  ⟨fun n hn => by fin_cases hn <;> exact ⟨(runs_of (by decide +kernel)).1, (runs_of (by decide +kernel)).1, by decide +kernel, by decide +kernel⟩,
    rfl, rfl, rfl, by decide, by decide, inv_of (by decide +kernel)⟩

/-- A range of 100 bytes, an empty one, one at a base that is not canonical. -/
theorem witness_maintenance :
    (let s := mapped (setS memCore 3 100)
     ∀ i ∈ [Instr.cleanr ⟨4, 3, false⟩, .invr ⟨4, 3, false⟩, .flushr ⟨4, 3, false⟩, .synci ⟨4, 3, false⟩], RunsLanes i s
       ∧ canonical (rangeBase s ⟨4, 3, false⟩) = true ∧ rangeLen s ⟨4, 3, false⟩ ≠ 0 ∧ s.team.eng.maint.length < 16)
    ∧ (∀ i ∈ [Instr.cleanr ⟨4, 3, false⟩, .invr ⟨4, 3, true⟩, .flushr ⟨4, 3, false⟩, .synci ⟨4, 3, true⟩], RunsLanes i (mapped memCore)
       ∧ rangeLen (mapped memCore) ⟨4, 3, false⟩ = 0)
    ∧ (let s := mapped (setPair memCore 8 0x0100000000000000)
       ∀ i ∈ [Instr.cleanr ⟨4, 3, false⟩, .invr ⟨4, 3, false⟩, .flushr ⟨4, 3, false⟩], RunsLanes i s ∧ canonical (rangeBase s ⟨4, 3, false⟩) = false) :=
  ⟨fun i hi => ⟨all_runs (by decide +kernel) i hi, by decide +kernel, by decide +kernel, by decide⟩,
    fun i hi => ⟨all_runs (by decide +kernel) i hi, by decide +kernel⟩, fun i hi => ⟨all_runs (by decide +kernel) i hi, by decide +kernel⟩⟩

/-- One maintenance operation outstanding, on a sector that the L2 holds dirty. -/
def maintaining : State :=
  let t : Team := { memCore with nextTag := 1, eng := { Engines.idle with maint := [⟨0, .flush, 0x4000, 100⟩] } }
  { mapped t with ms := { (mapped t).ms with l2 := [⟨0x100, 0x100, 0, true, 2, 0, List.replicate 64 9⟩] } }

theorem witness_maintenance_completes : (teamMaint maintaining.team)[0]? = some ⟨0, .flush, 0x4000, 100⟩
    ∧ (match transPages maintaining.team 0 .write (rangePages 0x4000 100) maintaining [] with | (.ok _ _ _ _, _, rs) => rs | _ => []) = [(0x4000, 128)]
    ∧ maintaining.ms.mem.wf = true ∧ l2Find maintaining.ms 0x100 = some ⟨0x100, 0x100, 0, true, 2, 0, List.replicate 64 9⟩ ∧ isCached (64 * 0x100) = true := by
  decide +kernel

/-- The same operation where nothing is mapped fails at its first page. -/
theorem witness_maintenance_fails : ∃ e s1 va rs,
    transPages maintaining.team 0 .write (rangePages 0x4000 100) { at1 maintaining.team with agenda := [] } [] = (.fail e s1, va, rs) := ⟨_, _, _, _, rfl⟩

/-- The memory side of a machine whose L2 holds a dirty sector is coherent, and every address of the sector has its key. -/
theorem witness_coherent : Coherent maintaining.ms ∧ (∀ i, i < 64 → KeyHeld maintaining.ms 0 (0x4000 + i)) ∧ KeyHeld maintaining.ms 5 0x8000 := by
  refine ⟨⟨by decide +kernel, fun x hx => ?_⟩, fun i hi x hx h => ?_, fun x hx h => ?_⟩ <;>
    (simp only [maintaining, List.mem_singleton] at hx; subst hx)
  · exact ⟨rfl, by decide +kernel, fun h => absurd h (by decide)⟩
  · rfl
  · exact absurd h (by decide)

/-- SYNCI over fetched copies and buffered words; TLBINV of pages in use by no load. -/
theorem witness_translations :
    (let t := setPair (setS memCore 3 14) 8 0
     Runs (.tlbinv ⟨4, 3, false⟩) (mapped t) ∧ tlbinvArgs (rangeBase (mapped t) ⟨4, 3, false⟩) (rangeLen (mapped t) ⟨4, 3, false⟩) = some (0, 0, 16384)
       ∧ t.passed = none ∧ usesOld (mapped t) 0 0 16384 = false ∧ t.pl.asid = 0 ∧ ∃ e ∈ (mapped t).ms.tlb, e.asid = 0 ∧ e.page < 16384 ∧ 0 < e.page + e.size)
    ∧ (let t := setPair (setS memCore 3 (2 ^ 16 + 57)) 8 0
       Runs (.tlbinv ⟨4, 3, false⟩) (mapped t) ∧ t.pl.asid ≠ 1
         ∧ tlbinvArgs (rangeBase (mapped t) ⟨4, 3, false⟩) (rangeLen (mapped t) ⟨4, 3, false⟩) = some (1, 0, 2 ^ 64) ∧ usesOld (mapped t) 1 0 (2 ^ 64) = false) :=
  ⟨⟨(runs_of (by decide +kernel)).1, by decide +kernel, rfl, by decide +kernel, rfl, by decide +kernel⟩, (runs_of (by decide +kernel)).1, by decide,
    by decide +kernel, by decide +kernel⟩

/-- TLBINV while a load of the address space is under way. -/
theorem witness_translations_in_use :
    let t := setPair (setS memCore 3 14) 8 0
    let s := mapped { t with nextTag := 2, eng := { Engines.idle with ops := [⟨1, 0, .vec 12 0 [], 0, true, false⟩] } }
    Runs (.tlbinv ⟨4, 3, false⟩) s ∧ tlbinvArgs (rangeBase s ⟨4, 3, false⟩) (rangeLen s ⟨4, 3, false⟩) = some (0, 0, 16384)
      ∧ usesOld s 0 0 16384 = true :=
  ⟨(runs_of (by decide +kernel)).1, by decide +kernel, by decide +kernel⟩

/-- A pair of the gang: tile 1 holds floats, tile 2 integers, tile 3 is invalid. -/
def pair1 : Pair :=
  { idx := 0, leader := 0, tiles := [⟨.untyped, [], []⟩, ⟨.fp32, [(0, 7)], []⟩, ⟨.int32, [], []⟩, ⟨.invalid, [], []⟩], queue := [], running := none,
    halted := false, closed := false, err := MErr.clear, seq := 0 }

/-- The machine with a matrix team; `fs0` and `fs1` hold BF16 slots. -/
def matrixed (p : Pair) (t : Team) : State :=
  { mapped { t with pl := { t.pl with role := 2 }, rf := { t.rf with fs := [1, 1, 0, 0, 0, 0, 0, 0] } } with gangs := [{ gang1 with scratchLen := 81920, pairs := [p] }] }

theorem witness_matrix_commands :
    (let s := matrixed pair1 core
     s.team.pl.role = 2 ∧ pairOfTeam s s.team = some pair1 ∧ s.team.pl.core = pair1.leader ∧ pair1.halted = false ∧ s.team.eng.count 2 < 8
       ∧ pair1.queue.length < 8 ∧ closedNow s pair1 = false ∧ pair1.err.code < 16
       ∧ (Runs (.mma ⟨7, 1, 3, 8, 0, 1, false, 0⟩) s ∧ active s.team 7 ≠ 0 ∧ (sget s.team 3).toNat % 128 = 0
         ∧ (sget s.team 3).toNat + aBytes (slotOf (fsget s.team 0)) ≤ allotment s s.team)
       ∧ (Runs (.mma ⟨3, 1, 3, 8, 0, 1, false, 0⟩) s ∧ active s.team 3 = 0) ∧ Runs (.mzero ⟨3⟩) s ∧ Runs (.mstat ⟨31⟩) s)
    ∧ (∀ x ∈ [(0 : Word), 1, 0x7FE], let s := matrixed pair1 (setS core 3 x)
       Runs (.mrd ⟨2, 12, 3, false⟩) s ∧ tileState pair1 ((sget s.team 3).toNat % 4) ≠ .invalid)
    ∧ (let s := matrixed pair1 core
       Runs (.msts ⟨3, 4, false, false⟩) s ∧ (sget s.team 4).toNat % 16 = 0
         ∧ (sget s.team 4).toNat + 128 * mstsPitch (sget s.team 3) (fsget s.team (bitsOf (sget s.team 3).toNat 2 3)) ≤ allotment s s.team)
    ∧ (let s := { mapped core with gangs := [{ gang1 with pairs := [pair1] }] }
       Ready (.mrd ⟨2, 12, 3, false⟩) s ∧ s.team.pl.role ≠ 2)
    ∧ (let s := matrixed { pair1 with leader := 1 } core
       Ready (.mzero ⟨3⟩) s ∧ pairOfTeam s s.team = some { pair1 with leader := 1 } ∧ s.team.pl.core ≠ 1) := by
  refine ⟨⟨rfl, by decide +kernel, rfl, rfl, by decide, by decide, by decide, by decide, ⟨(runs_of (by decide +kernel)).1, by decide +kernel, by decide +kernel,
    by decide +kernel⟩, ⟨(runs_of (by decide +kernel)).1, by decide +kernel⟩, (runs_of (by decide +kernel)).1, (runs_of (by decide +kernel)).1⟩,
    fun x hx => ?_, ⟨(runs_of (by decide +kernel)).1, by decide +kernel, by decide +kernel⟩, ⟨ready_of (by decide +kernel), by decide +kernel⟩,
    ready_of (by decide +kernel), by decide +kernel, by decide⟩
  fin_cases hx <;> exact ⟨(runs_of (by decide +kernel)).1, by decide +kernel⟩

/-- A queued command of a kind. -/
def command (k : MCmdKind) : MCmd := { uid := 1, team := 0, follower := false, tag := 0, pc := 0x1000, seq := 1, kind := k }

theorem witness_matrix_execution :
    (let p := { pair1 with queue := [command (.mzero 3)] }
     let s := matrixed p core
     ∃ g, s.gangs[0]? = some g ∧ g.pairs[0]? = some p ∧ p.running = none ∧ p.queue = command (.mzero 3) :: []
       ∧ canStart s g.grid g.idx p (command (.mzero 3)) = true ∧ storageErr s g.grid g.idx p (command (.mzero 3)) = none ∧ ∃ r, startCmd s g.grid g.idx p (fun n => (cellGet g.scratch n).getD 0) (command (.mzero 3)) = .ok r)
    ∧ (∀ r ∈ [MRun.tile 1 ⟨.fp32, [], []⟩, .clear 3, .row (List.replicate 32 5)],
       let p := { pair1 with queue := [command (.mzero 3)], running := some r }
       ∃ g, (matrixed p core).gangs[0]? = some g ∧ g.pairs[0]? = some p ∧ p.running = some r ∧ p.queue = command (.mzero 3) :: [] ∧ p.halted = false)
    ∧ (mmaErr (matrixed pair1 core) 1 0 pair1 1 8 1 1 false 0 = none ∧ (slotOf 1).fam ≠ 8
       ∧ (command (.mma 1 0 8 1 1 false 0)).kind = .mma 1 0 8 1 1 false 0)
    ∧ ((command (.mrd 0x7FE)).kind = .mrd 0x7FE ∧ (0x7FE : Word).toNat < 2048 ∧ tileState pair1 ((0x7FE : Word).toNat % 4) ≠ .invalid) :=
  ⟨⟨_, rfl, rfl, rfl, rfl, by decide +kernel, by decide +kernel, _, rfl⟩, fun r _ => ⟨_, rfl, rfl, rfl, rfl, rfl⟩, ⟨by decide +kernel, by decide +kernel, rfl⟩,
    rfl, by decide, by decide⟩

/-! ### Witnesses: vertex homes, waits, launches, rings -/

/-- The first gibibyte is the vertex region. -/
def vertexed (t : Team) (classes : List (Nat × List Word)) (home : Home) : State :=
  let s := mapped t
  { s with vx := { VertexUnit.reset with cfg := 0x10001, classes := classes, homes := home :: List.replicate 23 Home.empty },
           ms := { s.ms with mem := [(0x4000, 1)] } }

theorem vertexOk_of {s : State} {n : Nat} {as : List (Nat × DWord)}
    (h : (decide (formOk n as = none) && as.all (fun x => inRegion s x.2) && match checkLanes s .rw false 1 as with
      | .ok xs => xs.all fun x => !scattering s.team (x.pa / 64)
      | .error _ => false) = true) : ∃ xs, VertexOk s n as xs := by
  simp only [Bool.and_eq_true, decide_eq_true_eq, List.all_eq_true] at h
  obtain ⟨⟨h1, h2⟩, h3⟩ := h
  split at h3
  · rename_i xs hx
    exact ⟨xs, h1, h2, hx, by simpa [NoScatter] using h3⟩
  · cases h3

/-- The AOPs and CALLM, on words and, behind a hint, on doublewords. -/
theorem witness_vertex_requests :
    (let s := vertexed memCore [] Home.empty
     s.team.eng.count 4 < 64
     ∧ (∀ i ∈ [Instr.aopAdd ⟨2, 12, 0, 4, false⟩, .aopMin ⟨2, 12, 0, 4, true⟩, .aopMin ⟨2, 12, 0, 4, false⟩, .aopMax ⟨2, 12, 0, 4, true⟩,
        .aopMax ⟨2, 12, 0, 4, false⟩, .aopXchg ⟨2, 12, 0, 4, false⟩, .aopAnd ⟨2, 12, 0, 4, false⟩, .aopOr ⟨2, 12, 0, 4, false⟩, .aopXor ⟨2, 12, 0, 4, false⟩,
        .aopCas ⟨2, 12, 0, 4, false⟩, .callm ⟨2, 12, 0, 63⟩], RunsLanes i s)
     ∧ (let as := laneAddrs s.team 2 (memAddr s.team 4 0)
        ∃ xs, VertexOk s 4 as xs)
     ∧ (let as := laneAddrs s.team 2 fun L => vbase s + ((vget s.team 0 L).setWidth 64 : DWord) * 64
        ∃ xs, VertexOk s 1 as xs))
    ∧ (let t : Team := { memCore with ctl := { memCore.ctl with hints := some ⟨0xFF8, none, none, some ⟨0, true, false, false, 0, false⟩, false⟩ } }
       let s := vertexed t [] Home.empty
       (hmodOf s.team).dw = true ∧ (∀ i ∈ [Instr.aopAdd ⟨2, 12, 0, 4, false⟩, .aopCas ⟨2, 12, 0, 4, false⟩], RunsLanes i s)
       ∧ (let as := laneAddrs s.team 1 (memAddr s.team 4 3)
          ∃ xs, VertexOk s 8 as xs)) :=
  ⟨⟨by decide, all_runs (by decide +kernel), vertexOk_of (by decide +kernel), vertexOk_of (by decide +kernel)⟩, rfl, all_runs (by decide +kernel),
    vertexOk_of (by decide +kernel)⟩

/-- Requests of lane 2: an atomic, and a call of method 0. -/
def aopReq (dw : Bool) : VReq := { uid := 1, tag := 0, lane := 2, home := 0, va := 0x4008, pa := 0x4008, key := 0, kind := .aop .add dw 1 0 }
def callReq : VReq := { uid := 1, tag := 0, lane := 2, home := 0, va := 0x4000, pa := 0x4000, key := 0, kind := .call 0 7 }

/-- Class 1 whose method 0 is valid. -/
def classes1 : List (Nat × List Word) := [(1, 1 :: List.replicate 63 0)]

theorem witness_vertex_arrival :
    let s := { vertexed memCore [] Home.empty with vx := { (vertexed memCore [] Home.empty).vx with travelling := [callReq, aopReq false] } }
    s.vx.travelling[0]? = some callReq ∧ (∀ p ∈ s.vx.travelling.take 0, p.uid = callReq.uid → p.home ≠ callReq.home)
      ∧ (s.vx.homes.getD callReq.home Home.empty).queue.length < 2048 ∧ (s.vx.homes.getD callReq.home Home.empty).stopped = false := by
  decide +kernel

/-- Atomics that may act, and a call of a class that no table holds. -/
theorem witness_vertex_atomics :
    (∀ dw, let s := vertexed memCore [] { Home.empty with queue := [aopReq dw] }
      Invariant s ∧ eligible s.ms (lockedBlocks (s.vx.homes.getD 0 Home.empty)) (fun q => !q.isCall || (refusalOf s q).isSome) []
          (s.vx.homes.getD 0 Home.empty).queue = some (aopReq dw)
        ∧ isRaw (aopReq dw).pa = false ∧ (aopReq dw).pa % 8 + (if dw then 8 else 4) ≤ 8)
    ∧ (let s := vertexed memCore [] { Home.empty with queue := [callReq] }
       eligible s.ms (lockedBlocks (s.vx.homes.getD 0 Home.empty)) (fun q => !q.isCall || (refusalOf s q).isSome) []
          (s.vx.homes.getD 0 Home.empty).queue = some callReq ∧ refusalOf s callReq = some 2) :=
  ⟨fun dw => by cases dw <;> exact ⟨inv_of (by decide +kernel), by decide +kernel, by decide +kernel, by decide +kernel⟩, by decide +kernel, by decide +kernel⟩

/-- The wave of cluster 0. -/
def wave (t : Team) : Team := { t with kind := .wave }

/-- An open batch of one call. -/
def batch1 : VBatch :=
  { reqs := [callReq], va := 0x4000, pa := 0x4000, key := 0, size := 0, cls := 1, method := 0, slots := [none], buffer := [(0x4004, 9)] }

theorem witness_batches :
    (let s := vertexed (wave memCore) classes1 { Home.empty with queue := [callReq] }
     Runs (.cbatch ⟨12, 4⟩) s ∧ clusterOf s.team.pl.core < s.vx.homes.length ∧ (ownHome s).batch = none ∧ s.team.ctl.stack = []
       ∧ eligible s.ms [] (fun q => q.isCall && (refusalOf s q).isNone) [] (ownHome s).queue = some callReq
       ∧ headerOf s.ms callReq.key callReq.pa = some (0, 1))
    ∧ (let s := vertexed (wave memCore) classes1 { Home.empty with batch := some batch1 }
       Runs (.creply ⟨1, 3, false, false⟩) s ∧ Runs .cdone s ∧ Invariant s ∧ (ownHome s).batch = some batch1
         ∧ (∀ L, L < s.team.rf.n → (va s 3 L).toNat % 4 < 2) ∧ s.team.ctl.mask.getLsbD 0 = true ∧ s.team.ctl.loops = []
         ∧ ∀ c ∈ batch1.buffer, isRaw c.1 = false)
    ∧ (let s := vertexed (wave memCore) classes1 Home.empty
       Ready (.creply ⟨1, 3, false, false⟩) s ∧ Ready .cdone s ∧ (ownHome s).batch = none) :=
  ⟨⟨(runs_of (by decide +kernel)).1, by decide, rfl, rfl, by decide +kernel, by decide +kernel⟩,
    ⟨(runs_of (by decide +kernel)).1, (runs_of (by decide +kernel)).1, inv_of (by decide +kernel), by decide +kernel, by decide +kernel,
      by decide +kernel, rfl, by decide +kernel⟩,
    ready_of (by decide +kernel), ready_of (by decide +kernel), rfl⟩

/-- The access to the table of a class. -/
def tableAcc : LaneAcc := { lane := 0, va := 0x4000, pa := 0x4000, key := 0, via := .phase, leaf := some { pte := 0x9D, page := 0, size := 0x40000000 } }

/-- MREG of the least and greatest class, over a table with a valid entry and over one without. -/
theorem witness_classes : ∀ c ∈ [(1 : Word), 1023], ∀ b ∈ [(0 : Byte), 1],
    let s := { mapped (setS memCore 3 c) with ms := { (mapped memCore).ms with mem := if b = 0 then [] else [(0x4000, b)] } }
    Runs (.mreg ⟨3, 4, false⟩) s ∧ s.ms.ecc = [] ∧ s.team.poison = [] ∧ NoScatter s (sectorAccs tableAcc 256)
      ∧ checkLanes s .read true 256 [(0, spair s.team (2 * (4 : BitVec 4).toNat))] = .ok [tableAcc]
      ∧ 1 ≤ (sget s.team 3).toNat ∧ (sget s.team 3).toNat ≤ 1023
      ∧ (∀ i, i < 64 → (loaded 4 (fun k => seeByte s tableAcc.via 0 (tableAcc.pa + 4 * i + k)) 0).getLsbD 1 = false)
      ∧ (loaded 4 (fun k => seeByte s tableAcc.via 0 (tableAcc.pa + 4 * 0 + k)) 0).getLsbD 0 = (b == 1) := by
  intro c hc b hb
  fin_cases hc <;> fin_cases hb <;>
    exact ⟨(runs_of (by decide +kernel)).1, rfl, rfl, by unfold NoScatter; decide +kernel, by decide +kernel, by decide +kernel, by decide +kernel, by decide +kernel, by decide +kernel⟩

/-- A state in which the polled sector may have been written since the snapshot. -/
def polling (ticks : Word) (wrote : List (Nat × Nat)) : State :=
  let s := mapped (setS memCore 3 ticks)
  { s with ms := { s.ms with stamp := 2, wrote := wrote }, team := { s.team with ver := { s.team.ver with snap := some 0 } } }

theorem witness_waits :
    (let s := polling 5 []
     RunsLanes (.twait ⟨2, 3, 0, 4, 6⟩) s ∧ active s.team 2 ≠ 0 ∧ s.team.stage = .resident ∧ s.team.passed = none ∧ (sget s.team 3).toNat ≠ 0
       ∧ ∃ xs, checkLanes s .read false 1 (laneAddrs s.team 2 (memAddr s.team 4 0)) = .ok xs ∧ NoScatter s xs
         ∧ (pollsOf s xs).any (fun x => decide (x.2.2 < lastWrite s.ms x.2.1)) = false)
    ∧ (let s := polling 5 [(0x100, 1)]
       RunsLanes (.twait ⟨2, 3, 0, 4, 6⟩) s ∧ ∃ xs, checkLanes s .read false 1 (laneAddrs s.team 2 (memAddr s.team 4 0)) = .ok xs ∧ NoScatter s xs
         ∧ (pollsOf s xs).any (fun x => decide (x.2.2 < lastWrite s.ms x.2.1)) = true)
    ∧ (let s := polling 0 []
       RunsLanes (.twait ⟨2, 3, 0, 4, 0⟩) s ∧ (sget s.team 3).toNat = 0)
    ∧ (Runs (.twait ⟨3, 3, 0, 4, 0⟩) (polling 0 []) ∧ active (polling 0 []).team 3 = 0)
    ∧ (let w : Twait := { polls := [(0, 0x100, 0), (2, 0x100, 0)], limit := 5, p := 6, long := false }
       let s := polling 5 [(0x100, 1)]
       let u := { s with team := { s.team with wait := .twait w } }
       u.team.wait = .twait w ∧ u.team.stage = .resident ∧ u.team.passed = none ∧ w.p ≠ 7 ∧ Shaped u.team ∧ Laned u.team ∧ Straight u) :=
  ⟨⟨runs_of (by decide +kernel), by decide +kernel, rfl, rfl, by decide +kernel,
      ok_and (P := fun xs : List LaneAcc => (∀ x ∈ xs, scattering (polling 5 []).team (x.pa / 64) = false)
        ∧ (pollsOf (polling 5 []) xs).any (fun x => decide (x.2.2 < lastWrite (polling 5 []).ms x.2.1)) = false) (by decide +kernel)⟩,
    ⟨runs_of (by decide +kernel),
      ok_and (P := fun xs : List LaneAcc => (∀ x ∈ xs, scattering (polling 5 []).team (x.pa / 64) = false)
        ∧ (pollsOf (polling 5 [(0x100, 1)]) xs).any (fun x => decide (x.2.2 < lastWrite (polling 5 [(0x100, 1)]).ms x.2.1)) = true)
        (by decide +kernel)⟩, ⟨runs_of (by decide +kernel), by decide +kernel⟩,
    ⟨(runs_of (by decide +kernel)).1, by decide +kernel⟩, rfl, rfl, rfl, by decide, ⟨rfl, rfl, rfl, rfl, rfl, rfl, rfl⟩, by unfold Laned; decide,
    by decide +kernel, fun f hf => absurd hf List.not_mem_nil⟩

/-- What a read of a record gives, as data. -/
def readOf (align : Nat) (s : State) (va : DWord) (len : Nat) : Option (List Byte × State) :=
  let pages := rangePages va len
  match checkLanes s .read true align ((0, va) :: (pages.drop 1).map fun p => (0, p.1)) with
  | .error _ => none
  | .ok xs =>
    let parts := xs.zip (pages.map fun p => p.2)
    let accs := parts.flatMap fun p => sectorAccs p.1 p.2
    if accs.any fun x => scattering s.team (x.pa / 64) then none
    else
      let s1 := noteReads { s with ms := cacheLeaves s.team s.ms xs } none 0 false accs
      match poisoned s1 with
      | some _ => none
      | none => some (parts.flatMap fun p => seeBytes s p.1 p.2, s1)

theorem withBytes_of {align : Nat} {s u : State} {va : DWord} {len : Nat} {bs : List Byte} (h : readOf align s va len = some (bs, u)) :
    ∀ k, withBytes align s va len k = k bs u := by
  intro k
  unfold readOf at h
  unfold withBytes
  dsimp only at h ⊢
  split at h
  · cases h
  · rename_i _ _ hx
    rw [hx]
    dsimp only
    split at h
    · cases h
    · rename_i hs
      rw [if_neg hs]
      split at h
      · cases h
      · rename_i hp
        first
          | (erw [hp]; cases h; rfl)
          | (cases h; rfl)

/-- Bytes given by their places, zero elsewhere. -/
def bytesAt (n : Nat) (cs : List (Nat × Byte)) : List Byte := (List.range n).map fun k => ((cs.find? fun c => c.1 == k).map fun c => c.2).getD 0

/-- The machine whose second gibibyte is host memory that holds a record; `s8` points at it, a snapshot is open, and the record's
sectors are served at home. -/
def hostRec (cs : List (Nat × Byte)) (t : Team) : State :=
  let s := mapped { setPair t 8 0x40000000 with ver := { Version.fresh with snap := some 0, homed := (List.range 80).map (0x10000000000 + ·) } }
  { s with ms := { s.ms with mem := cs.map fun c => (0x400000000000 + c.1, c.2),
                             tlb := { core := 0, asid := 0, page := 0x40000000, size := 0x40000000, pte := 0x40000000009D } :: s.ms.tlb },
           sched := { s.sched with cpool := 1 } }

/-- The same, holding the next `n` sectors of the record. -/
def holding (s : State) (n : Nat) : State :=
  { s with team := { s.team with ver := { s.team.ver with
      held := ((List.range n).map fun k => 0x10000000000 + s.team.ver.held.length + k) ++ s.team.ver.held } } }

theorem readsRecord_of {s : State} {align len n : Nat} {va : DWord} {bs : List Byte} (h : readOf align s va len = some (bs, holding s n)) :
    ReadsRecord s align va len bs (holding s n) := ⟨withBytes_of h, rfl, rfl, by intros _ _ _ _ _ _; rfl⟩

theorem some_and {α : Type} {x : Option α} {P : α → Prop} [DecidablePred P]
    (h : (match x with | some a => decide (P a) | none => false) = true) : ∃ a, x = some a ∧ P a := by
  cases x with
  | some a => exact ⟨a, rfl, of_decide_eq_true h⟩
  | none => cases h

/-- A launch record: one gang of one team of 32 lanes and 8 registers at 0x1000. -/
def launchRec : List (Nat × Byte) := [(1, 0x10), (24, 1), (26, 1), (28, 1), (36, 1), (37, 1), (42, 1)]

/-- A saved record of grid 1: 8 registers of 32 lanes, everything else zero. -/
def savedRec : List (Nat × Byte) := [(2, 0x80), (112, 1)]

theorem witness_launch :
    let s := hostRec launchRec core
    Runs (.launch ⟨4⟩) s ∧ ReadsRecord (noteIssue s) 256 (spair s.team (2 * (4 : BitVec 4).toNat)) 256 (bytesAt 256 launchRec) (holding (noteIssue s) 4)
      ∧ s.team.pl.depth ≠ 10 ∧ badRecord (dwordsOf 32 (bytesAt 256 launchRec)) s.team.pl.priv (coresOf s s.team) = false ∧ s.team.children.length < 256
      ∧ s.sched.grids.length < 4096 :=
  ⟨(runs_of (by decide +kernel)).1, readsRecord_of (by decide +kernel), by decide, by decide +kernel, by decide, by decide⟩

theorem witness_post :
    let s := hostRec savedRec core
    let u := holding (noteIssue s) 40
    let v := holding u 16
    Runs (.postc ⟨4⟩) s ∧ ReadsRecord (noteIssue s) 256 (spair s.team (2 * (4 : BitVec 4).toNat)) 0xA00 (bytesAt 0xA00 savedRec) u
      ∧ recordLen (bytesAt 0xA00 savedRec) = some 0xE00
      ∧ ReadsRecord u 256 (spair s.team (2 * (4 : BitVec 4).toNat)) 0xE00 (bytesAt 0xE00 savedRec) v
      ∧ (∃ r, readSaved (bytesAt 0xE00 savedRec) false = some r ∧ postOk v r = true) ∧ freePool v = some 0 :=
  ⟨(runs_of (by decide +kernel)).1, readsRecord_of (by decide +kernel), by decide +kernel, readsRecord_of (by decide +kernel),
    some_and (by decide +kernel), by decide +kernel⟩

/-- A graph of a node and its EARLY successor, both KERNEL; the first waits. -/
def graph2 : Graph :=
  { asid := 0, priv := true, nodes := [[0, 2 ^ 32, 0, 0, 0, 0, 0, 0], [0x1000000000100, 1, 0, 0, 0, 0, 0, 0]], edges := [1], recs := [[], []], units := 1,
    running := true, pending := [], states := [.waiting, .grid 1] }

/-- A team of a grid that the second node launched. -/
def early : State :=
  let s := at1 { core with children := [7] }
  let g : Grid := { id := 1, from_ := .node 0 1, rec_ := [], asid := 0, prio := 0, depth := 0, priv := true, cores := 1, since := 0, next := 1, size := 1, last := 0,
                    fatal := false }
  { s with sched := { s.sched with grids := [g], graphs := { GraphSlot.empty with graph := some graph2 } :: List.replicate 255 GraphSlot.empty } }

theorem witness_dependences :
    (Runs .waitdep (at1 core) ∧ depMet (at1 core) core = true) ∧ (Runs .waitdep early ∧ depMet early early.team = false)
    ∧ (Runs .joink (at1 core) ∧ core.children = []) ∧ (Runs .joink early ∧ early.team.children ≠ []) :=
  ⟨⟨(runs_of (by decide +kernel)).1, by decide +kernel⟩, ⟨(runs_of (by decide +kernel)).1, by decide +kernel⟩, ⟨(runs_of (by decide +kernel)).1, rfl⟩,
    (runs_of (by decide +kernel)).1, by decide⟩

/-- A gang with a ring of two slots at offset 0: LOGCAP 1, the given governor entry, HEAD and TAIL. -/
def ringed (gid : Nat) (head tail : Word) : State :=
  let bs := leBytes 16 (1 + 16 * gid + 2 ^ 32 * head.toNat + 2 ^ 64 * tail.toNat)
  { mapped core with gangs := [{ gang1 with scratch := (List.range 16).map fun k => (k, bs.getD k 0) }] }

/-- Rings with one word in them: at the start, where HEAD and TAIL wrap, and with an unused governor entry. -/
theorem witness_rings : ∀ s ∈ [ringed 7 0 1, ringed 7 0xFFFFFFFF 0, ringed 0 4 5],
    Runs (.rput ⟨0, 2, false, false⟩) s ∧ Runs (.rget ⟨31, 0, false⟩) s ∧ (s.gangOf s.team).isSome = true ∧ ringCheck s 0 = none
      ∧ (ringHdr s s.team 0).occ < 2 ^ (ringHdr s s.team 0).logcap ∧ 0 < (ringHdr s s.team 0).occ
      ∧ (∀ put, ringAhead s 0 put = false) ∧ (sget s.team 0).toNat = 0
      ∧ ((ringHdr s s.team 0).gid = 7 ∨ bitsOf (govWord s s.team (ringHdr s s.team 0).gid) 63 1 = 0) := by
  intro s hs
  fin_cases hs <;>
    exact ⟨(runs_of (by decide +kernel)).1, (runs_of (by decide +kernel)).1, by decide +kernel, by decide +kernel, by decide +kernel, by decide +kernel,
      by decide +kernel, by decide +kernel, by decide +kernel⟩

/-! ### Witnesses: marl mode and residency -/

/-- The team with a target word in s10, a row word in s11 and again in s12. -/
def marlTeam (target row : Word) : Team := setS (setS (setS memCore 10 target) 11 row) 12 row

/-- Slice 0 in marl mode, owned by the team's gang, with a queue. -/
def slice0 (q : List MarlEntry) : MarlSlice := { num := 0, grid := 1, gang := 0, rows := [(0, 5), (1, 3)], queue := q, reds := [] }

/-- The machine with it; four slices may be in marl mode. -/
def marled (t : Team) (q : List MarlEntry) : State :=
  let s := mapped t
  { s with marl := [slice0 q], res := { s.res with l2cfg := 0x402 } }

theorem witness_mron :
    (let s := marled (setS core 3 0) []
     Runs (.mron ⟨4, 3, false⟩) s ∧ (sget s.team 3).toNat < 256 ∧ sliceOf s 0 = some (slice0 []) ∧ ownsSlice s.team (slice0 []) = true)
    ∧ (let s := marled { setS core 3 0 with pl := { core.pl with gang := 1 } } []
       Runs (.mron ⟨4, 3, false⟩) s ∧ sliceOf s 0 = some (slice0 []) ∧ ownsSlice s.team (slice0 []) = false)
    ∧ (let s := mapped (setS core 3 255)
       Runs (.mron ⟨4, 3, false⟩) s ∧ (sget s.team 3).toNat < 256 ∧ sliceOf s 255 = none ∧ marlMax s ≤ s.marl.length)
    ∧ (let s := marled (setS core 3 255) []
       Runs (.mron ⟨4, 3, false⟩) s ∧ sliceOf s 255 = none ∧ s.marl.length < marlMax s ∧ keelFull s 255 = false)
    ∧ (let s := marled (setS core 3 0) []
       Runs (.mroff ⟨3, false⟩) s ∧ sliceOf s (sget s.team 3).toNat = some (slice0 []) ∧ (slice0 []).queue = []) :=
  ⟨⟨(runs_of (by decide +kernel)).1, by decide +kernel, by decide +kernel, by decide⟩,
    ⟨(runs_of (by decide +kernel)).1, by decide +kernel, by decide⟩,
    ⟨(runs_of (by decide +kernel)).1, by decide +kernel, by decide +kernel, by decide +kernel⟩,
    ⟨(runs_of (by decide +kernel)).1, by decide +kernel, by decide +kernel, by decide +kernel⟩,
    (runs_of (by decide +kernel)).1, by decide +kernel, rfl⟩

/-- The commands, with all 56 subarrays in range or the last alone. -/
theorem witness_marl_commands : ∀ target ∈ [(0x000DC000 : Word), 0x000DF700],
    let own := fun (s : State) => sliceOf s (tSlice target) = some (slice0 []) ∧ ownsSlice s.team (slice0 []) = true ∧ target.getLsbD 31 = false
      ∧ tFirst target ≤ tLast target ∧ tLast target ≤ 55 ∧ s.team.eng.count 5 < 16 ∧ sget s.team 10 = target
    (let row : Word := 0x000E0400
     let s := marled (marlTeam target row) []
     own s ∧ Runs (.mrld ⟨4, 10, false⟩) s ∧ Runs (.mrst ⟨4, 10, false⟩) s ∧ sget s.team (10 + 1) = row ∧ 1 ≤ rKp row ∧ rKp row ≤ 8 ∧ tMasked target = false
       ∧ rD row + rKp row ≤ 1024 ∧ tLast target + 1 - tFirst target ≤ rPlen row ∧ (rangeBase s ⟨4, 10, false⟩).toNat % 128 = 0
       ∧ canonical (rangeBase s ⟨4, 10, false⟩) = true)
    ∧ (let row : Word := 0x00200464
       let s := marled (marlTeam target row) []
       own s ∧ row.getLsbD 31 = false ∧ row.getLsbD 30 = false ∧ Runs (.mrop ⟨4, 12, 10, false, false⟩) s)
    ∧ (let row : Word := 0x03200064
       let s := marled (marlTeam target row) []
       own s ∧ sget s.team 12 = row ∧ Runs (.mradd ⟨7, 12, 10, false, false⟩) s ∧ rowsBad row (8 + 1) 8 (row.getLsbD 30) true = false
         ∧ Runs (.mrmul ⟨15, 12, 10, false, false⟩) s ∧ rowsBad row (2 * 16) 16 (row.getLsbD 30) true = false
         ∧ Runs (.mrcmp ⟨true, 31, 12, 10, false, false⟩) s ∧ rowsBad row 1 32 (row.getLsbD 30) false = false)
    ∧ (let row : Word := 0xC0000064
       let s := marled (marlTeam target row) []
       own s ∧ Runs (.mradd ⟨31, 12, 10, false, false⟩) s ∧ rowsBad row (32 + 1) 32 (row.getLsbD 30) true = false ∧ row.getLsbD 30 = true ∧ (10 : BitVec 5) ≠ 31)
    ∧ (let row : Word := 0x7C00
       let s := marled (marlTeam target row) []
       own s ∧ Runs (.mrred ⟨4, 12, 10, false, false⟩) s ∧ row.toNat < 2 ^ 16 ∧ rD row + (bitsOf row.toNat 10 5 + 1) ≤ 1024) := by
  intro target ht
  fin_cases ht <;>
    exact ⟨⟨by decide +kernel, (runs_of (by decide +kernel)).1, (runs_of (by decide +kernel)).1, by decide +kernel⟩,
      ⟨by decide +kernel, by decide +kernel, by decide +kernel, (runs_of (by decide +kernel)).1⟩,
      ⟨by decide +kernel, by decide +kernel, (runs_of (by decide +kernel)).1, by decide +kernel, (runs_of (by decide +kernel)).1, by decide +kernel,
        (runs_of (by decide +kernel)).1, by decide +kernel⟩,
      ⟨by decide +kernel, (runs_of (by decide +kernel)).1, by decide +kernel, by decide +kernel, by decide⟩,
      by decide +kernel, (runs_of (by decide +kernel)).1, by decide +kernel, by decide +kernel⟩

/-- A lane in range whose mask bit is set and one whose bit is clear, and a lane out of range. -/
theorem witness_marl_computes : let target : Word := 0x40004000
    let rows := [(0, 5), (1, 3)]
    1024 * tFirst target ≤ 0 ∧ 0 < 1024 * (tLast target + 1) ∧ (tMasked target = false ∨ rowBit rows (tMrow target) 0 = true)
      ∧ ¬(tMasked target = false ∨ rowBit rows (tMrow target) 1 = true) ∧ ¬(2048 < 1024 * (tLast target + 1)) ∧ tMasked 0x4000 = false := by
  decide +kernel

/-- A command at the head of the slice's queue. -/
def entry (cmd : MarlCmd) : MarlEntry := { uid := 1, tag := 0, code := 0, cmd := cmd }

theorem witness_engines :
    (∀ cmd ∈ [MarlCmd.op 0 0 0, .add 8 0 0 0, .mul 8 0 0 0, .cmp true 8 0 0 0, .red 0 0, .ld 0x4000 0 0x4400, .st 0x4000 0 0x4400],
      sliceOf (marled memCore [entry cmd]) 0 = some (slice0 [entry cmd]) ∧ (slice0 [entry cmd]).queue = entry cmd :: [])
    ∧ (∀ acc ∈ [Access.read, .write], let s := marled memCore [entry (.ld 0x4000 0 0x4400)]
      s.find 1 = some memCore ∧ (match transPieces memCore 0 acc (marlPieces 0x4000 0 0x4400) s [] with | (.ok _ _ _ _, xs) => xs.map fun x => (x.pa, x.direct, x.row, x.sub) | _ => [])
        = [(0x4000, false, 0, 0)])
    ∧ (let t : Team := { core with nextTag := 1, eng := { Engines.idle with ops := [⟨0, 3, .none, 0, false, false⟩] } }
       (at1 t).find 1 = some t ∧ (openScatters t)[0]? = some ⟨0, 3, .none, 0, false, false⟩ ∧ t.handler = none ∧ t.stage = .resident
         ∧ t.eng.ops.head? = some ⟨0, 3, .none, 0, false, false⟩ ∧ (t.eng.ops.filter fun x => x.tag == 0) = [⟨0, 3, .none, 0, false, false⟩]) :=
  ⟨fun cmd hc => by fin_cases hc <;> exact ⟨by decide +kernel, rfl⟩, fun acc ha => by fin_cases ha <;> exact ⟨by decide +kernel, by decide +kernel⟩,
    rfl, rfl, rfl, rfl, rfl, rfl⟩

/-- Page tables that map the 4 KiB page at 0x5000 to 0x20000 in the first address space. -/
def tables : List Host.Cell := [(0, 1), (10, 1), (0x10000, 1), (0x10001, 0x10), (0x10002, 1), (0x11000, 1), (0x11001, 0x20), (0x11002, 1), (0x12000, 1),
  (0x12001, 0x30), (0x12002, 1), (0x13000, 1), (0x13001, 0x40), (0x13002, 1), (0x14028, 0x9D), (0x1402A, 2)]

/-- The machine with the tables, the given handles, s8 at 0x5000 and 4096 in s3. -/
def paged (hs : List Handle) (w : Word) (ops : List Op) : State :=
  let s := mapped (setS (setS (setPair { core with eng := { Engines.idle with ops := ops } } 8 0x5000) 3 4096) 4 w)
  { s with ms := { s.ms with mem := tables }, res := { s.res with handles := hs } }

/-- A handle on the page. -/
def handle0 (ops : List HOp) : Handle := { id := 0, asid := 0, base := 0x5000, len := 4096, prio := 0, cls := 3, ops := ops }

theorem witness_hold :
    (Runs (.hold ⟨6, 4, 3, false⟩) (paged [] 0 []) ∧ canonical (spair (paged [] 0 []).team 8) = true ∧ holdRefusals (paged [] 0 []) 0 0x5000 4096 = [])
    ∧ (let s := paged [handle0 []] 0 []
       Runs (.hold ⟨6, 4, 3, false⟩) s ∧ holdRefusals s 0 0x5000 4096 = [2])
    ∧ (let s := mapped (setPair core 8 0x0100000000000000)
       Runs (.hold ⟨6, 4, 3, false⟩) s ∧ canonical (spair s.team 8) = false) :=
  ⟨⟨(runs_of (by decide +kernel)).1, by decide +kernel, by decide +kernel⟩, ⟨(runs_of (by decide +kernel)).1, by decide +kernel⟩,
    (runs_of (by decide +kernel)).1, by decide +kernel⟩

theorem witness_handles :
    (∀ i ∈ [Instr.hset ⟨5, 4, false, false⟩, .hdem ⟨5, false⟩, .hpro ⟨5, false⟩, .hrel ⟨5, false⟩],
      (RunsLanes i (paged [handle0 []] 63 []) ∧ handleOf (paged [handle0 []] 63 []) 0 (sget (paged [handle0 []] 63 []).team 5) = some (handle0 [])
        ∧ (paged [handle0 []] 63 []).team.eng.count 6 < 8)
      ∧ (Ready i (paged [] 63 []) ∧ handleOf (paged [] 63 []) 0 (sget (paged [] 63 []).team 5) = none))
    ∧ (sget (paged [handle0 []] 63 []).team 4).toNat < 64
    ∧ (Runs (.hset ⟨5, 4, false, false⟩) (paged [handle0 []] 64 []) ∧ 64 ≤ (sget (paged [handle0 []] 64 []).team 4).toNat) :=
  ⟨fun i hi => by
      refine ⟨⟨all_runs (l := [Instr.hset ⟨5, 4, false, false⟩, .hdem ⟨5, false⟩, .hpro ⟨5, false⟩, .hrel ⟨5, false⟩]) (by decide +kernel) i hi,
        by decide +kernel, by decide +kernel⟩, ?_, by decide +kernel⟩
      fin_cases hi <;> exact ready_of (by decide +kernel),
    by decide +kernel, (runs_of (by decide +kernel)).1, by decide +kernel⟩

/-- Operations at a handle: a release with one behind it; a migration that waits for a load; a promotion with nothing to move; a demotion
without a pool. -/
theorem witness_residency_completes :
    (let h := handle0 [⟨.rel, 1, 0⟩, ⟨.dem, 1, 1⟩]
     (paged [h] 0 []).res.handles.find? (fun h => h.id == 0) = some h ∧ h.ops = ⟨.rel, 1, 0⟩ :: [⟨.dem, 1, 1⟩])
    ∧ (let h := handle0 [⟨.dem, 1, 0⟩]
       let load : Op := ⟨1, 0, .vec 12 0 [], 0, true, false⟩
       (paged [h] 0 [load]).res.handles.find? (fun h => h.id == 0) = some h ∧ usesOld (paged [h] 0 [load]) h.asid h.base.toNat h.len = true)
    ∧ (let h := handle0 [⟨.pro, 1, 0⟩]
       let s := paged [h] 0 []
       usesOld s h.asid h.base.toNat h.len = false ∧ (migrate (modHandle s 0 fun h => { h with ops := [] }) h false).2 = none)
    ∧ (let h := handle0 [⟨.dem, 1, 0⟩]
       let s := modHandle (paged [h] 0 []) 0 fun h => { h with ops := [] }
       (migrate s h true).2 = some 3 ∧ planMoves (pagesToMove s h true) (poolFrom s.res.hrpool0 false s.res.used0 s.res.extra0) = none) := by
  decide +kernel

/-! ### Witnesses: the Locus engine and the sieve -/

/-- Euler's tableau, and a problem of two variables from 0 to 2 with steps from 0.5 to 2 and `ev` events. -/
def euler : List Word := ((0x101 : Word) :: List.replicate 155 0).set 132 0x3F800000
def problem2 (ev : Nat) : List Word :=
  [BitVec.ofNat 32 (2 + 4096 * ev), 0, 0x3F800000, 0, 0, 0, 0x3F800000, 0x3F000000, 0x40000000, 0x40000000, 0, 0, 0, 0, 0, 0]

/-- Their bytes, the problem record behind the tableau. -/
def locusRecs : List (Nat × Byte) :=
  [(0, 1), (1, 1), (530, 0x80), (531, 0x3F), (640, 2), (650, 0x80), (651, 0x3F), (666, 0x80), (667, 0x3F), (671, 0x3F), (675, 0x40), (679, 0x40)]

/-- The machine that holds them, with contexts. -/
def integrating (cs : List LocusCtx) (t : Team) : State :=
  let s := hostRec locusRecs (setPair t 10 0x40000280)
  { s with gangs := [gang1], locus := cs, others := (cs.filter fun c => c.uid != 1).map fun c => { core with uid := c.uid, locus := some c.num } }

/-- A context of the team with number `k`. -/
def ctxOf (uid k ev : Nat) : LocusCtx := freshCtx 0 k uid 32 euler (problem2 ev)

theorem witness_igbind :
    (∀ cs ∈ [[], [ctxOf 5 0 0, ctxOf 6 1 0, ctxOf 7 2 0, ctxOf 8 3 0]], let s := integrating cs core
      let u := holding (noteIssue s) 10
      Runs (.igbind ⟨6, 4, 5⟩) s ∧ s.team.locus = none ∧ 24 ≤ s.team.rf.nv
        ∧ ReadsRecord (noteIssue s) 128 (spair s.team (2 * (4 : BitVec 4).toNat)) 624 (bytesAt 640 locusRecs) u
        ∧ ReadsRecord u 64 (spair s.team (2 * (5 : BitVec 4).toNat)) 64 (bytesAt 64 (locusRecs.map fun c => (c.1 - 640, if 640 ≤ c.1 then c.2 else 0)).reverse) (holding u 1)
        ∧ (let tb := tableauOf (bytesAt 640 locusRecs)
           let p := problemOf (bytesAt 64 (locusRecs.map fun c => (c.1 - 640, if 640 ≤ c.1 then c.2 else 0)).reverse)
           tableauBad tb = none ∧ problemBad p (needsJac tb) = none
             ∧ prWork p + workBytes (prN p) (if tbKind tb = 2 then 2 * tbS tb else tbS tb) s.team.rf.n ≤ allotment s s.team)
        ∧ freeCtx s s.team.pl.core = if cs = [] then some 0 else none)
    ∧ (Runs (.igbind ⟨6, 4, 5⟩) (integrating [ctxOf 1 0 0] { core with locus := some 0 }) ∧ (some 0 : Option Nat) ≠ none)
    ∧ (let t := { core with rf := { regs with nv := 16, v := regs.v.take 16 } }
       Runs (.igbind ⟨6, 4, 5⟩) (integrating [] t) ∧ t.locus = none ∧ t.rf.nv < 24) := by
  refine ⟨fun cs hc => ?_, ⟨(runs_of (by decide +kernel)).1, by decide⟩, (runs_of (by decide +kernel)).1, rfl, by decide⟩
  fin_cases hc <;>
    exact ⟨(runs_of (by decide +kernel)).1, rfl, by decide, readsRecord_of (by decide +kernel), readsRecord_of (by decide +kernel),
      by decide +kernel, by decide +kernel⟩

/-- The team with context 0 bound; v4 holds 1.0, and NaN in lane 2. -/
def bound (c : LocusCtx) : State :=
  { mapped { setV core 4 (BitVec.allOnes 1024) (fun L => if L = 2 then 0x7FC00000 else 0x3F800000) with locus := some 0 } with locus := [c], gangs := [gang1] }

theorem witness_fields :
    boundCtx (bound (ctxOf 1 0 0)) = some (ctxOf 1 0 0) ∧ (ctxOf 1 0 0).lanes.length = 32 ∧ (ctxOf 1 0 0).phase = .idle
    ∧ (∀ f ∈ [(0 : BitVec 3), 1, 2, 3, 4], Runs (.igrd ⟨2, 12, f⟩) (bound (ctxOf 1 0 0)))
    ∧ (∀ f ∈ [(0 : BitVec 3), 1], Runs (.igwr ⟨1, 4, f, false⟩) (bound (ctxOf 1 0 0)) ∧ (active (bound (ctxOf 1 0 0)).team 1).getLsbD 2 = true
      ∧ igwrOk (ctxOf 1 0 0) f (va (bound (ctxOf 1 0 0)) 4 2) = false ∧ ∀ K, K < 2 → igwrOk (ctxOf 1 0 0) f (va (bound (ctxOf 1 0 0)) 4 K) = true)
    ∧ (Runs (.igwr ⟨2, 5, 4, false⟩) (bound (ctxOf 1 0 0)) ∧ ∀ L, L < 32 → igwrOk (ctxOf 1 0 0) 4 (va (bound (ctxOf 1 0 0)) 5 L) = true)
    ∧ (∀ t, Runs (.igq ⟨2, 62, 4, t, false⟩) (bound (ctxOf 1 0 0))) ∧ 62 + (ctxOf 1 0 0).n ≤ (bound (ctxOf 1 0 0)).team.rf.nv :=
  ⟨by decide +kernel, by decide +kernel, rfl, fun f hf => by fin_cases hf <;> exact (runs_of (by decide +kernel)).1,
    fun f hf => by fin_cases hf <;> exact ⟨(runs_of (by decide +kernel)).1, by decide +kernel, by decide +kernel, by decide +kernel⟩,
    ⟨(runs_of (by decide +kernel)).1, by decide +kernel⟩, fun t => by cases t <;> exact (runs_of (by decide +kernel)).1, by decide +kernel⟩

/-- The context with every lane ended. -/
def endedCtx : LocusCtx := { ctxOf 1 0 0 with lanes := (ctxOf 1 0 0).lanes.map fun x => { x with stat := 5 } }

/-- The context inside a routine of a kind. -/
def inCall (kind : Nat) : LocusCtx :=
  { ctxOf 1 0 1 with phase := .impBack 0, inRoutine := true, kind := kind, called := 0x5, active := 0xFF, savedMask := 0xFFFFFFFF, igrunPc := 0x2000 }

theorem witness_igrun :
    (let s := bound (ctxOf 1 0 0)
     Runs .igrun s ∧ boundCtx s = some (ctxOf 1 0 0) ∧ (ctxOf 1 0 0).n ≤ 16 ∧ 24 ≤ s.team.rf.nv ∧ s.team.ctl.mask.getLsbD 0 = true
       ∧ laneCode_ ((ctxOf 1 0 0).lane 0) = 0 ∧ lLe (prTend (ctxOf 1 0 0).problem) ((ctxOf 1 0 0).lane 0).t = false)
    ∧ (Runs .igrun (bound endedCtx) ∧ ∀ L, L < 32 → laneCode_ (endedCtx.lane L) ≠ 0) ∧ (Ready .igrun (at1 core) ∧ boundCtx (at1 core) = none)
    ∧ (∀ k ∈ [0, 3, 4, 7], Ready (.igret ⟨BitVec.ofNat 3 (wantedKind (inCall k))⟩) (bound (inCall k))
      ∧ inRoutine (bound (inCall k)) (bound (inCall k)).team = true ∧ (BitVec.ofNat 3 (wantedKind (inCall k))).toNat = wantedKind (inCall k)
      ∧ (bound (inCall k)).team.ctl.stack.length = (inCall k).depth ∧ (bound (inCall k)).team.ctl.loops = (inCall k).frames
      ∧ ∀ r, r < prEv (inCall k).problem → vIsFull (bound (inCall k)).team r = true)
    ∧ (Ready (.igret ⟨0⟩) (bound (ctxOf 1 0 0)) ∧ inRoutine (bound (ctxOf 1 0 0)) (bound (ctxOf 1 0 0)).team = false)
    ∧ (Ready (.igret ⟨4⟩) (bound (inCall 0)) ∧ (4 : BitVec 3).toNat ≠ wantedKind (inCall 0))
    ∧ (Runs .igstop (bound (ctxOf 1 0 0)) ∧ inRoutine (bound (ctxOf 1 0 0)) (bound (ctxOf 1 0 0)).team = false)
    ∧ (Ready .igstop (bound (inCall 1)) ∧ stepping (bound (inCall 1)).team = false ∧ boundCtx (bound (inCall 1)) = some (inCall 1)
      ∧ (inCall 1).lanes.length = 32 ∧ (∀ r ∈ locusRegs (inCall 1).n, vIsFull (bound (inCall 1)).team r = true) ∧ (inCall 1).savedLoops = []) :=
  ⟨⟨(runs_of (by decide +kernel)).1, by decide +kernel, by decide +kernel, by decide, by decide +kernel, by decide +kernel, by decide +kernel⟩,
    ⟨(runs_of (by decide +kernel)).1, by decide +kernel⟩, ⟨ready_of (by decide +kernel), rfl⟩,
    fun k hk => by fin_cases hk <;> exact ⟨ready_of (by decide +kernel), by decide +kernel⟩, ⟨ready_of (by decide +kernel), by decide +kernel⟩,
    ⟨ready_of (by decide +kernel), by decide +kernel⟩, ⟨(runs_of (by decide +kernel)).1, by decide +kernel⟩, ready_of (by decide +kernel), by decide +kernel⟩

/-- A state whose engine moves as `p` says. -/
theorem engine_of {s : State} {p : EngineMove → Bool} (h : (match engineOf s with | some e => p e.move | none => false) = true) :
    ∃ e, engineOf s = some e ∧ p e.move = true := by
  cases he : engineOf s with
  | some e => rw [he] at h; exact ⟨e, rfl, h⟩
  | none => rw [he] at h; cases h

/-- The engine has the team, with this context. -/
def engaged (c : LocusCtx) : State := (bound c).withTeam { (bound c).team with wait := .locus }

/-- The engine calls a routine at the start of a step, and is done when no lane runs. -/
theorem witness_engine_moves :
    (∃ e, engineOf (engaged { ctxOf 1 0 0 with phase := .start, active := 0x5 }) = some e ∧ (match e.move with | .call _ _ => true | _ => false) = true)
    ∧ (∃ e, engineOf (engaged { endedCtx with phase := .attempt, active := 0x5 }) = some e ∧ (match e.move with | .finish => true | _ => false) = true)
    ∧ Shaped core ∧ 24 ≤ core.rf.nv ∧ (inCall 0).n ≤ 16 ∧ core.rf.n ≤ 1024 ∧ stepping core = false :=
  ⟨engine_of (s := engaged { ctxOf 1 0 0 with phase := .start, active := 0x5 }) (p := fun m => match m with | .call _ _ => true | _ => false)
      (by decide +kernel),
    engine_of (s := engaged { endedCtx with phase := .attempt, active := 0x5 }) (p := fun m => match m with | .finish => true | _ => false)
      (by decide +kernel), ⟨rfl, rfl, rfl, rfl, rfl, rfl, rfl⟩, by decide, by decide +kernel, by decide, by decide +kernel⟩

/-- The sieve on with streams of two entries at 0x10000000; stream 1 is open with the given PUT, REL and DRAIN. -/
def sieved (isOpen : Bool) (put rel drain : Byte) (t : Team) : State :=
  let s := mapped (setS t 3 1)
  { s with host := { s.host with svcfg := 0x10000011, openStreams := if isOpen then [1] else [] },
           ms := { s.ms with mem := ([(0x10000048, put), (0x1000004C, rel), (0x10000050, drain)] : List Host.Cell).filter fun c => c.2 != 0 } }

/-- v4 numbers the lanes. -/
def numbered : Team := setV core 4 (BitVec.allOnes 1024) (BitVec.ofNat 32)

theorem stream_here (put rel drain : Byte) (t : Team) (h : ((svRead (sieved true put rel drain t) 1).isOpen && decide ((svRead (sieved true put rel drain t) 1).asid = t.pl.asid)
    && (sieved true put rel drain t).ms.mem.wf && (List.range 64).all fun i => isHbm (svRecPa (sieved true put rel drain t) 1 + i)) = true) : StreamHere (sieved true put rel drain t) 1 := by
  simp only [Bool.and_eq_true, List.all_eq_true, List.mem_range, decide_eq_true_eq] at h
  have none : ∀ x : Sector, x ∉ (sieved true put rel drain t).ms.l2 := fun x hx => absurd hx List.not_mem_nil
  have here : ∀ i, i < 16 * 2 ^ bitsOf (0x10000011 : DWord).toNat 4 4 →
      isHbm (base12 (0x10000011 : DWord) + 2 ^ 22 + 16 * (1 * 2 ^ bitsOf (0x10000011 : DWord).toNat 4 4) + i) = true := by decide +kernel
  exact ⟨show (0x10000011 : DWord).getLsbD 0 = true by decide, by decide, ⟨h.1.2, fun x hx => absurd hx (none x)⟩,
    fun i hi => ⟨h.2 i hi, fun x hx => absurd hx (none x)⟩, fun i hi => ⟨here i hi, fun x hx => absurd hx (none x)⟩, h.1.1.1, h.1.1.2⟩

theorem witness_svput :
    (let s := sieved true 0 0 0 core
     Runs (.svput ⟨2, 5, 1, 3, false, false⟩) s ∧ Invariant s ∧ (sget s.team 3).toNat = 1 ∧ StreamHere s 1 ∧ activeCount s 2 = 2
       ∧ (svRead s 1).put - (svRead s 1).drain + 2 ≤ 2 ^ svLog s)
    ∧ (let s := sieved true 1 0 0 core
       Runs (.svput ⟨2, 5, 1, 3, false, false⟩) s ∧ StreamHere s 1 ∧ 2 ^ svLog s < (svRead s 1).put - (svRead s 1).drain + 2)
    ∧ (let s := sieved true 0 0 0 core
       Runs (.svput ⟨3, 5, 1, 3, false, false⟩) s ∧ activeCount s 3 = 0) :=
  ⟨⟨(runs_of (by decide +kernel)).1, inv_of (by decide +kernel), by decide +kernel, stream_here 0 0 0 core (by decide +kernel), by decide +kernel, by decide +kernel⟩,
    ⟨(runs_of (by decide +kernel)).1, stream_here 1 0 0 core (by decide +kernel), by decide +kernel⟩, (runs_of (by decide +kernel)).1, by decide +kernel⟩

/-- Numbers 0, at or below DRAIN, in the ring and above PUT. -/
theorem witness_sieve :
    (let s := sieved true 2 1 1 numbered
     Runs (.svget ⟨1, 12, 4, 3, false, false⟩) s ∧ active s.team 1 ≠ 0 ∧ StreamHere s 1 ∧ (svRead s 1).put = 2 ∧ (svRead s 1).drain = 1
       ∧ ∀ L, L < 4 → (va s 4 L).toNat = L ∧ (active s.team 1).getLsbD L = true)
    ∧ (∀ n ∈ [(0 : Word), 2], let s := sieved true 2 1 0 (setS core 4 n)
       Runs (.svrel ⟨3, 4, false, false⟩) s ∧ Invariant s ∧ StreamHere s 1 ∧ (sget s.team 4).toNat ≤ (svRead s 1).put)
    ∧ (let s := sieved true 2 1 0 (setS core 4 3)
       Runs (.svrel ⟨3, 4, false, false⟩) s ∧ (svRead s 1).put < (sget s.team 4).toNat)
    ∧ (let s := sieved true 2 1 0 (setS (setS core 4 1) 5 2)
       Runs (.svdrop ⟨6, 3, 4, false, false⟩) s ∧ Invariant s ∧ StreamHere s 1 ∧ 1 ≤ (sget s.team 4).toNat ∧ (sget s.team 4).toNat ≤ (sget s.team 5).toNat
         ∧ (sget s.team 5).toNat ≤ (svRead s 1).put ∧ (svRead s 1).drain ≤ (svRead s 1).rel ∧ (svRead s 1).put - (svRead s 1).drain ≤ 2 ^ svLog s)
    ∧ (∀ i ∈ [Instr.svput ⟨2, 5, 1, 3, false, false⟩, .svget ⟨2, 12, 4, 3, false, false⟩, .svrel ⟨3, 4, false, false⟩, .svdrop ⟨6, 3, 4, false, false⟩],
       Ready i (mapped (setS core 3 1)) ∧ svOn (mapped (setS core 3 1)) = false ∧ Ready i (sieved false 0 0 0 core)
         ∧ svOn (sieved false 0 0 0 core) = true ∧ (svRead (sieved false 0 0 0 core) 1).isOpen = false
         ∧ Ready i (sieved true 0 0 0 { core with pl := { core.pl with asid := 1 } })
         ∧ (svRead (sieved true 0 0 0 { core with pl := { core.pl with asid := 1 } }) 1).asid ≠ 1)
    ∧ lanesOf 32 (active core 2) ≠ [] :=
  ⟨⟨(runs_of (by decide +kernel)).1, by decide +kernel, stream_here 2 1 1 numbered (by decide +kernel), by decide +kernel, by decide +kernel, by decide +kernel⟩,
    fun n hn => by fin_cases hn <;> exact ⟨(runs_of (by decide +kernel)).1, inv_of (by decide +kernel), stream_here _ _ _ _ (by decide +kernel), by decide +kernel⟩,
    ⟨(runs_of (by decide +kernel)).1, by decide +kernel⟩,
    ⟨(runs_of (by decide +kernel)).1, inv_of (by decide +kernel), stream_here _ _ _ _ (by decide +kernel), by decide +kernel⟩,
    fun i hi => by fin_cases hi <;> exact ⟨ready_of (by decide +kernel), by decide +kernel, ready_of (by decide +kernel), by decide +kernel, by decide +kernel,
      ready_of (by decide +kernel), by decide +kernel⟩, by decide +kernel⟩

/-- The host's commands: a closed stream to open, an open one to close, and DRAIN at, between and beyond its bounds. -/
theorem witness_sieve_commands :
    (let s := sieved false 0 0 0 core
     Invariant s ∧ svOn s = true ∧ (∀ i, i < 64 → isHbm (svRecPa s 1 + i) = true) ∧ (svRead s 1).isOpen = false)
    ∧ (let s := sieved true 4 3 1 core
       Invariant s ∧ (∀ i, i < 64 → isHbm (svRecPa s 1 + i) = true) ∧ (svRead s 1).isOpen = true ∧ (svRead s 1).drain = 1 ∧ (svRead s 1).rel = 3) :=
  ⟨⟨inv_of (by decide +kernel), by decide +kernel⟩, inv_of (by decide +kernel), by decide +kernel⟩

/-! ### Witnesses: traps, services, graphs, placement -/

/-- The machine with a trap vector and two context entries, the first in use or both. -/
def trapping (used : List Nat) (t : Team) : State :=
  let s := mapped t
  { s with host := { s.host with trapvec := 0x8001, ctxarea := 0x200002, ctxva := 0x200000 }, sched := { s.sched with ctxUsed := used } }

theorem witness_traps :
    (let s := trapping [0] memCore
     s.team.kind = .core ∧ (deliverable s 15 = true ∧ 1 < ctxEntries s ∧ 1 ∉ s.sched.ctxUsed) ∧ deliverable s 5 = false
       ∧ Shaped s.team ∧ Invariant s ∧ contextPair s s.team = none ∧ ∀ i, i < 0xC00 + 4 * 32 * 64 → isHbm (entryPa s 1 + i) = true)
    ∧ (∀ k, k < ctxEntries (trapping [0, 1] memCore) → k ∈ (trapping [0, 1] memCore).sched.ctxUsed)
    ∧ Ready .bkpt (trapping [0] memCore) :=
  ⟨⟨rfl, by decide +kernel, by decide +kernel, ⟨rfl, rfl, rfl, rfl, rfl, rfl, rfl⟩, inv_of (by decide +kernel), by decide +kernel,
      fun i hi => by
        have h : entryPa (trapping [0] memCore) 1 = 0x310000 := by decide +kernel
        rw [h]
        simp only [isHbm, decide_eq_true_eq]
        omega⟩,
    by decide +kernel, ready_of (by decide +kernel)⟩

/-- The machine with service rings of two slots and two blocks; HEAD and AHEAD as given. -/
def serving (head ahead : DWord) (logs : DWord) (t : Team) : State :=
  let s := mapped t
  { s with host := { s.host with srbase := logs, srarg := logs, srhead := head, srahead := ahead } }

theorem witness_services :
    (Runs (.traps ⟨3, 3, false⟩) (serving 0 0 1 core) ∧ active core 3 = 0)
    ∧ (Runs (.traps ⟨2, 3, false⟩) (serving 0 0 0 core) ∧ active core 2 ≠ 0 ∧ ringLog (serving 0 0 0 core) = 0)
    ∧ (let s := serving 1 0 1 core
       Runs (.traps ⟨2, 3, false⟩) s ∧ ringLog s ≠ 0 ∧ argLog s ≠ 0 ∧ (s.host.srhead - s.host.srtail).toNat < 2 ^ ringLog s
         ∧ (s.host.srahead - s.host.sratail).toNat + (lanesOf 32 (active core 2)).length ≤ 2 ^ argLog s)
    ∧ (let s := serving 2 0 1 core
       Runs (.traps ⟨2, 3, false⟩) s ∧ ¬(s.host.srhead - s.host.srtail).toNat < 2 ^ ringLog s)
    ∧ (let s := serving 0 1 1 core
       Runs (.traps ⟨2, 3, false⟩) s ∧ ¬(s.host.srahead - s.host.sratail).toNat + (lanesOf 32 (active core 2)).length ≤ 2 ^ argLog s) :=
  ⟨⟨(runs_of (by decide +kernel)).1, by decide +kernel⟩, ⟨(runs_of (by decide +kernel)).1, by decide +kernel, by decide +kernel⟩,
    ⟨(runs_of (by decide +kernel)).1, by decide +kernel⟩, ⟨(runs_of (by decide +kernel)).1, by decide +kernel⟩, (runs_of (by decide +kernel)).1, by decide +kernel⟩

/-- Completions 0 and 1 of the request of a parked team, and words that name none. -/
theorem witness_completions :
    (∀ v ∈ [(0x700000000 : DWord), 0x700000001],
      let t : Team := { core with wait := .service 0x5 9 (trap13 2 9 0), cont := 7 }
      let s := { serving 1 2 1 t with host := { (serving 1 2 1 t).host with requests := [⟨7, some 1, 0x5, 0, 2, false⟩] } }
      bitsOf v.toNat 2 30 = 0 ∧ bitsOf v.toNat 0 2 < 2 ∧ s.host.requests.find? (fun r => r.cont == hiHalf v && !r.freed) = some ⟨7, some 1, 0x5, 0, 2, false⟩
        ∧ s.team.uid = 1 ∧ s.team.wait = .service 0x5 9 (trap13 2 9 0) ∧ s.team.stage = .resident ∧ Shaped s.team)
    ∧ bitsOf (4 : DWord).toNat 2 30 ≠ 0 ∧ 2 ≤ bitsOf (2 : DWord).toNat 0 2 ∧ ∀ r ∈ (serving 1 2 1 core).host.requests, r.cont ≠ hiHalf 0x700000000 :=
  ⟨fun v hv => by fin_cases hv <;> exact ⟨by decide, by decide, by decide +kernel, rfl, rfl, rfl, ⟨rfl, rfl, rfl, rfl, rfl, rfl, rfl⟩⟩, by decide, by decide,
    by decide⟩

/-- A handler whose entry lies in host memory and holds 8 registers, or says 16. -/
def handling (nv : Byte) : State :=
  let t := { core with rf := { regs with nv := 8, v := regs.v.take 8 }, handler := some ⟨0, 5, Engines.idle, 0x1000, [], false⟩ }
  hostRec [(0xAF4, nv)] (setPair t 30 0x40000000)

theorem readsRecord_and {s : State} {align len n : Nat} {va : DWord} {P : List Byte → Bool}
    (h : (match readOf align s va len with | some x => decide (x.2 = holding s n) && P x.1 | none => false) = true) :
    ∃ bs, ReadsRecord s align va len bs (holding s n) ∧ P bs = true := by
  cases hr : readOf align s va len with
  | none => rw [hr] at h; cases h
  | some x =>
    rw [hr] at h
    simp only [Bool.and_eq_true, decide_eq_true_eq] at h
    obtain ⟨bs, u⟩ := x
    obtain rfl : u = holding s n := h.1
    exact ⟨bs, readsRecord_of hr, h.2⟩

theorem witness_returns :
    (Ready .tret (mapped core) ∧ core.handler = none)
    ∧ (∀ nv ∈ [(8 : Byte), 16], Ready .tret (handling nv) ∧ (handling nv).team.handler = some ⟨0, 5, Engines.idle, 0x1000, [], false⟩
      ∧ countersZero (handling nv).team.eng = true ∧ landed { (handling nv).team with eng := Engines.idle } = true
      ∧ ∃ bs, ReadsRecord (noteIssue (handling nv)) 256 (spair (handling nv).team 30) (0xC00 + 4 * 32 * 8) bs (holding (noteIssue (handling nv)) 64)
        ∧ (match readSaved bs true with | some r => nv == 8 && contextOk (handling nv).team bs r | none => nv == 16) = true) :=
  ⟨⟨ready_of (by decide +kernel), rfl⟩,
    fun nv hn => by fin_cases hn <;> exact ⟨ready_of (by decide +kernel), rfl, by decide +kernel, by decide +kernel, readsRecord_and (by decide +kernel)⟩⟩

theorem witness_deadline : let s := { at1 { core with sp := { core.sp with tdl := 5 } } with cycle := 5 }
    s.team.wait = .ready ∧ s.team.stage = .resident ∧ s.team.sp.tdl ≠ 0 ∧ s.team.sp.tdl.toNat ≤ s.cycle.toNat := by decide

/-- A one-node graph of a kind, in a state. -/
def graph1 (kind : Nat) (r : List DWord) (x : NodeState) (running : Bool) (pending : List (Option (List Patch))) : Graph :=
  { asid := 0, priv := true, nodes := [[BitVec.ofNat 64 kind, 0, 0, 0, 0x5000, 3, 4, 0]], edges := [], recs := [r], units := 1, running := running,
    pending := pending, states := [x] }

/-- The machine with the page tables, an image at GIMG of one HOST-SIGNAL node, and a graph in slot 0. -/
def graphed (g : Option Graph) : State :=
  let s := mapped core
  { s with ms := { s.ms with mem := tables ++ [(0x20000, 1), (0x20100, 3)] },
           sched := { s.sched with gimg := 0x5000, gcbarea := 2, graphs := { GraphSlot.empty with graph := g } :: List.replicate 255 GraphSlot.empty } }

theorem witness_graph_commands :
    (graphed none).sched.graphs.length = 256 ∧ gcmdBad 0 = true ∧ gcmdBad 0x400 = false ∧ bitsOf (0x400 : DWord).toNat 10 2 = 1 ∧ gcmdBad 0x800 = false
    ∧ bitsOf (0x800 : DWord).toNat 10 2 = 2 ∧ (∃ g, (readImage (graphed none) 0 false).2 = some g ∧ graphBusy (slotAt (graphed none) 0) = false)
    ∧ (0x600 : DWord).getLsbD 9 = true ∧ (∃ s : State, s.host.privq = false)
    ∧ (readImage (at1 core) 0 false).2 = none ∧ graphBusy (slotAt (at1 core) 0) = false
    ∧ graphBusy (slotAt (graphed (some (graph1 3 [] .waiting true []))) 0) = true :=
  ⟨by decide +kernel, by decide, by decide, by decide, by decide, by decide, some_and (by decide +kernel), by decide,
    ⟨{ at1 core with host := { (at1 core).host with privq := false } }, rfl⟩, by decide +kernel, by decide +kernel, by decide +kernel⟩

theorem witness_triggers :
    (slotAt (at1 core) 0).graph = none
    ∧ (let g := graph1 3 [] .waiting true [none, some [], none, none]
       (slotAt (graphed (some g)) 0).graph = some g ∧ 4 ≤ g.pending.length)
    ∧ (let g := graph1 3 [] .waiting true [none, none, none]
       let s := graphed (some g)
       (slotAt s 0).graph = some g ∧ g.pending.length < 4 ∧ unitsUsed s ≤ 4096 ∧ (readPatches s g 0x5200).2 = some []
         ∧ unitsUsed s + patchUnits (some []) ≤ 4096 ∧ (readPatches s g 0x40000100).2 = none)
    ∧ (let g := { graph1 3 [] .waiting true [none] with units := 4096 }
       let s := graphed (some g)
       (slotAt s 0).graph = some g ∧ (readPatches s g 0x5200).2 = some [] ∧ 4096 < unitsUsed s + patchUnits (some []))
    ∧ (let g := graph1 3 [] .waiting false [some [⟨7, 4, 0⟩], none]
       (slotAt (graphed (some g)) 0).graph = some g ∧ g.pending = some [⟨7, 4, 0⟩] :: [none] ∧ g.running = false) := by decide +kernel

/-- The launch record of one gang as words. -/
def launchWords : List DWord := dwordsOf 32 (bytesAt 256 launchRec)

theorem witness_node_launches : ∀ kind ∈ [0, 1, 2, 3, 4], ∀ r ∈ [launchWords, []],
    let g := graph1 kind r .waiting true []
    NodeIs (graphed (some g)) 0 0 g .waiting ∧ g.running = true ∧ 0 < g.nodes.length ∧ canLaunch (graphed (some g)) g 0 = true ∧ nodeKind g 0 = kind
      ∧ badRecord (g.recs.getD 0 []) g.priv (BitVec.allOnes 24) = (r == []) := by
  unfold NodeIs
  decide +kernel

theorem witness_node_ends : ∀ x ∈ [NodeState.retired false, .retired true, .copying [(0x6000, 7)] [], .watch 0x20000 0 0, .signal],
    let g := graph1 4 [] x true []
    NodeIs (graphed (some g)) 0 0 g x := by
  unfold NodeIs
  decide +kernel

/-- A waited word below its target and at it; limits not reached, reached and absent. -/
theorem witness_watches : let g := graph1 4 [] (.watch 0x20000 0 0) true []
    let s := graphed (some g)
    commNum s.ms 0x20000 8 < (nodeArg g 0 1).toNat ∧ (nodeArg g 0 1).toNat ≤ commNum s.ms 0x20100 8 ∧ (nodeArg g 0 2).toNat = 4
      ∧ (s.cycle - 0).toNat < 4 ∧ 4 ≤ ((4 : DWord) - 0).toNat ∧ (nodeArg { g with nodes := [[4, 0, 0, 0, 0x5000, 3, 0, 0]] } 0 2).toNat = 0
      ∧ Invariant s := by
  exact ⟨by decide +kernel, by decide +kernel, by decide, by decide, by decide, by decide, inv_of (by decide +kernel)⟩

/-- The grid of a launch record, `next` gangs of it placed. -/
def grid1 (next : Nat) (since : DWord) : Grid :=
  { id := 1, from_ := .node 0 0, rec_ := launchWords, asid := 0, prio := 0, depth := 0, priv := true, cores := BitVec.allOnes 24, since := since, next := next,
    size := 1, last := 23, fatal := false }

/-- The machine with that grid. -/
def placing (next : Nat) (t : Team) : State :=
  let s := graphed (some (graph1 0 launchWords (.grid 1) true []))
  { s with team := t, sched := { s.sched with grids := [grid1 next 0] } }

/-- The first of a walk. -/
def walked (r : Option (Waiter × State)) : Option Waiter := r.map fun x => x.1

theorem walked_some {r : Option (Waiter × State)} {w : Waiter} (h : walked r = some w) : ∃ t, r = some (w, t) := by
  cases r with
  | none => cases h
  | some x => cases x; cases h; exact ⟨_, rfl⟩

theorem witness_placement :
    (∃ t, walkList (sweepGangs (placing 0 Team.absent)) (waitList (sweepGangs (placing 0 Team.absent))) = some (.gang 1, t))
    ∧ (∃ t, let s := placing 1 { core with stage := .evicted 0 }
        walkList s (waitList s) = some (.team 1, t))
    ∧ ([({ core := 3, group := 1, slot := 2, bytes := 1024, l1 := 1 } : Seat)][0]? = some ⟨3, 1, 2, 1024, 1⟩ ∧ bitsOf (teamCfg (grid1 0 0).rec_) 0 3 ≤ 5)
    ∧ (let s := { placing 0 Team.absent with cycle := 2 ^ 20 }
       s.gridOf 1 = some (grid1 0 0) ∧ (grid1 0 0).next = 0 ∧ 0 < (grid1 0 0).size ∧ 2 ^ 20 ≤ (s.cycle - (grid1 0 0).since).toNat
         ∧ s.sched.waited.contains (1, 0) = false)
    ∧ ¬2 ^ 20 ≤ ((placing 0 Team.absent).cycle - (grid1 0 0).since).toNat :=
  ⟨walked_some (by decide +kernel), walked_some (by decide +kernel), ⟨rfl, by decide +kernel⟩, by decide +kernel, by decide +kernel⟩

/-- A team without lanes, with counters at zero and with one that is not; grids that live and that do not. -/
theorem witness_ends :
    (let t : Team := { core with wait := .ending, ver := { Version.fresh with wside := [(0x4000, 1)] } }
     t.wait = .ending ∧ t.stage = .resident ∧ (at1 t).others = [] ∧ Invariant (at1 t) ∧ countersZero t.eng = true)
    ∧ countersZero { Engines.idle with ops := [⟨0, 3, .none, 0, false, false⟩] } = false
    ∧ ((placing 1 Team.absent).gridOf 1 = some (grid1 1 0) ∧ (grid1 1 0).from_ ≠ .waves ∧ gridLive (placing 1 Team.absent) (grid1 1 0) = false
      ∧ gridLive (placing 1 core) (grid1 1 0) = true
      ∧ NodeIs (placing 1 Team.absent) 0 0 (graph1 0 launchWords (.grid 1) true []) (.grid 1)) :=
  ⟨⟨rfl, rfl, rfl, inv_of (by decide +kernel), by decide +kernel⟩, by decide, by unfold NodeIs; decide +kernel⟩

/-- A team of 8 registers. -/
def light (w : Wait) (st : Stage) : Team := { core with rf := { regs with nv := 8, v := regs.v.take 8 }, wait := w, stage := st, cont := 7 }

/-- The machine with a pool of one entry. -/
def pooled (t : Team) : State := { placing 1 t with sched := { (placing 1 t).sched with cpool := 1 } }

theorem witness_continuations :
    (∀ w ∈ [Wait.service 0x5 9 (trap13 2 9 0), .fault 0x4000 0x5000 (trap13 2 9 0), .twait ⟨[], 5, 0, true⟩],
      (parkReason (light w .resident)).isSome = true ∧ freePool (pooled (light w .resident)) = some 0 ∧ convertible (light w .resident) = true
        ∧ (pooled (light w .resident)).others = [])
    ∧ (∀ far : Bool, let q : Queued := ⟨0, 4, 0, far⟩
       let t := light .ready (.cont 0 (some q))
       let u := { light .ready (.cont 1 (some { q with place := 5 })) with uid := 2 }
       let s := { pooled t with others := [u] }
       findCont s 7 = some t ∧ t.stage = .cont 0 (some q) ∧ (∃ seat, (resumeClusters s t 0 far).findSome? (fun c => fitTeam s (residents s) t c) = some seat)
         ∧ (∀ v ∈ s.teams, ∀ j, j ≤ 1 → ∀ p ∈ [q, { q with place := 5 }], v.stage = .cont j (some p) → v.pl.prio = t.pl.prio ∧ q.place ≤ p.place)
         ∧ t.pl.gangBound = false ∧ 65536 ≤ ((65536 : DWord) - q.since).toNat ∧ ¬65536 ≤ (s.cycle - q.since).toNat)
    ∧ (let q : Queued := ⟨0, 4, 0, false⟩
       let t := light .ready (.cont 0 (some q))
       let u := { light .ready (.cont 1 (some { q with place := 3 })) with uid := 2 }
       findCont { pooled t with others := [u] } 7 = some t ∧ u ∈ ({ pooled t with others := [u] } : State).teams
         ∧ u.pl.prio = t.pl.prio ∧ ({ q with place := 3 } : Queued).place < q.place) := by
  refine ⟨by decide +kernel, fun far => ⟨?_, rfl, ?_, ?_, rfl, ?_, ?_⟩, by decide +kernel⟩
  · cases far <;> decide +kernel
  · cases far <;> exact Option.isSome_iff_exists.mp (by decide +kernel)
  all_goals cases far <;> decide +kernel

/-- Futures that are not resolved, resolved and refused. -/
theorem witness_futures : ∀ x ∈ [((0x6000 : Nat), 0), (0x20000, 1), (0x20101, 2), (0x20100, 3)],
    let s := { graphed none with team := light (.fault 0x5000 x.1 (trap13 2 9 0)) .resident,
                                 ms := { (graphed none).ms with mem := tables ++ [(0x20000, 1), (0x20100, 3), (0x20101, 2)] } }
    (commByte s.ms x.1).toNat % 4 = x.2 ∧ isRaw x.1 = false ∧ s.team.stage = .resident ∧ Invariant s := by
  intro x hx
  fin_cases hx <;> exact ⟨by decide +kernel, by decide +kernel, rfl, inv_of (by decide +kernel)⟩

/-! ### The host, the management controller and the machine as a whole -/

/-- States that lock a register and that do not. -/
theorem witness_registers :
    State.reset.host.pwin.length = 256 ∧ (placing 1 core).host.pwin.length = 256 ∧ otherGridLive State.reset = false
    ∧ otherGridLive (placing 1 core) = true ∧ vxOn State.reset = false ∧ State.reset.host.openStreams.isEmpty = true
    ∧ (let s := vertexed memCore [] Home.empty
       vxOn s = true ∧ s.host.pwin.length = 256)
    ∧ (let s := sieved true 0 0 0 core
       s.host.openStreams.isEmpty = false ∧ s.host.pwin.length = 256) := by decide +kernel

/-- Values that are well formed and that are not, for each register with a rule of its own. -/
theorem witness_register_values :
    (0x100 % 256 = 0 ∧ 0x101 % 256 ≠ 0) ∧ (0x7FFF / 2 ^ 15 % 32 = 0 ∧ 0x8000 / 2 ^ 15 % 32 ≠ 0)
    ∧ (0x10007 / 2 ^ 17 = 0 ∧ 0x10007 / 8 % 32 = 0 ∧ 0x10007 / 256 % 512 = 256 ∧ 0x10107 / 256 % 512 = 257 ∧ 0x10007 % 8 = 7 ∧ 0x10006 % 8 ≠ 7)
    ∧ (1 / 2 % 2 = 0 ∧ 2 / 2 % 2 ≠ 0) ∧ (0x3FFF / 2 ^ 14 % 128 = 0 ∧ 0x4000 / 2 ^ 14 % 128 ≠ 0) ∧ (0x200000 % 2 ^ 21 = 0 ∧ 0x200001 % 2 ^ 21 ≠ 0)
    ∧ (0x1006 / 32 % 128 = 0 ∧ ¬OddSize 6 6 16 ∧ OddSize 5 6 16 ∧ ¬OddSize 16 6 16 ∧ OddSize 17 6 16 ∧ ¬OddSize 0 6 16 ∧ 32 / 32 % 128 ≠ 0)
    ∧ (¬OddSize 20 6 20 ∧ OddSize 21 6 20) ∧ (0xFFFF / 2 ^ 16 = 0 ∧ 0x10000 / 2 ^ 16 ≠ 0) ∧ (¬OddSize 4 4 12 ∧ OddSize 3 4 12 ∧ ¬OddSize 12 4 12 ∧ OddSize 13 4 12)
    ∧ (¬OddSize 10 10 20 ∧ OddSize 9 10 20 ∧ ¬OddSize 20 10 20 ∧ OddSize 21 10 20)
    ∧ (0x61 / 256 % 16 = 0 ∧ 0x61 / 2 % 8 = 0 ∧ ¬OddSize (0x61 / 16 % 16) 6 15 ∧ OddSize (0x51 / 16 % 16) 6 15 ∧ 0x01 % 2 = 1 ∧ 0x01 / 16 % 16 = 0
      ∧ 0x161 / 256 % 16 ≠ 0 ∧ 0x63 / 2 % 8 ≠ 0)
    ∧ (¬(600 < 600 ∨ 1800 < 600) ∧ 599 < 600 ∧ ¬(1800 < 600 ∨ 1800 < 1800) ∧ 1800 < 1801)
    ∧ (0x3FF / 2 ^ 10 % 2 ^ 53 = 0 ∧ 0x400 / 2 ^ 10 % 2 ^ 53 ≠ 0 ∧ 2 ^ 63 / 2 ^ 10 % 2 ^ 53 = 0) := by
  norm_num [OddSize]

/-- Pools inside their memory and outside it; the writes of the lists; offsets of each kind. -/
theorem witness_register_kinds :
    (poolAstray 0 false = false ∧ poolAstray 1 false = true ∧ poolAstray 0x200001 true = false ∧ poolAstray 0x200001 false = true)
    ∧ (bitsOf (0 : DWord).toNat 48 15 = 0 ∧ (0 : DWord).getLsbD 63 = false ∧ bitsOf (0x8000000000000000 : DWord).toNat 48 15 = 0
      ∧ (0x8000000000000000 : DWord).getLsbD 63 = true ∧ bitsOf (0x1000000000000 : DWord).toNat 48 15 ≠ 0)
    ∧ (bitsOf (0x400 : DWord).toNat 10 2 = 1 ∧ bitsOf (0x800 : DWord).toNat 10 2 = 2 ∧ bitsOf (0xC00 : DWord).toNat 10 2 % 3 = 0)
    ∧ (hostReadOnly 0 = true ∧ hostReadOnly 0x40800 = true ∧ hostReadOnly 0x40FF8 = true ∧ hostReadOnly 0x62978 = true ∧ assigned 0x62980 = false
      ∧ assigned 0x40030 = false ∧ assigned 0x60004 = false ∧ assigned 0x98800 = false) := by decide +kernel

/-- A wave record at 0x5000: privileged, 32 lanes, V as given. -/
def waveLoad (vx : DWord) (regs priv : Byte) (t : Team) : State :=
  { mapped t with ms := { MemSide.empty with mem := tables ++ ([(0x20021, regs), (0x20022, priv)] : List Host.Cell).filter fun c => c.2 != 0 },
                  vx := { VertexUnit.reset with cfg := vx, lrec := 0x5000 } }

theorem witness_vertex_enable :
    (∀ x ∈ [((7 : Byte), (0x10 : Byte), true), (8, 0x10, false), (7, 0, false)],
      (∃ r, (waveRecord (waveLoad 0 x.1 x.2.1 Team.absent)).2 = some r ∧ waveRecordOk r = x.2.2))
    ∧ (let s := waveLoad 0 7 0x10 Team.absent
       vxOn s = false ∧ wavesLive s = false ∧ gridRoom s = true ∧ (∀ g ∈ s.sched.grids, g.id ≠ s.sched.nextGrid))
    ∧ (waveRecord (mapped Team.absent)).2 = none ∧ vxOn (mapped Team.absent) = false ∧ wavesLive (mapped (wave core)) = true ∧ vxOn (mapped (wave core)) = false
    ∧ ((0x10001 : DWord).getLsbD 0 = true ∧ bitsOf (0x10001 : DWord).toNat 57 7 = 0 ∧ bitsOf (0x10001 : DWord).toNat 23 7 = 0
      ∧ bitsOf (0x10001 : DWord).toNat 1 15 = 0 ∧ bitsOf (0x10001 : DWord).toNat 16 7 = 1 ∧ bitsOf (0x400001 : DWord).toNat 16 7 = 64
      ∧ bitsOf (0x410001 : DWord).toNat 16 7 = 65 ∧ bitsOf (1 : DWord).toNat 16 7 = 0 ∧ (0 : DWord).getLsbD 0 = false
      ∧ bitsOf (2 : DWord).toNat 1 15 ≠ 0)
    ∧ (let s := waveLoad 0x10001 7 0x10 (wave core)
       vxOn s = true ∧ homeIdle s (clusterOf s.team.pl.core) = true
         ∧ homeIdle { s with vx := { s.vx with homes := { Home.empty with queue := [callReq] } :: List.replicate 23 Home.empty } } 0 = false
         ∧ ∃ u ∈ s.teams, u.kind = .wave) := by
  refine ⟨fun x hx => ?_, by decide +kernel, by decide +kernel, rfl, rfl, rfl, by decide, by decide +kernel, by decide +kernel, by decide +kernel, ⟨_, List.mem_cons_self, rfl⟩⟩
  fin_cases hx <;> exact some_and (by decide +kernel)

/-- The window and the sieve: HBM ends at 512 GiB; granule 0x100 of HBM cannot be corrected. -/
theorem witness_windows :
    isHbm 0x7FFFFFFFFF = true ∧ isHbm 0x8000000000 = false ∧ (at1 core).ms.ecc = [] ∧ lostLink (at1 core) = none
    ∧ lostLink { at1 core with upsets := [.link 3] } = some 3
    ∧ (let s := { at1 core with ms := { MemSide.empty with ecc := [(0x10, true)] } }
       badGranule s.ms (granulesAt s.ms 0x100 8) = some 0x100)
    ∧ (∃ c ∈ cellsAt 0x7FFFFFFFFF [1, 2], isHbm c.1 = false) ∧ (∀ c ∈ cellsAt 0x7FFFFFFFFE [1, 2], isHbm c.1 = true)
    ∧ (let s := sieved true 1 0 0 core
       (∃ c ∈ cellsAt 0xFFFFFFF [1, 2], inSieve s c.1 = true) ∧ (∀ c ∈ cellsAt 0xFFFFFFF [1, 2], isHbm c.1 = true)
         ∧ (∀ c ∈ cellsAt 0xFFFFFFE [1, 2], isHbm c.1 = true ∧ inSieve s c.1 = false)) := by decide +kernel

/-- The responder before any request, and in the states that allow each request. -/
theorem witness_mailbox :
    (let p : Spdm := ⟨false, false, false, false, false, []⟩
     ¬(p.version = true) ∧ ¬(p.caps = true) ∧ ¬(p.algs = true) ∧ ¬(p.algs = true ∧ p.secured = false) ∧ ¬(p.exchanged = true ∧ p.secured = false)
       ∧ ¬(p.secured = true))
    ∧ (let p : Spdm := ⟨true, true, true, true, false, []⟩
       p.version = true ∧ p.caps = true ∧ p.algs = true ∧ (p.algs = true ∧ p.secured = false) ∧ (p.exchanged = true ∧ p.secured = false)
         ∧ (p.algs = true ∧ ∀ j ∈ [1, 6], 1 ≤ j ∧ j ≤ 6) ∧ ¬(p.algs = true ∧ ∀ j ∈ [1, 7], 1 ≤ j ∧ j ≤ 6))
    ∧ (let p : Spdm := ⟨true, true, true, true, true, [3, 4, 5, 6]⟩
       p.secured = true ∧ 3 ∈ p.measured ∧ 4 ∈ p.measured ∧ 5 ∈ p.measured ∧ 6 ∈ p.measured)
    ∧ Invariant State.reset := ⟨by decide +kernel, by decide +kernel, by decide +kernel, inv_of (by decide +kernel)⟩

/-- Start from records that run, that are skipped and that stop; cores that fail with and without a spare. -/
theorem witness_management :
    (let pre : List StartStep := [⟨1, 0, 0, false⟩, ⟨2, 0, 3, true⟩, ⟨3, 9, 3, false⟩]
     wellStarted pre ∧ pre.filter startRuns = [⟨1, 0, 0, false⟩, ⟨3, 9, 3, false⟩]
       ∧ (startRuns ⟨4, 0, 1, false⟩ = false ∧ skipped ⟨4, 0, 1, false⟩ = false) ∧ startRuns ⟨4, 0, 0, true⟩ = true)
    ∧ (let s := at1 core
       192 ≤ 192 ∧ 191 ∉ s.mgmt.fenced ∧ s.mgmt.spares.getD (191 / 96) 0 = 4)
    ∧ (let s := { placing 1 core with mgmt := { Mgmt.reset with spares := [0, 4], fenced := [5] },
                                      host := { HostRegs.reset with ctxarea := 0x1000010 } }
       0 ∉ s.mgmt.fenced ∧ 5 ∈ s.mgmt.fenced ∧ s.mgmt.spares.getD (0 / 96) 0 = 0 ∧ leaves { s with mgmt := { s.mgmt with fenced := [0, 5] } } core = true
         ∧ (s.teams.map (·.uid)).Nodup ∧ core.wait ≠ .locus ∧ pairBusy s core = false ∧ s.mgmt.waves.length = 24)
    ∧ (let s := { placing 1 (wave core) with mgmt := { Mgmt.reset with spares := [0, 4], fenced := [0] } }
       leaves s s.team = false ∧ s.team.kind = .wave ∧ s.team.pl.core = 0 ∧ (waveSeat s (clusterOf 0)).1 = 0
         ∧ (waveRoom s (nextWaveCore s 0)).isSome = true ∧ (waveSeat s (clusterOf 8)).1 ≠ 9)
    ∧ (let t : Team := { core with wait := .locus }
       leaves { placing 1 t with mgmt := { Mgmt.reset with fenced := [0] } } t = true ∧ t.wait = .locus ∧ t.pl.core = 0) := by decide +kernel

theorem witness_management_entries :
    (let s := { placing 1 core with mgmt := { Mgmt.reset with spares := [0, 4], fenced := [5] }, host := { HostRegs.reset with ctxarea := 0x1000006 } }
     ((residents s).filter (leaves { s with mgmt := { s.mgmt with fenced := [0, 5] } })).length ≤ (freeEntries s).length) := by decide +kernel

theorem witness_management_values :
    (1100 ≤ (1100 : Nat) ∧ ¬1100 ≤ (1000 : Nat) ∧ (1000 : Nat) ≤ 1000 ∧ (1000 : Nat) < 1100)
    ∧ (let few := fun (rows : List (Nat × Nat)) => ∀ b, b < 4 → (rows.filter fun r => r.1 == b).length ≤ 64
       few ([(3, 1), (3, 1), (0, 2)] : List (Nat × Nat)).eraseDups ∧ (∀ r ∈ [(3, 1), (0, 2 ^ 14 - 1)], r.1 < 4 ∧ r.2 < 2 ^ 14)
       ∧ few ((List.range 64).map fun k => (1, k)) ∧ ¬few ((List.range 65).map fun k => (1, k)).eraseDups
       ∧ ∀ r ∈ ((List.range 65).map fun k => ((1 : Nat), k)).eraseDups, r.1 < 4 ∧ r.2 < 2 ^ 14)
    ∧ ¬255 ∈ State.reset.mgmt.noSpare ∧ 31 ∉ State.reset.mgmt.lanesOut := by decide +kernel

/-- A log of 2 entries at 0x3000: empty, full, absent; FIRSTERR free and taken. -/
def logging (elogbase head first : DWord) : State :=
  { State.reset with host := { HostRegs.reset with elogbase := elogbase, eloghead := head, firsterr1 := first } }

theorem witness_log :
    bitsOf (logging 0x3001 0 0).host.elogbase.toNat 0 5 = 1 ∧ (logging 0x3001 0 0).host.eloghead.toNat - (logging 0x3001 0 0).host.elogtail.toNat = 0
    ∧ (logging 0x3001 2 0).host.eloghead.toNat - (logging 0x3001 2 0).host.elogtail.toNat = 2
    ∧ bitsOf (logging 0x3000 0 0).host.elogbase.toNat 0 5 = 0
    ∧ (logging 0x3001 0 0).host.firsterr1.getLsbD 63 = false ∧ (logging 0x3001 0 0x8000000000000000).host.firsterr1.getLsbD 63 = true
    ∧ isPhys 0x3000 = true ∧ isRaw 0x3000 = false := by decide +kernel

theorem witness_log_invariant : Invariant (logging 0x3001 0 0) := inv_of (by decide +kernel)


/-- The machine with an agenda. -/
def planned (a : List Act) (s : State) : State := { s with agenda := a }

theorem fetch_of {x : Except XErr (Word × State)} {w : Word} (h : (match x with | .ok y => y.1 == w | .error _ => false) = true) :
    ∃ v, x = .ok (w, v) := by
  cases x with
  | ok y => obtain rfl : y.1 = w := eq_of_beq h; exact ⟨y.2, rfl⟩
  | error e => cases h

theorem err_of {ε α : Type} {x : Except ε α} (h : (match x with | .ok _ => false | .error _ => true) = true) : ∃ r, x = .error r := by
  cases x with
  | ok y => cases h
  | error e => exact ⟨e, rfl⟩

/-- What a step asks of the state its turn begins with. -/
theorem witness_turns :
    (let s := planned [.group 0] (mapped core)
     turnOf { refresh s with agenda := [] } 0 = some core)
    ∧ (let u := turn (refresh (mapped core)) core
       issuer (refresh (mapped core)) = some core ∧ (mapped core).agenda = [] ∧ (refresh (mapped core)).issued % 2 = 0 ∧ u.team.book.begun = false
       ∧ u.team.kind ≠ .stratum ∧ u.team.pending = [] ∧ deadlinePassed u u.team = false
       ∧ (∃ v, fetch u u.team.ctl.pc = .ok (0, v)) ∧ decode 0 = .ok (.iadd ⟨0, 0, 0, 0, false, false⟩)
       ∧ u.team.ctl.buffer.find? (fun x => x.1 == u.team.ctl.pc) = none
       ∧ u.ms.code.find? (fun c => c.core == u.team.pl.core && c.asid == u.team.pl.asid && c.va == u.team.ctl.pc) = none
       ∧ canonical u.team.ctl.pc = true ∧ (∃ x, xlateT u u.team .fetch u.team.ctl.pc = .ok x) ∧ lostLink u = none)
    ∧ (let t := { core with ctl := { core.ctl with buffer := [(core.ctl.pc, 0xFFFFFFFF)] } }
       let u := turn (refresh (mapped t)) t
       turnOf (refresh (mapped t)) 0 = some t ∧ (∃ v, fetch u u.team.ctl.pc = .ok (0xFFFFFFFF, v)) ∧ ∃ r, decode 0xFFFFFFFF = .error r)
    ∧ (let t := { core with pending := [trap13 2 9 0, trap13 1 9 0] }
       turnOf (refresh (mapped t)) 0 = some t ∧ (turn (refresh (mapped t)) t).team.pending = trap13 2 9 0 :: [trap13 1 9 0])
    ∧ (let t := { core with sp := { core.sp with tdl := 1 } }
       turnOf (refresh (mapped t)) 0 = some t ∧ deadlinePassed (turn (refresh (mapped t)) t) (turn (refresh (mapped t)) t).team = true)
    ∧ (let t := { wavefront with ctl := { wavefront.ctl with pc := 0x8000 } }
       let s := refresh { banked with team := t }
       let u := turn s t
       turnOf s 768 = some t ∧ u.team.kind = .stratum ∧ (∃ v, fetch u u.team.ctl.pc = .ok (0, v))
         ∧ (∃ b, u.strat.current.find? (fun x => x.1 == u.team.pl.core) = some b ∧ b.2.issued < 65536)
         ∧ decodeStratum 0 = .ok (.iadd ⟨0, 0, 0, 0, false, false⟩))
    ∧ (encode (.trigger 0) = none ∧ encode .nop ≠ none)
    ∧ ((mapped core).team.wait = .ready ∧ Ready .nop (mapped core)) := by
  refine ⟨by decide +kernel, ⟨by decide +kernel, by decide +kernel, by decide +kernel, by decide +kernel, by decide +kernel, by decide +kernel,
      by decide +kernel, fetch_of (by decide +kernel), by decide +kernel,
    by decide +kernel, by decide +kernel, by decide +kernel, ok_of (by decide +kernel), by decide +kernel⟩,
    ⟨by decide +kernel, fetch_of (by decide +kernel), err_of (by decide +kernel)⟩, ⟨by decide +kernel, by decide +kernel⟩, ⟨by decide +kernel, by decide +kernel⟩,
    ⟨by decide +kernel, by decide +kernel, fetch_of (by decide +kernel), some_and (by decide +kernel), by decide +kernel⟩, by decide +kernel,
    rfl, ready_of (by decide +kernel)⟩

theorem next_of {x : Host.Outcome State Fault Refusal} (h : (match x with | .next _ => true | .fault _ => false | .refused _ => false) = true) : ∃ t, x = .next t := by
  cases x with
  | next t => exact ⟨t, rfl⟩
  | fault f => cases h
  | refused r => cases h

/-- A state that has the invariant and steps. -/
theorem witness_invariant_step : Invariant (mapped core) ∧ ∃ t, step (mapped core) = .next t :=
  ⟨inv_of (by decide +kernel), next_of (by decide +kernel)⟩

/-- A well-formed instruction with a word, for each decoder. -/
theorem witness_round_trip : (Instr.iadd ⟨0, 0, 0, 0, false, false⟩).wf = true ∧ encode (.iadd ⟨0, 0, 0, 0, false, false⟩) = some 0
    ∧ stratumForm (.iadd ⟨0, 0, 0, 0, false, false⟩) = false ∧ (∃ w, encode (.stratumLd ⟨7, 1, 2, 2⟩) = some w ∧ decodeStratum w = .ok (.stratumLd ⟨7, 1, 2, 2⟩))
    ∧ stratumForm (.stratumLd ⟨7, 1, 2, 2⟩) = true ∧ (Instr.stratumLd ⟨7, 1, 2, 2⟩).wf = true :=
  ⟨by decide, by decide +kernel, by decide, ⟨_, rfl, by decide +kernel⟩, by decide, by decide⟩

/-! ### Results

What instructions give on values worked out by hand from the rules they cite. -/

/-- The team with v1 = a, v2 = b, v3 = c in every lane, slots 0 to 3 FP32, BF16, E4M3 and FP16, and fr1 = E4M3. -/
def valued (a b c : Word) : Team :=
  { core with rf := { regs with v := [lanes fun L => 4 * L, List.replicate 32 a, List.replicate 32 b, List.replicate 32 c] ++ List.replicate 60 (List.replicate 32 0),
                                fr := [0, 0x280E34, 0, 0], fs := [0, 1, 3, 2, 0, 0, 0, 0] } }

/-- The machine with a team; the hint word pending, if any. -/
def under (h : Option HmodOp) (t : Team) : State :=
  at1 { t with ctl := { t.ctl with hints := h.map fun m => { first := 0xFF8, himm := none, hsched := none, hmod := some m, twice := false } } }

/-- What a function of the team gives after an instruction. -/
def after {α : Type} (i : Instr) (s : State) (f : Team → α) : Option α :=
  match exec i s with
  | .next u => some (f u.team)
  | _ => none

/-- Lane 2 of v3 after an instruction over v1, v2 and v3. -/
def gives (x : Instr × Word × Word × Word × Word) : Bool :=
  decide (after x.1 (under none (valued x.2.1 x.2.2.1 x.2.2.2.1)) (fun t => vget t 3 2) = some x.2.2.2.2)

theorem test_integer_arithmetic : [
    (Instr.iadd ⟨7, 3, 1, 2, false, false⟩, (0xFFFFFFFF : Word), (2 : Word), (0 : Word), (1 : Word)), (.isub ⟨7, 3, 1, 2, false, false⟩, 1, 2, 0, 0xFFFFFFFF),
    (.iabs ⟨7, 3, 1, false⟩, 0x80000000, 0, 0, 0x80000000), (.andn ⟨7, 3, 1, 2, false, false⟩, 0xFF, 0xF, 0, 0xF0),
    (.iminS ⟨7, 3, 1, 2, false, false⟩, 0xFFFFFFFF, 1, 0, 0xFFFFFFFF), (.iminU ⟨7, 3, 1, 2, false, false⟩, 0xFFFFFFFF, 1, 0, 1),
    (.imaxS ⟨7, 3, 1, 2, false, false⟩, 0xFFFFFFFF, 1, 0, 1), (.imaxU ⟨7, 3, 1, 2, false, false⟩, 0xFFFFFFFF, 1, 0, 0xFFFFFFFF),
    (.imulLo ⟨7, 3, 1, 2, false, false⟩, 0x10001, 0x10000, 0, 0x10000), (.imulHiS ⟨7, 3, 1, 2, false, false⟩, 0xFFFFFFFF, 2, 0, 0xFFFFFFFF),
    (.imulHiU ⟨7, 3, 1, 2, false, false⟩, 0xFFFFFFFF, 2, 0, 1), (.imad ⟨7, 3, 1, 2, false, false⟩, 3, 5, 0xFFFFFFFF, 14)].all gives = true := by decide +kernel

theorem test_integer_bits : [
    (Instr.and ⟨7, 3, 1, 2, false, false⟩, (0xF0 : Word), (0x3C : Word), (0 : Word), (0x30 : Word)), (.or ⟨7, 3, 1, 2, false, false⟩, 0xF0, 0x3C, 0, 0xFC),
    (.xor ⟨7, 3, 1, 2, false, false⟩, 0xF0, 0x3C, 0, 0xCC), (.sel ⟨0, 3, 1, 2, false, false⟩, 7, 8, 0, 8), (.sel ⟨2, 3, 1, 2, false, false⟩, 7, 8, 0, 7),
    (.shl ⟨7, 3, 1, 2, false, false⟩, 1, 32, 0, 0), (.shl ⟨7, 3, 1, 2, false, false⟩, 1, 0x11F, 0, 0x80000000), (.shr ⟨7, 3, 1, 2, false, false⟩, 0x80000000, 255, 0, 0),
    (.sar ⟨7, 3, 1, 2, false, false⟩, 0x80000000, 200, 0, 0xFFFFFFFF), (.sar ⟨7, 3, 1, 2, false, false⟩, 0x80000000, 4, 0, 0xF8000000),
    (.rot ⟨7, 3, 1, 2, false, false⟩, 0x80000001, 33, 0, 3), (.popc ⟨7, 3, 1, false⟩, 0xF00F, 0, 0, 8), (.clz ⟨7, 3, 1, false⟩, 0, 0, 0, 32),
    (.clz ⟨7, 3, 1, false⟩, 0x10000, 0, 0, 15), (.brev ⟨7, 3, 1, false⟩, 1, 0, 0, 0x80000000)].all gives = true := by decide +kernel

/-- The first values are R111's own example. -/
theorem test_bit_fields : [
    (Instr.bfxU ⟨7, 3, 1, 2, false, false⟩, (0xF0A5 : Word), (0x804 : Word), (0 : Word), (0xA : Word)), (.bfxS ⟨7, 3, 1, 2, false, false⟩, 0xF0A5, 0x804, 0, 0xA),
    (.bfxS ⟨7, 3, 1, 2, false, false⟩, 0xF0A5, 0x808, 0, 0xFFFFFFF0), (.bfxU ⟨7, 3, 1, 2, false, false⟩, 0xF0A5, 0x3F00, 0, 0xF0A5),
    (.bfxS ⟨7, 3, 1, 2, false, false⟩, 0xF0A5, 4, 0, 0), (.bfi ⟨7, 3, 1, 2, false, false⟩, 0x12, 0x808, 0xFFFFFFFF, 0xFFFF12FF),
    (.mov ⟨7, 3, 1, false⟩, 9, 0, 0, 9), (.movSp ⟨7, 3⟩, 0, 0, 0, 2), (.iaddi ⟨7, 3, 1, 0x3FF⟩, 0, 0, 0, 0xFFFFFFFF), (.andi ⟨7, 3, 1, 0x3F0⟩, 0xFFFFFFFF, 0, 0, 0x3F0),
    (.ori ⟨7, 3, 1, 0x200⟩, 1, 0, 0, 0x201), (.xori ⟨7, 3, 1, 0x3FF⟩, 0xFFFFFFFF, 0, 0, 0xFFFFFC00), (.movi ⟨7, 3, 0x200⟩, 0, 0, 0, 0xFFFFFE00),
    (.shli ⟨7, 3, 1, 31⟩, 3, 0, 0, 0x80000000), (.shri ⟨7, 3, 1, 31⟩, 0xC0000000, 0, 0, 1), (.sari ⟨7, 3, 1, 31⟩, 0xC0000000, 0, 0, 0xFFFFFFFF),
    (.s2v ⟨7, 3, 5, false⟩, 0, 0, 4, 0)].all gives = true := by decide +kernel

/-- Signed saturation under HMOD SAT (R71, R106). -/
theorem test_saturation :
    after (.iadd ⟨7, 3, 1, 2, false, false⟩) (under (some ⟨0, false, false, true, 0, false⟩) (valued 0x7FFFFFFF 1 0)) (fun t => vget t 3 2) = some 0x7FFFFFFF
    ∧ after (.isub ⟨7, 3, 1, 2, false, false⟩) (under (some ⟨0, false, false, true, 0, false⟩) (valued 0x80000000 1 0)) (fun t => vget t 3 2) = some 0x80000000 := by
  decide +kernel

theorem test_floats : [
    (Instr.fadd ⟨7, 3, 1, 2, false, false⟩, (0x3F800000 : Word), (0x40000000 : Word), (0 : Word), (0x40400000 : Word)),
    (.fadd ⟨7, 3, 1, 2, false, false⟩, 0x7F800000, 0xFF800000, 0, 0x7FC00000), (.fsub ⟨7, 3, 1, 2, false, false⟩, 0x3F800000, 0x3F800000, 0, 0),
    (.fmul ⟨7, 3, 1, 2, false, false⟩, 0xC0000000, 0x3F000000, 0, 0xBF800000), (.ffma ⟨7, 3, 1, 2, false, false⟩, 0x40000000, 0x40400000, 0x3F800000, 0x40E00000),
    (.fmin ⟨7, 3, 1, 2, false, false⟩, 0x80000000, 0, 0, 0x80000000), (.fmax ⟨7, 3, 1, 2, false, false⟩, 0x80000000, 0, 0, 0),
    (.fmax ⟨7, 3, 1, 2, false, false⟩, 0x7FC00001, 0xC0000000, 0, 0xC0000000), (.fclass ⟨7, 3, 1, false⟩, 0xFF800000, 0, 0, 1), (.fclass ⟨7, 3, 1, false⟩, 1, 0, 0, 0x20),
    (.haddBf ⟨7, 3, 1, 2, false, false⟩, 0x3F804000, 0x3F803F80, 0, 0x40004040), (.hmulBf ⟨7, 3, 1, 2, false, false⟩, 0x40004000, 0x3F004000, 0, 0x3F804080),
    (.hfmaBf ⟨7, 3, 1, 2, false, false⟩, 0x40004000, 0x40003F80, 0x3F803F80, 0x40A04040), (.hmaxBf ⟨7, 3, 1, 2, false, false⟩, 0x3F80BF80, 0x40000000, 0, 0x40000000),
    (.haddF16 ⟨7, 3, 1, 2, false, false⟩, 0x3C004000, 0x3C003C00, 0, 0x40004200), (.hmulF16 ⟨7, 3, 1, 2, false, false⟩, 0x40004000, 0x38004000, 0, 0x3C004400),
    (.hfmaF16 ⟨7, 3, 1, 2, false, false⟩, 0x40004000, 0x40003C00, 0x3C003C00, 0x45004200), (.hmaxF16 ⟨7, 3, 1, 2, false, false⟩, 0x3C00BC00, 0x40000000, 0, 0x40000000)].all
    gives = true := by decide +kernel

/-- E4M3: 1 is 0x38, 2 is 0x40, 3 is 0x44, 448 is the greatest. -/
theorem test_narrow_floats : [
    (Instr.nadd ⟨7, 3, 1, 2, 1⟩, (0x7E383840 : Word), (0x7E384038 : Word), (0 : Word), (0x7F404444 : Word)), (.nmul ⟨7, 3, 1, 2, 1⟩, 0xC0384040, 0x40404038, 0, 0xC8404840),
    (.nfma ⟨7, 3, 1, 2, 1⟩, 0x00000040, 0x00000040, 0x00000038, 0x0000004A), (.nmax ⟨7, 3, 1, 2, 1⟩, 0xB83880C0, 0x38400038, 0, 0x38400038),
    (.nmin ⟨7, 3, 1, 2, 1⟩, 0xB83880C0, 0x38400038, 0, 0xB83880C0)].all gives = true := by decide +kernel

theorem test_special_functions : [
    (Instr.rcp ⟨7, 3, 1, false⟩, (0xFF800000 : Word), (0 : Word), (0 : Word), (0x80000000 : Word)), (.rsq ⟨7, 3, 1, false⟩, 0x80000000, 0, 0, 0xFF800000),
    (.sqrt ⟨7, 3, 1, false⟩, 0x40800000, 0, 0, 0x40000000), (.sqrt ⟨7, 3, 1, false⟩, 0x40000000, 0, 0, 0x3FB504F3), (.tanh ⟨7, 3, 1, false⟩, 0xFF800000, 0, 0, 0xBF800000),
    (.ex2 ⟨7, 3, 1, false⟩, 0x40400000, 0, 0, 0x41000000), (.lg2 ⟨7, 3, 1, false⟩, 0x41000000, 0, 0, 0x40400000), (.sinp ⟨7, 3, 1, false⟩, 0x3F000000, 0, 0, 0x3F800000),
    (.cosp ⟨7, 3, 1, false⟩, 0x3F800000, 0, 0, 0xBF800000)].all gives = true := by decide +kernel

theorem test_conversions : [
    (Instr.i2fS ⟨7, 3, 1, false⟩, (0xFFFFFFFF : Word), (0 : Word), (0 : Word), (0xBF800000 : Word)), (.i2fU ⟨7, 3, 1, false⟩, 0xFFFFFFFF, 0, 0, 0x4F800000),
    (.f2iS ⟨7, 3, 1, false⟩, 0xC0200000, 0, 0, 0xFFFFFFFE), (.f2iS ⟨7, 3, 1, false⟩, 0x4F000000, 0, 0, 0x7FFFFFFF), (.f2iU ⟨7, 3, 1, false⟩, 0xBF800000, 0, 0, 0),
    (.cvtRne ⟨7, 3, 1, false, 0, 1⟩, 0x3F818000, 0, 0, 0x3F82), (.cvtRtz ⟨7, 3, 1, false, 0, 1⟩, 0x3F818000, 0, 0, 0x3F81), (.cvtSr ⟨7, 3, 1, false, 1, 0⟩, 0x40003F80, 0, 0, 0x3F800000),
    (.cvt ⟨7, 3, 1, false, 2, 3⟩, 0x44403840, 0, 0, 0x3C004000), (.cvtnRne ⟨7, 3, 1, false, 1, false⟩, 0x40400000, 0, 0, 0x44),
    (.cvtnRtz ⟨7, 3, 1, false, 1, false⟩, 0x40480000, 0, 0, 0x44), (.cvtnSr ⟨7, 3, 1, false, 1, true⟩, 0x44, 0, 0, 0x40400000),
    (.cvtn ⟨7, 3, 1, false, 1, true⟩, 0xFFFFFFC4, 0, 0, 0xC0400000)].all gives = true := by decide +kernel

/-- The lanes of a predicate after an instruction. -/
def predAfter (i : Instr) (t : Team) (p : Nat) : Option Nat := after i (under none t) fun u => (pset u p).toNat

/-- p0 holds lanes 4 to 7, p1 lanes 0 to 7, p2 lanes 0 and 2. -/
theorem test_predicates :
    predAfter (.plogAnd ⟨7, 3, 0, 1⟩) core 3 = some 0xF0 ∧ predAfter (.plogOr ⟨7, 3, 0, 2⟩) core 3 = some 0xF5 ∧ predAfter (.plogXor ⟨7, 3, 1, 2⟩) core 3 = some 0xFA
    ∧ predAfter (.plogAndn ⟨7, 3, 1, 0⟩) core 3 = some 0xF ∧ predAfter (.icmpS ⟨7, 2, 3, 1, 2, false, false⟩) (valued 0xFFFFFFFF 1 0) 3 = some 0xFFFFFFFF
    ∧ predAfter (.icmpU ⟨7, 2, 3, 1, 2, false, false⟩) (valued 0xFFFFFFFF 1 0) 3 = some 0 ∧ predAfter (.icmpS ⟨2, 5, 0, 1, 2, false, false⟩) (valued 1 1 0) 0 = some 0xF5
    ∧ predAfter (.icmpi ⟨7, 5, 3, 1, 0x3FF⟩) (valued 5 0 0) 3 = some 0xFFFFFFFF ∧ predAfter (.fcmp ⟨7, 3, 3, 1, 2, false, false⟩) (valued 0x7FC00000 0 0) 3 = some 0
    ∧ predAfter (.fcmpUo ⟨7, 0, 3, 1, 2, false, false⟩) (valued 0x7FC00000 0 0) 3 = some 0xFFFFFFFF ∧ predAfter (.ncmp ⟨7, 2, 3, 1, 2, 1⟩) (valued 0x38 0xFF40 0) 3 = some 0xFFFFFFFF
    ∧ predAfter (.scmpS ⟨2, 3, 4, 5, false, false⟩) (setS (setS core 4 0xFFFFFFFF) 5 1) 3 = some 0xFFFFFFFF
    ∧ predAfter (.scmpU ⟨2, 3, 4, 5, false, false⟩) (setS (setS core 4 0xFFFFFFFF) 5 1) 3 = some 0
    ∧ predAfter (.voteAny ⟨7, 3, 2⟩) core 3 = some 0xFFFFFFFF ∧ predAfter (.voteAll ⟨7, 3, 1⟩) core 3 = some 0 ∧ predAfter (.voteAll ⟨0, 3, 1⟩) core 3 = some 0xFFFFFFFF
    ∧ predAfter (.elect ⟨0, 3⟩) core 3 = some 0x10 := by decide +kernel

/-- s3 after a scalar instruction on s4 and s5. -/
def scalarAfter (i : Instr) (a b : Word) : Option Word := after i (under none (setS (setS core 4 a) 5 b)) fun t => sget t 3

theorem test_scalars :
    scalarAfter (.sadd ⟨3, 4, 5, false, false⟩) 0xFFFFFFFF 2 = some 1 ∧ scalarAfter (.ssub ⟨3, 4, 5, false, false⟩) 1 2 = some 0xFFFFFFFF
    ∧ scalarAfter (.smul ⟨3, 4, 5, false, false⟩) 0x10001 0x10000 = some 0x10000 ∧ scalarAfter (.sand ⟨3, 4, 5, false, false⟩) 0xF0 0x3C = some 0x30
    ∧ scalarAfter (.sor ⟨3, 4, 5, false, false⟩) 0xF0 0x3C = some 0xFC ∧ scalarAfter (.sxor ⟨3, 4, 5, false, false⟩) 0xF0 0x3C = some 0xCC
    ∧ scalarAfter (.sshl ⟨3, 4, 5, false, false⟩) 1 0x120 = some 0 ∧ scalarAfter (.sshr ⟨3, 4, 5, false, false⟩) 0x80000000 0x11F = some 1
    ∧ scalarAfter (.saddi ⟨3, 4, 0x3FF⟩) 0 0 = some 0xFFFFFFFF ∧ scalarAfter (.smovi ⟨3, 0x200⟩) 0 0 = some 0xFFFFFE00 ∧ scalarAfter (.smov ⟨3, 4, false⟩) 9 0 = some 9
    ∧ scalarAfter (.v2s ⟨0, 3, 0, false⟩) 0 0 = some 16 ∧ scalarAfter (.srd ⟨3, 0⟩) 0 0 = some 32 ∧ scalarAfter (.voteBal ⟨7, 3, 2⟩) 0 0 = some 2
    ∧ scalarAfter (.mskrd ⟨3, 4, false⟩) 0 0 = some 0xFFFFFFFF ∧ scalarAfter (.mskrd ⟨3, 4, false⟩) 32 0 = some 1 ∧ scalarAfter (.mskrd ⟨3, 4, false⟩) 33 0 = some 0
    ∧ after (.s2v ⟨7, 3, 4, false⟩) (under none (setS core 4 7)) (fun t => vget t 3 31) = some 7
    ∧ after (.swr ⟨4, 14⟩) (under none (setS (setS core 4 7) 5 8)) (fun t => t.sp.tdl) = some 0x800000007
    ∧ after (.frw ⟨2, 4, false⟩) (under none (setS core 4 7)) (fun t => t.rf.fr.getD 2 0) = some 7 := by decide +kernel

/-- v0 holds 4 L in lane L; lane 2 is read. -/
theorem test_lanes : [
    (Instr.shflIdx ⟨7, 3, 0, 1, false, false⟩, (33 : Word), (0 : Word), (0 : Word), (4 : Word)), (.shflXor ⟨7, 3, 0, 1, false, false⟩, 3, 0, 0, 4),
    (.shflXor ⟨7, 3, 0, 1, false, true⟩, 0, 0, 0, 72), (.shflUp ⟨7, 3, 0, 1, false, false⟩, 1, 0, 0, 4), (.shflUp ⟨7, 3, 0, 1, false, false⟩, 3, 0, 0, 8),
    (.shflDn ⟨7, 3, 0, 1, false, false⟩, 29, 0, 0, 124), (.shflDn ⟨7, 3, 0, 1, false, false⟩, 30, 0, 0, 8), (.rlogIadd ⟨7, 3, 0, false⟩, 0, 0, 0, 1984),
    (.rlogImaxS ⟨7, 3, 0, false⟩, 0, 0, 0, 124), (.rlogFadd ⟨7, 3, 1, false⟩, 0x3F800000, 0, 0, 0x42000000), (.rlogFmax ⟨7, 3, 1, false⟩, 0xBF800000, 0, 0, 0xBF800000),
    (.rlogIadd ⟨2, 3, 0, false⟩, 0, 0, 0, 8), (.scanIadd ⟨7, 3, 0, false⟩, 0, 0, 0, 12), (.scanFadd ⟨7, 3, 1, false⟩, 0x3F800000, 0, 0, 0x40400000),
    (.plx ⟨7, 3, 0, 1, false, false⟩, 0x82, 0, 0, 0xFF00FF00), (.plx ⟨7, 3, 0, 1, false, false⟩, 0x28, 0, 0, 0), (.pld ⟨7, 3, 0, 1, false, false⟩, 0x20, 0, 0, 1)].all
    gives = true := by decide +kernel

/-- The program counter, at 0x1000, after an instruction. -/
def pcAfter (i : Instr) (t : Team) : Option DWord := after i (under none t) fun u => u.ctl.pc

/-- A team inside an IF that lanes 0 to 7 entered, and one inside a loop. -/
def inside (k : MaskKind) : Team :=
  { core with ctl := { core.ctl with mask := 0xFF, stack := [{ mask := 0xFFFF, kind := k }], loops := if k = .loopK then [⟨0xF00, 64⟩] else [] } }

theorem test_control :
    pcAfter (.br ⟨7, 0x3FFFFD⟩) core = some 0xFF4 ∧ pcAfter (.br ⟨2, 6⟩) core = some 0x1018 ∧ pcAfter (.br ⟨3, 6⟩) core = some 0x1004
    ∧ pcAfter (.brAll ⟨2, 6⟩) core = some 0x1004 ∧ pcAfter (.brAll ⟨1, 6⟩) (inside .ifK) = some 0x1018
    ∧ after (.call ⟨6⟩) (under none core) (fun t => (t.ctl.pc, sget t 31)) = some (0x1018, 4)
    ∧ pcAfter (.jmp ⟨4, false⟩) (setS core 4 0x40) = some 0x1040 ∧ pcAfter .ret (setS core 31 0x44) = some 0x1044 ∧ pcAfter .nop core = some 0x1004
    ∧ after (.ifP ⟨2⟩) (under none core) (fun t => (t.ctl.mask.toNat, t.ctl.stack.length)) = some (5, 1)
    ∧ after .elseP (under none (inside .ifK)) (fun t => t.ctl.mask.toNat) = some 0xFF00
    ∧ after .endif (under none (inside .elseK)) (fun t => (t.ctl.mask.toNat, t.ctl.stack.length)) = some (0xFFFF, 0)
    ∧ after (.exit ⟨0⟩) (under none (inside .ifK)) (fun t => (t.ctl.mask.toNat, t.ctl.stack.map fun e => e.mask.toNat)) = some (0xF, [0xFF0F])
    ∧ after (.brk ⟨0⟩) (under none (inside .loopK)) (fun t => (t.ctl.mask.toNat, t.ctl.stack.map fun e => e.mask.toNat)) = some (0xF, [0xFFFF])
    ∧ after (.brk ⟨7⟩) (under none (inside .loopK)) (fun t => (t.ctl.mask.toNat, t.ctl.pc, t.ctl.loops.length)) = some (0xFFFF, 0x1000, 0) := by decide +kernel

/-- What a function of the machine gives after an instruction or an event. -/
def afterIn {α : Type} (i : Instr) (s : State) (f : State → α) : Option α :=
  match exec i s with
  | .next u => some (f u)
  | _ => none

/-- A store of 5 at 0x4000 + 4 L stands in the team's own bytes; memory keeps its own (R208). -/
theorem test_store : let s := mapped memCore
    afterIn (.st ⟨2, 1, 0, 4, 4, 0⟩) s (fun u => (lastAt u.team.ver.wside 0x4008, lastAt u.team.ver.wside 0x4004, commByte u.ms 0x4008)) = some (some 5, none, 0) := by
  decide +kernel

/-- A scratchpad store of v1 = 5 by lane 2 at offset 8, and a load of the bytes 0x11223344 at offset 8, each at once (R186, R188). -/
theorem test_scratchpad : let g := fun (c : List Host.Cell) => { ganged core with gangs := [{ gang1 with scratch := c }] }
    afterIn (.sts ⟨2, 1, 0, 0, 4⟩) (g []) (fun u => u.gangs.map fun x => x.scratch) = some [[(0, 5), (1, 0), (2, 0), (3, 0), (8, 5), (9, 0), (10, 0), (11, 0)]]
    ∧ afterIn (.lds ⟨2, 3, 0, 0, 4⟩) (g [(8, 0x44), (9, 0x33), (10, 0x22), (11, 0x11)])
      (fun u => (u.team.eng.ops.map fun o => o.dst, vIsFull u.team 3)) = some ([.vec 3 5 [(List.range 32).map fun L => if L = 2 then 0x11223344 else 0]], false) := by
  decide +kernel

/-- An atomic add of 1 to the word 1 at the home: the word becomes 2, and the request leaves the queue (R260). -/
theorem test_combine : let q : VReq := { aopReq false with va := 0x4000, pa := 0x4000 }
    afterIn (.combineAtomic 0) (vertexed memCore [] { Home.empty with queue := [q] })
      (fun u => (commNum u.ms 0x4000 4, (u.vx.homes.getD 0 Home.empty).queue.length)) = some (2, 0) := by decide +kernel

/-- Tokens take the numbers after PUT in lane order (R425): stream 1 has PUT 1, and lanes 0 and 2 put. -/
theorem test_sieve : let s := sieved true 1 1 1 core
    afterIn (.svput ⟨2, 4, 1, 3, false, false⟩) s (fun u => ((svRead u 1).put, svField u 1 2 0, svField u 1 3 2, vget u.team 4 2)) = some (3, 0, 3, 3)
    ∧ afterIn (.svdrop ⟨8, 3, 10, false, false⟩) (sieved true 1 0 0 (setS (setS core 10 1) 11 1)) (fun u => (sget u.team 8, svField u 1 1 3)) = some (1, 1)
    ∧ afterIn (.svcmdOpen 0x20001) s (fun u => u.host.openStreams) = some [2, 1] := by decide +kernel

/-- Host registers, windows and peers. -/
theorem test_host : let s := at1 core
    afterIn (.registerWrite 0x60018 0x200000) s (fun u => readReg u 0x60018) = some 0x200000
    ∧ afterIn (.registerWrite 0x60018 1) s (fun u => (readReg u 0x60018, u.host.events.length)) = some (0, 1)
    ∧ afterIn (.hostWindowWrite 0x1000 [1, 2]) s (fun u => (commByte u.ms 0x1001, u.host.events.length)) = some (2, 0)
    ∧ afterIn (.hostWindowRead 0x4000 2) (vertexed core [] Home.empty) (fun u => u.host.answer) = some [1, 0]
    ∧ afterIn (.peerWrite 3 0x1000 [7]) s (fun u => commByte u.ms 0x1000) = some 7
    ∧ afterIn (.firsterrClear 0x8000000000000000) { s with host := { s.host with firsterr1 := 0x8000000100000000 } } (fun u => readReg u 0x60070) = some 0
    ∧ afterIn (.fqtailWrite 3) s (fun u => readReg u 0x60038) = some 3 ∧ afterIn (.srtailWrite 3) s (fun u => readReg u 0x80018) = some 3 := by decide +kernel

/-- The management controller. -/
theorem test_management : let s := at1 core
    afterIn .powerThrottle s (fun u => u.mgmt.clk) = some 2400 ∧ afterIn .placementHold s (fun u => u.mgmt.hold) = some false
    ∧ afterIn (.coreFailure 100) s (fun u => u.mgmt.spares) = some [4, 3] ∧ afterIn (.linkFlitRetry 5 true) s (fun u => (u.mgmt.lanesOut, u.host.events.length)) = some ([5], 1)
    ∧ afterIn (.hbmBankTest 3 4 [(1, 9)]) s (fun u => u.mgmt.repairs) = some [0x40D2001200000000] := by decide +kernel

/-! ### Witnesses: the clauses beside the first -/

/-- Straight lines: IF, ELSE, ENDIF and NOP of a team in no loop. -/
theorem witness_straight_control : ∀ i ∈ [Instr.ifP ⟨6⟩, .nop], FallsOn i (at1 core) := by
  intro i hi
  fin_cases hi <;> exact ⟨ready_of (by decide +kernel), by decide +kernel, fun f hf => absurd hf List.not_mem_nil⟩

theorem witness_straight_stack : FallsOn .elseP fullStack ∧ FallsOn .endif fullStack ∧ (∀ e ∈ fullStack.team.ctl.stack, e.kind = .ifK) :=
  ⟨⟨ready_of (by decide +kernel), by decide +kernel, fun f hf => absurd hf List.not_mem_nil⟩,
    ⟨ready_of (by decide +kernel), by decide +kernel, fun f hf => absurd hf List.not_mem_nil⟩, by decide⟩

/-- A record whose page passes its checks, read by a team without errors and scatters. -/
theorem witness_records : ∃ xs, checkLanes (hostRec launchRec core) .read true 256 ((0, 0x40000000) :: ((rangePages 0x40000000 256).drop 1).map fun p => (0, p.1)) = .ok xs
    ∧ (hostRec launchRec core).ms.ecc = [] ∧ (hostRec launchRec core).team.poison = [] ∧ (hostRec launchRec core).team.ver.sx = [] := ok_and (by decide +kernel)

/-- YIELD alone and beside a ready team of its group; a yield whose time is over. -/
theorem witness_yields :
    (let o := { core with uid := 5 }
     let s := { mapped core with others := [o] }
     Runs .yield s ∧ o ∈ s.others ∧ isReady s o = true ∧ o.kind ≠ .stratum ∧ o.pl.core = s.team.pl.core ∧ o.pl.group = s.team.pl.group)
    ∧ (Runs .yield (mapped core) ∧ (mapped core).others = [])
    ∧ (let s := mapped { core with wait := .yield }
       yieldOver s s.team = true ∧ Straight s)
    ∧ (let s := mapped { core with wait := .yield, book := { core.book with yieldTo := [5], yieldUntil := 9 } }
       yieldOver s s.team = false) :=
  ⟨⟨(runs_of (by decide +kernel)).1, List.mem_cons_self, by decide +kernel, by decide, rfl, rfl⟩, ⟨(runs_of (by decide +kernel)).1, rfl⟩,
    ⟨by decide +kernel, by decide +kernel, fun f hf => absurd hf List.not_mem_nil⟩, by decide +kernel⟩

theorem witness_launch_depth : Ready (.launch ⟨4⟩) (at1 { core with pl := { core.pl with depth := 10 } }) := ready_of (by decide +kernel)

/-- RPUT at a full ring and RGET at an empty one. -/
theorem witness_ring_waits :
    (Ready (.rput ⟨0, 2, false, false⟩) (ringed 7 0 2) ∧ ringCheck (ringed 7 0 2) 0 = none ∧ (ringHdr (ringed 7 0 2) core 0).occ = 2)
    ∧ (Ready (.rget ⟨31, 0, false⟩) (ringed 7 3 3) ∧ ringCheck (ringed 7 3 3) 0 = none ∧ (ringHdr (ringed 7 3 3) core 0).occ = 0) :=
  ⟨⟨ready_of (by decide +kernel), by decide +kernel, by decide +kernel⟩, ready_of (by decide +kernel), by decide +kernel, by decide +kernel⟩

/-- MRON of a slice whose keel is full of entries of one set; MROFF behind a command, and behind a counter that has not fallen. -/
theorem witness_marl_waits :
    (let t := { setS core 3 0 with ver := { Version.fresh with spilled := [0, 2097152, 4194304, 6291456, 8388608] } }
     let s := { mapped t with res := { (mapped t).res with l2cfg := 0x402 } }
     Runs (.mron ⟨4, 3, false⟩) s ∧ sliceOf s 0 = none ∧ s.marl.length < marlMax s ∧ keelFull s 0 = true)
    ∧ (let s := marled (setS core 3 0) [entry (.red 0 0)]
       Runs (.mroff ⟨3, false⟩) s ∧ sliceOf s 0 = some (slice0 [entry (.red 0 0)]) ∧ (slice0 [entry (.red 0 0)]).queue ≠ [])
    ∧ (let t := { setS core 3 0 with nextTag := 2, eng := { Engines.idle with ops := [⟨0, 5, .none, 0, false, false⟩, ⟨1, 5, .none, 0, false, true⟩] } }
       let m := { slice0 [] with reds := [(1, 1)] }
       let s := { marled t [] with marl := [m] }
       Runs (.mroff ⟨3, false⟩) s ∧ sliceOf s 0 = some m ∧ m.queue = [] ∧ counterBehind s m.reds = true)
    ∧ counterBehind (marled core []) [(1, 1)] = false :=
  ⟨⟨(runs_of (by decide +kernel)).1, by decide +kernel, by decide +kernel, by decide +kernel⟩,
    ⟨(runs_of (by decide +kernel)).1, by decide +kernel, by decide⟩, ⟨(runs_of (by decide +kernel)).1, by decide +kernel⟩,
    by decide +kernel⟩

/-- A row of the slice that a command reads has an error, one that it does not read, and one of a subarray outside its range. -/
theorem witness_row_errors :
    rowBad { marled memCore [entry (.op 0 0 0)] with upsets := [.row 0 0 0] } 0 (.op 0 0 0) = true
    ∧ rowBad { marled memCore [entry (.op 0 0 0)] with upsets := [.row 0 9 0, .row 1 0 0, .row 0 0 1] } 0 (.op 0 0 0) = false := by decide +kernel

/-- HSET behind another operation, its own operation at the handle, and walks of a range: mapped, unmapped without a pager, and with one. -/
theorem witness_residency_walks :
    (let h := handle0 [⟨.rel, 1, 0⟩]
     Runs (.hset ⟨5, 4, false, false⟩) (paged [h] 63 []) ∧ handleOf (paged [h] 63 []) 0 (sget (paged [h] 63 []).team 5) = some h ∧ h.ops ≠ [])
    ∧ ((handle0 [⟨.set 3 2, 1, 0⟩]).ops = ⟨.set 3 2, 1, 0⟩ :: [])
    ∧ (let h := handle0 [⟨.dem, 1, 0⟩]
       ∃ s1, walkRange (paged [h] 0 []) h ⟨.dem, 1, 0⟩ = .go s1)
    ∧ (let h := { handle0 [⟨.dem, 1, 0⟩] with base := 0x6000 }
       ∃ s1 tr, walkRange (paged [h] 0 []) h ⟨.dem, 1, 0⟩ = .fail s1 tr)
    ∧ (let h := { handle0 [⟨.dem, 1, 0⟩] with base := 0x6000 }
       let s := paged [h] 0 []
       ∃ s1, walkRange { s with ms := { s.ms with mem := (0, 3) :: tables.tail }, host := { s.host with fqbase := 6 } } h ⟨.dem, 1, 0⟩
         = .wait s1) := by
  refine ⟨⟨(runs_of (by decide +kernel)).1, by decide +kernel, by decide⟩, rfl, ⟨_, rfl⟩, ⟨_, _, rfl⟩, ⟨_, rfl⟩⟩

/-- CBATCH with nothing to take; CREPLY with a status above 1 in lane 0. -/
theorem witness_batch_waits :
    (let s := vertexed (wave memCore) classes1 Home.empty
     Ready (.cbatch ⟨12, 4⟩) s ∧ (ownHome s).batch = none ∧ s.team.ctl.stack = []
       ∧ eligible s.ms [] (fun q => q.isCall && (refusalOf s q).isNone) [] (ownHome s).queue = none)
    ∧ (let s := vertexed (wave memCore) classes1 { Home.empty with batch := some batch1 }
       Ready (.creply ⟨1, 2, false, false⟩) s ∧ s.team.ctl.mask.getLsbD 0 = true ∧ 0 < batch1.reqs.length ∧ 2 ≤ (va s 2 0).toNat % 4) :=
  ⟨⟨ready_of (by decide +kernel), rfl, rfl, by decide +kernel⟩, ready_of (by decide +kernel), by decide +kernel, by decide, by decide +kernel⟩

/-- IGQ whose registers pass the team's last: its two results start at v63. -/
theorem witness_query_range : Ready (.igq ⟨2, 63, 4, false, false⟩) (bound (ctxOf 1 0 0)) ∧ boundCtx (bound (ctxOf 1 0 0)) = some (ctxOf 1 0 0)
    ∧ (ctxOf 1 0 0).phase = .idle ∧ (bound (ctxOf 1 0 0)).team.rf.nv < 63 + (ctxOf 1 0 0).n := ⟨ready_of (by decide +kernel), by decide +kernel, rfl, by decide +kernel⟩

/-- TRAPS of a team whose queued matrix command has still to read v8, and over a link that cannot deliver. -/
theorem witness_service_waits :
    (let s := matrixed { pair1 with queue := [command (.mma 1 0 8 1 1 false 0)] } core
     Runs (.traps ⟨2, 3, false⟩) s ∧ active s.team 2 ≠ 0 ∧ ∃ r ∈ matrixReads s s.team, r < 16)
    ∧ (let s := serving 1 0 1 core
       (∀ r ∈ matrixReads s s.team, 16 ≤ r) ∧ s.team.passed = none ∧ lostLink s = none ∧ lostLink { s with upsets := [.link 7] } = some 7) :=
  ⟨⟨(runs_of (by decide +kernel)).1, by decide +kernel, by decide +kernel⟩, by decide +kernel⟩

/-- A team that ends, one that does not, and what its last publication asks for. -/
theorem witness_task_ends :
    (let t : Team := { core with wait := .ending, ver := { Version.fresh with wside := [(0x4000, 1), (2 ^ 46, 3)] } }
     let s := mapped t
     let b := s.withTeam (beginPublish s.team)
     mayEnd s s.team = true ∧ entryBad b = none ∧ pubLost b 2 = none ∧ overSpace s.mgmt.map s.ms (purge (publish b 2)).ms = none ∧ goingOut b 2 ≠ [])
    ∧ mayEnd (mapped core) core = false := by decide +kernel

/-- A record in the pool that a continuation loads: 8 registers of 32 lanes. -/
theorem witness_pool_record :
    let t := light .ready (.cont 0 (some ⟨0, 0, 0, false⟩))
    let s := { pooled t with ms := { (pooled t).ms with mem := (savedRec.map fun c => (poolPa (pooled t) 0 + c.1, c.2)) } }
    ∃ r, readSaved (commBytes s.ms (poolPa s 0) (0xA00 + 4 * t.rf.n * t.rf.nv)) false = some r ∧ r.n = t.rf.n ∧ r.nv = t.rf.nv :=
  some_and (by decide +kernel)

/-- A long TWAIT outside a loop; boosts and spaces that are due and that are not. -/
theorem witness_books :
    (let t := light (.twait ⟨[], 5, 0, true⟩) .resident
     parkReason t = some (3, 0) ∧ t.passed = none ∧ t.ctl.loops = [])
    ∧ 4096 ≤ ({ core.book with readyCount := 4096 } : IssueBook).readyCount ∧ ¬4096 ≤ core.book.readyCount := by decide +kernel

/-- A deadline that ends a wait. -/
theorem witness_deadline_ends : (∀ w ∈ [Wait.ready, .retry .wait, .yield, .barrier 0 0, .twait ⟨[], 5, 0, false⟩],
    deadlineEnds { core with wait := w } = true) ∧ deadlineEnds { core with wait := .retry .fence } = false := by decide +kernel

/-- Configuration records taken, replaced and missing; the homes of the waves. -/
theorem witness_records_taken :
    (∀ k ∈ [3, 4, 5, 6], (takeRecord Mgmt.reset k).isSome = true)
    ∧ takeRecord { Mgmt.reset with records := [], offered := [] } 3 = none
    ∧ (takeRecord { Mgmt.reset with offered := [] } 4).map Prod.snd = some true ∧ Mgmt.reset.waves.length = 24 := by
  refine ⟨fun k hk => ?_, by decide +kernel, by decide +kernel, by decide +kernel⟩
  unfold takeRecord
  split
  · rfl
  · rw [Option.isSome_map]
    have h : ∀ k ∈ [3, 4, 5, 6], (Mgmt.reset.records.find? fun r => r.kind == k && recordOk r).isSome = true := by decide +kernel
    exact h k hk

/-- Spare rows of a bank: none used, and all of a sub-channel's 64. -/
theorem witness_spare_rows :
    spareRowsUsed Mgmt.reset 3 4 1 = 0
    ∧ (let m := { Mgmt.reset with banks := [{ channel := 3, banks := List.range 33, used := List.replicate 64 (4, 1) }] }
       spareRowsUsed m 3 4 1 = 64 ∧ spareRowsUsed m 3 4 2 = 0 ∧ spareRowsUsed m 3 5 1 = 0) := by decide +kernel

/-- A handle whose address space a window write ends, and one that it leaves. -/
theorem witness_spaces_end :
    let s := paged [handle0 []] 0 []
    (spaceOf s 0).isSome = true ∧ (spaceOf (immediate s [(0, 0)]) 0).isNone = true ∧ (spaceOf (immediate s [(0x8000, 0)]) 0).isNone = false := by
  decide +kernel

/-- A graph that is busy with a node of each kind but KERNEL, whose arguments are good. -/
def argued (kind : Nat) (a0 a1 a2 : DWord) : Graph :=
  { graph1 kind [] .waiting true [] with nodes := [[BitVec.ofNat 64 kind, 0, 0, 0, a0, a1, a2, 0]] }

/-- Copies, stratum runs, signals and waits whose addresses are mapped, and ones whose are not. -/
theorem witness_node_arguments :
    let s := graphed none
    (schedPieces s 0 true .read 0x5000 64).isSome = true ∧ schedPieces s 0 true .read 0x6000 64 = none
      ∧ (schedPieces s 0 true .write 0x5040 64).isSome = true
      ∧ StratumArgs (argued 2 0x5000 0x5000 4096) 0 ∧ ¬StratumArgs (argued 2 0x5000 0x5000 0) 0 ∧ (schedRead s 0 true 0x5000 4096).2.isSome = true
      ∧ (stratumPages s (argued 2 0x5000 0x5000 4096) 0x5000 1 0).isSome = true ∧ stratumPages s (argued 2 0x5000 0x6000 4096) 0x6000 1 0 = none
      ∧ s.ms.ecc = [] := by
  unfold StratumArgs
  decide +kernel

/-- A signal to host memory: the page of 0x5000 lies at 0x400000020000. -/
theorem witness_signals :
    let s := graphed none
    let u := { s with ms := { s.ms with mem := tables ++ [(0x1402D, 0x40)] } }
    (∃ p, schedPieces s 0 true .write 0x5000 8 = some [p] ∧ isHost p.pa = false) ∧ u.ms.mem.wf = true
      ∧ ∃ p, schedPieces u 0 true .write 0x5000 8 = some [p] ∧ isHost p.pa = true :=
  ⟨⟨_, rfl, by decide +kernel⟩, by decide +kernel, _, rfl, by decide +kernel⟩

/-! ### Replacement, logs and edges -/

/-- R334: of the lines of lowest priority the oldest goes, the lowest way of several, and the others of its kind age with it. -/
theorem test_victim : pickVictim [⟨10, 0, 3, 1⟩, ⟨11, 4, 1, 0⟩, ⟨12, 2, 1, 0⟩, ⟨13, 6, 0, 0⟩] = some (⟨12, 2, 1, 0⟩, [11, 12, 13], 2) := by
  decide +kernel

/-- R332: with FARWAYS 2 a CXL line has two ways and an HBM line the keel and twelve; a slice in marl mode keeps its keel alone. -/
theorem test_ways :
    (let v := l2View State.reset
     (waysFor v 0).length = 14 ∧ (waysFor v (2 ^ 38)).length = 2 ∧ waysFor { v with marl := [0] } 0 = [0, 1]) := by
  decide +kernel

/-- R154: under `%ftz` SCAN.FADD keeps the least subnormal, RLOG.FADD reads it as zero. -/
theorem test_scan_subnormal : scanAdd 1 1 = 2 ∧ nodeAdd { core with sp := { core.sp with ftz := 1 } } 1 1 = 0 := by decide +kernel

/-- R166: RCP of a subnormal whose reciprocal is finite, of one whose reciprocal is not, and of 2^-127. -/
theorem test_rcp_edges :
    special rcpFn false ⟨.rne, 0, 0⟩ 0x00400000 = 0x7F000000 ∧ special rcpFn false ⟨.rne, 0, 0⟩ 0x00000001 = 0x7F800000 := by decide +kernel

/-- R397: events of one cycle are numbered by source, whatever their order; a soft error counts in the lower half of ECNT. -/
theorem test_cycle_closes :
    (let s := closeCycle (logEvent (logEvent State.reset 5 (2 ^ 24 + 3) []) 4 (2 ^ 24 + 1) [])
     s.host.eseq = 2 ∧ s.host.firsterr0 = 2 ∧ s.host.ecnt = [(3, 0x100000000), (1, 1)] ∧ s.host.events = []) := by decide +kernel

/-! ### Witnesses: reals, wavefronts, copies, barriers -/

theorem real_of {w : Word} {s : Bool} {n q : Nat} {x : Int} {y : ℝ} (h : fp32.decode w.toNat = .fin s n q x)
    (hy : (if s then -1 else 1) * ((n : ℝ) / q) * 2 ^ x = y) : IsReal w y := by
  unfold IsReal; rw [h]; exact hy.symm

/-- Words that stand for 1, for 2^127, whose reciprocal is subnormal, and for -150. -/
theorem witness_reals :
    (IsReal 0x3F800000 1 ∧ (1 : ℝ) ≠ 0 ∧ (2 : ℝ) ^ (-126 : ℤ) ≤ |(1 : ℝ)⁻¹| ∧ |(1 : ℝ)⁻¹| ≤ (2 ^ 24 - 1) * 2 ^ 104 ∧ (0 : ℝ) < 1 ∧ (-150 : ℝ) ≤ 1 ∧ (1 : ℝ) < 128)
    ∧ (IsReal 0x7F000000 (2 ^ 127) ∧ (2 ^ 127 : ℝ) ≠ 0 ∧ |(2 ^ 127 : ℝ)⁻¹| < 2 ^ (-126 : ℤ)) ∧ (IsReal 0xC3160000 (-150) ∧ (-150 : ℝ) ≤ -150) := by
  refine ⟨⟨real_of (s := false) (n := 8388608) (q := 1) (x := -23) (by decide +kernel) (by norm_num), by norm_num, by norm_num, by norm_num, by norm_num, by norm_num,
    by norm_num⟩, ⟨real_of (s := false) (n := 8388608) (q := 1) (x := 104) (by decide +kernel) (by norm_num), by norm_num, ?_⟩,
    real_of (s := true) (n := 9830400) (q := 1) (x := -16) (by decide +kernel) (by norm_num), by norm_num⟩
  rw [abs_of_pos (by positivity), ← zpow_natCast, ← zpow_neg]
  exact zpow_lt_zpow_right₀ (by norm_num) (by norm_num)

/-- Codes of two NaNs, of one NaN and a number, of a lesser and a greater number, of the two zeros, and of one number twice. -/
theorem witness_picks : let k := fp32.ftz false
    (k.decode 0x7FC00001).isNan = true ∧ (k.decode 0xFF800001).isNan = true ∧ (k.decode 0x3F800000).isNan = false
      ∧ (k.decode 0xBF800000).lt (k.decode 0x3F800000) = true ∧ flushed 0 false 0 = 0 ∧ flushed 0 false 0x80000000 = 2 ^ 31
      ∧ (0x7FC00001 : Nat) < 2 ^ (famFmt 0).width ∧ (0xFF800001 : Nat) < 2 ^ (famFmt 0).width := by decide +kernel

/-- A wavefront's branch out of a loop from inside an IF, its EXIT of all lanes, a full stack, and entries of another kind. -/
def waveCtl (f : Control → Control) : State := { banked with team := { wavefront with ctl := f wavefront.ctl } }

theorem witness_wavefront_control :
    (let c := (looping 1 [{ mask := 0xFF, kind := .ifK }]).team.ctl
     let s := waveCtl fun _ => c
     Issues (.br ⟨7, 64⟩) s ∧ s.team.ctl.loops = [] ++ [⟨0x1000, 4⟩] ∧ inBody ⟨0x1000, 4⟩ s.team.ctl.pc = true
       ∧ inBody ⟨0x1000, 4⟩ (targetOf s 64) = false ∧ s.team.kind = .stratum ∧ (blockOf s).isSome = true)
    ∧ (let s := waveCtl id
       Issues (.exit ⟨7⟩) s ∧ s.team.handler = none ∧ s.team.ctl.mask &&& ~~~active s.team 7 = 0 ∧ (∀ e ∈ s.team.ctl.stack, e.mask = 0)
         ∧ Invariant s ∧ Ready .elseP s ∧ Ready .endif s ∧ s.team.ctl.stack = [])
    ∧ (let s := waveCtl fun c => { c with stack := List.replicate 4 { mask := 0xFF, kind := .ifK } }
       Ready (.ifP ⟨7⟩) s ∧ ¬s.team.ctl.stack.length < 4)
    ∧ (let s := waveCtl fun c => { c with stack := List.replicate 3 { mask := 0xFF, kind := .ifK } }
       FallsOn (.ifP ⟨7⟩) s ∧ s.team.ctl.stack.length < 4) :=
  ⟨⟨issues_of (by decide +kernel) rfl, rfl, by decide +kernel, by decide +kernel, rfl, rfl⟩,
    ⟨issues_of (by decide +kernel) rfl, rfl, by decide +kernel, by decide, inv_of (by decide +kernel), ready_of (by decide +kernel),
      ready_of (by decide +kernel), rfl⟩, ⟨ready_of (by decide +kernel), by decide⟩,
    ⟨ready_of (by decide +kernel), by decide +kernel, fun f hf => absurd hf List.not_mem_nil⟩, by decide⟩

/-- Whether a copy's box translates on pages without keys and without direct accesses, with nothing in the L2 and no error. -/
def boxGoes (s : State) (t : Team) (c : Copy) : Bool :=
  match transBox t c (slotOf c.slot).width (boxElems c.sh) s [] with
  | (.ok _ _ _ u, _, es) => (u.find t.uid).isSome && u.upsets == [] && u.ms.l2 == [] && u.ms.mem.wf
      && es.all fun x => x.pas.all fun p => !isRaw p.1 && p.2.2 == 0 && !p.2.1
  | _ => false

/-- What `CopyLeavesClaim` asks of such a copy. -/
theorem box_of {s : State} {t : Team} {c : Copy} (h : boxGoes s t c = true) :
    ∃ pa d key u va es v, transBox t c (slotOf c.slot).width (boxElems c.sh) s [] = (.ok pa d key u, va, es) ∧ u.find t.uid = some v ∧ u.upsets = []
      ∧ Coherent u.ms ∧ ∀ p ∈ es.flatMap (fun x => x.pas), p.2.1 = false ∧ isRaw p.1 = false ∧ KeyHeld u.ms p.2.2 p.1
        ∧ ∀ q ∈ es.flatMap (fun x => x.pas), q.1 / 64 = p.1 / 64 → q.2.2 = p.2.2 := by
  unfold boxGoes at h
  split at h
  · rename_i u va es hx
    simp only [Bool.and_eq_true, beq_iff_eq, List.all_eq_true, Bool.not_eq_true'] at h
    obtain ⟨⟨⟨⟨h1, h2⟩, h3⟩, h4⟩, h5⟩ := h
    obtain ⟨v, hv⟩ := Option.isSome_iff_exists.mp h1
    refine ⟨_, _, _, u, va, es, v, hx, hv, h2, ⟨h4, (fun x hx => by rw [h3] at hx; cases hx)⟩, fun p hp => ?_⟩
    obtain ⟨x, hx, hp⟩ := List.mem_flatMap.mp hp
    have a := h5 x hx p hp
    refine ⟨a.2, a.1.1, (fun x hx => by rw [h3] at hx; cases hx), fun q hq _ => ?_⟩
    obtain ⟨y, hy, hq⟩ := List.mem_flatMap.mp hq
    rw [(h5 y hy q hq).1.2, a.1.2]
  · cases h

/-- A copy out of scratchpad. -/
def copyOut1 : Copy := copyOf (recorded { producer with nextTag := 3 }) ⟨16, 0, 0, 1, true, 0⟩ rec2

/-- A copy into scratchpad; one out of it, still open, and alone in its batch. -/
theorem witness_copy_leaves :
    (let t : Team := { producer with nextTag := 4, eng := { Engines.idle with unsealed := [copy1 3] } }
     let s := recorded t
     s.find 1 = some t ∧ ((teamCopies t).filter fun c => !c.done)[0]? = some (copy1 3) ∧ (copy1 3).out = false ∧ s.upsets = [] ∧ boxGoes s t (copy1 3) = true
       ∧ s.gangOf t = some recGang)
    ∧ (let t : Team := { producer with nextTag := 4, eng := { Engines.idle with unsealed := [copyOut1] } }
       let s := recorded t
       s.find 1 = some t ∧ ((teamCopies t).filter fun c => !c.done)[0]? = some copyOut1 ∧ copyOut1.out = true ∧ s.upsets = [] ∧ boxGoes s t copyOut1 = true
         ∧ t.handler = none ∧ t.eng.batches = [] ∧ t.eng.unsealed = copyOut1 :: [])
    ∧ (let b : Batch := { tag := 2, num := 1, copies := [copyOut1], complete := false }
       let t : Team := { producer with nextTag := 4, eng := { Engines.idle with lastBatch := 1, batches := [b] } }
       let s := recorded t
       s.find 1 = some t ∧ ((teamCopies t).filter fun c => !c.done)[0]? = some copyOut1 ∧ s.upsets = [] ∧ boxGoes s t copyOut1 = true ∧ t.eng.batches = [b]
         ∧ b.copies = [copyOut1] ∧ t.eng.unsealed = []) := by decide +kernel

/-- An arrival of the team that is pending, of the generation that waits and of one that is over. -/
def pendingBar (gen live : Nat) : State :=
  { mapped memCore with gangs := [{ gang1 with live := live, arrived := if gen = 0 then 1 else 0, gen := if gen = 0 then 0 else 1, pendingArr := [(0, 0)] }] }

/-- BAR.ARV as the first of two arrivals, with and without a publication before it; BAR and BAR.ARV with an arrival that is pending. -/
theorem witness_split_barriers :
    (∀ rlx, Runs (.bar ⟨rlx, true, 0⟩) (gangOf 2 memCore) ∧ pendingOf { gang1 with live := 2 } memCore.pl.team = none ∧ gang1.arrived + 1 < 2)
    ∧ (∀ o ∈ [(⟨true, true, 0⟩ : BarOp), ⟨false, true, 0⟩, ⟨true, false, 0⟩], ∀ g ∈ [0, 1], let s := pendingBar g 2
        Runs (.bar o) s ∧ s.team.posted = false ∧ s.team.stage = .resident ∧ s.others = [] ∧ Invariant s
          ∧ ∃ x, s.gangOf s.team = some x ∧ pendingOf x s.team.pl.team = some 0 ∧ x.arrived < x.live ∧ (g = 0 → x.gen ≤ 0)
            ∧ (g = 1 → 0 < x.gen ∧ x.arrived + 1 < x.live))
    ∧ (let s := { mapped (beginPublish (writer (.publish 2 (.barrier true) false))) with gangs := [{ gang1 with live := 2 }] }
       s.team.wait = .publish 2 (.barrier true) false ∧ s.team.stage = .resident ∧ Invariant s ∧ Straight s ∧ entryBad s = none ∧ pubLost s 2 = none
         ∧ overSpace s.mgmt.map s.ms (purge (publish s 2)).ms = none ∧ s.gangOf s.team = some { gang1 with live := 2 }
         ∧ pendingOf { gang1 with live := 2 } s.team.pl.team = none ∧ s.others = []) := by
  refine ⟨fun rlx => by cases rlx <;> exact ⟨(runs_of (by decide +kernel)).1, by decide +kernel, by decide⟩, fun o ho g hg => ?_, rfl, rfl,
    inv_of (by decide +kernel), ⟨by decide +kernel, fun f hf => absurd hf List.not_mem_nil⟩, by decide +kernel⟩
  fin_cases ho <;> fin_cases hg <;>
    exact ⟨(runs_of (by decide +kernel)).1, rfl, rfl, rfl, inv_of (by decide +kernel), some_and (by decide +kernel)⟩

/-! ### Witnesses: the matrix unit, rings, launches, marl commands, the vertex unit -/

/-- Every kind of retiring command, MZERO of a halted queue whose record was reported among them; bit planes; stores raw and converted. -/
theorem witness_matrix_results :
    (∀ r ∈ [MRun.tile 1 ⟨.fp32, [], []⟩, .clear 3, .row (List.replicate 32 5), .store [(0, 1)]],
       let p := { pair1 with queue := [command (.mzero 3)], running := some r, halted := true, err := { MErr.clear with reported := true } }
       ∃ g, (matrixed p core).gangs[0]? = some g ∧ g.pairs[0]? = some p ∧ p.running = some r ∧ p.queue = command (.mzero 3) :: [] ∧ p.halted = true
         ∧ p.err.reported = true)
    ∧ (∀ u ∈ (matrixed pair1 core).teams, u.handler = none)
    ∧ (mmaErr (matrixed pair1 core) 1 0 pair1 2 8 0x28 0x48 false 0 = none ∧ (slotOf 0x28).fam = 8
       ∧ (command (.mma 2 0 8 0x28 0x48 false 0)).kind = .mma 2 0 8 0x28 0x48 false 0)
    ∧ (∀ x ∈ [((0x1 : Word), (1 : DWord)), (0x21, 1), (0x21, 7)], mstsErr pair1 x.1 x.2 = none ∧ (command (.msts x.1 0 x.2)).kind = .msts x.1 0 x.2) :=
  ⟨fun r _ => ⟨_, rfl, rfl, rfl, rfl, rfl, rfl⟩, by decide +kernel,
    ⟨by decide +kernel, by decide +kernel, rfl⟩, fun x hx => by fin_cases hx <;> exact ⟨by decide +kernel, rfl⟩⟩

/-- The ring's grid, whose record holds the entry. -/
def governed1 : Grid :=
  { id := 1, from_ := .node 0 0, rec_ := (List.replicate 32 (0 : DWord)).set 8 (BitVec.ofNat 64 (2 ^ 63 + 2 ^ 48 + 1)), asid := 0, prio := 0, depth := 0,
    priv := true, cores := BitVec.allOnes 24, since := 0, next := 1, size := 1, last := 23, fatal := false }

/-- A ring with a governor entry: thresholds HI 1 and LO 0, MINV 0 and MINC 0, a quiet time of 256 cycles. -/
def governing (head tail : Word) (v : Governor) (role : Nat) : State :=
  let s := ringed 0 head tail
  { s with team := { s.team with pl := { s.team.pl with role := role } },
           gangs := s.gangs.map fun g => { g with govs := [v] },
           sched := { s.sched with grids := [governed1] } }

/-- A governed ring in the quiet time, with nothing armed, and with a conversion of each direction that this team carries out. -/
theorem witness_governed_rings : ∀ x ∈ [((⟨0, none, 0⟩ : Governor), 0), (⟨0, none, 9⟩, 0), (⟨0, some (0, true), 0⟩, 1), (⟨0, some (0, false), 0⟩, 0)],
    let s := governing 0 1 x.1 x.2
    Runs (.rput ⟨0, 2, false, false⟩) s ∧ Runs (.rget ⟨31, 0, false⟩) s ∧ ringCheck s 0 = none ∧ (ringHdr s s.team 0).gid = 0
      ∧ (ringHdr s s.team 0).occ = 1 ∧ bitsOf (govWord s s.team 0) 63 1 = 1
      ∧ (∀ put, ringAhead s 0 put = false) ∧ (∃ g, s.gangOf s.team = some g ∧ g.govs.find? (fun y => y.idx == 0) = some x.1)
      ∧ (x.2 = 1 → roleCount s s.team 1 = 1 ∧ s.team.pl.role = 1) ∧ (x.2 = 0 → roleCount s s.team 0 = 1) ∧ s.team.eng.unsealed = [] := by
  intro x hx
  fin_cases hx <;>
    exact ⟨(runs_of (by decide +kernel)).1, (runs_of (by decide +kernel)).1, by decide +kernel, by decide +kernel, by decide +kernel, by decide +kernel,
      by decide +kernel, some_and (by decide +kernel), by decide +kernel⟩

/-- LAUNCH at depth 10 of a record that can be read, and of one that is not aligned. -/
theorem witness_launch_traps :
    (let s := hostRec launchRec { core with pl := { core.pl with depth := 10 } }
     Ready (.launch ⟨4⟩) s ∧ s.team.pl.depth = 10 ∧ recordReadable (noteIssue s) (spair s.team 8) 256 = true)
    ∧ (let s := mapped (setPair core 8 0x4080)
       Ready (.launch ⟨4⟩) s ∧ (spair s.team 8).toNat % 256 ≠ 0) :=
  ⟨⟨ready_of (by decide +kernel), rfl, by decide +kernel⟩, ready_of (by decide +kernel), by decide +kernel⟩

/-- An MROFF at the head of its slice's queue, with a counter that has not fallen and with none, and a command that reads a bad row. -/
theorem witness_marl_head :
    (∀ reds ∈ [[], [(1, 1)]], let m := { slice0 [entry .off] with reds := reds }
      let t := { core with wait := .marl none, nextTag := 2, eng := { Engines.idle with ops := [⟨0, 5, .none, 0, false, false⟩, ⟨1, 5, .none, 0, false, true⟩] } }
      let s := { marled t [] with marl := [m] }
      sliceOf s 0 = some m ∧ m.queue = entry .off :: [] ∧ (entry .off).cmd = .off ∧ (entry .off).uid = s.team.uid ∧ s.team.wait = .marl none
        ∧ s.team.passed = none ∧ Straight s ∧ counterBehind s m.reds = (reds != []))
    ∧ (let s := { marled memCore [entry (.op 0 0 0)] with upsets := [.row 0 0 0] }
       rowBad s 0 (entry (.op 0 0 0)).cmd = true) := by
  refine ⟨fun reds hr => ?_, by decide +kernel⟩
  fin_cases hr <;> exact ⟨by decide +kernel, rfl, rfl, rfl, rfl, rfl, ⟨by decide +kernel, fun f hf => absurd hf List.not_mem_nil⟩, by decide +kernel⟩

/-- A waiting team wakes that a long limit had parked, and one that it had not. -/
theorem witness_wakes : ∀ long, let w : Twait := { polls := [(0, 0x100, 0)], limit := 5, p := 6, long := long }
    let s := mapped { core with wait := .twait w }
    s.team.wait = .twait w ∧ s.team.stage = .resident ∧ s.team.passed = none ∧ w.p ≠ 7 ∧ Shaped s.team ∧ Laned s.team ∧ Straight s ∧ Invariant s := by
  intro long
  refine ⟨rfl, rfl, rfl, show (6 : BitVec 3) ≠ 7 by decide, ⟨rfl, rfl, rfl, rfl, rfl, rfl, rfl⟩, ?_, ⟨?_, fun f hf => absurd hf List.not_mem_nil⟩, inv_of ?_⟩
  · simp [Laned, mapped, at1, core, regs, Regs.zero]
  all_goals cases long <;> decide +kernel

/-! ### Witnesses: the integrator, the sieve, returns, graphs -/

theorem engine_at {s : State} {p : Engine → Bool} (h : (match engineOf s with | some e => p e | none => false) = true) :
    ∃ e, engineOf s = some e ∧ p e = true := by
  cases he : engineOf s with
  | some e => rw [he] at h; exact ⟨e, rfl, h⟩
  | none => rw [he] at h; cases h

/-- The end of an IGRUN of 32 lanes and two variables, outside any loop. -/
theorem witness_igrun_ends : let s := engaged { endedCtx with phase := .attempt, active := 0x5 }
    (∃ e, engineOf s = some e ∧ ((match e.move with | .finish => true | _ => false) && e.c.lanes.length == 32 && decide (e.c.n ≤ 16) && e.c.active.getLsbD 0
        && !e.c.active.getLsbD 1) = true)
      ∧ Shaped s.team ∧ s.team.rf.n = 32 ∧ 24 ≤ s.team.rf.nv ∧ stepping s.team = false ∧ s.team.ctl.loops = [] :=
  ⟨engine_at (s := engaged { endedCtx with phase := .attempt, active := 0x5 }) (p := fun e => (match e.move with | .finish => true | _ => false)
      && e.c.lanes.length == 32 && decide (e.c.n ≤ 16) && e.c.active.getLsbD 0 && !e.c.active.getLsbD 1) (by decide +kernel),
    by unfold Shaped; decide +kernel, by decide +kernel, by decide +kernel, by decide +kernel, by decide +kernel⟩

/-- A team inside a routine whose queued matrix command has still to read v16 on, and one without such a command. -/
def queuedCall (vb : Nat) (kind : Nat) : State :=
  { (bound (inCall kind)) with
    team := { (bound (inCall kind)).team with pl := { core.pl with role := 2 } },
    gangs := (matrixed { pair1 with queue := [command (.mma 1 0 vb 1 1 false 0)] } core).gangs }

theorem witness_routine_returns :
    (Ready (.igret ⟨BitVec.ofNat 3 (wantedKind (inCall 0))⟩) (queuedCall 16 0) ∧ inRoutine (queuedCall 16 0) (queuedCall 16 0).team = true
      ∧ (∃ r ∈ locusRegs (inCall 0).n, r ∈ matrixReads (queuedCall 16 0) (queuedCall 16 0).team)
      ∧ (queuedCall 16 0).team.ctl.stack.length = (inCall 0).depth ∧ (queuedCall 16 0).team.ctl.loops = (inCall 0).frames)
    ∧ (∀ k ∈ [0, 3, 4, 7], ∀ r ∈ locusRegs (inCall k).n, r ∉ matrixReads (bound (inCall k)) (bound (inCall k)).team)
    ∧ (let s := bound (inCall 1)
       Shaped s.team ∧ 24 ≤ s.team.rf.nv ∧ (inCall 1).n ≤ 16 ∧ inRoutine s s.team = true ∧ (inCall 1).active.getLsbD 0 = true
         ∧ (inCall 1).active.getLsbD 9 = false ∧ (inCall 1).savedLoops = [] ∧ laneCode_ ((inCall 1).lane 0) = 0) :=
  ⟨⟨ready_of (by decide +kernel), by decide +kernel, by decide +kernel, by decide +kernel, by decide +kernel⟩, by decide +kernel,
    by unfold Shaped; decide +kernel, by decide +kernel⟩

/-- A stream with a team that waits for room in it, over a link that delivers. -/
theorem witness_stream_waiter :
    let s := { sieved true 4 3 1 core with others := [{ core with uid := 2, wait := .retry (.sieve 1) }, { core with uid := 3, wait := .retry (.sieve 2) }] }
    lostLink s = none ∧ svOn s = true ∧ (svRead s 1).isOpen = true ∧ Invariant s ∧ s.others.map (fun u => u.wait == .retry (.sieve 1)) = [true, false] :=
  ⟨by decide +kernel, by decide +kernel, by decide +kernel, inv_of (by decide +kernel), by decide +kernel⟩

/-- A handler whose entry holds its pair's tiles: the team may issue TRET, and the entry's pages pass their checks. -/
theorem witness_tile_return :
    let t := { core with rf := { regs with nv := 8, v := regs.v.take 8 }, handler := some ⟨0, 5, Engines.idle, 0x1000, [], true⟩ }
    let s := hostRec [(0xAF4, 8)] (setPair t 30 0x40000000)
    let len := 0xC00 + 4 * 32 * 8 + (16384 + 8 * 65536)
    Ready .tret s ∧ s.team.handler = some ⟨0, 5, Engines.idle, 0x1000, [], true⟩ ∧ countersZero s.team.eng = true ∧ matrixReads s s.team = []
      ∧ landed { s.team with eng := Engines.idle } = true ∧ s.ms.ecc = [] ∧ s.team.poison = [] ∧ s.team.ver.sx = []
      ∧ ∃ xs, checkLanes (noteIssue s) .read true 256 ((0, 0x40000000) :: ((rangePages 0x40000000 len).drop 1).map fun p => (0, p.1)) = .ok xs :=
  ⟨ready_of (by decide +kernel), rfl, by decide +kernel, by decide +kernel, by decide +kernel, rfl, rfl, rfl, ok_of (by decide +kernel)⟩

/-- A privileged upload and remove from a queue that is not the privileged one, and from one that is. -/
theorem witness_privileged_commands : ∀ v ∈ [(0x600 : DWord), 0xA00],
    gcmdBad v = false ∧ v.getLsbD 9 = true ∧ (bitsOf v.toNat 10 2 = 1 ∨ bitsOf v.toNat 10 2 = 2) ∧ (graphed none).host.privq = true
      ∧ lostLink (graphed none) = none ∧ ({ (graphed none).host with privq := false } : HostRegs).privq = false := by
  intro v hv
  fin_cases hv <;> exact ⟨by decide, by decide, by decide, rfl, rfl, rfl⟩

/-! ### Witnesses: placement, continuations, the host's accesses, start -/

/-- A grid that no cluster may take waits before one that is placed; an evicted team alone on the list. -/
theorem witness_walks :
    (let s := { placing 0 Team.absent with sched := { (placing 0 Team.absent).sched with grids := [{ grid1 0 0 with id := 2, prio := 1, cores := 0 }, grid1 0 0] } }
     let r := closePairs (sweepGangs s) []
     ∃ x w, waitList r = [x] ++ w :: [] ∧ placed r x = none ∧ w.what = .gang 1 ∧ (placed r w).isSome = true)
    ∧ (let s := placing 1 { core with stage := .evicted 0 }
       let r := closePairs (sweepGangs s) []
       ∃ w, waitList r = [] ++ w :: [] ∧ w.what = .team 1 ∧ (placed r w).isSome = true) :=
  ⟨⟨⟨1, 0, 0, .gang 2⟩, ⟨0, 0, 0, .gang 1⟩, by decide +kernel⟩, ⟨0, 0, 0, .team 1⟩, by decide +kernel⟩

/-- The grid, last placed in cluster 23 and in cluster 4. -/
theorem witness_gang_goes : (∀ g ∈ [grid1 0 0, { grid1 0 0 with last := 4 }], gcbRoom (placing 0 Team.absent) = true ∧ g.last < 24
      ∧ ∃ c cs, openClusters (placing 0 Team.absent) g = [] ++ c :: cs ∧ prefSize g.rec_ = 1
        ∧ (fitGang (placing 0 Team.absent) (residents (placing 0 Team.absent)) g.rec_ 1 c).isSome = true) := by
  intro g hg
  fin_cases hg
  · exact ⟨by decide +kernel, by decide, 0, (List.range 23).map (· + 1), by decide +kernel⟩
  · exact ⟨by decide +kernel, by decide, 5, (List.range 18).map (· + 6) ++ [0, 1, 2, 3, 4], by decide +kernel⟩

/-- A record of 16 teams or 1, each of 1,024 lanes and 64 registers. -/
def wideWords : List DWord := dwordsOf 32 (bytesAt 256 [(1, 0x10), (24, 1), (26, 1), (28, 1), (32, 5), (33, 7), (36, 16), (37, 1), (42, 1)])

/-- The second cluster of the core set, where the first has no core left; the fallback size, where the preferred one fits nowhere. -/
theorem witness_gang_falls_back :
    (let s := { placing 0 Team.absent with mgmt := { Mgmt.reset with fenced := List.range 8 } }
     ∃ cs, openClusters s (grid1 0 0) = [0] ++ 1 :: cs ∧ prefSize launchWords = 1 ∧ fitGang s (residents s) launchWords 1 0 = none
       ∧ (fitGang s (residents s) launchWords 1 1).isSome = true)
    ∧ (let s := { placing 0 Team.absent with mgmt := { Mgmt.reset with fenced := regsFrom 2 6 } }
       let g := { grid1 0 0 with rec_ := wideWords, cores := 1 }
       gcbRoom s = true ∧ openClusters s g = [] ++ 0 :: [] ∧ prefSize wideWords = 16 ∧ fallSize wideWords = 1
         ∧ fitGang s (residents s) wideWords 16 0 = none ∧ (fitGang s (residents s) wideWords 1 0).isSome = true) :=
  ⟨⟨(List.range 22).map (· + 2), by decide +kernel⟩, by decide +kernel⟩

/-- Continuations that are bound to their cluster, and whose x0 is canonical and in HBM, canonical and elsewhere, and not canonical. -/
theorem witness_routes :
    (let t := light .ready .resident
     t.pl.gangBound = false ∧ { t.pl with gangBound := true }.gangBound = true ∧ canonical (spair (setPair t 0 0x4000) 0) = true
       ∧ (∃ l, leafOf (mapped core) t.pl.core t.pl.asid (0x4000 : DWord).toNat = .ok l ∧ isHbm (l.pa (0x4000 : DWord).toNat) = true)
       ∧ (∃ l, leafOf (hostRec [] core) t.pl.core t.pl.asid (0x40000000 : DWord).toNat = .ok l ∧ isHbm (l.pa (0x40000000 : DWord).toNat) = false)
       ∧ canonical (0x0100000000000000 : DWord) = false) :=
  ⟨rfl, rfl, by decide +kernel, ok_and (by decide +kernel), ok_and (by decide +kernel), by decide +kernel⟩

/-- A future that is resolved and one that is refused, for a team that is a continuation; a record that loads and one that does not. -/
theorem witness_future_queues :
    (∀ x ∈ [((0x20101 : Nat), 2), (0x20100, 3)],
      let s := { graphed none with team := light (.fault 0x5000 x.1 (trap13 2 9 0)) (.cont 0 none),
                                   ms := { (graphed none).ms with mem := tables ++ [(0x20000, 1), (0x20100, 3), (0x20101, 2)] } }
      s.team.stage = .cont 0 none ∧ (commByteK s.ms (keyOf s s.team.pl.core s.team.pl.asid 0x5000) x.1).toNat % 4 = x.2)
    ∧ (∃ load : Team → Option Team, ∃ u, load core = some u ∧ u.uid = (at1 core).team.uid) ∧ ∃ load : Team → Option Team, load core = none :=
  ⟨by decide +kernel, ⟨fun t => some t, core, rfl, rfl⟩, fun _ => none, rfl⟩

/-- Window writes to the host's memory, and to memory of both kinds; FARWAYS 7 and another value. -/
theorem witness_host_writes :
    (∀ c ∈ cellsAt 0x400000000000 [1, 2], isHost c.1 = true)
    ∧ ((∃ c ∈ cellsAt 0x3FFFFFFFFFFF [1, 2], isHbm c.1 = false) ∧ ∃ c ∈ cellsAt 0x3FFFFFFFFFFF [1, 2], isHost c.1 = false)
    ∧ ((0x10007 : DWord).toNat % 8 = 7 ∧ (0x10006 : DWord).toNat % 8 ≠ 7 ∧ (0x10008 : DWord).toNat / 8 % 32 ≠ 0) := by decide +kernel

/-- A fenced core whose step is none of the steps before, is the next step, and is a later one; a link that cannot deliver. -/
theorem witness_fenced_start :
    (let m := { Mgmt.reset with fenced := [5] }
     let pre : List StartStep := [⟨3, 4, 0, true⟩]
     wellStarted pre ∧ (∀ x ∈ pre, ∀ core ∈ m.fenced, coreStep (core / 96) ≠ x.step)
       ∧ (∃ core ∈ m.fenced, coreStep (core / 96) = (⟨coreStep 0, 0, 0, false⟩ : StartStep).step)
       ∧ (¬∃ core ∈ m.fenced, coreStep (core / 96) = (⟨coreStep 1, 0, 0, false⟩ : StartStep).step))
    ∧ (∀ k ∈ [3, 4, 5, 6], takeRecord { Mgmt.reset with records := [], offered := [] } k = none)
    ∧ (lostLink { at1 core with upsets := [.link 3] }).isSome = true ∧ (Mgmt.reset.bankMap 3).banks.length = 33 := by decide +kernel

/-- R155 and R165: EX2 of -150 is half of the least subnormal; with 8 bits discarded a draw of 128 rounds it up, one of 127 does not. -/
theorem test_special_draws :
    special ex2Fn false ⟨.sr, 0x80, 0⟩ 0xC3160000 = 1 ∧ special ex2Fn false ⟨.sr, 0x17F, 0⟩ 0xC3160000 = 0 := by decide +kernel

/-- R271: four requests that enter the queue in one memory-side cycle make one batch of a wave that CBATCH holds. -/
theorem test_batch_of_a_cycle :
    (let calls := (List.range 4).map fun k => { callReq with lane := k }
     let s := vertexed { wave memCore with wait := .retry .batch, ctl := { core.ctl with buffer := [(0x1000, encode (.cbatch ⟨12, 4⟩) |>.getD 0)] } } classes1
       { Home.empty with queue := calls }
     (ownHome (formBatches s)).batch.map (fun b => b.reqs.length) = some 4) := by decide +kernel

/-- R375: a bracket whose ends are not numbers is not small; one of width 2^-20 is. -/
theorem test_bracket : (let r : RootState := ⟨0, 0, 0, 0x7FC00000, 0, 0, 0, false⟩
    bracketSmall r = false ∧ bracketSmall { r with b := 0x35800000 } = true ∧ bracketSmall { r with b := 0x35800001 } = false) := by decide +kernel

end Sys2Proof.Tests
end

section
/-! SUPPORT. What an immediate write of the host does to committed bytes (R215, R416). -/

namespace Sys2Proof.Machine

/-! ### The last byte of some cells -/

@[simp] theorem lastAt_nil (a : Nat) : lastAt [] a = none := rfl

/-- The first of some cells counts where no later one names the address. -/
theorem lastAt_cons (c : Host.Cell) (cs : List Host.Cell) (a : Nat) :
    lastAt (c :: cs) a = (lastAt cs a).or (if a = c.1 then some c.2 else none) := by
  unfold lastAt
  rw [List.reverse_cons, List.find?_append, Option.map_or]
  by_cases h : a = c.1
  · simp [h]
  · simp [h, Ne.symm h]

/-- Cells that do not name an address put nothing there. -/
theorem lastAt_eq_none {cs : List Host.Cell} {a : Nat} (h : ∀ c ∈ cs, c.1 ≠ a) : lastAt cs a = none := by
  unfold lastAt
  rw [Option.map_eq_none_iff, List.find?_eq_none]
  intro c hc
  simpa using h c (List.mem_reverse.mp hc)

/-- The addresses of consecutive cells. -/
theorem mem_cellsAt_range {c : Host.Cell} {a : Nat} {bs : List Byte} (h : c ∈ cellsAt a bs) : a ≤ c.1 ∧ c.1 < a + bs.length := by
  induction bs generalizing a with
  | nil => simp [cellsAt] at h
  | cons b bs ih =>
    rw [List.length_cons]
    rcases List.mem_cons.mp h with rfl | h
    · exact ⟨Nat.le_refl a, show a < _ by omega⟩
    · have := ih h; omega

/-- The kinds of memory are apart (R310). -/
theorem isHost_apart {a : Nat} (h : isHost a = true) : isRaw a = false ∧ isHbm a = false ∧ isCached a = false := by
  simp only [isHost, isRaw, isHbm, isCached, isCxl, decide_eq_true_eq, decide_eq_false_iff_not, Bool.or_eq_false_iff] at h ⊢
  omega

theorem isHbm_not_raw {a : Nat} (h : isHbm a = true) : isRaw a = false := by
  simp only [isRaw, isHbm, decide_eq_true_eq, decide_eq_false_iff_not] at h ⊢
  omega

/-! ### One byte put -/

/-- A byte put in an unencrypted page is a byte of memory. -/
theorem keyPut_zero (m : Memory) (a : Nat) (b : Byte) : keyPut m 0 a b = memSet m a b := by
  simp [keyPut, belowKey]

/-- The L2 after a map that keeps sector numbers. -/
theorem l2Find_map (ms : MemSide) (f : Sector → Sector) (n : Nat) (hf : ∀ x, (f x).num = x.num) :
    l2Find { ms with l2 := ms.l2.map f } n = (l2Find ms n).map f := by
  unfold l2Find
  rw [List.find?_map]
  congr 1
  congr 1
  funext x
  simp [hf]

/-- The committed byte where the L2 has the sector, and where it has not. -/
theorem commByteK_found {ms : MemSide} {k a : Nat} {x : Sector} (hr : isRaw a = false) (hc : isCached a = true)
    (hx : l2Find ms (a / 64) = some x) : commByteK ms k a = x.data.getD (a % 64) 0 := by
  simp [commByteK, hr, hc, hx]

theorem commByteK_missed {ms : MemSide} {k a : Nat} (hr : isRaw a = false) (hc : isCached a = true) (hx : l2Find ms (a / 64) = none) :
    commByteK ms k a = keyGet ms.mem k a := by
  simp [commByteK, hr, hc, hx]

theorem commByteK_uncached {ms : MemSide} {k a : Nat} (hr : isRaw a = false) (hc : isCached a = false) :
    commByteK ms k a = memGet ms.mem a := by
  simp [commByteK, hr, hc]

/-- A byte of memory set, as a key reads it: bytes of a sector without other keys than 0 alone are set. -/
theorem keyGet_memSet {m : Memory} (h : m.wf = true) {k a c : Nat} (b : Byte) (hk : c / 64 = a / 64 → k = 0) :
    keyGet (memSet m c b) k a = if a = c then b else keyGet m k a := by
  rw [← keyPut_zero]
  by_cases hs : c / 64 = a / 64
  · rw [hk hs, keyGet_keyPut h]
  · rw [keyGet_keyPut_far h _ _ _ _ _ (by omega), if_neg (by omega)]

/-- A byte put into the sector that the L2 has for it. -/
theorem commByteK_setSector {ms : MemSide} (h : Sound ms) (c : Host.Cell) {k a : Nat} (hr : isRaw a = false) (hcc : isCached c.1 = true)
    (hf : (l2Find ms (c.1 / 64)).isSome = true) :
    commByteK { ms with l2 := ms.l2.map fun x =>
        if x.num == c.1 / 64 then { x with dirty := true, data := x.data.set (c.1 % 64) c.2 } else x } k a
      = if a = c.1 then c.2 else commByteK ms k a := by
  have hnum : ∀ y : Sector, (if y.num == c.1 / 64 then { y with dirty := true, data := y.data.set (c.1 % 64) c.2 } else y).num = y.num :=
    fun y => by split <;> rfl
  cases hca : isCached a with
  | false =>
    rw [commByteK_uncached hr hca, commByteK_uncached hr hca, if_neg (fun e => by rw [e, hcc] at hca; cases hca)]
  | true =>
    cases hg : l2Find ms (a / 64) with
    | none =>
      have hne : a ≠ c.1 := fun e => by rw [← e, hg] at hf; cases hf
      rw [commByteK_missed hr hca (by rw [l2Find_map _ _ _ hnum, hg]; rfl), commByteK_missed hr hca hg, if_neg hne]
    | some y =>
      obtain ⟨hy, hn⟩ := l2Find_mem hg
      rw [commByteK_found hr hca (by rw [l2Find_map _ _ _ hnum, hg]; rfl), commByteK_found hr hca hg]
      beta_reduce
      by_cases hs : y.num = c.1 / 64
      · have hl := h.2 y hy
        rw [if_pos (by simpa using hs), List.getD_eq_getElem _ _ (by rw [List.length_set]; omega), List.getElem_set,
          List.getD_eq_getElem _ _ (by omega)]
        by_cases he : a = c.1
        · simp [he]
        · rw [if_neg (by omega), if_neg he]
      · rw [if_neg (by simpa using hs), if_neg (by intro e; exact hs (by rw [hn, e]))]

/-- A byte set in memory where the L2 does not have its sector. -/
theorem commByteK_setMem {ms : MemSide} (h : Sound ms) (c : Host.Cell) {k a : Nat} (hr : isRaw a = false)
    (hf : isCached c.1 = true → l2Find ms (c.1 / 64) = none) (hk : isCached a = true → c.1 / 64 = a / 64 → k = 0) :
    commByteK { ms with mem := memSet ms.mem c.1 c.2 } k a = if a = c.1 then c.2 else commByteK ms k a := by
  cases hca : isCached a with
  | false => rw [commByteK_uncached hr hca, commByteK_uncached hr hca, memGet_memSet (lo := 0) h.1]
  | true =>
    cases hg : l2Find ms (a / 64) with
    | some y =>
      have hne : a ≠ c.1 := fun e => by rw [e] at hca hg; rw [hf hca] at hg; cases hg
      rw [if_neg hne, commByteK_found hr hca hg]
      exact commByteK_found hr hca hg
    | none =>
      rw [commByteK_missed hr hca hg, ← keyGet_memSet h.1 _ (hk hca)]
      exact commByteK_missed hr hca hg

/-- A byte put of a page without a key is read back; every other committed byte stays, under its key. -/
theorem commByteK_putByte {ms : MemSide} (h : Sound ms) (c : Host.Cell) {k a : Nat} (hr : isRaw a = false)
    (hk : isCached a = true → c.1 / 64 = a / 64 → k = 0) :
    commByteK (putByte (fun _ => Ins.plain) ms c) k a = if a = c.1 then c.2 else commByteK ms k a := by
  unfold putByte
  cases hcc : isCached c.1 with
  | false =>
    rw [if_neg Bool.false_ne_true]
    exact commByteK_setMem h c hr (fun hc => by rw [hcc] at hc; cases hc) hk
  | true =>
    rw [if_pos rfl]
    cases hf : l2Find ms (c.1 / 64) with
    | some x => exact commByteK_setSector h c hr hcc (by rw [hf]; rfl)
    | none =>
      have hp : keyPut ms.mem Ins.plain.key c.1 c.2 = memSet ms.mem c.1 c.2 := keyPut_zero _ _ _
      simp only [hp]
      exact commByteK_setMem h c hr (fun _ => hf) hk

/-- After several bytes are put, each is the last one put there, and every other committed byte stays, under its key. -/
theorem commByteK_putBytes {ms : MemSide} (h : Sound ms) (cs : List Host.Cell) {k a : Nat} (hr : isRaw a = false)
    (hk : isCached a = true → ∀ c ∈ cs, c.1 / 64 = a / 64 → k = 0) :
    commByteK (cs.foldl (putByte fun _ => Ins.plain) ms) k a = (lastAt cs a).getD (commByteK ms k a) := by
  induction cs generalizing ms with
  | nil => rfl
  | cons c cs ih =>
    rw [List.foldl_cons, ih ((putByte_grows _ ms c).sound h) fun hc d hd => hk hc d (List.mem_cons_of_mem _ hd),
      commByteK_putByte h c hr fun hc => hk hc c (List.mem_cons_self ..), lastAt_cons]
    cases lastAt cs a with
    | some b => rfl
    | none => by_cases he : a = c.1 <;> simp [he]

/-- Putting bytes brings no sector in and changes no key. -/
theorem keyHeld_putBytes {ins : Nat → Ins} {cs : List Host.Cell} {ms : MemSide} {k a : Nat}
    (h : KeyHeld (cs.foldl (putByte ins) ms) k a) : KeyHeld ms k a := by
  induction cs generalizing ms with
  | nil => exact h
  | cons c cs ih =>
    have h1 := ih h
    unfold putByte at h1
    split at h1
    · split at h1
      · intro x hx hn
        have := h1 _ (List.mem_map.mpr ⟨x, hx, rfl⟩)
        split at this <;> exact this hn
      · exact h1
    · exact h1

/-! ### A commit -/

/-- Sectors filled in order: lines come and go. -/
theorem fills_moves (v : L2View) (ins : Nat → Ins) (ns : List Nat) {ms : MemSide} (h : Coherent ms) :
    Moves ms (ns.foldl (fun ms n => l2Fill v (ins n) ms n) ms) := by
  induction ns generalizing ms with
  | nil => exact Moves.refl h
  | cons n ns ih =>
    have h1 := l2Fill_moves v (ins n) h n
    exact h1.trans (ih h1.coherent)

/-- What a commit leaves in memory and the L2: its sectors enter, then its bytes are put. -/
theorem commit_bytes (v : L2View) (ins : Nat → Ins) (ms : MemSide) (cs : List Host.Cell) :
    let m := cs.foldl (putByte ins) ((sectorsOf cs).foldl (fun ms n => l2Fill v (ins n) ms n) ms)
    (commit v ins ms cs).mem = m.mem ∧ (commit v ins ms cs).l2 = m.l2 := by
  cases cs <;> exact ⟨rfl, rfl⟩

/-- The committed bytes and the keys of the L2 come from memory and the L2's sectors alone. -/
theorem commByteK_congr {ms ms' : MemSide} (hm : ms'.mem = ms.mem) (hl : ms'.l2 = ms.l2) (k a : Nat) :
    commByteK ms' k a = commByteK ms k a := by
  unfold commByteK l2Find
  rw [hm, hl]

/-- An immediate write whose cells are none of the raw aperture, as far as memory and the L2 go: a commit. -/
theorem immediate_bytes (s : State) {cs : List Host.Cell} (h : ∀ c ∈ cs, isRaw c.1 = false) :
    (immediate s cs).ms.mem = (commit (l2View s) (fun _ => Ins.plain) s.ms cs).mem
      ∧ (immediate s cs).ms.l2 = (commit (l2View s) (fun _ => Ins.plain) s.ms cs).l2 := by
  have h1 : cs.filter (fun c => !isRaw c.1) = cs := List.filter_eq_self.mpr fun c hc => by simp [h c hc]
  have h2 : cs.filter (fun c => isRaw c.1) = [] := List.filter_eq_nil_iff.mpr fun c hc => by simp [h c hc]
  unfold immediate immediateAs commitAll
  rw [h1, h2]
  exact ⟨rfl, rfl⟩

/-- An immediate write leaves everything but the memory side. -/
theorem immediate_frame (s : State) (cs : List Host.Cell) : immediate s cs = { s with ms := (immediate s cs).ms } := rfl

/-- A write of bytes outside the raw aperture (R215, R416): they are committed, and no other committed byte changes. -/
theorem immediate_hostStored (s : State) {cs : List Host.Cell} (h : ∀ c ∈ cs, isRaw c.1 = false) : HostStored s (immediate s cs) cs := by
  intro hc k a hr hk hk' h0
  obtain ⟨hm, hl⟩ := immediate_bytes s h
  obtain ⟨hm1, hl1⟩ := commit_bytes (l2View s) (fun _ => Ins.plain) s.ms cs
  have hmv := fills_moves (l2View s) (fun _ => Ins.plain) (sectorsOf cs) hc
  have hk1 : KeyHeld (cs.foldl (putByte fun _ => Ins.plain) ((sectorsOf cs).foldl (fun ms n => l2Fill (l2View s) Ins.plain ms n) s.ms)) k a := by
    unfold KeyHeld at hk' ⊢
    rw [hl, hl1] at hk'
    exact hk'
  rw [commByteK_congr (hm.trans hm1) (hl.trans hl1),
    commByteK_putBytes ⟨hmv.coherent.1, fun x hx => (hmv.coherent.2 x hx).1⟩ cs hr fun _ c hcm he => h0 ⟨c, hcm, he⟩,
    hmv.commByteK hc hr hk (keyHeld_putBytes hk1)]

/-! ### Writes to host memory (R416, R429) -/

/-- The sectors of cells are those of the cells. -/
theorem mem_sectorsOf {cs : List Host.Cell} {n : Nat} (h : n ∈ sectorsOf cs) : ∃ c ∈ cs, c.1 / 64 = n := by
  induction cs with
  | nil => simp [sectorsOf] at h
  | cons c cs ih =>
    have hcs : n ∈ sectorsOf cs → ∃ d ∈ c :: cs, d.1 / 64 = n := fun hn =>
      let ⟨d, hd, e⟩ := ih hn; ⟨d, List.mem_cons_of_mem _ hd, e⟩
    unfold sectorsOf at h
    split at h
    · exact ⟨c, List.mem_cons_self .., (List.mem_singleton.mp h).symm⟩
    · rename_i m ms hm
      split at h
      · exact hcs (hm ▸ h)
      · rcases List.mem_cons.mp h with rfl | h
        · exact ⟨c, List.mem_cons_self .., rfl⟩
        · exact hcs (hm ▸ h)

/-- Sectors of host memory do not enter the L2. -/
theorem fills_host (v : L2View) (ns : List Nat) (ms : MemSide) (h : ∀ n ∈ ns, isCached (64 * n) = false) :
    ns.foldl (fun ms n => l2Fill v Ins.plain ms n) ms = ms := by
  induction ns with
  | nil => rfl
  | cons n ns ih =>
    have h1 : l2Fill v Ins.plain ms n = ms := by unfold l2Fill; simp [h n (List.mem_cons_self ..)]
    rw [List.foldl_cons, h1]
    exact ih fun m hm => h m (List.mem_cons_of_mem _ hm)

/-- A write to host memory changes no committed byte but those it names, whatever key a page has. -/
theorem immediate_host_bytes (s : State) {cs : List Host.Cell} (hs : Sound s.ms) (h : ∀ c ∈ cs, isHost c.1 = true) {k a : Nat}
    (hr : isRaw a = false) : commByteK (immediate s cs).ms k a = (lastAt cs a).getD (commByteK s.ms k a) := by
  obtain ⟨hm, hl⟩ := immediate_bytes s fun c hc => (isHost_apart (h c hc)).1
  obtain ⟨hm1, hl1⟩ := commit_bytes (l2View s) (fun _ => Ins.plain) s.ms cs
  have hf := fills_host (l2View s) (sectorsOf cs) s.ms fun n hn => by
    obtain ⟨c, hc, rfl⟩ := mem_sectorsOf hn
    cases he : isCached (64 * (c.1 / 64)) with
    | false => rfl
    | true => have := isCached_sector he rfl; rw [(isHost_apart (h c hc)).2.2] at this; cases this
  rw [hf] at hm1 hl1
  rw [commByteK_congr (hm.trans hm1) (hl.trans hl1), commByteK_putBytes hs cs hr]
  intro hca c hc he
  simp only [isHost, isCached, isHbm, isCxl, Bool.or_eq_true, decide_eq_true_eq] at hca h
  have := h c hc
  omega

end Sys2Proof.Machine
end

section
/-! SUPPORT. The mailbox (R429 to R431): what a request does to the responder, and what its response writes. -/

namespace Sys2Proof.Machine

/-! ### A host's access over the link -/

/-- Over a link that delivers, a host's access does what it does. -/
theorem overLink_up {s : State} (h : lostLink s = none) (r : Host.Outcome State Fault Refusal) : overLink s r = r := by
  simp [overLink, h]

/-- Over a link that cannot deliver, a host's access receives an error response alone (R414). -/
theorem overLink_lost {s : State} (h : (lostLink s).isSome = true) (r : Host.Outcome State Fault Refusal) :
    overLink s r = .next { s with host := { s.host with answer := [] } } := by
  simp [overLink, h]

/-! ### Responses -/

/-- The cells that a response writes: the bytes of the buffer that lie in host memory (R429). -/
def responseCells (s : State) (buf : DWord) : List Host.Cell :=
  (cellsAt (hostPa buf.toNat) ((List.range 4096).map fun i => Config.freeByte (s.free + i))).filter fun c => isHost c.1

/-- A response is an immediate write of its cells, which the controller counts. -/
theorem respond_eq (s : State) (buf : DWord) (m : Mgmt) :
    respond s buf m = { immediate s (responseCells s buf) with free := s.free + 4096, mgmt := { m with mbxrsp := m.mbxrsp + 1 } } := by
  unfold respond responseCells
  rfl

/-- An immediate write with new free values and a new state of the controller changes nothing else. -/
theorem immediate_mgmt_frame (s : State) (cs : List Host.Cell) (n : Nat) (m : Mgmt) :
    let t : State := { immediate s cs with free := n, mgmt := m }
    t = { s with ms := t.ms, free := t.free, mgmt := t.mgmt } := rfl

/-- The cells of a response lie in host memory, in the buffer. -/
theorem mem_responseCells {s : State} {buf : DWord} {c : Host.Cell} (h : c ∈ responseCells s buf) :
    isHost c.1 = true ∧ hostPa buf.toNat ≤ c.1 ∧ c.1 < hostPa buf.toNat + 4096 := by
  obtain ⟨hc, hh⟩ := List.mem_filter.mp h
  have := mem_cellsAt_range hc
  rw [List.length_map, List.length_range] at this
  exact ⟨hh, this⟩

/-- A response writes host memory in the request's buffer alone (R429). -/
theorem commByteK_respond {s : State} (hs : Sound s.ms) (buf : DWord) (m : Mgmt) {k a : Nat} (hr : isRaw a = false)
    (ha : a < hostPa buf.toNat ∨ hostPa buf.toNat + 4096 ≤ a) : commByteK (respond s buf m).ms k a = commByteK s.ms k a := by
  have hn : lastAt (responseCells s buf) a = none := lastAt_eq_none fun c hc => by
    have := (mem_responseCells hc).2
    omega
  rw [respond_eq]
  change commByteK (immediate s (responseCells s buf)).ms k a = _
  rw [immediate_host_bytes s hs (fun c hc => (mem_responseCells hc).1) hr, hn]
  rfl

/-- An instruction that sends a response over the link, with the controller's count of responses as it was (R414, R429). -/
theorem responds_of_respond {i : Instr} {s : State} {buf : DWord} {m : Mgmt} (hi : exec i s = overLink s (.next (respond s buf m)))
    (hm : m.mbxrsp = s.mgmt.mbxrsp) : Responds i s buf m := by
  refine ⟨fun hl => by rw [hi, overLink_lost hl], fun hl => ⟨respond s buf m, by rw [hi, overLink_up hl], ?_, ?_, ?_⟩⟩
  · rw [respond_eq, ← hm]
  · rw [respond_eq]
    exact immediate_mgmt_frame s _ _ _
  · intro hv k a hr ha
    exact commByteK_respond ⟨hv.1, hv.2.2.2.1⟩ buf m hr ha

/-! ### SPDM requests -/

/-- An instruction that is an SPDM request, allowed where `ok` says and moving the responder as `move` says (R430). -/
theorem negotiates_of_spdm {i : DWord → Instr} {ok : Spdm → Bool} {move : Spdm → Spdm} {P : Spdm → Prop}
    (hi : ∀ s buf, exec (i buf) s = spdm s buf ok move) (hP : ∀ p, P p ↔ ok p = true) : Negotiates i P move := by
  intro s buf
  constructor
  · intro h
    refine responds_of_respond ?_ rfl
    rw [hi, spdm, if_pos ((hP _).mp h)]
  · intro h
    refine responds_of_respond ?_ rfl
    rw [hi, spdm, if_neg (fun e => h ((hP _).mpr e))]

/-- Measurements: the responder answers indices 1 to 6 once algorithms are agreed, and counts them inside a session (R430, R431). -/
theorem responds_getMeasurements (s : State) (buf : DWord) (js : List Nat) :
    let p := s.mgmt.spdm
    let ok := p.algs = true ∧ ∀ j ∈ js, 1 ≤ j ∧ j ≤ 6
    (ok → Responds (.getMeasurements buf js) s buf { s.mgmt with
      spdm := if p.secured then { p with measured := p.measured ++ js.filter fun j => !p.measured.contains j } else p,
      report := js.map (measureOf s.mgmt) })
    ∧ (¬ok → Responds (.getMeasurements buf js) s buf s.mgmt) := by
  intro p ok
  have hok : (p.algs && js.all fun i => decide (1 ≤ i ∧ i ≤ 6)) = true ↔ ok := by simp [ok]
  have hi : exec (.getMeasurements buf js) s = execGetMeasurements buf js s := rfl
  constructor
  · intro h
    refine responds_of_respond ?_ rfl
    rw [hi, execGetMeasurements]
    simp only
    rw [if_pos (hok.mpr h)]
  · intro h
    refine responds_of_respond ?_ rfl
    rw [hi, execGetMeasurements]
    simp only
    rw [if_neg (fun e => h (hok.mp e))]

/-- When a key is accepted (R431). -/
theorem keyAccepted_iff (m : Mgmt) (key : Nat) : keyAccepted m key = true ↔
    m.spdm.secured = true ∧ 3 ∈ m.spdm.measured ∧ 4 ∈ m.spdm.measured ∧ 5 ∈ m.spdm.measured ∧ 6 ∈ m.spdm.measured ∧ 1 ≤ key ∧ key ≤ 15
      ∧ Config.keyListed (m.recordOf 6).words key = true := by
  simp only [keyAccepted, List.all_cons, List.all_nil, Bool.and_true, Bool.and_eq_true, decide_eq_true_eq, List.contains_iff_mem]
  tauto

/-- A key that is accepted joins those installed; any other request leaves them (R431). -/
theorem responds_memoryKeyInstall (s : State) (buf : DWord) (key : Nat) :
    ∃ keys, Responds (.memoryKeyInstall buf key) s buf { s.mgmt with keys := keys }
      ∧ ∀ k, k ∈ keys ↔ k ∈ s.mgmt.keys ∨ (k = key ∧ keyAccepted s.mgmt key = true) := by
  have hi : exec (.memoryKeyInstall buf key) s = execMemoryKeyInstall buf key s := rfl
  by_cases hn : keyAccepted s.mgmt key = true ∧ key ∉ s.mgmt.keys
  · have hc : (keyAccepted s.mgmt key && !s.mgmt.keys.contains key) = true := by simp [hn.1, hn.2]
    refine ⟨key :: s.mgmt.keys, responds_of_respond ?_ rfl, fun k => ?_⟩
    · rw [hi, execMemoryKeyInstall]
      simp only
      rw [if_pos hc]
    · simp only [List.mem_cons, hn.1, and_true]
      exact or_comm
  · have hc : ¬(keyAccepted s.mgmt key && !s.mgmt.keys.contains key) = true := by simpa using hn
    refine ⟨s.mgmt.keys, responds_of_respond ?_ rfl, fun k => ?_⟩
    · rw [hi, execMemoryKeyInstall]
      simp only
      rw [if_neg hc]
    · refine ⟨.inl, ?_⟩
      rintro (h | ⟨rfl, h⟩)
      · exact h
      · exact not_not.mp fun hk => hn ⟨h, hk⟩

/-- Settles O53: each request is a response over the link, and the responder moves as the request's own rule says. -/
theorem mailbox : Obligations.Mailbox := by
  unfold Obligations.Mailbox
  refine ⟨negotiates_of_spdm (ok := fun _ => true) (fun _ _ => rfl) (by simp), negotiates_of_spdm (fun _ _ => rfl) fun _ => Iff.rfl,
    negotiates_of_spdm (fun _ _ => rfl) fun _ => Iff.rfl, negotiates_of_spdm (fun _ _ => rfl) fun _ => Iff.rfl,
    negotiates_of_spdm (fun _ _ => rfl) fun _ => Iff.rfl,
    negotiates_of_spdm (ok := fun p => p.algs && !p.secured) (fun _ _ => rfl) (by simp), responds_getMeasurements,
    fun m => ⟨rfl, rfl, fun i h => ?_⟩, negotiates_of_spdm (fun _ _ => rfl) fun _ => Iff.rfl,
    negotiates_of_spdm (ok := fun p => p.exchanged && !p.secured) (fun _ _ => rfl) (by simp), negotiates_of_spdm (fun _ _ => rfl) fun _ => Iff.rfl,
    fun s buf => responds_of_respond rfl rfl, fun s buf key => ?_⟩
  · unfold measureOf
    rw [if_neg (by omega), if_neg (by omega)]
  · simpa only [keyAccepted_iff] using responds_memoryKeyInstall s buf key

end Sys2Proof.Machine
end

section
/-! SUPPORT. The host's registers (R415, R438): what reading one returns, and what a write does at each offset of the aperture. -/

namespace Sys2Proof.Machine

/-! ### Reading a register -/

/-- The registers with an offset of their own, and what each reads as (R251, R274, R333, R388, R418, R421, R428, R429). -/
def namedRegs : List (Nat × (State → DWord)) :=
  [(0, fun _ => devId), (0x40000, fun s => s.sched.gimg), (0x40018, fun s => s.sched.trigseq), (0x40020, fun s => s.sched.cpool),
    (0x40028, fun s => s.sched.gcbarea), (0x50000, fun s => s.res.l2cfg), (0x50008, fun s => s.res.hrpool0),
    (0x50010, fun s => s.res.hrpool1), (0x60000, fun s => s.host.trapvec), (0x60008, fun s => s.host.trapdlv),
    (0x60010, fun s => s.host.ctxarea), (0x60018, fun s => s.host.ctxva), (0x60020, fun s => s.host.astbase),
    (0x60028, fun s => s.host.fqbase), (0x60030, fun s => s.host.fqhead), (0x60038, fun s => s.host.fqtail),
    (0x60040, fun s => s.host.elogbase), (0x60048, fun s => s.host.eloghead), (0x60050, fun s => s.host.elogtail),
    (0x60058, fun s => s.host.eseq), (0x60060, fun s => s.host.ovfcnt), (0x60068, fun s => s.host.firsterr0),
    (0x60070, fun s => s.host.firsterr1), (0x70000, fun s => s.vx.cfg), (0x70008, fun s => s.vx.lrec), (0x70010, fun s => s.vx.asid),
    (0x80000, fun s => s.host.srbase), (0x80008, fun s => s.host.srarg), (0x80010, fun s => s.host.srhead),
    (0x80018, fun s => s.host.srtail), (0x80020, fun s => s.host.srahead), (0x80028, fun s => s.host.sratail),
    (0x90000, fun s => s.host.svcfg), (0xA0008, fun s => s.mgmt.mbxrsp), (0xA0010, fun s => BitVec.ofNat 64 s.mgmt.pcap),
    (0xA0018, fun s => BitVec.ofNat 64 s.mgmt.clk)]

/-- What an offset without a register of its own reads as: GSTAT, ECNT, PWIN, or 0 (R279, R388, R415, R417). -/
def tableReg (s : State) (off : Nat) : DWord :=
  if off % 8 ≠ 0 then 0
  else if 0x40800 ≤ off ∧ off < 0x41000 then BitVec.ofNat 64 (gstat (s.sched.graphs.getD ((off - 0x40800) / 8) GraphSlot.empty))
  else if 0x61000 ≤ off ∧ off < 0x61000 + 8 * 816 then ecntOf s ((off - 0x61000) / 8)
  else if 0x98000 ≤ off ∧ off < 0x98800 then s.host.pwin.getD ((off - 0x98000) / 8) 0
  else 0

/-- A read finds the register with the offset, or else a table's entry. -/
theorem readReg_eq (s : State) (off : Nat) :
    readReg s off = ((namedRegs.find? fun r => r.1 == off).map fun r => r.2 s).getD (tableReg s off) := by
  unfold readReg
  split
  case h_37 =>
    have hn : namedRegs.find? (fun r => r.1 == off) = none := by
      simp only [namedRegs, List.find?_eq_none, List.forall_mem_cons, beq_iff_eq]
      simp_all [eq_comm]
    rw [hn]
    rfl
  all_goals rfl

/-- Reads of two states agree but at one offset, where every register with another offset and every table entry agrees. -/
theorem readReg_congr_except {s t : State} {off : Nat} (hn : ∀ r ∈ namedRegs, r.1 ≠ off → r.2 t = r.2 s)
    (ht : ∀ x, x ≠ off → tableReg t x = tableReg s x) : ∀ x, x ≠ off → readReg t x = readReg s x := by
  intro x hx
  rw [readReg_eq, readReg_eq, ht x hx]
  cases hf : namedRegs.find? fun r => r.1 == x with
  | none => rfl
  | some r =>
    have he : r.1 = x := by simpa using List.find?_some hf
    simp only [Option.map_some, hn r (List.mem_of_find?_eq_some hf) (he ▸ hx)]

/-- An offset that is no multiple of 8, or unassigned, reads as zero (R415). -/
theorem readReg_unassigned (s : State) {off : Nat} (h : assigned off = false) : readReg s off = 0 := by
  have hall : ∀ r ∈ namedRegs, assigned r.1 = true := by decide
  have hn : namedRegs.find? (fun r => r.1 == off) = none := by
    rw [List.find?_eq_none]
    intro r hr he
    have := hall r hr
    rw [show r.1 = off by simpa using he, h] at this
    cases this
  have ht : tableReg s off = 0 := by
    unfold tableReg
    simp only [assigned, Bool.and_eq_false_iff, Bool.or_eq_false_iff, beq_eq_false_iff_ne, decide_eq_false_iff_not] at h
    split
    · rfl
    · rw [if_neg (by omega), if_neg (by omega), if_neg (by omega)]
  rw [readReg_eq, hn, ht]
  rfl

/-! ### Writing a register -/

/-- The offsets whose writes are events of their own (R251, R274, R388, R418, R421). -/
def eventOffsets : List Nat := [0x40008, 0x40010, 0x60038, 0x60070, 0x70000, 0x80018, 0x80030, 0x90008, 0x90010]

/-- What the effect of a register write makes of the state (R415, R438). -/
def writtenTo (s : State) (off : Nat) (v : DWord) : Option Written → State
  | none => refuseWrite s 0 off v
  | some .ignored => s
  | some .refused => refuseWrite s 0 off v
  | some (.done t) => t

@[simp] theorem writtenTo_none (s : State) (off : Nat) (v : DWord) : writtenTo s off v none = refuseWrite s 0 off v := rfl
@[simp] theorem writtenTo_ignored (s : State) (off : Nat) (v : DWord) : writtenTo s off v (some .ignored) = s := rfl
@[simp] theorem writtenTo_refused (s : State) (off : Nat) (v : DWord) :
    writtenTo s off v (some .refused) = refuseWrite s 0 off v := rfl
@[simp] theorem writtenTo_done (s : State) (off : Nat) (v : DWord) (t : State) : writtenTo s off v (some (.done t)) = t := rfl

/-- What a write at an aligned offset without an event of its own does. -/
theorem exec_registerWrite {s : State} {off : Nat} (v : DWord) (hl : lostLink s = none) (he : off ∉ eventOffsets) (h8 : off % 8 = 0) :
    exec (.registerWrite off v) s = .next (writtenTo s off v (writeReg s off v)) := by
  simp only [eventOffsets, List.mem_cons, List.not_mem_nil, or_false, not_or] at he
  change overLink s _ = _
  rw [overLink_up hl]
  simp only [he, h8, false_and, if_false, ne_eq, not_true_eq_false]
  generalize writeReg s off v = w
  cases w with
  | none => rfl
  | some w => cases w <;> rfl

/-- The offsets that `writeLow`, `writeMid` and `writeHigh` name. -/
def lowOffsets : List Nat := [0, 0x40000, 0x40008, 0x40018, 0x40020, 0x40028, 0x50000, 0x50008, 0x50010]
def midOffsets : List Nat :=
  [0x60000, 0x60008, 0x60010, 0x60018, 0x60020, 0x60028, 0x60030, 0x60040, 0x60048, 0x60050, 0x60058, 0x60060, 0x60068, 0x70008, 0x70010]
def highOffsets : List Nat := [0x80000, 0x80008, 0x80010, 0x80020, 0x80028, 0x90000, 0xA0000, 0xA0008, 0xA0010, 0xA0018]

/-- A write at an offset that is not named reaches GSTAT, ECNT or PWIN, or no register. -/
theorem writeLow_other (s : State) (v : DWord) {off : Nat} (h : off ∉ lowOffsets) :
    writeLow s off v = if 0x40800 ≤ off ∧ off < 0x41000 then some .ignored else none := by
  unfold writeLow
  split
  case h_10 => rfl
  all_goals exact absurd (by decide) h

theorem writeMid_other (s : State) (v : DWord) {off : Nat} (h : off ∉ midOffsets) :
    writeMid s off v = if 0x61000 ≤ off ∧ off < 0x61000 + 8 * 816 then some .ignored else none := by
  unfold writeMid
  split
  case h_16 => rfl
  all_goals exact absurd (by decide) h

theorem writeHigh_other (s : State) (v : DWord) {off : Nat} (h : off ∉ highOffsets) :
    writeHigh s off v = if 0x98000 ≤ off ∧ off < 0x98800 then
      some (lockedWrite false (bitsOf v.toNat 10 53 != 0) { s with host := { s.host with pwin := s.host.pwin.set ((off - 0x98000) / 8) v } })
    else none := by
  simp only [writeHigh]
  split
  case h_11 => rfl
  all_goals exact absurd (by decide) h

/-- What a register write leaves: the teams, the memory side and the gangs. -/
def OnlyRegisters (s t : State) : Prop := t.team = s.team ∧ t.others = s.others ∧ t.ms = s.ms ∧ t.gangs = s.gangs

/-- A register whose writes are `lockedWrite` of a check of their own keeps what its state says and leaves every other register (R415,
R438). -/
theorem register_of_lockedWrite {off : Nat} {lock : State → Bool} {bad : Nat → Prop} {keep : State → DWord → DWord} (odd : DWord → Bool)
    (put : State → DWord → State) (hb : ∀ v, odd v = true ↔ bad v.toNat)
    (hk : ∀ s v, s.host.pwin.length = 256 → ¬bad v.toNat → readReg (put s v) off = keep s v := by exact fun _ _ _ _ => rfl)
    (hx : ∀ s v x, x ≠ off → readReg (put s v) x = readReg s x := by
      exact fun _ _ => readReg_congr_except (by simp [namedRegs]) fun _ _ => rfl)
    (hw : ∀ s v, writeReg s off v = some (lockedWrite (lock s) (odd v) (put s v)) := by exact fun _ _ => rfl)
    (hf : ∀ s v, OnlyRegisters s (put s v) := by exact fun _ _ => ⟨rfl, rfl, rfl, rfl⟩)
    (he : off ∉ eventOffsets := by decide) (h8 : off % 8 = 0 := by decide) : Register off lock bad keep := by
  intro s v hp hl
  rw [exec_registerWrite v hl he h8, hw]
  refine ⟨fun h => by simp [lockedWrite, h], fun h hv => by simp [lockedWrite, h, (hb v).mpr hv], fun h hv => ?_⟩
  have ho : odd v = false := by rw [← Bool.not_eq_true, hb]; exact hv
  refine ⟨put s v, ?_, hk s v hp hv, hx s v, hf s v⟩
  rw [exec_registerWrite v hl he h8, hw]
  simp [lockedWrite, h, ho]

/-- A field of a word, by division. -/
theorem bitsOf_eq (x lo n : Nat) : bitsOf x lo n = x / 2 ^ lo % 2 ^ n := by
  rw [bitsOf, Nat.shiftRight_eq_div_pow]

/-- Sizes outside their range (R438). -/
theorem sizeOk_eq_false (n lo hi : Nat) : sizeOk n lo hi = false ↔ OddSize n lo hi := by
  simp only [sizeOk, OddSize, Bool.or_eq_false_iff, beq_eq_false_iff_ne, Bool.and_eq_false_iff, decide_eq_false_iff_not, not_le]

/-- A base register with a size code in bits [4:0] and reserved bits [11:5]. -/
theorem odd_base_iff (x lo hi : Nat) : (bitsOf x 5 7 != 0 || !sizeOk (bitsOf x 0 5) lo hi) = true ↔
    x / 32 % 128 ≠ 0 ∨ OddSize (x % 32) lo hi := by
  rw [Bool.or_eq_true, bne_iff_ne, Bool.not_eq_true', sizeOk_eq_false, bitsOf_eq, bitsOf_eq]
  simp

/-- A register with reserved bits in one field. -/
theorem odd_field_iff (x lo n : Nat) : (bitsOf x lo n != 0) = true ↔ x / 2 ^ lo % 2 ^ n ≠ 0 := by
  rw [bne_iff_ne, bitsOf_eq]

/-- A check that a register does not make. -/
theorem odd_never : ∀ _ : DWord, (false = true) ↔ False := fun _ => by simp

/-- VXASID's check: bits above the address space's number (R251). -/
theorem odd_asid_iff (v : DWord) : (bitsOf v.toNat 16 48 != 0) = true ↔ v.toNat / 2 ^ 16 ≠ 0 := by
  have := v.isLt
  rw [odd_field_iff]
  omega

/-- SVCFG's check: reserved bits, a size outside its range, and EN without a size (R421, log 74). -/
theorem odd_svcfg_iff (x : Nat) : (bitsOf x 8 4 != 0 || bitsOf x 1 3 != 0 || !sizeOk (bitsOf x 4 4) 6 15
      || (bitsOf x 0 1 == 1 && bitsOf x 4 4 == 0)) = true ↔
    x / 256 % 16 ≠ 0 ∨ x / 2 % 8 ≠ 0 ∨ OddSize (x / 16 % 16) 6 15 ∨ (x % 2 = 1 ∧ x / 16 % 16 = 0) := by
  simp only [Bool.or_eq_true, bne_iff_ne, Bool.not_eq_true', sizeOk_eq_false, bitsOf_eq, Bool.and_eq_true, beq_iff_eq]
  norm_num [or_assoc]

/-- PCAP's check: a value outside 600 to 1,800, reserved bits among it (R429). -/
theorem odd_pcap_iff (v : DWord) : (bitsOf v.toNat 11 53 != 0 || decide (bitsOf v.toNat 0 11 < 600) || decide (1800 < bitsOf v.toNat 0 11)) = true
    ↔ v.toNat < 600 ∨ 1800 < v.toNat := by
  have := v.isLt
  simp only [Bool.or_eq_true, bne_iff_ne, decide_eq_true_eq, bitsOf_eq]
  omega

/-- A power cap within its range reads back (R429). -/
theorem pcap_kept {v : DWord} (h : ¬(v.toNat < 600 ∨ 1800 < v.toNat)) : BitVec.ofNat 64 (bitsOf v.toNat 0 11) = v := by
  rw [bitsOf_eq, Nat.pow_zero, Nat.div_one, Nat.mod_eq_of_lt (by omega), BitVec.ofNat_toNat, BitVec.setWidth_eq]

/-! ### The peer windows (R417) -/

/-- No peer window's offset is a register's of the scheduler, the L2, R388 or R251. -/
theorem writeReg_pwin_high (s : State) {off : Nat} (v : DWord) (h : 0x98000 ≤ off ∧ off < 0x98800) : writeReg s off v = writeHigh s off v := by
  have hall : ∀ o ∈ lowOffsets ++ midOffsets, o < 0x98000 := by decide
  have hn : off ∉ lowOffsets ++ midOffsets := fun hm => by have := hall off hm; omega
  rw [List.mem_append, not_or] at hn
  unfold writeReg
  rw [writeLow_other s v hn.1, if_neg (by omega)]
  simp only
  rw [writeMid_other s v hn.2, if_neg (by omega)]

/-- A write of a peer window's register. -/
theorem writeReg_pwin (s : State) {w : Nat} (hw : w < 256) (v : DWord) : writeReg s (0x98000 + 8 * w) v =
    some (lockedWrite false (bitsOf v.toNat 10 53 != 0) { s with host := { s.host with pwin := s.host.pwin.set w v } }) := by
  have hall : ∀ o ∈ highOffsets, o < 0x98000 ∨ 0x98800 ≤ o := by decide
  have hn : 0x98000 + 8 * w ∉ highOffsets := fun hm => by have := hall _ hm; omega
  rw [writeReg_pwin_high s v (by omega), writeHigh_other s v hn, if_pos (by omega), show (0x98000 + 8 * w - 0x98000) / 8 = w by omega]

/-- A peer window's register reads as the window. -/
theorem readReg_pwin (s : State) {w : Nat} (hw : w < 256) : readReg s (0x98000 + 8 * w) = s.host.pwin.getD w 0 := by
  have hn : namedRegs.find? (fun r => r.1 == 0x98000 + 8 * w) = none := by
    have hall : ∀ r ∈ namedRegs, r.1 < 0x98000 ∨ 0x98800 ≤ r.1 := by decide
    rw [List.find?_eq_none]
    intro r hr he
    have := hall r hr
    rw [beq_iff_eq] at he
    omega
  rw [readReg_eq, hn]
  simp only [Option.map_none, Option.getD_none, tableReg]
  rw [if_neg (by omega), if_neg (by omega), if_neg (by omega), if_pos (by omega), show (0x98000 + 8 * w - 0x98000) / 8 = w by omega]

/-- Each of the 256 peer windows keeps its register and leaves the others (R417). -/
theorem register_pwin {w : Nat} (hw : w < 256) : Register (0x98000 + 8 * w) (fun _ => false) (fun x => x / 2 ^ 10 % 2 ^ 53 ≠ 0) fun _ v => v := by
  refine register_of_lockedWrite (fun v => bitsOf v.toNat 10 53 != 0) (fun s v => { s with host := { s.host with pwin := s.host.pwin.set w v } })
    (fun v => odd_field_iff v.toNat 10 53) ?_ ?_ (fun s v => writeReg_pwin s hw v) (he := ?_) (h8 := by omega)
  · intro s v hp _
    rw [readReg_pwin _ hw]
    simp [List.getD_eq_getElem?_getD, hp, hw]
  · intro s v
    refine readReg_congr_except (by simp [namedRegs]) fun x hx => ?_
    unfold tableReg
    by_cases hp : x % 8 = 0 ∧ 0x98000 ≤ x ∧ x < 0x98800
    · have hne : w ≠ (x - 0x98000) / 8 := by omega
      simp [List.getD_eq_getElem?_getD, hne, ecntOf]
    · split
      · rfl
      · simp only [if_neg (show ¬(0x98000 ≤ x ∧ x < 0x98800) by omega)]
        rfl
  · simp only [eventOffsets, List.mem_cons, List.not_mem_nil, or_false]
    omega

end Sys2Proof.Machine
end

section
/-! SUPPORT. The host's register writes, one statement for each family of offsets (R8, R251, R274, R333, R388, R397, R414 to R418, R421,
R429, R438). -/

namespace Sys2Proof.Machine

/-! ### Pools and L2CFG (R332, R333) -/

/-- Noting a pool outside its memory changes no register but the log's. -/
theorem notePool_fit {s : State} {off : Nat} {v : DWord} {hbm : Bool} (h : poolAstray v hbm = false) : notePool s off v hbm = s := by
  simp [notePool, h]

theorem notePool_astray {s : State} {off : Nat} {v : DWord} {hbm : Bool} (h : poolAstray v hbm = true) :
    notePool s off v hbm = refuseWrite s 0 off v := by
  simp [notePool, h]

/-- Noting a pool leaves the pools. -/
theorem notePool_res (s : State) (off : Nat) (v : DWord) (hbm : Bool) : (notePool s off v hbm).res = s.res := by
  unfold notePool
  split <;> rfl

/-- A pool register: one of two, which the other grids lock; the pool is noted where it does not lie in its memory. -/
theorem poolRegister_of_put {off : Nat} {hbm : Bool} {old : State → DWord} (put : State → DWord → State) (he : off ∉ eventOffsets)
    (h8 : off % 8 = 0) (hw : ∀ s v, writeReg s off v = some (lockedWrite (otherGridLive s) false (put (notePool s off v hbm) v)))
    (hold : ∀ s, readReg s off = old s) (hk : ∀ s v, readReg (put s v) off = v)
    (hx : ∀ s v x, x ≠ off → readReg (put s v) x = readReg s x) (hf : ∀ s v, OnlyRegisters s (put s v))
    (hh : ∀ s v, (put s v).host = s.host) (hp : ∀ s x v, x = 0x50008 ∨ x = 0x50010 → readReg (refuseWrite s 0 off v) x = readReg s x) :
    PoolRegister off hbm old := by
  intro s v hl
  rw [exec_registerWrite v hl he h8, hw]
  refine ⟨fun h => by simp [lockedWrite, h], fun h => ⟨put (notePool s off v hbm) v, ?_, hk _ v, fun ha => ?_, fun ha => ?_, fun x hn hx' => ?_,
    ?_, ?_⟩, hold s⟩
  · rw [exec_registerWrite v hl he h8, hw]
    simp [lockedWrite, h]
  · rw [notePool_fit ha]
    exact ⟨hx s v, (hf s v).2.2.1⟩
  · rw [notePool_astray ha]
    exact ⟨hh _ v, (hf _ v).2.2.1⟩
  · rw [hx _ v x hn]
    unfold notePool
    split
    · exact hp s x v hx'
    · rfl
  · unfold notePool
    split <;> exact (hf _ v).1
  · unfold notePool
    split <;> exact (hf _ v).2.1

theorem poolRegister_hrpool0 : PoolRegister 0x50008 false fun s => s.res.hrpool0 :=
  poolRegister_of_put (fun s v => { s with res := { s.res with hrpool0 := v } }) (by decide) (by decide)
    (fun _ _ => by simp only [notePool_res]; rfl) (fun _ => rfl)
    (fun _ _ => rfl) (fun _ _ => readReg_congr_except (by simp [namedRegs]) fun _ _ => rfl) (fun _ _ => ⟨rfl, rfl, rfl, rfl⟩)
    (fun _ _ => rfl) (by rintro s x v (rfl | rfl) <;> rfl)

theorem poolRegister_hrpool1 : PoolRegister 0x50010 true fun s => s.res.hrpool1 :=
  poolRegister_of_put (fun s v => { s with res := { s.res with hrpool1 := v } }) (by decide) (by decide)
    (fun _ _ => by simp only [notePool_res]; rfl) (fun _ => rfl)
    (fun _ _ => rfl) (fun _ _ => readReg_congr_except (by simp [namedRegs]) fun _ _ => rfl) (fun _ _ => ⟨rfl, rfl, rfl, rfl⟩)
    (fun _ _ => rfl) (by rintro s x v (rfl | rfl) <;> rfl)

/-- Sectors flushed in order leave every committed byte as it was. -/
theorem flushes_moves (v : L2View) (xs : List Sector) {ms : MemSide} (h : Coherent ms) : Moves ms (xs.foldl (flushSector v) ms) := by
  induction xs generalizing ms with
  | nil => exact Moves.refl h
  | cons x xs ih =>
    have h1 := flushSector_moves v h x
    exact h1.trans (ih h1.coherent)

/-- What L2CFG holds after a write that sets no reserved bit: FARWAYS 7 keeps the old FARWAYS (R333). -/
theorem l2cfg_kept (v old : DWord) (h : ¬(v.toNat / 2 ^ 17 ≠ 0 ∨ v.toNat / 8 % 32 ≠ 0 ∨ 256 < v.toNat / 256 % 512)) :
    BitVec.ofNat 64 (bitsOf v.toNat 8 9 * 256 + if bitsOf v.toNat 0 3 = 7 then bitsOf old.toNat 0 3 else bitsOf v.toNat 0 3)
      = if v.toNat % 8 = 7 then BitVec.ofNat 64 (v.toNat / 256 * 256 + old.toNat % 8) else v := by
  have h9 : bitsOf v.toNat 8 9 = v.toNat / 256 := by rw [bitsOf_eq]; omega
  have h3 : ∀ x : DWord, bitsOf x.toNat 0 3 = x.toNat % 8 := fun x => by rw [bitsOf_eq]; omega
  rw [h9, h3, h3]
  split
  · rfl
  · have : v.toNat / 256 * 256 + v.toNat % 8 = v.toNat := by omega
    rw [this, BitVec.ofNat_toNat, BitVec.setWidth_eq]

theorem l2Register : L2Register := by
  intro s v hl bad
  have hw : writeReg s 0x50000 v = some (lockedWrite (otherGridLive s)
      (bitsOf v.toNat 17 47 != 0 || bitsOf v.toNat 3 5 != 0 || decide (256 < bitsOf v.toNat 8 9)) (writeL2cfg s v)) := rfl
  have hb : (bitsOf v.toNat 17 47 != 0 || bitsOf v.toNat 3 5 != 0 || decide (256 < bitsOf v.toNat 8 9)) = true ↔ bad := by
    have := v.isLt
    simp only [Bool.or_eq_true, bne_iff_ne, decide_eq_true_eq, bitsOf_eq, bad]
    omega
  rw [exec_registerWrite v hl (by decide) (by decide), hw]
  refine ⟨fun h => by simp [lockedWrite, h], fun h hv => by simp only [lockedWrite, h, hb.mpr hv]; rfl, fun h hv =>
    ⟨writeL2cfg s v, ?_, l2cfg_kept v s.res.l2cfg hv, rfl, fun hc k a hr hk hk' => ?_⟩⟩
  · have ho : (bitsOf v.toNat 17 47 != 0 || bitsOf v.toNat 3 5 != 0 || decide (256 < bitsOf v.toNat 8 9)) = false := by
      rw [← Bool.not_eq_true, hb]; exact hv
    rw [exec_registerWrite v hl (by decide) (by decide), hw]
    simp only [lockedWrite, h, ho]
    rfl
  · exact (flushes_moves _ _ hc).commByteK hc hr hk hk'

/-! ### Writes that are events of their own -/

theorem exec_firsterrClear {s : State} (v : DWord) (hl : lostLink s = none) : exec (.firsterrClear v) s =
    if bitsOf v.toNat 48 15 ≠ 0 then .next (refuseWrite s 0 0x60070 v)
    else if v.getLsbD 63 then .next { s with host := { s.host with firsterr0 := 0, firsterr1 := 0 } }
    else .next { s with host := { s.host with firsterr1 := s.host.firsterr1 &&& ~~~v } } := overLink_up hl _

/-- The writes of FIRSTERR1, FQTAIL and SRTAIL (R388, R397, R418). -/
theorem register_events (s : State) (v : DWord) (hl : lostLink s = none) :
    (bitsOf v.toNat 48 15 = 0 → v.getLsbD 63 = true → Answers (.firsterrClear v) s fun t => readReg t 0x60068 = 0 ∧ readReg t 0x60070 = 0
      ∧ t = { s with host := { s.host with firsterr0 := t.host.firsterr0, firsterr1 := t.host.firsterr1 } })
    ∧ (bitsOf v.toNat 48 15 = 0 → v.getLsbD 63 = false → Answers (.firsterrClear v) s fun t =>
        (∀ i, i < 64 → (readReg t 0x60070).getLsbD i = ((readReg s 0x60070).getLsbD i && !v.getLsbD i))
        ∧ t = { s with host := { s.host with firsterr1 := t.host.firsterr1 } })
    ∧ (bitsOf v.toNat 48 15 ≠ 0 → exec (.firsterrClear v) s = .next (refuseWrite s 0 0x60070 v))
    ∧ (Answers (.fqtailWrite v) s fun t => readReg t 0x60038 = v ∧ t = { s with host := { s.host with fqtail := t.host.fqtail } })
    ∧ (Answers (.srtailWrite v) s fun t => readReg t 0x80018 = v ∧ t = { s with host := { s.host with srtail := t.host.srtail } }) := by
  refine ⟨fun h0 h1 => ⟨{ s with host := { s.host with firsterr0 := 0, firsterr1 := 0 } }, ?_, rfl, rfl, rfl⟩, fun h0 h1 => ⟨{ s with host := { s.host with firsterr1 := s.host.firsterr1 &&& ~~~v } }, ?_, ?_, rfl⟩,
    fun h0 => ?_, ⟨{ s with host := { s.host with fqtail := v } }, overLink_up hl _, rfl, rfl⟩,
    ⟨{ s with host := { s.host with srtail := v } }, overLink_up hl _, rfl, rfl⟩⟩
  · rw [exec_firsterrClear v hl, if_neg (not_not.mpr h0), if_pos h1]
  · rw [exec_firsterrClear v hl, if_neg (not_not.mpr h0), if_neg (by rw [h1]; exact Bool.false_ne_true)]
  · intro i hi
    change (s.host.firsterr1 &&& ~~~v).getLsbD i = (s.host.firsterr1.getLsbD i && !v.getLsbD i)
    simp [hi]
  · rw [exec_firsterrClear v hl, if_pos h0]

/-- Over a link that cannot deliver no register write has an effect (R414). -/
theorem register_writes_lost (s : State) (v : DWord) (off : Nat) (i : Instr) (hl : (lostLink s).isSome = true)
    (hi : i ∈ [.registerWrite off v, .graphUpload v, .graphRemove v, .trigger v, .vxcfgEnable v, .vxcfgDisable v, .firsterrClear v,
      .fqtailWrite v, .srtailWrite v, .srcomp v, .svcmdOpen v, .svcmdClose v, .svdrain v]) :
    exec i s = .next { s with host := { s.host with answer := [] } } := by
  simp only [List.mem_cons, List.not_mem_nil, or_false] at hi
  rcases hi with rfl | rfl | rfl | rfl | rfl | rfl | rfl | rfl | rfl | rfl | rfl | rfl | rfl <;> exact overLink_lost hl _

/-! ### Offsets without an effect -/

/-- A register that the host only reads ignores a write. -/
theorem writeReg_readOnly (s : State) (v : DWord) {off : Nat} (h : hostReadOnly off = true) : writeReg s off v = some .ignored := by
  simp only [hostReadOnly, Bool.and_eq_true, Bool.or_eq_true, List.contains_iff_mem, List.mem_cons, List.not_mem_nil, or_false, beq_iff_eq,
    decide_eq_true_eq] at h
  obtain ⟨-, (h | h) | h⟩ := h
  · rcases h with rfl | rfl | rfl | rfl | rfl | rfl | rfl | rfl | rfl | rfl | rfl | rfl | rfl <;> rfl
  · have hall : ∀ o ∈ lowOffsets, o < 0x40800 ∨ 0x41000 ≤ o := by decide
    have hn : off ∉ lowOffsets := fun hm => by have := hall off hm; omega
    unfold writeReg
    rw [writeLow_other s v hn, if_pos h]
  · have hall : ∀ o ∈ lowOffsets ++ midOffsets, o < 0x61000 ∨ 0x62980 ≤ o := by decide
    have hn : off ∉ lowOffsets ++ midOffsets := fun hm => by have := hall off hm; omega
    rw [List.mem_append, not_or] at hn
    unfold writeReg
    rw [writeLow_other s v hn.1, if_neg (by omega), writeMid_other s v hn.2, if_pos (by omega)]

/-- No register stands at an unassigned offset. -/
theorem writeReg_unassigned (s : State) (v : DWord) {off : Nat} (h : assigned off = false) (h8 : off % 8 = 0) : writeReg s off v = none := by
  have hall : ∀ o ∈ lowOffsets ++ midOffsets ++ highOffsets, assigned o = true := by decide
  have hn : off ∉ lowOffsets ++ midOffsets ++ highOffsets := fun hm => by rw [hall off hm] at h; cases h
  simp only [List.mem_append, not_or] at hn
  obtain ⟨⟨hl, hm⟩, hh⟩ := hn
  simp only [assigned, h8, beq_self_eq_true, Bool.true_and, Bool.or_eq_false_iff, decide_eq_false_iff_not] at h
  unfold writeReg
  rw [writeLow_other s v hl, if_neg (by omega), writeMid_other s v hm, if_neg (by omega)]
  simp only
  rw [writeHigh_other s v hh, if_neg (by omega)]

/-- Every assigned offset that is no event's is a multiple of 8; an event's offset is assigned, and the host may write there. -/
theorem not_event_of_unassigned {off : Nat} (h : assigned off = false) : off ∉ eventOffsets := fun hm => by
  have hall : ∀ o ∈ eventOffsets, assigned o = true := by decide
  rw [hall off hm] at h
  cases h

theorem not_event_of_readOnly {off : Nat} (h : hostReadOnly off = true) : off ∉ eventOffsets := fun hm => by
  have hall : ∀ o ∈ eventOffsets, hostReadOnly o = false := by decide
  rw [hall off hm] at h
  cases h

/-- A write at an unassigned offset is refused (R415). -/
theorem exec_registerWrite_unassigned {s : State} {off : Nat} (v : DWord) (hl : lostLink s = none) (h : assigned off = false) :
    exec (.registerWrite off v) s = .next (refuseWrite s 0 off v) := by
  by_cases h8 : off % 8 = 0
  · rw [exec_registerWrite v hl (not_event_of_unassigned h) h8, writeReg_unassigned s v h h8, writtenTo_none]
  · have he := not_event_of_unassigned h
    simp only [eventOffsets, List.mem_cons, List.not_mem_nil, or_false, not_or] at he
    change overLink s _ = _
    rw [overLink_up hl]
    simp [he, h8]

/-- What a write does at the offsets whose writes are events, at those the host only reads, and at those that are unassigned (R8, R415). -/
theorem registerWrite_dispatch (s : State) (v : DWord) (off : Nat) (hl : lostLink s = none) : let w := exec (.registerWrite off v) s
    (off = 0x40008 → bitsOf v.toNat 10 2 = 1 → w = exec (.graphUpload v) s)
    ∧ (off = 0x40008 → bitsOf v.toNat 10 2 = 2 → w = exec (.graphRemove v) s)
    ∧ (off = 0x40008 → bitsOf v.toNat 10 2 % 3 = 0 → w = .next (refuseWrite s schedSource off v))
    ∧ (off = 0x40010 → w = exec (.trigger v) s) ∧ (off = 0x60038 → w = exec (.fqtailWrite v) s)
    ∧ (off = 0x60070 → w = exec (.firsterrClear v) s) ∧ (off = 0x70000 → w = exec (.vxcfgDisable v) s)
    ∧ (off = 0x80018 → w = exec (.srtailWrite v) s) ∧ (off = 0x80030 → w = exec (.srcomp v) s)
    ∧ (off = 0x90008 → w = exec (.svcmdOpen v) s) ∧ (off = 0x90010 → w = exec (.svdrain v) s)
    ∧ (hostReadOnly off = true → w = .next s)
    ∧ (assigned off = false → w = .next (refuseWrite s 0 off v) ∧ readReg s off = 0) := by
  refine ⟨?_, ?_, ?_, ?_, ?_, ?_, ?_, ?_, ?_, ?_, ?_, fun h => ?_, fun h => ⟨exec_registerWrite_unassigned v hl h, readReg_unassigned s h⟩⟩
  · rintro rfl h
    exact (overLink_up hl _).trans (if_pos ⟨rfl, h⟩)
  · rintro rfl h
    refine (overLink_up hl _).trans ?_
    rw [if_neg (by omega), if_pos ⟨rfl, h⟩]
    rfl
  · rintro rfl h
    refine (overLink_up hl _).trans ?_
    rw [if_neg (by omega), if_neg (by omega)]
    rfl
  case refine_12 =>
    have h8 : off % 8 = 0 := by
      simp only [hostReadOnly, Bool.and_eq_true, beq_iff_eq] at h
      exact h.1
    rw [exec_registerWrite v hl (not_event_of_readOnly h) h8, writeReg_readOnly s v h, writtenTo_ignored]
  all_goals
    rintro rfl
    exact overLink_up hl _

/-! ### The registers with a rule of their own -/

theorem register_gimg : Register 0x40000 (fun _ => false) (fun x => x % 256 ≠ 0) (fun _ v => v) :=
  register_of_lockedWrite (fun v => bitsOf v.toNat 0 8 != 0) (fun s v => { s with sched := { s.sched with gimg := v } })
    (fun v => by simpa using odd_field_iff v.toNat 0 8)

theorem register_cpool : Register 0x40020 otherGridLive (fun _ => False) (fun _ v => v) :=
  register_of_lockedWrite (fun _ => false) (fun s v => { s with sched := { s.sched with cpool := v } })
    odd_never

theorem register_gcbarea : Register 0x40028 otherGridLive (fun x => x / 2 ^ 15 % 32 ≠ 0) (fun _ v => v) :=
  register_of_lockedWrite (fun v => bitsOf v.toNat 15 5 != 0) (fun s v => { s with sched := { s.sched with gcbarea := v } })
    (fun v => odd_field_iff v.toNat 15 5)

theorem register_trapvec : Register 0x60000 otherGridLive (fun x => x / 2 % 2 ≠ 0) (fun _ v => v) :=
  register_of_lockedWrite (fun v => bitsOf v.toNat 1 1 != 0) (fun s v => { s with host := { s.host with trapvec := v } })
    (fun v => by simpa using odd_field_iff v.toNat 1 1)

theorem register_trapdlv : Register 0x60008 otherGridLive (fun _ => False) (fun _ v => v &&& 0x5FFFE) :=
  register_of_lockedWrite (fun _ => false) (fun s v => { s with host := { s.host with trapdlv := v &&& 0x5FFFE } })
    odd_never

theorem register_ctxarea : Register 0x60010 otherGridLive (fun x => x / 2 ^ 14 % 128 ≠ 0) (fun _ v => v) :=
  register_of_lockedWrite (fun v => bitsOf v.toNat 14 7 != 0) (fun s v => { s with host := { s.host with ctxarea := v } })
    (fun v => odd_field_iff v.toNat 14 7)

theorem register_ctxva : Register 0x60018 otherGridLive (fun x => x % 2 ^ 21 ≠ 0) (fun _ v => v) :=
  register_of_lockedWrite (fun v => bitsOf v.toNat 0 21 != 0) (fun s v => { s with host := { s.host with ctxva := v } })
    (fun v => by simpa using odd_field_iff v.toNat 0 21)

theorem register_astbase : Register 0x60020 otherGridLive (fun x => x % 2 ^ 21 ≠ 0) (fun _ v => v) :=
  register_of_lockedWrite (fun v => bitsOf v.toNat 0 21 != 0) (fun s v => { s with host := { s.host with astbase := v } })
    (fun v => by simpa using odd_field_iff v.toNat 0 21)

theorem register_fqbase : Register 0x60028 otherGridLive (fun x => x / 32 % 128 ≠ 0 ∨ OddSize (x % 32) 6 16) (fun _ v => v) :=
  register_of_lockedWrite (fun v => bitsOf v.toNat 5 7 != 0 || !sizeOk (bitsOf v.toNat 0 5) 6 16) (fun s v => { s with host := { s.host with fqbase := v } })
    (fun v => odd_base_iff v.toNat 6 16)

theorem register_elogbase : Register 0x60040 otherGridLive (fun x => x / 32 % 128 ≠ 0 ∨ OddSize (x % 32) 6 20) (fun _ v => v) :=
  register_of_lockedWrite (fun v => bitsOf v.toNat 5 7 != 0 || !sizeOk (bitsOf v.toNat 0 5) 6 20) (fun s v => { s with host := { s.host with elogbase := v } })
    (fun v => odd_base_iff v.toNat 6 20)

theorem register_elogtail : Register 0x60050 (fun _ => false) (fun _ => False) (fun _ v => v) :=
  register_of_lockedWrite (fun _ => false) (fun s v => { s with host := { s.host with elogtail := v } })
    odd_never

theorem register_lrec : Register 0x70008 vxOn (fun x => x % 256 ≠ 0) (fun _ v => v) :=
  register_of_lockedWrite (fun v => bitsOf v.toNat 0 8 != 0) (fun s v => { s with vx := { s.vx with lrec := v } })
    (fun v => by simpa using odd_field_iff v.toNat 0 8)

theorem register_asid : Register 0x70010 vxOn (fun x => x / 2 ^ 16 ≠ 0) (fun _ v => v) :=
  register_of_lockedWrite (fun v => bitsOf v.toNat 16 48 != 0) (fun s v => { s with vx := { s.vx with asid := v } })
    odd_asid_iff

theorem register_srbase : Register 0x80000 otherGridLive (fun x => x / 32 % 128 ≠ 0 ∨ OddSize (x % 32) 4 12) (fun _ v => v) :=
  register_of_lockedWrite (fun v => bitsOf v.toNat 5 7 != 0 || !sizeOk (bitsOf v.toNat 0 5) 4 12) (fun s v => { s with host := { s.host with srbase := v } })
    (fun v => odd_base_iff v.toNat 4 12)

theorem register_srarg : Register 0x80008 otherGridLive (fun x => x / 32 % 128 ≠ 0 ∨ OddSize (x % 32) 10 20) (fun _ v => v) :=
  register_of_lockedWrite (fun v => bitsOf v.toNat 5 7 != 0 || !sizeOk (bitsOf v.toNat 0 5) 10 20) (fun s v => { s with host := { s.host with srarg := v } })
    (fun v => odd_base_iff v.toNat 10 20)

theorem register_svcfg : Register 0x90000 (fun s => !s.host.openStreams.isEmpty)
    (fun x => x / 256 % 16 ≠ 0 ∨ x / 2 % 8 ≠ 0 ∨ OddSize (x / 16 % 16) 6 15 ∨ (x % 2 = 1 ∧ x / 16 % 16 = 0)) (fun _ v => v) :=
  register_of_lockedWrite (fun v => bitsOf v.toNat 8 4 != 0 || bitsOf v.toNat 1 3 != 0 || !sizeOk (bitsOf v.toNat 4 4) 6 15
      || (bitsOf v.toNat 0 1 == 1 && bitsOf v.toNat 4 4 == 0)) (fun s v => { s with host := { s.host with svcfg := v } })
    (fun v => odd_svcfg_iff v.toNat)

theorem register_pcap : Register 0xA0010 (fun _ => false) (fun x => x < 600 ∨ 1800 < x) (fun _ v => v) :=
  register_of_lockedWrite (fun v => bitsOf v.toNat 11 53 != 0 || decide (bitsOf v.toNat 0 11 < 600) || decide (1800 < bitsOf v.toNat 0 11))
    (fun s v => { s with mgmt := { s.mgmt with pcap := bitsOf v.toNat 0 11 } }) odd_pcap_iff fun _ _ _ h => pcap_kept h

/-- Settles O51: each register's own rule, then the writes that are events, a link that is lost, and the offsets without an effect. -/
theorem hostRegisters : Obligations.HostRegisters := by
  unfold Obligations.HostRegisters
  exact ⟨register_gimg, register_cpool, register_gcbarea, l2Register, poolRegister_hrpool0, poolRegister_hrpool1, register_trapvec,
    register_trapdlv, register_ctxarea, register_ctxva, register_astbase, register_fqbase, register_elogbase, register_elogtail,
    register_lrec, register_asid, register_srbase, register_srarg, register_svcfg, register_pcap, fun _ hw => register_pwin hw,
    register_events, register_writes_lost, registerWrite_dispatch⟩

end Sys2Proof.Machine
end

section
/-! SUPPORT. VXCFG (R251): the waves that an enabling write places, and those that a disabling one ends. -/

namespace Sys2Proof.Machine

/-! ### What reads of the scheduler leave (R313) -/

/-- Two states differ in the memory side and the host's registers at most. -/
def MsAndHost (s t : State) : Prop := ∃ ms h, t = { s with ms := ms, host := h }

theorem MsAndHost.refl (s : State) : MsAndHost s s := ⟨s.ms, s.host, rfl⟩

theorem MsAndHost.trans {s t u : State} (h : MsAndHost s t) (k : MsAndHost t u) : MsAndHost s u := by
  obtain ⟨m, a, rfl⟩ := h
  obtain ⟨n, b, rfl⟩ := k
  exact ⟨n, b, rfl⟩

/-- An event. -/
theorem logEvent_msAndHost (s : State) (kind src : Nat) (payload : List Byte) : MsAndHost s (logEvent s kind src payload) := ⟨s.ms, _, rfl⟩

/-- Soft errors that are corrected. -/
theorem correctGranules_msAndHost (s : State) (gs : List Nat) : MsAndHost s (correctGranules s gs) := by
  unfold correctGranules
  simp only
  generalize s.ms.ecc.filter (fun e => gs.contains e.1 && !e.2) = hits
  have h0 : MsAndHost s { s with ms := { s.ms with ecc := s.ms.ecc.filter fun e => !hits.contains e } } := ⟨_, s.host, rfl⟩
  generalize ({ s with ms := { s.ms with ecc := s.ms.ecc.filter fun e => !hits.contains e } } : State) = t at h0
  induction hits generalizing t with
  | nil => exact h0
  | cons x xs ih => exact ih _ (h0.trans (logEvent_msAndHost ..))

/-- A read of the scheduler. -/
theorem schedRead_msAndHost (s : State) (asid : Nat) (priv : Bool) (va : DWord) (n : Nat) : MsAndHost s (schedRead s asid priv va n).1 := by
  unfold schedRead
  split
  · unfold schedLoad
    simp only
    split
    · exact (correctGranules_msAndHost s _).trans (logEvent_msAndHost ..)
    · exact correctGranules_msAndHost s _
  · exact MsAndHost.refl s

/-- Reading the launch record of the waves. (The definition is unfolded as a function: the kernel, asked to compare its value with its body,
would compute the address space's entry first.) -/
theorem waveRecord_msAndHost {s q : State} {rec : Option (List DWord)} (h : waveRecord s = (q, rec)) : MsAndHost s q := by
  have hd : waveRecord = waveRecord := rfl
  conv at hd => rhs; delta waveRecord
  rw [hd] at h
  beta_reduce at h
  split at h
  · obtain ⟨rfl, -⟩ := Prod.mk.inj h
    exact MsAndHost.refl s
  · have h1 := schedRead_msAndHost s (bitsOf s.vx.asid.toNat 0 16) true s.vx.lrec 256
    have h2 := congrArg Prod.fst h
    rw [Prod.map_fst, id_eq] at h2
    rwa [h2] at h1

/-! ### A team at its entry (R88, R290) -/

/-- Words of a list beyond its end, and of one of zeros, read as zero. -/
theorem getD_replicate_zero {n k : Nat} {α : Type} (x : α) : (List.replicate n x).getD k x = x := by
  simp [List.getD_eq_getElem?_getD, List.getElem?_replicate]
  split <;> rfl

/-- The lanes of the entry mask (R30). -/
theorem entry_mask (pc : DWord) {n : Nat} (hn : n ≤ 1024) (L : Nat) : (Control.entry pc n).mask.getLsbD L = decide (L < n) := by
  change (BitVec.ofNat 1024 (2 ^ n - 1)).getLsbD L = _
  rw [BitVec.getLsbD_ofNat, Nat.testBit_two_pow_sub_one]
  by_cases h : L < n
  · simp [h, Nat.lt_of_lt_of_le h hn]
  · simp [h]

/-- The scalars past the first five are zero at the entry. -/
theorem entryScalars_zero (r : List DWord) (gang : Nat) {q : Nat} (h : 5 ≤ q) : (entryScalars r gang).getD q 0 = 0 := by
  unfold entryScalars
  rw [List.getD_append_right _ _ _ _ (by simpa using h)]
  exact getD_replicate_zero _

/-- A doubleword is the pair of its halves (R7). -/
theorem pairOf_halves (x : DWord) : pairOf (loHalf x) (hiHalf x) = x := by
  apply BitVec.eq_of_getLsbD_eq
  intro i hi
  simp only [pairOf, loHalf, hiHalf, BitVec.getLsbD_append, BitVec.getLsbD_extractLsb']
  by_cases h : i < 32
  · simp [h]
  · have h1 : i - 32 < 32 := by omega
    have h2 : 32 + (i - 32) = i := by omega
    simp [h, h1, h2]

/-- A ready, resident team with a record's registers and control state at the entry is fresh. -/
theorem fresh_of_entry {t : Team} {r : List DWord} {gang : Nat} (hn : recLanes r ≤ 1024) (hrf : t.rf = entryRegs r gang)
    (hctl : t.ctl = Control.entry (r.getD 0 0) (recLanes r)) (hw : t.wait = .ready) (hs : t.stage = .resident) : Fresh t r gang := by
  unfold Fresh
  have hv : ∀ q L, (t.rf.v.getD q []).getD L 0 = 0 := fun q L => by
    rw [hrf]
    change ((List.replicate (recRegs r) (List.replicate (recLanes r) (0 : Word))).getD q []).getD L 0 = 0
    by_cases hq : q < recRegs r
    · rw [List.getD_eq_getElem (List.replicate _ _) [] (by simpa using hq), List.getElem_replicate]
      exact getD_replicate_zero _
    · rw [List.getD_eq_default (List.replicate _ _) [] (by simpa using hq)]
      rfl
  have hmask := entry_mask (r.getD 0 0) hn
  rw [← hctl] at hmask
  have hone : ∀ {w q : Nat}, q < w → (BitVec.allOnes w).getLsbD q = true := fun h => by simp [h]
  refine ⟨by rw [hrf]; rfl, by rw [hrf]; rfl, by rw [hctl]; rfl, by rw [hctl]; rfl, by rw [hctl]; rfl, by rw [hctl]; rfl, hmask, ?_,
    by rw [sget, hrf]; rfl, by rw [sget, hrf]; rfl, by rw [sget, hrf]; rfl, fun q hq => ?_, hv, fun p => ?_, by rw [hrf]; rfl, by rw [hrf]; rfl,
    fun q hq => ?_, fun q hq => ?_, fun k hk => ?_, hw, hs⟩
  · rw [spair, sget, sget, hrf]
    exact pairOf_halves (r.getD 1 0)
  · rw [sget, hrf]
    exact entryScalars_zero r gang hq
  · rw [pset, hrf]
    exact getD_replicate_zero _
  · rw [vIsFull, hrf]
    exact hone hq
  · rw [sIsFull, hrf]
    exact hone hq
  · rw [fsget, hrf]
    change ((List.range 8).map fun k => r.getD (12 + k) 0).getD k 0 = _
    rw [List.getD_eq_getElem _ _ (by simpa using hk)]
    simp

/-! ### Placing the waves (R251) -/

/-- The grid of the vertex waves as a write of VXCFG starts it. -/
def waveGrid (s : State) (r : List DWord) : Grid :=
  { id := s.sched.nextGrid, from_ := .waves, rec_ := r, asid := bitsOf s.vx.asid.toNat 0 16, prio := 15, depth := 0, priv := recPriv r,
    cores := recClusters r &&& BitVec.allOnes 24, since := s.cycle, next := 0, size := 0, last := 23, fatal := false }

/-- Where no grid has the next id, the waves' grid is found under it, and the 24 waves join the other teams. -/
theorem placeWaves_eq {s : State} (r : List DWord) (h : ∀ g ∈ s.sched.grids, g.id ≠ s.sched.nextGrid) :
    ∃ u : State, u.ms = s.ms ∧ u.cycle = s.cycle ∧ u.mgmt = s.mgmt ∧ u.sched.nextUid = s.sched.nextUid ∧ u.vx = s.vx ∧ u.team = s.team
      ∧ placeWaves s r = { u with
          others := s.others ++ (List.range 24).map (newWave u (waveGrid s r)),
          vx := { s.vx with homes := s.vx.homes.map fun h => { h with stopped := false } },
          sched := { u.sched with nextUid := u.sched.nextUid + 24, nextVid := u.sched.nextVid + 24 } } := by
  let s1 := startGrid s r .waves (bitsOf s.vx.asid.toNat 0 16) 15 0 (BitVec.allOnes 24)
  let fix := fun (g : Grid) => if g.id == s.sched.nextGrid then { g with size := 0 } else g
  let u : State := { s1 with sched := { s1.sched with grids := s1.sched.grids.map fix } }
  have hg : u.gridOf s.sched.nextGrid = some (waveGrid s r) := by
    change List.find? (fun g : Grid => g.id == s.sched.nextGrid) ((s.sched.grids ++ [_]).map fix) = _
    have hold : (s.sched.grids.map fix).find? (fun g => g.id == s.sched.nextGrid) = none := by
      rw [List.find?_eq_none]
      intro g hg
      obtain ⟨g0, hg0, rfl⟩ := List.mem_map.mp hg
      have := h g0 hg0
      simp [fix, this]
    rw [List.map_append, List.find?_append, hold]
    simp [fix, waveGrid]
  refine ⟨u, rfl, rfl, rfl, rfl, rfl, rfl, ?_⟩
  unfold placeWaves
  simp only
  split
  · rename_i hf
    exact absurd (hg.symm.trans hf) (Option.some_ne_none _)
  · rename_i g hf
    obtain rfl : waveGrid s r = g := Option.some.inj (hg.symm.trans hf)
    rfl

/-- What the check of the waves' record says (R251, R289). -/
theorem waveRecordOk_facts {r : List DWord} (h : waveRecordOk r = true) : recPriv r = true ∧ recLanes r = 32 ∧ recRegs r = 64
    ∧ recReserved r = false ∧ bitsOf (teamCfg r) 17 3 ≤ 4 ∧ ∀ e, e < 64 → roleAt r e ≠ 3 := by
  simp only [waveRecordOk, Bool.and_eq_true, beq_iff_eq, Bool.not_eq_true', decide_eq_true_eq, List.all_eq_true, List.mem_range,
    bne_iff_ne] at h
  tauto

/-- A wave placed in a cluster is a fresh team on the wave's seat (R18, R251, R262). -/
theorem newWave_placed (u : State) {g : Grid} {r : List DWord} (c : Nat) (hr : g.rec_ = r) (hn : recLanes r = 32) :
    (newWave u g c).kind = .wave ∧ (newWave u g c).uid = u.sched.nextUid + c ∧ Fresh (newWave u g c) r c
      ∧ (newWave u g c).pl.core = (waveSeat u c).1 ∧ (newWave u g c).pl.group = 0 ∧ (newWave u g c).pl.slot = (waveSeat u c).2
      ∧ (newWave u g c).pl.prio = 15 ∧ (newWave u g c).pl.priv = true ∧ (newWave u g c).pl.asid = g.asid := by
  subst hr
  exact ⟨rfl, rfl, fresh_of_entry (by omega) rfl rfl rfl rfl, rfl, rfl, rfl, rfl, rfl, rfl⟩

/-- The lowest bit of a word as a field. -/
theorem bitsOf_low_bit (v : DWord) : bitsOf v.toNat 0 1 = 1 ↔ v.getLsbD 0 = true := by
  rw [bitsOf_eq, BitVec.getLsbD, Nat.testBit_zero]
  simp

theorem bitsOf_low_bit_zero (v : DWord) : bitsOf v.toNat 0 1 = 0 ↔ v.getLsbD 0 = false := by
  rw [← Bool.not_eq_true, ← bitsOf_low_bit, bitsOf_eq]
  omega

/-! ### VXCFG_ENABLE (R251) -/

/-- A field of VXCFG that must be zero is not. -/
def vxcfgOdd (v : DWord) : Prop := bitsOf v.toNat 57 7 ≠ 0 ∨ bitsOf v.toNat 23 7 ≠ 0 ∨ bitsOf v.toNat 1 15 ≠ 0

theorem writeVxcfg_odd (s : State) {v : DWord} (h : vxcfgOdd v) : writeVxcfg s v = refuseWrite s 0 0x70000 v := if_pos h

theorem writeVxcfg_on {s : State} {v : DWord} (h : ¬vxcfgOdd v) (hon : vxOn s = true) : writeVxcfg s v =
    if bitsOf v.toNat 0 1 = 1 then s else { s with vx := { s.vx with cfg := s.vx.cfg &&& ~~~1 } } :=
  (if_neg h).trans (if_pos hon)

theorem writeVxcfg_off {s : State} {v : DWord} (h : ¬vxcfgOdd v) (hon : vxOn s = false) (hv : v.getLsbD 0 = false) :
    writeVxcfg s v = { s with vx := { s.vx with cfg := v } } :=
  (if_neg h).trans ((if_neg (by rw [hon]; exact Bool.false_ne_true)).trans (if_pos ((bitsOf_low_bit_zero v).mpr hv)))

/-- An enabling write whose size is ill-formed, or that finds waves or no room for a grid, is refused. -/
theorem writeVxcfg_refused {s : State} {v : DWord} (hon : vxOn s = false) (hv : v.getLsbD 0 = true)
    (h : bitsOf v.toNat 16 7 = 0 ∨ 64 < bitsOf v.toNat 16 7 ∨ wavesLive s = true ∨ gridRoom s = false) :
    writeVxcfg s v = refuseWrite s 0 0x70000 v := by
  have h1 : ¬bitsOf v.toNat 0 1 = 0 := fun e => by rw [(bitsOf_low_bit_zero v).mp e] at hv; cases hv
  have h2 : bitsOf v.toNat 16 7 = 0 ∨ 64 < bitsOf v.toNat 16 7 ∨ wavesLive s = true ∨ (!gridRoom s) = true := by
    rwa [Bool.not_eq_true']
  by_cases ho : vxcfgOdd v
  · exact writeVxcfg_odd s ho
  · exact (if_neg ho).trans ((if_neg (by rw [hon]; exact Bool.false_ne_true)).trans ((if_neg h1).trans (if_pos h2)))

/-- An enabling write that passes the other checks reads the waves' record. -/
theorem writeVxcfg_record {s q : State} {v : DWord} {rec : Option (List DWord)} (ho : ¬vxcfgOdd v) (hon : vxOn s = false)
    (hv : v.getLsbD 0 = true) (h1 : 1 ≤ bitsOf v.toNat 16 7) (h64 : bitsOf v.toNat 16 7 ≤ 64) (hl : wavesLive s = false)
    (hg : gridRoom s = true) (hq : waveRecord s = (q, rec)) :
    (rec = none → writeVxcfg s v = refuseWrite q 0 0x70000 v)
      ∧ ∀ r, rec = some r → writeVxcfg s v =
        if waveRecordOk r then placeWaves { q with vx := { q.vx with cfg := v } } r else refuseWrite q 0 0x70000 v := by
  have h0 : ¬bitsOf v.toNat 0 1 = 0 := fun e => by rw [(bitsOf_low_bit_zero v).mp e] at hv; cases hv
  have h2 : ¬(bitsOf v.toNat 16 7 = 0 ∨ 64 < bitsOf v.toNat 16 7 ∨ wavesLive s = true ∨ (!gridRoom s) = true) := by
    rw [hl, hg]
    simp
    omega
  constructor
  · rintro rfl
    refine (if_neg ho).trans ((if_neg (by rw [hon]; exact Bool.false_ne_true)).trans ((if_neg h0).trans ((if_neg h2).trans ?_)))
    rw [hq]
  · rintro r rfl
    refine (if_neg ho).trans ((if_neg (by rw [hon]; exact Bool.false_ne_true)).trans ((if_neg h0).trans ((if_neg h2).trans ?_)))
    rw [hq]

/-- An accepted enabling write places the waves (R251). -/
theorem writeVxcfg_places {s q : State} {v : DWord} {r : List DWord} (hq : MsAndHost s q) (hok : waveRecordOk r = true)
    (hid : ∀ g ∈ s.sched.grids, g.id ≠ s.sched.nextGrid) :
    let t := placeWaves { q with vx := { q.vx with cfg := v } } r
    readReg t 0x70000 = v ∧ (∀ h ∈ t.vx.homes, h.stopped = false) ∧ t.team = s.team ∧ t.ms = q.ms
      ∧ ∀ c, c < 24 → ∃ u ∈ t.others, u.kind = .wave ∧ u.uid = s.sched.nextUid + c ∧ Fresh u r c ∧ u.pl.core = (waveSeat s c).1
        ∧ u.pl.group = 0 ∧ u.pl.slot = (waveSeat s c).2 ∧ u.pl.prio = 15 ∧ u.pl.priv = true
        ∧ u.pl.asid = bitsOf s.vx.asid.toNat 0 16 := by
  obtain ⟨ms, host, rfl⟩ := hq
  have hn := (waveRecordOk_facts hok).2.1
  obtain ⟨u, hms, -, hmg, huid, -, hteam, he⟩ := placeWaves_eq
    (s := { s with ms := ms, host := host, vx := { s.vx with cfg := v } }) r hid
  intro t
  have ht : t = _ := he
  clear_value t
  subst ht
  refine ⟨rfl, fun h hh => ?_, hteam, hms, fun c hc => ?_⟩
  · obtain ⟨h0, -, rfl⟩ := List.mem_map.mp hh
    rfl
  · have hw := newWave_placed u (g := waveGrid { s with ms := ms, host := host, vx := { s.vx with cfg := v } } r) c rfl hn
    have hseat : waveSeat u c = waveSeat s c := by unfold waveSeat; rw [hmg]
    rw [huid, hseat] at hw
    exact ⟨_, List.mem_append_right _ (List.mem_map.mpr ⟨c, List.mem_range.mpr hc, rfl⟩), hw⟩

/-! ### VXCFG_DISABLE (R251) -/

/-- A wave whose home has finished. -/
def waveLeaves (s : State) (u : Team) : Prop := u.kind = .wave ∧ homeIdle s (clusterOf u.pl.core) = true

/-- The waves that may leave end; with the last of them their grid ends. -/
theorem settleWaves_ends {s : State} (hoff : vxOn s = false) : let t := settleWaves s
    t.vx = s.vx ∧ t.ms = s.ms ∧ (waveLeaves s s.team → t.team = Team.absent) ∧ (¬waveLeaves s s.team → t.team = s.team)
      ∧ (∀ u, u ∈ t.others ↔ u ∈ s.others ∧ ¬waveLeaves s u)
      ∧ ((∃ u ∈ s.teams, u.kind = .wave ∧ ¬waveLeaves s u) → t.sched.grids = s.sched.grids)
      ∧ ((∀ u ∈ s.teams, u.kind = .wave → waveLeaves s u) → ∀ g, g ∈ t.sched.grids ↔ g ∈ s.sched.grids ∧ g.from_ ≠ .waves) := by
  let leaving := fun (t : Team) => t.kind == .wave && homeIdle s (clusterOf t.pl.core)
  have hlv : ∀ u, leaving u = true ↔ waveLeaves s u := fun u => by simp [leaving, waveLeaves]
  let s1 : State := { s with
    team := if leaving s.team then Team.absent else s.team, others := s.others.filter fun t => !leaving t,
    sched := { s.sched with ctxUsed := s.sched.ctxUsed.filter fun k => !((s.teams.filter leaving).flatMap entriesOf).contains k } }
  have he : settleWaves s = if wavesLive s1 then s1
      else { s1 with sched := { s1.sched with grids := s1.sched.grids.filter fun g => g.from_ != .waves } } :=
    if_neg (by rw [hoff]; exact Bool.false_ne_true)
  have hlive : wavesLive s1 = true ↔ ∃ u ∈ s.teams, u.kind = .wave ∧ ¬waveLeaves s u := by
    have hothers : ∀ u, u ∈ s1.others ↔ u ∈ s.others ∧ ¬waveLeaves s u := fun u => by
      rw [← hlv]
      simp [s1]
    have hteam : s1.team.kind = .wave ↔ s.team.kind = .wave ∧ ¬waveLeaves s s.team := by
      rw [← hlv]
      change (if leaving s.team = true then Team.absent else s.team).kind = .wave ↔ _
      split
      · rename_i h; simp [h, Team.absent]
      · rename_i h; simp [h]
    simp only [wavesLive, State.teams, List.any_cons, Bool.or_eq_true, beq_iff_eq, List.any_eq_true, List.mem_cons, exists_eq_or_imp,
      hothers, hteam]
    refine or_congr Iff.rfl (exists_congr fun u => ?_)
    tauto
  intro t
  have ht : t = _ := he
  clear_value t
  have hcommon : t.vx = s.vx ∧ t.ms = s.ms ∧ t.team = s1.team ∧ t.others = s1.others := by
    rw [ht]
    split <;> exact ⟨rfl, rfl, rfl, rfl⟩
  obtain ⟨hvx, hms, hteam, hothers⟩ := hcommon
  refine ⟨hvx, hms, fun h => ?_, fun h => ?_, fun u => ?_, fun h => ?_, fun h g => ?_⟩
  · exact hteam.trans (if_pos ((hlv _).mpr h))
  · exact hteam.trans (if_neg fun e => h ((hlv _).mp e))
  · rw [hothers, ← hlv]
    simp [s1]
  · rw [ht, if_pos (hlive.mpr h)]
  · have hn : ¬wavesLive s1 = true := fun e => by
      obtain ⟨u, hu, hk, hnl⟩ := hlive.mp e
      exact hnl (h u hu hk)
    rw [ht, if_neg hn]
    simp [s1]

end Sys2Proof.Machine
end

section
/-! SUPPORT. The handles of address spaces that a write of the host ends (R335): their operations end, and the other handles stay. -/

namespace Sys2Proof.Machine

/-! ### What leaves the residency engine as it was -/

theorem focus_res (s : State) (uid : Nat) : (s.focus uid).res = s.res := by
  unfold State.focus
  split
  · rfl
  · split <;> rfl

theorem onTeam_res {f : State → State} (h : ∀ s, (f s).res = s.res) (s : State) (uid : Nat) : (onTeam s uid f).res = s.res := by
  unfold onTeam
  split
  · rfl
  · rw [focus_res, h, focus_res]

theorem leaveHandler_res (s : State) : (leaveHandler s).res = s.res := by
  unfold leaveHandler
  split <;> rfl

/-- A reply changes its requester. -/
theorem replies_res (qs : List VReq) (ws : List Word) (s : State) : (qs.foldl (fun s q => replyTo s q ws) s).res = s.res := by
  induction qs generalizing s with
  | nil => rfl
  | cons q qs ih => exact ih _

theorem waveTrap_res (s : State) (tr : Trap) (resume : DWord) : (waveTrap s tr resume).res = s.res := by
  unfold waveTrap
  split
  · split
    · split <;> rfl
    · rfl
  · simp only
    split
    · exact (leaveHandler_res _).trans (replies_res _ _ s)
    · exact leaveHandler_res _

theorem stratumFault_res (s : State) (reason : Nat) : (stratumFault s reason).res = s.res := by
  unfold stratumFault
  simp only
  split <;> rfl

/-- A trap leaves the residency engine as it was. -/
theorem takeTrap_res (s : State) (tr : Trap) (resume : DWord) : (takeTrap s tr resume).res = s.res := by
  cases hk : s.team.kind with
  | stratum => rw [takeTrap_stratum tr resume hk]; exact stratumFault_res ..
  | wave => rw [takeTrap_wave tr resume hk]; exact waveTrap_res ..
  | core =>
    rcases takeTrap_core tr resume hk with ⟨k, -, -, h⟩ | ⟨-, h⟩ <;> rw [h]
    · rfl
    · rfl

theorem settleOp_res (s : State) (uid tag : Nat) : (settleOp s uid tag).res = s.res := by
  unfold settleOp
  simp only
  split
  · rfl
  · split
    · rfl
    · unfold completeOwn
      simp only
      split <;> rfl
    · rfl

/-- The end of an operation whose handle is gone leaves the handles. -/
theorem endFreed_res (s : State) (x : HOp) : (endFreed s x).res = s.res := by
  unfold endFreed
  split
  · refine onTeam_res (fun s => ?_) s x.uid
    split
    · rename_i h; cases h
    · split
      · rfl
      · exact takeTrap_res ..
    · rfl
  · exact settleOp_res ..

theorem endFreeds_res (xs : List HOp) (s : State) : (xs.foldl endFreed s).res = s.res := by
  induction xs generalizing s with
  | nil => rfl
  | cons x xs ih => exact (ih _).trans (endFreed_res s x)

/-! ### Handles that go (R335) -/

/-- A handle's address space is no more. -/
def spaceEnds (old new : State) (h : Handle) : Prop := (spaceOf old h.asid).isSome = true ∧ (spaceOf new h.asid).isNone = true

/-- The handles of a state whose address space is no more. -/
def endedHandles (old new : State) : List Handle := new.res.handles.filter fun h => (spaceOf old h.asid).isSome && (spaceOf new h.asid).isNone

theorem mem_endedHandles (old new : State) (h : Handle) : h ∈ endedHandles old new ↔ h ∈ new.res.handles ∧ spaceEnds old new h := by
  simp only [endedHandles, List.mem_filter, Bool.and_eq_true, spaceEnds]

theorem destroySpaces_eq (old new : State) : destroySpaces old new = ((endedHandles old new).flatMap fun h => h.ops).foldl endFreed
    { new with res := { new.res with handles := new.res.handles.filter fun h => !(endedHandles old new).contains h } } := rfl

/-- Exactly the handles whose address space is no more go. -/
theorem mem_destroySpaces (old new : State) (h : Handle) :
    h ∈ (destroySpaces old new).res.handles ↔ h ∈ new.res.handles ∧ ¬spaceEnds old new h := by
  rw [destroySpaces_eq, endFreeds_res]
  simp only [List.mem_filter, Bool.not_eq_true', List.contains_eq_mem, decide_eq_false_iff_not, mem_endedHandles]
  tauto

/-- Where no such handle has an operation queued, nothing else changes. -/
theorem destroySpaces_idle {old new : State} (h : ∀ x ∈ new.res.handles, spaceEnds old new x → x.ops = []) :
    destroySpaces old new =
      { new with res := { new.res with handles := new.res.handles.filter fun h => !(endedHandles old new).contains h } } := by
  have hops : (endedHandles old new).flatMap (fun h => h.ops) = [] := by
    rw [List.flatMap_eq_nil_iff]
    intro x hx
    obtain ⟨hm, hs⟩ := (mem_endedHandles old new x).mp hx
    exact h x hm hs
  rw [destroySpaces_eq, hops]
  rfl

end Sys2Proof.Machine
end

section
/-! SUPPORT. The host's window and the peers (R414, R416, R417, R422): what reads return and what writes do. -/

namespace Sys2Proof.Machine

/-! ### Reads (R313, R416) -/

/-- Without errors in HBM there is none to meet or to correct. -/
theorem badGranule_nil {ms : MemSide} (h : ms.ecc = []) (gs : List Nat) : badGranule ms gs = none := by
  simp [badGranule, h]

theorem correctGranules_nil {s : State} (h : s.ms.ecc = []) (gs : List Nat) : correctGranules s gs = s := by
  obtain ⟨ag, fr, cy, ar, fc, is, te, ot, ms⟩ := s
  obtain ⟨mem, l2, st, re, wr, tlb, code, ecc⟩ := ms
  subst h
  rfl

/-- Outside HBM the window reads nothing. -/
theorem hostWindowRead_outside {s : State} {addr n : Nat} (h : n = 0 ∨ isHbm addr = false ∨ isHbm (addr + n - 1) = false) :
    exec (.hostWindowRead addr n) s = .next s := by
  refine if_pos ?_
  simpa using h

/-- In HBM it reads over the link. -/
theorem hostWindowRead_inside {s : State} {addr n : Nat} (hn : 0 < n) (h0 : isHbm addr = true) (h1 : isHbm (addr + n - 1) = true) :
    exec (.hostWindowRead addr n) s = overLink s (match badGranule s.ms (granulesAt s.ms addr n) with
      | some pa =>
        let s1 := eccReport (correctGranules s (granulesAt s.ms addr n)) pa
        .next { s1 with host := { s1.host with answer := [] } }
      | none =>
        let s1 := correctGranules s (granulesAt s.ms addr n)
        .next { s1 with host := { s1.host with answer := hostBytes s1 addr n } }) := by
  refine (if_neg ?_).trans rfl
  rw [h0, h1]
  simp
  omega

/-- A byte of what the window reads: an error record's, or else the committed one (R243, R416). -/
theorem hostBytes_getD (s : State) (addr n i : Nat) (hi : i < n) :
    (hostBytes s addr n).getD i 0 = (blockByte s (addr + i)).getD (commByte s.ms (addr + i)) := by
  unfold hostBytes
  rw [List.getD_eq_getElem _ _ (by simpa using hi)]
  simp

theorem hostBytes_length (s : State) (addr n : Nat) : (hostBytes s addr n).length = n := by
  simp [hostBytes]

/-- The window's reads. -/
theorem hostWindowRead_claim (s : State) (addr n : Nat) :
    (n = 0 ∨ isHbm addr = false ∨ isHbm (addr + n - 1) = false → exec (.hostWindowRead addr n) s = .next s)
    ∧ (0 < n → isHbm addr = true → isHbm (addr + n - 1) = true →
      ((lostLink s).isSome = true → exec (.hostWindowRead addr n) s = .next { s with host := { s.host with answer := [] } })
      ∧ (lostLink s = none → s.ms.ecc = [] → Answers (.hostWindowRead addr n) s fun t => t = { s with host := { s.host with answer := t.host.answer } }
        ∧ t.host.answer.length = n
        ∧ ∀ i, i < n → t.host.answer.getD i 0 = (blockByte s (addr + i)).getD (commByte s.ms (addr + i)))
      ∧ (∀ pa, lostLink s = none → badGranule s.ms (granulesAt s.ms addr n) = some pa → Answers (.hostWindowRead addr n) s fun t =>
          t.host.answer = [] ∧ t.team = s.team ∧ t.others = s.others
          ∧ t = { eccReport (correctGranules s (granulesAt s.ms addr n)) pa with host := t.host })) := by
  refine ⟨hostWindowRead_outside, fun hn h0 h1 => ⟨fun hl => ?_, fun hl he => ?_, fun pa hl hb => ?_⟩⟩
  · rw [hostWindowRead_inside hn h0 h1, overLink_lost hl]
  · refine ⟨{ s with host := { s.host with answer := hostBytes s addr n } }, ?_, rfl, hostBytes_length s addr n,
      fun i hi => hostBytes_getD s addr n i hi⟩
    rw [hostWindowRead_inside hn h0 h1, overLink_up hl, badGranule_nil he]
    simp only [correctGranules_nil he]
  · obtain ⟨ms, h, hc⟩ := correctGranules_msAndHost s (granulesAt s.ms addr n)
    refine ⟨_, by rw [hostWindowRead_inside hn h0 h1, overLink_up hl, hb], rfl, ?_, ?_, rfl⟩
    · simp only [eccReport, logEvent_team, hc]
    · simp only [eccReport, logEvent_others, hc]

/-! ### Writes (R416, R417, R422) -/

/-- A write of no bytes has no cells. -/
theorem cellsAt_ne_nil {a : Nat} {bs : List Byte} (h : bs ≠ []) : ∃ c, c ∈ cellsAt a bs := by
  cases bs with
  | nil => exact absurd rfl h
  | cons b bs => exact ⟨(a, b), List.mem_cons_self ..⟩

/-- A write to the host's own memory. -/
theorem hostWindowWrite_host {s : State} {addr : Nat} {bytes : List Byte} (h : ∀ c ∈ cellsAt addr bytes, isHost c.1 = true) :
    exec (.hostWindowWrite addr bytes) s = .next (immediate s (cellsAt addr bytes)) :=
  if_pos (List.all_eq_true.mpr h)

/-- A write that reaches outside HBM and outside the host's memory has no effect. -/
theorem hostWindowWrite_outside {s : State} {addr : Nat} {bytes : List Byte} (h : ∃ c ∈ cellsAt addr bytes, isHbm c.1 = false)
    (h' : ∃ c ∈ cellsAt addr bytes, isHost c.1 = false) : exec (.hostWindowWrite addr bytes) s = .next s := by
  have h1 : ¬(cellsAt addr bytes).all (fun c => isHost c.1) = true := by simpa using h'
  have h2 : (!(cellsAt addr bytes).all fun c => isHbm c.1) = true := by simpa using h
  exact (if_neg h1).trans (if_pos h2)

/-- A write to HBM goes over the link; a live sieve refuses it. -/
theorem hostWindowWrite_hbm {s : State} {addr : Nat} {bytes : List Byte} (hb : bytes ≠ []) (h : ∀ c ∈ cellsAt addr bytes, isHbm c.1 = true) :
    exec (.hostWindowWrite addr bytes) s = overLink s (if (cellsAt addr bytes).any fun c => inSieve s c.1 then
        .next (refuseWrite { s with host := { s.host with answer := [] } } 0 addr (BitVec.ofNat 64 (ofLeBytes (bytes.take 8))))
      else .next (destroySpaces s (immediate s (cellsAt addr bytes)))) := by
  have h1 : ¬(cellsAt addr bytes).all (fun c => isHost c.1) = true := fun e => by
    obtain ⟨c, hc⟩ := cellsAt_ne_nil (a := addr) hb
    have := (isHost_apart (List.all_eq_true.mp e c hc)).2.1
    rw [h c hc] at this
    cases this
  have h2 : ¬(!(cellsAt addr bytes).all fun c => isHbm c.1) = true := by simpa using h
  exact (if_neg h1).trans (if_neg h2)

/-- The window's writes, and the peers'. -/
theorem hostWindowWrite_claim (s : State) (addr : Nat) (bytes : List Byte) : let cells := cellsAt addr bytes
    ((∀ c ∈ cells, isHost c.1 = true) → Answers (.hostWindowWrite addr bytes) s fun t => HostStored s t cells ∧ t = { s with ms := t.ms })
    ∧ ((∃ c ∈ cells, isHbm c.1 = false) → (∃ c ∈ cells, isHost c.1 = false) → exec (.hostWindowWrite addr bytes) s = .next s)
    ∧ (bytes ≠ [] → (∀ c ∈ cells, isHbm c.1 = true) → (lostLink s).isSome = true →
        exec (.hostWindowWrite addr bytes) s = .next { s with host := { s.host with answer := [] } })
    ∧ ((∀ c ∈ cells, isHbm c.1 = true) → lostLink s = none → (∃ c ∈ cells, inSieve s c.1 = true) → exec (.hostWindowWrite addr bytes) s =
        .next (refuseWrite { s with host := { s.host with answer := [] } } 0 addr (BitVec.ofNat 64 (ofLeBytes (bytes.take 8)))))
    ∧ (bytes ≠ [] → (∀ c ∈ cells, isHbm c.1 = true ∧ inSieve s c.1 = false) → lostLink s = none → Answers (.hostWindowWrite addr bytes) s fun t =>
        let gone := fun (h : Handle) => (spaceOf s h.asid).isSome = true ∧ (spaceOf (immediate s cells) h.asid).isNone = true
        (∀ h, h ∈ t.res.handles ↔ h ∈ s.res.handles ∧ ¬gone h)
        ∧ ((∀ h ∈ s.res.handles, gone h → h.ops = []) → HostStored s t cells ∧ t = { s with ms := t.ms, res := t.res }))
    ∧ ∀ peer, ((1023 < peer ∨ ∃ c ∈ cells, isHbm c.1 = false) → exec (.peerWrite peer addr bytes) s = .next s)
      ∧ (peer ≤ 1023 → (∀ c ∈ cells, isHbm c.1 = true) → Answers (.peerWrite peer addr bytes) s fun t =>
          HostStored s t cells ∧ t = { s with ms := t.ms }) := by
  intro cells
  refine ⟨fun h => ⟨_, hostWindowWrite_host h, immediate_hostStored s fun c hc => (isHost_apart (h c hc)).1, immediate_frame s cells⟩,
    hostWindowWrite_outside, fun hb h hl => by rw [hostWindowWrite_hbm hb h, overLink_lost hl], fun h hl hv => ?_, fun hb h hl => ?_,
    fun peer => ⟨fun h => if_pos ?_, fun hp h => ⟨_, if_neg ?_, immediate_hostStored s fun c hc => isHbm_not_raw (h c hc),
      immediate_frame s cells⟩⟩⟩
  · have hb : bytes ≠ [] := fun e => by
      obtain ⟨c, hc, -⟩ := hv
      rw [show cells = [] by simp only [cells, e]; rfl] at hc
      cases hc
    rw [hostWindowWrite_hbm hb h, overLink_up hl, if_pos (by simpa using hv)]
  · have hn : ¬(cellsAt addr bytes).any (fun c => inSieve s c.1) = true := by
      simp only [List.any_eq_true, not_exists, not_and, Bool.not_eq_true]
      exact fun c hc => (h c hc).2
    have hm := mem_destroySpaces s (immediate s cells)
    have hd := destroySpaces_idle (old := s) (new := immediate s cells)
    unfold spaceEnds at hm hd
    rw [immediate_res] at hm hd
    refine ⟨destroySpaces s (immediate s cells), ?_, hm, fun hi => ?_⟩
    · rw [hostWindowWrite_hbm hb fun c hc => (h c hc).1, overLink_up hl, if_neg hn]
    · rw [hd hi]
      exact ⟨immediate_hostStored s fun c hc => isHbm_not_raw (h c hc).1, rfl⟩
  · simpa using h
  · simp only [Bool.or_eq_true, decide_eq_true_eq, Bool.not_eq_true', not_or, Bool.not_eq_false, List.all_eq_true]
    exact ⟨by omega, h⟩

/-! ### VXCFG -/

/-- What a write of VXCFG does by its enabling event (R251). -/
theorem vxcfgEnable_claim (s : State) (v : DWord) (hl : lostLink s = none) :
    let x := v.toNat
    let odd := bitsOf x 57 7 ≠ 0 ∨ bitsOf x 23 7 ≠ 0 ∨ bitsOf x 1 15 ≠ 0
    let size := bitsOf x 16 7
    let no := exec (.vxcfgEnable v) s = .next (refuseWrite s 0 0x70000 v)
    (odd → no)
    ∧ (¬odd → vxOn s = true → v.getLsbD 0 = true → exec (.vxcfgEnable v) s = .next s)
    ∧ (¬odd → vxOn s = false → v.getLsbD 0 = false → exec (.vxcfgEnable v) s = .next { s with vx := { s.vx with cfg := v } })
    ∧ (vxOn s = false → v.getLsbD 0 = true → (size = 0 ∨ 64 < size ∨ wavesLive s = true ∨ gridRoom s = false) → no)
    ∧ ∀ q rec, waveRecord s = (q, rec) → vxOn s = false → v.getLsbD 0 = true → ¬odd → 1 ≤ size → size ≤ 64 → wavesLive s = false →
      gridRoom s = true →
      (rec = none → exec (.vxcfgEnable v) s = .next (refuseWrite q 0 0x70000 v))
      ∧ ∀ r, rec = some r →
        (waveRecordOk r = true → recPriv r = true ∧ recLanes r = 32 ∧ recRegs r = 64 ∧ recReserved r = false
          ∧ bitsOf (teamCfg r) 17 3 ≤ 4 ∧ ∀ e, e < 64 → roleAt r e ≠ 3)
        ∧ (waveRecordOk r = false → exec (.vxcfgEnable v) s = .next (refuseWrite q 0 0x70000 v))
        ∧ (waveRecordOk r = true → (∀ g ∈ s.sched.grids, g.id ≠ s.sched.nextGrid) → Answers (.vxcfgEnable v) s fun t =>
          readReg t 0x70000 = v ∧ (∀ h ∈ t.vx.homes, h.stopped = false) ∧ t.team = s.team ∧ t.ms = q.ms
          ∧ ∀ c, c < 24 → ∃ u ∈ t.others, u.kind = .wave ∧ u.uid = s.sched.nextUid + c ∧ Fresh u r c ∧ u.pl.core = (waveSeat s c).1
            ∧ u.pl.group = 0 ∧ u.pl.slot = (waveSeat s c).2 ∧ u.pl.prio = 15 ∧ u.pl.priv = true
            ∧ u.pl.asid = bitsOf s.vx.asid.toNat 0 16) := by
  have he : exec (.vxcfgEnable v) s = .next (writeVxcfg s v) := overLink_up hl _
  unfold Answers
  rw [he]
  refine ⟨fun ho => by rw [writeVxcfg_odd s ho], fun ho hon hv => ?_, fun ho hon hv => by rw [writeVxcfg_off ho hon hv],
    fun hon hv h => by rw [writeVxcfg_refused hon hv h], fun q rec hq hon hv ho h1 h64 hw hg => ?_⟩
  · rw [writeVxcfg_on ho hon, if_pos ((bitsOf_low_bit v).mpr hv)]
  · obtain ⟨hnone, hsome⟩ := writeVxcfg_record ho hon hv h1 h64 hw hg hq
    refine ⟨fun h => by rw [hnone h], fun r h => ⟨waveRecordOk_facts, fun hok => ?_, fun hok hid => ?_⟩⟩
    · rw [hsome r h, if_neg (by rw [hok]; exact Bool.false_ne_true)]
    · rw [hsome r h, if_pos hok]
      exact ⟨_, rfl, writeVxcfg_places (waveRecord_msAndHost hq) hok hid⟩

/-- What a write of VXCFG without EN does while the region is enabled (R251). -/
theorem vxcfgDisable_claim (s : State) (v : DWord) (hl : lostLink s = none) (hon : vxOn s = true) (hv : v.getLsbD 0 = false)
    (h57 : bitsOf v.toNat 57 7 = 0) (h23 : bitsOf v.toNat 23 7 = 0) (h1 : bitsOf v.toNat 1 15 = 0) :
    (exec (.vxcfgEnable v) s = .next { s with vx := { s.vx with cfg := s.vx.cfg &&& ~~~1 } })
    ∧ Answers (.vxcfgDisable v) s fun t => vxOn t = false ∧ readReg t 0x70000 = s.vx.cfg &&& ~~~1 ∧ t.ms = s.ms
      ∧ t.vx.homes = s.vx.homes ∧ t.vx.travelling = s.vx.travelling ∧ (waveLeaves s s.team → t.team = Team.absent)
      ∧ (¬waveLeaves s s.team → t.team = s.team) ∧ (∀ u, u ∈ t.others ↔ u ∈ s.others ∧ ¬waveLeaves s u)
      ∧ ((∃ u ∈ s.teams, u.kind = .wave ∧ ¬waveLeaves s u) → t.sched.grids = s.sched.grids)
      ∧ ((∀ u ∈ s.teams, u.kind = .wave → waveLeaves s u) → ∀ g, g ∈ t.sched.grids ↔ g ∈ s.sched.grids ∧ g.from_ ≠ .waves) := by
  have ho : ¬vxcfgOdd v := by
    rintro (h | h | h)
    · exact h h57
    · exact h h23
    · exact h h1
  have hw : writeVxcfg s v = { s with vx := { s.vx with cfg := s.vx.cfg &&& ~~~1 } } := by
    rw [writeVxcfg_on ho hon, if_neg]
    rw [bitsOf_low_bit, hv]
    exact Bool.false_ne_true
  have hoff : vxOn { s with vx := { s.vx with cfg := s.vx.cfg &&& ~~~1 } } = false := by
    change (s.vx.cfg &&& ~~~1).getLsbD 0 = false
    simp
  obtain ⟨hvx, hms, hin, hout, hothers, hstay, hend⟩ := settleWaves_ends hoff
  refine ⟨(overLink_up hl _).trans (by rw [hw]), _, (overLink_up hl _).trans (by rw [hw]), ?_, ?_, hms, ?_, ?_, hin, hout, hothers, hstay, hend⟩
  · exact (congrArg (fun x : VertexUnit => x.cfg.getLsbD 0) hvx).trans hoff
  · exact congrArg VertexUnit.cfg hvx
  · exact (congrArg VertexUnit.homes hvx).trans rfl
  · exact (congrArg VertexUnit.travelling hvx).trans rfl

/-- Settles O52: VXCFG's two events, and the window's and the peers' accesses. -/
theorem hostAccesses : Obligations.HostAccesses := by
  unfold Obligations.HostAccesses
  exact ⟨vxcfgEnable_claim, vxcfgDisable_claim, hostWindowRead_claim, hostWindowWrite_claim⟩

end Sys2Proof.Machine
end

section
/-! SUPPORT. The management controller (R312, R327, R328, R414, R432 to R434): start, configuration records, power, bank tests, the link. -/

namespace Sys2Proof.Machine

/-! ### The steps of start (R432) -/

/-- How many results the steps before take. -/
def resultsOf (pre : List StartStep) : List Bool := List.replicate (pre.filter startRuns).length true

/-- A step that is skipped takes no result; one that runs takes one. -/
theorem resultsOf_skipped {x : StartStep} (xs : List StartStep) (h : startRuns x = false) : resultsOf (x :: xs) = resultsOf xs := by
  simp [resultsOf, h]

theorem resultsOf_runs {x : StartStep} (xs : List StartStep) (h : startRuns x = true) : resultsOf (x :: xs) = true :: resultsOf xs := by
  simp [resultsOf, h, List.replicate_succ]

/-- A step that runs has no recorded failure, or an alternative. -/
theorem startRuns_iff (x : StartStep) : startRuns x = true ↔ ¬(x.fails ≠ 0 ∧ x.alt = 0) := by
  simp only [startRuns, Bool.or_eq_true, beq_iff_eq, bne_iff_ne]
  tauto

theorem skipped_iff (x : StartStep) : skipped x = true ↔ x.fails ≠ 0 ∧ x.alt = 0 ∧ x.skip = true := by
  simp only [skipped, Bool.and_eq_true, beq_iff_eq, bne_iff_ne]
  tauto

/-- What one step does, by its kind. -/
theorem runSteps_blocked {blocked : List Nat} {x : StartStep} (xs : List StartStep) (rs : List Bool) (h : x.step ∈ blocked) :
    runSteps blocked (x :: xs) rs = (x :: xs, .stopped x.step) := by
  simp [runSteps, h]

theorem runSteps_skipped {blocked : List Nat} {x : StartStep} (xs : List StartStep) (rs : List Bool) (h : x.step ∉ blocked)
    (hx : skipped x = true) : runSteps blocked (x :: xs) rs = (x :: (runSteps blocked xs rs).1, (runSteps blocked xs rs).2) := by
  have := (skipped_iff x).mp hx
  simp [runSteps, h, this]

theorem runSteps_halts {blocked : List Nat} {x : StartStep} (xs : List StartStep) (rs : List Bool) (h : x.step ∉ blocked)
    (hr : startRuns x = false) (hx : skipped x = false) : runSteps blocked (x :: xs) rs = (x :: xs, .stopped x.step) := by
  have h1 : x.fails ≠ 0 ∧ x.alt = 0 := not_not.mp fun e => by rw [(startRuns_iff x).mpr e] at hr; cases hr
  have h2 : ¬x.skip = true := fun e => by rw [(skipped_iff x).mpr ⟨h1.1, h1.2, e⟩] at hx; cases hx
  simp [runSteps, h, h1, h2]

theorem runSteps_runs {blocked : List Nat} {x : StartStep} (xs : List StartStep) (rs : List Bool) (h : x.step ∉ blocked)
    (hr : startRuns x = true) : runSteps blocked (x :: xs) rs =
      if rs.headD true then (x :: (runSteps blocked xs (rs.drop 1)).1, (runSteps blocked xs (rs.drop 1)).2)
      else ({ x with fails := min 255 (x.fails + 1) } :: xs, .stopped x.step) := by
  have h1 := (startRuns_iff x).mp hr
  have h2 : ¬(x.fails ≠ 0 ∧ x.alt = 0 ∧ x.skip = true) := fun e => h1 ⟨e.1, e.2.1⟩
  have h3 : blocked.contains x.step = false := by simpa using h
  rw [runSteps, if_neg (by rw [h3]; exact Bool.false_ne_true), if_neg h2, if_neg h1]

/-- Steps that all run or are skipped, none of them blocked, are passed. -/
theorem runSteps_append {blocked : List Nat} {pre : List StartStep} (hw : wellStarted pre) (hb : ∀ x ∈ pre, x.step ∉ blocked)
    (post : List StartStep) (rest : List Bool) : runSteps blocked (pre ++ post) (resultsOf pre ++ rest)
      = (pre ++ (runSteps blocked post rest).1, (runSteps blocked post rest).2) := by
  induction pre with
  | nil => rfl
  | cons x xs ih =>
    have ih := ih (fun y hy => hw y (List.mem_cons_of_mem _ hy)) (fun y hy => hb y (List.mem_cons_of_mem _ hy))
    have hx := hb x (List.mem_cons_self ..)
    rw [List.cons_append]
    cases hr : startRuns x with
    | true =>
      rw [resultsOf_runs xs hr, runSteps_runs _ _ hx hr, List.cons_append, List.headD_cons, if_pos rfl]
      simp only [List.drop_succ_cons, List.drop_zero, ih]
      rfl
    | false =>
      have hs : skipped x = true := (hw x (List.mem_cons_self ..)).resolve_left (by rw [hr]; exact Bool.false_ne_true)
      rw [resultsOf_skipped xs hr, runSteps_skipped _ _ hx hs, ih]
      rfl

/-- All steps passed. -/
theorem runSteps_complete {blocked : List Nat} {pre : List StartStep} (hw : wellStarted pre) (hb : ∀ x ∈ pre, x.step ∉ blocked) :
    runSteps blocked pre (resultsOf pre) = (pre, .complete) := by
  have := runSteps_append hw hb [] []
  simpa [runSteps] using this

/-! ### A start (R13, R312, R432, R433) -/

/-- What the controller keeps at a start. -/
def startKept (m : Mgmt) : Mgmt :=
  { Mgmt.reset with steps := m.steps, log := m.log, records := m.records, offered := m.offered, map := m.map,
                    repairs := m.repairs, banks := m.banks, spares := m.spares, fenced := m.fenced }

/-- The part at reset, with memory beyond the links and the controller's state. -/
def startBase (s : State) (m : Mgmt) : State :=
  { State.reset with agenda := s.agenda, free := s.free, ms := { MemSide.empty with mem := s.ms.mem.filter fun c => isOutside c.1 }, mgmt := m }

/-- The controller with its records taken and its steps as they ended. -/
def startTaken (m : Mgmt) (steps : List StartStep) : Mgmt :=
  { installRecords (startKept m) ([3, 4, 5, 6].filterMap (takeRecord m)) with steps := steps }

/-- A start that stops at a step. -/
def startStop (s : State) (m : Mgmt) (k : Nat) : Host.Outcome State Fault Refusal :=
  .next (startBase s { m with started := false, startStopped := some k })

/-- The steps that a fenced core blocks. -/
def startBlocked (m : Mgmt) : List Nat := m.fenced.map fun core => coreStep (core / 96)

theorem mem_startBlocked (m : Mgmt) (k : Nat) : k ∈ startBlocked m ↔ ∃ core ∈ m.fenced, coreStep (core / 96) = k := by
  simp [startBlocked]

/-- How a start ends once its records are taken. -/
def startEnds (s : State) (r : List StartStep × StartEnd) : Host.Outcome State Fault Refusal :=
  match r.2 with
  | .stopped k => startStop s (startTaken s.mgmt r.1) k
  | .complete => match s.mgmt.fenced with
    | [] => .next (startBase s (startTaken s.mgmt r.1))
    | core :: _ => startStop s (startTaken s.mgmt r.1) (coreStep (core / 96))

/-- Start is over. -/
theorem startEnds_complete {s : State} (steps : List StartStep) (h : s.mgmt.fenced = []) :
    startEnds s (steps, .complete) = .next (startBase s (startTaken s.mgmt steps)) := by
  simp only [startEnds, h]

/-- A fenced core stops it at the end, if no step has (R13). -/
theorem startEnds_fenced {s : State} (steps : List StartStep) {core : Nat} {cs : List Nat} (h : s.mgmt.fenced = core :: cs) :
    startEnds s (steps, .complete) = startStop s (startTaken s.mgmt steps) (coreStep (core / 96)) := by
  simp only [startEnds, h]

theorem exec_managementStart_missing {s : State} {k : Nat} (results : List Bool)
    (h : recordKinds.find? (fun k => (takeRecord s.mgmt k).isNone) = some k) :
    exec (.managementStart results) s = startStop s (startKept s.mgmt) (Config.recordStep k) := by
  change execManagementStart results s = _
  unfold execManagementStart
  simp only [h]
  rfl

/-- A start that has its records runs its steps. -/
theorem exec_managementStart_taken {s : State} (results : List Bool)
    (h : recordKinds.find? (fun k => (takeRecord s.mgmt k).isNone) = none) :
    exec (.managementStart results) s = startEnds s (runSteps (startBlocked s.mgmt) s.mgmt.steps results) := by
  change execManagementStart results s = _
  unfold execManagementStart
  simp only [h]
  unfold startEnds startBlocked
  generalize runSteps (s.mgmt.fenced.map fun core => coreStep (core / 96)) s.mgmt.steps results = r
  obtain ⟨steps, e⟩ := r
  cases e with
  | stopped k => rfl
  | complete =>
    cases hf : s.mgmt.fenced <;> simp only [startStop, startTaken, startKept, startBase, recordKinds, hf]

/-- The first kind that a start finds no record for. -/
theorem recordKinds_find {p : Nat → Bool} {k : Nat} (h3 : 3 ≤ k) (h6 : k ≤ 6) (hk : p k = true) (hj : ∀ j, 3 ≤ j → j < k → p j = false) :
    recordKinds.find? p = some k := by
  unfold recordKinds
  rcases (show k = 3 ∨ k = 4 ∨ k = 5 ∨ k = 6 by omega) with rfl | rfl | rfl | rfl
  · simp [hk]
  · simp [hk, hj 3]
  · simp [hk, hj 3, hj 4]
  · simp [hk, hj 3, hj 4, hj 5]

theorem exec_managementStart_first {s : State} {k : Nat} (results : List Bool) (h3 : 3 ≤ k) (h6 : k ≤ 6) (hk : takeRecord s.mgmt k = none)
    (hj : ∀ j, 3 ≤ j → j < k → takeRecord s.mgmt j ≠ none) :
    exec (.managementStart results) s = startStop s (startKept s.mgmt) (Config.recordStep k) := by
  apply exec_managementStart_missing
  apply recordKinds_find h3 h6 (by rw [hk]; rfl)
  intro j h hl
  rw [Option.isNone_eq_false_iff, Option.isSome_iff_ne_none]
  exact hj j h hl

/-- A start that finds every record: what its steps end in. -/
theorem exec_managementStart_runs {s : State} {results : List Bool} {r : List StartStep × StartEnd}
    (h : ∀ j, 3 ≤ j → j ≤ 6 → takeRecord s.mgmt j ≠ none) (hr : runSteps (startBlocked s.mgmt) s.mgmt.steps results = r) :
    exec (.managementStart results) s = startEnds s r := by
  rw [exec_managementStart_taken results, hr]
  rw [List.find?_eq_none]
  intro k hk
  have : 3 ≤ k ∧ k ≤ 6 := by
    unfold recordKinds at hk
    simp only [List.mem_cons, List.not_mem_nil, or_false] at hk
    omega
  rw [Option.isNone_iff_eq_none]
  exact h k this.1 this.2

/-- Steps before the first that does not simply run (R432). -/
structure StartPrefix (s : State) (pre : List StartStep) : Prop where
  well : wellStarted pre
  free : ∀ x ∈ pre, x.step ∉ startBlocked s.mgmt
  records : ∀ j, 3 ≤ j → j ≤ 6 → takeRecord s.mgmt j ≠ none

theorem StartPrefix.completes {s : State} {pre : List StartStep} (h : StartPrefix s pre) (hs : s.mgmt.steps = pre) :
    exec (.managementStart (resultsOf pre)) s = startEnds s (pre, .complete) :=
  exec_managementStart_runs h.records (by rw [hs]; exact runSteps_complete h.well h.free)

theorem StartPrefix.stops {s : State} {pre post post' : List StartStep} {x : StartStep} {rest : List Bool} (h : StartPrefix s pre)
    (hs : s.mgmt.steps = pre ++ x :: post) (hx : runSteps (startBlocked s.mgmt) (x :: post) rest = (post', .stopped x.step)) :
    exec (.managementStart (resultsOf pre ++ rest)) s = startStop s (startTaken s.mgmt (pre ++ post')) x.step := by
  have := runSteps_append h.well h.free (x :: post) rest
  rw [hx] at this
  exact exec_managementStart_runs h.records (hs ▸ this)

/-! ### Configuration records (R3, R433) -/

theorem takesRecord : TakesRecord := by
  intro m kind good
  have hgood : ∀ r, good r ↔ r ∈ m.offered ∧ (r.kind == kind && Config.signed kind r.words && recordOk r) = true := by
    intro r
    simp only [good, Bool.and_eq_true, beq_iff_eq, and_assoc]
  unfold takeRecord
  cases ho : m.offered.find? fun r => r.kind == kind && Config.signed kind r.words && recordOk r with
  | some x =>
    refine ⟨fun r h => ?_, fun r h => ?_, fun h => ?_⟩
    · obtain rfl : x = r := by simpa using h
      have hx := List.find?_some (p := fun r => r.kind == kind && Config.signed kind r.words && recordOk r) ho
      exact (hgood x).mpr ⟨List.mem_of_find?_eq_some ho, hx⟩
    · simp at h
    · simp at h
  | none =>
    have hn : ∀ x, ¬good x := fun x hx => List.find?_eq_none.mp ho x ((hgood x).mp hx).1 ((hgood x).mp hx).2
    refine ⟨fun r h => ?_, fun r h => ?_, fun h => ⟨hn, fun r hr hk => ?_⟩⟩
    · obtain ⟨y, -, hy⟩ := Option.map_eq_some_iff.mp h
      simp at hy
    · obtain ⟨y, hy, e⟩ := Option.map_eq_some_iff.mp h
      obtain rfl : y = r := congrArg Prod.fst e
      have := List.find?_some hy
      simp only [Bool.and_eq_true, beq_iff_eq] at this
      exact ⟨List.mem_of_find?_eq_some hy, this.1, this.2, hn⟩
    · have := List.find?_eq_none.mp (Option.map_eq_none_iff.mp h) r hr
      simpa [hk] using this

theorem repairBanks_same {m : Mgmt} {table : List DWord} (h : table = m.repairs) : repairBanks m table = m.banks := if_pos h

theorem installRecords_claim (m : Mgmt) (rs : List (ConfigRec × Bool)) : let n := installRecords m rs
      n.records = rs.map (fun r => r.1) ∧ n.spares = (n.recordOf 3).words.map BitVec.toNat ∧ n.map = mapOf (n.recordOf 4).words
        ∧ n.repairs = (n.recordOf 5).words ∧ (n.repairs = m.repairs → n.banks = m.banks)
        ∧ n.log = m.log ++ (rs.filter fun r => r.2).map fun r => .replaced r.1.kind :=
  ⟨rfl, rfl, rfl, rfl, repairBanks_same, rfl⟩

theorem coreFailure_ignored {s : State} {core : Nat} (h : 192 ≤ core ∨ core ∈ s.mgmt.fenced) : exec (.coreFailure core) s = .next s := by
  change execCoreFailure core s = _
  unfold execCoreFailure
  rw [if_pos (h.imp_right fun h => by simpa using h)]

theorem coreFailure_spare {s : State} {core : Nat} (h : core < 192) (hf : core ∉ s.mgmt.fenced) (hl : 0 < s.mgmt.spares.getD (core / 96) 0) :
    exec (.coreFailure core) s =
          let now := s.mgmt.spares.set (core / 96) (s.mgmt.spares.getD (core / 96) 0 - 1)
          .next { s with mgmt := { s.mgmt with spares := now, records := putRecord (spareRecord now) s.mgmt.records, offered := putRecord (spareRecord now) s.mgmt.offered } } := by
  change execCoreFailure core s = _
  unfold execCoreFailure
  rw [if_neg (by rintro (h' | h'); omega; exact hf (by simpa using h'))]
  exact if_pos hl

/-- The state of a part whose core has failed with no spare left, before its teams leave. -/
def fenceCore (s : State) (core : Nat) : State :=
  { s with mgmt := { s.mgmt with fenced := core :: s.mgmt.fenced, log := s.mgmt.log ++ [.coreFailed core] } }

theorem coreFailure_fences {s : State} {core : Nat} (h : core < 192) (hf : core ∉ s.mgmt.fenced) (hl : s.mgmt.spares.getD (core / 96) 0 = 0) :
    exec (.coreFailure core) s = .next (moveWave (leaveFenced (fenceCore s core)) core) := by
  change execCoreFailure core s = _
  unfold execCoreFailure
  rw [if_neg (by rintro (h' | h'); omega; exact hf (by simpa using h'))]
  exact if_neg (by simpa using hl)

theorem leaveFenced_none {s : State} (h : s.mgmt.fenced = []) : leaveFenced s = s := by
  unfold leaveFenced
  rw [h]
  rfl

theorem placementHold_holds {s : State} (h : s.mgmt.clk ≤ 1000) (hh : s.mgmt.hold = false) :
   exec .placementHold s = .next { s with mgmt := { s.mgmt with hold := true, log := s.mgmt.log ++ [.hold s.mgmt.clk] } } := by
  change execPlacementHold s = _
  unfold execPlacementHold
  rw [if_pos ⟨h, by rw [hh]; rfl⟩]

theorem placementHold_ignored {s : State} (h : 1000 < s.mgmt.clk ∨ s.mgmt.hold = true) : exec .placementHold s = .next s := by
  change execPlacementHold s = _
  unfold execPlacementHold
  rw [if_neg (by rintro ⟨h1, h2⟩; rcases h with h | h; omega; simp [h] at h2)]

theorem linkFlitRetry_ignored {s : State} {lane : Nat} (leaves : Bool) (h : 32 ≤ lane ∨ lane ∈ s.mgmt.lanesOut) :
    exec (.linkFlitRetry lane leaves) s = .next s := by
  change execLinkFlitRetry lane leaves s = _
  unfold execLinkFlitRetry
  rw [if_pos (h.imp_right fun h => by simpa using h)]

theorem linkFlitRetry_logs {s : State} {lane : Nat} (leaves : Bool) (h : lane < 32) (ho : lane ∉ s.mgmt.lanesOut) :
    exec (.linkFlitRetry lane leaves) s = .next { s with
          mgmt := { s.mgmt with lanesOut := if leaves then lane :: s.mgmt.lanesOut else s.mgmt.lanesOut },
          host := { s.host with events := s.host.events ++ [⟨10, 4 * 2 ^ 24 + lane, leBytes 8 1 ++ leBytes 4 (if leaves then 1 else 0)⟩] } } := by
  change execLinkFlitRetry lane leaves s = _
  unfold execLinkFlitRetry
  rw [if_neg (by rintro (h' | h'); omega; exact ho (by simpa using h'))]
  cases leaves <;> rfl

/-! ### Bank tests -/

/-- The banks of a channel after a change to one channel's. -/
theorem bankMap_put (m : Mgmt) (b : BankMap) (channel : Nat) :
    ({ m with banks := b :: m.banks.filter fun x => x.channel != b.channel } : Mgmt).bankMap channel
      = if channel = b.channel then b else m.bankMap channel := by
  unfold Mgmt.bankMap
  by_cases h : channel = b.channel
  · simp [h]
  · rw [if_neg h, List.find?_cons_of_neg (by simpa using Ne.symm h), List.find?_filter]
    congr 2
    funext x
    by_cases hx : x.channel = channel
    · simp [hx, h]
    · simp [hx]

theorem bankMap_channel (m : Mgmt) (channel : Nat) : (m.bankMap channel).channel = channel := by
  unfold Mgmt.bankMap
  cases h : m.banks.find? fun b => b.channel == channel with
  | none => rfl
  | some b => simpa using List.find?_some (p := fun b : BankMap => b.channel == channel) h

/-- The bank that a logical bank stands in, once two have changed places. -/
theorem swapBank_getD {b : BankMap} {bank k : Nat} (hb : b.banks.length = 33) (h : bank < 32) :
    (swapBank b bank).banks.getD k 0 = if k = 32 then b.banks.getD bank 0 else if k = bank then b.banks.getD 32 0 else b.banks.getD k 0 := by
  unfold swapBank
  simp only [List.getD_eq_getElem?_getD, List.getElem?_set, List.length_set, hb]
  by_cases h1 : k = 32
  · simp [h1]
  · by_cases h2 : k = bank
    · subst h2
      simp [h1, Ne.symm h1, show k < 33 by omega]
    · simp [h1, h2, Ne.symm h1, Ne.symm h2]

/-- A channel's banks after the test of one. -/
def testedBank (b : BankMap) (bank : Nat) (rows : List (Nat × Nat)) : BankMap :=
  { swapBank b bank with used := b.used ++ rows.map fun r => (b.banks.getD bank 0, r.1) }

theorem bankMap_remapBank (m : Mgmt) (channel bank : Nat) (rows : List (Nat × Nat)) (k : Nat) :
    (remapBank m channel bank rows).bankMap k = if k = channel then testedBank (m.bankMap channel) bank rows else m.bankMap k := by
  have h := bankMap_put m (testedBank (m.bankMap channel) bank rows) k
  rw [show (testedBank (m.bankMap channel) bank rows).channel = channel from bankMap_channel m channel] at h
  exact h

/-- R327: whatever else of the controller changes, a tested bank and the spare change places. -/
theorem remapBank_swapped {m n : Mgmt} {channel bank : Nat} (hn : n.banks = m.banks) (h : bank < 32) (rows : List (Nat × Nat)) :
    Swapped m (remapBank n channel bank rows) channel bank rows := by
  have hm : ∀ k, n.bankMap k = m.bankMap k := fun k => by unfold Mgmt.bankMap; rw [hn]
  unfold Swapped
  intro b c at_
  have hc : c = testedBank b bank rows := by
    rw [show c = _ from bankMap_remapBank n channel bank rows channel, if_pos rfl, hm]
  refine ⟨fun hl => ?_, by rw [hc]; rfl, fun other ho => ?_⟩
  · have hk : ∀ k, at_ c k = if k = 32 then at_ b bank else if k = bank then at_ b 32 else at_ b k := fun k => by
      rw [hc]; exact swapBank_getD hl h
    refine ⟨?_, ?_, fun k hk32 hkb => ?_⟩
    · rw [hk, if_neg (by omega), if_pos rfl]
    · rw [hk, if_pos rfl]
    · rw [hk, if_neg (by omega), if_neg hkb]
  · rw [bankMap_remapBank, if_neg ho, hm]

/-- A field of a packed word. -/
theorem bitsOf_packFields_skip (w x lo n : Nat) (fs : List (Nat × Nat)) (h : w ≤ lo) :
    bitsOf (packFields ((w, x) :: fs)) lo n = bitsOf (packFields fs) (lo - w) n := by
  obtain ⟨d, rfl⟩ := Nat.exists_eq_add_of_le h
  have : x % 2 ^ w < 2 ^ w := Nat.mod_lt _ (Nat.two_pow_pos w)
  simp only [bitsOf, packFields, Nat.shiftRight_add, Nat.add_sub_cancel_left]
  rw [show (x % 2 ^ w + 2 ^ w * packFields fs) >>> w = packFields fs by
    rw [Nat.shiftRight_eq_div_pow, Nat.add_mul_div_left _ _ (Nat.two_pow_pos w), Nat.div_eq_of_lt this, Nat.zero_add]]

theorem bitsOf_packFields_head (w x : Nat) (fs : List (Nat × Nat)) : bitsOf (packFields ((w, x) :: fs)) 0 w = x % 2 ^ w := by
  simp [bitsOf, packFields]

theorem packFields_lt : (fs : List (Nat × Nat)) → packFields fs < 2 ^ (fs.map Prod.fst).sum
  | [] => by simp [packFields]
  | (w, x) :: fs => by
    have h := packFields_lt fs
    have hx : x % 2 ^ w < 2 ^ w := Nat.mod_lt _ (Nat.two_pow_pos w)
    simp only [packFields, List.map_cons, List.sum_cons, pow_add]
    calc x % 2 ^ w + 2 ^ w * packFields fs < 2 ^ w * (packFields fs + 1) := by rw [Nat.mul_succ]; omega
      _ ≤ 2 ^ w * 2 ^ (fs.map Prod.fst).sum := Nat.mul_le_mul_left _ h

/-- An entry of a repair table as its fields. -/
def repairEntry (spare row bank sub channel type : Nat) : DWord :=
  BitVec.ofNat 64 (packFields [(27, 0), (6, spare), (14, row), (5, bank), (2, sub), (8, channel), (2, type)])

theorem repairEntry_fields (spare row bank sub channel type : Nat) : let e := (repairEntry spare row bank sub channel type).toNat
    bitsOf e 62 2 = type % 4 ∧ bitsOf e 54 8 = channel % 256 ∧ bitsOf e 52 2 = sub % 4 ∧ bitsOf e 47 5 = bank % 32
      ∧ bitsOf e 33 14 = row % 2 ^ 14 ∧ bitsOf e 27 6 = spare % 64 ∧ bitsOf e 0 27 = 0 := by
  intro e
  have he : e = packFields [(27, 0), (6, spare), (14, row), (5, bank), (2, sub), (8, channel), (2, type)] := by
    rw [show e = _ from BitVec.toNat_ofNat ..]
    exact Nat.mod_eq_of_lt (packFields_lt _)
  rw [he]
  refine ⟨?_, ?_, ?_, ?_, ?_, ?_, ?_⟩ <;>
    simp only [bitsOf_packFields_skip, Nat.reduceLeDiff, Nat.reduceSub, bitsOf_packFields_head, Nat.reducePow, Nat.zero_mod]


/-- The repair entry of a bad row, the `j`-th of its bank. -/
theorem rowRepairs_getElem? (m : Mgmt) (channel bank : Nat) {rows : List (Nat × Nat)} {j : Nat} {r : Nat × Nat} (h : rows[j]? = some r) :
    (rowRepairs m channel bank rows)[j]? = some (repairEntry
      (spareRowsUsed m channel bank r.1 + ((rows.take j).filter fun x => x.1 == r.1).length) r.2 bank r.1 channel 1) := by
  simp only [rowRepairs, List.getElem?_map, List.getElem?_zipIdx, h, Nat.zero_add, Option.map_some]
  rfl

theorem length_rowRepairs (m : Mgmt) (channel bank : Nat) (rows : List (Nat × Nat)) : (rowRepairs m channel bank rows).length = rows.length := by
  simp [rowRepairs]

/-- An element with a property and the earlier ones with it are together no more than all that have it. -/
theorem filter_take_lt {α : Type} (p : α → Bool) {xs : List α} {j : Nat} {x : α} (h : xs[j]? = some x) (hp : p x = true) :
    ((xs.take j).filter p).length < (xs.filter p).length := by
  obtain ⟨hj, hx⟩ := List.getElem?_eq_some_iff.mp h
  have hd : xs.drop j = x :: xs.drop (j + 1) := by rw [List.drop_eq_getElem_cons hj, hx]
  conv => rhs; rw [← List.take_append_drop j xs, List.filter_append, hd, List.filter_cons_of_pos hp]
  simp

/-- A test that finds no such bank, or is told of rows that no bank has, does nothing (R327). -/
theorem hbmBankTest_ignored {s : State} {channel bank : Nat} {bad : List (Nat × Nat)}
    (h : 256 ≤ channel ∨ 32 ≤ bank ∨ channel ∈ s.mgmt.noSpare ∨ ∃ r ∈ bad.eraseDups, 4 ≤ r.1 ∨ 2 ^ 14 ≤ r.2) :
    exec (.hbmBankTest channel bank bad) s = .next s := by
  change execHbmBankTest channel bank bad s = _
  unfold execHbmBankTest
  refine if_pos ?_
  rcases h with h | h | h | ⟨r, hr, h⟩
  · exact .inl h
  · exact .inr (.inl h)
  · exact .inr (.inr (.inl (by simpa using h)))
  · refine .inr (.inr (.inr ?_))
    rw [Bool.not_eq_true', List.all_eq_false]
    exact ⟨r, hr, by rw [decide_eq_true_eq]; omega⟩

/-- A test that is made: a bank of a channel that has a spare, and rows that it has (R327). -/
structure BankTested (s : State) (channel bank : Nat) (rows : List (Nat × Nat)) : Prop where
  channel_lt : channel < 256
  bank_lt : bank < 32
  spare_left : channel ∉ s.mgmt.noSpare
  rows_lt : ∀ r ∈ rows, r.1 < 4 ∧ r.2 < 2 ^ 14

/-- A made test is not ignored. -/
theorem BankTested.made {s : State} {channel bank : Nat} {rows : List (Nat × Nat)} (h : BankTested s channel bank rows) :
    ¬(256 ≤ channel ∨ 32 ≤ bank ∨ s.mgmt.noSpare.contains channel = true ∨ (!rows.all (fun r => decide (r.1 < 4 ∧ r.2 < 2 ^ 14))) = true) := by
  rintro (h' | h' | h' | h')
  · exact absurd h.channel_lt (by omega)
  · exact absurd h.bank_lt (by omega)
  · exact h.spare_left (by simpa using h')
  · rw [Bool.not_eq_true', List.all_eq_false] at h'
    obtain ⟨r, hr, hb⟩ := h'
    exact hb (decide_eq_true (h.rows_lt r hr))

/-- The spare rows of a bank are enough for its bad rows (R327). -/
abbrev RowsFit (m : Mgmt) (channel bank : Nat) (rows : List (Nat × Nat)) : Prop :=
  ∀ b, b < 4 → spareRowsUsed m channel bank b + (rows.filter fun r => r.1 == b).length ≤ 64

theorem exec_hbmBankTest_clean {s : State} {channel bank : Nat} {bad : List (Nat × Nat)} (h : BankTested s channel bank bad.eraseDups)
    (hn : bad.eraseDups = []) : exec (.hbmBankTest channel bank bad) s = .next { s with mgmt := remapBank s.mgmt channel bank [] } := by
  change execHbmBankTest channel bank bad s = _
  unfold execHbmBankTest
  exact (if_neg h.made).trans (if_pos hn)

theorem exec_hbmBankTest_repaired {s : State} {channel bank : Nat} {bad : List (Nat × Nat)} (h : BankTested s channel bank bad.eraseDups)
    (hn : bad.eraseDups ≠ []) (hf : RowsFit s.mgmt channel bank bad.eraseDups) : exec (.hbmBankTest channel bank bad) s =
      .next { refuseWrite s 0 0 0 with mgmt := remapBank (addRepairs s.mgmt (rowRepairs s.mgmt channel bank bad.eraseDups)) channel bank bad.eraseDups } := by
  change execHbmBankTest channel bank bad s = _
  unfold execHbmBankTest
  refine (if_neg h.made).trans ((if_neg hn).trans (if_pos ?_))
  exact List.all_eq_true.mpr fun b hb => decide_eq_true (hf b (List.mem_range.mp hb))

theorem exec_hbmBankTest_retired {s : State} {channel bank : Nat} {bad : List (Nat × Nat)} (h : BankTested s channel bank bad.eraseDups)
    (hn : bad.eraseDups ≠ []) (hf : ¬RowsFit s.mgmt channel bank bad.eraseDups) : exec (.hbmBankTest channel bank bad) s =
      .next { refuseWrite s 0 0 0 with
        mgmt := remapBank { addRepairs s.mgmt [bankRepair channel bank] with noSpare := channel :: s.mgmt.noSpare } channel bank [] } := by
  change execHbmBankTest channel bank bad s = _
  unfold execHbmBankTest
  refine (if_neg h.made).trans ((if_neg hn).trans (if_neg fun ha => hf fun b hb => ?_))
  exact of_decide_eq_true (List.all_eq_true.mp ha b (List.mem_range.mpr hb))

/-- The entry of a repaired row names its bank, the row and a spare row that the bank still has. -/
theorem rowRepairs_entry {s : State} {channel bank j : Nat} {rows : List (Nat × Nat)} {r : Nat × Nat} (h : BankTested s channel bank rows)
    (hf : RowsFit s.mgmt channel bank rows) (hj : rows[j]? = some r) :
    ∃ e : DWord, (rowRepairs s.mgmt channel bank rows)[j]? = some e ∧ bitsOf e.toNat 62 2 = 1 ∧ bitsOf e.toNat 54 8 = channel
            ∧ bitsOf e.toNat 52 2 = r.1 ∧ bitsOf e.toNat 47 5 = bank ∧ bitsOf e.toNat 33 14 = r.2 ∧ bitsOf e.toNat 0 27 = 0
            ∧ bitsOf e.toNat 27 6 = spareRowsUsed s.mgmt channel bank r.1 + ((rows.take j).filter fun x => x.1 == r.1).length := by
  obtain ⟨hr1, hr2⟩ := h.rows_lt r (List.mem_of_getElem? hj)
  have hfew := hf r.1 hr1
  have hlt := filter_take_lt (fun x : Nat × Nat => x.1 == r.1) hj (beq_self_eq_true _)
  obtain ⟨h62, h54, h52, h47, h33, h27, h0⟩ := repairEntry_fields
    (spareRowsUsed s.mgmt channel bank r.1 + ((rows.take j).filter fun x => x.1 == r.1).length) r.2 bank r.1 channel 1
  refine ⟨_, rowRepairs_getElem? s.mgmt channel bank hj, h62, ?_, ?_, ?_, ?_, h0, ?_⟩
  · rw [h54, Nat.mod_eq_of_lt h.channel_lt]
  · rw [h52, Nat.mod_eq_of_lt hr1]
  · rw [h47, Nat.mod_eq_of_lt h.bank_lt]
  · rw [h33, Nat.mod_eq_of_lt hr2]
  · rw [h27, Nat.mod_eq_of_lt (by omega)]

/-- The entry of a retired bank. -/
theorem bankRepair_entry {channel bank : Nat} (hc : channel < 256) (hb : bank < 32) : let e := (bankRepair channel bank).toNat
    bitsOf e 62 2 = 2 ∧ bitsOf e 54 8 = channel ∧ bitsOf e 47 5 = bank ∧ bitsOf e 27 6 = 0 := by
  obtain ⟨h62, h54, -, h47, -, h27, -⟩ := repairEntry_fields 0 0 bank 0 channel 2
  exact ⟨h62, h54.trans (Nat.mod_eq_of_lt hc), h47.trans (Nat.mod_eq_of_lt hb), h27⟩

/-- What a test that found bad rows leaves apart from the controller: an entry of the event log (log 82). -/
abbrev TestLogged (s t : State) : Prop :=
  t.host = (refuseWrite s 0 0 0).host ∧ t.ms = (refuseWrite s 0 0 0).ms ∧ t.team = s.team ∧ t.others = s.others

theorem hbmBankTest_repairs {s : State} {channel bank : Nat} {bad : List (Nat × Nat)} (h : BankTested s channel bank bad.eraseDups)
    (hn : bad.eraseDups ≠ []) (hf : RowsFit s.mgmt channel bank bad.eraseDups) :
    Answers (.hbmBankTest channel bank bad) s fun t => TestLogged s t ∧ ∃ new, new.length = bad.eraseDups.length
          ∧ t.mgmt = { addRepairs s.mgmt new with banks := t.mgmt.banks } ∧ Swapped s.mgmt t.mgmt channel bank bad.eraseDups ∧ t.mgmt.repairs = s.mgmt.repairs ++ new
          ∧ ∀ j r, bad.eraseDups[j]? = some r → ∃ e : DWord, new[j]? = some e ∧ bitsOf e.toNat 62 2 = 1 ∧ bitsOf e.toNat 54 8 = channel
            ∧ bitsOf e.toNat 52 2 = r.1 ∧ bitsOf e.toNat 47 5 = bank ∧ bitsOf e.toNat 33 14 = r.2 ∧ bitsOf e.toNat 0 27 = 0
            ∧ bitsOf e.toNat 27 6 = spareRowsUsed s.mgmt channel bank r.1 + ((bad.eraseDups.take j).filter fun x => x.1 == r.1).length :=
  ⟨_, exec_hbmBankTest_repaired h hn hf, ⟨rfl, rfl, rfl, rfl⟩, _, length_rowRepairs .., rfl, remapBank_swapped rfl h.bank_lt _, rfl,
    fun _ _ => rowRepairs_entry h hf⟩

theorem hbmBankTest_retires {s : State} {channel bank : Nat} {bad : List (Nat × Nat)} (h : BankTested s channel bank bad.eraseDups)
    (hn : bad.eraseDups ≠ []) (hf : ¬RowsFit s.mgmt channel bank bad.eraseDups) :
    Answers (.hbmBankTest channel bank bad) s fun t => TestLogged s t ∧ ∃ e : DWord,
            t.mgmt = { addRepairs s.mgmt [e] with noSpare := channel :: s.mgmt.noSpare, banks := t.mgmt.banks }
            ∧ Swapped s.mgmt t.mgmt channel bank [] ∧ t.mgmt.repairs = s.mgmt.repairs ++ [e]
            ∧ bitsOf e.toNat 62 2 = 2 ∧ bitsOf e.toNat 54 8 = channel ∧ bitsOf e.toNat 47 5 = bank ∧ bitsOf e.toNat 27 6 = 0 :=
  ⟨_, exec_hbmBankTest_retired h hn hf, ⟨rfl, rfl, rfl, rfl⟩, _, rfl, remapBank_swapped rfl h.bank_lt _, rfl, bankRepair_entry h.channel_lt h.bank_lt⟩

end Sys2Proof.Machine
end

section
/-! SUPPORT. Teams that leave their groups because a core has failed (R13, R232, R399): who goes, and that the others stay. -/

namespace Sys2Proof.Machine

/-! ### A team in focus changes in its place -/

/-- A change to the team with a handle that no team has. -/
theorem map_uid_absent (g : Team → Team) {uid : Nat} {us : List Team} (h : ∀ u ∈ us, u.uid ≠ uid) :
    us.map (fun u => if u.uid = uid then g u else u) = us :=
  (List.map_congr_left (g := id) fun u hu => if_neg (h u hu)).trans (List.map_id _)

/-- To swap a team in and the one in focus back leaves the changed team in its old place. -/
theorem swapIn_swapIn (g : Team → Team) {a t : Team} (hg : (g t).uid = t.uid) {us : List Team} (ha : ∀ u ∈ us, u.uid ≠ a.uid)
    (hn : (us.map (·.uid)).Nodup) (hf : us.find? (fun u => u.uid == t.uid) = some t) :
    swapIn (g t) a.uid (swapIn a t.uid us) = us.map fun u => if u.uid = t.uid then g u else u := by
  induction us with
  | nil => simp at hf
  | cons u us ih =>
    rw [List.map_cons, List.nodup_cons] at hn
    obtain ⟨hu, hn⟩ := hn
    by_cases h : u.uid = t.uid
    · obtain rfl : u = t := by simpa [h] using hf
      have hrest : ∀ x ∈ us, x.uid ≠ u.uid := fun x hx e => hu (List.mem_map.mpr ⟨x, hx, e⟩)
      simp [swapIn, map_uid_absent g hrest]
    · rw [List.find?_cons_of_neg (by simpa using h)] at hf
      have hua : u.uid ≠ a.uid := ha u (List.mem_cons_self ..)
      simp [swapIn, h, hua, ih (fun x hx => ha x (List.mem_cons_of_mem _ hx)) hn hf]

/-- The team in focus, once found again where it was swapped out. -/
theorem find_swapIn {a : Team} {uid : Nat} {us : List Team} (ha : ∀ u ∈ us, u.uid ≠ a.uid) {t : Team}
    (hf : us.find? (fun u => u.uid == uid) = some t) : (swapIn a uid us).find? (fun u => u.uid == a.uid) = some a := by
  induction us with
  | nil => simp at hf
  | cons u us ih =>
    have hua : u.uid ≠ a.uid := ha u (List.mem_cons_self ..)
    by_cases h : u.uid = uid
    · simp [swapIn, h]
    · rw [List.find?_cons_of_neg (by simpa using h)] at hf
      simp [swapIn, h, hua, ih (fun x hx => ha x (List.mem_cons_of_mem _ hx)) hf]

theorem focus_same {s : State} {uid : Nat} (h : s.team.uid = uid) : s.focus uid = s := if_pos (by rw [h]; exact beq_self_eq_true _)

theorem focus_other {s : State} {uid : Nat} {t : Team} (h : s.team.uid ≠ uid) (hf : s.others.find? (fun u => u.uid == uid) = some t) :
    s.focus uid = { s with team := t, others := swapIn s.team uid s.others } := by
  unfold State.focus
  rw [if_neg (by simpa using h), hf]

/-- Focus moves teams and leaves everything else. -/
theorem focus_frame (s : State) (uid : Nat) : s.focus uid = { s with team := (s.focus uid).team, others := (s.focus uid).others } := by
  unfold State.focus
  split
  · rfl
  · split <;> rfl

theorem onTeam_absent {s : State} {uid : Nat} (f : State → State) (h : ∀ u ∈ s.teams, u.uid ≠ uid) : onTeam s uid f = s := by
  have : s.find uid = none := List.find?_eq_none.mpr fun u hu => by simpa using h u hu
  unfold onTeam
  rw [this]

theorem onTeam_present {s : State} {uid : Nat} (f : State → State) (h : ∃ u ∈ s.teams, u.uid = uid) :
    onTeam s uid f = (f (s.focus uid)).focus s.team.uid := by
  obtain ⟨u, hu, e⟩ := h
  unfold onTeam
  cases hf : s.find uid with
  | none => exact absurd e (by simpa using List.find?_eq_none.mp hf u hu)
  | some t => rfl

/-- A change to a team in focus that is made there and keeps its handle changes it in its place. -/
theorem teams_onTeam {s : State} {uid : Nat} {f : State → State} {g : Team → Team} (hn : (s.teams.map (·.uid)).Nodup)
    (hf : ∀ x : State, (f x).team = g x.team ∧ (f x).others = x.others) (hg : ∀ u, (g u).uid = u.uid) :
    (onTeam s uid f).teams = s.teams.map fun u => if u.uid = uid then g u else u := by
  by_cases hu : ∃ u ∈ s.teams, u.uid = uid
  · rw [onTeam_present f hu]
    simp only [State.teams, List.map_cons, List.nodup_cons] at hn ⊢
    obtain ⟨hs, hn⟩ := hn
    have ha : ∀ u ∈ s.others, u.uid ≠ s.team.uid := fun u hu e => hs (List.mem_map.mpr ⟨u, hu, e⟩)
    by_cases h : s.team.uid = uid
    · rw [focus_same h, focus_same (by rw [(hf s).1, hg]), (hf s).1, (hf s).2, if_pos h, map_uid_absent g (h ▸ ha)]
    · obtain ⟨t, ht⟩ : ∃ t, s.others.find? (fun u => u.uid == uid) = some t := by
        obtain ⟨u, hu, e⟩ := hu
        have hu := (List.mem_cons.mp hu).resolve_left fun e' => h (e' ▸ e)
        exact Option.isSome_iff_exists.mp (List.find?_isSome.mpr ⟨u, hu, by simpa using e⟩)
      have htu : t.uid = uid := by simpa using List.find?_some (p := fun u : Team => u.uid == uid) ht
      subst htu
      obtain ⟨h1, h2⟩ := hf (s.focus t.uid)
      have hfo := focus_other h ht
      rw [hfo] at h1 h2
      rw [hfo, focus_other (t := s.team) (by rw [h1, hg]; exact Ne.symm h) (by rw [h2]; exact find_swapIn ha ht), h1, h2, if_neg h,
        swapIn_swapIn g (hg t) ha hn ht]
  · have : ∀ u ∈ s.teams, u.uid ≠ uid := fun u hm e => hu ⟨u, hm, e⟩
    rw [onTeam_absent f this, map_uid_absent g this]

/-! ### A team that leaves its group -/

/-- What a team that leaves its group keeps (R399, R400): all its registers but loop counters, its place and its special registers. -/
structure LeftGroup (u v : Team) : Prop where
  uid : v.uid = u.uid
  kind : v.kind = u.kind
  sp : v.sp = u.sp
  rf : v.rf = { u.rf with lc := v.rf.lc }

theorem LeftGroup.refl (u : Team) : LeftGroup u u := ⟨rfl, rfl, rfl, rfl⟩

theorem LeftGroup.trans {u v w : Team} (h1 : LeftGroup u v) (h2 : LeftGroup v w) : LeftGroup u w :=
  ⟨h2.uid.trans h1.uid, h2.kind.trans h1.kind, h2.sp.trans h1.sp, by rw [h2.rf, h1.rf]⟩

theorem loopEnd_left (pc : DWord) (k : Nat) (t : Team) : LeftGroup t (loopEnd pc k t).1 := by
  induction k generalizing t with
  | zero => exact ⟨rfl, rfl, rfl, rfl⟩
  | succ k ih =>
    unfold loopEnd
    split
    · exact ⟨rfl, rfl, rfl, rfl⟩
    · split
      · simp only
        split
        · exact ⟨rfl, rfl, rfl, rfl⟩
        · split
          · split
            · refine LeftGroup.trans ?_ (ih _)
              exact ⟨rfl, rfl, rfl, rfl⟩
            · exact ⟨rfl, rfl, rfl, rfl⟩
          · exact ⟨rfl, rfl, rfl, rfl⟩
      · exact ⟨rfl, rfl, rfl, rfl⟩

theorem passWait_left (t : Team) : LeftGroup t (passWait t) := by
  unfold passWait
  split
  · exact .refl t
  · have h := loopEnd_left t.ctl.pc t.ctl.loops.length t
    simp only
    split
    · exact h.trans ⟨rfl, rfl, rfl, rfl⟩
    · exact h.trans ⟨rfl, rfl, rfl, rfl⟩

theorem donePassed_left (t : Team) : LeftGroup t (donePassed t) := by
  unfold donePassed
  split
  · exact .refl t
  · exact ⟨rfl, rfl, rfl, rfl⟩

/-- What a team keeps does not depend on its hint buffer and on its book. -/
theorem LeftGroup.closes {t u : Team} (h : LeftGroup t u) :
    LeftGroup t { u with ctl := { u.ctl with buffer := [] }, book := { u.book with begun := false } } :=
  h.trans ⟨rfl, rfl, rfl, rfl⟩

theorem leaveGroup_left (t : Team) : LeftGroup t (leaveGroup t) := by
  unfold leaveGroup
  refine LeftGroup.closes ?_
  split
  · exact passWait_left t
  · exact passWait_left t
  · exact passWait_left t
  · exact passWait_left t
  · exact ⟨rfl, rfl, rfl, rfl⟩
  · exact ⟨rfl, rfl, rfl, rfl⟩
  · exact (passWait_left t).trans (donePassed_left _)
  · exact ⟨rfl, rfl, rfl, rfl⟩
  · exact ⟨rfl, rfl, rfl, rfl⟩

/-- A team in a context entry. -/
def inEntry (k : Nat) (t : Team) : Team := { leaveGroup t with stage := .evicted k, ver := leaveCore (leaveGroup t).ver }

theorem inEntry_left (k : Nat) (t : Team) : LeftGroup t (inEntry k t) := (leaveGroup_left t).trans ⟨rfl, rfl, rfl, rfl⟩

/-- What an eviction changes of the team in focus. -/
theorem teams_evictTo {s : State} (hn : (s.teams.map (·.uid)).Nodup) (uid k : Nat) :
    (evictTo s uid k).teams = s.teams.map fun u => if u.uid = uid then inEntry k u else u :=
  teams_onTeam hn (fun _ => ⟨rfl, rfl⟩) fun u => (inEntry_left k u).uid

/-- What an eviction keeps of the rest of the part, and the entry that it takes. -/
theorem evictTo_rest (s : State) (uid k : Nat) : (evictTo s uid k).mgmt = s.mgmt ∧ (evictTo s uid k).gangs = s.gangs
    ∧ (evictTo s uid k).host = s.host ∧ ((evictTo s uid k).sched.ctxUsed = s.sched.ctxUsed ∨ (evictTo s uid k).sched.ctxUsed = k :: s.sched.ctxUsed) := by
  by_cases h : ∃ u ∈ s.teams, u.uid = uid
  · unfold evictTo
    rw [onTeam_present _ h, focus_frame]
    rw [focus_frame s uid]
    exact ⟨rfl, rfl, rfl, .inr rfl⟩
  · unfold evictTo
    rw [onTeam_absent _ fun u hu e => h ⟨u, hu, e⟩]
    exact ⟨rfl, rfl, rfl, .inl rfl⟩

/-- One entry fewer is free at most. -/
theorem length_filter_ne {xs : List Nat} (h : xs.Nodup) (k : Nat) : xs.length ≤ (xs.filter (· != k)).length + 1 := by
  rw [← h.erase_eq_filter, List.length_erase]
  split <;> omega

theorem freeEntries_evictTo (s : State) (uid k : Nat) : (freeEntries s).length ≤ (freeEntries (evictTo s uid k)).length + 1 := by
  obtain ⟨-, -, hh, hu⟩ := evictTo_rest s uid k
  have he : ctxEntries (evictTo s uid k) = ctxEntries s := by unfold ctxEntries; rw [hh]
  rcases hu with hu | hu
  · have : freeEntries (evictTo s uid k) = freeEntries s := by unfold freeEntries; rw [he, hu]
    rw [this]
    omega
  · have : freeEntries (evictTo s uid k) = (freeEntries s).filter (· != k) := by
      unfold freeEntries
      rw [he, hu, List.filter_filter]
      refine List.filter_congr fun x _ => ?_
      rw [List.contains_cons, Bool.not_or]
      rfl
    rw [this]
    exact length_filter_ne (List.nodup_range.filter _) k

/-! ### Evictions -/

/-- A change of teams under which those with some handles leave their groups and the others stay. -/
structure Leaving (D : List Nat) (g : Team → Team) : Prop where
  left : ∀ u, u.uid ∈ D → LeftGroup u (g u) ∧ ∃ k, (g u).stage = .evicted k
  stays : ∀ u, u.uid ∉ D → g u = u

theorem Leaving.uid {D : List Nat} {g : Team → Team} (h : Leaving D g) (u : Team) : (g u).uid = u.uid := by
  by_cases hu : u.uid ∈ D
  · exact (h.left u hu).1.uid
  · rw [h.stays u hu]

theorem Leaving.comp {D E : List Nat} {g g' : Team → Team} (h : Leaving D g) (h' : Leaving E g') : Leaving (D ++ E) (g' ∘ g) where
  left u hu := by
    by_cases hE : u.uid ∈ E
    · have hl := h'.left (g u) (by rw [h.uid]; exact hE)
      refine ⟨?_, hl.2⟩
      by_cases hD : u.uid ∈ D
      · exact (h.left u hD).1.trans hl.1
      · have hu := hl.1
        rw [h.stays u hD] at hu
        rw [Function.comp_apply, h.stays u hD]
        exact hu
    · have hD := (List.mem_append.mp hu).resolve_right hE
      have hg : g' (g u) = g u := h'.stays _ (by rw [h.uid]; exact hE)
      rw [Function.comp_apply, hg]
      exact h.left u hD
  stays u hu := by
    rw [List.mem_append, not_or] at hu
    rw [Function.comp_apply, h.stays u hu.1, h'.stays u hu.2]

/-- From one state to another the teams with some handles have been evicted. -/
structure Evictions (D : List Nat) (s t : State) : Prop where
  teams : ∃ g, Leaving D g ∧ t.teams = s.teams.map g
  mgmt : t.mgmt = s.mgmt
  gangs : t.gangs = s.gangs
  entries : (freeEntries s).length ≤ (freeEntries t).length + D.length

theorem Evictions.refl (s : State) : Evictions [] s s :=
  ⟨⟨id, ⟨fun _ h => (List.not_mem_nil h).elim, fun _ _ => rfl⟩, (List.map_id _).symm⟩, rfl, rfl, Nat.le_refl _⟩

theorem Evictions.trans {D E : List Nat} {s t r : State} (h : Evictions D s t) (h' : Evictions E t r) : Evictions (D ++ E) s r := by
  obtain ⟨g, hg, ht⟩ := h.teams
  obtain ⟨g', hg', hr⟩ := h'.teams
  refine ⟨⟨g' ∘ g, hg.comp hg', by rw [hr, ht, List.map_map]⟩, h'.mgmt.trans h.mgmt, h'.gangs.trans h.gangs, ?_⟩
  have h1 := h.entries
  have h2 := h'.entries
  rw [List.length_append]
  omega

theorem Evictions.uids {D : List Nat} {s t : State} (h : Evictions D s t) : t.teams.map (·.uid) = s.teams.map (·.uid) := by
  obtain ⟨g, hg, ht⟩ := h.teams
  rw [ht, List.map_map]
  exact List.map_congr_left fun u _ => hg.uid u

/-- A team that has left is in an entry. -/
theorem Evictions.left {D : List Nat} {s t : State} (h : Evictions D s t) {u : Team} (hu : u ∈ s.teams) (hD : u.uid ∈ D) :
    ∃ v ∈ t.teams, LeftGroup u v ∧ ∃ k, v.stage = .evicted k := by
  obtain ⟨g, hg, ht⟩ := h.teams
  exact ⟨g u, ht ▸ List.mem_map_of_mem hu, hg.left u hD⟩

/-- Every other team stays as it was. -/
theorem Evictions.stays {D : List Nat} {s t : State} (h : Evictions D s t) {u : Team} (hu : u ∈ s.teams) (hD : u.uid ∉ D) : u ∈ t.teams := by
  obtain ⟨g, hg, ht⟩ := h.teams
  rw [ht]
  exact List.mem_map.mpr ⟨u, hu, hg.stays u hD⟩

/-- A resident of a later state was one before, unchanged, and has not left. -/
theorem Evictions.resident {D : List Nat} {s t : State} (h : Evictions D s t) {v : Team} (hv : v ∈ t.teams) (hr : v.stage = .resident) :
    v ∈ s.teams ∧ v.uid ∉ D := by
  obtain ⟨g, hg, ht⟩ := h.teams
  rw [ht] at hv
  obtain ⟨u, hu, rfl⟩ := List.mem_map.mp hv
  by_cases hD : u.uid ∈ D
  · obtain ⟨-, k, hk⟩ := hg.left u hD
    rw [hk] at hr
    cases hr
  · rw [hg.stays u hD]
    exact ⟨hu, hD⟩

/-- A team that holds a slot. -/
def holdsSlot (t : Team) : Bool := t.kind == .core && t.stage == .resident

theorem residents_eq (s : State) : residents s = s.teams.filter holdsSlot := rfl

theorem holdsSlot_iff (t : Team) : holdsSlot t = true ↔ t.kind = .core ∧ t.stage = .resident := by
  rw [holdsSlot, Bool.and_eq_true, beq_iff_eq, beq_iff_eq]

theorem mem_residents {s : State} {t : Team} : t ∈ residents s ↔ t ∈ s.teams ∧ t.kind = .core ∧ t.stage = .resident := by
  rw [residents_eq, List.mem_filter, holdsSlot_iff]

/-- Residents only go. -/
theorem Evictions.residents_sublist {D : List Nat} {s t : State} (h : Evictions D s t) : (residents t).Sublist (residents s) := by
  obtain ⟨g, hg, ht⟩ := h.teams
  have hid : ∀ u, holdsSlot (g u) = true → g u = u := by
    intro u hu
    by_cases hD : u.uid ∈ D
    · obtain ⟨-, k, hk⟩ := hg.left u hD
      have := ((holdsSlot_iff _).mp hu).2
      rw [hk] at this
      cases this
    · exact hg.stays u hD
  have hm : (s.teams.filter (holdsSlot ∘ g)).map g = s.teams.filter (holdsSlot ∘ g) :=
    (List.map_congr_left (g := id) fun u hu => hid u (List.mem_filter.mp hu).2).trans (List.map_id _)
  rw [residents_eq, residents_eq, ht, List.filter_map, hm]
  exact List.monotone_filter_right _ fun u hu => hid u hu ▸ hu

theorem evictTo_evictions {s : State} (hn : (s.teams.map (·.uid)).Nodup) (uid k : Nat) : Evictions [uid] s (evictTo s uid k) := by
  obtain ⟨hm, hg, -, -⟩ := evictTo_rest s uid k
  refine ⟨⟨_, ⟨fun u hu => ?_, fun u hu => ?_⟩, teams_evictTo hn uid k⟩, hm, hg, freeEntries_evictTo s uid k⟩
  · rw [if_pos (List.mem_singleton.mp hu)]
    exact ⟨inEntry_left k u, k, rfl⟩
  · exact if_neg fun e => hu (List.mem_singleton.mpr e)

theorem evictEach_evictions {s : State} (hn : (s.teams.map (·.uid)).Nodup) (xs : List (Team × Nat)) :
    Evictions (xs.map fun x => x.1.uid) s (xs.foldl (fun s x => evictTo s x.1.uid x.2) s) := by
  induction xs generalizing s with
  | nil => exact .refl s
  | cons x xs ih =>
    have h := evictTo_evictions hn x.1.uid x.2
    exact h.trans (ih (h.uids ▸ hn))

theorem map_fst_zip_take {α β : Type} (xs : List α) (ys : List β) : (xs.zip ys).map Prod.fst = xs.take ys.length := by
  induction xs generalizing ys with
  | nil => simp
  | cons x xs ih =>
    cases ys with
    | nil => simp
    | cons y ys => simp [ih]

/-- Teams are evicted as far as entries go (log 81). -/
theorem evictAll_evictions {s : State} (hn : (s.teams.map (·.uid)).Nodup) (vs : List Team) :
    Evictions ((vs.take (freeEntries s).length).map (·.uid)) s (evictAll s vs) := by
  have h := evictEach_evictions hn (vs.zip (freeEntries s))
  have hz : (vs.zip (freeEntries s)).map (fun x => x.1.uid) = (vs.take (freeEntries s).length).map (·.uid) := by
    rw [← map_fst_zip_take, List.map_map]
    rfl
  rw [hz] at h
  exact h

end Sys2Proof.Machine
end

section
/-! SUPPORT. A core that fails with no spare left (R13): its teams leave, the vertex wave of its cluster moves. -/

namespace Sys2Proof.Machine

/-! ### The units that leave -/

theorem nodup_eraseDups {α : Type} [BEq α] [LawfulBEq α] (xs : List α) : xs.eraseDups.Nodup := by
  match xs with
  | [] => exact List.nodup_nil
  | x :: xs =>
    rw [List.eraseDups_cons, List.nodup_cons]
    refine ⟨fun h => ?_, nodup_eraseDups _⟩
    have := (List.mem_filter.mp (List.mem_eraseDups.mp h)).2
    simp at this
termination_by xs.length
decreasing_by exact Nat.lt_succ_of_le (List.length_filter_le ..)

/-- The teams that a failed core makes leave. -/
def leavingTeams (s : State) : List Team := (residents s).filter (leaves s)

theorem leavingTeams_subset (s : State) : leavingTeams s ⊆ s.teams :=
  fun _ h => (mem_residents.mp (List.mem_filter.mp h).1).1

/-- Two teams of one matrix pair. -/
def pairMate (t u : Team) : Bool := u.pl.role == 2 && u.pl.grid == t.pl.grid && u.pl.gang == t.pl.gang && u.pl.pair == t.pl.pair

/-- The teams that a team leaves with. -/
def unitOfTeam (ts : List Team) (t : Team) : List Team := if t.pl.role == 2 then ts.filter (pairMate t) else [t]

theorem leavingUnits_eq (s : State) : leavingUnits s = ((leavingTeams s).map (unitOfTeam (leavingTeams s))).eraseDups := rfl

theorem mem_leavingUnits {s : State} {us : List Team} : us ∈ leavingUnits s ↔ ∃ t ∈ leavingTeams s, unitOfTeam (leavingTeams s) t = us := by
  rw [leavingUnits_eq, List.mem_eraseDups, List.mem_map]

theorem pairMate_iff (t u : Team) :
    pairMate t u = true ↔ u.pl.role = 2 ∧ u.pl.grid = t.pl.grid ∧ u.pl.gang = t.pl.gang ∧ u.pl.pair = t.pl.pair := by
  simp only [pairMate, Bool.and_eq_true, beq_iff_eq, and_assoc]

theorem unitOfTeam_matrix (ts : List Team) {t : Team} (h : t.pl.role = 2) : unitOfTeam ts t = ts.filter (pairMate t) :=
  if_pos (beq_iff_eq.mpr h)

theorem unitOfTeam_single (ts : List Team) {t : Team} (h : t.pl.role ≠ 2) : unitOfTeam ts t = [t] :=
  if_neg fun e => h (beq_iff_eq.mp e)

theorem mem_unitOfTeam_self {ts : List Team} {t : Team} (h : t ∈ ts) : t ∈ unitOfTeam ts t := by
  by_cases hr : t.pl.role = 2
  · rw [unitOfTeam_matrix ts hr]
    exact List.mem_filter.mpr ⟨h, (pairMate_iff t t).mpr ⟨hr, rfl, rfl, rfl⟩⟩
  · rw [unitOfTeam_single ts hr]
    exact List.mem_singleton_self t

theorem unitOfTeam_subset {ts : List Team} {t : Team} (h : t ∈ ts) : unitOfTeam ts t ⊆ ts := by
  by_cases hr : t.pl.role = 2
  · rw [unitOfTeam_matrix ts hr]
    exact List.filter_subset_self _
  · rw [unitOfTeam_single ts hr]
    exact List.cons_subset.mpr ⟨h, List.nil_subset _⟩

theorem nodup_unitOfTeam {ts : List Team} (h : ts.Nodup) (t : Team) : (unitOfTeam ts t).Nodup := by
  by_cases hr : t.pl.role = 2
  · rw [unitOfTeam_matrix ts hr]
    exact h.filter _
  · rw [unitOfTeam_single ts hr]
    exact List.nodup_singleton t

/-- A unit is the unit of each of its teams. -/
theorem unitOfTeam_mate {ts : List Team} {t x : Team} (h : x ∈ unitOfTeam ts t) : unitOfTeam ts t = unitOfTeam ts x := by
  by_cases hr : t.pl.role = 2
  · rw [unitOfTeam_matrix ts hr] at h ⊢
    obtain ⟨hx, hg, hi, hp⟩ := (pairMate_iff t x).mp (List.mem_filter.mp h).2
    rw [unitOfTeam_matrix ts hx]
    refine List.filter_congr fun u _ => ?_
    rw [pairMate, pairMate, hg, hi, hp]
  · rw [unitOfTeam_single ts hr] at h
    rw [List.mem_singleton.mp h]

/-- The units hold each team that leaves once. -/
theorem nodup_units {s : State} (h : s.teams.Nodup) : (leavingUnits s).flatten.Nodup := by
  have hts : (leavingTeams s).Nodup := (h.filter _).filter _
  refine List.nodup_flatten.mpr ⟨fun us hus => ?_, ?_⟩
  · obtain ⟨t, -, rfl⟩ := mem_leavingUnits.mp hus
    exact nodup_unitOfTeam hts t
  · have hne : (leavingUnits s).Pairwise (· ≠ ·) := nodup_eraseDups _
    refine hne.imp_of_mem fun {us vs} hu hv hne x hxu hxv => hne ?_
    obtain ⟨t, -, rfl⟩ := mem_leavingUnits.mp hu
    obtain ⟨t', -, rfl⟩ := mem_leavingUnits.mp hv
    rw [unitOfTeam_mate hxu, unitOfTeam_mate hxv]

theorem mem_units {s : State} {t : Team} : t ∈ (leavingUnits s).flatten ↔ t ∈ leavingTeams s := by
  rw [List.mem_flatten]
  constructor
  · rintro ⟨us, hus, ht⟩
    obtain ⟨t', ht', rfl⟩ := mem_leavingUnits.mp hus
    exact unitOfTeam_subset ht' ht
  · exact fun h => ⟨_, mem_leavingUnits.mpr ⟨t, h, rfl⟩, mem_unitOfTeam_self h⟩

theorem length_units {s : State} (h : s.teams.Nodup) : (leavingUnits s).flatten.length ≤ (leavingTeams s).length :=
  ((nodup_units h).subperm fun _ hx => mem_units.mp hx).length_le

/-! ### Who leaves -/

theorem pairBusy_congr {s t : State} (h : t.gangs = s.gangs) (u : Team) : pairBusy t u = pairBusy s u := by
  have : pairOfTeam t u = pairOfTeam s u := by unfold pairOfTeam State.gangOf; rw [h]
  unfold pairBusy
  rw [this]

/-- A team that nothing keeps (R232, R358). -/
abbrev FreeToLeave (s : State) (u : Team) : Prop := u.wait ≠ .locus ∧ pairBusy s u = false

theorem canLeave_iff (s : State) (ts : List Team) :
    canLeave s ts = true ↔ (∀ u ∈ ts, FreeToLeave s u) ∧ ts.length ≤ (freeEntries s).length := by
  simp only [canLeave, Bool.and_eq_true, List.all_eq_true, bne_iff_ne, Bool.not_eq_true', List.any_eq_false, decide_eq_true_eq,
    Bool.not_eq_true]
  constructor
  · rintro ⟨⟨h1, h2⟩, h3⟩
    exact ⟨fun u hu => ⟨h1 u hu, h2 u hu⟩, h3⟩
  · rintro ⟨h1, h2⟩
    exact ⟨⟨fun u hu => (h1 u hu).1, fun u hu => (h1 u hu).2⟩, h2⟩

/-- One unit leaves if it can. -/
def leaveUnit (s : State) (ts : List Team) : State := if canLeave s ts then evictAll s ts else s

theorem leaveFenced_eq {s : State} (h : s.mgmt.fenced ≠ []) : leaveFenced s = (leavingUnits s).foldl leaveUnit s :=
  if_neg fun e => h (List.isEmpty_iff.mp e)

/-- Units that nothing keeps leave, with entries enough for all. -/
theorem leaveUnits_evictions {s : State} (hn : (s.teams.map (·.uid)).Nodup) (us : List (List Team))
    (hf : ∀ u ∈ us.flatten, FreeToLeave s u) (hl : us.flatten.length ≤ (freeEntries s).length) :
    Evictions (us.flatten.map (·.uid)) s (us.foldl leaveUnit s) := by
  induction us generalizing s with
  | nil => exact .refl s
  | cons ts us ih =>
    rw [List.flatten_cons, List.length_append] at hl
    rw [List.flatten_cons] at hf ⊢
    have hc : canLeave s ts = true := (canLeave_iff s ts).mpr ⟨fun u hu => hf u (List.mem_append_left _ hu), by omega⟩
    have h : Evictions (ts.map (·.uid)) s (leaveUnit s ts) := by
      have := evictAll_evictions hn ts
      rw [List.take_of_length_le (by omega)] at this
      rw [leaveUnit, if_pos hc]
      exact this
    have he := h.entries
    rw [List.length_map] at he
    rw [List.map_append]
    refine h.trans (ih (h.uids ▸ hn) (fun u hu => ?_) (by omega))
    have := hf u (List.mem_append_right _ hu)
    exact ⟨this.1, (pairBusy_congr h.gangs u).trans this.2⟩

/-- A team that waits for its Locus engine stays, with whoever would leave with it (R358). -/
theorem leaveUnits_locus {s : State} (hn : (s.teams.map (·.uid)).Nodup) (us : List (List Team)) {uid : Nat}
    (hw : ∀ ts ∈ us, (∃ u ∈ ts, u.uid = uid) → ∃ u ∈ ts, u.wait = .locus) :
    ∃ D, uid ∉ D ∧ Evictions D s (us.foldl leaveUnit s) := by
  induction us generalizing s with
  | nil => exact ⟨[], List.not_mem_nil, .refl s⟩
  | cons ts us ih =>
    obtain ⟨D, hD, h⟩ : ∃ D, uid ∉ D ∧ Evictions D s (leaveUnit s ts) := by
      unfold leaveUnit
      split
      case isTrue hc =>
        refine ⟨_, fun hm => ?_, evictAll_evictions hn ts⟩
        obtain ⟨u, hu, e⟩ := List.mem_map.mp hm
        obtain ⟨v, hv, hl⟩ := hw ts (List.mem_cons_self ..) ⟨u, List.mem_of_mem_take hu, e⟩
        exact (((canLeave_iff s ts).mp hc).1 v hv).1 hl
      case isFalse => exact ⟨[], List.not_mem_nil, .refl s⟩
    obtain ⟨E, hE, h'⟩ := ih (h.uids ▸ hn) fun vs hvs => hw vs (List.mem_cons_of_mem _ hvs)
    exact ⟨D ++ E, fun hm => (List.mem_append.mp hm).elim hD hE, h.trans h'⟩

/-! ### Room for the vertex wave -/

theorem freeSlot_mono {ss rs : List Seat} (h : rs ⊆ ss) {core group : Nat} (hs : (freeSlot ss core group).isSome = true) :
    (freeSlot rs core group).isSome = true := by
  obtain ⟨k, hk, hp⟩ := List.find?_isSome.mp hs
  refine List.find?_isSome.mpr ⟨k, hk, ?_⟩
  rw [Bool.not_eq_true', List.any_eq_false] at hp ⊢
  exact fun x hx => hp x (h hx)

theorem foldl_bytes (ss : List Seat) (n : Nat) : ss.foldl (fun n x => n + x.bytes) n = n + (ss.map (·.bytes)).sum := by
  induction ss generalizing n with
  | nil => rfl
  | cons x xs ih => rw [List.foldl_cons, ih, List.map_cons, List.sum_cons, Nat.add_assoc]

theorem freeBytes_mono {ss rs : List Seat} (h : rs.Sublist ss) (core group : Nat) : freeBytes ss core group ≤ freeBytes rs core group := by
  have := ((h.filter fun x => x.core == core && x.group == group).map (·.bytes)).sum_le_sum fun _ _ => Nat.zero_le _
  unfold freeBytes
  rw [foldl_bytes, foldl_bytes]
  omega

theorem seatsOn_sublist {s t : State} (h : (residents t).Sublist (residents s)) (core : Nat) : (seatsOn t core).Sublist (seatsOn s core) :=
  (h.filter _).map _

/-- With fewer residents there is room still. -/
theorem waveRoom_mono {s t : State} (h : (residents t).Sublist (residents s)) {core : Nat} (hs : (waveRoom s core).isSome = true) :
    (waveRoom t core).isSome = true := by
  have hsub := seatsOn_sublist h core
  have hb := freeBytes_mono hsub core 0
  unfold waveRoom at hs ⊢
  by_cases hr : 8192 ≤ freeBytes (seatsOn s core) core 0
  · rw [if_pos hr] at hs
    rw [if_pos (by omega)]
    exact freeSlot_mono hsub.subset hs
  · rw [if_neg hr] at hs
    cases hs

theorem mem_insertBy {α : Type} {lt : α → α → Bool} {x y : α} {xs : List α} : y ∈ insertBy lt x xs ↔ y = x ∨ y ∈ xs := by
  induction xs with
  | nil => simp [insertBy]
  | cons z zs ih =>
    unfold insertBy
    split
    · exact List.mem_cons
    · rw [List.mem_cons, ih, List.mem_cons]
      tauto

theorem mem_sortBy {α : Type} {lt : α → α → Bool} {y : α} {xs : List α} : y ∈ sortBy lt xs ↔ y ∈ xs := by
  induction xs with
  | nil => exact Iff.rfl
  | cons x xs ih => rw [sortBy, mem_insertBy, ih, List.mem_cons]

/-- The teams that may make room for a wave on a core (log 81). -/
def wavesWay (s : State) (core : Nat) : List Team :=
  (residents s).filter fun t => t.pl.core == core && t.pl.group == 0 && t.pl.role != 2 && t.wait != .locus

theorem clearSeat_room {s : State} {core : Nat} (fuel : Nat) (h : (waveRoom s core).isSome = true) : (clearSeat core fuel s).1 = s := by
  cases fuel with
  | zero => rfl
  | succ k =>
    obtain ⟨slot, hs⟩ := Option.isSome_iff_exists.mp h
    unfold clearSeat
    rw [hs]

/-- Only residents that no Locus engine works for make room for the wave (R358). -/
theorem clearSeat_evictions {s : State} (hn : (s.teams.map (·.uid)).Nodup) (core fuel : Nat) :
    ∃ D, (∀ d ∈ D, ∃ u ∈ residents s, u.wait ≠ .locus ∧ u.uid = d) ∧ Evictions D s (clearSeat core fuel s).1 := by
  have hno : ∀ s, ∃ D, (∀ d ∈ D, ∃ u ∈ residents s, u.wait ≠ .locus ∧ u.uid = d) ∧ Evictions D s s :=
    fun s => ⟨[], fun d hd => (List.not_mem_nil hd).elim, .refl s⟩
  induction fuel generalizing s with
  | zero => exact hno s
  | succ k ih =>
    unfold clearSeat
    split
    · exact hno s
    · simp only
      split
      · exact hno s
      case _ v vs hv =>
        have hv : v ∈ sortBy victimBefore ((wavesWay s core).map fun t => [t]) := by
          unfold wavesWay
          rw [hv]
          exact List.mem_cons_self ..
        obtain ⟨u, hu, rfl⟩ := List.mem_map.mp (mem_sortBy.mp hv)
        obtain ⟨hu, hway⟩ := List.mem_filter.mp hu
        have hw : u.wait ≠ .locus := bne_iff_ne.mp (Bool.and_eq_true_iff.mp hway).2
        have h := evictAll_evictions hn [u]
        obtain ⟨E, hE, h'⟩ := ih (h.uids ▸ hn)
        refine ⟨_, fun d hd => ?_, h.trans h'⟩
        rcases List.mem_append.mp hd with hd | hd
        · obtain ⟨x, hx, rfl⟩ := List.mem_map.mp hd
          exact ⟨u, hu, hw, by rw [List.mem_singleton.mp (List.mem_of_mem_take hx)]⟩
        · obtain ⟨x, hx, hxw, rfl⟩ := hE d hd
          exact ⟨x, h.residents_sublist.subset hx, hxw, rfl⟩

end Sys2Proof.Machine
end

section
/-! SUPPORT. The failure of a core (R13, R358) as a whole, and the management statement. -/

namespace Sys2Proof.Machine
/-! ### The vertex wave moves -/

/-- A vertex wave that stands on a core, moved to a slot of another. -/
def waveTo (core next slot : Nat) (t : Team) : Team :=
  if t.kind == .wave && t.pl.core == core then { t with pl := { t.pl with core := next, group := 0, slot := slot } } else t

theorem waveTo_wave {core : Nat} (next slot : Nat) {t : Team} (hk : t.kind = .wave) (hc : t.pl.core = core) :
    waveTo core next slot t = { t with pl := { t.pl with core := next, group := 0, slot := slot } } :=
  if_pos (by rw [hk, hc]; simp)

theorem waveTo_other {core : Nat} (next slot : Nat) {t : Team} (h : ¬(t.kind = .wave ∧ t.pl.core = core)) : waveTo core next slot t = t :=
  if_neg fun e => h (by rwa [Bool.and_eq_true, beq_iff_eq, beq_iff_eq] at e)

theorem kind_waveTo (core next slot : Nat) (t : Team) : (waveTo core next slot t).kind = t.kind := by
  unfold waveTo
  split <;> rfl

/-- The state with a cluster's wave placed at a seat, teams having left for it. -/
def seatWave (core next : Nat) (r : State × Nat) : State :=
  { r.1 with mgmt := { r.1.mgmt with waves := r.1.mgmt.waves.set (clusterOf core) (next, r.2) } }.mapTeams (waveTo core next r.2)

theorem moveWave_home {s : State} {core : Nat} (h : (waveSeat s (clusterOf core)).1 = core) :
    moveWave s core = seatWave core (nextWaveCore s core) (clearSeat (nextWaveCore s core) 17 s) := if_pos h

theorem moveWave_away {s : State} {core : Nat} (h : (waveSeat s (clusterOf core)).1 ≠ core) : moveWave s core = s := if_neg h

theorem seatWave_teams (core next : Nat) (r : State × Nat) : (seatWave core next r).teams = r.1.teams.map (waveTo core next r.2) := rfl

theorem seatWave_mgmt (core next : Nat) (r : State × Nat) :
    (seatWave core next r).mgmt = { r.1.mgmt with waves := r.1.mgmt.waves.set (clusterOf core) (next, r.2) } := rfl

theorem seatWave_seat {core : Nat} (next : Nat) {r : State × Nat} (h : clusterOf core < r.1.mgmt.waves.length) :
    waveSeat (seatWave core next r) (clusterOf core) = (next, r.2) := by
  unfold waveSeat
  rw [seatWave_mgmt, List.getD_eq_getElem?_getD, List.getElem?_set_self h]
  rfl

/-- The next core is one that serves, if the cluster has one. -/
theorem nextWaveCore_serves {s : State} {core : Nat} (h : ∃ k, k < 8 ∧ core / 8 * 8 + k ∉ s.mgmt.fenced) :
    nextWaveCore s core ∉ s.mgmt.fenced := by
  obtain ⟨k, hk, hf⟩ := h
  have hs : (((List.range 8).map fun k => core / 8 * 8 + (core + 1 + k) % 8).find? fun k => !s.mgmt.fenced.contains k).isSome = true := by
    refine List.find?_isSome.mpr ⟨core / 8 * 8 + k, List.mem_map.mpr ⟨(k + 7 * (core + 1)) % 8, List.mem_range.mpr (by omega), ?_⟩, by simpa using hf⟩
    congr 1
    omega
  obtain ⟨x, hx⟩ := Option.isSome_iff_exists.mp hs
  have := List.find?_some hx
  unfold nextWaveCore
  rw [hx]
  simpa using this

/-! ### The failed core -/

theorem nodup_of_uids {us : List Team} (h : (us.map (·.uid)).Nodup) : us.Nodup := List.Nodup.of_map _ h

theorem eq_of_uid {us : List Team} (h : (us.map (·.uid)).Nodup) {u v : Team} (hu : u ∈ us) (hv : v ∈ us) (e : u.uid = v.uid) : u = v :=
  List.inj_on_of_nodup_map h hu hv e

/-- A team that leaves is a core team, in its seat. -/
theorem leavingTeams_resident {s : State} {u : Team} (h : u ∈ leavingTeams s) : u ∈ s.teams ∧ u.kind = .core ∧ u.stage = .resident :=
  mem_residents.mp (List.mem_filter.mp h).1

/-- The teams on a fenced core leave. -/
theorem leaves_fenced {s : State} {u : Team} (hk : u.kind = .core) (hr : u.stage = .resident) (hf : u.pl.core ∈ s.mgmt.fenced) :
    leaves s u = true := by
  unfold leaves
  rw [hk, hr]
  refine List.any_eq_true.mpr ⟨u.pl.core, hf, ?_⟩
  rw [beq_self_eq_true, Bool.true_or]

theorem mem_leavingTeams {s : State} {u : Team} : u ∈ leavingTeams s ↔ u ∈ residents s ∧ leaves s u = true := List.mem_filter

/-- A core that has failed with no spare left and may be left at once: every team that leaves is free to, with an entry for it. -/
structure FailsFreely (s : State) (core : Nat) : Prop where
  uids : (s.teams.map (·.uid)).Nodup
  room : (leavingTeams (fenceCore s core)).length ≤ (freeEntries s).length
  free : ∀ u ∈ leavingTeams (fenceCore s core), FreeToLeave s u

theorem FailsFreely.left {s : State} {core : Nat} (h : FailsFreely s core) :
    ∃ D, Evictions D (fenceCore s core) (leaveFenced (fenceCore s core)) ∧ ∀ u ∈ s.teams, u.uid ∈ D ↔ u ∈ leavingTeams (fenceCore s core) := by
  refine ⟨(leavingUnits (fenceCore s core)).flatten.map (·.uid), ?_, fun u hu => ?_⟩
  · rw [leaveFenced_eq (List.cons_ne_nil _ _)]
    exact leaveUnits_evictions (s := fenceCore s core) h.uids _ (fun u hu => h.free u (mem_units.mp hu))
      ((length_units (s := fenceCore s core) (nodup_of_uids h.uids)).trans h.room)
  · constructor
    · intro hm
      obtain ⟨v, hv, e⟩ := List.mem_map.mp hm
      have hv := mem_units.mp hv
      have hvs : v ∈ s.teams := leavingTeams_subset (fenceCore s core) hv
      rwa [← eq_of_uid h.uids hvs hu e]
    · exact fun hm => List.mem_map_of_mem (mem_units.mpr hm)

/-- What the failure of a core leaves, its teams gone and its cluster's wave moved (R13): `left` holds the handles of those that have left
it, `made` of those that have made room for the wave, and `f` moves the wave. -/
structure CoreLeft (s : State) (core : Nat) (left made : List Nat) (f : Team → Team) (t : State) : Prop where
  teams : ∃ r, Evictions (left ++ made) (fenceCore s core) r ∧ t.teams = r.teams.map f
  left_iff : ∀ u ∈ s.teams, u.uid ∈ left ↔ u ∈ leavingTeams (fenceCore s core)
  made_core : ∀ d ∈ made, ∃ u ∈ residents s, u.uid = d
  others : ∀ u, ¬(u.kind = .wave ∧ u.pl.core = core) → f u = u
  kind : ∀ u, (f u).kind = u.kind

section
variable {s t : State} {core : Nat} {gone made : List Nat} {f : Team → Team}

theorem CoreLeft.core_stays (h : CoreLeft s core gone made f t) {u : Team} (hk : u.kind = .core) : f u = u :=
  h.others u fun e => by rw [hk] at e; cases e.1

/-- No team stays on the core. -/
theorem CoreLeft.empty (h : CoreLeft s core gone made f t) {v : Team} (hv : v ∈ t.teams) (hk : v.kind = .core) (hr : v.stage = .resident) :
    v.pl.core ≠ core := by
  obtain ⟨r, he, ht⟩ := h.teams
  rw [ht] at hv
  obtain ⟨u, hu, rfl⟩ := List.mem_map.mp hv
  rw [h.kind] at hk
  rw [h.core_stays hk] at hr ⊢
  obtain ⟨hs, hD⟩ := he.resident hu hr
  intro hc
  have hl : u ∈ leavingTeams (fenceCore s core) :=
    mem_leavingTeams.mpr ⟨mem_residents.mpr ⟨hs, hk, hr⟩, leaves_fenced hk hr (hc ▸ List.mem_cons_self ..)⟩
  exact hD (List.mem_append_left _ ((h.left_iff u hs).mpr hl))

/-- Those that leave are in context entries. -/
theorem CoreLeft.left (h : CoreLeft s core gone made f t) {u : Team} (hu : u ∈ leavingTeams (fenceCore s core)) :
    ∃ v ∈ t.teams, LeftGroup u v ∧ ∃ k, v.stage = .evicted k := by
  obtain ⟨r, he, ht⟩ := h.teams
  obtain ⟨hs, hk, -⟩ := leavingTeams_resident hu
  obtain ⟨v, hv, hg, hst⟩ := he.left hs (List.mem_append_left _ ((h.left_iff u hs).mpr hu))
  refine ⟨v, ?_, hg, hst⟩
  rw [ht]
  exact List.mem_map.mpr ⟨v, hv, h.core_stays (hg.kind.trans hk)⟩

/-- Teams that neither leave nor make room stay where they are, but for the wave. -/
theorem CoreLeft.mem (h : CoreLeft s core gone made f t) {u : Team} (hu : u ∈ s.teams) (hl : u ∉ leavingTeams (fenceCore s core))
    (hm : u.uid ∉ made) : f u ∈ t.teams := by
  obtain ⟨r, he, ht⟩ := h.teams
  have hD : u.uid ∉ gone ++ made := by
    rw [List.mem_append, not_or]
    exact ⟨fun e => hl ((h.left_iff u hu).mp e), hm⟩
  rw [ht]
  exact List.mem_map_of_mem (he.stays hu hD)

/-- The wave is no team that leaves. -/
theorem CoreLeft.wave (h : CoreLeft s core gone made f t) (hn : (s.teams.map (·.uid)).Nodup) {u : Team} (hu : u ∈ s.teams)
    (hk : u.kind = .wave) : f u ∈ t.teams := by
  refine h.mem hu (fun hl => ?_) fun hm => ?_
  · have := (leavingTeams_resident hl).2.1
    rw [hk] at this
    cases this
  · obtain ⟨v, hv, e⟩ := h.made_core _ hm
    obtain ⟨hvs, hvk, -⟩ := mem_residents.mp hv
    rw [eq_of_uid hn hvs hu e, hk] at hvk
    cases hvk

end

/-- The core away from the wave's seat. -/
theorem coreLeft_away {s : State} {core : Nat} (h : FailsFreely s core) :
    ∃ left, CoreLeft s core left [] id (leaveFenced (fenceCore s core)) := by
  obtain ⟨D, he, hD⟩ := h.left
  exact ⟨D, ⟨_, by rwa [List.append_nil], (List.map_id _).symm⟩, hD, fun d hd => (List.not_mem_nil hd).elim, fun _ _ => rfl, fun _ => rfl⟩

/-- The core with the wave's seat: who makes room for it. -/
theorem coreLeft_home {s : State} {core : Nat} (h : FailsFreely s core) (next : Nat) :
    ∃ left made, CoreLeft s core left made (waveTo core next (clearSeat next 17 (leaveFenced (fenceCore s core))).2)
        (seatWave core next (clearSeat next 17 (leaveFenced (fenceCore s core))))
      ∧ (clearSeat next 17 (leaveFenced (fenceCore s core))).1.mgmt = (fenceCore s core).mgmt
      ∧ ((waveRoom (fenceCore s core) next).isSome = true → made = []) := by
  obtain ⟨D, he, hD⟩ := h.left
  have hn : ((leaveFenced (fenceCore s core)).teams.map (·.uid)).Nodup := he.uids ▸ h.uids
  have hother : ∀ slot u, ¬(u.kind = .wave ∧ u.pl.core = core) → waveTo core next slot u = u := fun slot _ => waveTo_other next slot
  by_cases hroom : (waveRoom (fenceCore s core) next).isSome = true
  · have hc := clearSeat_room 17 (waveRoom_mono he.residents_sublist hroom)
    exact ⟨D, [], ⟨⟨_, by rwa [List.append_nil, hc], seatWave_teams ..⟩, hD, fun d hd => (List.not_mem_nil hd).elim, hother _, kind_waveTo _ _ _⟩,
      by rw [hc]; exact he.mgmt, fun _ => rfl⟩
  · obtain ⟨E, hE, he'⟩ := clearSeat_evictions hn next 17
    refine ⟨D, E, ⟨⟨_, he.trans he', seatWave_teams ..⟩, hD, fun d hd => ?_, hother _, kind_waveTo _ _ _⟩, he'.mgmt.trans he.mgmt,
      fun e => absurd e hroom⟩
    obtain ⟨u, hu, -, e⟩ := hE d hd
    exact ⟨u, he.residents_sublist.subset hu, e⟩

theorem coreFailure_claim (s : State) (core : Nat) (hc : core < 192) (hf : core ∉ s.mgmt.fenced) (hl : s.mgmt.spares.getD (core / 96) 0 = 0) :
    let fenced := { s with mgmt := { s.mgmt with fenced := core :: s.mgmt.fenced } }
    let goes := fun (u : Team) => u ∈ residents fenced ∧ leaves fenced u = true
    FailsFreely s core → s.mgmt.waves.length = 24 → Answers (.coreFailure core) s fun t =>
          let home := (waveSeat s (clusterOf core)).1 = core
          t.mgmt = { s.mgmt with fenced := core :: s.mgmt.fenced, log := s.mgmt.log ++ [.coreFailed core], waves := t.mgmt.waves }
          ∧ (∀ u ∈ t.teams, u.kind = .core → u.stage = .resident → u.pl.core ≠ core)
          ∧ (∀ u, goes u → ∃ v ∈ t.teams, ∃ k, v.uid = u.uid ∧ v.stage = .evicted k ∧ v.rf = { u.rf with lc := v.rf.lc } ∧ v.sp = u.sp)
          ∧ (home → ∀ u ∈ s.teams, u.kind = .wave → u.pl.core = core → ∃ v ∈ t.teams, v.uid = u.uid
              ∧ v.pl.core = (waveSeat t (clusterOf core)).1 ∧ v.pl.slot = (waveSeat t (clusterOf core)).2 ∧ v.pl.group = 0 ∧ v.rf = u.rf ∧ v.ctl = u.ctl)
          ∧ (home → (∃ k, k < 8 ∧ core / 8 * 8 + k ∉ t.mgmt.fenced) → (waveSeat t (clusterOf core)).1 ∉ t.mgmt.fenced)
          ∧ (¬home → t.mgmt.waves = s.mgmt.waves)
          ∧ (¬home ∨ (waveRoom fenced (nextWaveCore fenced core)).isSome = true →
              ∀ u ∈ s.teams, ¬goes u → ¬(u.kind = .wave ∧ u.pl.core = core) → u ∈ t.teams) := by
  intro fenced goes hff hw
  have hgoes : ∀ u, goes u ↔ u ∈ leavingTeams (fenceCore s core) := fun u => mem_leavingTeams.symm
  obtain ⟨D, he, -⟩ := hff.left
  have hseat : waveSeat (leaveFenced (fenceCore s core)) (clusterOf core) = waveSeat s (clusterOf core) := by
    unfold waveSeat
    rw [he.mgmt]
    rfl
  have hnext : nextWaveCore (leaveFenced (fenceCore s core)) core = nextWaveCore fenced core := by
    unfold nextWaveCore
    rw [he.mgmt]
    rfl
  refine ⟨_, coreFailure_fences hc hf hl, ?_⟩
  beta_reduce
  intro home
  by_cases hhome : home
  · rw [moveWave_home (hseat ▸ hhome), hnext]
    obtain ⟨left, made, h, hm, hroom⟩ := coreLeft_home hff (nextWaveCore fenced core)
    generalize clearSeat (nextWaveCore fenced core) 17 (leaveFenced (fenceCore s core)) = r at h hm
    have hlt : clusterOf core < r.1.mgmt.waves.length := by
      rw [hm]
      unfold clusterOf
      change _ < s.mgmt.waves.length
      omega
    have hws := seatWave_seat (nextWaveCore fenced core) hlt
    refine ⟨?_, fun u hu => h.empty hu, fun u hu => ?_, fun _ u hu hk hcore => ?_, fun _ hk => ?_, fun hn => absurd hhome hn, fun hr u hu hg hnw => ?_⟩
    · rw [seatWave_mgmt, hm]
      rfl
    · obtain ⟨v, hv, hg, k, hst⟩ := h.left ((hgoes u).mp hu)
      exact ⟨v, hv, k, hg.uid, hst, hg.rf, hg.sp⟩
    · have := h.wave hff.uids hu hk
      rw [waveTo_wave _ _ hk hcore] at this
      rw [hws]
      exact ⟨_, this, rfl, rfl, rfl, rfl, rfl, rfl⟩
    · rw [hws]
      rw [seatWave_mgmt, hm] at hk ⊢
      exact nextWaveCore_serves (s := fenced) hk
    · have hmade := hroom (hr.resolve_left fun hn => hn hhome)
      have := h.mem hu (fun hl => hg ((hgoes u).mpr hl)) (by rw [hmade]; exact List.not_mem_nil)
      rwa [h.others u hnw] at this
  · rw [moveWave_away (by rw [hseat]; exact hhome)]
    obtain ⟨left, h⟩ := coreLeft_away hff
    refine ⟨?_, fun u hu => h.empty hu, fun u hu => ?_, fun hn => absurd hn hhome, fun hn => absurd hn hhome, fun _ => ?_, fun _ u hu hg _ => ?_⟩
    · rw [he.mgmt]
      rfl
    · obtain ⟨v, hv, hg, k, hst⟩ := h.left ((hgoes u).mp hu)
      exact ⟨v, hv, k, hg.uid, hst, hg.rf, hg.sp⟩
    · rw [he.mgmt]
      rfl
    · exact h.mem hu (fun hl => hg ((hgoes u).mpr hl)) List.not_mem_nil

/-- R358: a team on the failed core that waits for its Locus engine stays until that is over. -/
theorem coreFailure_locus {s : State} {core : Nat} (hc : core < 192) (hf : core ∉ s.mgmt.fenced) (hl : s.mgmt.spares.getD (core / 96) 0 = 0)
    (hn : (s.teams.map (·.uid)).Nodup) : Answers (.coreFailure core) s fun t =>
      ∀ u ∈ s.teams, u.kind = .core → u.stage = .resident → u.pl.core = core → u.wait = .locus → u ∈ t.teams := by
  refine ⟨_, coreFailure_fences hc hf hl, fun u hu hk hr hcore hw => ?_⟩
  have hex : ∃ D, u.uid ∉ D ∧ Evictions D (fenceCore s core) (leaveFenced (fenceCore s core)) := by
    rw [leaveFenced_eq (List.cons_ne_nil _ _)]
    refine leaveUnits_locus (s := fenceCore s core) hn _ fun ts hts ⟨v, hv, e⟩ => ⟨u, ?_, hw⟩
    have hvs : v ∈ s.teams := leavingTeams_subset (fenceCore s core) (mem_units.mp (List.mem_flatten.mpr ⟨ts, hts, hv⟩))
    rwa [← eq_of_uid hn hvs hu e]
  obtain ⟨D, hD, he⟩ := hex
  have hu1 : u ∈ (leaveFenced (fenceCore s core)).teams := he.stays (s := fenceCore s core) hu hD
  by_cases hhome : (waveSeat (leaveFenced (fenceCore s core)) (clusterOf core)).1 = core
  · obtain ⟨E, hE, he'⟩ := clearSeat_evictions (he.uids ▸ hn) (nextWaveCore (leaveFenced (fenceCore s core)) core) 17
    have huE : u.uid ∉ E := by
      intro hm
      obtain ⟨v, hv, hvw, e⟩ := hE _ hm
      have hvs : v ∈ s.teams := (mem_residents.mp (he.residents_sublist.subset hv)).1
      exact hvw (eq_of_uid hn hvs hu e ▸ hw)
    rw [moveWave_home hhome, seatWave_teams]
    exact List.mem_map.mpr ⟨u, he'.stays hu1 huE, waveTo_other _ _ fun e => by rw [hk] at e; cases e.1⟩
  · rwa [moveWave_away hhome]

/-! ### The statement -/

/-- Settles O54: clause by clause. A start takes its records and runs its steps (`StartPrefix`, the steps before the first that stops it); a
failed core's teams leave as evictions (`CoreLeft`), each team unchanged or in an entry; a bank test swaps a bank and the spare. -/
theorem management : Obligations.Management := by
  unfold Obligations.Management
  refine ⟨?start, takesRecord, installRecords_claim, ?failure, fun s => leaveFenced_none,
    fun s => ⟨rfl, placementHold_holds, placementHold_ignored, rfl⟩, ?test, fun s lane out => ⟨linkFlitRetry_ignored out, linkFlitRetry_logs out⟩⟩
  case start =>
    intro s results pre hw hf base m kept fencedStep stop taken stops
    refine ⟨fun k h3 h6 hk hj => exec_managementStart_first results h3 h6 hk hj, fun hr => ?_⟩
    have h : StartPrefix s pre :=
      ⟨hw, fun x hx hb => by obtain ⟨core, hc, e⟩ := (mem_startBlocked _ _).mp hb; exact hf x hx core hc e, hr⟩
    have hfree : ∀ k, ¬fencedStep k → k ∉ startBlocked s.mgmt := fun k hk hb => hk ((mem_startBlocked _ _).mp hb)
    constructor
    · rintro hs rfl
      exact ⟨fun hn => (h.completes hs).trans (startEnds_complete pre hn), fun core cs hn => (h.completes hs).trans (startEnds_fenced pre hn)⟩
    · intro x post hs
      refine ⟨?_, ?_, ?_⟩
      · rintro rest rfl hx
        have := h.stops hs (runSteps_blocked post rest ((mem_startBlocked _ _).mpr hx))
        rwa [← hs] at this
      · rintro hx rest rfl hruns hskip
        have := h.stops hs (runSteps_halts post rest (hfree _ hx) hruns hskip)
        rwa [← hs] at this
      · rintro hx rest rfl hruns
        exact h.stops hs (runSteps_runs post (false :: rest) (hfree _ hx) hruns)
  case failure =>
    intro s core left
    refine ⟨coreFailure_ignored, coreFailure_spare, fun hc hf hl => ?_, fun hc hf hl hn => coreFailure_locus hc hf hl hn⟩
    intro fenced goes hroom hn hfree hw
    exact coreFailure_claim s core hc hf hl ⟨hn, hroom, fun u hu => hfree u (mem_leavingTeams.mp hu)⟩ hw
  case test =>
    intro s channel bank bad rows few logged
    refine ⟨hbmBankTest_ignored, fun hc hb hs hn => ?_, fun hc hb hs hn hr => ?_⟩
    · have hr : ∀ r ∈ rows, r.1 < 4 ∧ r.2 < 2 ^ 14 := by rw [hn]; exact fun r hr => (List.not_mem_nil hr).elim
      exact ⟨_, exec_hbmBankTest_clean ⟨hc, hb, hs, hr⟩ hn, rfl, remapBank_swapped rfl hb []⟩
    · exact ⟨hbmBankTest_repairs ⟨hc, hb, hs, hr⟩ hn, hbmBankTest_retires ⟨hc, hb, hs, hr⟩ hn⟩

end Sys2Proof.Machine
end

section
/-! SUPPORT. The invariant of the machine, part by part: what it asks of the memory side, of one team and of the whole state, each in
a form that the operations of the model keep one by one (R19, R87, R210, R212, R320). -/

namespace Sys2Proof.Machine

/-! ### The memory side -/

/-- No bits kept of a raw write are newer than the last place in the device order (R210, R212). -/
def RawStamped (ms : MemSide) : Prop := ∀ r ∈ ms.rawOld, r.1 ≤ ms.stamp

/-- What the invariant asks of the memory side. -/
def Ordered (ms : MemSide) : Prop := Sound ms ∧ Stamped ms ∧ RawStamped ms

/-- A memory side after steps that keep it ordered and take nothing back of the device order. -/
structure Later (ms ms' : MemSide) : Prop where
  ordered : Ordered ms → Ordered ms'
  stamp : ms.stamp ≤ ms'.stamp

theorem Later.refl (ms : MemSide) : Later ms ms := ⟨id, le_refl _⟩

theorem Later.trans {a b c : MemSide} (h : Later a b) (k : Later b c) : Later a c := ⟨k.ordered ∘ h.ordered, le_trans h.stamp k.stamp⟩

/-- A memory side that grows and lists no new raw write. -/
theorem Grows.later {ms ms' : MemSide} (h : Grows ms ms') (hr : ∀ r ∈ ms'.rawOld, r ∈ ms.rawOld) : Later ms ms' :=
  ⟨fun ⟨a, b, c⟩ => ⟨h.sound a, h.stamped b, fun r hm => le_trans (c r (hr r hm)) h.stamp⟩, h.stamp⟩

/-- Any number of steps. -/
theorem Later.foldl {α : Type} {f : MemSide → α → MemSide} (h : ∀ ms x, Later ms (f ms x)) (xs : List α) (ms : MemSide) :
    Later ms (xs.foldl f ms) := by
  induction xs generalizing ms with
  | nil => exact Later.refl ms
  | cons x xs ih => exact (h ms x).trans (ih _)

/-! What enters and leaves the L2 lists no raw write. -/

theorem writeBack_later (v : L2View) (ms : MemSide) (x : Sector) : Later ms (writeBack v ms x) := by
  refine (writeBack_grows v ms x).later ?_
  unfold writeBack
  split <;> exact fun _ h => h

theorem dropSector_later (ms : MemSide) (x : Sector) : Later ms (dropSector ms x) := by
  refine (dropSector_grows ms x).later ?_
  unfold dropSector
  dsimp only
  split <;> exact fun _ h => h

theorem flushSector_later (v : L2View) (ms : MemSide) (x : Sector) : Later ms (flushSector v ms x) := by
  unfold flushSector
  split
  · exact (writeBack_later ..).trans (dropSector_later ..)
  · exact Later.refl ms

theorem evictLine_later (v : L2View) (ms : MemSide) (line : Nat) : Later ms (evictLine v ms line) :=
  Later.foldl (flushSector_later v) _ ms

theorem ageLines_later (ms : MemSide) (lines : List Nat) (k : Nat) : Later ms (ageLines ms lines k) := by
  refine (ageLines_grows ms lines k).later ?_
  unfold ageLines
  split <;> exact fun _ h => h

theorem takeVictim_later {v : L2View} {ms ms' : MemSide} {cs : List Cand} {w : Nat} (h : takeVictim v ms cs = some (w, ms')) :
    Later ms ms' := by
  unfold takeVictim at h
  obtain ⟨x, -, hx⟩ := Option.map_eq_some_iff.mp h
  obtain ⟨-, rfl⟩ := Prod.mk.inj hx
  exact (ageLines_later ..).trans (evictLine_later ..)

theorem makeWay_later {v : L2View} {ms ms' : MemSide} {n w : Nat} (h : makeWay v ms n = some (w, ms')) : Later ms ms' := by
  unfold makeWay at h
  dsimp only at h
  split at h
  · exact takeVictim_later h
  · split at h
    · obtain ⟨-, rfl⟩ := Prod.mk.inj (Option.some.inj h)
      exact Later.refl _
    · exact takeVictim_later h

theorem l2Fill_later (v : L2View) (i : Ins) (ms : MemSide) (n : Nat) : Later ms (l2Fill v i ms n) := by
  have fresh (ms : MemSide) (p w r k : Nat) : Later ms (softFill { ms with l2 := freshSector ms n p w r k :: ms.l2 } n) :=
    ((freshSector_grows ms n p w r k).trans (softFill_grows _ n)).later fun _ h => h
  unfold l2Fill
  split
  · exact Later.refl ms
  · split
    · exact Later.refl ms
    · split
      · exact fresh ..
      · split
        · exact Later.refl ms
        · next _ _ hw => exact (makeWay_later hw).trans (fresh ..)

theorem l2Touch_later (v : L2View) (i : Ins) (ms : MemSide) (n : Nat) : Later ms (l2Touch v i ms n) := by
  cases hf : l2Find ms n with
  | none => simpa only [l2Touch, hf] using l2Fill_later v i ms n
  | some x =>
    refine (l2Touch_grows v i ms n).later ?_
    simp only [l2Touch, hf]
    split <;> exact fun _ h => h

theorem putByte_rawOld (ins : Nat → Ins) (ms : MemSide) (c : Host.Cell) : (putByte ins ms c).rawOld = ms.rawOld := by
  unfold putByte
  split
  · split <;> rfl
  · rfl

theorem putBytes_rawOld (ins : Nat → Ins) (cs : List Host.Cell) (ms : MemSide) : (cs.foldl (putByte ins) ms).rawOld = ms.rawOld := by
  induction cs generalizing ms with
  | nil => rfl
  | cons c cs ih => exact (ih _).trans (putByte_rawOld ins ms c)

theorem commit_later (v : L2View) (ins : Nat → Ins) (ms : MemSide) (cells : List Host.Cell) : Later ms (commit v ins ms cells) := by
  refine ⟨fun h => ⟨(commit_grows v ins ms cells).sound h.1, (commit_grows v ins ms cells).stamped h.2.1, ?_⟩, (commit_grows v ins ms cells).stamp⟩
  unfold commit
  cases cells with
  | nil => exact h.2.2
  | cons c cs =>
    have hf := Later.foldl (fun ms n => l2Fill_later v (ins n) ms n) (sectorsOf (c :: cs)) ms
    intro r hr
    dsimp only at hr ⊢
    rw [putBytes_rawOld] at hr
    exact Nat.le_succ_of_le ((hf.ordered h).2.2 r hr)

theorem commitBelow_later (ms : MemSide) (cells : List Host.Cell) : Later ms (commitBelow ms cells) := by
  have hg := commitBelow_grows ms cells
  refine ⟨fun h => ⟨hg.sound h.1, hg.stamped h.2.1, ?_⟩, hg.stamp⟩
  unfold commitBelow
  cases cells with
  | nil => exact h.2.2
  | cons c cs =>
    intro r hr
    rcases List.mem_append.mp hr with hr | hr
    · exact Nat.le_succ_of_le (h.2.2 r hr)
    · obtain ⟨g, -, rfl⟩ := List.mem_map.mp hr
      exact le_refl _

theorem commitAll_later (v : L2View) (ins : Nat → Ins) (ms : MemSide) (cells : List Host.Cell) : Later ms (commitAll v ins ms cells) :=
  (commit_later ..).trans (commitBelow_later ..)

/-- Marks beside the bytes are nothing to the order. -/
theorem Later.marks {ms : MemSide} {w : List (Nat × Nat)} {t : List TlbEntry} {c : List CodeCopy} {e : List (Nat × Bool)}
    {b : List (Nat × List Byte)} {o : List (Nat × Nat × Nat × Byte)} {f : List Nat} :
    Later ms { ms with wrote := w, tlb := t, code := c, ecc := e, backs := b, homeOld := o, soft := f } := ⟨id, le_rfl⟩

/-- A memory side with the bytes of another, and no copy kept that the other does not keep. -/
theorem Later.of_subset {ms ms' : MemSide} (hm : ms'.mem = ms.mem) (hl : ms'.l2 = ms.l2) (hs : ms'.stamp = ms.stamp)
    (hr : ms'.retained ⊆ ms.retained) (hw : ms'.rawOld ⊆ ms.rawOld) : Later ms ms' :=
  ⟨fun ⟨a, b, c⟩ => ⟨⟨hm ▸ a.1, hl ▸ a.2⟩, fun r h => hs ▸ b r (hr h), fun r h => hs ▸ c r (hw h)⟩, hs.ge⟩

/-! ### One team -/

/-- The registers of R87. -/
def RegsShaped (r : Regs) : Prop :=
  r.v.length = r.nv ∧ r.s.length = 32 ∧ r.p.length = 7 ∧ r.lc.length = 3 ∧ r.fr.length = 4 ∧ r.fs.length = 8 ∧ r.sh.length = 8

/-- What the invariant asks of a team's registers and of its own published bytes, `n` being the last place in the device order: the
registers of R87, and no byte that is newer (R210). -/
structure FitsParts (n : Nat) (rf : Regs) (pub : List (Nat × Nat × Byte)) : Prop where
  shaped : RegsShaped rf
  published : ∀ r ∈ pub, r.1 ≤ n

/-- What the invariant asks of a team. -/
def Fits (n : Nat) (t : Team) : Prop := FitsParts n t.rf t.ver.ownPub

namespace FitsParts

variable {n : Nat} {rf : Regs} {pub : List (Nat × Nat × Byte)}

/-- The registers and the published bytes alone count: the rest of a team is free. -/
theorem parts (h : FitsParts n rf pub) : FitsParts n rf pub := h

theorem mono {m : Nat} (h : FitsParts n rf pub) (k : n ≤ m) : FitsParts m rf pub := ⟨h.shaped, fun r hr => le_trans (h.published r hr) k⟩

/-- Nothing of the team's own is published. -/
theorem unpublished (h : FitsParts n rf pub) : FitsParts n rf [] := ⟨h.shaped, fun _ hr => absurd hr List.not_mem_nil⟩

/-- Other published bytes. -/
theorem withPub (h : FitsParts n rf pub) {pub' : List (Nat × Nat × Byte)} (hp : ∀ r ∈ pub', r.1 ≤ n) : FitsParts n rf pub' := ⟨h.shaped, hp⟩

/-- Other registers. -/
theorem withRegs (h : FitsParts n rf pub) {rf' : Regs} (hr : RegsShaped rf') : FitsParts n rf' pub := ⟨hr, h.published⟩

end FitsParts

/-! Writes to registers keep their number. -/

@[simp] theorem setV_fits {n : Nat} {t : Team} {r : Nat} {m : LaneSet} {f : Nat → Word} : Fits n (setV t r m f) ↔ Fits n t :=
  ⟨fun h => h.withRegs (by simpa [RegsShaped, setV] using h.shaped), fun h => h.withRegs (by simpa [RegsShaped, setV] using h.shaped)⟩

@[simp] theorem setS_fits {n : Nat} {t : Team} {r : Nat} {x : Word} : Fits n (setS t r x) ↔ Fits n t :=
  ⟨fun h => h.withRegs (by simpa [RegsShaped, setS] using h.shaped), fun h => h.withRegs (by simpa [RegsShaped, setS] using h.shaped)⟩

@[simp] theorem setPair_fits {n : Nat} {t : Team} {r : Nat} {x : DWord} : Fits n (setPair t r x) ↔ Fits n t := by
  simp only [setPair, setS_fits]

@[simp] theorem setP_fits {n : Nat} {t : Team} {p : Nat} {m : LaneSet} : Fits n (setP t p m) ↔ Fits n t :=
  ⟨fun h => h.withRegs (by simpa [RegsShaped, setP] using h.shaped), fun h => h.withRegs (by simpa [RegsShaped, setP] using h.shaped)⟩

@[simp] theorem setPLanes_fits {n : Nat} {t : Team} {p : Nat} {m : LaneSet} {f : Nat → Bool} : Fits n (setPLanes t p m f) ↔ Fits n t := setP_fits

@[simp] theorem setPUniform_fits {n : Nat} {t : Team} {p : Nat} {b : Bool} : Fits n (setPUniform t p b) ↔ Fits n t := setP_fits

@[simp] theorem markS_fits {n : Nat} {t : Team} {r : Nat} {b : Bool} : Fits n (markS t r b) ↔ Fits n t :=
  ⟨fun h => h.withRegs h.shaped, fun h => h.withRegs h.shaped⟩

@[simp] theorem markVs_fits {n : Nat} {t : Team} {r k : Nat} {b : Bool} : Fits n (markVs t r k b) ↔ Fits n t := by
  rw [markVs_eq]
  exact ⟨fun h => h.withRegs h.shaped, fun h => h.withRegs h.shaped⟩

@[simp] theorem setVs_fits {n : Nat} {t : Team} {r : Nat} {m : LaneSet} {data : List (List Word)} : Fits n (setVs t r m data) ↔ Fits n t := by
  induction data generalizing t r with
  | nil => exact Iff.rfl
  | cons x xs ih => exact ih.trans setV_fits

/-- Registers that are zero have the shape (R88). -/
theorem zero_shaped (n nv : Nat) : RegsShaped (Regs.zero n nv) := by simp [RegsShaped, Regs.zero]

/-- No team: registers of the shape, nothing published. -/
theorem absent_fits (n : Nat) : Fits n Team.absent := ⟨zero_shaped 32 8, fun _ h => absurd h List.not_mem_nil⟩

/-! ### The whole state -/

/-- The invariant of the parts of a state that it speaks of, from a place `n` in the device order on: its memory side, the registers and the
published bytes of the team in focus, the other teams, and what the channels keep. -/
structure SafeParts (n : Nat) (ms : MemSide) (rf : Regs) (pub : List (Nat × Nat × Byte)) (us : List Team)
    (kept : List (Nat × List (List Word))) : Prop where
  ordered : Ordered ms
  reached : n ≤ ms.stamp
  team : FitsParts ms.stamp rf pub
  others : ∀ u ∈ us, Fits ms.stamp u
  kept : ∀ x ∈ kept, x.2.length = 5

/-- The invariant of a state, from a place in the device order on. -/
def Safe (n : Nat) (s : State) : Prop := SafeParts n s.ms s.team.rf s.team.ver.ownPub s.others s.strat.kept

namespace SafeParts

variable {n : Nat} {ms : MemSide} {rf : Regs} {pub : List (Nat × Nat × Byte)} {us : List Team} {kept : List (Nat × List (List Word))}

/-- The parts alone count: the rest of a state is free. -/
theorem parts (h : SafeParts n ms rf pub us kept) : SafeParts n ms rf pub us kept := h

/-- From the last place taken on. -/
theorem now (h : SafeParts n ms rf pub us kept) : SafeParts ms.stamp ms rf pub us kept := { h with reached := le_refl _ }

/-- From an earlier place on. -/
theorem since {m : Nat} (h : SafeParts n ms rf pub us kept) (k : m ≤ n) : SafeParts m ms rf pub us kept := { h with reached := le_trans k h.reached }

/-- A team that fitted before still fits. -/
theorem fits {rf' : Regs} {pub' : List (Nat × Nat × Byte)} (h : SafeParts n ms rf pub us kept) (hu : FitsParts n rf' pub') :
    FitsParts ms.stamp rf' pub' := hu.mono h.reached

/-- Another team in focus in the place of the one that was. -/
theorem withTeam {rf' : Regs} {pub' : List (Nat × Nat × Byte)} (h : SafeParts n ms rf pub us kept) (hu : FitsParts ms.stamp rf' pub') :
    SafeParts n ms rf' pub' us kept := { h with team := hu }

/-- Other teams beside the one in focus. -/
theorem withOthers (h : SafeParts n ms rf pub us kept) {vs : List Team} (hv : ∀ v ∈ vs, Fits ms.stamp v) : SafeParts n ms rf pub vs kept :=
  { h with others := hv }

/-- More teams. -/
theorem addTeams (h : SafeParts n ms rf pub us kept) {vs : List Team} (hv : ∀ v ∈ vs, Fits ms.stamp v) : SafeParts n ms rf pub (us ++ vs) kept :=
  h.withOthers (List.forall_mem_append.mpr ⟨h.others, hv⟩)

/-- A later memory side. -/
theorem withMs (h : SafeParts n ms rf pub us kept) {ms' : MemSide} (l : Later ms ms') : SafeParts n ms' rf pub us kept :=
  ⟨l.ordered h.ordered, le_trans h.reached l.stamp, h.team.mono l.stamp, fun u hu => (h.others u hu).mono l.stamp, h.kept⟩

/-- Other registers kept for channels. -/
theorem withKept (h : SafeParts n ms rf pub us kept) {k : List (Nat × List (List Word))} (hk : ∀ x ∈ k, x.2.length = 5) :
    SafeParts n ms rf pub us k := { h with kept := hk }

/-- Each other team changed. -/
theorem mapOthers (h : SafeParts n ms rf pub us kept) {f : Team → Team} (hf : ∀ u, Fits ms.stamp u → Fits ms.stamp (f u)) :
    SafeParts n ms rf pub (us.map f) kept :=
  h.withOthers (List.forall_mem_map.mpr fun u hu => hf u (h.others u hu))

end SafeParts

theorem invariant_iff_safe {s : State} : Invariant s ↔ Safe 0 s := by
  constructor
  · rintro ⟨hm, ht, hk, hl, hr, hw, ho⟩
    exact ⟨⟨⟨hm, hl⟩, hr, hw⟩, Nat.zero_le _, ⟨ht _ List.mem_cons_self, ho _ List.mem_cons_self⟩,
      fun t h => ⟨ht t (List.mem_cons_of_mem _ h), ho t (List.mem_cons_of_mem _ h)⟩, hk⟩
  · rintro ⟨⟨⟨hm, hl⟩, hr, hw⟩, -, ht, ho, hk⟩
    exact ⟨hm, List.forall_mem_cons.mpr ⟨ht.shaped, fun t h => (ho t h).shaped⟩, hk, hl, hr, hw,
      List.forall_mem_cons.mpr ⟨ht.published, fun t h => (ho t h).published⟩⟩

namespace Safe

variable {n : Nat} {s : State}

theorem teams (h : Safe n s) : ∀ t ∈ s.teams, Fits s.ms.stamp t := List.forall_mem_cons.mpr ⟨h.team, h.others⟩

theorem find (h : Safe n s) {uid : Nat} {t : Team} (hf : s.find uid = some t) : Fits s.ms.stamp t :=
  h.teams t (List.mem_of_find?_eq_some hf)

theorem inFocus (h : Safe n s) {t : Team} (ht : Fits s.ms.stamp t) : Safe n (s.withTeam t) := h.withTeam ht

theorem mapTeams (h : Safe n s) {f : Team → Team} (hf : ∀ t, Fits s.ms.stamp t → Fits s.ms.stamp (f t)) : Safe n (s.mapTeams f) :=
  (h.mapOthers hf).withTeam (hf _ h.team)

theorem modTeam (h : Safe n s) {uid : Nat} {f : Team → Team} (hf : ∀ t, Fits s.ms.stamp t → Fits s.ms.stamp (f t)) :
    Safe n (s.modTeam uid f) := h.mapTeams fun t ht => by split; exacts [hf t ht, ht]

theorem swapIn_fits {m uid : Nat} {t : Team} (ht : Fits m t) : ∀ {ts : List Team}, (∀ u ∈ ts, Fits m u) → ∀ u ∈ swapIn t uid ts, Fits m u
  | [], h => h
  | v :: vs, h => by
    obtain ⟨hv, hs⟩ := List.forall_mem_cons.mp h
    unfold swapIn
    split
    · exact List.forall_mem_cons.mpr ⟨ht, hs⟩
    · exact List.forall_mem_cons.mpr ⟨hv, swapIn_fits ht hs⟩

theorem focus (h : Safe n s) (uid : Nat) : Safe n (s.focus uid) := by
  unfold State.focus
  split
  · exact h
  · split
    · exact h
    · next t hf => exact (h.withOthers (swapIn_fits h.team h.others)).withTeam (h.others t (List.mem_of_find?_eq_some hf))

/-- Any number of steps. -/
theorem foldl {α : Type} {f : State → α → State} {xs : List α} (h : Safe n s) (hf : ∀ s, Safe n s → ∀ x ∈ xs, Safe n (f s x)) :
    Safe n (xs.foldl f s) := by
  induction xs generalizing s with
  | nil => exact h
  | cons x xs ih => exact ih (hf s h x List.mem_cons_self) fun s hs y hy => hf s hs y (List.mem_cons_of_mem _ hy)

end Safe

/-- What the invariant asks of the outcome of a step. -/
structure SafeOut (n : Nat) (r : Host.Outcome State Fault Refusal) : Prop where
  next : ∀ u, r = .next u → Safe n u

/-- What it asks of what an instruction does at issue. -/
structure SafeRes (n : Nat) (r : Result) : Prop where
  next : ∀ u, r = .next u → Safe n u

theorem out_safe {n : Nat} {u : State} (h : Safe n u) : SafeOut n (.next u) := ⟨fun _ e => Host.Outcome.next.inj e ▸ h⟩

theorem fault_safe {n : Nat} {f : Fault} : SafeOut n (.fault f) := ⟨fun _ e => by cases e⟩

theorem next_safe {n : Nat} {u : State} (h : Safe n u) : SafeRes n (.next u) := ⟨fun _ e => Result.next.inj e ▸ h⟩

theorem wait_safe {n : Nat} {w : Why} : SafeRes n (.wait w) := ⟨fun _ e => Result.noConfusion e⟩

theorem trap_safe {n : Nat} {tr : Trap} : SafeRes n (.trap tr) := ⟨fun _ e => Result.noConfusion e⟩

theorem ite_safe {n : Nat} {c : Prop} [Decidable c] {a b : Result} (ha : SafeRes n a) (hb : SafeRes n b) : SafeRes n (if c then a else b) := by
  split
  exacts [ha, hb]

theorem out_ite_safe {n : Nat} {c : Prop} [Decidable c] {a b : Host.Outcome State Fault Refusal} (ha : SafeOut n a) (hb : SafeOut n b) :
    SafeOut n (if c then a else b) := by
  split
  exacts [ha, hb]

/-- From an earlier place in the device order on. -/
theorem SafeRes.since {m n : Nat} {r : Result} (h : SafeRes n r) (k : m ≤ n) : SafeRes m r := ⟨fun u e => (h.next u e).since k⟩

end Sys2Proof.Machine
end

section
/-! SUPPORT. Commits, publications, the error log and traps keep the invariant (R209 to R215, R389 to R398). -/

namespace Sys2Proof.Machine

variable {n : Nat} {s : State}

/-! ### Commits and publications -/

theorem settleWays_safe (h : Safe n s) : Safe n (settleWays s) := h.withMs (Later.foldl (flushSector_later _) _ _)

theorem purge_safe (h : Safe n s) : Safe n (purge s) := h.withMs (.of_subset rfl rfl rfl (List.filter_subset_self _) (List.filter_subset_self _))

theorem immediateAs_safe (h : Safe n s) {ins : Nat → Ins} {cells : List Host.Cell} : Safe n (immediateAs s ins cells) :=
  purge_safe (h.withMs (commitAll_later ..))

theorem immediate_safe (h : Safe n s) {cells : List Host.Cell} : Safe n (immediate s cells) := immediateAs_safe h

theorem homeWrite_safe (h : Safe n s) {home key : Nat} {cells : List Host.Cell} : Safe n (homeWrite s home key cells) := by
  cases cells with
  | nil => exact h
  | cons c cs =>
    dsimp only [Safe, homeWrite]
    exact (immediateAs_safe h).withMs .marks

theorem beginPublish_fits {t : Team} (h : Fits n t) : Fits n (beginPublish t) := h.parts

/-- Published bytes take the place of their commit, the last in the device order (R210). -/
theorem published_le {v : Version} {m k : Nat} {cs : List Host.Cell} (h : ∀ r ∈ v.ownPub, r.1 ≤ m) (hk : m ≤ k) :
    ∀ r ∈ (cs.map fun c => (k, c.1, c.2)) ++ v.ownPub, r.1 ≤ k := by
  intro r hr
  rcases List.mem_append.mp hr with hr | hr
  · obtain ⟨c, -, rfl⟩ := List.mem_map.mp hr
    exact le_refl k
  · exact le_trans (h r hr) hk

theorem publish_safe (h : Safe n s) {scope : Nat} : Safe n (publish s scope) := by
  have hc := commit_later (l2View s) (insIn s.team.ver.ins) s.ms (s.team.ver.pub.filter fun c => decide (scope = 2) || !isOutside c.1)
  exact (h.withMs hc).withTeam ⟨h.team.shaped, published_le h.team.published hc.stamp⟩

/-! ### The error log -/

theorem logEvent_safe (h : Safe n s) {kind src : Nat} {payload : List Byte} : Safe n (logEvent s kind src payload) := h.parts

theorem recordEvent_safe (h : Safe n s) {x : LogItem} : Safe n (recordEvent s x) := by
  unfold recordEvent
  dsimp only [Safe]
  split
  · exact h.parts
  · split
    · dsimp only
      split
      exacts [(immediate_safe h).parts, h.parts]
    · exact h.parts

theorem correctGranules_safe (h : Safe n s) {gs : List Nat} : Safe n (correctGranules s gs) :=
  Safe.foldl (s := { s with ms := { s.ms with ecc := _ } }) (h.withMs .marks) fun _ h _ _ => h

theorem countSoft_safe (h : Safe n s) : Safe n (countSoft s) :=
  Safe.foldl (s := { s with ms := { s.ms with soft := [] } }) (h.withMs .marks) fun _ h _ _ => h

theorem closeCycle_safe (h : Safe n s) : Safe n (closeCycle s) :=
  Safe.foldl (s := { countSoft s with host := { (countSoft s).host with events := [] } }) (countSoft_safe h) fun _ h _ _ => recordEvent_safe h

theorem eccCorrect_safe (h : Safe n s) {k : Nat} : Safe n (eccCorrect s k) := correctGranules_safe h

theorem eccReport_safe (h : Safe n s) {pa : Nat} : Safe n (eccReport s pa) := h.parts

/-! ### Ending teams and grids -/

theorem endTeam_fits {t : Team} (h : Fits n t) : Fits n (endTeam t) := h.unpublished

theorem sweepGangs_safe (h : Safe n s) : Safe n (sweepGangs s) := h.parts

theorem killGrid_safe (h : Safe n s) {id : Nat} : Safe n (killGrid s id) := by
  unfold killGrid
  dsimp only
  refine sweepGangs_safe (SafeParts.withMs (ms := s.ms) ?_ ?_)
  · dsimp only
    exact h.mapTeams fun t ht => by split; exacts [endTeam_fits ht, ht]
  · dsimp only
    exact Later.foldl (fun ms t => by split; exacts [commit_later .., Later.refl ms]) _ _

theorem fatalTrap_safe (h : Safe n s) {tr : Trap} {pc : DWord} : Safe n (fatalTrap s tr pc) := killGrid_safe (logEvent_safe h)

/-! ### Taking a trap -/

theorem deliver_safe (h : Safe n s) {tr : Trap} {resume : DWord} {k : Nat} : Safe n (deliver s tr resume k) := by
  unfold deliver
  dsimp only [Safe]
  refine (immediate_safe h).withTeam ((immediate_safe h.now).fits ?_)
  exact (markS_fits.mpr (markS_fits.mpr (setPair_fits.mpr h.team.parts))).parts

theorem modHome_safe (h : Safe n s) {k : Nat} {f : Home → Home} : Safe n (modHome s k f) := h.parts

theorem modOp_fits {t : Team} (h : Fits n t) {tag : Nat} {f : Op → Op} : Fits n (modOp t tag f) := h.parts

theorem replyTo_safe (h : Safe n s) {q : VReq} {words : List Word} : Safe n (replyTo s q words) := h.modTeam fun _ ht => modOp_fits ht

theorem leaveHandler_safe (h : Safe n s) : Safe n (leaveHandler s) := by
  unfold leaveHandler
  split
  exacts [h.parts, h.parts]

theorem resetWave_safe (h : Safe n s) : Safe n (resetWave s) := (leaveHandler_safe h).parts

theorem methodFault_safe (h : Safe n s) {tr : Trap} {k : Nat} {b : VBatch} : Safe n (methodFault s tr k b) :=
  resetWave_safe (modHome_safe (logEvent_safe (Safe.foldl h fun _ h _ _ => replyTo_safe h)))

theorem stopHome_safe (h : Safe n s) {k : Nat} : Safe n (stopHome s k) :=
  (leaveHandler_safe (modHome_safe (logEvent_safe h))).parts

theorem waveTrap_safe (h : Safe n s) {tr : Trap} {resume : DWord} : Safe n (waveTrap s tr resume) := by
  unfold waveTrap
  split
  · split
    · split
      exacts [deliver_safe h, h]
    · exact h
  · dsimp only
    split
    exacts [methodFault_safe h, stopHome_safe h]

theorem stratumFault_safe (h : Safe n s) {reason : Nat} : Safe n (stratumFault s reason) := by
  unfold stratumFault
  dsimp only
  split
  exacts [h.parts, h.parts]

theorem takeTrap_safe (h : Safe n s) {tr : Trap} {resume : DWord} : Safe n (takeTrap s tr resume) := by
  unfold takeTrap
  split
  · exact stratumFault_safe h
  · exact waveTrap_safe h
  · split
    · split
      exacts [deliver_safe h, fatalTrap_safe h]
    · exact fatalTrap_safe h

theorem trapBefore_safe (h : Safe n s) {tr : Trap} : Safe n (trapBefore s tr) := takeTrap_safe h

/-! ### In-flight operations -/

theorem addOp_fits {t : Team} (h : Fits n t) {path : Nat} {dst : Dst} {waits : LaneSet} {arrived : Bool} :
    Fits n (addOp t path dst waits arrived) := by
  cases dst with
  | none => exact h.parts
  | vec r m data => exact (markVs_fits.mpr h).parts
  | scalar r x => exact (markS_fits.mpr h).parts
  | pred p m vals => exact h.parts

theorem fillDst_fits {t : Team} (h : Fits n t) {dst : Dst} : Fits n (fillDst t dst) := by
  cases dst with
  | none => exact h
  | vec r m data => exact markVs_fits.mpr (setVs_fits.mpr h)
  | scalar r x => exact markS_fits.mpr (setS_fits.mpr h)
  | pred p m vals => exact setPLanes_fits.mpr h

/-- Any number of changes of a team. -/
theorem Fits.foldl {α : Type} {f : Team → α → Team} {xs : List α} {t : Team} (h : Fits n t) (hf : ∀ t x, Fits n t → Fits n (f t x)) :
    Fits n (xs.foldl f t) := by
  induction xs generalizing t with
  | nil => exact h
  | cons x xs ih => exact ih (hf t x h)

theorem completeOp_fits {t : Team} (h : Fits n t) {tag : Nat} : Fits n (completeOp t tag) := by
  unfold completeOp
  split
  · exact h
  · refine (Fits.foldl ?_ fun t x ht => fillDst_fits ht).parts
    split
    exacts [h, fillDst_fits h]

theorem noteErr_fits {t : Team} (h : Fits n t) {tag path : Nat} {tr : Trap} : Fits n (noteErr t tag path tr) := by
  unfold noteErr
  dsimp only
  split
  · split
    exacts [h.parts, h.parts]
  · exact h.parts

/-! ### Retiring -/

theorem popLoop_fits {t : Team} (h : Fits n t) {k : Nat} {e : MaskEntry} {st : List MaskEntry} : Fits n (popLoop t k e st) := h.parts

/-- A loop count written keeps the shape. -/
theorem setLc_fits {t : Team} (h : Fits n t) {k : Nat} {c : Word} : Fits n { t with rf := { t.rf with lc := t.rf.lc.set k c } } :=
  h.withRegs (by simpa [RegsShaped] using h.shaped)

theorem loopEnd_fits {pc : DWord} {k : Nat} {t : Team} (h : Fits n t) : Fits n (loopEnd pc k t).1 := by
  induction k generalizing t with
  | zero => exact h.parts
  | succ k ih =>
    unfold loopEnd
    split
    · exact h.parts
    · split
      · dsimp only
        split
        · exact (setLc_fits h).parts
        · split
          · split
            · exact ih (popLoop_fits (setLc_fits h))
            · exact h.parts
          · exact h.parts
      · exact h.parts

theorem retireToStep_safe (h : Safe n s) {st : Bool} {pc : DWord} {after : Option Trap} : Safe n (retireToStep st s pc after) := by
  unfold retireToStep
  dsimp only
  split
  · refine takeTrap_safe ?_
    split
    exacts [h.parts, h.parts]
  · split
    exacts [takeTrap_safe (by exact h.parts), h.parts]

theorem retireTo_safe (h : Safe n s) {pc : DWord} {after : Option Trap} : Safe n (retireTo s pc after) := retireToStep_safe h

theorem retireWithStep_safe (h : Safe n s) {st : Bool} {after : Option Trap} : Safe n (retireWithStep st s after) := by
  have ht := h.withTeam (loopEnd_fits h.team (pc := s.team.ctl.pc) (k := s.team.ctl.loops.length))
  unfold retireWithStep
  dsimp only
  split
  · refine takeTrap_safe ?_
    split
    exacts [ht.parts, ht.parts]
  · exact retireToStep_safe (by exact ht.parts)

theorem retireWith_safe (h : Safe n s) {after : Option Trap} : Safe n (retireWith s after) := retireWithStep_safe h

theorem retire_safe (h : Safe n s) : Safe n (retire s) := retireWith_safe h

theorem retireReport_safe (h : Safe n s) {r : State × Option Trap} (hr : Safe n r.1) : Safe n (retireReport s r) := by
  unfold retireReport
  split
  exacts [retire_safe h, retireWith_safe hr]

/-! ### Waits that outlast a stay on the group -/

theorem passWait_fits {t : Team} (h : Fits n t) : Fits n (passWait t) := by
  have hl := loopEnd_fits h (pc := t.ctl.pc) (k := t.ctl.loops.length)
  unfold passWait
  split
  · exact h
  · dsimp only
    split
    exacts [hl.parts, hl.parts]

theorem donePassed_fits {t : Team} (h : Fits n t) : Fits n (donePassed t) := by
  unfold donePassed
  split
  exacts [h, h.parts]

theorem endWait_safe (h : Safe n s) : Safe n (endWait s) := by
  unfold endWait
  split
  exacts [retire_safe h, h.withTeam (donePassed_fits h.team)]

/-! ### Issuing -/

theorem noteIssue_safe (h : Safe n s) : Safe n (noteIssue s) :=
  h.mapOthers fun u hu => by split; exacts [hu.parts, hu]

theorem hold_safe (h : Safe n s) {why : Why} : Safe n (hold s why) := h.parts

/-- The checks at issue answer no state. -/
theorem gate_safe {i : Instr} {r : Result} (h : gate s i = some r) : SafeRes n r := by
  unfold gate at h
  dsimp only at h
  repeat' split at h
  all_goals cases h
  all_goals first | exact trap_safe | exact wait_safe

/-- An instruction keeps the invariant if its own effect does, in the state after issue. -/
theorem issue_safe (h : Safe n s) {i : Instr} {effect : State → Result} (he : ∀ u, Safe n u → SafeRes n (effect u)) :
    SafeOut n (issue i s effect) := by
  have hn := noteIssue_safe h
  unfold issue
  split
  · exact out_safe (trapBefore_safe hn)
  · exact out_safe (hold_safe h)
  · next hg => exact out_safe ((gate_safe hg).next _ rfl)
  · have hr := he _ hn
    split
    · next e => exact out_safe (hr.next _ e)
    · exact out_safe (hold_safe h)
    · exact out_safe (trapBefore_safe hn)

end Sys2Proof.Machine
end

section
/-! SUPPORT. Page faults, fetches and control flow keep the invariant (R119 to R131, R404 to R411). -/

namespace Sys2Proof.Machine

variable {n : Nat} {s : State}

/-! ### Page faults and fetches -/

theorem fillTlb_later {core asid : Nat} {ms : MemSide} {l : Leaf} : Later ms (fillTlb core asid ms l) := by
  unfold fillTlb
  split
  exacts [Later.refl ms, .marks]

theorem queueCont_safe (h : Safe n s) {k : Nat} : Safe n (queueCont s k) := h.parts

theorem faultEntry_safe (h : Safe n s) {va fut : DWord} {asid : Nat} {acc : Access} {engine : Bool} {grid : Nat} :
    Safe n (faultEntry s va fut asid acc engine grid) := by
  unfold faultEntry
  dsimp only [Safe]
  exact (immediate_safe h).parts

theorem setFuture_safe (h : Safe n s) {core asid : Nat} {va : DWord} {pa state : Nat} : Safe n (setFuture s core asid va pa state) :=
  immediateAs_safe h

/-- The body of `pageFault`, as a function: applied to its arguments it is a match on what memory holds, which no check may evaluate. -/
theorem pageFault_def : @pageFault = delta% @pageFault := by
  delta pageFault
  rfl

theorem pageFault_safe (h : Safe n s) {lane : Option Nat} {acc : Access} {va : DWord} : SafeRes n (pageFault s lane acc va) := by
  rw [pageFault_def]
  beta_reduce
  extract_lets +onlyGivenNames t
  split
  · exact trap_safe
  · split
    · exact trap_safe
    · split
      · split
        · exact wait_safe
        · split
          · refine next_safe ?_
            dsimp only [Safe]
            exact (faultEntry_safe (setFuture_safe h)).parts
          · exact wait_safe
      · exact trap_safe

theorem accessFault_safe (h : Safe n s) {lane : Option Nat} {acc : Access} {va : DWord} {e : XErr} :
    SafeRes n (accessFault s lane acc va e) := by
  unfold accessFault
  split
  · exact trap_safe
  · exact trap_safe
  · split
    exacts [trap_safe, pageFault_safe h]

theorem fetch_safe (h : Safe n s) {a : DWord} {w : Word} {u : State} (hf : fetch s a = .ok (w, u)) : Safe n u := by
  unfold fetch at hf
  dsimp only at hf
  split at hf
  · split at hf
    · cases hf
    · split at hf
      · cases hf
      · split at hf <;> cases hf
        exact h
  · split at hf
    · cases hf
      exact h
    · split at hf
      · split at hf <;> cases hf
        split
        exacts [h.parts, h]
      · split at hf
        · split at hf
          · cases hf
          · split at hf <;> cases hf
            dsimp only [Safe]
            split
            exacts [h.withMs (fillTlb_later.trans .marks), h.withMs (fillTlb_later.trans .marks)]
        · cases hf

/-! ### Hint words and branches -/

theorem hintWord_safe (h : Safe n s) {f : HintRun → HintRun} {dup : HintRun → Bool} : SafeOut n (hintWord s f dup) :=
  out_safe (noteIssue_safe h).parts

theorem leaveLoops_fits {pc a : DWord} {k : Nat} {t u : Team} (h : Fits n t) (hl : leaveLoops pc a k t = some u) : Fits n u := by
  induction k generalizing t with
  | zero => exact Option.some.inj hl ▸ h
  | succ k ih =>
    unfold leaveLoops at hl
    split at hl
    · exact Option.some.inj hl ▸ h
    · split at hl
      · split at hl
        · split at hl
          · exact ih (popLoop_fits h) hl
          · cases hl
        · cases hl
      · exact Option.some.inj hl ▸ h

theorem branchTo_safe (h : Safe n s) {target : DWord} : SafeRes n (branchTo s target) := by
  unfold branchTo
  dsimp only
  split
  · next t ht => exact next_safe <| retireTo_safe (h.inFocus (leaveLoops_fits h.team ht))
  · exact trap_safe

theorem fallThrough_safe (h : Safe n s) : SafeRes n (fallThrough s) := next_safe (retire_safe h)

/-- Bytes below the L2 are committed, and five registers kept (R320). -/
theorem endBlock_safe (h : Safe n s) : Safe n (endBlock s) := by
  unfold endBlock
  dsimp only [Safe]
  split
  · exact h
  · refine (h.withMs (commitBelow_later s.ms _)).withKept (List.forall_mem_cons.mpr ⟨?_, fun x hx => h.kept x (List.mem_filter.mp hx).1⟩)
    rw [List.length_map, List.length_range]

theorem exitHandler_safe (h : Safe n s) {x : Handler} : Safe n (exitHandler s x) := killGrid_safe (logEvent_safe h)

theorem execBr_safe (h : Safe n s) {o : BrOp} : SafeOut n (execBr o s) :=
  issue_safe h fun u hu => by split; exacts [branchTo_safe hu, fallThrough_safe hu]

theorem execBrAll_safe (h : Safe n s) {o : BrOp} : SafeOut n (execBrAll o s) :=
  issue_safe h fun u hu => by split; exacts [branchTo_safe hu, fallThrough_safe hu]

theorem execCall_safe (h : Safe n s) {o : CallOp} : SafeOut n (execCall o s) :=
  issue_safe h fun _ hu => next_safe <| retireTo_safe (hu.inFocus (setS_fits.mpr hu.team))

theorem execRet_safe (h : Safe n s) : SafeOut n (execRet s) :=
  issue_safe h fun u hu => by
    dsimp only
    split
    · exact next_safe <| endBlock_safe hu
    · split
      exacts [next_safe (retireTo_safe hu), trap_safe]

theorem execJmp_safe (h : Safe n s) {o : S1} : SafeOut n (execJmp o s) :=
  issue_safe h fun u hu => by
    dsimp only
    split
    exacts [branchTo_safe hu, trap_safe]

theorem execExit_safe (h : Safe n s) {o : GOnly} : SafeOut n (execExit o s) :=
  issue_safe h fun u hu => by
    dsimp only
    split
    · exact next_safe <| exitHandler_safe hu
    · split
      · split
        exacts [next_safe (endBlock_safe hu), next_safe hu.parts]
      · exact fallThrough_safe (by exact hu.parts)

theorem execNop_safe (h : Safe n s) : SafeOut n (execNop s) := issue_safe h fun _ hu => fallThrough_safe hu

/-! ### Divergent control and loops -/

theorem execIfP_safe (h : Safe n s) {o : GOnly} : SafeOut n (execIfP o s) :=
  issue_safe h fun u hu => by
    dsimp only
    split
    exacts [fallThrough_safe (by exact hu.parts), trap_safe]

theorem execElseP_safe (h : Safe n s) : SafeOut n (execElseP s) :=
  issue_safe h fun u hu => by
    dsimp only
    split
    · exact trap_safe
    · split
      exacts [fallThrough_safe (by exact hu.parts), trap_safe]

theorem execEndif_safe (h : Safe n s) : SafeOut n (execEndif s) :=
  issue_safe h fun u hu => by
    dsimp only
    split
    · exact trap_safe
    · split
      exacts [trap_safe, fallThrough_safe (by exact hu.parts)]

theorem execBrk_safe (h : Safe n s) {o : GOnly} : SafeOut n (execBrk o s) :=
  issue_safe h fun u hu => by
    have ends (k : Nat) (e : MaskEntry) (st : List MaskEntry) (pc : DWord) :
        SafeRes n (.next (retireTo (u.withTeam (popLoop u.team k e st)) pc none)) :=
      next_safe (retireTo_safe (hu.inFocus (popLoop_fits hu.team)))
    dsimp only
    split
    · exact trap_safe
    · split
      all_goals
        split
        exacts [ends .., fallThrough_safe (by exact hu.parts)]

theorem loopStart_safe (h : Safe n s) {count : Word} {len : Nat} : SafeRes n (loopStart s count len) := by
  unfold loopStart
  dsimp only
  split
  · exact trap_safe
  · split
    · exact trap_safe
    · split
      · exact accessFault_safe h
      · next w u hf =>
        have hu := fetch_safe h hf
        split
        · exact trap_safe
        · split
          · exact next_safe <| retireTo_safe hu
          · split
            · exact trap_safe
            · exact next_safe <| retireTo_safe (by exact hu.withTeam (setLc_fits hu.team))

theorem execLoop_safe (h : Safe n s) {o : LoopOp} : SafeOut n (execLoop o s) := issue_safe h fun _ hu => loopStart_safe hu

theorem execStratumLoop_safe (h : Safe n s) {o : StrLoop} : SafeOut n (execStratumLoop o s) := issue_safe h fun _ hu => loopStart_safe hu

end Sys2Proof.Machine
end

section
/-! SUPPORT. Register instructions keep the invariant: each writes registers of the team in focus, and retires (R105 to R118, R132 to R137,
R158 to R171). -/

namespace Sys2Proof.Machine

variable {n : Nat} {s : State}

/-- A change of the team in focus, and retirement. -/
theorem retires_safe (h : Safe n s) {t : Team} (ht : Fits s.ms.stamp t) : SafeRes n (.next (retire (s.withTeam t))) :=
  next_safe (retire_safe (h.inFocus ht))

/-! ### Integers, predicates and scalars -/

theorem vecOp_safe (h : Safe n s) {i : Instr} {g : BitVec 3} {d : BitVec 6} {f : Team → Nat → Word} : SafeOut n (vecOp i g d f s) :=
  issue_safe h fun _ hu => retires_safe hu (setV_fits.mpr hu.team)

theorem predOp_safe (h : Safe n s) {i : Instr} {g p : BitVec 3} {f : Team → Nat → Bool} : SafeOut n (predOp i g p f s) :=
  issue_safe h fun _ hu => retires_safe hu (setPLanes_fits.mpr hu.team)

theorem scalarOp_safe (h : Safe n s) {i : Instr} {d : BitVec 5} {f : Team → Word} : SafeOut n (scalarOp i d f s) :=
  issue_safe h fun _ hu => retires_safe hu (setS_fits.mpr hu.team)

theorem vec1_safe (h : Safe n s) {i : Instr} {o : V2} {f : Word → Word} : SafeOut n (vec1 i o f s) := vecOp_safe h

theorem vec2_safe (h : Safe n s) {i : Instr} {o : V3} {f : Word → Word → Word} : SafeOut n (vec2 i o f s) := vecOp_safe h

theorem vecImm_safe (h : Safe n s) {i : Instr} {o : VI} {signed : Bool} {f : Word → Word → Word} : SafeOut n (vecImm i o signed f s) :=
  vecOp_safe h

theorem shfl_safe (h : Safe n s) {i : Instr} {o : V3} {src : Nat → Nat → Nat → Nat} : SafeOut n (shfl i o src s) := vecOp_safe h

theorem plog_safe (h : Safe n s) {i : Instr} {o : P3} {f : Bool → Bool → Bool} : SafeOut n (plog i o f s) := predOp_safe h

theorem scal2_safe (h : Safe n s) {i : Instr} {o : S3} {f : Word → Word → Word} : SafeOut n (scal2 i o f s) := scalarOp_safe h

theorem scmp_safe (h : Safe n s) {i : Instr} {o : SCmp} {f : BitVec 3 → Word → Word → Bool} : SafeOut n (scmp i o f s) :=
  issue_safe h fun _ hu => retires_safe hu (setPUniform_fits.mpr hu.team)

theorem execSrd_safe (h : Safe n s) {o : SMovI} : SafeOut n (execSrd o s) :=
  issue_safe h fun u hu => by
    dsimp only
    split
    exacts [retires_safe hu (setPair_fits.mpr hu.team), retires_safe hu (setS_fits.mpr hu.team)]

theorem execSwr_safe (h : Safe n s) {o : SMovI} : SafeOut n (execSwr o s) :=
  issue_safe h fun u hu => by
    dsimp only
    split
    · exact retires_safe hu hu.team.parts
    · split
      · exact trap_safe
      · split
        · exact next_safe (retireWithStep_safe (by exact hu.parts))
        · split
          exacts [retires_safe hu hu.team.parts, retires_safe hu hu.team.parts]

/-! ### Floats -/

theorem setGen_safe (h : Safe n s) {g : Nat} {x : DWord} : Safe n (setGen s g x) := h.parts

theorem sweeps_safe (h : Safe n s) {m : RMode} : Safe n (sweeps s m).1 := by
  unfold sweeps
  split
  · dsimp only
    split
    exacts [setGen_safe h, h]
  · exact h

/-- The sweeps of an instruction move its group's generator alone (R155). -/
theorem sweeps_ms (s : State) (m : RMode) : (sweeps s m).1.ms = s.ms := by
  unfold sweeps
  split
  · dsimp only
    split <;> rfl
  · rfl

theorem fpResult_safe (h : Safe n s) {m : RMode} {g : BitVec 3} {d : BitVec 6} {f : Team → (Nat → Rnd) → Nat → Word} :
    SafeRes n (fpResult m g d f s) :=
  retires_safe (sweeps_safe h) (setV_fits.mpr (sweeps_ms s m ▸ h.team))

theorem fpOp_safe (h : Safe n s) {i : Instr} {g : BitVec 3} {d : BitVec 6} {f : Team → (Nat → Rnd) → Nat → Word} :
    SafeOut n (fpOp i g d f s) := issue_safe h fun _ hu => fpResult_safe hu

theorem fp3_safe (h : Safe n s) {i : Instr} {o : V3} {c : Nat} {f : Fmt → Rnd → Nat → Nat → Nat → Nat} : SafeOut n (fp3 i o c f s) :=
  fpOp_safe h

theorem spfn_safe (h : Safe n s) {i : Instr} {o : V2} {g : Special} : SafeOut n (spfn i o g s) := fpOp_safe h

theorem i2fOp_safe (h : Safe n s) {i : Instr} {o : V2} {signed : Bool} : SafeOut n (i2fOp i o signed s) := fpOp_safe h

theorem f2iOp_safe (h : Safe n s) {i : Instr} {o : V2} {lo hi : Int} : SafeOut n (f2iOp i o lo hi s) := fpOp_safe h

theorem fpExact_safe (h : Safe n s) {i : Instr} {o : V3} {c : Nat} {f : Fmt → Nat → Nat → Nat} : SafeOut n (fpExact i o c f s) :=
  issue_safe h fun _ hu => fpResult_safe hu

theorem nOp_safe (h : Safe n s) {i : Instr} {fr : BitVec 2} {f : Fmt → State → Result} (hf : ∀ k u, Safe n u → SafeRes n (f k u)) :
    SafeOut n (nOp i fr f s) :=
  issue_safe h fun u hu => by
    split
    exacts [trap_safe, hf _ u hu]

theorem n3_safe (h : Safe n s) {i : Instr} {o : VN} {rounds : Bool} {f : Fmt → Rnd → Nat → Nat → Nat → Nat} : SafeOut n (n3 i o rounds f s) :=
  nOp_safe h fun _ _ hu => fpResult_safe hu

theorem execFclass_safe (h : Safe n s) {o : V2} : SafeOut n (execFclass o s) := issue_safe h fun _ hu => retires_safe hu (setV_fits.mpr hu.team)

theorem fcmpOp_safe (h : Safe n s) {i : Instr} {o : VCmp} {nan : Bool} : SafeOut n (fcmpOp i o nan s) :=
  issue_safe h fun _ hu => retires_safe hu (setPLanes_fits.mpr hu.team)

theorem cvtOp_safe (h : Safe n s) {i : Instr} {o : CvtOp} {m : Option RMode} : SafeOut n (cvtOp i o m s) :=
  issue_safe h fun _ hu => fpResult_safe hu

theorem cvtnOp_safe (h : Safe n s) {i : Instr} {o : CvtnOp} {m : Option RMode} : SafeOut n (cvtnOp i o m s) :=
  nOp_safe h fun _ _ hu => fpResult_safe hu

theorem execNcmp_safe (h : Safe n s) {o : VNCmp} : SafeOut n (execNcmp o s) :=
  nOp_safe h fun _ _ hu => retires_safe hu (setPLanes_fits.mpr hu.team)

theorem execPlx_safe (h : Safe n s) {o : V3} : SafeOut n (execPlx o s) := issue_safe h fun _ hu => retires_safe hu (setV_fits.mpr hu.team)

theorem execPld_safe (h : Safe n s) {o : V3} : SafeOut n (execPld o s) := issue_safe h fun _ hu => retires_safe hu (setV_fits.mpr hu.team)

theorem execFrw_safe (h : Safe n s) {o : FrwOp} : SafeOut n (execFrw o s) :=
  issue_safe h fun _ hu => retires_safe hu (hu.team.withRegs (by simpa [RegsShaped] using hu.team.shaped))

/-! ### Lanes -/

theorem execVoteAny_safe (h : Safe n s) {o : VoteOp} : SafeOut n (execVoteAny o s) :=
  issue_safe h fun _ hu => retires_safe hu (setPUniform_fits.mpr hu.team)

theorem execVoteAll_safe (h : Safe n s) {o : VoteOp} : SafeOut n (execVoteAll o s) :=
  issue_safe h fun _ hu => retires_safe hu (setPUniform_fits.mpr hu.team)

theorem rlog_safe (h : Safe n s) {i : Instr} {o : V2} {f : Team → Word → Word → Word} {x : Word} : SafeOut n (rlog i o f x s) :=
  issue_safe h fun _ hu => retires_safe hu (setV_fits.mpr hu.team)

theorem scan_safe (h : Safe n s) {i : Instr} {o : V2} {f : Team → Word → Word → Word} {x : Word} : SafeOut n (scan i o f x s) :=
  issue_safe h fun _ hu => retires_safe hu (setV_fits.mpr hu.team)

theorem execElect_safe (h : Safe n s) {o : GP} : SafeOut n (execElect o s) := issue_safe h fun _ hu => retires_safe hu (setP_fits.mpr hu.team)

end Sys2Proof.Machine
end

section
/-! SUPPORT. The L1, and the accesses of an instruction's lanes, keep the invariant (R173 to R189, R211 to R216). -/

namespace Sys2Proof.Machine

variable {n : Nat} {s : State}

/-! ### The L1 -/

theorem leaveSectors_ownPub (xs : List (Nat × Nat)) (v : Version) : (xs.foldl (fun v x => leaveSector v x.2) v).ownPub = v.ownPub := by
  induction xs generalizing v with
  | nil => rfl
  | cons x xs ih => exact ih _

theorem forceOut_safe (h : Safe n s) {outs : List (Nat × Nat)} : Safe n (forceOut s outs) := by
  unfold forceOut
  split
  · exact h
  · exact h.mapTeams fun t ht => ht.withPub (by rw [leaveSectors_ownPub]; exact ht.published)

theorem leaveCore_ownPub (v : Version) : (leaveCore v).ownPub = v.ownPub := by
  unfold leaveCore
  generalize ((v.wside.map fun (c : Host.Cell) => c.1 / 64) ++ v.held).eraseDups = xs
  induction xs generalizing v with
  | nil => rfl
  | cons x xs ih => exact ih _

theorem tidyL1_safe (h : Safe n s) : Safe n (tidyL1 s) := h.parts

theorem convertL1_safe (h : Safe n s) {old : State} : Safe n (convertL1 old s) := forceOut_safe (by exact h.parts)

theorem dropClean_safe (h : Safe n s) {rs : List (Nat × Nat)} : Safe n (dropClean rs s) := h.parts

theorem enterL1_safe (h : Safe n s) {mru : Bool} {clean : Option Nat} {ns : List Nat} : Safe n (enterL1 s mru clean ns) :=
  forceOut_safe (by exact h.parts)

/-! ### Reads -/

theorem cacheLeaves_later {t : Team} {ms : MemSide} {xs : List LaneAcc} : Later ms (cacheLeaves t ms xs) :=
  Later.foldl (fun ms x => by split; exacts [fillTlb_later, Later.refl ms]) xs ms

/-- An access keeps the invariant if what follows its checks does. -/
theorem withAcc_safe (h : Safe n s) {acc : Access} {cell : Bool} {align : Nat} {as : List (Nat × DWord)} {k : List LaneAcc → State → Result}
    (hk : ∀ xs u, Safe n u → SafeRes n (k xs u)) : SafeRes n (withAcc s acc cell align as k) := by
  unfold withAcc
  split
  · exact accessFault_safe h
  · split
    exacts [wait_safe, hk _ _ (h.withMs cacheLeaves_later)]

theorem holdReads_ownPub (ms : MemSide) (v : Version) (away sectors : List Nat) : (holdReads ms v away sectors).ownPub = v.ownPub := by
  unfold holdReads
  split <;> rfl

theorem correctGranules_team (s : State) (gs : List Nat) : (correctGranules s gs).team = s.team := by
  have logs (xs : List (Nat × Bool)) (s : State) :
      (xs.foldl (fun s e => logEvent s 4 (2 ^ 24 + channelOf s.mgmt.map (16 * e.1)) (leBytes 8 (16 * e.1))) s).team = s.team := by
    induction xs generalizing s with
    | nil => rfl
    | cons x xs ih => exact ih _
  exact logs _ _

/-- Granules corrected for several reads: the team in focus is as it was. -/
theorem corrected_safe (h : Safe n s) (f : State → LaneAcc → List Nat) (xs : List LaneAcc) :
    let u := xs.foldl (fun s x => correctGranules s (f s x)) s
    SafeParts n u.ms u.team.rf s.team.ver.ownPub u.others u.strat.kept := by
  induction xs generalizing s with
  | nil => exact h
  | cons x xs ih =>
    have hx := ih (correctGranules_safe (gs := f s x) h)
    rwa [correctGranules_team] at hx

/-- Reads touch the L2, and hold sectors. -/
theorem noteReads_safe (h : Safe n s) {gather : Option Nat} {cls : Nat} {na : Bool} {xs : List LaneAcc} :
    Safe n (noteReads s gather cls na xs) := by
  unfold noteReads
  dsimp only
  refine enterL1_safe ?_
  dsimp only [Safe]
  rw [holdReads_ownPub]
  refine (corrected_safe h (fun s x => readGranules s.ms gather x) _).withMs ?_
  split
  · refine Later.foldl (fun ms x => ?_) _ _
    split
    exacts [Later.refl ms, l2Touch_later ..]
  · exact Later.refl _

/-! ### Stores -/

theorem ownDirect_published {v : Version} {m : Nat} {cs : List Host.Cell} (h : ∀ r ∈ v.ownPub, r.1 ≤ m) :
    ∀ r ∈ (ownDirect v m cs).ownPub, r.1 ≤ m := published_le h (le_refl m)

theorem afterPass_safe (h : Safe n s) {p : StorePass} : Safe n (afterPass s p) :=
  (forceOut_safe (s := { s with l1 := p.l1 }) h.parts).parts

theorem bufferCells_safe (h : Safe n s) {cs : List Host.Cell} : Safe n (bufferCells s cs) := modHome_safe h

/-- Bytes stored at once are the team's own at the place of their commit. -/
theorem storeDirect_safe (h : Safe n s) {ins : Nat → Ins} {cs : List Host.Cell} :
    let u := immediateAs s ins cs
    Safe n (u.withTeam { u.team with ver := ownDirect u.team.ver u.ms.stamp cs }) :=
  (immediateAs_safe h).withTeam ((immediateAs_safe h).team.withPub (ownDirect_published (immediateAs_safe h).team.published))

theorem storeBytes_safe (h : Safe n s) {ins : List (Nat × Ins)} {xs : List (Via × Nat × Byte)} : Safe n (storeBytes s ins xs) := by
  unfold storeBytes
  extract_lets pick s1 s2
  have h1 : Safe n s1 := by
    dsimp only [s1]
    split
    exacts [h, storeDirect_safe h]
  have h2 : Safe n s2 := by
    dsimp only [s2]
    split
    exacts [h1, bufferCells_safe h1]
  clear_value s2
  split
  exacts [h2, h2.parts]

theorem storeBits_safe {ins : List (Nat × Ins)} {xs : List (Via × Nat × Byte × Byte)} : ∀ {s : State}, Safe n s → Safe n (storeBits s ins xs) := by
  induction xs with
  | nil => exact id
  | cons x xs ih => exact fun h => ih (storeBytes_safe h)

theorem storeWith_safe (h : Safe n s) {cls : Nat} {xs : List LaneAcc} {eff : State → State} (he : ∀ u, Safe n u → Safe n (eff u)) :
    SafeRes n (storeWith s cls xs eff) := by
  unfold storeWith
  dsimp only
  split
  exacts [trap_safe, next_safe (retire_safe (he _ (afterPass_safe h)))]

/-! ### Scratchpad -/

theorem readScr_safe (h : Safe n s) {k : Nat} {offs : List Nat} {r : Result} (hr : SafeRes n r) : SafeRes n (readScr s k offs r) := by
  unfold readScr
  split
  exacts [next_safe (trapBefore_safe (logEvent_safe h)), hr]

theorem scrSets_safe (h : Safe n s) {t : Team} {cs : List Host.Cell} : Safe n (scrSets s t cs) := h.parts

theorem scrBits_safe {t : Team} {xs : List (Nat × Byte × Byte)} : ∀ {s : State}, Safe n s → Safe n (scrBits s t xs) := by
  induction xs with
  | nil => exact id
  | cons x xs ih => exact fun h => ih (scrSets_safe h)

end Sys2Proof.Machine
end

section
/-! SUPPORT. Loads, stores, tensor accesses and copies keep the invariant (R187 to R206, R321, R406). -/

namespace Sys2Proof.Machine

variable {n : Nat} {s : State}

/-! ### Loads, stores and prefetch -/

theorem loadOp_safe (h : Safe n s) {d : Nat} {m : LaneSet} {data : List (List Word)} : SafeRes n (loadOp s d m data) :=
  retires_safe h (addOp_fits h.team)

theorem execLd_safe (h : Safe n s) {o : MemOp} : SafeOut n (execLd o s) :=
  issue_safe h fun u hu => by
    split
    exacts [wait_safe, withAcc_safe hu fun _ _ hv => loadOp_safe (noteReads_safe hv)]

theorem execSt_safe (h : Safe n s) {o : MemOp} : SafeOut n (execSt o s) :=
  issue_safe h fun _ hu => withAcc_safe hu fun _ _ hv => storeWith_safe hv fun _ hw => storeBytes_safe hw

theorem execLds_safe (h : Safe n s) {o : SpOp} : SafeOut n (execLds o s) :=
  issue_safe h fun u hu => by
    split
    · exact wait_safe
    · dsimp only
      split
      exacts [trap_safe, readScr_safe hu (loadOp_safe hu)]

theorem execSts_safe (h : Safe n s) {o : SpOp} : SafeOut n (execSts o s) :=
  issue_safe h fun u hu => by
    dsimp only
    split
    exacts [trap_safe, next_safe (retire_safe (scrSets_safe hu))]

theorem prefLane_safe (h : Safe n s) {o : PrefOp} {x : Nat × DWord} : Safe n (prefLane o s x) := by
  unfold prefLane
  dsimp only [Safe]
  split
  · exact h
  · next l _ =>
    have hs : Later s.ms (fillTlb s.team.pl.core s.team.pl.asid s.ms l) := fillTlb_later
    split
    · exact h.withMs hs
    · split
      · split
        exacts [h.withMs hs, h.withMs (hs.trans (l2Touch_later ..))]
      · split
        exacts [(enterL1_safe (by exact h.withMs hs)).parts, (enterL1_safe (by exact h.withMs (hs.trans (l2Touch_later ..)))).parts]

theorem execPref_safe (h : Safe n s) {o : PrefOp} : SafeOut n (execPref o s) :=
  issue_safe h fun _ hu => next_safe (retire_safe (hu.foldl fun _ hv _ _ => prefLane_safe hv))

theorem forgetBacks_safe (h : Safe n s) : Safe n (forgetBacks s) := by
  unfold forgetBacks
  split
  exacts [h.withMs .marks, h]

theorem execStratumLd_safe (h : Safe n s) {o : StrMem} : SafeOut n (execStratumLd o s) :=
  issue_safe h fun u hu => by
    dsimp only
    split
    · exact trap_safe
    · exact next_safe (retire_safe hu)
    · have hc (gs : List Nat) : Safe n (correctGranules u gs) := correctGranules_safe hu
      split
      · exact next_safe (stratumFault_safe (eccReport_safe (hc _)))
      · have hf {m : Nat} (hm : Safe m u) (gs : List Nat) (k : Nat) : Safe m (forgetBacks { correctGranules u gs with free := k }) :=
          forgetBacks_safe (by exact (correctGranules_safe hm).parts)
        exact retires_safe (hf hu _ _) (setVs_fits.mpr ((hf hu.now _ _).fits hu.team))

theorem execStratumSt_safe (h : Safe n s) {o : StrMem} : SafeOut n (execStratumSt o s) :=
  issue_safe h fun u hu => by
    dsimp only
    split
    exacts [trap_safe, next_safe (retire_safe hu), next_safe (retire_safe (by exact hu.parts))]

/-! ### Tensor accesses -/

theorem execLdt_safe (h : Safe n s) {o : TensorOp} : SafeOut n (execLdt o s) :=
  issue_safe h fun u hu => by
    split
    · exact wait_safe
    · dsimp only
      split
      · exact trap_safe
      · split
        · split
          exacts [trap_safe, readScr_safe hu (loadOp_safe hu)]
        · exact withAcc_safe hu fun _ _ hv => loadOp_safe (noteReads_safe hv)

theorem execStt_safe (h : Safe n s) {o : TensorOp} : SafeOut n (execStt o s) :=
  issue_safe h fun u hu => by
    dsimp only
    split
    · exact trap_safe
    · split
      · split
        exacts [trap_safe, next_safe (retire_safe (scrBits_safe hu))]
      · refine withAcc_safe hu fun _ v hv => storeWith_safe ?_ fun _ => storeBits_safe
        split
        exacts [noteReads_safe hv, hv]

theorem execShset_safe (h : Safe n s) {o : ShsetOp} : SafeOut n (execShset o s) :=
  issue_safe h fun u hu => by
    dsimp only
    split
    · exact trap_safe
    · refine readScr_safe hu ?_
      split
      exacts [trap_safe, retires_safe hu (hu.team.withRegs (by simpa [RegsShaped] using hu.team.shaped))]

/-! ### Translations of an engine -/

/-- What the invariant asks of an engine's translation, however it ends. -/
inductive XlateSafe (n : Nat) : EngineXlate → Prop where
  | ok {pa key : Nat} {direct : Bool} {s : State} (h : Safe n s) : XlateSafe n (.ok pa direct key s)
  | wait {s : State} (h : Safe n s) : XlateSafe n (.wait s)
  | fail {reason : Nat} {s : State} (h : Safe n s) : XlateSafe n (.fail reason s)

theorem dropEngineFault_safe (h : Safe n s) {uid tag : Nat} : Safe n (dropEngineFault s uid tag) := h.modTeam fun _ ht => ht.parts

/-- The body of `engineWalk`, as a function (see `pageFault_def`). -/
theorem engineWalk_def : @engineWalk = delta% @engineWalk := by
  delta engineWalk
  rfl

theorem engineWalk_safe (h : Safe n s) {t : Team} {tag : Nat} {acc : Access} {va : DWord} : XlateSafe n (engineWalk s t tag acc va) := by
  rw [engineWalk_def]
  beta_reduce
  split
  · split
    · split
      · exact .fail h
      · split
        · exact .fail h
        · exact .ok (h.withMs fillTlb_later)
    · exact .fail h
    · exact .fail h
    · split
      · split
        · exact .wait h
        · split
          · exact .wait ((faultEntry_safe (setFuture_safe h)).modTeam fun _ ht => ht.parts)
          · exact .wait h
      · exact .fail h
  · exact .fail h

theorem engineXlate_safe (h : Safe n s) {t : Team} {tag : Nat} {acc : Access} {va : DWord} : XlateSafe n (engineXlate s t tag acc va) := by
  unfold engineXlate
  split
  · exact engineWalk_safe h
  · dsimp only
    split
    · exact .wait h
    · have hd {x y : Nat} {z : DWord} : Safe n (dropEngineFault (setFuture s t.pl.core t.pl.asid z x 0) t.uid y) :=
        dropEngineFault_safe (setFuture_safe h)
      split
      exacts [.fail hd, engineWalk_safe hd]

/-! ### Copies -/

theorem transBytes_safe {tag : Nat} {acc : Access} : ∀ {k : Nat} {t : Team} {va : DWord} {s : State} {xs : List (Nat × Bool × Nat)},
    Safe n s → XlateSafe n (transBytes t tag acc va k s xs).1
  | 0, _, _, _, _, h => .ok h
  | k + 1, t, va, s, xs, h => by
    have hx : XlateSafe n (engineXlate s t tag acc va) := engineXlate_safe h
    unfold transBytes
    split
    · next e =>
      rw [e] at hx
      obtain ⟨h1⟩ := hx
      split
      · exact .fail (eccReport_safe h1)
      · refine transBytes_safe ?_
        split
        exacts [eccCorrect_safe h1, h1]
    · exact hx

theorem transBox_safe {c : Copy} {w : Nat} : ∀ {js : List (Nat × Nat)} {t : Team} {s : State} {xs : List BoxElem},
    Safe n s → XlateSafe n (transBox t c w js s xs).1
  | [], _, _, _, h => .ok h
  | (j0, j1) :: js, t, s, xs, h => by
    unfold transBox
    dsimp only
    split
    · split
      · next e =>
        have hx := congrArg Prod.fst e ▸ transBytes_safe h
        obtain ⟨h1⟩ := hx
        exact transBox_safe h1
      · next e => exact congrArg Prod.fst e ▸ transBytes_safe h
    · exact transBox_safe h

theorem copyIn_safe (h : Safe n s) {t : Team} {c : Copy} {w : Nat} {x : BoxElem} : Safe n (copyIn t c w s x) := by
  unfold copyIn
  dsimp only
  split
  · exact scrBits_safe (h.withMs (Later.foldl (fun _ _ => l2Touch_later ..) _ _))
  · split
    exacts [h, scrBits_safe h]

theorem directBits_safe {uid : Nat} : ∀ {xs : List BitWrite} {s : State}, Safe n s → Safe n (directBits s uid xs)
  | [], _, h => h
  | b :: xs, s, h => by
    unfold directBits
    dsimp only
    refine directBits_safe ?_
    split
    · exact (immediateAs_safe h).modTeam fun _ ht => ht.withPub (ownDirect_published ht.published)
    · exact h

theorem modCopy_fits {t : Team} (h : Fits n t) {tag : Nat} {f : Copy → Copy} : Fits n (modCopy t tag f) := h.parts

theorem joinWrites_ownPub (ms : MemSide) : ∀ (xs : List (Nat × Ins × Byte × Byte)) (v : Version), (joinWrites ms v xs).ownPub = v.ownPub
  | [], _ => rfl
  | (_, _, _, _) :: xs, _ => joinWrites_ownPub ms xs _

theorem settleBatches_ownPub (ms : MemSide) : ∀ (bs : List Batch) (v : Version), (settleBatches ms bs v).2.1.ownPub = v.ownPub
  | [], _ => rfl
  | b :: bs, v => by
    unfold settleBatches
    split
    · exact (settleBatches_ownPub ms bs _).trans (joinWrites_ownPub ..)
    · rfl

theorem settleEngines_ownPub (ms : MemSide) (e : Engines) (v : Version) : (settleEngines ms e v).2.ownPub = v.ownPub := settleBatches_ownPub ..

theorem settleTeam_fits {t : Team} (h : Fits n t) {ms : MemSide} : Fits n (settleTeam ms t) := by
  refine h.withPub ?_
  unfold settleTeam
  dsimp only
  rw [settleEngines_ownPub]
  split
  · dsimp only
    rw [settleEngines_ownPub]
    exact h.published
  · exact h.published

theorem runCopy_safe (h : Safe n s) {t : Team} {c : Copy} : Safe n (runCopy s t c) := by
  have hx : XlateSafe n (transBox t c (slotOf c.slot).width (boxElems c.sh) s []).1 := transBox_safe h
  have ends {u : State} (hu : Safe n u) {es : List BoxElem} {outs : List BitWrite} {f : Copy → Copy} :
      let u2 := directBits (if c.out then u else es.foldl (copyIn t c (slotOf c.slot).width) u) t.uid outs
      Safe n (u2.modTeam t.uid fun t => settleTeam u2.ms (modCopy t c.tag f)) := by
    refine (directBits_safe ?_).modTeam fun _ ht => settleTeam_fits (modCopy_fits ht)
    split
    exacts [hu, hu.foldl fun _ hv _ _ => copyIn_safe hv]
  unfold runCopy
  dsimp only
  split
  · next e =>
    rw [e] at hx
    obtain ⟨h1⟩ := hx
    exact ends h1
  · next e =>
    rw [e] at hx
    obtain ⟨⟩ | ⟨h1⟩ := hx
    exact h1
  · next e =>
    rw [e] at hx
    obtain ⟨⟩ | ⟨⟩ | ⟨h1⟩ := hx
    exact ends h1

theorem execCpt_safe (h : Safe n s) {o : CptOp} : SafeOut n (execCpt o s) :=
  issue_safe h fun u hu => by
    dsimp only
    split
    · exact trap_safe
    · split
      · exact wait_safe
      · split
        · exact trap_safe
        · split
          · exact trap_safe
          · split
            · exact trap_safe
            · split
              · exact trap_safe
              · split
                exacts [trap_safe, retires_safe hu hu.team.parts]

theorem execCpseal_safe (h : Safe n s) {o : SD} : SafeOut n (execCpseal o s) :=
  issue_safe h fun u hu => by
    dsimp only
    split
    · exact trap_safe
    · split
      · exact wait_safe
      · split
        · exact wait_safe
        · exact retires_safe hu (setS_fits.mpr (hu.team.withPub (by rw [settleEngines_ownPub]; exact hu.team.published)))

theorem takeErr_fits {t : Team} (h : Fits n t) {p : PendErr → Bool} : Fits n (takeErr t p).2 := by
  unfold takeErr
  split
  exacts [h, h.parts]

theorem execCpwait_safe (h : Safe n s) {o : S1} : SafeOut n (execCpwait o s) :=
  issue_safe h fun u hu => by
    dsimp only
    split
    exacts [wait_safe, next_safe (retireReport_safe hu (hu.inFocus (takeErr_fits hu.team)))]

theorem execCopyComplete_safe (h : Safe n s) {uid idx : Nat} : SafeOut n (execCopyComplete uid idx s) := by
  unfold execCopyComplete
  split
  · exact out_safe h
  · split
    exacts [out_safe h, out_safe (runCopy_safe h)]

end Sys2Proof.Machine
end

section
/-! SUPPORT. Matrix commands, boundaries, barriers and maintenance keep the invariant (R200, R213 to R249). -/

namespace Sys2Proof.Machine

variable {n : Nat} {s : State}

/-! ### Pairs -/

theorem modGang_safe (h : Safe n s) {grid idx : Nat} {f : Gang → Gang} : Safe n (s.modGang grid idx f) := h.parts

theorem modPair_safe (h : Safe n s) {grid gang k : Nat} {f : Pair → Pair} : Safe n (modPair s grid gang k f) := modGang_safe h

theorem modTeamPair_safe (h : Safe n s) {t : Team} {f : Pair → Pair} : Safe n (modTeamPair s t f) := by
  unfold modTeamPair
  split
  exacts [modPair_safe h, h]

theorem retireCmd_safe (h : Safe n s) {c : MCmd} {row : List Word} : Safe n (retireCmd s c row) :=
  h.modTeam fun _ ht => by
    dsimp only
    split
    exacts [completeOp_fits (modOp_fits ht), modOp_fits ht]

theorem keepTile_safe (h : Safe n s) {grid gang k : Nat} {x : Nat × Tile} : Safe n (keepTile s grid gang k x) := by
  unfold keepTile
  split
  · split
    exacts [immediate_safe h, h]
  · exact h

theorem putPair_safe (h : Safe n s) {grid gang : Nat} {p q : Pair} : Safe n (putPair s grid gang p q) :=
  (modPair_safe h).foldl fun _ hu _ _ => keepTile_safe hu

theorem failCmd_safe (h : Safe n s) {grid gang : Nat} {p : Pair} {c : MCmd} {code core : Nat} : Safe n (failCmd s grid gang p c code core) :=
  (putPair_safe h).foldl fun _ hu _ _ => retireCmd_safe hu

theorem execMatrixCmdStart_safe (h : Safe n s) {gang pair : Nat} : SafeOut n (execMatrixCmdStart gang pair s) := by
  unfold execMatrixCmdStart
  split
  · exact out_safe h
  · split
    · exact out_safe h
    · split
      · split
        · split
          · exact out_safe (failCmd_safe (by exact h.parts))
          · exact out_safe (failCmd_safe (logEvent_safe (by exact h.parts)))
          · exact out_safe (modPair_safe (by exact h.parts))
        · exact out_safe h
      · exact out_safe h

theorem execMatrixCmdRetire_safe (h : Safe n s) {gang pair : Nat} : SafeOut n (execMatrixCmdRetire gang pair s) := by
  unfold execMatrixCmdRetire
  split
  · exact out_safe h
  · split
    · exact out_safe h
    · split
      · dsimp only
        split
        · exact out_safe (retireCmd_safe (putPair_safe h))
        · exact out_safe (retireCmd_safe (putPair_safe h))
        · exact out_safe (retireCmd_safe (putPair_safe h))
        · exact out_safe (retireCmd_safe (modGang_safe (putPair_safe h)))
      · exact out_safe h

theorem enqueue_safe (h : Safe n s) {p : Pair} {dst : Dst} {kind : MCmdKind} : SafeRes n (enqueue s p dst kind) := by
  have ha : Safe n (s.withTeam (addOp s.team 2 dst 0 false)) := h.inFocus (addOp_fits h.team)
  unfold enqueue
  dsimp only
  split
  · exact wait_safe
  · split
    · exact wait_safe
    · exact ite_safe (next_safe (retire_safe (retireCmd_safe (putPair_safe ha)))) (next_safe (retire_safe (modTeamPair_safe ha)))

theorem execMma_safe (h : Safe n s) {o : MmaOp} : SafeOut n (execMma o s) :=
  issue_safe h fun u hu => by
    dsimp only
    split
    · exact next_safe (retire_safe hu)
    · split
      · exact trap_safe
      · split
        · exact trap_safe
        · split
          · exact trap_safe
          · split
            exacts [trap_safe, enqueue_safe hu]

theorem execMzero_safe (h : Safe n s) {o : MzeroOp} : SafeOut n (execMzero o s) :=
  issue_safe h fun u hu => by
    dsimp only
    split
    · exact trap_safe
    · split
      exacts [trap_safe, enqueue_safe hu]

theorem execMrd_safe (h : Safe n s) {o : MrdOp} : SafeOut n (execMrd o s) :=
  issue_safe h fun u hu => by
    dsimp only
    split
    · exact trap_safe
    · split
      · split
        exacts [next_safe (trapBefore_safe (modTeamPair_safe hu)), trap_safe]
      · exact enqueue_safe hu

theorem execMsts_safe (h : Safe n s) {o : SS} : SafeOut n (execMsts o s) :=
  issue_safe h fun u hu => by
    dsimp only
    split
    · exact trap_safe
    · split
      · exact trap_safe
      · split
        exacts [trap_safe, enqueue_safe hu]

theorem execMstat_safe (h : Safe n s) {o : SD} : SafeOut n (execMstat o s) :=
  issue_safe h fun u hu => by
    dsimp only
    split
    exacts [trap_safe, retires_safe hu (setS_fits.mpr hu.team)]

/-! ### Boundaries and barriers -/

theorem onTeam_safe (h : Safe n s) {uid : Nat} {f : State → State} (hf : ∀ u, Safe n u → Safe n (f u)) : Safe n (onTeam s uid f) := by
  unfold onTeam
  split
  exacts [h, (hf _ (h.focus uid)).focus _]

theorem acquireNow_safe (h : Safe n s) {scope : Nat} : Safe n (acquireNow s scope) := purge_safe (by exact h.withTeam h.team.unpublished)

theorem phaseDone_safe (h : Safe n s) {acq : Bool} {scope : Nat} : Safe n (phaseDone s acq scope) := by
  have ends {u : State} (hu : Safe n u) : Safe n (retire (u.withTeam (nextPhase u.team))) := retire_safe (by exact hu.parts)
  unfold phaseDone
  dsimp only
  split
  exacts [ends (acquireNow_safe h), ends h]

theorem execPhase_safe (h : Safe n s) {o : PhaseOp} : SafeOut n (execPhase o s) :=
  issue_safe h fun u hu => by
    split
    exacts [next_safe (phaseDone_safe hu), next_safe hu.parts]

theorem barrierDone_safe (h : Safe n s) {scope : Nat} : Safe n (barrierDone s scope) := phaseDone_safe (modGang_safe h)

theorem releaseWaiters_safe (h : Safe n s) : Safe n (releaseWaiters s) :=
  h.foldl fun _ hv _ _ => onTeam_safe hv fun u hu => by
    split
    · split
      exacts [barrierDone_safe hu, hu]
    · exact hu

theorem arriveNow_safe (h : Safe n s) {rlx arv : Bool} {scope : Nat} : Safe n (arriveNow s rlx arv scope) := by
  have hm {f : Gang → Gang} : Safe n (s.modGang s.team.pl.grid s.team.pl.gang f) := modGang_safe h
  unfold arriveNow
  dsimp only
  refine releaseWaiters_safe ?_
  split
  · split
    exacts [retire_safe hm, retire_safe (by exact hm.parts)]
  · split
    exacts [acquireNow_safe (by exact hm.parts), retire_safe hm]

theorem execBar_safe (h : Safe n s) {o : BarOp} : SafeOut n (execBar o s) :=
  issue_safe h fun u hu => by
    dsimp only
    split
    · exact trap_safe
    · refine ite_safe wait_safe ?_
      have hv : Safe n (if o.arv then u.modGang u.team.pl.grid u.team.pl.gang fun g => dropPending g u.team.pl.team else u) := by
        split
        exacts [modGang_safe hu, hu]
      split
      exacts [next_safe (arriveNow_safe hv), next_safe hv.parts]

/-! ### Waits for engines -/

theorem reportMatrix_safe (h : Safe n s) : Safe n (reportMatrix s).1 := by
  unfold reportMatrix
  split
  · split
    · split
      exacts [modTeamPair_safe h, h]
    · exact h
  · exact h

theorem execWaitc_safe (h : Safe n s) {o : WaitcOp} : SafeOut n (execWaitc o s) :=
  issue_safe h fun u hu => by
    dsimp only
    split
    · exact wait_safe
    · split
      · exact next_safe (retireReport_safe hu (reportMatrix_safe hu))
      · exact next_safe (retireReport_safe hu (hu.inFocus (takeErr_fits hu.team)))

theorem tellCopy_fits {t : Team} (h : Fits n t) {tag : Nat} : Fits n (tellCopy t tag) := h.parts

theorem fenceErr_fits {t : Team} (h : Fits n t) : Fits n (fenceErr t).2 := by
  unfold fenceErr
  dsimp only
  split
  · exact takeErr_fits h
  · exact tellCopy_fits h
  · split
    exacts [tellCopy_fits h, takeErr_fits h]

theorem execFence_safe (h : Safe n s) : SafeOut n (execFence s) :=
  issue_safe h fun u hu => by
    have own {tr : Option Trap} : SafeRes n (.next (retireReport u (u.withTeam (fenceErr u.team).2, tr))) :=
      next_safe (retireReport_safe hu (hu.inFocus (fenceErr_fits hu.team)))
    dsimp only
    split
    · exact wait_safe
    · split
      · split
        exacts [next_safe (retireReport_safe hu (modTeamPair_safe hu)), own]
      · exact own
      · exact next_safe (retireReport_safe hu (reportMatrix_safe hu))

/-! ### Maintenance of the L2 -/

theorem maintOp_safe (h : Safe n s) {i : Instr} {o : RangeOp} {kind : MaintKind} : SafeOut n (maintOp i o kind s) :=
  issue_safe h fun u hu => by
    dsimp only
    split
    · exact trap_safe
    · split
      · exact next_safe (retire_safe hu)
      · split
        exacts [wait_safe, retires_safe hu hu.team.parts]

theorem transPages_safe {t : Team} {tag : Nat} {acc : Access} : ∀ {ps : List (DWord × Nat)} {s : State} {xs : List (Nat × Nat)},
    Safe n s → XlateSafe n (transPages t tag acc ps s xs).1
  | [], _, _, h => .ok h
  | (va, k) :: ps, s, xs, h => by
    have hx : XlateSafe n (engineXlate s ((s.find t.uid).getD t) tag acc va) := engineXlate_safe h
    unfold transPages
    split
    · next e =>
      rw [e] at hx
      obtain ⟨h1⟩ := hx
      exact transPages_safe h1
    · exact hx

theorem maintSector_later {v : L2View} {kind : MaintKind} (ms : MemSide) (x : Sector) : Later ms (maintSector v kind ms x) := by
  cases kind with
  | clean => exact writeBack_later ..
  | inv => exact dropSector_later ..
  | flush => exact flushSector_later ..

theorem maintRanges_later {v : L2View} {kind : MaintKind} {ms : MemSide} {rs : List (Nat × Nat)} : Later ms (maintRanges v kind ms rs) :=
  Later.foldl maintSector_later _ _

theorem dropMaint_fits {t : Team} (h : Fits n t) {tag : Nat} : Fits n (dropMaint t tag) := h.parts

theorem execMaintenanceComplete_safe (h : Safe n s) {uid idx : Nat} : SafeOut n (execMaintenanceComplete uid idx s) := by
  have ends {u : State} (hu : Safe n u) {m : MaintOp} {rs : List (Nat × Nat)} {err : Option Trap} :
      let u0 := { u with ms := maintRanges (l2View u) m.kind u.ms rs }
      Safe n ((if m.kind = .clean then u0 else dropClean rs u0).modTeam uid fun t =>
        dropMaint (match err with | some tr => noteErr t m.tag 7 tr | none => t) m.tag) := by
    have hm : Safe n { u with ms := maintRanges (l2View u) m.kind u.ms rs } := hu.withMs maintRanges_later
    refine Safe.modTeam ?_ fun t ht => dropMaint_fits ?_
    · split
      exacts [hm, dropClean_safe hm]
    · cases err with
      | none => exact ht
      | some tr => exact noteErr_fits ht
  unfold execMaintenanceComplete
  split
  · exact out_safe h
  · split
    · exact out_safe h
    · next t _ _ m _ =>
      have hx : XlateSafe n (transPages t m.tag (if m.kind = .clean then .read else .write) (rangePages m.base m.len) s []).1 :=
        transPages_safe h
      dsimp only
      split
      · next e =>
        rw [e] at hx
        obtain ⟨h1⟩ := hx
        exact out_safe (ends h1 (err := none))
      · next e =>
        rw [e] at hx
        obtain ⟨⟩ | ⟨h1⟩ := hx
        exact out_safe h1
      · next e =>
        rw [e] at hx
        obtain ⟨⟩ | ⟨⟩ | ⟨h1⟩ := hx
        exact out_safe (ends h1 (err := some _))

theorem execEntryResolve_safe (h : Safe n s) {sector : Nat} : SafeOut n (execEntryResolve sector s) :=
  out_safe (h.withMs (.of_subset rfl rfl rfl (List.filter_subset_self _) (List.filter_subset_self _)))

end Sys2Proof.Machine
end

section
/-! SUPPORT. Vertex homes, launches, posted records and stage rings keep the invariant (R251 to R308). -/

namespace Sys2Proof.Machine

variable {n : Nat} {s : State}

/-! ### Requests and homes -/

theorem withRegion_safe (h : Safe n s) {as : List (Nat × DWord)} {k : List LaneAcc → State → Result}
    (hk : ∀ xs u, Safe n u → SafeRes n (k xs u)) : SafeRes n (withRegion s as k) := by
  unfold withRegion
  split
  exacts [trap_safe, withAcc_safe h hk]

theorem withVertex_safe (h : Safe n s) {align : Nat} {as : List (Nat × DWord)} {k : List LaneAcc → State → Result}
    (hk : ∀ xs u, Safe n u → SafeRes n (k xs u)) : SafeRes n (withVertex s align as k) := by
  unfold withVertex
  split
  exacts [accessFault_safe h, withRegion_safe h hk]

theorem sendRequests_safe (h : Safe n s) {d regs : Nat} {m : LaneSet} {xs : List LaneAcc} {kind : Nat → VReqKind} :
    SafeRes n (sendRequests s d regs m xs kind) :=
  next_safe (retire_safe (by exact h.withTeam (addOp_fits h.team)))

theorem aop_safe (h : Safe n s) {i : Instr} {o : AopOp} {op : AtomicOp} : SafeOut n (aop i o op s) :=
  issue_safe h fun u hu => by
    dsimp only
    split
    exacts [wait_safe, withVertex_safe hu fun _ _ hv => sendRequests_safe hv]

theorem execCallm_safe (h : Safe n s) {o : CallmOp} : SafeOut n (execCallm o s) :=
  issue_safe h fun u hu => by
    dsimp only
    split
    exacts [wait_safe, withRegion_safe hu fun _ _ hv => sendRequests_safe hv]

theorem execVertexRequestArrival_safe (h : Safe n s) {idx : Nat} : SafeOut n (execVertexRequestArrival idx s) := by
  unfold execVertexRequestArrival
  split
  · exact out_safe h
  · dsimp only
    split
    · exact out_safe h
    · split
      exacts [out_safe h, out_safe (modHome_safe (by exact h.parts))]

theorem execCombineAtomic_safe (h : Safe n s) {home : Nat} : SafeOut n (execCombineAtomic home s) := by
  unfold execCombineAtomic
  dsimp only
  split
  · exact out_safe h
  · split
    exacts [out_safe (replyTo_safe (modHome_safe h)), out_safe (replyTo_safe (homeWrite_safe (modHome_safe h)))]

/-! ### The vertex wave -/

theorem execCbatch_safe (h : Safe n s) {o : CbatchOp} : SafeOut n (execCbatch o s) :=
  issue_safe h fun u hu => by
    extract_lets t hn home a
    refine ite_safe trap_safe ?_
    split
    · exact wait_safe
    · split
      · exact wait_safe
      · extract_lets cell later reqs k m entry b u1 t1 t2 t3 t4
        have h4 : Fits u.ms.stamp t4 := setS_fits.mpr (setS_fits.mpr (setPair_fits.mpr (setV_fits.mpr hu.team)))
        exact retires_safe (modHome_safe hu) h4.parts

theorem execCreply_safe (h : Safe n s) {o : CreplyOp} : SafeOut n (execCreply o s) :=
  issue_safe h fun u hu => by
    dsimp only
    split
    · exact trap_safe
    · split
      exacts [trap_safe, next_safe (retire_safe (modHome_safe hu))]

theorem execCdone_safe (h : Safe n s) : SafeOut n (execCdone s) :=
  issue_safe h fun u hu => by
    extract_lets t hn
    split
    · exact trap_safe
    · refine ite_safe trap_safe ?_
      extract_lets u1 u2 u3
      have h3 : Safe n u3 := modHome_safe ((homeWrite_safe hu).foldl fun _ hv _ _ => replyTo_safe hv)
      exact next_safe (retire_safe (by exact h3.parts))

theorem execMreg_safe (h : Safe n s) {o : MregOp} : SafeOut n (execMreg o s) :=
  issue_safe h fun u hu => by
    have reads {xs ys : List LaneAcc} : Safe n (noteReads { u with ms := cacheLeaves u.team u.ms xs } none 0 false ys) :=
      noteReads_safe (by exact hu.withMs cacheLeaves_later)
    dsimp only
    split
    · exact accessFault_safe hu
    · refine ite_safe wait_safe ?_
      split
      · exact trap_safe
      · exact ite_safe trap_safe (next_safe (retire_safe (by exact reads.parts)))

/-! ### Waits for a write -/

theorem twaitDone_safe (h : Safe n s) {w : Twait} : Safe n (twaitDone s w) := by
  have ends {t : Team} (ht : Fits s.ms.stamp t) {sectors : List Nat} :
      Safe n (endWait (s.withTeam { t with ver := release t.ver sectors, wait := .ready })) :=
    endWait_safe (by exact h.withTeam ht.parts)
  unfold twaitDone
  extract_lets t lanes hits d t1 s1
  have ht : Fits s.ms.stamp t1 := by
    dsimp only [t1]
    split
    exacts [fillDst_fits h.team, h.team.parts]
  have h1 : Safe n s1 := ends ht
  split
  exacts [queueCont_safe h1, h1]

theorem execTwait_safe (h : Safe n s) {o : TwaitOp} : SafeOut n (execTwait o s) :=
  issue_safe h fun u hu => by
    dsimp only
    split
    · exact next_safe (retire_safe hu)
    · refine (withAcc_safe hu.now fun xs v hv => ?_).since hu.reached
      have hs {x : Option Nat} : Safe u.ms.stamp (v.withTeam { u.team with ver := { u.team.ver with snap := x } }) :=
        hv.withTeam (hv.fits hu.team).parts
      split
      exacts [next_safe (twaitDone_safe hs), next_safe hs.parts]

theorem unbuffer_safe (h : Safe n s) : Safe n (unbuffer s) := h.parts

theorem execTwaitWake_safe (h : Safe n s) {uid : Nat} : SafeOut n (execTwaitWake uid s) :=
  out_safe <| onTeam_safe h fun u hu => by
    split
    · exact hu
    · split
      exacts [unbuffer_safe (twaitDone_safe hu), twaitDone_safe hu]
    · exact hu

/-! ### Grids -/

theorem startGrid_safe (h : Safe n s) {r : List DWord} {by_ : Launcher} {asid prio depth : Nat} {within : BitVec 24} :
    Safe n (startGrid s r by_ asid prio depth within) := h.parts

theorem withBytes_safe (h : Safe n s) {align len : Nat} {va : DWord} {k : List Byte → State → Result}
    (hk : ∀ bs u, Safe n u → SafeRes n (k bs u)) : SafeRes n (withBytes align s va len k) := by
  unfold withBytes
  dsimp only
  split
  · exact accessFault_safe h
  · refine ite_safe wait_safe ?_
    split
    exacts [trap_safe, hk _ _ (noteReads_safe (by exact h.withMs cacheLeaves_later))]

theorem withRecord_safe (h : Safe n s) {len : Nat} {va : DWord} {k : List Byte → State → Result}
    (hk : ∀ bs u, Safe n u → SafeRes n (k bs u)) : SafeRes n (withRecord s va len k) := withBytes_safe h hk

theorem execLaunch_safe (h : Safe n s) {o : X1} : SafeOut n (execLaunch o s) :=
  issue_safe h fun u hu => by
    dsimp only
    refine ite_safe trap_safe (withRecord_safe hu fun bs v hv => ?_)
    refine ite_safe trap_safe (ite_safe wait_safe (next_safe (retire_safe ?_)))
    exact hv.parts

/-! ### Records of a team -/

/-- A record read back holds the registers of R87. -/
def SavedShaped (r : Saved) : Prop := r.v.length = r.nv ∧ r.s.length = 32 ∧ r.p.length = 7 ∧ r.lc.length = 3 ∧ r.fr.length = 4

theorem readSaved_shaped {bs : List Byte} {ctx : Bool} {r : Saved} (hr : readSaved bs ctx = some r) : SavedShaped r := by
  unfold readSaved at hr
  extract_lets h pc nv lcode n depth loopd base ps at hr
  obtain ⟨-, hr⟩ := Option.ite_none_right_eq_some.mp hr
  split at hr
  · obtain ⟨-, hr⟩ := Option.ite_none_right_eq_some.mp hr
    obtain rfl := Option.some.inj hr
    simp only [SavedShaped, ps, List.length_map, List.length_range, and_self]
  · cases hr

theorem applySaved_fits {t : Team} {r : Saved} (h : Fits n t) (hr : SavedShaped r) : Fits n (applySaved t r) := by
  obtain ⟨-, -, -, -, -, hfs, hsh⟩ := h.shaped
  obtain ⟨hv, hs, hp, hlc, hfr⟩ := hr
  exact h.withRegs ⟨hv, hs, hp, hlc, hfr, hfs, hsh⟩

/-- The float modes of another team. -/
theorem withFs_fits {t u : Team} (h : Fits n t) (hu : Fits n u) : Fits n { t with rf := { t.rf with fs := u.rf.fs } } := by
  obtain ⟨hv, hs, hp, hlc, hfr, -, hsh⟩ := h.shaped
  obtain ⟨-, -, -, -, -, hfs, -⟩ := hu.shaped
  exact h.withRegs ⟨hv, hs, hp, hlc, hfr, hfs, hsh⟩

theorem postedTeam_fits {r : Saved} (hr : SavedShaped r) (h : Safe n s) {k : Nat} : Fits s.ms.stamp (postedTeam s r k) := by
  refine (withFs_fits (t := applySaved _ r) (applySaved_fits ?_ hr) h.team).parts
  exact (absent_fits _).unpublished

theorem writePool_safe (h : Safe n s) {t : Team} {k : Nat} {pc : DWord} {detail : Word} {reason : Nat} :
    Safe n (writePool s t k pc detail reason) := immediate_safe h

theorem execPostc_safe (h : Safe n s) {o : X1} : SafeOut n (execPostc o s) :=
  issue_safe h fun u hu => by
    refine withRecord_safe hu fun bs v hv => ?_
    split
    · exact trap_safe
    · refine withRecord_safe hv fun bs w hw => ?_
      split
      · exact trap_safe
      · next r hr =>
        split
        · split
          · exact wait_safe
          · refine next_safe (retire_safe (writePool_safe ?_))
            exact hw.addTeams (List.forall_mem_singleton.mpr (postedTeam_fits (readSaved_shaped hr) hw))
        · exact trap_safe

/-! ### Waits for grids -/

theorem execTrig_safe (h : Safe n s) : SafeOut n (execTrig s) :=
  issue_safe h fun u hu => by
    refine next_safe (retire_safe ?_)
    dsimp only [Safe]
    split
    · split
      exacts [hu.parts, hu]
    · exact hu

theorem execWaitdep_safe (h : Safe n s) : SafeOut n (execWaitdep s) := issue_safe h fun _ hu => ite_safe (next_safe (retire_safe hu)) wait_safe

theorem execYield_safe (h : Safe n s) : SafeOut n (execYield s) :=
  issue_safe h fun _ hu => ite_safe (next_safe (retire_safe hu)) (next_safe (by exact hu.parts))

theorem execJoink_safe (h : Safe n s) : SafeOut n (execJoink s) := issue_safe h fun _ hu => ite_safe (next_safe (retire_safe hu)) wait_safe

/-! ### Stage rings -/

theorem modOwnGang_safe (h : Safe n s) {f : Gang → Gang} : Safe n (modOwnGang s f) := modGang_safe h

theorem governorStep_safe (h : Safe n s) {ring gid before after : Nat} : Safe n (governorStep s ring gid before after) := by
  unfold governorStep
  dsimp only
  split
  · exact h
  · split
    · exact h
    · split
      · exact (modOwnGang_safe h).parts
      · split
        · exact h
        · split
          · exact modOwnGang_safe h
          · split
            exacts [modOwnGang_safe h, h]

theorem ringOp_safe (h : Safe n s) {a : Nat} {put : Bool} {eff : RingHdr → State → State} (he : ∀ r u, Safe n u → Safe n (eff r u)) :
    SafeRes n (ringOp s a put eff) := by
  unfold ringOp
  split
  · exact trap_safe
  · exact ite_safe (next_safe (retire_safe (governorStep_safe (he _ _ (modOwnGang_safe h))))) wait_safe

theorem execRput_safe (h : Safe n s) {o : SS} : SafeOut n (execRput o s) :=
  issue_safe h fun _ hu => ringOp_safe hu fun _ _ hv => scrSets_safe (scrSets_safe hv)

theorem execRget_safe (h : Safe n s) {o : S2} : SafeOut n (execRget o s) :=
  issue_safe h fun _ hu => ringOp_safe hu fun _ _ hv => (scrSets_safe hv).inFocus (setS_fits.mpr (scrSets_safe hv).team)

end Sys2Proof.Machine
end

section
/-! SUPPORT. Placement, eviction, restore, publications, results and continuations keep the invariant (R40 to R53, R209, R290 to R299,
R399 to R406). -/

namespace Sys2Proof.Machine

variable {n : Nat} {s : State}

/-! ### Eviction -/

theorem leaveGroup_fits {t : Team} (h : Fits n t) : Fits n (leaveGroup t) := by
  have hp := passWait_fits h
  unfold leaveGroup
  dsimp only [Fits]
  split
  · exact hp.parts
  · exact hp.parts
  · exact hp.parts
  · exact hp.parts
  · exact h.parts
  · exact h.parts
  · exact (donePassed_fits hp).parts
  · exact h.parts
  · exact h.parts

/-- A team that leaves its core keeps its own published bytes. -/
theorem leaveCore_fits {t : Team} (h : Fits n t) : Fits n { t with ver := leaveCore t.ver } := h.withPub (by rw [leaveCore_ownPub]; exact h.published)

theorem evictTo_safe (h : Safe n s) {uid k : Nat} : Safe n (evictTo s uid k) :=
  onTeam_safe h fun u hu => by
    have hv {cs : List Host.Cell} : Safe u.ms.stamp (immediate u cs) := immediate_safe hu.now
    dsimp only [Safe]
    exact (immediate_safe hu).withTeam (hv.fits (leaveCore_fits (leaveGroup_fits hu.team)).parts)

theorem evictAll_safe (h : Safe n s) {vs : List Team} : Safe n (evictAll s vs) := h.foldl fun _ hu _ _ => evictTo_safe hu

theorem closePairs_safe (h : Safe n s) {vs : List Team} : Safe n (closePairs s vs) := h.parts

theorem leaveFenced_safe (h : Safe n s) : Safe n (leaveFenced s) := by
  unfold leaveFenced
  split
  · exact h
  · exact h.foldl fun u hu _ _ => by split; exacts [evictAll_safe hu, hu]

theorem evictThen_safe (h : Safe n s) {vs : List Team} {k : State → State} (hk : ∀ u, Safe n u → Safe n (k u)) : Safe n (evictThen s vs k) := by
  unfold evictThen
  split
  exacts [closePairs_safe h, hk _ (evictAll_safe (closePairs_safe h))]

/-! ### Placement -/

theorem entryRegs_shaped (r : List DWord) (gang : Nat) : RegsShaped (entryRegs r gang) := by
  obtain ⟨hv, -, hp, hlc, hfr, -, hsh⟩ := zero_shaped (recLanes r) (recRegs r)
  exact ⟨hv, by simp [entryRegs, entryScalars], hp, hlc, hfr, by simp [entryRegs], hsh⟩

theorem newTeam_fits {m : Nat} {g : Grid} {k e : Nat} {seat : Seat} : Fits m (newTeam s g k e seat) :=
  (absent_fits m).unpublished.withRegs (entryRegs_shaped ..)

theorem placeGang_safe (h : Safe n s) {g : Grid} {k c : Nat} {seats : List Seat} {leaders : List Nat} :
    Safe n (placeGang s g k c seats leaders) := by
  unfold placeGang
  refine convertL1_safe ?_
  exact h.addTeams (List.forall_mem_map.mpr fun _ _ => newTeam_fits)

theorem tryGang_safe (h : Safe n s) {g : Grid} {u : State} (hu : tryGang s g = some u) : Safe n u := by
  unfold tryGang at hu
  split at hu
  · split at hu
    · obtain rfl := Option.some.inj hu
      exact placeGang_safe h
    · split at hu
      · obtain rfl := Option.some.inj hu
        exact placeGang_safe h
      · obtain ⟨r, -, rfl⟩ := Option.map_eq_some_iff.mp hu
        exact evictThen_safe h fun _ hv => placeGang_safe hv
  · cases hu

/-! ### Restore -/

theorem seatTeam_safe (h : Safe n s) {uid : Nat} {seat : Seat} : Safe n (seatTeam s uid seat) := by
  unfold seatTeam
  extract_lets num s1
  have h1 : Safe n s1 := h.modTeam fun _ ht => ht.parts
  exact h1.parts

theorem freeContext_safe (h : Safe n s) {t : Team} : Safe n (freeContext s t) := h.parts

theorem applyContext_fits {t : Team} (h : Fits n t) {bs : List Byte} {r : Saved} (hr : SavedShaped r) : Fits n (applyContext t bs r) := by
  have ha := applySaved_fits h hr
  have hl : (contextTail bs).sh.length = 8 := by simp [contextTail]
  obtain ⟨hv, hs, hp, hlc, hfr, hfs, -⟩ := ha.shaped
  exact ha.withRegs ⟨hv, hs, hp, hlc, hfr, hfs, hl⟩

theorem loadEntry_fits {t u : Team} (h : Fits n t) {k : Nat} (hu : loadEntry s t k = some u) : Fits n u := by
  unfold loadEntry at hu
  dsimp only at hu
  split at hu
  · next hr =>
    split at hu
    · exact Option.some.inj hu ▸ applyContext_fits h (readSaved_shaped hr)
    · cases hu
  · cases hu

theorem loadRecord_fits {t u : Team} (h : Fits n t) {k : Nat} (hu : loadRecord s t k = some u) : Fits n u := by
  unfold loadRecord at hu
  split at hu
  · next hr =>
    split at hu
    · exact Option.some.inj hu ▸ applySaved_fits h (readSaved_shaped hr)
    · cases hu
  · cases hu

theorem settleLate_fits {t : Team} (h : Fits n t) : Fits n (settleLate t) := by
  unfold settleLate
  split
  exacts [(fillDst_fits h).parts, h]

theorem enterRecord_safe (h : Safe n s) {uid : Nat} {load : Team → Option Team} {va : DWord}
    (hl : ∀ m t u, Fits m t → load t = some u → Fits m u) : Safe n (enterRecord s uid load va) :=
  onTeam_safe h fun u hu => by
    split
    · next e => exact hu.inFocus (settleLate_fits (hl _ _ _ hu.team e))
    · exact fatalTrap_safe hu

theorem restoreTeam_safe (h : Safe n s) {uid : Nat} {seat : Seat} : Safe n (restoreTeam s uid seat) := by
  unfold restoreTeam
  split
  · exact h
  · split
    · exact enterRecord_safe (seatTeam_safe (freeContext_safe h)) fun _ _ _ ht => loadEntry_fits ht
    · exact h

theorem restorePair_safe (h : Safe n s) {t : Team} {xs : List (Team × Seat)} {leader : Nat} : Safe n (restorePair s t xs leader) :=
  modGang_safe (h.foldl fun _ hu _ _ => restoreTeam_safe hu)

theorem tryRestore_safe (h : Safe n s) {t : Team} {u : State} (hu : tryRestore s t = some u) : Safe n u := by
  unfold tryRestore at hu
  dsimp only at hu
  split at hu
  · split at hu
    · obtain ⟨c, -, hc⟩ := List.exists_of_findSome?_eq_some hu
      split at hc
      · obtain rfl := Option.some.inj hc
        exact restorePair_safe h
      · obtain ⟨r, -, rfl⟩ := Option.map_eq_some_iff.mp hc
        exact evictThen_safe h fun _ hv => restorePair_safe hv
    · cases hu
  · split at hu
    · obtain rfl := Option.some.inj hu
      exact restoreTeam_safe h
    · obtain ⟨c, -, hc⟩ := List.exists_of_findSome?_eq_some hu
      obtain ⟨r, -, rfl⟩ := Option.map_eq_some_iff.mp hc
      exact evictThen_safe h fun _ hv => restoreTeam_safe hv

theorem walkList_safe (h : Safe n s) {ws : List WaitEntry} {w : Waiter} {u : State} (hu : walkList s ws = some (w, u)) : Safe n u := by
  induction ws with
  | nil => cases hu
  | cons x xs ih =>
    unfold walkList at hu
    dsimp only at hu
    split at hu
    · next s1 e =>
      obtain ⟨-, rfl⟩ := Prod.mk.inj (Option.some.inj hu)
      split at e
      · split at e
        · cases e
        · obtain ⟨g, -, hg⟩ := Option.bind_eq_some_iff.mp e
          exact tryGang_safe h hg
      · obtain ⟨t, -, ht⟩ := Option.bind_eq_some_iff.mp e
        exact tryRestore_safe h ht
    · exact ih hu

/-- The walk of the waiting list, and what it places. -/
theorem walkAll_safe (h : Safe n s) : Safe n (walkAll s).1 ∧ ∀ w u, (walkAll s).2 = some (w, u) → Safe n u :=
  have hc : Safe n (closePairs (sweepGangs s) []) := closePairs_safe (sweepGangs_safe h)
  ⟨hc, fun _ _ e => walkList_safe hc e⟩

theorem execGangPlacement_safe (h : Safe n s) : SafeOut n (execGangPlacement s) := by
  obtain ⟨hr, hp⟩ := walkAll_safe h
  unfold execGangPlacement
  split
  · next e => exact out_safe (hp _ _ (congrArg Prod.snd e))
  · exact out_safe (sweepGangs_safe h)
  · next e =>
    rw [e] at hr
    exact out_safe hr

theorem execTeamRestore_safe (h : Safe n s) {uid : Nat} : SafeOut n (execTeamRestore uid s) := by
  obtain ⟨hr, hp⟩ := walkAll_safe h
  unfold execTeamRestore
  split
  · next e =>
    refine out_safe ?_
    split
    exacts [hp _ _ (congrArg Prod.snd e), h]
  · exact out_safe h
  · next e =>
    rw [e] at hr
    exact out_safe hr

theorem execGangWaitLimit_safe (h : Safe n s) {grid gang : Nat} : SafeOut n (execGangWaitLimit grid gang s) := by
  unfold execGangWaitLimit
  split
  · exact out_safe h
  · split
    exacts [out_safe h.parts, out_safe h]

/-! ### Retirement and task end -/

theorem nodeRetired_safe (h : Safe n s) {gr nd : Nat} {fatal : Bool} : Safe n (nodeRetired s gr nd fatal) := h.parts

theorem execGridRetire_safe (h : Safe n s) {grid : Nat} : SafeOut n (execGridRetire grid s) := by
  unfold execGridRetire
  split
  · exact out_safe h
  · next g _ =>
    split
    · exact out_safe h
    · extract_lets mine s1 _ s2
      have h2 : Safe n s2 := by
        refine (h.withOthers fun u hu => h.others u (List.mem_filter.mp hu).1).withTeam ?_
        dsimp only [s2]
        split
        exacts [absent_fits _, h.team]
      split
      · exact out_safe (nodeRetired_safe h2)
      · exact out_safe (h2.modTeam fun _ ht => ht.parts)
      · exact out_safe h2

theorem finishTeam_safe (h : Safe n s) : Safe n (finishTeam s) :=
  sweepGangs_safe (releaseWaiters_safe (purge_safe (by exact (h.inFocus (endTeam_fits h.team)).parts)))

/-! ### Publications -/

theorem failPublication_safe (h : Safe n s) {k : Nat} : Safe n (failPublication s k) :=
  takeTrap_safe (logEvent_safe (by exact h.parts))

theorem failLink_safe (h : Safe n s) {lane pa : Nat} : Safe n (failLink s lane pa) := takeTrap_safe (by exact h.parts)

theorem commitPublication_safe (h : Safe n s) {sc : Nat} {next : AfterPub} {pressed : Bool} : Safe n (commitPublication s sc next pressed) := by
  have hp : Safe n (purge (publish s sc)) := purge_safe (publish_safe h)
  unfold commitPublication
  split
  · exact failPublication_safe h
  · exact failLink_safe h
  · dsimp only
    split
    · split
      exacts [h, logEvent_safe (by exact h.parts)]
    · split
      exacts [phaseDone_safe hp, arriveNow_safe hp, finishTeam_safe hp]

theorem execPublicationCommit_safe (h : Safe n s) {uid : Nat} : SafeOut n (execPublicationCommit uid s) :=
  out_safe <| onTeam_safe h fun u hu => by
    split
    · split
      exacts [hu, commitPublication_safe hu]
    · exact hu

theorem execTaskEnd_safe (h : Safe n s) {uid : Nat} : SafeOut n (execTaskEnd uid s) :=
  out_safe <| onTeam_safe h fun u hu => by
    split
    exacts [commitPublication_safe (hu.inFocus (beginPublish_fits hu.team)), hu]

/-! ### Results -/

theorem completeSaved_safe (h : Safe n s) {t : Team} {x : Handler} {o : Op} : Safe n (completeSaved s t x o) :=
  (immediate_safe h).modTeam fun _ ht => ht.parts

theorem completeOwn_safe (h : Safe n s) {t : Team} {o : Op} : Safe n (completeOwn s t o) := by
  unfold completeOwn
  refine Safe.modTeam ?_ fun _ ht => completeOp_fits ht
  split
  exacts [immediate_safe h, h]

theorem poisonTeam_safe (h : Safe n s) {uid pa : Nat} : Safe n (poisonTeam s uid pa) := onTeam_safe (eccReport_safe h) fun _ hu => takeTrap_safe hu

theorem execProducerComplete_safe (h : Safe n s) {uid idx : Nat} : SafeOut n (execProducerComplete uid idx s) := by
  unfold execProducerComplete
  split
  · exact out_safe h
  · split
    · exact out_safe h
    · split
      · exact out_safe (poisonTeam_safe h)
      · split
        exacts [out_safe (completeSaved_safe h), out_safe (completeOwn_safe h)]

/-! ### Continuations -/

theorem unpark_safe (h : Safe n s) : Safe n (unpark s) := by
  unfold unpark
  dsimp only
  split
  exacts [queueCont_safe (by exact h.parts), h.parts]

theorem execFutureWake_safe (h : Safe n s) {uid : Nat} : SafeOut n (execFutureWake uid s) :=
  out_safe <| onTeam_safe h fun u hu => by
    split
    · dsimp only
      split
      · exact hu
      · split
        exacts [(unpark_safe (setFuture_safe hu)).parts, unpark_safe (setFuture_safe hu)]
    · exact hu

theorem contTeam_fits {t : Team} (h : Fits n t) {k : Nat} {bound : Bool} : Fits n (contTeam t k bound) := by
  obtain ⟨hv, hs, hp, hlc, hfr, hfs, -⟩ := h.shaped
  exact (leaveCore_fits h).withRegs ⟨hv, by simp [contTeam, hs], hp, hlc, hfr, hfs, by simp [contTeam]⟩

theorem execContinuationConvert_safe (h : Safe n s) {uid : Nat} : SafeOut n (execContinuationConvert uid s) := by
  unfold execContinuationConvert
  split
  · exact out_safe h
  · next t ht =>
    split
    · split
      · extract_lets fresh u _ t1 s1 _ s2
        have hw : Safe s.ms.stamp s1 := writePool_safe h.now
        have ht1 : Fits s.ms.stamp t1 := (leaveGroup_fits (h.find ht)).parts
        have h1 : Safe n s1 := writePool_safe h
        have h2 : Safe n s2 := h1.parts
        exact out_safe (h2.modTeam fun _ _ => hw.fits (contTeam_fits ht1))
      · exact out_safe h
    · exact out_safe h

theorem execContinuationResume_safe (h : Safe n s) {cont : Nat} : SafeOut n (execContinuationResume cont s) := by
  unfold execContinuationResume
  split
  · exact out_safe h
  · split
    · split
      · exact out_safe h
      · split
        · exact out_safe h
        · exact out_safe (enterRecord_safe (seatTeam_safe (by exact h.parts)) fun _ _ _ ht => loadRecord_fits ht)
    · exact out_safe h

theorem execContinuationTargetTimeout_safe (h : Safe n s) {cont : Nat} : SafeOut n (execContinuationTargetTimeout cont s) := by
  unfold execContinuationTargetTimeout
  split
  · exact out_safe h
  · split
    · split
      exacts [out_safe (h.modTeam fun _ ht => ht.parts), out_safe h]
    · exact out_safe h

/-! ### Deadlines and the choice at issue -/

theorem deadlineTrap_safe (h : Safe n s) : Safe n (deadlineTrap s) := trapBefore_safe (by exact (modOwnGang_safe h).parts)

theorem execDeadlineExpiry_safe (h : Safe n s) {uid : Nat} : SafeOut n (execDeadlineExpiry uid s) :=
  out_safe <| onTeam_safe h fun u hu => by split; exacts [deadlineTrap_safe hu, hu]

theorem execPriorityBoost_safe (h : Safe n s) {uid : Nat} : SafeOut n (execPriorityBoost uid s) :=
  out_safe <| h.modTeam fun t ht => by split; exacts [ht.parts, ht]

theorem yieldDone_safe (h : Safe n s) : Safe n (yieldDone s) := retire_safe (by exact h.parts)

theorem execYieldTimeout_safe (h : Safe n s) {uid : Nat} : SafeOut n (execYieldTimeout uid s) :=
  out_safe <| onTeam_safe h fun u hu => by split; exacts [yieldDone_safe hu, hu]

theorem execHschedSpaceExpiry_safe (h : Safe n s) {uid : Nat} : SafeOut n (execHschedSpaceExpiry uid s) :=
  out_safe <| h.modTeam fun t ht => by split; exacts [ht.parts, ht]

theorem tick_safe (h : Safe n s) {ns arith : Nat} : Safe n (tick s ns arith) := by
  have step {t : Team} (ht : Fits s.ms.stamp t) {x : DWord} : Fits s.ms.stamp
      (if t.stage = .resident then { t with sp := { t.sp with tcyc := t.sp.tcyc + x } } else t) := by
    split
    exacts [ht.parts, ht]
  unfold tick
  extract_lets one s1
  have h1 : Safe n s1 := h.mapTeams fun t ht => by
    dsimp only [one]
    split
    exacts [(step ht).parts, step ht]
  exact h1.parts

end Sys2Proof.Machine
end

section
/-! SUPPORT. Graphs, services, translations dropped and the sieve keep the invariant (R273 to R284, R319 to R324, R408 to R426). -/

namespace Sys2Proof.Machine

variable {n : Nat} {s : State}

/-! ### The scheduler's reads -/

/-- A host access over a link that is down changes nothing but its answer (R414). -/
theorem overLink_safe (h : Safe n s) {r : Host.Outcome State Fault Refusal} (hr : SafeOut n r) : SafeOut n (overLink s r) :=
  out_ite_safe (out_safe h.parts) hr

theorem refuseWrite_safe (h : Safe n s) {src off : Nat} {v : DWord} : Safe n (refuseWrite s src off v) := logEvent_safe h

theorem schedLoad_safe (h : Safe n s) {ps : List Piece} : Safe n (schedLoad s ps).1 := by
  unfold schedLoad
  dsimp only
  split
  exacts [eccReport_safe (correctGranules_safe h), correctGranules_safe h]

theorem schedRead_safe (h : Safe n s) {asid len : Nat} {priv : Bool} {va : DWord} : Safe n (schedRead s asid priv va len).1 := by
  unfold schedRead
  split
  exacts [schedLoad_safe h, h]

/-- The state after a read, by how the read ended. -/
theorem schedRead_eq_safe (h : Safe n s) {asid len : Nat} {priv : Bool} {va : DWord} {u : State} {bs : Option (List Byte)}
    (e : schedRead s asid priv va len = (u, bs)) : Safe n u := by
  have hr := schedRead_safe h (asid := asid) (priv := priv) (va := va) (len := len)
  rwa [e] at hr

theorem readImage_safe (h : Safe n s) {asid : Nat} {priv : Bool} : Safe n (readImage s asid priv).1 := by
  unfold readImage
  dsimp only
  split
  · next e => exact schedRead_eq_safe h e
  · next e1 =>
    have h1 := schedRead_eq_safe h e1
    split
    · exact h1
    · split
      · next e2 => exact schedRead_eq_safe h1 e2
      · next e2 =>
        have h2 := schedRead_eq_safe h1 e2
        split
        · next e3 => exact schedRead_eq_safe h2 e3
        · next e3 => exact schedRead_eq_safe h2 e3

/-! ### Graphs -/

theorem modSlot_safe (h : Safe n s) {g : Nat} {f : GraphSlot → GraphSlot} : Safe n (modSlot s g f) := h.parts

theorem modGraph_safe (h : Safe n s) {g : Nat} {f : Graph → Graph} : Safe n (modGraph s g f) := modSlot_safe h

theorem cmdStat_safe (h : Safe n s) {g code : Nat} : Safe n (cmdStat s g code) := modSlot_safe h

theorem refusePriv_safe (h : Safe n s) {k : Nat} : Safe n (refusePriv s k) := cmdStat_safe (by exact h.parts)

theorem execGraphUpload_safe (h : Safe n s) {v : DWord} : SafeOut n (execGraphUpload v s) := by
  refine overLink_safe h ?_
  extract_lets k slot
  refine out_ite_safe (out_safe (refuseWrite_safe h)) (out_ite_safe (out_safe h) (out_ite_safe (out_safe (refusePriv_safe h))
    (out_ite_safe (out_safe (cmdStat_safe h)) ?_)))
  have hi := readImage_safe h (asid := bitsOf v.toNat 16 16) (priv := v.getLsbD 9)
  split
  · next e =>
    rw [e] at hi
    exact out_safe (cmdStat_safe hi)
  · next e =>
    rw [e] at hi
    exact out_ite_safe (out_safe (cmdStat_safe hi)) (out_safe (modSlot_safe hi))

theorem execGraphRemove_safe (h : Safe n s) {v : DWord} : SafeOut n (execGraphRemove v s) :=
  overLink_safe h <| out_ite_safe (out_safe (refuseWrite_safe h)) <| out_ite_safe (out_safe h) <| out_ite_safe (out_safe (refusePriv_safe h)) <|
    out_ite_safe (out_safe (cmdStat_safe h)) (out_safe (modSlot_safe h))

theorem readPatches_safe (h : Safe n s) {g : Graph} {va : DWord} : Safe n (readPatches s g va).1 := by
  unfold readPatches
  dsimp only
  split
  · next e => exact schedRead_eq_safe h e
  · next e1 =>
    have h1 := schedRead_eq_safe h e1
    split
    · exact h1
    · split
      · next e2 => exact schedRead_eq_safe h1 e2
      · next e2 => exact schedRead_eq_safe h1 e2

theorem execTrigger_safe (h : Safe n s) {v : DWord} : SafeOut n (execTrigger v s) := by
  have refused {u : State} (hu : Safe n u) {k code : Nat} : SafeOut n (.next (refuseWrite (cmdStat u k code) schedSource 0x40010 v)) :=
    out_safe (refuseWrite_safe (cmdStat_safe hu))
  refine overLink_safe h ?_
  extract_lets k refuse plist
  split
  · exact refused h
  · refine out_ite_safe (refused h) ?_
    extract_lets r
    have hr : Safe n r.1 := by
      dsimp only [r]
      split
      exacts [h, readPatches_safe h]
    clear_value r
    split
    · exact refused hr
    · exact out_ite_safe (refused hr) (out_safe (by exact hr.parts))

theorem execInstanceBegin_safe (h : Safe n s) {graph : Nat} : SafeOut n (execInstanceBegin graph s) := by
  unfold execInstanceBegin
  split
  · exact out_safe h
  · split
    · exact out_safe h
    · exact out_ite_safe (out_safe h) (out_safe (modGraph_safe h))

/-! ### Nodes -/

theorem setNode_safe (h : Safe n s) {g k : Nat} {x : NodeState} : Safe n (setNode s g k x) := modGraph_safe h

theorem settleInstance_safe (h : Safe n s) {k : Nat} : Safe n (settleInstance s k) := by
  unfold settleInstance
  split
  · exact h
  · split
    exacts [modSlot_safe h, h]

theorem failNode_safe (h : Safe n s) {g k code : Nat} : Safe n (failNode s g k code) :=
  settleInstance_safe (modGraph_safe (logEvent_safe (setNode_safe h)))

theorem doneNode_safe (h : Safe n s) {g k : Nat} : Safe n (doneNode s g k) := settleInstance_safe (setNode_safe h)

theorem launchKernel_safe (h : Safe n s) {g k : Nat} {gr : Graph} : Safe n (launchKernel s g k gr) := by
  unfold launchKernel
  dsimp only
  split
  exacts [failNode_safe h, setNode_safe (startGrid_safe h)]

theorem launchCopy_safe (h : Safe n s) {g k : Nat} {gr : Graph} : Safe n (launchCopy s g k gr) := by
  unfold launchCopy
  dsimp only
  split
  · next src _ _ _ =>
    split
    · exact failNode_safe h
    · have hl := schedLoad_safe h (ps := src)
      split
      · next e =>
        rw [e] at hl
        exact failNode_safe hl
      · next e =>
        rw [e] at hl
        exact setNode_safe hl
  · exact failNode_safe h

theorem refuseStratum_safe (h : Safe n s) {g k : Nat} : Safe n (refuseStratum s g k) := failNode_safe (logEvent_safe h)

theorem launchStratum_safe (h : Safe n s) {g k : Nat} {gr : Graph} : Safe n (launchStratum s g k gr) := by
  unfold launchStratum
  extract_lets code base len par c p u
  split
  · exact refuseStratum_safe h
  · have hu : Safe n u := by
      dsimp only [u, p]
      split
      exacts [schedRead_safe h, schedRead_safe (schedRead_safe h)]
    split
    exacts [setNode_safe (by exact hu.parts), refuseStratum_safe hu]

theorem launchSignal_safe (h : Safe n s) {g k : Nat} {gr : Graph} : Safe n (launchSignal s g k gr) := by
  unfold launchSignal
  dsimp only
  split
  · split
    exacts [setNode_safe (immediate_safe h), failNode_safe h]
  · exact failNode_safe h

theorem launchWatch_safe (h : Safe n s) {g k : Nat} {gr : Graph} : Safe n (launchWatch s g k gr) := by
  unfold launchWatch
  dsimp only
  split
  · split
    exacts [setNode_safe h, failNode_safe h]
  · exact failNode_safe h

theorem execNodeLaunch_safe (h : Safe n s) {graph node : Nat} : SafeOut n (execNodeLaunch graph node s) := by
  unfold execNodeLaunch
  split
  · exact out_safe h
  · refine out_ite_safe ?_ (out_safe h)
    dsimp only
    refine out_safe ?_
    split
    · exact launchKernel_safe h
    · split
      · exact launchCopy_safe h
      · split
        · exact launchStratum_safe h
        · split
          exacts [launchSignal_safe h, launchWatch_safe h]

theorem execNodeComplete_safe (h : Safe n s) {graph node : Nat} : SafeOut n (execNodeComplete graph node s) := by
  unfold execNodeComplete
  split
  · exact out_safe h
  · split
    · refine out_safe ?_
      split
      exacts [failNode_safe h, doneNode_safe h]
    · exact out_safe (doneNode_safe (by exact h.withMs (commitAll_later ..)))
    · refine out_ite_safe ?_ (out_safe h)
      extract_lets bad gone _ s1
      have h1 : Safe n s1 := by
        refine (h.withOthers fun u hu => h.others u (List.mem_filter.mp hu).1).withTeam ?_
        dsimp only [s1]
        split
        exacts [absent_fits _, h.team]
      refine out_safe ?_
      split
      exacts [failNode_safe h1, doneNode_safe h1]
    · exact out_safe h

theorem execExternalWaitWake_safe (h : Safe n s) {graph node : Nat} : SafeOut n (execExternalWaitWake graph node s) := by
  unfold execExternalWaitWake
  split
  · exact out_safe h
  · split
    · refine out_safe ?_
      split
      exacts [doneNode_safe h, h]
    · exact out_safe h

theorem execExternalWaitTimeout_safe (h : Safe n s) {graph node : Nat} : SafeOut n (execExternalWaitTimeout graph node s) := by
  unfold execExternalWaitTimeout
  split
  · exact out_safe h
  · split
    · dsimp only
      refine out_safe ?_
      split
      exacts [failNode_safe h, h]
    · exact out_safe h

theorem execHostSignalAck_safe (h : Safe n s) {graph node : Nat} : SafeOut n (execHostSignalAck graph node s) := by
  unfold execHostSignalAck
  split
  · exact out_safe h
  · split
    exacts [out_safe (doneNode_safe h), out_safe h]

/-- The five registers that a wavefront keeps complete its sixteen (R320). -/
theorem wavefront_fits (h : Safe n s) {m ch uid index : Nat} {r : StratumRun} : Fits m (wavefront s ch uid r index) := by
  have hk : (((s.strat.kept.find? fun x => x.1 == ch).map fun x => x.2).getD
      (List.replicate 5 (List.replicate 32 (BitVec.ofNat 32 0 : Word)))).length = 5 := by
    cases e : s.strat.kept.find? fun x => x.1 == ch with
    | none => rfl
    | some x => exact h.kept x (List.mem_of_find?_eq_some e)
  have hv : (wavefront s ch uid r index).rf.v.length = 16 := by
    simp only [wavefront, List.length_append, List.length_cons, List.length_nil, List.length_map, List.length_range, hk]
  obtain ⟨-, hs, hp, hlc, hfr, hfs, hsh⟩ := zero_shaped 32 16
  exact (absent_fits m).unpublished.withRegs ⟨hv, hs, hp, hlc, hfr, hfs, hsh⟩

theorem execStratumBlockRun_safe (h : Safe n s) {channel : Nat} : SafeOut n (execStratumBlockRun channel s) := by
  unfold execStratumBlockRun
  refine out_ite_safe (out_safe h) ?_
  split
  · exact out_safe h
  · split
    · exact out_safe h
    · dsimp only
      exact out_safe ((h.withMs .marks).addTeams (List.forall_mem_singleton.mpr (wavefront_fits h)))

/-! ### Services -/

theorem sendService_safe (h : Safe n s) {m : LaneSet} {num : Word} : Safe n (sendService s m num) := by
  unfold sendService
  extract_lets t ls first cont s1 hdr s2 r _ _ s3 u ctl s4
  have hi {k : Nat} (hk : Safe k s) : Safe k s3 :=
    have h2 : Safe k s2 := immediate_safe (immediate_safe hk)
    h2.parts
  have hu : Fits s.ms.stamp u := passWait_fits (by exact h.team.parts)
  have h4 : Safe n s4 := endWait_safe (by exact (hi h).withTeam ((hi h.now).fits hu.parts))
  exact h4.parts

theorem execTraps_safe (h : Safe n s) {o : TrapsOp} : SafeOut n (execTraps o s) :=
  issue_safe h fun u hu => by
    dsimp only
    refine ite_safe (next_safe (retire_safe hu)) (ite_safe wait_safe (ite_safe trap_safe (ite_safe ?_ wait_safe)))
    split
    exacts [trap_safe, next_safe (sendService_safe hu)]

theorem lateNow_fits {m : Nat} {t : Team} (h : Fits m t) : Fits m (lateNow s t) := by
  unfold lateNow
  dsimp only
  generalize (t.stage == Stage.resident && _ : Bool) = b
  cases b with
  | false => exact h
  | true => exact settleLate_fits h

theorem finishService_safe (h : Safe n s) {r : SvcReq} {ok : Bool} : Safe n (finishService s r ok) := by
  unfold finishService
  dsimp only
  split
  · split
    · split
      · exact takeTrap_safe h
      · exact unpark_safe (h.inFocus (lateNow_fits (by exact h.team.parts)))
    · exact unpark_safe (by exact h.parts)
  · exact h

theorem execSrcomp_safe (h : Safe n s) {v : DWord} : SafeOut n (execSrcomp v s) := by
  refine overLink_safe h ?_
  extract_lets refused status
  have hr : Safe n refused := refuseWrite_safe h
  refine out_ite_safe (out_safe hr) ?_
  split
  · exact out_safe hr
  · next r _ =>
    have hs : Safe n (match r.uid with
        | some u => onTeam s u fun s => if s.team.cont = r.cont then finishService s r (status == 0) else s
        | none => s) := by
      split
      · exact onTeam_safe h fun u hu => by split; exacts [finishService_safe hu, hu]
      · exact h
    exact out_safe hs.parts

theorem execSrtailWrite_safe (h : Safe n s) {v : DWord} : SafeOut n (execSrtailWrite v s) := overLink_safe h (out_safe h.parts)

theorem execFqtailWrite_safe (h : Safe n s) {v : DWord} : SafeOut n (execFqtailWrite v s) := overLink_safe h (out_safe h.parts)

theorem execBkpt_safe (h : Safe n s) : SafeOut n (execBkpt s) := issue_safe h fun _ hu => next_safe (retireWith_safe hu)

/-! ### Copies and translations dropped -/

theorem execSynci_safe (h : Safe n s) {o : RangeOp} : SafeOut n (execSynci o s) :=
  issue_safe h fun u hu => by
    dsimp only
    exact ite_safe trap_safe (next_safe (retire_safe (by exact hu.withMs .marks)))

theorem invTeam_fits {t : Team} (h : Fits n t) {asid : Nat} {rs : List (Nat × Nat)} : Fits n (invTeam asid rs t) := by
  unfold invTeam
  dsimp only
  split
  exacts [h.parts, h]

theorem finishInval_safe (h : Safe n s) {w : Inval} : Safe n (finishInval s w) := endWait_safe (h.mapTeams fun _ ht => invTeam_fits ht)

theorem execTlbinv_safe (h : Safe n s) {o : RangeOp} : SafeOut n (execTlbinv o s) :=
  issue_safe h fun u hu => by
    dsimp only
    split
    · exact trap_safe
    · exact ite_safe (next_safe (finishInval_safe (by exact hu.withMs .marks))) (next_safe (by exact hu.withMs .marks))

/-! ### The sieve -/

theorem svStore_safe (h : Safe n s) {pa : Nat} {bs : List Byte} : Safe n (svStore s pa bs) := immediate_safe h

theorem svWrite_safe (h : Safe n s) {k : Nat} {x : Stream} : Safe n (svWrite s k x) := svStore_safe h

theorem svPutEntry_safe (h : Safe n s) {k q flags : Nat} {tok tag : Word} : Safe n (svPutEntry s k q tok tag flags) := svStore_safe h

theorem withStream_safe {w : Word} {k : Nat → Stream → Result} (hk : ∀ i x, SafeRes n (k i x)) : SafeRes n (withStream s w k) := by
  unfold withStream
  dsimp only
  exact ite_safe trap_safe (ite_safe trap_safe (ite_safe trap_safe (hk _ _)))

theorem execSvput_safe (h : Safe n s) {o : SvOp} : SafeOut n (execSvput o s) :=
  issue_safe h fun u hu => by
    refine ite_safe (next_safe (retire_safe hu)) (withStream_safe fun k x => ite_safe trap_safe (ite_safe ?_ wait_safe))
    have hw {xs : List Nat} {f : State → Nat → State} (hf : ∀ v L, Safe n v → Safe n (f v L)) : Safe n (svWrite (xs.foldl f u) k
        { x with put := x.put + xs.length }) := svWrite_safe (hu.foldl fun v hv L _ => hf v L hv)
    exact retires_safe (hw fun _ _ hv => svPutEntry_safe hv) (setV_fits.mpr (hw fun _ _ hv => svPutEntry_safe hv).team)

theorem execSvget_safe (h : Safe n s) {o : SvOp} : SafeOut n (execSvget o s) :=
  issue_safe h fun _ hu => ite_safe (next_safe (retire_safe hu)) (withStream_safe fun _ _ => retires_safe hu (setVs_fits.mpr hu.team))

theorem execSvrel_safe (h : Safe n s) {o : SS} : SafeOut n (execSvrel o s) :=
  issue_safe h fun u hu => withStream_safe fun _ _ => by
    refine ite_safe trap_safe (next_safe (retire_safe ?_))
    split
    exacts [hu, svWrite_safe hu]

theorem svDropOne_safe {k q : Nat} {p : State × Nat} (h : Safe n p.1) : Safe n (svDropOne k p q).1 := by
  unfold svDropOne
  extract_lets f
  clear_value f
  split
  exacts [h, svStore_safe h]

theorem svDrops_safe {k : Nat} {qs : List Nat} {p : State × Nat} (h : Safe n p.1) : Safe n (qs.foldl (svDropOne k) p).1 := by
  induction qs generalizing p with
  | nil => exact h
  | cons q qs ih =>
    rw [List.foldl_cons]
    exact ih (svDropOne_safe h)

theorem execSvdrop_safe (h : Safe n s) {o : S3} : SafeOut n (execSvdrop o s) :=
  issue_safe h fun u hu => withStream_safe fun k x => by
    refine ite_safe trap_safe (ite_safe trap_safe ?_)
    extract_lets from_ r
    have hr : Safe n r.1 := svDrops_safe hu
    exact retires_safe hr (setS_fits.mpr hr.team)

theorem closeWaiters_safe (h : Safe n s) {k : Nat} : Safe n (closeWaiters s k) := h.mapTeams fun t ht => by split; exacts [ht.parts, ht]

theorem writeSvcmd_safe (h : Safe n s) {v : DWord} : Safe n (writeSvcmd s v) := by
  have hr : Safe n (refuseWrite s 0 0x90008 v) := refuseWrite_safe h
  unfold writeSvcmd
  extract_lets x op k refused s1 _ _ s2 _
  have h1 : Safe n s1 := svWrite_safe h
  have h2 : Safe n s2 := svWrite_safe h
  split
  · exact hr
  · split
    · split
      exacts [hr, h1.parts]
    · split
      exacts [closeWaiters_safe (by exact h2.parts), hr]

theorem execSvcmdOpen_safe (h : Safe n s) {v : DWord} : SafeOut n (execSvcmdOpen v s) := overLink_safe h (out_safe (writeSvcmd_safe h))

theorem execSvcmdClose_safe (h : Safe n s) {v : DWord} : SafeOut n (execSvcmdClose v s) := overLink_safe h (out_safe (writeSvcmd_safe h))

theorem execSvdrain_safe (h : Safe n s) {v : DWord} : SafeOut n (execSvdrain v s) :=
  overLink_safe h <| out_ite_safe (out_safe (svWrite_safe h)) (out_safe (refuseWrite_safe h))

end Sys2Proof.Machine
end

section
/-! SUPPORT. The registers of the aperture, gathers and scatters keep the invariant (R251, R274, R314 to R317, R333, R388, R415). -/

namespace Sys2Proof.Machine

variable {n : Nat} {s : State}

/-! ### The vertex waves -/

/-- The body of `waveRecord`, as a function (see `pageFault_def`). -/
theorem waveRecord_def : @waveRecord = delta% @waveRecord := by
  delta waveRecord
  rfl

theorem waveRecord_safe (h : Safe n s) {q : State} {rec : Option (List DWord)} (e : waveRecord s = (q, rec)) : Safe n q := by
  rw [waveRecord_def] at e
  beta_reduce at e
  split at e
  · exact (Prod.mk.inj e).1 ▸ h
  · have he := congrArg Prod.fst e
    rw [Prod.map_fst, id_eq] at he
    have hr := schedRead_safe h (asid := bitsOf s.vx.asid.toNat 0 16) (priv := true) (va := s.vx.lrec) (len := 256)
    rwa [he] at hr

theorem newWave_fits {m : Nat} {g : Grid} {c : Nat} : Fits m (newWave s g c) :=
  (absent_fits m).unpublished.withRegs (entryRegs_shaped ..)

theorem placeWaves_safe (h : Safe n s) {r : List DWord} : Safe n (placeWaves s r) := by
  unfold placeWaves
  extract_lets s1 id fix _ s2
  have h2 : Safe n s2 := h.parts
  split
  · exact h
  · exact h2.addTeams (List.forall_mem_map.mpr fun _ _ => newWave_fits)

theorem writeVxcfg_safe (h : Safe n s) {v : DWord} : Safe n (writeVxcfg s v) := by
  unfold writeVxcfg
  extract_lets x refuse
  have hr {u : State} (hu : Safe n u) : Safe n (refuse u) := refuseWrite_safe hu
  split
  · exact hr h
  · split
    · split
      exacts [h, h.parts]
    · split
      · exact h.parts
      · split
        · exact hr h
        · split
          · next e => exact hr (waveRecord_safe h e)
          · next e =>
            have hw := waveRecord_safe h e
            split
            exacts [placeWaves_safe (by exact hw.parts), hr hw]

theorem settleWaves_safe (h : Safe n s) : Safe n (settleWaves s) := by
  unfold settleWaves
  split
  · exact h
  · extract_lets leaving gone _ s1
    have h1 : Safe n s1 := by
      refine (h.withOthers fun u hu => h.others u (List.mem_filter.mp hu).1).withTeam ?_
      dsimp only [s1]
      split
      exacts [absent_fits _, h.team]
    split
    exacts [h1, h1.parts]

theorem execVxcfgEnable_safe (h : Safe n s) {v : DWord} : SafeOut n (execVxcfgEnable v s) := overLink_safe h (out_safe (writeVxcfg_safe h))

theorem execVxcfgDisable_safe (h : Safe n s) {v : DWord} : SafeOut n (execVxcfgDisable v s) :=
  overLink_safe h (out_safe (settleWaves_safe (writeVxcfg_safe h)))

/-! ### The other registers -/

theorem execFirsterrClear_safe (h : Safe n s) {v : DWord} : SafeOut n (execFirsterrClear v s) :=
  overLink_safe h <| out_ite_safe (out_safe (refuseWrite_safe h)) <| out_ite_safe (out_safe h.parts) (out_safe h.parts)

/-- What the invariant asks of a register's write. -/
structure SafeWrite (n : Nat) (w : Option Written) : Prop where
  done : ∀ u, w = some (.done u) → Safe n u

theorem unassigned_safe : SafeWrite n none := ⟨fun _ e => by cases e⟩

theorem ignored_safe : SafeWrite n (some .ignored) := ⟨fun _ e => by cases e⟩

theorem refused_safe : SafeWrite n (some .refused) := ⟨fun _ e => by cases e⟩

theorem done_safe {u : State} (h : Safe n u) : SafeWrite n (some (.done u)) := ⟨fun _ e => Written.done.inj (Option.some.inj e) ▸ h⟩

theorem lockedWrite_safe {u : State} (h : Safe n u) {locked bad : Bool} : SafeWrite n (some (lockedWrite locked bad u)) := by
  cases locked with
  | true => exact ignored_safe
  | false =>
    cases bad with
    | true => exact refused_safe
    | false => exact done_safe h

theorem write_ite_safe {c : Prop} [Decidable c] {a b : Option Written} (ha : SafeWrite n a) (hb : SafeWrite n b) :
    SafeWrite n (if c then a else b) := by
  split
  exacts [ha, hb]

theorem writeL2cfg_safe (h : Safe n s) {v : DWord} : Safe n (writeL2cfg s v) := settleWays_safe (by exact h.parts)

theorem notePool_safe (h : Safe n s) {off : Nat} {v : DWord} {hbm : Bool} : Safe n (notePool s off v hbm) := by
  unfold notePool
  split
  exacts [refuseWrite_safe h, h]

/-- Other residency registers, over any state. -/
theorem withRes_safe (h : Safe n s) {r : Residency} : Safe n { s with res := r } := h.parts

theorem writeLow_safe (h : Safe n s) {off : Nat} {v : DWord} : SafeWrite n (writeLow s off v) := by
  unfold writeLow
  split
  · exact ignored_safe
  · exact lockedWrite_safe (by exact h.parts)
  · exact refused_safe
  · exact ignored_safe
  · exact lockedWrite_safe (by exact h.parts)
  · exact lockedWrite_safe (by exact h.parts)
  · exact lockedWrite_safe (writeL2cfg_safe h)
  · exact lockedWrite_safe (withRes_safe (notePool_safe h))
  · exact lockedWrite_safe (withRes_safe (notePool_safe h))
  · exact write_ite_safe ignored_safe unassigned_safe

theorem writeMid_safe (h : Safe n s) {off : Nat} {v : DWord} : SafeWrite n (writeMid s off v) := by
  unfold writeMid
  extract_lets x lock host
  split
  · exact lockedWrite_safe (by exact h.parts)
  · exact lockedWrite_safe (by exact h.parts)
  · exact lockedWrite_safe (by exact h.parts)
  · exact lockedWrite_safe (by exact h.parts)
  · exact lockedWrite_safe (by exact h.parts)
  · exact lockedWrite_safe (by exact h.parts)
  · exact ignored_safe
  · exact lockedWrite_safe (by exact h.parts)
  · exact ignored_safe
  · exact done_safe (by exact h.parts)
  · exact ignored_safe
  · exact ignored_safe
  · exact ignored_safe
  · exact lockedWrite_safe (by exact h.parts)
  · exact lockedWrite_safe (by exact h.parts)
  · exact write_ite_safe ignored_safe unassigned_safe

theorem writeHigh_safe (h : Safe n s) {off : Nat} {v : DWord} : SafeWrite n (writeHigh s off v) := by
  unfold writeHigh
  extract_lets x lock host
  split
  · exact lockedWrite_safe (by exact h.parts)
  · exact lockedWrite_safe (by exact h.parts)
  · exact ignored_safe
  · exact ignored_safe
  · exact ignored_safe
  · exact lockedWrite_safe (by exact h.parts)
  · exact ignored_safe
  · exact ignored_safe
  · exact lockedWrite_safe (by exact h.parts)
  · exact ignored_safe
  · exact write_ite_safe (lockedWrite_safe (by exact h.parts)) unassigned_safe

theorem writeReg_safe (h : Safe n s) {off : Nat} {v : DWord} : SafeWrite n (writeReg s off v) := by
  unfold writeReg
  split
  · next e => exact e ▸ writeLow_safe h
  · split
    · next e => exact e ▸ writeMid_safe h
    · exact writeHigh_safe h

theorem execRegisterWrite_safe (h : Safe n s) {off : Nat} {v : DWord} : SafeOut n (execRegisterWrite off v s) := by
  have hw := writeReg_safe h (off := off) (v := v)
  refine overLink_safe h ?_
  refine out_ite_safe (execGraphUpload_safe h) ?_
  refine out_ite_safe (execGraphRemove_safe h) ?_
  refine out_ite_safe (execTrigger_safe h) ?_
  refine out_ite_safe (execFqtailWrite_safe h) ?_
  refine out_ite_safe (execFirsterrClear_safe h) ?_
  refine out_ite_safe (execVxcfgDisable_safe h) ?_
  refine out_ite_safe (execSrtailWrite_safe h) ?_
  refine out_ite_safe (execSrcomp_safe h) ?_
  refine out_ite_safe (execSvcmdOpen_safe h) ?_
  refine out_ite_safe (execSvdrain_safe h) ?_
  extract_lets src
  refine out_ite_safe (out_safe (refuseWrite_safe h)) ?_
  split
  · exact out_safe (refuseWrite_safe h)
  · exact out_safe h
  · exact out_safe (refuseWrite_safe h)
  · next e => exact out_safe (hw.done _ e)

/-! ### Gathers and scatters -/

theorem execGx_safe (h : Safe n s) {o : GxOp} : SafeOut n (execGx o s) :=
  issue_safe h fun u hu => by
    refine ite_safe wait_safe ?_
    extract_lets t k
    refine withAcc_safe hu fun xs v hv => ?_
    extract_lets vals u1
    have h1 : Safe n u1 := noteReads_safe hv
    exact retires_safe h1 (addOp_fits h1.team)

theorem scatter_safe (h : Safe n s) {o : GxOp} {xs : List LaneAcc} : Safe n (scatter s o xs) := by
  unfold scatter
  extract_lets t ins cells s1
  have h1 : Safe n s1 := storeBytes_safe h
  exact h1.inFocus (addOp_fits (by exact h1.team.parts))

theorem execSx_safe (h : Safe n s) {o : GxOp} : SafeOut n (execSx o s) :=
  issue_safe h fun u hu => by
    refine ite_safe wait_safe ?_
    extract_lets t
    refine withAcc_safe hu fun xs v hv => ?_
    extract_lets ys p
    split
    exacts [trap_safe, next_safe (retire_safe (scatter_safe (afterPass_safe hv)))]

theorem settleOp_safe (h : Safe n s) {uid tag : Nat} : Safe n (settleOp s uid tag) := by
  unfold settleOp
  extract_lets s1
  have h1 : Safe n s1 := h.modTeam fun _ ht => modOp_fits ht
  split
  · exact h1
  · split
    exacts [completeSaved_safe h1, completeOwn_safe h1, h1]

theorem execSxAck_safe (h : Safe n s) {uid idx : Nat} : SafeOut n (execSxAck uid idx s) := by
  unfold execSxAck
  split
  exacts [out_safe h, out_safe (settleOp_safe h)]

end Sys2Proof.Machine
end

section
/-! SUPPORT. Residency handles and the migration of pages keep the invariant (R335 to R342): what moves keeps its place in the device
order. -/

namespace Sys2Proof.Machine

variable {n : Nat} {s : State}

/-! ### Handles -/

theorem modHandle_safe (h : Safe n s) {id : Nat} {f : Handle → Handle} : Safe n (modHandle s id f) := h.parts

theorem execHold_safe (h : Safe n s) {o : HoldOp} : SafeOut n (execHold o s) :=
  issue_safe h fun u hu => by
    have set {x : Word} : Fits u.ms.stamp (setS u.team o.d.toNat x) := setS_fits.mpr hu.team
    dsimp only
    refine ite_safe trap_safe ?_
    split
    exacts [next_safe (retire_safe (by exact hu.withTeam set)), next_safe (retire_safe (by exact hu.withTeam set))]

theorem execHset_safe (h : Safe n s) {o : SS} : SafeOut n (execHset o s) :=
  issue_safe h fun u hu => by
    dsimp only
    split
    · exact trap_safe
    · exact ite_safe trap_safe (ite_safe (next_safe (retire_safe (modHandle_safe hu))) (next_safe (by exact hu.parts)))

theorem queueHr_safe (h : Safe n s) {i : Instr} {o : S1} {kind : HOpKind} : SafeOut n (queueHr i o kind s) :=
  issue_safe h fun u hu => by
    dsimp only
    split
    · exact trap_safe
    · exact ite_safe wait_safe (retires_safe (modHandle_safe hu) (addOp_fits hu.team))

/-! ### Moving pages -/

theorem moveTeam_fits {t : Team} (h : Fits n t) {mv : List Move} : Fits n (moveTeam mv t) :=
  h.withPub (List.forall_mem_map.mpr fun r hr => h.published r hr)

theorem drainLines_safe (h : Safe n s) {x : Handle} {pages : List (Nat × Leaf)} : Safe n (drainLines s x pages) :=
  dropClean_safe (by exact h.withMs maintRanges_later)

/-- The bytes that a moved page supersedes keep their place in the device order. -/
theorem moveRetained_stamp {mv : List Move} {ms : MemSide} {r x : Nat × Nat × Byte} (h : x ∈ moveRetained mv ms r) : x.1 = r.1 := by
  unfold moveRetained at h
  split at h
  · rw [List.mem_singleton.mp h]
  · dsimp only at h
    split at h
    · obtain ⟨i, -, rfl⟩ := List.mem_map.mp h
      rfl
    · rw [List.mem_singleton.mp h]

theorem moveMem_later {mv : List Move} {ms : MemSide} : Later ms (moveMem mv ms) := by
  refine ⟨fun ⟨⟨hm, hl⟩, hr, hw⟩ => ⟨⟨?_, fun x hx => hl x (List.mem_filter.mp hx).1⟩, fun r hx => ?_, fun r hx => hw r (List.mem_filter.mp hx).1⟩,
    le_refl _⟩
  · exact List.foldlRecOn (motive := fun m : Memory => m.wf = true) mv _ hm fun m hm x _ =>
      List.foldlRecOn (motive := fun m : Memory => m.wf = true) _ _ hm fun m hm i _ => keyPut_wf _ _ _ hm
  · obtain ⟨x, hx, hxr⟩ := List.mem_flatMap.mp hx
    exact moveRetained_stamp hxr ▸ hr x (List.mem_filter.mp hx).1

/-- Bytes written at no place in the device order. -/
theorem memSets_later {ms : MemSide} {cells : List Host.Cell} : Later ms { ms with mem := memSets ms.mem cells } :=
  ⟨fun ⟨⟨hm, hl⟩, hr, hw⟩ => ⟨⟨memSets_wf cells hm, hl⟩, hr, hw⟩, le_refl _⟩

theorem freePages_safe (h : Safe n s) {mv : List Move} : Safe n (freePages mv s) := h.withMs memSets_later

theorem remapPage_safe (h : Safe n s) {asid : Nat} {m : Move} : Safe n (remapPage asid s m) :=
  h.foldl fun u hu _ _ => by
    dsimp only
    generalize (if m.size = 65536 then _ else 0 : Nat) = low
    generalize (if m.size = 65536 then 16 else 12 : Nat) = k
    split
    exacts [immediate_safe hu, hu]

theorem setPools_safe (h : Safe n s) {dem : Bool} {src dst : Pool} : Safe n (setPools s dem src dst) := h.parts

theorem migrate_safe (h : Safe n s) {x : Handle} {dem : Bool} : Safe n (migrate s x dem).1 := by
  unfold migrate
  extract_lets cxl hbm pages s0
  have h0 : Safe n s0 := drainLines_safe h
  clear_value s0
  split
  · exact h0
  · split
    · exact eccReport_safe h0
    · next mv _ _ _ _ =>
      extract_lets s1 from_ s2 _ s3 _ s4
      have h1 : Safe n s1 := h0.foldl fun _ hu _ _ => eccCorrect_safe hu
      have h2 : Safe n s2 := h1.foldl fun _ hu _ _ => remapPage_safe hu
      have h3 : Safe n s3 := (h2.mapTeams (f := moveTeam mv) fun _ ht => moveTeam_fits ht).withMs (moveMem_later (ms := s2.ms))
      have h4 : Safe n s4 := h3.withMs .marks
      exact setPools_safe (freePages_safe h4)

/-! ### The ends of operations -/

theorem endHr_safe (h : Safe n s) {x : HOp} {err : Option Trap} : Safe n (endHr s x err) := by
  cases err with
  | none => exact settleOp_safe h
  | some tr => exact settleOp_safe (h.modTeam fun _ ht => noteErr_fits ht)

theorem endHset_safe (h : Safe n s) {x : HOp} {err : Option Trap} : Safe n (endHset s x err) :=
  onTeam_safe h fun u hu => by
    split
    · exact endWait_safe hu
    · split
      exacts [hu.parts, trapBefore_safe (by exact hu.parts)]
    · exact hu

theorem endFreed_safe (h : Safe n s) {x : HOp} : Safe n (endFreed s x) := by
  unfold endFreed
  split
  exacts [endHset_safe h, endHr_safe h]

/-- What the invariant asks of an engine's translation of a range. -/
inductive WalkSafe (n : Nat) : RangeWalk → Prop where
  | go {s : State} (h : Safe n s) : WalkSafe n (.go s)
  | wait {s : State} (h : Safe n s) : WalkSafe n (.wait s)
  | fail {s : State} {tr : Trap} (h : Safe n s) : WalkSafe n (.fail s tr)

theorem forgetPage_safe (h : Safe n s) {t : Team} {va : Nat} : Safe n (forgetPage s t va) := h.withMs .marks

theorem walkRange_safe (h : Safe n s) {x : Handle} {o : HOp} : WalkSafe n (walkRange s x o) := by
  unfold walkRange
  split
  · exact .go h
  · next t _ =>
    extract_lets asked
    split
    · split
      exacts [.wait h, .fail h]
    · exact .fail h
    · next va _ =>
      have hx : XlateSafe n (engineXlate (forgetPage s t va) t o.tag .rw (BitVec.ofNat 64 va)) := engineXlate_safe (forgetPage_safe h)
      split
      · next e =>
        rw [e] at hx
        obtain ⟨h1⟩ := hx
        exact .wait h1
      · next e =>
        rw [e] at hx
        obtain ⟨⟩ | ⟨h1⟩ := hx
        exact .wait h1
      · next e =>
        rw [e] at hx
        obtain ⟨⟩ | ⟨⟩ | ⟨h1⟩ := hx
        exact .fail h1
    · have hx : XlateSafe n (engineXlate s t o.tag .rw x.base) := engineXlate_safe h
      split
      · split
        · next e =>
          rw [e] at hx
          obtain ⟨h1⟩ := hx
          exact .wait h1
        · next e =>
          rw [e] at hx
          obtain ⟨⟩ | ⟨h1⟩ := hx
          exact .wait h1
        · next e =>
          rw [e] at hx
          obtain ⟨⟩ | ⟨⟩ | ⟨h1⟩ := hx
          exact .fail h1
      · exact .go h

theorem execResidencyComplete_safe (h : Safe n s) {handle : Nat} : SafeOut n (execResidencyComplete handle s) := by
  unfold execResidencyComplete
  split
  · exact out_safe h
  · next y _ =>
    split
    · exact out_safe h
    · next x rest _ =>
      extract_lets pop
      have hp {u : State} (hu : Safe n u) : Safe n (pop u) := modHandle_safe hu
      split
      · exact out_safe (endHset_safe (modHandle_safe (hp h)))
      · exact out_safe ((endHr_safe (by exact h.parts)).foldl fun _ hu _ _ => endFreed_safe hu)
      · refine out_ite_safe (out_safe h) ?_
        have hw := walkRange_safe h (x := y) (o := x)
        split
        · next e =>
          rw [e] at hw
          obtain ⟨⟩ | ⟨h1⟩ := hw
          exact out_safe h1
        · next e =>
          rw [e] at hw
          obtain ⟨⟩ | ⟨⟩ | ⟨h1⟩ := hw
          exact out_safe (endHr_safe (hp h1))
        · next e =>
          rw [e] at hw
          obtain ⟨h1⟩ := hw
          exact out_safe (endHr_safe (migrate_safe (hp h1)))

end Sys2Proof.Machine
end

section
/-! SUPPORT. The host's window, the mailbox, starts, core failures, power and bank tests keep the invariant (R13, R327, R414 to R417,
R429 to R434). -/

namespace Sys2Proof.Machine

variable {n : Nat} {s : State}

/-! ### The window and the link -/

theorem execHostWindowRead_safe (h : Safe n s) {addr k : Nat} : SafeOut n (execHostWindowRead addr k s) := by
  unfold execHostWindowRead
  refine out_ite_safe (out_safe h) (overLink_safe h ?_)
  extract_lets gs
  have hc : Safe n (correctGranules s gs) := correctGranules_safe h
  split
  · next pa _ =>
    have he : Safe n (eccReport (correctGranules s gs) pa) := eccReport_safe hc
    exact out_safe (by exact he.parts)
  · exact out_safe (by exact hc.parts)

/-- The operations of freed handles end. -/
theorem destroySpaces_safe (h : Safe n s) {old : State} : Safe n (destroySpaces old s) := by
  unfold destroySpaces
  extract_lets gone _ s1
  have h1 : Safe n s1 := h.parts
  exact h1.foldl fun _ hu _ _ => endFreed_safe hu

theorem execHostWindowWrite_safe (h : Safe n s) {addr : Nat} {bytes : List Byte} : SafeOut n (execHostWindowWrite addr bytes s) := by
  unfold execHostWindowWrite
  extract_lets cells
  refine out_ite_safe (out_safe (immediate_safe h)) (out_ite_safe (out_safe h) (overLink_safe h (out_ite_safe ?_ ?_)))
  · exact out_safe (refuseWrite_safe (by exact h.parts))
  · exact out_safe (destroySpaces_safe (immediate_safe h))

theorem execPeerWrite_safe (h : Safe n s) {peer addr : Nat} {bytes : List Byte} : SafeOut n (execPeerWrite peer addr bytes s) :=
  out_ite_safe (out_safe h) (out_safe (immediate_safe h))

theorem execLinkFlitRetry_safe (h : Safe n s) {unit : Nat} {leaves : Bool} : SafeOut n (execLinkFlitRetry unit leaves s) := by
  unfold execLinkFlitRetry
  refine out_ite_safe (out_safe h) ?_
  cases leaves with
  | false => exact out_safe (logEvent_safe h)
  | true => exact out_safe (by exact h.parts)

/-! ### The mailbox -/

theorem respond_safe (h : Safe n s) {buf : DWord} {m : Mgmt} : Safe n (respond s buf m) := by
  unfold respond
  extract_lets bs s1
  have h1 : Safe n s1 := immediate_safe h
  exact h1.parts

theorem respondOut_safe (h : Safe n s) {buf : DWord} {m : Mgmt} : SafeOut n (overLink s (.next (respond s buf m))) :=
  overLink_safe h (out_safe (respond_safe h))

theorem spdm_safe (h : Safe n s) {buf : DWord} {ok : Spdm → Bool} {move : Spdm → Spdm} : SafeOut n (spdm s buf ok move) := respondOut_safe h

theorem execGetMeasurements_safe (h : Safe n s) {buf : DWord} {is : List Nat} : SafeOut n (execGetMeasurements buf is s) := respondOut_safe h

theorem execMemoryKeyInstall_safe (h : Safe n s) {buf : DWord} {key : Nat} : SafeOut n (execMemoryKeyInstall buf key s) := respondOut_safe h

theorem execStartLogRead_safe (h : Safe n s) {buf : DWord} : SafeOut n (execStartLogRead buf s) := respondOut_safe h

/-! ### Power -/

theorem execPowerThrottle_safe (h : Safe n s) : SafeOut n (execPowerThrottle s) := out_safe h.parts

theorem execPowerBelowCap_safe (h : Safe n s) : SafeOut n (execPowerBelowCap s) := out_safe h.parts

/-! ### Starts -/

/-- Reset leaves nothing listed, kept or placed. -/
theorem reset_safe : Safe 0 State.reset where
  ordered := ⟨⟨rfl, fun _ hx => absurd hx List.not_mem_nil⟩, fun _ hr => absurd hr List.not_mem_nil, fun _ hr => absurd hr List.not_mem_nil⟩
  reached := le_refl _
  team := absent_fits _
  others := fun _ hu => absurd hu List.not_mem_nil
  kept := fun _ hx => absurd hx List.not_mem_nil

/-- A start leaves the part at reset, but for memory beyond the links: its device order begins anew. -/
theorem restart_safe (h : Safe 0 s) {m : Mgmt} : Safe 0 { State.reset with
    agenda := s.agenda, free := s.free, ms := { MemSide.empty with mem := s.ms.mem.filter fun c => isOutside c.1 }, mgmt := m } :=
  { reset_safe with ordered := ⟨⟨filter_wfFrom _ h.ordered.1.1, reset_safe.ordered.1.2⟩, reset_safe.ordered.2⟩ }

theorem execManagementStart_safe (h : Safe 0 s) {results : List Bool} : SafeOut 0 (execManagementStart results s) := by
  unfold execManagementStart
  extract_lets m _ kept _ _ go stop r _ m1
  have hg (m : Mgmt) : Safe 0 (go m) := restart_safe h
  have hs (m : Mgmt) (k : Nat) : SafeOut 0 (stop m k) := out_safe (hg _)
  clear_value go stop
  split
  · exact hs _ _
  · split
    · exact hs _ _
    · split
      exacts [out_safe (hg _), hs _ _]

/-! ### Core failures, power and bank tests -/

theorem clearSeat_safe {core k : Nat} : ∀ {s : State}, Safe n s → Safe n (clearSeat core k s).1 := by
  induction k with
  | zero => exact id
  | succ k ih =>
    intro s h
    unfold clearSeat
    split
    · exact h
    · dsimp only
      split
      exacts [h, ih (evictAll_safe h)]

theorem moveWave_safe (h : Safe n s) {core : Nat} : Safe n (moveWave s core) := by
  unfold moveWave
  extract_lets c next r _ _ s1
  split
  · have hr : Safe n r.1 := clearSeat_safe h
    have h1 : Safe n s1 := hr.parts
    exact h1.mapTeams fun t ht => by split; exacts [ht.parts, ht]
  · exact h

theorem execCoreFailure_safe (h : Safe n s) {core : Nat} : SafeOut n (execCoreFailure core s) := by
  unfold execCoreFailure
  extract_lets die left
  refine out_ite_safe (out_safe h) (out_ite_safe ?_ ?_)
  · exact out_safe (by exact h.parts)
  · exact out_safe (moveWave_safe (leaveFenced_safe (by exact h.parts)))

theorem execPlacementHold_safe (h : Safe n s) : SafeOut n (execPlacementHold s) := out_ite_safe (out_safe h.parts) (out_safe h)

theorem execHbmBankTest_safe (h : Safe n s) {channel bank : Nat} {rows : List (Nat × Nat)} : SafeOut n (execHbmBankTest channel bank rows s) := by
  unfold execHbmBankTest
  extract_lets rows s1 m fits
  refine out_ite_safe (out_safe h) (out_ite_safe (out_safe h.parts) ?_)
  have h1 : Safe n s1 := refuseWrite_safe h
  exact out_ite_safe (out_safe h1.parts) (out_safe h1.parts)

end Sys2Proof.Machine
end

section
/-! SUPPORT. Marl mode keeps the invariant (R343 to R353). -/

namespace Sys2Proof.Machine

variable {n : Nat} {s : State}

/-! ### Slices -/

theorem modSlice_safe (h : Safe n s) {k : Nat} {f : MarlSlice → MarlSlice} : Safe n (modSlice s k f) := h.parts

theorem switchOn_safe (h : Safe n s) {t : Team} {slice st : Nat} : Safe n (switchOn s t slice st) := by
  unfold switchOn
  dsimp only
  split
  · exact settleWays_safe (by exact h.withMs (Later.foldl (flushSector_later _) _ _))
  · exact h.withMs (Later.foldl (writeBack_later _) _ _)

theorem execMron_safe (h : Safe n s) {o : S2} : SafeOut n (execMron o s) :=
  issue_safe h fun u hu => by
    extract_lets t w slice st u1
    refine ite_safe trap_safe (next_safe (retire_safe ?_))
    have h1 {m : Nat} (hm : Safe m u) : Safe m u1 := by
      dsimp only [u1]
      split
      exacts [switchOn_safe hm, hm]
    exact (h1 hu).inFocus ((h1 hu.now).fits (setS_fits.mpr hu.team))

theorem execMroff_safe (h : Safe n s) {o : S1} : SafeOut n (execMroff o s) :=
  issue_safe h fun _ hu => ite_safe trap_safe <| ite_safe trap_safe <|
    ite_safe (next_safe (retire_safe (by exact hu.parts))) (next_safe (by exact hu.parts))

theorem queueMarl_safe (h : Safe n s) {target : Word} {bad : Option Nat} {dst : Dst} {cmd : MarlCmd} : SafeRes n (queueMarl s target bad dst cmd) := by
  unfold queueMarl
  dsimp only
  refine ite_safe wait_safe ?_
  split
  exacts [trap_safe, retires_safe (modSlice_safe h) (addOp_fits h.team)]

theorem marlMove_safe (h : Safe n s) {i : Instr} {o : RangeOp} {cmd : DWord → Word → Word → MarlCmd} : SafeOut n (marlMove i o cmd s) :=
  issue_safe h fun _ hu => queueMarl_safe hu

theorem execMrop_safe (h : Safe n s) {o : MropOp} : SafeOut n (execMrop o s) := issue_safe h fun _ hu => queueMarl_safe hu

theorem execMradd_safe (h : Safe n s) {o : MrkOp} : SafeOut n (execMradd o s) := issue_safe h fun _ hu => queueMarl_safe hu

theorem execMrmul_safe (h : Safe n s) {o : MrkOp} : SafeOut n (execMrmul o s) := issue_safe h fun _ hu => queueMarl_safe hu

theorem execMrcmp_safe (h : Safe n s) {o : MrcmpOp} : SafeOut n (execMrcmp o s) := issue_safe h fun _ hu => queueMarl_safe hu

theorem execMrred_safe (h : Safe n s) {o : S3} : SafeOut n (execMrred o s) := issue_safe h fun _ hu => queueMarl_safe hu

/-! ### Moves -/

theorem transPieces_safe {t : Team} {tag : Nat} {acc : Access} : ∀ {ps : List (DWord × Nat × Nat)} {s : State} {xs : List MarlPiece},
    Safe n s → XlateSafe n (transPieces t tag acc ps s xs).1
  | [], _, _, h => .ok h
  | (va, r, j) :: ps, s, xs, h => by
    have hx : XlateSafe n (engineXlate s ((s.find t.uid).getD t) tag acc va) := engineXlate_safe h
    unfold transPieces
    split
    · next e =>
      rw [e] at hx
      obtain ⟨h1⟩ := hx
      split
      · exact .fail (eccReport_safe h1)
      · refine transPieces_safe ?_
        split
        exacts [correctGranules_safe h1, h1]
    · exact hx

theorem storePieces_safe (h : Safe n s) {uid tag : Nat} {xs : List (MarlPiece × List Byte)} : Safe n (storePieces s uid tag xs) := by
  unfold storePieces
  extract_lets cells _ ins now later s1
  have h1 : Safe n s1 := by
    dsimp only [s1]
    split
    exacts [h, immediateAs_safe h]
  refine h1.modTeam fun t ht => ?_
  extract_lets v secs _
  have hv : ∀ r ∈ v.ownPub, r.1 ≤ s1.ms.stamp := by
    dsimp only [v]
    split
    exacts [ht.published, ownDirect_published ht.published]
  exact ht.withPub hv

theorem spoilPieces_safe (h : Safe n s) {t : Team} {tag : Nat} {ps : List (DWord × Nat × Nat)} : Safe n (spoilPieces s t tag ps) :=
  storePieces_safe (by exact h.parts)

/-! ### Completion -/

theorem failMarl_safe (h : Safe n s) {slice reason : Nat} {e : MarlEntry} : Safe n (failMarl s slice e reason) :=
  settleOp_safe (h.modTeam fun _ ht => noteErr_fits ht)

theorem offDone_safe (h : Safe n s) {uid : Nat} {late : Option Trap} : Safe n (offDone s uid late) :=
  onTeam_safe h fun u hu => by
    split
    · exact endWait_safe hu
    · split
      · split
        exacts [endWait_safe (hu.inFocus (noteErr_fits hu.team)), endWait_safe (by exact hu.parts)]
      · exact retireReport_safe (hu.inFocus (noteErr_fits hu.team)) hu
    · exact hu

theorem offLate_safe (h : Safe n s) {w : OffLate} {uid : Nat} : Safe n (offLate s w uid) := by
  unfold offLate
  split
  · exact h.modTeam fun t ht => by split; exacts [ht.parts, ht]
  · exact offDone_safe h

theorem overtake_safe {slice : Nat} {es : List MarlEntry} : ∀ {before : List MarlEntry} {s : State}, Safe n s →
    Safe n (overtake slice es before s) := by
  induction es with
  | nil => exact id
  | cons e es ih =>
    intro before s h
    unfold overtake
    dsimp only
    refine ih ?_
    split
    exacts [offLate_safe h, failMarl_safe h]

theorem fillSum_safe (h : Safe n s) {e : MarlEntry} {x : Word} : Safe n (fillSum s e x) := settleOp_safe (h.modTeam fun _ ht => modOp_fits ht)

theorem popMarl_safe (h : Safe n s) {slice : Nat} {rest : List MarlEntry} {rows : List (Nat × Nat)} : Safe n (popMarl s slice rest rows) :=
  modSlice_safe h

theorem spoilMarl_safe (h : Safe n s) {slice : Nat} {m : MarlSlice} {e : MarlEntry} {rest : List MarlEntry} :
    Safe n (spoilMarl s slice m e rest) := by
  unfold spoilMarl
  extract_lets s1 s2 s3
  have h2 : Safe n s2 := popMarl_safe (logEvent_safe (by exact h.parts))
  have h3 : Safe n s3 := by
    dsimp only [s3]
    split
    exacts [spoilPieces_safe h2, h2]
  exact failMarl_safe h3

theorem runMrld_safe (h : Safe n s) {slice : Nat} {m : MarlSlice} {e : MarlEntry} {rest : List MarlEntry} {base : DWord} {target row : Word} :
    Safe n (runMrld s slice m e rest base target row) := by
  unfold runMrld
  split
  · exact popMarl_safe h
  · next t _ =>
    have hx : XlateSafe n (transPieces t e.tag .read (marlPieces base target row) s []).1 := transPieces_safe h
    dsimp only
    split
    · next e =>
      rw [e] at hx
      obtain ⟨h1⟩ := hx
      exact settleOp_safe (popMarl_safe h1)
    · next e =>
      rw [e] at hx
      obtain ⟨⟩ | ⟨h1⟩ := hx
      exact h1
    · next e =>
      rw [e] at hx
      obtain ⟨⟩ | ⟨⟩ | ⟨h1⟩ := hx
      exact failMarl_safe (popMarl_safe (by exact h1.parts))

theorem runMrst_safe (h : Safe n s) {slice : Nat} {m : MarlSlice} {e : MarlEntry} {rest : List MarlEntry} {base : DWord} {target row : Word} :
    Safe n (runMrst s slice m e rest base target row) := by
  unfold runMrst
  split
  · exact popMarl_safe h
  · next t _ =>
    have hx : XlateSafe n (transPieces t e.tag .write (marlPieces base target row) s []).1 := transPieces_safe h
    dsimp only
    split
    · next e =>
      rw [e] at hx
      obtain ⟨h1⟩ := hx
      exact settleOp_safe (popMarl_safe (storePieces_safe h1))
    · next e =>
      rw [e] at hx
      obtain ⟨⟩ | ⟨h1⟩ := hx
      exact h1
    · next e =>
      rw [e] at hx
      obtain ⟨⟩ | ⟨⟩ | ⟨h1⟩ := hx
      exact failMarl_safe (popMarl_safe (spoilPieces_safe (storePieces_safe h1)))

theorem execMarlCmdComplete_safe (h : Safe n s) {slice : Nat} : SafeOut n (execMarlCmdComplete slice s) := by
  unfold execMarlCmdComplete
  split
  · exact out_safe h
  · split
    · exact out_safe h
    · refine out_ite_safe (out_safe (spoilMarl_safe h)) ?_
      split
      · exact out_ite_safe (out_safe h) (out_safe (overtake_safe (offDone_safe (by exact h.parts))))
      · exact out_safe (fillSum_safe (popMarl_safe h))
      · exact out_safe (runMrld_safe h)
      · exact out_safe (runMrst_safe h)
      · exact out_safe (settleOp_safe (popMarl_safe h))

end Sys2Proof.Machine
end

section
/-! SUPPORT. The Locus engine and the return from a handler keep the invariant (R358 to R384, R409). -/

namespace Sys2Proof.Machine

variable {n : Nat} {s : State}

/-! ### The phases of the engine: they write the work area alone -/

theorem workSet_safe (h : Safe n s) {c : LocusCtx} {L w : Nat} {x : Word} : Safe n (workSet s c L w x) := scrSets_safe h

theorem areaSet_safe (h : Safe n s) {c : LocusCtx} {L w : Nat} {xs : List Word} : Safe n (areaSet s c L w xs) :=
  h.foldl fun _ hu _ _ => workSet_safe hu

theorem setAreas_safe (h : Safe n s) {c : LocusCtx} {Ls : List Nat} {w : Nat} {f : Nat → List Word} : Safe n (setAreas s c Ls w f) :=
  h.foldl fun _ hu _ _ => areaSet_safe hu

/-- What the invariant asks of the engine. -/
structure EngineSafe (n : Nat) (e : Engine) : Prop where
  state : Safe n e.s

theorem request_safe (h : Safe n s) {c : LocusCtx} {kind part stage : Nat} {Ls : List Nat} {args : Nat → Word × Word × List Word}
    {next : LocusPhase} : EngineSafe n (request s c kind part stage Ls args next) := ⟨h⟩

theorem goTo_safe (h : Safe n s) {c : LocusCtx} {next : LocusPhase} : EngineSafe n (goTo s c next) := ⟨h⟩

theorem beginAttempt_safe (h : Safe n s) {c : LocusCtx} : EngineSafe n (beginAttempt s c) := by
  unfold beginAttempt
  split
  exacts [⟨h⟩, request_safe (setAreas_safe h)]

theorem beginStage_safe (h : Safe n s) {c : LocusCtx} {i : Nat} : EngineSafe n (beginStage s c i) := by
  unfold beginStage
  split
  · exact goTo_safe h
  · dsimp only
    split
    exacts [request_safe h, request_safe h]

theorem takeJacobian_safe (h : Safe n s) {c : LocusCtx} {i : Nat} : EngineSafe n (takeJacobian s c i) := goTo_safe h

theorem afterImplicit_safe (h : Safe n s) {c : LocusCtx} {i : Nat} : EngineSafe n (afterImplicit s c i) := by
  unfold afterImplicit
  split
  exacts [request_safe h, goTo_safe h]

theorem beginNewton_safe (h : Safe n s) {c : LocusCtx} {i it : Nat} : EngineSafe n (beginNewton s c i it) := by
  unfold beginNewton
  extract_lets live
  split
  exacts [afterImplicit_safe (setAreas_safe h), request_safe h]

theorem takeResidual_safe (h : Safe n s) {c : LocusCtx} {i it : Nat} : EngineSafe n (takeResidual s c i it) := goTo_safe h

theorem endStages_safe (h : Safe n s) {c : LocusCtx} : EngineSafe n (endStages s c) := by
  unfold endStages
  extract_lets all ok s1 c1 lost s2 won s3 c2
  have h1 : Safe n s1 := h.foldl fun _ hu _ _ => areaSet_safe (areaSet_safe hu)
  have h2 : Safe n s2 := setAreas_safe h1
  have h3 : Safe n s3 := by
    dsimp only [s3]
    split
    exacts [setAreas_safe h2, h2]
  exact request_safe h3

theorem takeEvents_safe (h : Safe n s) {c : LocusCtx} : EngineSafe n (takeEvents s c) := goTo_safe h

theorem beginRoots_safe (h : Safe n s) {c : LocusCtx} : EngineSafe n (beginRoots s c) := by
  unfold beginRoots
  extract_lets open_
  split
  exacts [goTo_safe h, request_safe h]

theorem takeRoots_safe (h : Safe n s) {c : LocusCtx} : EngineSafe n (takeRoots s c) := goTo_safe h

theorem commitLane_safe (h : Safe n s) {c : LocusCtx} {L : Nat} : Safe n (commitLane s c L).1 := by
  unfold commitLane
  extract_lets x y yn f0 x1 s1
  have h1 : Safe n s1 := areaSet_safe h
  split
  exacts [areaSet_safe h1, areaSet_safe h1]

theorem commitLanes_safe {Ls : List Nat} {p : State × LocusCtx} (h : Safe n p.1) :
    Safe n (Ls.foldl (fun (q : State × LocusCtx) L => commitLane q.1 q.2 L) p).1 := by
  induction Ls generalizing p with
  | nil => exact h
  | cons L Ls ih =>
    rw [List.foldl_cons]
    exact ih (commitLane_safe h)

theorem restoreAreas_safe (h : Safe n s) {c : LocusCtx} {Ls : List Nat} : Safe n (restoreAreas s c Ls) :=
  h.foldl fun u hu L _ => by
    have h1 : Safe n (areaSet (areaSet u c L (aF0 c) (c.lane L).f0Acc) c L (aYN c) (c.lane L).ynAcc) := areaSet_safe (areaSet_safe hu)
    dsimp only
    split
    exacts [areaSet_safe h1, h1]

theorem endStep_safe (h : Safe n s) {c : LocusCtx} : EngineSafe n (endStep s c) := by
  unfold endStep
  extract_lets won all r c1 lost
  have hr : Safe n r.1 := commitLanes_safe h
  exact goTo_safe (restoreAreas_safe hr)

theorem phaseStep_safe (h : Safe n s) {c : LocusCtx} : EngineSafe n (phaseStep s c) := by
  unfold phaseStep
  extract_lets back ret
  split
  · exact ⟨h⟩
  · exact request_safe h
  · exact request_safe (setAreas_safe h)
  · exact goTo_safe h
  · exact beginAttempt_safe h
  · exact goTo_safe (setAreas_safe h)
  · exact beginStage_safe h
  · exact takeJacobian_safe h
  · exact beginNewton_safe h
  · exact takeResidual_safe h
  · exact afterImplicit_safe (setAreas_safe h)
  · exact goTo_safe (setAreas_safe h)
  · exact endStages_safe h
  · exact request_safe (setAreas_safe h)
  · exact takeEvents_safe h
  · exact beginRoots_safe h
  · exact takeRoots_safe h
  · exact endStep_safe h

theorem runEngine_safe {k : Nat} {c : LocusCtx} (h : Safe n s) : EngineSafe n (runEngine k s c) := by
  induction k generalizing s c with
  | zero => exact ⟨h⟩
  | succ k ih =>
    have he := phaseStep_safe h (c := c)
    unfold runEngine
    dsimp only
    split
    exacts [ih he.state, he]

/-! ### The instructions -/

theorem putCtx_safe (h : Safe n s) {c : LocusCtx} : Safe n (putCtx s c) := h.parts

theorem badLocusRecord_safe (h : Safe n s) {reason bit : Nat} {va : DWord} : SafeRes n (badLocusRecord s reason bit va) :=
  next_safe (trapBefore_safe (by exact h.parts))

theorem execIgbind_safe (h : Safe n s) {o : IgbindOp} : SafeOut n (execIgbind o s) :=
  issue_safe h fun u hu => by
    have done {v : State} (hv : Safe n v) {x : Word} : SafeRes n (.next (retire (v.withTeam (setS v.team o.d.toNat x)))) :=
      retires_safe hv (setS_fits.mpr hv.team)
    dsimp only
    refine ite_safe (done hu) (ite_safe trap_safe (withBytes_safe hu fun tbs v hv => withBytes_safe hv fun pbs w hw => ?_))
    split
    · exact badLocusRecord_safe hw
    · split
      · exact badLocusRecord_safe hw
      · refine ite_safe trap_safe ?_
        split
        exacts [done hw, done (by exact hw.parts)]

/-- Registers written in turn. -/
theorem setVRange_fits {t : Team} (h : Fits n t) {ks : List Nat} {d : Nat} {m : LaneSet} {f : Nat → Nat → Word} :
    Fits n (ks.foldl (fun t k => setV t (d + k) m (f k)) t) := h.foldl fun _ _ ht => setV_fits.mpr ht

theorem engineRegs_fits {t : Team} (h : Fits n t) {k : Nat} {Ls : List Nat} {f : Nat → List Word} {t16 step desc : Nat → Word} :
    Fits n (engineRegs t k Ls f t16 step desc) :=
  setV_fits.mpr <| setV_fits.mpr <| setV_fits.mpr <| h.foldl fun _ _ ht => setV_fits.mpr ht

theorem finishIgrun_safe (h : Safe n s) {c : LocusCtx} : Safe n (finishIgrun s c) := by
  unfold finishIgrun
  extract_lets t c1 ctl s1 r s2 pc _ _ own _
  have ht : Fits s.ms.stamp t := engineRegs_fits h.team
  have h1 : Safe n s1 := h.withTeam ht.parts
  split
  · split
    · have h2 : Safe n s2 := h1.inFocus (loopEnd_fits h1.team)
      exact takeTrap_safe (by exact h2.parts)
    · exact retire_safe h1
  · exact retire_safe h1

theorem execIgrun_safe (h : Safe n s) : SafeOut n (execIgrun s) :=
  issue_safe h fun u hu => by
    dsimp only
    split
    · exact trap_safe
    · refine ite_safe trap_safe (ite_safe (next_safe (finishIgrun_safe ?_)) (next_safe (putCtx_safe ?_)))
      exacts [hu.parts, hu.parts]

theorem enterRoutine_safe (h : Safe n s) {c : LocusCtx} {stage : Nat} {args : Nat → Word × Word × List Word} :
    Safe n (enterRoutine s c stage args) := by
  unfold enterRoutine
  extract_lets Ls desc t pc ctl t1 c1 s1
  have ht : Fits s.ms.stamp t := engineRegs_fits h.team
  have h1 : Safe n s1 := h.withTeam ht.parts
  split
  · split
    exacts [takeTrap_safe h1, h1]
  · exact h1

theorem engineOf_safe (h : Safe n s) {e : Engine} (he : engineOf s = some e) : EngineSafe n e := by
  unfold engineOf at he
  split at he
  · split at he
    · exact Option.some.inj he ▸ runEngine_safe h
    · cases he
  · cases he

theorem noteServed_safe {e : Engine} (h : EngineSafe n e) : Safe n (noteServed e) := h.state.parts

theorem execRoutineCall_safe (h : Safe n s) {uid : Nat} : SafeOut n (execRoutineCall uid s) :=
  out_safe <| onTeam_safe h fun u hu => by
    split
    · next e he =>
      split
      exacts [enterRoutine_safe (noteServed_safe (engineOf_safe hu he)), hu]
    · exact hu

theorem execIgrunComplete_safe (h : Safe n s) {uid : Nat} : SafeOut n (execIgrunComplete uid s) :=
  out_safe <| onTeam_safe h fun u hu => by
    split
    · next e he =>
      split
      exacts [finishIgrun_safe (noteServed_safe (engineOf_safe hu he)), hu]
    · exact hu

theorem execIgret_safe (h : Safe n s) {o : IgretOp} : SafeOut n (execIgret o s) :=
  issue_safe h fun u hu => by
    dsimp only
    split
    · exact trap_safe
    · exact ite_safe trap_safe <| ite_safe trap_safe <| ite_safe wait_safe <| ite_safe wait_safe <| next_safe (by exact hu.parts)

theorem stopIgrun_safe (h : Safe n s) {c : LocusCtx} : Safe n (stopIgrun s c) := by
  unfold stopIgrun
  extract_lets Ls s1 _ c1 _ ctl
  have h1 : Safe n s1 := restoreAreas_safe h
  exact finishIgrun_safe (by exact h1.parts)

theorem execIgstop_safe (h : Safe n s) : SafeOut n (execIgstop s) :=
  issue_safe h fun u hu => by
    dsimp only
    split
    · exact trap_safe
    · refine ite_safe (ite_safe (next_safe (stopIgrun_safe ?_)) wait_safe) (ite_safe trap_safe (next_safe (retire_safe ?_)))
      exacts [hu.parts, hu.parts]

theorem execIgq_safe (h : Safe n s) {o : IgqOp} : SafeOut n (execIgq o s) :=
  issue_safe h fun u hu => by
    dsimp only
    split
    · exact trap_safe
    · exact ite_safe trap_safe (ite_safe trap_safe (retires_safe hu (setVRange_fits hu.team)))

theorem execIgrd_safe (h : Safe n s) {o : IgrdOp} : SafeOut n (execIgrd o s) :=
  issue_safe h fun u hu => by
    split
    · exact trap_safe
    · exact ite_safe trap_safe (retires_safe hu (setV_fits.mpr hu.team))

theorem execIgwr_safe (h : Safe n s) {o : IgwrOp} : SafeOut n (execIgwr o s) :=
  issue_safe h fun u hu => by
    dsimp only
    split
    · exact trap_safe
    · refine ite_safe trap_safe ?_
      split
      exacts [trap_safe, next_safe (retire_safe (putCtx_safe hu))]

/-! ### The return from a handler -/

theorem abandonIgrun_safe (h : Safe n s) : Safe n (abandonIgrun s) := by
  unfold abandonIgrun
  split
  · split
    exacts [putCtx_safe (restoreAreas_safe h), h]
  · exact h

theorem restoreContext_safe (h : Safe n s) {x : Handler} {bs : List Byte} {r : Saved} (hr : SavedShaped r) : Safe n (restoreContext s x bs r) := by
  unfold restoreContext
  extract_lets t u e _ _ u1
  have hu : Fits s.ms.stamp u := applyContext_fits h.team hr
  exact h.withTeam hu.parts

theorem restoreTiles_safe (h : Safe n s) {x : Handler} {bs : List Byte} : Safe n (restoreTiles s x bs) := by
  unfold restoreTiles
  split
  exacts [modTeamPair_safe h, h]

theorem execTret_safe (h : Safe n s) : SafeOut n (execTret s) :=
  issue_safe h fun u hu => by
    dsimp only
    split
    · exact trap_safe
    · refine ite_safe wait_safe (ite_safe wait_safe (ite_safe wait_safe (withRecord_safe hu fun bs v hv => ?_)))
      split
      · exact next_safe (takeTrap_safe hv)
      · next hr =>
        refine ite_safe (next_safe (restoreContext_safe (restoreTiles_safe (abandonIgrun_safe ?_)) (readSaved_shaped hr)))
          (next_safe (takeTrap_safe hv))
        exact hv.parts

end Sys2Proof.Machine
end

section
/-! SUPPORT. Every instruction and every event keeps the invariant, one arm per constructor of `Instr`. -/

namespace Sys2Proof.Machine

variable {s : State}

/-- Words of one family keep the invariant by what the family shares; the rest have a lemma each. A restart begins a new device order
(R428), hence the place 0. -/
theorem exec_safe (h : Safe 0 s) (i : Instr) : SafeOut 0 (exec i s) := by
  cases i with dsimp only [exec]
  | iadd | isub | imad | sel | bfi | movSp | iaddi | movi | shli | shri | sari | s2v => exact vecOp_safe h
  | iabs | popc | clz | brev | mov => exact vec1_safe h
  | andn | iminS | iminU | imaxS | imaxU | imulLo | imulHiS | imulHiU | and | or | xor | shl | shr | sar | rot | bfxU | bfxS =>
      exact vec2_safe h
  | icmpS | icmpU | icmpi => exact predOp_safe h
  | plogAnd | plogOr | plogXor | plogAndn => exact plog_safe h
  | andi | ori | xori => exact vecImm_safe h
  | sadd | ssub | smul | sand | sor | sxor | sshl | sshr => exact scal2_safe h
  | scmpS | scmpU => exact scmp_safe h
  | smov | v2s | saddi | smovi | voteBal | mskrd => exact scalarOp_safe h
  | fadd | fsub | fmul | ffma | haddBf | hmulBf | hfmaBf | haddF16 | hmulF16 | hfmaF16 => exact fp3_safe h
  | fmin | fmax | hmaxBf | hmaxF16 => exact fpExact_safe h
  | fcmp | fcmpUo => exact fcmpOp_safe h
  | nadd | nmul | nfma | nmax | nmin => exact n3_safe h
  | rcp | rsq | sqrt | tanh | ex2 | lg2 | sinp | cosp => exact spfn_safe h
  | cvtRne | cvtRtz | cvtSr | cvt => exact cvtOp_safe h
  | cvtnRne | cvtnRtz | cvtnSr | cvtn => exact cvtnOp_safe h
  | i2fS | i2fU => exact i2fOp_safe h
  | f2iS | f2iU => exact f2iOp_safe h
  | shflIdx | shflXor | shflUp | shflDn => exact shfl_safe h
  | rlogIadd | rlogImaxS | rlogFadd | rlogFmax => exact rlog_safe h
  | scanIadd | scanFadd => exact scan_safe h
  | cleanr | invr | flushr => exact maintOp_safe h
  | aopAdd | aopMin | aopMax | aopXchg | aopAnd | aopOr | aopXor | aopCas => exact aop_safe h
  | mrld | mrst => exact marlMove_safe h
  | hdem | hpro | hrel => exact queueHr_safe h
  | himm | hsched | hmod => exact hintWord_safe h
  | getVersion | getCapabilities | negotiateAlgorithms | getDigests | getCertificate | challenge | keyExchange | finish | endSession =>
      exact spdm_safe h
  | srd => exact execSrd_safe h
  | swr => exact execSwr_safe h
  | fclass => exact execFclass_safe h
  | ncmp => exact execNcmp_safe h
  | plx => exact execPlx_safe h
  | pld => exact execPld_safe h
  | frw => exact execFrw_safe h
  | voteAny => exact execVoteAny_safe h
  | voteAll => exact execVoteAll_safe h
  | elect => exact execElect_safe h
  | br => exact execBr_safe h
  | brAll => exact execBrAll_safe h
  | call => exact execCall_safe h
  | ret => exact execRet_safe h
  | jmp => exact execJmp_safe h
  | exit => exact execExit_safe h
  | nop => exact execNop_safe h
  | ifP => exact execIfP_safe h
  | elseP => exact execElseP_safe h
  | endif => exact execEndif_safe h
  | brk => exact execBrk_safe h
  | loop => exact execLoop_safe h
  | ld => exact execLd_safe h
  | st => exact execSt_safe h
  | lds => exact execLds_safe h
  | sts => exact execSts_safe h
  | ldt => exact execLdt_safe h
  | stt => exact execStt_safe h
  | cpt => exact execCpt_safe h
  | cpseal => exact execCpseal_safe h
  | cpwait => exact execCpwait_safe h
  | waitc => exact execWaitc_safe h
  | pref => exact execPref_safe h
  | shset => exact execShset_safe h
  | phase => exact execPhase_safe h
  | fence => exact execFence_safe h
  | bar => exact execBar_safe h
  | mma => exact execMma_safe h
  | mzero => exact execMzero_safe h
  | mrd => exact execMrd_safe h
  | msts => exact execMsts_safe h
  | mstat => exact execMstat_safe h
  | callm => exact execCallm_safe h
  | cbatch => exact execCbatch_safe h
  | creply => exact execCreply_safe h
  | cdone => exact execCdone_safe h
  | twait => exact execTwait_safe h
  | mreg => exact execMreg_safe h
  | trig => exact execTrig_safe h
  | waitdep => exact execWaitdep_safe h
  | yield => exact execYield_safe h
  | joink => exact execJoink_safe h
  | launch => exact execLaunch_safe h
  | postc => exact execPostc_safe h
  | rput => exact execRput_safe h
  | rget => exact execRget_safe h
  | gx => exact execGx_safe h
  | sx => exact execSx_safe h
  | mron => exact execMron_safe h
  | mroff => exact execMroff_safe h
  | mrop => exact execMrop_safe h
  | mradd => exact execMradd_safe h
  | mrmul => exact execMrmul_safe h
  | mrcmp => exact execMrcmp_safe h
  | mrred => exact execMrred_safe h
  | hold => exact execHold_safe h
  | hset => exact execHset_safe h
  | igbind => exact execIgbind_safe h
  | igrun => exact execIgrun_safe h
  | igret => exact execIgret_safe h
  | igstop => exact execIgstop_safe h
  | igq => exact execIgq_safe h
  | igrd => exact execIgrd_safe h
  | igwr => exact execIgwr_safe h
  | svput => exact execSvput_safe h
  | svget => exact execSvget_safe h
  | svrel => exact execSvrel_safe h
  | svdrop => exact execSvdrop_safe h
  | traps => exact execTraps_safe h
  | tret => exact execTret_safe h
  | bkpt => exact execBkpt_safe h
  | synci => exact execSynci_safe h
  | tlbinv => exact execTlbinv_safe h
  | stratumLd => exact execStratumLd_safe h
  | stratumSt => exact execStratumSt_safe h
  | stratumLoop => exact execStratumLoop_safe h
  | graphUpload => exact execGraphUpload_safe h
  | graphRemove => exact execGraphRemove_safe h
  | trigger => exact execTrigger_safe h
  | instanceBegin => exact execInstanceBegin_safe h
  | nodeLaunch => exact execNodeLaunch_safe h
  | nodeComplete => exact execNodeComplete_safe h
  | externalWaitWake => exact execExternalWaitWake_safe h
  | externalWaitTimeout => exact execExternalWaitTimeout_safe h
  | hostSignalAck => exact execHostSignalAck_safe h
  | stratumBlockRun => exact execStratumBlockRun_safe h
  | gridRetire => exact execGridRetire_safe h
  | gangPlacement => exact execGangPlacement_safe h
  | gangWaitLimit => exact execGangWaitLimit_safe h
  | teamRestore => exact execTeamRestore_safe h
  | continuationConvert => exact execContinuationConvert_safe h
  | continuationResume => exact execContinuationResume_safe h
  | continuationTargetTimeout => exact execContinuationTargetTimeout_safe h
  | taskEnd => exact execTaskEnd_safe h
  | producerComplete => exact execProducerComplete_safe h
  | futureWake => exact execFutureWake_safe h
  | copyComplete => exact execCopyComplete_safe h
  | matrixCmdStart => exact execMatrixCmdStart_safe h
  | matrixCmdRetire => exact execMatrixCmdRetire_safe h
  | publicationCommit => exact execPublicationCommit_safe h
  | entryResolve => exact execEntryResolve_safe h
  | maintenanceComplete => exact execMaintenanceComplete_safe h
  | sxAck => exact execSxAck_safe h
  | marlCmdComplete => exact execMarlCmdComplete_safe h
  | residencyComplete => exact execResidencyComplete_safe h
  | vertexRequestArrival => exact execVertexRequestArrival_safe h
  | combineAtomic => exact execCombineAtomic_safe h
  | twaitWake => exact execTwaitWake_safe h
  | routineCall => exact execRoutineCall_safe h
  | igrunComplete => exact execIgrunComplete_safe h
  | deadlineExpiry => exact execDeadlineExpiry_safe h
  | priorityBoost => exact execPriorityBoost_safe h
  | yieldTimeout => exact execYieldTimeout_safe h
  | hschedSpaceExpiry => exact execHschedSpaceExpiry_safe h
  | vxcfgEnable => exact execVxcfgEnable_safe h
  | vxcfgDisable => exact execVxcfgDisable_safe h
  | svcmdOpen => exact execSvcmdOpen_safe h
  | svcmdClose => exact execSvcmdClose_safe h
  | svdrain => exact execSvdrain_safe h
  | srcomp => exact execSrcomp_safe h
  | firsterrClear => exact execFirsterrClear_safe h
  | registerWrite => exact execRegisterWrite_safe h
  | hostWindowRead => exact execHostWindowRead_safe h
  | hostWindowWrite => exact execHostWindowWrite_safe h
  | peerWrite => exact execPeerWrite_safe h
  | getMeasurements => exact execGetMeasurements_safe h
  | memoryKeyInstall => exact execMemoryKeyInstall_safe h
  | startLogRead => exact execStartLogRead_safe h
  | managementStart => exact execManagementStart_safe h
  | coreFailure => exact execCoreFailure_safe h
  | powerThrottle => exact execPowerThrottle_safe h
  | placementHold => exact execPlacementHold_safe h
  | hbmBankTest => exact execHbmBankTest_safe h
  | linkFlitRetry => exact execLinkFlitRetry_safe h
  | powerBelowCap => exact execPowerBelowCap_safe h
  | fqtailWrite => exact execFqtailWrite_safe h
  | srtailWrite => exact execSrtailWrite_safe h

end Sys2Proof.Machine
end

section
/-! SUPPORT. Every step keeps the invariant: issue and fetch, the events inside the part, the agenda, and time. -/

namespace Sys2Proof.Machine

variable {n : Nat} {s : State}

/-! ### Running one team -/

theorem settleFetch_safe (h : Safe n s) {r : Result} (hr : SafeRes n r) : Safe n (settleFetch s r) := by
  unfold settleFetch
  split
  exacts [hr.next _ rfl, hold_safe h, trapBefore_safe (noteIssue_safe h)]

theorem runCore_safe (h : Safe 0 s) : SafeOut 0 (runCore s) := by
  unfold runCore
  dsimp only
  split
  · exact out_safe (trapBefore_safe (by exact h.parts))
  · refine out_ite_safe (out_safe (deadlineTrap_safe h)) ?_
    split
    · exact out_safe (settleFetch_safe h (accessFault_safe h))
    · next hf =>
      have hu := fetch_safe h hf
      split
      exacts [out_safe (trapBefore_safe (noteIssue_safe hu)), exec_safe hu _]

theorem countBlock_safe (h : Safe n s) : Safe n (countBlock s) := h.parts

theorem runStratum_safe (h : Safe 0 s) : SafeOut 0 (runStratum s) := by
  unfold runStratum
  dsimp only
  split
  · exact out_safe (stratumFault_safe h)
  · next hf =>
    have hu := fetch_safe h hf
    refine out_ite_safe (out_safe (stratumFault_safe hu)) ?_
    split
    · exact out_safe (stratumFault_safe hu)
    · refine exec_safe (countBlock_safe ?_) _
      split
      exacts [hu, forgetBacks_safe hu]

theorem runTeam_safe (h : Safe 0 s) : SafeOut 0 (runTeam s) := out_ite_safe (runStratum_safe h) (runCore_safe h)

/-! ### Events inside the part -/

/-- An event after which the invariant holds if it held before. -/
def Keeps (m : Meaning) : Prop := ∀ u, Safe 0 u → SafeOut 0 (m u)

/-- A list of such events. -/
def AllKeep (ms : List Meaning) : Prop := ∀ m ∈ ms, Keeps m

namespace AllKeep

variable {α : Type}

theorem nil : AllKeep [] := fun _ h => absurd h List.not_mem_nil

theorem cons {m : Meaning} {ms : List Meaning} (h : Keeps m) (hs : AllKeep ms) : AllKeep (m :: ms) := List.forall_mem_cons.mpr ⟨h, hs⟩

theorem one {m : Meaning} (h : Keeps m) : AllKeep [m] := cons h nil

theorem append {ms ns : List Meaning} (h : AllKeep ms) (k : AllKeep ns) : AllKeep (ms ++ ns) := List.forall_mem_append.mpr ⟨h, k⟩

theorem guarded {b : Bool} {ms : List Meaning} (h : AllKeep ms) : AllKeep (whenever b ms) := by
  unfold whenever
  split
  exacts [h, nil]

theorem map {xs : List α} {f : α → Meaning} (h : ∀ x, Keeps (f x)) : AllKeep (xs.map f) := List.forall_mem_map.mpr fun x _ => h x

theorem flatMap {xs : List α} {f : α → List Meaning} (h : ∀ x, AllKeep (f x)) : AllKeep (xs.flatMap f) := fun m hm =>
  have ⟨x, _, hx⟩ := List.mem_flatMap.mp hm
  h x m hx

end AllKeep

open AllKeep

theorem wakeEvents_keep (s : State) (t : Team) : AllKeep (wakeEvents s t) := by
  have convert : Keeps (execContinuationConvert t.uid) := fun _ h => execContinuationConvert_safe h
  unfold wakeEvents
  dsimp only
  split
  · exact one fun _ h => execPublicationCommit_safe h
  · exact append (guarded (one fun _ h => execTwaitWake_safe h)) (one convert)
  · exact cons (fun _ h => execFutureWake_safe h) (one convert)
  · exact cons (fun _ h => execRoutineCall_safe h) (one fun _ h => execIgrunComplete_safe h)
  · exact one fun _ h => execTaskEnd_safe h
  · exact one fun _ h => execYieldTimeout_safe h
  · exact nil
  · exact nil
  · exact nil
  · exact nil
  · exact one convert

theorem teamEvents_keep (s : State) (t : Team) : AllKeep (teamEvents s t) := by
  unfold teamEvents
  refine append (append (append (append (append (append (append (append ?_ (wakeEvents_keep s t)) ?_) ?_) ?_) ?_) ?_) ?_) ?_
  · exact guarded (one fun _ h => execDeadlineExpiry_safe h)
  · exact guarded (one fun _ h => execFutureWake_safe h)
  · exact map fun _ _ h => execProducerComplete_safe h
  · exact map fun _ _ h => execSxAck_safe h
  · exact map fun _ _ h => execCopyComplete_safe h
  · exact map fun _ _ h => execMaintenanceComplete_safe h
  · exact guarded (one fun _ h => execHschedSpaceExpiry_safe h)
  · exact guarded (one fun _ h => execPriorityBoost_safe h)

theorem graphEvents_keep (x : GraphSlot × Nat) : AllKeep (graphEvents x) := by
  unfold graphEvents
  split
  · exact nil
  · refine append (guarded (flatMap fun n => ?_)) (guarded (one fun _ h => execInstanceBegin_safe h))
    exact cons (fun _ h => execNodeComplete_safe h) <| cons (fun _ h => execNodeLaunch_safe h) <|
      cons (fun _ h => execExternalWaitWake_safe h) <| cons (fun _ h => execExternalWaitTimeout_safe h) <|
      one fun _ h => execHostSignalAck_safe h

theorem seatEvents_keep (t : Team) : AllKeep (seatEvents t) := by
  unfold seatEvents
  split
  · exact one fun _ h => execTeamRestore_safe h
  · exact cons (fun _ h => execContinuationResume_safe h) (one fun _ h => execContinuationTargetTimeout_safe h)
  · exact nil

theorem homeEvents_keep (x : Home × Nat) : AllKeep (homeEvents x) := guarded (one fun _ h => execCombineAtomic_safe h)

theorem pairEvents_keep (x : Gang × Nat) : AllKeep (pairEvents x) :=
  flatMap fun _ => cons (fun _ h => execMatrixCmdStart_safe h) (one fun _ h => execMatrixCmdRetire_safe h)

theorem gridEvents_keep (s : State) (g : Grid) : AllKeep (gridEvents s g) :=
  append (guarded (one fun _ h => execGridRetire_safe h))
    (guarded (cons (fun _ h => execGangWaitLimit_safe h) (one fun _ h => execGangPlacement_safe h)))

theorem ownEvents_keep (s : State) : AllKeep (ownEvents s) := by
  unfold ownEvents
  refine append (append (append (append (append (append (append (append (append (append ?_ ?_) ?_) ?_) ?_) ?_) ?_) ?_) ?_) ?_) ?_
  · exact flatMap (teamEvents_keep s)
  · exact flatMap pairEvents_keep
  · exact map fun _ _ h => execVertexRequestArrival_safe h
  · exact flatMap homeEvents_keep
  · exact flatMap fun _ => guarded (one fun _ h => execMarlCmdComplete_safe h)
  · exact flatMap fun _ => guarded (one fun _ h => execResidencyComplete_safe h)
  · exact flatMap graphEvents_keep
  · exact flatMap fun _ => map fun _ _ h => execStratumBlockRun_safe h
  · exact flatMap (gridEvents_keep s)
  · exact flatMap seatEvents_keep
  · exact guarded (one fun _ h => out_safe (settleWaves_safe h))

theorem tryEvent_safe (h : Safe 0 s) {m : Meaning} (hm : Keeps m) {u : State} (hu : tryEvent s m = some u) : Safe 0 u := by
  unfold tryEvent at hu
  split at hu
  · next hn =>
    split at hu
    · cases hu
    · exact Option.some.inj hu ▸ (hm s h).next _ hn
  · cases hu

theorem ownEvent_safe (h : Safe 0 s) {u : State} (hu : ownEvent s = some u) : Safe 0 u :=
  have ⟨m, hm, hn⟩ := List.exists_of_findSome?_eq_some hu
  tryEvent_safe h (ownEvents_keep s m hm) hn

/-! ### The start of a step, and time -/

theorem tryIssue_safe (h : Safe 0 s) : Safe 0 (tryIssue s) := by
  unfold tryIssue
  dsimp only
  have ready : Safe 0 (s.withTeam { s.team with wait := .ready }) := h.parts
  split
  · exact h
  · split
    · next hn =>
      split
      exacts [(runCore_safe h).next _ hn, ready]
    · exact ready

theorem tryBatch_safe (h : Safe 0 s) : Safe 0 (tryBatch s) := by
  unfold tryBatch
  split
  · next hn => exact (runCore_safe h).next _ hn
  · exact h

theorem formBatches_safe (h : Safe 0 s) : Safe 0 (formBatches s) := h.foldl fun _ hu _ _ => onTeam_safe hu fun _ hv => tryBatch_safe hv

theorem refreshTeam_safe (h : Safe 0 s) : Safe 0 (refreshTeam s) := by
  unfold refreshTeam
  split
  · split
    exacts [tryIssue_safe (finishInval_safe h), h]
  · split
    exacts [h, tryIssue_safe (offLate_safe h)]
  · split
    exacts [tryIssue_safe (yieldDone_safe h), h]
  · exact tryIssue_safe h
  · exact h
  · exact tryIssue_safe h
  · exact h

theorem settleKeel_safe (h : Safe n s) : Safe n (settleKeel s) := by
  unfold settleKeel
  split
  exacts [h, settleWays_safe h]

theorem refresh_safe (h : Safe 0 s) : Safe 0 (refresh s) :=
  (leaveFenced_safe (settleKeel_safe (tidyL1_safe h))).foldl fun _ hu _ _ =>
    onTeam_safe hu fun _ hv => refreshTeam_safe (hv.inFocus (lateNow_fits hv.team))

theorem passTime_safe (h : Safe 0 s) {ns : Nat} : Safe 0 (passTime s ns) := by
  unfold passTime
  extract_lets s1 k
  have h1 : Safe 0 s1 := by
    dsimp only [s1]
    split
    exacts [h, closeCycle_safe (formBatches_safe h)]
  have h2 : Safe 0 (tick s1 ns (k / 1000)) := tick_safe h1
  exact h2.parts

/-! ### One step -/

theorem runTurn_safe (h : Safe 0 s) {t : Team} : SafeOut 0 (runTurn s t) := runTeam_safe ((passTime_safe h).focus _)

theorem idle_safe (h : Safe 0 s) : SafeOut 0 (idle s) := out_ite_safe fault_safe (out_safe (passTime_safe h))

theorem runFree_safe (h : Safe 0 s) : SafeOut 0 (runFree s) := by
  unfold runFree
  refine out_ite_safe ?_ ?_
  · split
    · exact runTurn_safe h
    · split
      · next hu => exact out_safe (ownEvent_safe h hu)
      · exact idle_safe h
  · split
    · next hu => exact out_safe (ownEvent_safe h hu)
    · split
      exacts [runTurn_safe h, idle_safe h]

theorem runAct_safe (h : Safe 0 s) (a : Act) : SafeOut 0 (runAct a s) := by
  cases a with
  | event i => exact out_ite_safe (exec_safe h i) (out_safe h)
  | time ns => exact out_safe (passTime_safe h)
  | group g =>
    unfold runAct
    dsimp only
    split
    exacts [runTurn_safe h, out_safe h]

theorem runStep_safe (h : Safe 0 s) : SafeOut 0 (runStep s) := by
  unfold runStep
  split
  · have hr := refresh_safe h
    exact runAct_safe (by exact hr.parts) _
  · exact runFree_safe (refresh_safe h)

/-- Settles O60: a step of a state that has the invariant keeps each part of it, from the memory side to every team. -/
theorem invariantKept : Obligations.InvariantKept := fun _ t h hs => invariant_iff_safe.mpr ((runStep_safe (invariant_iff_safe.mp h)).next t hs)

end Sys2Proof.Machine
end

section
/-! SUPPORT. The state after reset: its registers, its memory and the invariant. -/

namespace Sys2Proof.Machine

theorem gstat_empty : gstat GraphSlot.empty = 0 := by decide

/-- No graph is in any slot, nor past the last. -/
theorem graphs_reset (k : Nat) : State.reset.sched.graphs.getD k GraphSlot.empty = GraphSlot.empty :=
  List.getD_eq_getElem?_getD.trans (List.getElem?_getD_replicate_default_eq _ 256 k)

theorem pwin_reset (k : Nat) : State.reset.host.pwin.getD k 0 = 0 :=
  List.getD_eq_getElem?_getD.trans (List.getElem?_getD_replicate_default_eq _ 256 k)

/-- The tables of the aperture read as zero after reset. -/
theorem tableReg_reset (off : Nat) : tableReg State.reset off = 0 := by
  unfold tableReg
  rw [graphs_reset, gstat_empty, pwin_reset]
  rw [show ecntOf State.reset ((off - 0x61000) / 8) = 0 from rfl]
  simp only [BitVec.ofNat_eq_ofNat, ite_self]

/-- Every register of the aperture reads as its reset value. -/
theorem readReg_reset (off : Nat) : readReg State.reset off = resetOf off := by
  have named : ∀ r ∈ namedRegs, r.2 State.reset = resetOf r.1 := by decide
  rw [readReg_eq]
  cases hf : namedRegs.find? fun r => r.1 == off with
  | some r =>
    have he : r.1 = off := by simpa using List.find?_some hf
    exact he ▸ named r (List.mem_of_find?_eq_some hf)
  | none =>
    rw [tableReg_reset]
    unfold resetOf
    split
    case h_6 => rfl
    all_goals exact absurd hf (by decide)

/-- Memory of which nothing is listed reads as zero, under the key of a plaintext page. -/
theorem keyGet_nil (a : Nat) : keyGet [] 0 a = 0 := if_pos (ite_self 0)

theorem commByte_reset (a : Nat) : commByte State.reset.ms a = 0 := by
  have noSector : l2Find State.reset.ms (a / 64) = none := rfl
  unfold commByte commByteK
  rw [noSector]
  split
  · rfl
  · split
    exacts [keyGet_nil a, rfl]

/-- Settles O56: each table of the aperture and each list of the state is written out by reset. -/
theorem resetValues : Obligations.ResetValues :=
  ⟨readReg_reset, invariant_iff_safe.mpr reset_safe, rfl, rfl, rfl, rfl, rfl, rfl, fun k => congrArg GraphSlot.graph (graphs_reset k), rfl, rfl,
    by decide, rfl, rfl, rfl, rfl, rfl, commByte_reset⟩

end Sys2Proof.Machine
end

section
/-! SUPPORT. The order of the waiting list and the walk over it (R292, R293, R402). -/

namespace Sys2Proof.Machine

/-! ### Sorting by an order -/

/-- An element put into a sorted list before the first that does not precede it leaves the list sorted. -/
theorem pairwise_insertBy {α : Type} {lt : α → α → Bool} (asymm : ∀ a b, lt a b = true → lt b a = false)
    (trans : ∀ a b c, lt b a = false → lt c b = false → lt c a = false) (x : α) {xs : List α}
    (h : xs.Pairwise fun a b => lt b a = false) : (insertBy (fun a b => !lt b a) x xs).Pairwise fun a b => lt b a = false := by
  induction xs with
  | nil => exact List.pairwise_singleton ..
  | cons y ys ih =>
    obtain ⟨hy, hys⟩ := List.pairwise_cons.mp h
    unfold insertBy
    cases hyx : lt y x with
    | false =>
      refine List.pairwise_cons.mpr ⟨fun z hz => ?_, h⟩
      rcases List.mem_cons.mp hz with rfl | hz
      exacts [hyx, trans x y z hyx (hy z hz)]
    | true =>
      refine List.pairwise_cons.mpr ⟨fun z hz => ?_, ih hys⟩
      rcases mem_insertBy.mp hz with rfl | hz
      exacts [asymm y z hyx, hy z hz]

/-- A sorted list stands in the order it was sorted by. -/
theorem pairwise_sortBy {α : Type} {lt : α → α → Bool} (asymm : ∀ a b, lt a b = true → lt b a = false)
    (trans : ∀ a b c, lt b a = false → lt c b = false → lt c a = false) (xs : List α) :
    (sortBy lt xs).Pairwise fun a b => lt b a = false := by
  induction xs with
  | nil => exact List.Pairwise.nil
  | cons x xs ih => exact pairwise_insertBy asymm trans x ih

/-! ### The waiting list -/

/-- One entry precedes another by priority, then by launch time, then by gang (R292). -/
theorem WaitEntry.before_iff {a b : WaitEntry} : a.before b = true ↔
    b.prio < a.prio ∨ a.prio = b.prio ∧ (a.since < b.since ∨ a.since = b.since ∧ a.gang < b.gang) := by
  simp [WaitEntry.before]

theorem WaitEntry.not_before_iff {a b : WaitEntry} : b.before a = false ↔
    b.prio ≤ a.prio ∧ (a.prio = b.prio → a.since ≤ b.since ∧ (a.since = b.since → a.gang ≤ b.gang)) := by
  rw [← Bool.not_eq_true, WaitEntry.before_iff]
  omega

theorem WaitEntry.before_asymm (a b : WaitEntry) (h : a.before b = true) : b.before a = false := by
  rw [WaitEntry.before_iff] at h
  rw [WaitEntry.not_before_iff]
  omega

theorem WaitEntry.not_before_trans (a b c : WaitEntry) (h : b.before a = false) (k : c.before b = false) : c.before a = false := by
  rw [WaitEntry.not_before_iff] at h k ⊢
  omega

/-- The waiting list in its order. -/
theorem waitList_pairwise (s : State) : (waitList s).Pairwise fun a b => b.before a = false :=
  pairwise_sortBy WaitEntry.before_asymm WaitEntry.not_before_trans _

/-- What stands on the waiting list. -/
theorem mem_waitList {s : State} {w : WaitEntry} : w ∈ waitList s ↔
    (∃ g ∈ s.sched.grids, g.next < g.size ∧ w = { prio := g.prio, since := g.since.toNat, gang := g.next, what := .gang g.id })
    ∨ ∃ t ∈ s.teams, wantsRestore s t = true ∧ w = { prio := t.pl.prio, since := ((s.gridOf t.pl.grid).map fun g => g.since.toNat).getD 0,
                                                     gang := t.pl.gang, what := .team t.uid } := by
  rw [waitList, mem_sortBy, List.mem_append, or_comm]
  simp only [List.mem_map, List.mem_filter, decide_eq_true_eq, and_assoc, eq_comm (a := w)]

/-- R292 and R402. -/
theorem waitingOrder : WaitingOrder := fun s =>
  ⟨(waitList_pairwise s).imp WaitEntry.not_before_iff.mp, fun _ => mem_waitList⟩

/-! ### The walk -/

/-- The walk at one entry: it is placed, or passed over. -/
theorem walkList_cons (s : State) (w : WaitEntry) (ws : List WaitEntry) : walkList s (w :: ws) =
    match placed s w with
    | some t => some (w.what, t)
    | none => walkList s ws := rfl

/-- The walk places the first entry that can be placed. -/
theorem walkList_first {s t : State} {pre post : List WaitEntry} {w : WaitEntry} (h : ∀ x ∈ pre, placed s x = none)
    (hw : placed s w = some t) : walkList s (pre ++ w :: post) = some (w.what, t) := by
  induction pre with
  | nil => rw [List.nil_append, walkList_cons, hw]
  | cons x xs ih =>
    rw [List.cons_append, walkList_cons, h x (List.mem_cons_self ..)]
    exact ih fun y hy => h y (List.mem_cons_of_mem _ hy)

/-- R292: what the distributor's walk reaches first is placed, or restored. -/
theorem walksInOrder : WalksInOrder := by
  intro s t pre post w r hl hpre hw
  have hwalk : walkAll s = (r, some (w.what, t)) := by
    change (r, walkList r (waitList r)) = _
    rw [hl, walkList_first hpre hw]
  refine ⟨fun id hid => ?_, fun uid hid => ?_⟩
  · change execGangPlacement s = _
    rw [execGangPlacement, hwalk, hid]
  · change execTeamRestore uid s = _
    rw [execTeamRestore, hwalk, hid]
    exact congrArg _ (if_pos rfl)

/-! ### The clusters of a gang (R293) -/

/-- The clusters are tried in ascending order with wrapping, after the one that received the grid's previous gang. -/
theorem clusterOrder_pairwise (g : Grid) (h : g.last < 24) :
    (clusterOrder g).Pairwise fun a b => (a + 23 - g.last) % 24 < (b + 23 - g.last) % 24 := by
  refine List.Pairwise.filter _ (List.pairwise_map.mpr ?_)
  refine List.pairwise_lt_range.imp_of_mem fun {a b} ha hb hab => ?_
  rw [List.mem_range] at ha hb
  omega

/-- The clusters that are tried are those of the core set. -/
theorem mem_clusterOrder {g : Grid} {c : Nat} : c ∈ clusterOrder g ↔ c < 24 ∧ g.cores.getLsbD c = true := by
  unfold clusterOrder
  simp only [List.mem_filter, List.mem_map, List.mem_range]
  refine and_congr_left fun _ => ⟨?_, fun h => ⟨(c + 24 - (g.last + 1) % 24) % 24, ?_, ?_⟩⟩
  · rintro ⟨k, -, rfl⟩
    omega
  all_goals omega

/-- A cluster is closed to a gang by another grid's next gang that has waited the limit and stands before it (R292). -/
theorem openClusters_yield {s : State} {g h : Grid} {c : Nat} (hc : c ∈ openClusters s g) (hh : h ∈ s.sched.grids) (hid : h.id ≠ g.id)
    (hnext : h.next < h.size) (hwait : 2 ^ 20 ≤ (s.cycle - h.since).toNat) (hprio : g.prio ≤ h.prio) (hcores : h.cores.getLsbD c = true) :
    waitedOut s g = true ∧ h.prio ≤ g.prio ∧ ¬h.since < g.since ∧ (h.since = g.since → g.next ≤ h.next) := by
  have hlim : waitedOut s h = true := Bool.or_eq_true_iff.mpr (.inr (decide_eq_true hwait))
  have hopen : heldOff s g c = false := by simpa using (List.mem_filter.mp hc).2
  have hone := List.any_eq_false.mp hopen h hh
  simp only [hlim, hcores, hid, hnext, hprio, bne_iff_ne, ne_eq, not_false_eq_true, Bool.and_true, decide_true, Bool.and_eq_true, Bool.or_eq_true,
    Bool.not_eq_true', not_or, Bool.not_eq_false, true_and, Bool.not_eq_true, WaitEntry.not_before_iff] at hone
  obtain ⟨hout, hle, horder⟩ := hone
  refine ⟨hout, hle, fun hlt => ?_, fun he => ?_⟩
  · have := (horder (by omega)).1
    rw [BitVec.lt_def] at hlt
    omega
  · exact (horder (by omega)).2 (by rw [he])

/-- The first cluster of those open that holds `n` teams is found. -/
theorem findCluster_first {s : State} {g : Grid} {n c : Nat} {pre post : List Nat} {r : List Seat × List Nat}
    (ho : openClusters s g = pre ++ c :: post) (hpre : ∀ x ∈ pre, fitGang s (residents s) g.rec_ n x = none)
    (hc : fitGang s (residents s) g.rec_ n c = some r) : findCluster s g n = some (c, r.1, r.2) := by
  have hnone : pre.findSome? (fun c => (fitGang s (residents s) g.rec_ n c).map fun r => (c, r.1, r.2)) = none :=
    List.findSome?_eq_none_iff.mpr fun x hx => by rw [hpre x hx]; rfl
  unfold findCluster
  rw [ho, List.findSome?_append, hnone, Option.none_or, List.findSome?_cons, hc]
  rfl

/-- No cluster is found where none holds the gang. -/
theorem findCluster_none {s : State} {g : Grid} {n : Nat} (h : ∀ x ∈ openClusters s g, fitGang s (residents s) g.rec_ n x = none) :
    findCluster s g n = none :=
  List.findSome?_eq_none_iff.mpr fun x hx => by rw [h x hx]; rfl

/-- R29, R292 and R293. -/
theorem gangGoes : GangGoes := by
  refine ⟨fun g hg => ⟨clusterOrder_pairwise g hg, fun _ => mem_clusterOrder⟩, fun s g => ⟨List.filter_sublist, ?_, ?_⟩⟩
  · exact fun c hc h hh hid hnext hwait hprio hcores => openClusters_yield hc hh hid hnext hwait hprio hcores
  · intro pre post c n r hroom ho hn hpre hc
    have hfound := findCluster_first ho hpre hc
    rw [tryGang, if_pos hroom]
    rcases hn with rfl | ⟨rfl, hpref⟩
    · rw [hfound]
    · rw [findCluster_none hpref, hfound]

end Sys2Proof.Machine
end

section
/-! SUPPORT. A gang that is placed, a team that ends, a grid that retires (R40, R88, R126, R290 to R293). -/

namespace Sys2Proof.Machine

/-! ### Sectors that leave L1 -/

/-- A sector that leaves L1 changes only what a team notes of where its sectors stand (R178). -/
theorem leaveSectors_eq (xs : List (Nat × Nat)) (v : Version) :
    ∃ spilled homed, xs.foldl (fun v x => leaveSector v x.2) v = { v with spilled := spilled, homed := homed } := by
  induction xs generalizing v with
  | nil => exact ⟨_, _, rfl⟩
  | cons x xs ih =>
    obtain ⟨spilled, homed, h⟩ := ih (leaveSector v x.2)
    exact ⟨spilled, homed, h⟩

/-- A change of teams that touches only where their sectors stand. -/
def MovesSectors (f : Team → Team) : Prop := ∀ t, ∃ spilled homed, f t = { t with ver := { t.ver with spilled := spilled, homed := homed } }

theorem forceOut_eq (s : State) (outs : List (Nat × Nat)) : ∃ f, forceOut s outs = s.mapTeams f ∧ MovesSectors f := by
  cases outs with
  | nil => exact ⟨id, by simp [forceOut, State.mapTeams], fun t => ⟨_, _, rfl⟩⟩
  | cons x xs =>
    refine ⟨fun t => { t with ver := ((x :: xs).filter fun x => x.1 == t.uid).foldl (fun v x => leaveSector v x.2) t.ver }, rfl, fun t => ?_⟩
    obtain ⟨spilled, homed, h⟩ := leaveSectors_eq ((x :: xs).filter fun x => x.1 == t.uid) t.ver
    exact ⟨spilled, homed, congrArg (fun v => { t with ver := v }) h⟩

/-- Blocks that become scratchpad change of the teams only where their sectors stand, and the lines of L1 (R174). -/
theorem convertL1_eq (old s : State) : ∃ f l1, convertL1 old s = { s with l1 := l1 }.mapTeams f ∧ MovesSectors f := by
  obtain ⟨f, h, hf⟩ := forceOut_eq { s with l1 := s.l1.filter fun f => !!(l1Blocks s f.core).contains (l1Place (l1Blocks old f.core) f.line).1 }
    ((s.l1.filter fun f => !(l1Blocks s f.core).contains (l1Place (l1Blocks old f.core) f.line).1).flatMap fun f => f.sectors.map fun n => (f.uid, n))
  exact ⟨f, _, h, hf⟩

/-! ### A gang on its seats -/

/-- A lane code of at most 5 names at most 1,024 lanes (R28). -/
theorem recLanes_le {r : List DWord} (h : bitsOf (teamCfg r) 0 3 ≤ 5) : recLanes r ≤ 1024 :=
  calc 32 * 2 ^ bitsOf (teamCfg r) 0 3 ≤ 32 * 2 ^ 5 := Nat.mul_le_mul_left 32 (Nat.pow_le_pow_right (by omega) h)
    _ = 1024 := by norm_num

/-- A gang as it is placed (R30, R175, R237). -/
def placedGang (s : State) (g : Grid) (n c : Nat) (seats : List Seat) (leaders : List Nat) : Gang :=
  { grid := g.id, idx := g.next, block := freeBlock s, cluster := c, size := n, scratchLen := 1024 * recScratch g.rec_,
    carve := carveFor s (seats ++ seatsIn s (residents s) c) c (recScratch g.rec_), scratch := [], gen := 0, arrived := 0, live := n, pendingArr := [],
    pairs := leaders.zipIdx.map fun x => newPair x.2 x.1,
    govs := (List.range 4).map fun k => { idx := k, armed := none, quiet := 0 }, ringWait := [] }

/-- A gang on its seats, before the blocks of its scratchpad leave L1. -/
def seatedGang (s : State) (g : Grid) (n c : Nat) (seats : List Seat) (leaders : List Nat) : State :=
  { s with
    others := s.others ++ seats.zipIdx.map fun x => newTeam s g n x.2 x.1,
    gangs := s.gangs ++ [placedGang s g n c seats leaders],
    sched := { s.sched with
      nextUid := s.sched.nextUid + n, nextVid := s.sched.nextVid + n,
      grids := s.sched.grids.map fun h => if h.id == g.id then { h with next := h.next + 1, last := c } else h,
      waited := s.sched.waited.filter fun w => w != (g.id, g.next) } }

theorem placeGang_eq (s : State) (g : Grid) (n c : Nat) (seats : List Seat) (leaders : List Nat) :
    placeGang s g n c seats leaders = convertL1 s (seatedGang s g n c seats leaders) := rfl

/-- Team `e` of a placed gang joins the others, on its seat. -/
theorem placeGang_team {s : State} {g : Grid} {n c e : Nat} {seats : List Seat} {leaders : List Nat} {seat : Seat} (h : seats[e]? = some seat) :
    ∃ spilled homed, (placeGang s g n c seats leaders).others[s.others.length + e]?
      = some { newTeam s g n e seat with ver := { (newTeam s g n e seat).ver with spilled := spilled, homed := homed } } := by
  obtain ⟨f, l1, hc, hf⟩ := convertL1_eq s (seatedGang s g n c seats leaders)
  obtain ⟨spilled, homed, hu⟩ := hf (newTeam s g n e seat)
  have hz : seats.zipIdx[e]? = some (seat, e) := by simp [h]
  refine ⟨spilled, homed, ?_⟩
  rw [placeGang_eq, hc, ← hu]
  change ((s.others ++ seats.zipIdx.map fun x => newTeam s g n x.2 x.1).map f)[s.others.length + e]? = _
  rw [List.getElem?_map, List.getElem?_append_right (Nat.le_add_right ..), Nat.add_sub_cancel_left, List.getElem?_map, hz]
  rfl

/-- Placing a gang adds it to the gangs, and keeps memory and the team in focus but for where its sectors stand. -/
theorem placeGang_keeps (s : State) (g : Grid) (n c : Nat) (seats : List Seat) (leaders : List Nat) :
    unhomed (placeGang s g n c seats leaders).team = unhomed s.team ∧ (placeGang s g n c seats leaders).ms = s.ms
      ∧ (placeGang s g n c seats leaders).gangs = s.gangs ++ [placedGang s g n c seats leaders] := by
  obtain ⟨f, l1, hc, hf⟩ := convertL1_eq s (seatedGang s g n c seats leaders)
  obtain ⟨spilled, homed, hu⟩ := hf s.team
  rw [placeGang_eq, hc]
  refine ⟨?_, rfl, rfl⟩
  change unhomed (f s.team) = unhomed s.team
  rw [hu]
  rfl

/-! ### The wait limit (R292) -/

theorem gangWaitLimit_notes {s : State} {grid gang : Nat} {g : Grid} (hg : s.gridOf grid = some g) :
    let due := g.next = gang ∧ gang < g.size ∧ 2 ^ 20 ≤ (s.cycle - g.since).toNat ∧ s.sched.waited.contains (grid, gang) = false
    (due → exec (.gangWaitLimit grid gang) s = .next { s with sched := { s.sched with waited := (grid, gang) :: s.sched.waited } })
    ∧ (¬due → exec (.gangWaitLimit grid gang) s = .next s) := by
  intro due
  change (due → execGangWaitLimit grid gang s = _) ∧ (¬due → execGangWaitLimit grid gang s = _)
  have hdue : due ↔ g.next = gang ∧ gang < g.size ∧ waitTicks ≤ (s.cycle - g.since).toNat ∧ (!s.sched.waited.contains (grid, gang)) = true := by
    rw [Bool.not_eq_true']
    exact Iff.rfl
  unfold execGangWaitLimit
  rw [hg]
  exact ⟨fun h => if_pos (hdue.mp h), fun h => if_neg (mt hdue.mpr h)⟩

/-! ### Retirement (R40, R291) -/

/-- The part without a grid that has retired: its teams, gangs and wait notes are gone. -/
def withoutGrid (s : State) (grid : Nat) : State :=
  let mine := fun (t : Team) => t.kind == .core && t.pl.grid == grid
  let s1 := sweepGangs s
  { s1 with
    team := if mine s1.team then Team.absent else s1.team,
    others := s1.others.filter fun t => !mine t,
    gangs := s1.gangs.filter fun x => x.grid != grid,
    sched := { s1.sched with grids := s1.sched.grids.filter fun x => x.id != grid,
                             waited := s1.sched.waited.filter fun w => w.1 != grid } }

/-- Its launcher hears of a grid's retirement: the node of a graph, or the team that is its parent (R291). -/
def tellLauncher (s : State) (g : Grid) (id : Nat) : State :=
  match g.from_ with
  | .node gr nd => nodeRetired s gr nd g.fatal
  | .team uid _ => s.modTeam uid fun t => { t with children := t.children.filter fun c => c != id }
  | .waves => s

theorem gridRetire_next {s : State} {id : Nat} {g : Grid} (hg : s.gridOf id = some g) (hw : g.from_ ≠ .waves) (hl : gridLive s g = false) :
    exec (.gridRetire id) s = .next (tellLauncher (withoutGrid s id) g id) := by
  change execGridRetire id s = _
  unfold execGridRetire tellLauncher
  rw [hg]
  refine (if_neg (by simp [hw, hl])).trans ?_
  cases g.from_ <;> rfl

/-- A grid with a live part stays. -/
theorem gridRetire_stays {s : State} {id : Nat} {g : Grid} (hg : s.gridOf id = some g) (hl : gridLive s g = true) :
    exec (.gridRetire id) s = .next s := by
  change execGridRetire id s = _
  unfold execGridRetire
  rw [hg]
  exact if_pos (by simp [hl])

theorem gridOf_withoutGrid (s : State) (id : Nat) : (withoutGrid s id).gridOf id = none := by
  refine List.find?_eq_none.mpr fun x hx => ?_
  simpa using (List.mem_filter.mp hx).2

theorem others_withoutGrid {s : State} {id : Nat} {u : Team} (hu : u ∈ (withoutGrid s id).others) (hk : u.kind = .core) : u.pl.grid ≠ id := by
  have := (List.mem_filter.mp hu).2
  simpa [hk] using this

theorem gangs_withoutGrid {s : State} {id : Nat} {x : Gang} (hx : x ∈ (withoutGrid s id).gangs) : x.grid ≠ id := by
  simpa using (List.mem_filter.mp hx).2

/-- Telling the launcher changes no grid, no memory and no gang. -/
theorem tellLauncher_keeps (s : State) (g : Grid) (id : Nat) : (∀ k, (tellLauncher s g id).gridOf k = s.gridOf k)
    ∧ (tellLauncher s g id).ms = s.ms ∧ (tellLauncher s g id).gangs = s.gangs := by
  unfold tellLauncher
  cases g.from_ <;> exact ⟨fun _ => rfl, rfl, rfl⟩

/-- Of a team, telling the launcher changes at most which children it has. -/
theorem tellLauncher_others {s : State} {g : Grid} {id : Nat} {u : Team} (hu : u ∈ (tellLauncher s g id).others) :
    ∃ v ∈ s.others, u.kind = v.kind ∧ u.pl = v.pl ∧ (∀ uid p, g.from_ = .team uid p → u.uid = uid → id ∉ u.children) := by
  unfold tellLauncher at hu
  cases hf : g.from_ with
  | node gr nd => rw [hf] at hu; exact ⟨u, hu, rfl, rfl, fun _ _ h => nomatch h⟩
  | waves => rw [hf] at hu; exact ⟨u, hu, rfl, rfl, fun _ _ h => nomatch h⟩
  | team uid p =>
    rw [hf] at hu
    obtain ⟨v, hv, rfl⟩ := List.mem_map.mp hu
    refine ⟨v, hv, ?_, ?_, ?_⟩
    · split <;> rfl
    · split <;> rfl
    · rintro _ _ ⟨⟩ hid
      split
      · simp
      · next h =>
        rw [if_neg h] at hid
        exact absurd (beq_iff_eq.mpr hid) h

/-- A node's state, once its grid has retired (R284). -/
theorem nodeRetired_now {s u : State} {n k : Nat} {h : Graph} {fatal : Bool} (hu : u.sched.graphs = s.sched.graphs)
    (hn : NodeIs s n k h (nodeState h k)) : NodeNow s (nodeRetired u n k fatal) n k h (.retired fatal) := by
  obtain ⟨hlen, hlt, hg, -, -⟩ := hn
  have hset : (nodeRetired u n k fatal).sched.graphs = s.sched.graphs.set n
      { slotAt s n with graph := (slotAt s n).graph.map fun g => { g with states := g.states.set k (.retired fatal) } } := by
    unfold nodeRetired
    rw [hu]
  unfold NodeNow
  rw [slotAt, hset, List.getD_eq_getElem _ _ (by simpa [hlen] using hlt), List.getElem_set_self, show (slotAt s n).graph = some h from hg]
  rfl

end Sys2Proof.Machine
end

section
/-! SUPPORT. What a commit does to the committed bytes of pages with keys (R209, R215, R325). -/

namespace Sys2Proof.Machine

/-! ### One byte put -/

/-- A sector is cacheable or not as a whole. -/
theorem isCached_congr {a b : Nat} (h : a / 64 = b / 64) : isCached a = isCached b := by
  rw [Bool.eq_iff_iff]
  simp only [isCached, isHbm, isCxl, Bool.or_eq_true, decide_eq_true_eq]
  omega

/-- A byte put under the key of its page where the L2 does not have its sector. -/
theorem commByteK_keyPut {ms : MemSide} (h : Sound ms) (c : Host.Cell) (j : Nat) {k a : Nat} (hr : isRaw a = false) (hc : isCached c.1 = true)
    (hf : l2Find ms (c.1 / 64) = none) (hk : c.1 / 64 = a / 64 → j = k) :
    commByteK { ms with mem := keyPut ms.mem j c.1 c.2 } k a = if a = c.1 then c.2 else commByteK ms k a := by
  by_cases hs : c.1 / 64 = a / 64
  · have hca : isCached a = true := (isCached_congr hs).symm.trans hc
    rw [hs] at hf
    rw [hk hs, commByteK_missed hr hca hf, ← keyGet_keyPut h.1]
    exact commByteK_missed hr hca hf
  · have hg : ∀ m : Memory, m.wf = true → keyGet (keyPut m j c.1 c.2) k a = keyGet m k a ∧ memGet (keyPut m j c.1 c.2) a = memGet m a :=
      fun m hm => ⟨keyGet_keyPut_far hm _ _ _ _ _ (by omega), memGet_keyPut_far hm _ _ _ _ (by omega)⟩
    rw [if_neg (by rintro rfl; exact hs rfl)]
    cases hca : isCached a with
    | false => rw [commByteK_uncached hr hca, commByteK_uncached hr hca, (hg ms.mem h.1).2]
    | true =>
      cases hl : l2Find ms (a / 64) with
      | none =>
        rw [commByteK_missed hr hca hl, ← (hg ms.mem h.1).1]
        exact commByteK_missed hr hca hl
      | some x =>
        rw [commByteK_found hr hca hl]
        exact commByteK_found hr hca hl

/-- A byte put as a commit puts it is read back; every other committed byte stays, under its key. -/
theorem commByteK_putIn {ms : MemSide} (h : Sound ms) (ins : Nat → Ins) (c : Host.Cell) {k a : Nat} (hr : isRaw a = false)
    (hk : c.1 / 64 = a / 64 → (ins (a / 64)).key = k) :
    commByteK (putByte ins ms c) k a = if a = c.1 then c.2 else commByteK ms k a := by
  unfold putByte
  cases hcc : isCached c.1 with
  | false =>
    refine commByteK_setMem h c hr (fun hc => ?_) fun hca he => ?_
    · rw [hcc] at hc; cases hc
    · rw [isCached_congr he, hca] at hcc; cases hcc
  | true =>
    cases hf : l2Find ms (c.1 / 64) with
    | some x => exact commByteK_setSector h c hr hcc (by rw [hf]; rfl)
    | none => exact commByteK_keyPut h c _ hr hcc hf fun he => by rw [he]; exact hk he

/-- After several bytes are put, each is the last one put there, and every other committed byte stays, under its key. -/
theorem commByteK_putsIn {ms : MemSide} (h : Sound ms) (ins : Nat → Ins) (cs : List Host.Cell) {k a : Nat} (hr : isRaw a = false)
    (hk : ∀ c ∈ cs, c.1 / 64 = a / 64 → (ins (a / 64)).key = k) :
    commByteK (cs.foldl (putByte ins) ms) k a = (lastAt cs a).getD (commByteK ms k a) := by
  induction cs generalizing ms with
  | nil => rfl
  | cons c cs ih =>
    rw [List.foldl_cons, ih ((putByte_grows _ ms c).sound h) fun d hd => hk d (List.mem_cons_of_mem _ hd),
      commByteK_putIn h ins c hr (hk c (List.mem_cons_self ..)), lastAt_cons]
    cases lastAt cs a with
    | some b => rfl
    | none => by_cases he : a = c.1 <;> simp [he]

/-! ### A commit -/

/-- A commit whose bytes are of pages with the keys that it names: they are committed, and no other committed byte changes. -/
theorem commByteK_commit {ms : MemSide} (v : L2View) (ins : Nat → Ins) (cs : List Host.Cell) (h : Coherent ms) {k a : Nat} (hr : isRaw a = false)
    (hk : KeyHeld ms k a) (hk' : KeyHeld (commit v ins ms cs) k a) (hins : ∀ c ∈ cs, c.1 / 64 = a / 64 → (ins (a / 64)).key = k) :
    commByteK (commit v ins ms cs) k a = (lastAt cs a).getD (commByteK ms k a) := by
  obtain ⟨hm, hl⟩ := commit_bytes v ins ms cs
  have hmv := fills_moves v ins (sectorsOf cs) h
  have hheld : KeyHeld (cs.foldl (putByte ins) ((sectorsOf cs).foldl (fun ms n => l2Fill v (ins n) ms n) ms)) k a := by
    unfold KeyHeld at hk' ⊢
    rwa [hl] at hk'
  rw [commByteK_congr hm hl, commByteK_putsIn ⟨hmv.coherent.1, fun x hx => (hmv.coherent.2 x hx).1⟩ ins cs hr hins,
    hmv.commByteK h hr hk (keyHeld_putBytes hheld)]

end Sys2Proof.Machine
end

section
/-! SUPPORT. The end of a task (R126, R209, R214). -/

namespace Sys2Proof.Machine

/-- Without a wait at a barrier nobody is released. -/
theorem releaseWaiters_none {s : State} (h : ∀ t ∈ s.teams, ∀ n sc, t.wait ≠ .barrier n sc) : releaseWaiters s = s := by
  have hnone : (s.teams.filter fun t => barrierOver s t && t.stage == .resident) = [] := by
    refine List.filter_eq_nil_iff.mpr fun t ht hb => ?_
    have hover := (Bool.and_eq_true_iff.mp hb).1
    unfold barrierOver at hover
    split at hover
    · next gen sc _ hw _ => exact h t ht gen sc hw
    · cases hover
  unfold releaseWaiters
  rw [hnone]
  rfl

/-- The team in focus changed by what keeps its handle. -/
theorem onTeam_self {s : State} {f : State → State} (h : (f s).team.uid = s.team.uid) : onTeam s s.team.uid f = f s := by
  rw [onTeam_present f ⟨s.team, List.mem_cons_self .., rfl⟩, focus_same rfl, focus_same h]

/-- A team that ends after its last publication, nobody waiting at a barrier: it has ended, the Locus contexts are without it, and memory and
the L2 stay. -/
theorem finishTeam_next {s : State} (h : ∀ u ∈ s.others, ∀ n sc, u.wait ≠ .barrier n sc) :
    (finishTeam s).team = endTeam s.team ∧ (finishTeam s).ms.mem = s.ms.mem ∧ (finishTeam s).ms.l2 = s.ms.l2
      ∧ (finishTeam s).locus = s.locus.filter fun c => c.uid != s.team.uid := by
  unfold finishTeam
  extract_lets t s1
  have hnone : ∀ u ∈ (purge { s1 with locus := s1.locus.filter fun c => c.uid != t.uid }).teams, ∀ n sc, u.wait ≠ .barrier n sc :=
    List.forall_mem_cons.mpr ⟨fun _ _ e => Wait.noConfusion e, h⟩
  rw [releaseWaiters_none hnone]
  exact ⟨rfl, rfl, rfl, rfl⟩

/-- A publication without an error, over a link that can deliver, with version space: the team ends with it (R126). -/
theorem commitPublication_ends {s : State} {pressed : Bool} (hbad : entryBad s = none) (hlost : pubLost s 2 = none)
    (hspace : overSpace s.mgmt.map s.ms (purge (publish s 2)).ms = none) :
    commitPublication s 2 .taskEnd pressed = finishTeam (purge (publish s 2)) := by
  unfold commitPublication
  rw [hbad, hlost]
  dsimp only
  rw [hspace]

/-- A task that may end publishes all that it wrote and ends (R126, R214). -/
theorem taskEnd_next {s : State} (hw : ∀ u ∈ s.others, ∀ n sc, u.wait ≠ .barrier n sc) (hend : mayEnd s s.team = true)
    (hbad : entryBad (s.withTeam (beginPublish s.team)) = none) (hlost : pubLost (s.withTeam (beginPublish s.team)) 2 = none)
    (hspace : overSpace s.mgmt.map s.ms (purge (publish (s.withTeam (beginPublish s.team)) 2)).ms = none) :
    exec (.taskEnd s.team.uid) s = .next (finishTeam (purge (publish (s.withTeam (beginPublish s.team)) 2))) := by
  have hf : (if mayEnd s s.team then commitPublication (s.withTeam (beginPublish s.team)) 2 .taskEnd false else s)
      = finishTeam (purge (publish (s.withTeam (beginPublish s.team)) 2)) := by
    rw [if_pos hend]
    exact commitPublication_ends hbad hlost hspace
  refine congrArg Host.Outcome.next ?_
  have huid : (finishTeam (purge (publish (s.withTeam (beginPublish s.team)) 2))).team.uid = s.team.uid :=
    (congrArg Team.uid (finishTeam_next (s := purge (publish (s.withTeam (beginPublish s.team)) 2)) hw).1).trans rfl
  rw [onTeam_self (by rw [hf, huid])]
  exact hf

/-- A task that may not end goes on. -/
theorem taskEnd_stays {s : State} (hend : mayEnd s s.team = false) : exec (.taskEnd s.team.uid) s = .next s := by
  have hf : (if mayEnd s s.team then commitPublication (s.withTeam (beginPublish s.team)) 2 .taskEnd false else s) = s := by
    rw [hend]
    rfl
  refine congrArg Host.Outcome.next ?_
  rw [onTeam_self (by rw [hf])]
  exact hf

/-- The bytes that a task's end commits (R209, R214). -/
theorem taskEnd_bytes {s : State} {t : State} (hm : t.ms.mem = (publish (s.withTeam (beginPublish s.team)) 2).ms.mem)
    (hl : t.ms.l2 = (publish (s.withTeam (beginPublish s.team)) 2).ms.l2) (hc : Coherent s.ms) {k a : Nat} (hr : isRaw a = false)
    (hk : KeyHeld s.ms k a) (hk' : KeyHeld t.ms k a)
    (hins : ∀ c ∈ goingOut (s.withTeam (beginPublish s.team)) 2, c.1 / 64 = a / 64 → (insIn s.team.ver.ins (a / 64)).key = k) :
    commByteK t.ms k a = (lastAt (goingOut (s.withTeam (beginPublish s.team)) 2) a).getD (commByteK s.ms k a) := by
  have hheld : KeyHeld (publish (s.withTeam (beginPublish s.team)) 2).ms k a := by
    unfold KeyHeld at hk' ⊢
    rwa [hl] at hk'
  rw [commByteK_congr hm hl]
  exact commByteK_commit (l2View (s.withTeam (beginPublish s.team))) (insIn s.team.ver.ins) _ hc hr hk hheld hins

/-- Settles O49: the list, the walk and the clusters by their orders, a placed team by its record, a task's end by the commit of its
publication. -/
theorem placement : Obligations.Placement := by
  refine ⟨waitingOrder, walksInOrder, gangGoes, ?_, ?_, ?_, ?_⟩
  · intro s g n c e seats leaders seat hseat hlanes t
    obtain ⟨spilled, homed, hu⟩ := placeGang_team (s := s) (g := g) (n := n) (c := c) (leaders := leaders) hseat
    obtain ⟨hteam, hms, hgangs⟩ := placeGang_keeps s g n c seats leaders
    exact ⟨_, hu, fresh_of_entry (recLanes_le hlanes) rfl rfl rfl rfl, rfl, rfl, rfl, rfl, rfl, rfl, rfl, rfl, rfl, rfl, rfl, rfl, hteam, hms,
      _, hgangs, rfl, rfl, rfl, rfl, rfl, rfl, rfl, rfl⟩
  · exact fun s grid gang g hg => gangWaitLimit_notes hg
  · intro s hw _ b
    refine ⟨fun hend hbad hlost hspace => ?_, taskEnd_stays⟩
    obtain ⟨hteam, hm, hl, hlocus⟩ := finishTeam_next (s := purge (publish b 2)) hw
    refine ⟨_, taskEnd_next hw hend hbad hlost hspace, ?_⟩
    beta_reduce
    rw [hteam, hlocus]
    refine ⟨rfl, rfl, rfl, rfl, fun hc k a hr hk hk' hins => taskEnd_bytes hm hl hc hr hk hk' hins, fun c hc => ?_⟩
    exact bne_iff_ne.mp (List.mem_filter.mp hc).2
  · intro s id g hg hw
    refine ⟨gridRetire_stays hg, fun hl => ⟨_, gridRetire_next hg hw hl, ?_⟩⟩
    obtain ⟨hgrid, hms, hgangs⟩ := tellLauncher_keeps (withoutGrid s id) g id
    refine ⟨(hgrid id).trans (gridOf_withoutGrid s id), hms, fun u hu hk => ?_, fun x hx => ?_, fun uid p u hf hu huid => ?_, fun n k h hf hn => ?_⟩
    · obtain ⟨v, hv, hkind, hpl, -⟩ := tellLauncher_others hu
      rw [hpl]
      exact others_withoutGrid hv (hkind ▸ hk)
    · rw [hgangs] at hx
      exact gangs_withoutGrid hx
    · obtain ⟨-, -, -, -, hchildren⟩ := tellLauncher_others hu
      exact hchildren uid p hf huid
    · unfold tellLauncher
      rw [hf]
      exact nodeRetired_now rfl hn

end Sys2Proof.Machine
end

section
/-! SUPPORT. A parked team becomes a continuation (R47 to R53, R73). -/

namespace Sys2Proof.Machine

/-! ### A parked team leaves its group -/

theorem loopEnd_wait (pc : DWord) (k : Nat) (t : Team) : (loopEnd pc k t).1.wait = t.wait := by
  induction k generalizing t with
  | zero => rfl
  | succ k ih =>
    unfold loopEnd
    split
    · rfl
    · split
      · dsimp only
        split
        · rfl
        · split
          · split
            exacts [ih _, rfl]
          · rfl
      · rfl

theorem passWait_wait (t : Team) : (passWait t).wait = t.wait := by
  unfold passWait
  split
  · rfl
  · dsimp only
    split <;> exact loopEnd_wait ..

/-- Outside every loop a team that has passed its instruction stands at the next word, its hints used up. -/
theorem passWait_no_loops {t : Team} (hl : t.ctl.loops = []) : (passWait t).rf = t.rf ∧ ∃ pc hints, (passWait t).ctl = { t.ctl with pc := pc, hints := hints }
    ∧ (t.passed = none → pc = t.ctl.pc + 4) := by
  unfold passWait
  split
  · next hp => exact ⟨rfl, t.ctl.pc, t.ctl.hints, rfl, fun e => by rw [e] at hp; cases hp⟩
  · rw [hl]
    exact ⟨rfl, _, none, rfl, fun _ => rfl⟩

/-- A team that parks on TRAPS or on a page fault leaves at its instruction's hint run. -/
theorem leaveGroup_parked {t : Team} {reason : Nat} {detail : Word} (h : parkReason t = some (reason, detail)) (h3 : reason ≠ 3) :
    leaveGroup t = { t with ctl := { t.ctl with pc := resumePc t, hints := none, buffer := [] }, book := { t.book with begun := false } } := by
  unfold parkReason at h
  unfold leaveGroup
  split at h
  · next hw => rw [hw]
  · next hw => rw [hw]
  · split at h
    · exact absurd (congrArg Prod.fst (Option.some.inj h)).symm h3
    · cases h
  · cases h

/-- A team that parks in TWAIT has passed it. -/
theorem leaveGroup_twait {t : Team} {detail : Word} (h : parkReason t = some (3, detail)) :
    leaveGroup t = { passWait t with ctl := { (passWait t).ctl with buffer := [] }, book := { (passWait t).book with begun := false } } := by
  unfold parkReason at h
  unfold leaveGroup
  split at h
  · cases h
  · cases h
  · next hw => rw [hw]
  · cases h

theorem leaveGroup_parked_wait {t : Team} {reason : Nat} {detail : Word} (h : parkReason t = some (reason, detail)) : (leaveGroup t).wait = t.wait := by
  by_cases h3 : reason = 3
  · subst h3
    rw [leaveGroup_twait h]
    exact passWait_wait t
  · rw [leaveGroup_parked h h3]

/-- Where a parked team resumes. -/
theorem leaveGroup_parked_pc {t : Team} {reason : Nat} {detail : Word} (h : parkReason t = some (reason, detail)) :
    (reason ≠ 3 → (leaveGroup t).ctl.pc = resumePc t) ∧ (reason = 3 → t.passed = none → t.ctl.loops = [] → (leaveGroup t).ctl.pc = t.ctl.pc + 4) := by
  refine ⟨fun h3 => by rw [leaveGroup_parked h h3], fun h3 hp hl => ?_⟩
  subst h3
  obtain ⟨-, pc, hints, hctl, hpc⟩ := passWait_no_loops hl
  rw [leaveGroup_twait h, ← hpc hp]
  exact congrArg Control.pc hctl

/-- Unless it has passed the end of a loop's body, a parked team keeps its mask, its stack and its loops. -/
theorem leaveGroup_parked_loops {t : Team} {reason : Nat} {detail : Word} (h : parkReason t = some (reason, detail))
    (h3 : reason ≠ 3 ∨ t.ctl.loops = []) : (leaveGroup t).ctl.mask = t.ctl.mask ∧ (leaveGroup t).ctl.stack = t.ctl.stack
      ∧ (leaveGroup t).ctl.loops = t.ctl.loops ∧ (leaveGroup t).rf.lc = t.rf.lc := by
  by_cases hr : reason = 3
  · subst hr
    obtain ⟨hrf, pc, hints, hctl, -⟩ := passWait_no_loops (h3.resolve_left fun hn => hn rfl)
    rw [leaveGroup_twait h, hctl, hrf]
    exact ⟨rfl, rfl, rfl, rfl⟩
  · rw [leaveGroup_parked h hr]
    exact ⟨rfl, rfl, rfl, rfl⟩

/-- A team that leaves its group keeps its registers but loop counters. -/
theorem LeftGroup.regs {u v : Team} (h : LeftGroup u v) :
    v.rf.v = u.rf.v ∧ v.rf.s = u.rf.s ∧ v.rf.p = u.rf.p ∧ v.rf.fr = u.rf.fr ∧ v.rf.fs = u.rf.fs := by
  rw [h.rf]
  exact ⟨rfl, rfl, rfl, rfl, rfl⟩

/-! ### The continuation -/

/-- The scalars of a continuation: s0 to s7 stay, the others are zero (R48). -/
theorem sget_contTeam {t : Team} (h : t.rf.s.length = 32) (k : Nat) (bound : Bool) (q : Nat) :
    sget (contTeam t k bound) q = if q < 8 then sget t q else 0 := by
  change (t.rf.s.take 8 ++ List.replicate 24 0).getD q 0 = if q < 8 then t.rf.s.getD q 0 else 0
  have hlen : (t.rf.s.take 8).length = 8 := by rw [List.length_take, h]; rfl
  by_cases hq : q < 8
  · rw [if_pos hq, List.getD_append _ _ _ _ (by omega), List.getD_eq_getElem _ _ (by omega), List.getElem_take,
      List.getD_eq_getElem _ _ (by omega)]
  · rw [if_neg hq, List.getD_append_right _ _ _ _ (by omega)]
    exact getD_replicate_zero 0

/-- The team as its continuation's record is written: off its group, with its id, bound to its gang's scratchpad (R47, R51). -/
def leavingTeam (s : State) (t : Team) (reason : Nat) : Team :=
  let u := leaveGroup t
  { u with cont := if reason != 1 then BitVec.ofNat 32 s.sched.nextCont else t.cont,
           pl := { u.pl with gangBound := (match s.gangOf t with | some g => g.scratchLen != 0 | none => false) } }

theorem leavingTeam_left (s : State) (t : Team) (reason : Nat) : LeftGroup t (leavingTeam s t reason) := (leaveGroup_left t).trans ⟨rfl, rfl, rfl, rfl⟩

/-- A parked team that may become a continuation becomes one, in the lowest free pool entry (R47). -/
theorem continuationConvert_next {s : State} {reason k : Nat} {detail : Word} (hr : parkReason s.team = some (reason, detail))
    (hk : freePool s = some k) (hc : convertible s.team = true) : ∃ t, exec (.continuationConvert s.team.uid) s = .next t
      ∧ t.team = contTeam (leavingTeam s s.team reason) k (leavingTeam s s.team reason).pl.gangBound ∧ t.sched.poolUsed = k :: s.sched.poolUsed := by
  have hfind : s.find s.team.uid = some s.team := by simp [State.find, State.teams]
  change ∃ t, execContinuationConvert s.team.uid s = _ ∧ _
  unfold execContinuationConvert
  rw [hfind]
  dsimp only
  rw [hr, hk]
  dsimp only
  rw [if_pos hc]
  exact ⟨_, rfl, if_pos (beq_self_eq_true _), rfl⟩

/-- R47, R48, R51: what the continuation keeps, and what it gives up. -/
theorem continuationConvert_keeps {s : State} {reason k : Nat} {detail : Word} (hr : parkReason s.team = some (reason, detail))
    (hk : freePool s = some k) (hc : convertible s.team = true) : Answers (.continuationConvert s.team.uid) s fun t =>
      t.team.stage = .cont k none ∧ t.team.wait = s.team.wait ∧ t.team.rf.v = s.team.rf.v ∧ t.team.rf.p = s.team.rf.p
      ∧ t.team.rf.fr = s.team.rf.fr ∧ t.team.rf.fs = s.team.rf.fs
      ∧ (Shaped s.team → (∀ q, q < 8 → sget t.team q = sget s.team q) ∧ ∀ q, 8 ≤ q → sget t.team q = 0)
      ∧ (reason ≠ 3 → t.team.ctl.pc = resumePc s.team)
      ∧ (reason = 3 → s.team.passed = none → s.team.ctl.loops = [] → t.team.ctl.pc = nextPc s)
      ∧ (reason ≠ 3 ∨ s.team.ctl.loops = [] → t.team.ctl.mask = s.team.ctl.mask ∧ t.team.ctl.stack = s.team.ctl.stack
        ∧ t.team.ctl.loops = s.team.ctl.loops ∧ t.team.rf.lc = s.team.rf.lc)
      ∧ t.team.ctl.hints = none ∧ t.team.ctl.buffer = [] ∧ t.team.sp.tdl = 0 ∧ t.team.sp.step = 0 ∧ t.team.sp.phase = s.team.sp.phase
      ∧ t.sched.poolUsed = k :: s.sched.poolUsed
      ∧ t.team.cont = (if reason = 1 then s.team.cont else BitVec.ofNat 32 s.sched.nextCont) := by
  obtain ⟨t, ht, hteam, hpool⟩ := continuationConvert_next hr hk hc
  have hleft := leavingTeam_left s s.team reason
  have hphase := congrArg Specials.phase hleft.sp
  obtain ⟨hv, hscalars, hp, hfr, hfs⟩ := hleft.regs
  obtain ⟨hpc, hpc3⟩ := leaveGroup_parked_pc hr
  refine ⟨t, ht, ?_⟩
  beta_reduce
  rw [hteam]
  refine ⟨rfl, leaveGroup_parked_wait hr, hv, hp, hfr, hfs, fun hs => ?_, hpc, hpc3, leaveGroup_parked_loops hr, rfl, rfl,
    rfl, rfl, hphase, hpool, ?_⟩
  · have hget := sget_contTeam (t := leavingTeam s s.team reason) (by rw [hscalars]; exact hs.2.1) k (leavingTeam s s.team reason).pl.gangBound
    refine ⟨fun q hq => ?_, fun q hq => ?_⟩
    · rw [hget, if_pos hq, sget, hscalars]
      rfl
    · rw [hget, if_neg (by omega)]
  · change (if reason != 1 then _ else _) = _
    by_cases h1 : reason = 1 <;> simp [h1]

end Sys2Proof.Machine
end

section
/-! SUPPORT. The keys under which the L2 holds its sectors, as sectors enter and leave (R325), and futures (R406). -/

namespace Sys2Proof.Machine

/-! ### Keys of the L2's sectors -/

/-- The L2 holds no sector under a key that it did not hold before. -/
def KeysIn (ms ms' : MemSide) : Prop := ∀ x ∈ ms'.l2, ∃ y ∈ ms.l2, y.num = x.num ∧ y.key = x.key

theorem KeysIn.refl (ms : MemSide) : KeysIn ms ms := fun x hx => ⟨x, hx, rfl, rfl⟩

theorem KeysIn.trans {a b c : MemSide} (h : KeysIn a b) (k : KeysIn b c) : KeysIn a c := fun x hx =>
  have ⟨y, hy, hn, hk⟩ := k x hx
  have ⟨z, hz, hn', hk'⟩ := h y hy
  ⟨z, hz, hn'.trans hn, hk'.trans hk⟩

theorem KeysIn.foldl {α : Type} {f : MemSide → α → MemSide} (h : ∀ ms x, KeysIn ms (f ms x)) (xs : List α) (ms : MemSide) :
    KeysIn ms (xs.foldl f ms) := by
  induction xs generalizing ms with
  | nil => exact .refl ms
  | cons x xs ih => exact (h ms x).trans (ih _)

/-- Sectors that change, but for their number and key. -/
theorem KeysIn.map {ms ms' : MemSide} (f : Sector → Sector) (hl : ms'.l2 = ms.l2.map f) (hf : ∀ x, (f x).num = x.num ∧ (f x).key = x.key) :
    KeysIn ms ms' := fun x hx => by
  rw [hl] at hx
  obtain ⟨y, hy, rfl⟩ := List.mem_map.mp hx
  exact ⟨y, hy, (hf y).1.symm, (hf y).2.symm⟩

/-- Fewer sectors. -/
theorem KeysIn.filter {ms ms' : MemSide} (p : Sector → Bool) (hl : ms'.l2 = ms.l2.filter p) : KeysIn ms ms' := fun x hx =>
  ⟨x, (List.mem_filter.mp (hl ▸ hx)).1, rfl, rfl⟩

theorem KeysIn.held {ms ms' : MemSide} (h : KeysIn ms ms') {k a : Nat} (hk : KeyHeld ms k a) : KeyHeld ms' k a := fun x hx hn =>
  have ⟨y, hy, hyn, hyk⟩ := h x hx
  hyk ▸ hk y hy (hyn.trans hn)

theorem writeBack_keysIn (v : L2View) (ms : MemSide) (x : Sector) : KeysIn ms (writeBack v ms x) := by
  unfold writeBack
  split
  · exact .map (fun y => if y.num == x.num then { y with dirty := false } else y) rfl fun y => by split <;> exact ⟨rfl, rfl⟩
  · exact .refl ms

theorem dropSector_keysIn (ms : MemSide) (x : Sector) : KeysIn ms (dropSector ms x) := by
  unfold dropSector
  dsimp only
  split <;> exact .filter (fun y => y.num != x.num) rfl

theorem flushSector_keysIn (v : L2View) (ms : MemSide) (x : Sector) : KeysIn ms (flushSector v ms x) := by
  unfold flushSector
  split
  · exact .trans (writeBack_keysIn v ms _) (dropSector_keysIn _ _)
  · exact .refl ms

theorem ageLines_keysIn (ms : MemSide) (lines : List Nat) (n : Nat) : KeysIn ms (ageLines ms lines n) := by
  unfold ageLines
  split
  · exact .refl ms
  · exact .map (fun x => if lines.contains (x.num / 2) then { x with rrpv := min 3 (x.rrpv + n) } else x) rfl fun x => by split <;> exact ⟨rfl, rfl⟩

theorem takeVictim_keysIn {v : L2View} {ms ms' : MemSide} {cs : List Cand} {w : Nat} (h : takeVictim v ms cs = some (w, ms')) :
    KeysIn ms ms' := by
  obtain ⟨x, -, hx⟩ := Option.map_eq_some_iff.mp h
  obtain ⟨-, rfl⟩ := Prod.mk.inj hx
  exact .trans (ageLines_keysIn ms _ _) (.foldl (flushSector_keysIn v) _ _)

theorem makeWay_keysIn {v : L2View} {ms ms' : MemSide} {n w : Nat} (h : makeWay v ms n = some (w, ms')) : KeysIn ms ms' := by
  unfold makeWay at h
  dsimp only at h
  split at h
  · exact takeVictim_keysIn h
  · split at h
    · obtain ⟨-, rfl⟩ := Prod.mk.inj (Option.some.inj h)
      exact .refl _
    · exact takeVictim_keysIn h

/-- A sector that enters under the key of its page: an address's key stays. -/
theorem freshSector_held {ms : MemSide} {n place way rrpv j k a : Nat} (hk : KeyHeld ms k a) (hj : n = a / 64 → j = k) :
    KeyHeld { ms with l2 := freshSector ms n place way rrpv j :: ms.l2 } k a := by
  intro x hx hn
  rcases List.mem_cons.mp hx with rfl | hx
  exacts [hj hn, hk x hx hn]

theorem l2Fill_held (v : L2View) {i : Ins} {ms : MemSide} {n k a : Nat} (hk : KeyHeld ms k a) (hi : n = a / 64 → i.key = k) :
    KeyHeld (l2Fill v i ms n) k a := by
  unfold l2Fill
  split
  · exact hk
  · split
    · exact hk
    · split
      · exact freshSector_held hk hi
      · split
        · exact hk
        · next hw => exact freshSector_held ((makeWay_keysIn hw).held hk) hi

/-- Sectors filled in order, each under the key of its page. -/
theorem fills_held (v : L2View) {ins : Nat → Ins} {k a : Nat} (hi : (ins (a / 64)).key = k) (ns : List Nat) {ms : MemSide} (hk : KeyHeld ms k a) :
    KeyHeld (ns.foldl (fun ms n => l2Fill v (ins n) ms n) ms) k a := by
  induction ns generalizing ms with
  | nil => exact hk
  | cons n ns ih => exact ih (l2Fill_held v hk fun h => h ▸ hi)

theorem putByte_keysIn (ins : Nat → Ins) (ms : MemSide) (c : Host.Cell) : KeysIn ms (putByte ins ms c) := by
  unfold putByte
  split
  · split
    · exact .map (fun x => if x.num == c.1 / 64 then { x with dirty := true, data := x.data.set (c.1 % 64) c.2 } else x) rfl
        fun x => by split <;> exact ⟨rfl, rfl⟩
    · exact .refl ms
  · exact .refl ms

/-- A commit under the key of an address's page keeps that key. -/
theorem commit_held (v : L2View) {ins : Nat → Ins} {ms : MemSide} (cs : List Host.Cell) {k a : Nat} (hi : (ins (a / 64)).key = k)
    (hk : KeyHeld ms k a) : KeyHeld (commit v ins ms cs) k a := by
  have h := (KeysIn.foldl (putByte_keysIn ins) cs _).held (fills_held v hi (sectorsOf cs) hk)
  unfold KeyHeld
  rw [(commit_bytes v ins ms cs).2]
  exact h

/-! ### Futures (R406) -/

/-- A write of a byte outside the raw aperture is a commit, as far as memory and the L2 go. -/
theorem immediateAs_one (s : State) (ins : Nat → Ins) {a : Nat} {b : Byte} (hr : isRaw a = false) :
    (immediateAs s ins [(a, b)]).ms.mem = (commit (l2View s) ins s.ms [(a, b)]).mem
      ∧ (immediateAs s ins [(a, b)]).ms.l2 = (commit (l2View s) ins s.ms [(a, b)]).l2 := by
  have h1 : [(a, b)].filter (fun c : Host.Cell => !isRaw c.1) = [(a, b)] := by simp [hr]
  have h2 : [(a, b)].filter (fun c : Host.Cell => isRaw c.1) = [] := by simp [hr]
  unfold immediateAs commitAll
  rw [h1, h2]
  exact ⟨rfl, rfl⟩

/-- A future set free: its state is zero, and no other committed byte changes. -/
theorem setFuture_frees {s : State} {core asid pa : Nat} {va : DWord} (hc : Coherent s.ms) (hr : isRaw pa = false)
    (hk : KeyHeld s.ms (keyOf s core asid va) pa) : let u := setFuture s core asid va pa 0
    commByteK u.ms (keyOf s core asid va) pa = commByteK s.ms (keyOf s core asid va) pa &&& 0xFC
      ∧ ∀ k a, isRaw a = false → KeyHeld s.ms k a → KeyHeld u.ms k a → a ≠ pa → (a / 64 = pa / 64 → k = keyOf s core asid va) →
        commByteK u.ms k a = commByteK s.ms k a := by
  intro u
  generalize hkey : keyOf s core asid va = key at hk
  let cell : Host.Cell := (pa, (commByteK s.ms key pa &&& 0xFC) ||| BitVec.ofNat 8 0)
  let ins : Nat → Ins := fun _ => ⟨0, false, key⟩
  have hu : u = immediateAs s ins [cell] := by
    unfold u setFuture
    rw [hkey]
  obtain ⟨hm, hl⟩ := immediateAs_one s ins (b := cell.2) hr
  have hput : ∀ k a, isRaw a = false → KeyHeld s.ms k a → KeyHeld (commit (l2View s) ins s.ms [cell]) k a → (pa / 64 = a / 64 → key = k) →
      commByteK u.ms k a = (lastAt [cell] a).getD (commByteK s.ms k a) := fun k a hra hka hka' hins => by
    rw [hu, commByteK_congr hm hl]
    exact commByteK_commit (l2View s) ins [cell] hc hra hka hka' fun c hc => List.mem_singleton.mp hc ▸ hins
  refine ⟨?_, fun k a hra hka hka' hne hins => ?_⟩
  · rw [hput key pa hr hk (commit_held _ _ rfl hk) fun _ => rfl]
    simp [lastAt_cons, cell]
  · rw [hput k a hra hka (fun x hx => hka' x (by rw [hu]; exact hl ▸ hx)) fun he => (hins he.symm).symm]
    simp [lastAt_cons, cell, hne]

/-- The team in focus once its future is resolved or refused: a refused one leaves it a pending trap (R406). -/
def wakeOf (s : State) (va : DWord) (pa : Nat) (refused : Trap) : State :=
  let s1 := unpark (setFuture s s.team.pl.core s.team.pl.asid va pa 0)
  if (commByteK s.ms (keyOf s s.team.pl.core s.team.pl.asid va) pa).toNat % 4 = 3 then
    s1.withTeam { s1.team with pending := s1.team.pending ++ [refused] }
  else s1

/-- What a team that goes on keeps, on its group. -/
theorem wakeOf_resident {s : State} {va : DWord} {pa : Nat} {refused : Trap} (hs : s.team.stage = .resident) :
    (wakeOf s va pa refused).ms = (setFuture s s.team.pl.core s.team.pl.asid va pa 0).ms
      ∧ (wakeOf s va pa refused).team = { s.team with
          wait := .ready, ctl := { s.team.ctl with buffer := [] },
          pending := if (commByteK s.ms (keyOf s s.team.pl.core s.team.pl.asid va) pa).toNat % 4 = 3 then s.team.pending ++ [refused]
            else s.team.pending } := by
  have hun : unpark (setFuture s s.team.pl.core s.team.pl.asid va pa 0)
      = (setFuture s s.team.pl.core s.team.pl.asid va pa 0).withTeam { s.team with wait := .ready, ctl := { s.team.ctl with buffer := [] } } := by
    unfold unpark
    rw [show (setFuture s s.team.pl.core s.team.pl.asid va pa 0).team = s.team from rfl]
    dsimp only
    rw [hs]
  unfold wakeOf
  dsimp only
  rw [hun]
  split <;> exact ⟨rfl, rfl⟩

/-- A continuation that goes on is queued (R406, R437). -/
theorem wakeOf_cont {s : State} {va : DWord} {pa k : Nat} {refused : Trap} (hs : s.team.stage = .cont k none) :
    (wakeOf s va pa refused).team.wait = .ready ∧ (wakeOf s va pa refused).team.uid = s.team.uid
      ∧ (∃ q, (wakeOf s va pa refused).team.stage = .cont k (some q) ∧ q.since = s.cycle ∧ q.place = s.sched.nextPlace ∧ q.anywhere = false)
      ∧ (wakeOf s va pa refused).sched.nextPlace = s.sched.nextPlace + 1 := by
  have hun : unpark (setFuture s s.team.pl.core s.team.pl.asid va pa 0)
      = queueCont ((setFuture s s.team.pl.core s.team.pl.asid va pa 0).withTeam { s.team with wait := .ready, ctl := { s.team.ctl with buffer := [] } }) k := by
    unfold unpark
    rw [show (setFuture s s.team.pl.core s.team.pl.asid va pa 0).team = s.team from rfl]
    dsimp only
    rw [hs]
  unfold wakeOf
  dsimp only
  rw [hun]
  split <;> exact ⟨rfl, rfl, ⟨_, rfl, rfl, rfl, rfl⟩, rfl⟩

/-- FUTURE_WAKE once the pager has answered (R406). -/
theorem futureWake_next {s : State} {va : DWord} {pa : Nat} {refused : Trap} (hw : s.team.wait = .fault va pa refused) (hs : s.team.stage ≠ .ended)
    (hb : 2 ≤ (commByteK s.ms (keyOf s s.team.pl.core s.team.pl.asid va) pa).toNat % 4) (huid : (wakeOf s va pa refused).team.uid = s.team.uid) :
    exec (.futureWake s.team.uid) s = .next (wakeOf s va pa refused) := by
  refine congrArg Host.Outcome.next ?_
  have hcond : ¬(s.team.stage = .ended ∨ (commByteK s.ms (keyOf s s.team.pl.core s.team.pl.asid va) pa).toNat % 4 < 2) := by
    rintro (h | h)
    exacts [hs h, by omega]
  rw [onTeam_present _ ⟨s.team, List.mem_cons_self .., rfl⟩, focus_same rfl, hw]
  dsimp only
  rw [if_neg hcond]
  exact focus_same huid

/-- FUTURE_WAKE before that. -/
theorem futureWake_early {s : State} {va : DWord} {pa : Nat} {refused : Trap} (hw : s.team.wait = .fault va pa refused)
    (hb : (commByteK s.ms (keyOf s s.team.pl.core s.team.pl.asid va) pa).toNat % 4 < 2) : exec (.futureWake s.team.uid) s = .next s := by
  refine congrArg Host.Outcome.next ?_
  rw [onTeam_present _ ⟨s.team, List.mem_cons_self .., rfl⟩, focus_same rfl, hw]
  dsimp only
  rw [if_pos (.inr hb)]
  exact focus_same rfl

end Sys2Proof.Machine
end

section
/-! SUPPORT. Continuations in their queues, their records read back, and what falls due for a team (R43, R48 to R53, R70, R299, R304). -/

namespace Sys2Proof.Machine

/-! ### Routes and queues (R49, R299) -/

/-- R49 and R299. -/
theorem routesContinuations : RoutesContinuations := by
  intro s t va far leaf
  have hhome : t.pl.gangBound = true → Machine.targetOf s t = clusterOf t.pl.core := fun hb => by
    unfold Machine.targetOf
    rw [hb]
    rfl
  have hfree : t.pl.gangBound = false → Machine.targetOf s t = if canonical va then
      match leaf with
      | .ok l => if isHbm (l.pa va.toNat) then nearCluster (channelOf s.mgmt.map (l.pa va.toNat)) else far
      | .error _ => far
      else far := fun hb => by
    unfold Machine.targetOf
    rw [hb]
    rfl
  refine ⟨hhome, fun hb => ⟨fun l hcan hl hhbm => ?_, fun h => ?_⟩⟩
  · rw [hfree hb, hcan, hl]
    exact if_pos hhbm
  · rw [hfree hb]
    rcases h with hcan | hout
    · rw [hcan]
      rfl
    · cases hl : leaf with
      | error e => exact ite_self _
      | ok l =>
        dsimp only
        rw [hout l hl]
        exact ite_self _

/-- Which continuations stand before one in the queue of its cluster. -/
theorem queuedBefore_iff {u t : Team} {k : Nat} {q : Queued} (ht : t.stage = .cont k (some q)) : queuedBefore u t = true ↔
    ∃ j p, u.stage = .cont j (some p) ∧ p.target = q.target ∧ (t.pl.prio < u.pl.prio ∨ (u.pl.prio = t.pl.prio ∧ p.place < q.place)) := by
  unfold queuedBefore
  rw [ht]
  split
  · next j p k' q' hu hq =>
    obtain ⟨-, hq⟩ := Stage.cont.inj hq
    obtain rfl := Option.some.inj hq
    refine ⟨fun h => ⟨j, p, hu, by simpa using h⟩, ?_⟩
    rintro ⟨j', p', hu', h⟩
    obtain ⟨-, hp⟩ := Stage.cont.inj (hu.symm.trans hu')
    obtain rfl := Option.some.inj hp
    simpa using h
  · next hno => exact ⟨fun h => Bool.noConfusion h, fun ⟨j, p, hu, _⟩ => (hno j p k q hu rfl).elim⟩

/-- A continuation in the queue: what stands before it, and where it may resume, decide (R49, R299). -/
theorem continuationResume_eq {s : State} {cont k : Nat} {t : Team} {q : Queued} (hf : findCont s cont = some t) (ht : t.stage = .cont k (some q)) :
    exec (.continuationResume cont) s = if !q.anywhere && s.teams.any (fun u => queuedBefore u t) then .next s
      else match (resumeClusters s t q.target q.anywhere).findSome? fun c => fitTeam s (residents s) t c with
        | none => .next s
        | some seat => .next (enterRecord (seatTeam { s with sched := { s.sched with poolUsed := s.sched.poolUsed.filter fun x => x != k } } t.uid seat)
            t.uid (fun u => loadRecord s u k) (BitVec.ofNat 64 (poolPa s k))) := by
  change execContinuationResume cont s = _
  unfold execContinuationResume
  rw [hf]
  dsimp only
  rw [ht] <;> rfl

/-- The first of its queue resumes on the seat that is found. -/
theorem continuationResume_first {s : State} {cont k : Nat} {t : Team} {q : Queued} {seat : Seat} (hf : findCont s cont = some t)
    (ht : t.stage = .cont k (some q))
    (hfirst : q.anywhere = false → ∀ u ∈ s.teams, ∀ j p, u.stage = .cont j (some p) → p.target = q.target →
      u.pl.prio < t.pl.prio ∨ (u.pl.prio = t.pl.prio ∧ q.place ≤ p.place))
    (hseat : (resumeClusters s t q.target q.anywhere).findSome? (fun c => fitTeam s (residents s) t c) = some seat) :
    exec (.continuationResume cont) s = .next (enterRecord (seatTeam { s with sched := { s.sched with
      poolUsed := s.sched.poolUsed.filter fun x => x != k } } t.uid seat) t.uid (fun u => loadRecord s u k) (BitVec.ofNat 64 (poolPa s k))) := by
  have hno : ¬(!q.anywhere && s.teams.any fun u => queuedBefore u t) = true := by
    rw [Bool.and_eq_true, Bool.not_eq_true', List.any_eq_true]
    rintro ⟨ha, u, hu, hb⟩
    obtain ⟨j, p, hstage, htarget, hbefore⟩ := (queuedBefore_iff ht).mp hb
    have := hfirst ha u hu j p hstage htarget
    omega
  rw [continuationResume_eq hf ht, if_neg hno, hseat]

/-- Behind another of its queue a continuation stays. -/
theorem continuationResume_behind {s : State} {cont k : Nat} {t u : Team} {q p : Queued} {j : Nat} (hf : findCont s cont = some t)
    (ht : t.stage = .cont k (some q)) (ha : q.anywhere = false) (hu : u ∈ s.teams) (hstage : u.stage = .cont j (some p))
    (htarget : p.target = q.target) (hbefore : t.pl.prio < u.pl.prio ∨ (u.pl.prio = t.pl.prio ∧ p.place < q.place)) :
    exec (.continuationResume cont) s = .next s := by
  have hyes : (!q.anywhere && s.teams.any fun u => queuedBefore u t) = true := by
    rw [Bool.and_eq_true, Bool.not_eq_true', List.any_eq_true]
    exact ⟨ha, u, hu, (queuedBefore_iff ht).mpr ⟨j, p, hstage, htarget, hbefore⟩⟩
  rw [continuationResume_eq hf ht, if_pos hyes]

/-- After the time limit, and not before it, any cluster may take a continuation that is not bound to its gang (R299). -/
theorem continuationTargetTimeout_eq {s : State} {cont k : Nat} {t : Team} {q : Queued} (hf : findCont s cont = some t)
    (ht : t.stage = .cont k (some q)) : let due := 65536 ≤ (s.cycle - q.since).toNat ∧ t.pl.gangBound = false
    (due → exec (.continuationTargetTimeout cont) s = .next (s.modTeam t.uid fun t => { t with stage := .cont k (some { q with anywhere := true }) }))
    ∧ (¬due → exec (.continuationTargetTimeout cont) s = .next s) := by
  intro due
  have hdue : due ↔ targetTicks ≤ (s.cycle - q.since).toNat ∧ (!t.pl.gangBound) = true := by
    rw [Bool.not_eq_true']
    exact Iff.rfl
  change (due → execContinuationTargetTimeout cont s = _) ∧ (¬due → execContinuationTargetTimeout cont s = _)
  unfold execContinuationTargetTimeout
  rw [hf]
  dsimp only
  rw [ht]
  exact ⟨fun h => if_pos (hdue.mp h), fun h => if_neg (mt hdue.mpr h)⟩

/-! ### Records read back (R48, R53) -/

theorem fillDst_uid (t : Team) (d : Dst) : (fillDst t d).uid = t.uid := by
  unfold fillDst
  split
  · rfl
  · rw [markVs_eq, setVs_eq]
  · rfl
  · rfl

theorem settleLate_uid (t : Team) : (settleLate t).uid = t.uid := by
  unfold settleLate
  split
  exacts [fillDst_uid .., rfl]

/-- A team that has been seated takes what its record holds. -/
theorem enterRecord_takes {s : State} {load : Team → Option Team} {va : DWord} {u : Team} (hu : load s.team = some u) (huid : u.uid = s.team.uid) :
    enterRecord s s.team.uid load va = s.withTeam (settleLate u) := by
  unfold enterRecord
  rw [onTeam_present _ ⟨s.team, List.mem_cons_self .., rfl⟩, focus_same rfl, hu]
  exact focus_same ((settleLate_uid u).trans huid)

/-- One whose record is ill-formed meets a fatal trap (log 91). -/
theorem enterRecord_fatal {s : State} {load : Team → Option Team} {va : DWord} (hu : load s.team = none) :
    enterRecord s s.team.uid load va = (fatalTrap s (trap12 s.team 4 va) s.team.ctl.pc).focus s.team.uid := by
  unfold enterRecord
  rw [onTeam_present _ ⟨s.team, List.mem_cons_self .., rfl⟩, focus_same rfl, hu]

/-- A well-formed record of the team's own size loads. -/
theorem loadRecord_some {s : State} {t : Team} {k : Nat} {r : Saved}
    (hr : readSaved (commBytes s.ms (poolPa s k) (0xA00 + 4 * t.rf.n * t.rf.nv)) false = some r) (hn : r.n = t.rf.n) (hv : r.nv = t.rf.nv) :
    loadRecord s t k = some (applySaved t r) := by
  unfold loadRecord
  rw [hr]
  exact if_pos ⟨hn, hv⟩

/-- The team in focus on a seat. -/
theorem seatTeam_self (s : State) (seat : Seat) : ∃ locus, (seatTeam s s.team.uid seat).team = { s.team with
    stage := .resident, pl := { s.team.pl with core := seat.core, group := seat.group, slot := seat.slot, placed := s.cycle },
    locus := locus, book := { s.team.book with lastIssue := residentSince s, yieldTo := [], spaceUntil := 0 } } :=
  ⟨_, if_pos (beq_self_eq_true _)⟩

/-! ### Boosts, yields and spaces (R43, R70, R304) -/

/-- A change of the team with the handle of the one in focus is a change of that team alone, where no other has its handle. -/
theorem modTeam_self {s : State} (h : ∀ u ∈ s.others, u.uid ≠ s.team.uid) (f : Team → Team) : s.modTeam s.team.uid f = { s with team := f s.team } := by
  have hothers : s.others.map (fun t => if t.uid == s.team.uid then f t else t) = s.others :=
    (List.map_congr_left (g := id) fun u hu => if_neg (by simpa using h u hu)).trans (List.map_id _)
  unfold State.modTeam State.mapTeams
  rw [hothers]
  beta_reduce
  rw [if_pos (beq_self_eq_true _)]

/-- What falls due for a team's bookkeeping, and what does not. -/
theorem modTeam_book {s : State} (h : ∀ u ∈ s.others, u.uid ≠ s.team.uid) (p : Team → Prop) [DecidablePred p] (f : IssueBook → IssueBook) :
    s.modTeam s.team.uid (fun t => if p t then { t with book := f t.book } else t)
      = if p s.team then { s with team := { s.team with book := f s.team.book } } else s := by
  rw [modTeam_self h]
  split <;> rfl

theorem yieldTimeout_early {s : State} (h : yieldOver s s.team = false) : exec (.yieldTimeout s.team.uid) s = .next s := by
  refine congrArg Host.Outcome.next ?_
  rw [onTeam_present _ ⟨s.team, List.mem_cons_self .., rfl⟩, focus_same rfl, h]
  exact focus_same rfl

/-- Settles O50: each event by the one case of it that the state selects. -/
theorem continuations : Obligations.Continuations := by
  refine ⟨fun s reason k detail hr hk hc _ => continuationConvert_keeps hr hk hc, routesContinuations, fun s cont k t q hf ht => ?_,
    fun s t k r hr hn hv => ⟨_, loadRecord_some hr hn hv, rfl, rfl, rfl, rfl, rfl, rfl, rfl, rfl, rfl, rfl, rfl, rfl⟩,
    fun s load va => ⟨fun u hu huid => enterRecord_takes hu huid, enterRecord_fatal⟩, fun s seat => ?_, ?_, ?_, ?_⟩
  · refine ⟨fun seat hfirst hseat => continuationResume_first hf ht hfirst hseat, ?_, continuationTargetTimeout_eq hf ht⟩
    rintro ⟨ha, u, hu, j, p, hstage, htarget, hbefore⟩
    exact continuationResume_behind hf ht ha hu hstage htarget hbefore
  · obtain ⟨locus, hteam⟩ := seatTeam_self s seat
    intro t
    rw [show t.team = _ from hteam]
    exact ⟨rfl, rfl, rfl, rfl, rfl, rfl, rfl, rfl, rfl, rfl, rfl⟩
  · intro s va pa refused k hw hs hb
    obtain ⟨hready, huid, hqueued, hplace⟩ := wakeOf_cont (va := va) (pa := pa) (refused := refused) hs
    exact ⟨_, futureWake_next hw (by rw [hs]; exact nofun) hb huid, hready, hqueued, hplace⟩
  · intro s va pa refused hw hs key b
    obtain ⟨hms, hteam⟩ := wakeOf_resident (va := va) (pa := pa) (refused := refused) hs
    refine ⟨futureWake_early hw, fun hb => ⟨_, futureWake_next hw (by rw [hs]; exact nofun) hb (by rw [hteam]), ?_⟩⟩
    beta_reduce
    rw [hteam, hms]
    exact ⟨rfl, rfl, rfl, rfl, fun hc hr hk => setFuture_frees hc hr hk⟩
  · intro s h set b
    refine ⟨?_, yieldTimeout_early, ?_⟩
    · exact (congrArg Host.Outcome.next (modTeam_book h (fun t => 4096 ≤ t.book.readyCount) fun b => { b with boosted := true })).trans (apply_ite ..)
    · exact (congrArg Host.Outcome.next (modTeam_book h (fun t => t.book.spaceUntil ≤ s.arith) fun b => { b with spaceUntil := 0 })).trans (apply_ite ..)

end Sys2Proof.Machine
end

section
/-! SUPPORT. The device's clock (R26, R101) and its management side. -/

namespace Sys2Proof.Machine

/-- What no word and no end of a cycle changes: `%cycle`, the arithmetic clock with the part of a cycle it has carried, and the
management side, which holds the clock's frequency. -/
structure Clock where
  cycle : DWord
  arith : Nat
  frac : Nat
  mgmt : Mgmt

/-- The clock of a machine. -/
def State.clock (s : State) : Clock := ⟨s.cycle, s.arith, s.frac, s.mgmt⟩

/-- A result that leaves the clock at `c`. -/
inductive Result.At (c : Clock) : Result → Prop where
  | next {u : State} (h : u.clock = c) : At c (.next u)
  | wait {w : Why} : At c (.wait w)
  | trap {tr : Trap} : At c (.trap tr)

/-- An outcome that leaves the clock at `c`. -/
inductive OutAt (c : Clock) : Host.Outcome State Fault Refusal → Prop where
  | next {u : State} (h : u.clock = c) : OutAt c (.next u)
  | fault {f : Fault} : OutAt c (.fault f)
  | refused {r : Refusal} : OutAt c (.refused r)

@[simp] theorem clock_mk (agenda free cycle arith frac issued team others ms l1 gangs sched gens vx res marl locus locusErr served host mgmt strat
    upsets) :
    State.clock ⟨agenda, free, cycle, arith, frac, issued, team, others, ms, l1, gangs, sched, gens, vx, res, marl, locus, locusErr, served, host,
      mgmt, strat, upsets⟩ = ⟨cycle, arith, frac, mgmt⟩ := rfl

@[simp] theorem clock_eta (s : State) : (⟨s.cycle, s.arith, s.frac, s.mgmt⟩ : Clock) = s.clock := rfl

theorem clock_team (s : State) (t : Team) : ({ s with team := t } : State).clock = s.clock := rfl

theorem at_of_clock {u v : State} {r : Result} (h : v.clock = u.clock) (hr : Result.At v.clock r) : Result.At u.clock r := h ▸ hr

@[simp] theorem at_next {c : Clock} {u : State} : Result.At c (.next u) ↔ u.clock = c := ⟨fun h => by cases h; assumption, .next⟩

@[simp] theorem at_wait {c : Clock} {w : Why} : Result.At c (.wait w) := .wait

@[simp] theorem at_trap {c : Clock} {tr : Trap} : Result.At c (.trap tr) := .trap

@[simp] theorem outAt_next {c : Clock} {u : State} : OutAt c (.next u) ↔ u.clock = c := ⟨fun h => by cases h; assumption, .next⟩

@[simp] theorem clock_ite {p : Prop} [Decidable p] {a b : State} : (if p then a else b).clock = if p then a.clock else b.clock := apply_ite _ _ _ _

@[simp] theorem at_ite {c : Clock} {p : Prop} [Decidable p] {a b : Result} :
    Result.At c (if p then a else b) ↔ if p then Result.At c a else Result.At c b := by split <;> rfl

/-- A fold of steps that each keep the clock keeps it. -/
@[simp] theorem foldl_clock {α : Type} {f : State → α → State} (hf : ∀ u x, (f u x).clock = u.clock) (xs : List α) (s : State) :
    (xs.foldl f s).clock = s.clock := by
  induction xs generalizing s with
  | nil => rfl
  | cons x xs ih => exact (ih _).trans (hf s x)

end Sys2Proof.Machine
end

section
/-! SUPPORT. No word changes the clock: one lemma per function that a word's meaning uses, in the order of the model. -/

namespace Sys2Proof.Machine

/-! ### The state, memory and logs -/

@[simp] theorem withTeam_clock (s : State) (t : Team) : (s.withTeam t).clock = s.clock := by rfl

@[simp] theorem mapTeams_clock (s : State) (f : Team → Team) : (s.mapTeams f).clock = s.clock := by rfl

@[simp] theorem modTeam_clock (s : State) (uid : Nat) (f : Team → Team) : (s.modTeam uid f).clock = s.clock := by rfl

@[simp] theorem focus_clock (s : State) (uid : Nat) : (s.focus uid).clock = s.clock := by
  rw [focus_frame]
  rfl

@[simp] theorem modGang_clock (s : State) (grid idx : Nat) (f : Gang → Gang) : (s.modGang grid idx f).clock = s.clock := by rfl

@[simp] theorem settleWays_clock (s : State) : (settleWays s).clock = s.clock := by rfl

@[simp] theorem purge_clock (s : State) : (purge s).clock = s.clock := by rfl

@[simp] theorem immediateAs_clock (s : State) (ins : Nat → Ins) (cells : List Host.Cell) :
    (immediateAs s ins cells).clock = s.clock := by rfl

@[simp] theorem immediate_clock (s : State) (cells : List Host.Cell) : (immediate s cells).clock = s.clock := by rfl

@[simp] theorem homeWrite_clock (s : State) (home key : Nat) (cells : List Host.Cell) : (homeWrite s home key cells).clock = s.clock := by
  unfold homeWrite
  dsimp only
  split <;> simp

@[simp] theorem logEvent_clock (s : State) (kind src : Nat) (payload : List Byte) : (logEvent s kind src payload).clock = s.clock := by rfl

@[simp] theorem recordEvent_clock (s : State) (x : LogItem) : (recordEvent s x).clock = s.clock := by
  rw [recordEvent_frame]
  rfl

@[simp] theorem correctGranules_clock (s : State) (gs : List Nat) : (correctGranules s gs).clock = s.clock :=
  foldl_clock (fun _ _ => logEvent_clock ..) _ _

@[simp] theorem countSoft_clock (s : State) : (countSoft s).clock = s.clock := foldl_clock (fun _ _ => logEvent_clock ..) _ _

@[simp] theorem closeCycle_clock (s : State) : (closeCycle s).clock = s.clock :=
  (foldl_clock (fun _ _ => recordEvent_clock ..) _ { countSoft s with host := { (countSoft s).host with events := [] } }).trans (countSoft_clock s)

@[simp] theorem eccReport_clock (s : State) (pa : Nat) : (eccReport s pa).clock = s.clock := by rfl

/-! ### Traps and the end of teams -/

@[simp] theorem sweepGangs_clock (s : State) : (sweepGangs s).clock = s.clock := by rfl

@[simp] theorem killGrid_clock (s : State) (id : Nat) : (killGrid s id).clock = s.clock := by rfl

@[simp] theorem fatalTrap_clock (s : State) (tr : Trap) (pc : DWord) : (fatalTrap s tr pc).clock = s.clock := by rfl

@[simp] theorem deliver_clock (s : State) (tr : Trap) (resume : DWord) (k : Nat) : (deliver s tr resume k).clock = s.clock := by rfl

@[simp] theorem modHome_clock (s : State) (h : Nat) (f : Home → Home) : (modHome s h f).clock = s.clock := by rfl

@[simp] theorem replyTo_clock (s : State) (q : VReq) (words : List Word) : (replyTo s q words).clock = s.clock := by rfl

@[simp] theorem leaveHandler_clock (s : State) : (leaveHandler s).clock = s.clock := by
  unfold leaveHandler
  dsimp only
  split <;> simp

@[simp] theorem resetWave_clock (s : State) : (resetWave s).clock = s.clock := by simp [resetWave]

@[simp] theorem methodFault_clock (s : State) (tr : Trap) (h : Nat) (b : VBatch) : (methodFault s tr h b).clock = s.clock :=
  (resetWave_clock _).trans (foldl_clock (fun _ _ => replyTo_clock ..) _ s)

@[simp] theorem stopHome_clock (s : State) (h : Nat) : (stopHome s h).clock = s.clock := by simp [stopHome]

@[simp] theorem waveTrap_clock (s : State) (tr : Trap) (resume : DWord) : (waveTrap s tr resume).clock = s.clock := by
  unfold waveTrap
  split
  · split
    · split <;> simp
    · rfl
  · dsimp only
    split <;> simp

@[simp] theorem stratumFault_clock (s : State) (reason : Nat) : (stratumFault s reason).clock = s.clock := by
  unfold stratumFault
  dsimp only
  split <;> rfl

@[simp] theorem takeTrap_clock (s : State) (tr : Trap) (resume : DWord) : (takeTrap s tr resume).clock = s.clock := by
  unfold takeTrap
  split
  · exact stratumFault_clock ..
  · exact waveTrap_clock ..
  · split
    · split
      · exact deliver_clock ..
      · exact fatalTrap_clock ..
    · exact fatalTrap_clock ..

@[simp] theorem trapBefore_clock (s : State) (tr : Trap) : (trapBefore s tr).clock = s.clock := by simp [trapBefore]

/-! ### Retirement and issue -/

@[simp] theorem retireToStep_clock (st : Bool) (s : State) (pc : DWord) (after : Option Trap) :
    (retireToStep st s pc after).clock = s.clock := by
  unfold retireToStep
  dsimp only
  split <;> simp

@[simp] theorem retireTo_clock (s : State) (pc : DWord) (after : Option Trap) : (retireTo s pc after).clock = s.clock := by simp [retireTo]

@[simp] theorem retireWithStep_clock (st : Bool) (s : State) (after : Option Trap) : (retireWithStep st s after).clock = s.clock := by
  unfold retireWithStep
  dsimp only
  split
  · exact takeTrap_clock ..
  · exact retireToStep_clock ..

@[simp] theorem retireWith_clock (s : State) (after : Option Trap) : (retireWith s after).clock = s.clock := by simp [retireWith]

@[simp] theorem retire_clock (s : State) : (retire s).clock = s.clock := retireWith_clock ..

/-- A write to the team in focus, then retirement. -/
theorem retires_clock (s : State) (t : Team) : Result.At s.clock (.next (retire (s.withTeam t))) := .next (retire_clock _)

/-- Retirement alone. -/
theorem retired_clock (s : State) : Result.At s.clock (.next (retire s)) := .next (retire_clock s)

@[simp] theorem retireReport_clock (s : State) (r : State × Option Trap) (h : r.1.clock = s.clock) : (retireReport s r).clock = s.clock := by
  unfold retireReport
  simp [h]

@[simp] theorem endWait_clock (s : State) : (endWait s).clock = s.clock := by simp [endWait]

/-- The checks before an instruction never change the machine. -/
theorem gate_ne_next {s s' : State} {i : Instr} : gate s i ≠ some (.next s') := by
  unfold gate
  dsimp only
  split
  · nofun
  · split
    · nofun
    · split
      · nofun
      · split
        · nofun
        · split
          · nofun
          · split
            · nofun
            · split
              · nofun
              · split <;> nofun

@[simp] theorem noteIssue_clock (s : State) : (noteIssue s).clock = s.clock := by rfl

@[simp] theorem hold_clock (s : State) (why : Why) : (hold s why).clock = s.clock := by rfl

theorem issue_clock {i : Instr} {s : State} {effect : State → Result} (he : ∀ u, Result.At u.clock (effect u)) :
    OutAt s.clock (issue i s effect) := by
  have hi := he (noteIssue s)
  unfold issue
  split
  · simp
  · simp
  · next h => exact absurd h gate_ne_next
  · split
    · next h => exact outAt_next.mpr (at_next.mp (h ▸ hi))
    · simp
    · simp

/-! ### Faults and fetch -/

@[simp] theorem queueCont_clock (s : State) (k : Nat) : (queueCont s k).clock = s.clock := by rfl

@[simp] theorem faultEntry_clock (s : State) (va fut : DWord) (asid : Nat) (acc : Access) (engine : Bool) (grid : Nat) :
    (faultEntry s va fut asid acc engine grid).clock = s.clock := by rfl

@[simp] theorem setFuture_clock (s : State) (core asid : Nat) (va : DWord) (pa state : Nat) :
    (setFuture s core asid va pa state).clock = s.clock := by rfl

@[simp] theorem pageFault_clock (s : State) (lane : Option Nat) (acc : Access) (va : DWord) : Result.At s.clock (pageFault s lane acc va) := by
  rw [pageFault_def]
  beta_reduce
  extract_lets +onlyGivenNames t
  split
  · constructor
  · split
    · constructor
    · split
      · split
        · constructor
        · split
          · exact .next ((clock_team _ _).trans ((faultEntry_clock ..).trans (setFuture_clock ..)))
          · constructor
      · constructor

@[simp] theorem accessFault_clock (s : State) (lane : Option Nat) (acc : Access) (va : DWord) (e : XErr) :
    Result.At s.clock (accessFault s lane acc va e) := by
  unfold accessFault
  split
  · constructor
  · constructor
  · split
    · constructor
    · exact pageFault_clock s lane acc va

theorem fetch_clock {s u : State} {a : DWord} {w : Word} (h : fetch s a = .ok (w, u)) : u.clock = s.clock := by
  unfold fetch at h
  dsimp only at h
  split at h
  · split at h
    · cases h
    · split at h
      · cases h
      · split at h <;> cases h
        rfl
  · split at h
    · cases h
      rfl
    · split at h
      · split at h <;> cases h
        split <;> rfl
      · split at h
        · split at h
          · cases h
          · split at h <;> cases h
            split <;> rfl
        · cases h

/-! ### Hint words, branches and loops -/

theorem hintWord_clock (s : State) (f : HintRun → HintRun) (dup : HintRun → Bool) : OutAt s.clock (hintWord s f dup) := by simp [hintWord]

@[simp] theorem branchTo_clock (s : State) (target : DWord) : Result.At s.clock (branchTo s target) := by
  unfold branchTo
  dsimp only
  split
  · simp
  · constructor

@[simp] theorem fallThrough_clock (s : State) : Result.At s.clock (fallThrough s) := by simp [fallThrough]

theorem execBr_clock (o : BrOp) (s : State) : OutAt s.clock (execBr o s) := issue_clock fun u => by
  split
  · exact branchTo_clock ..
  · exact fallThrough_clock ..

theorem execBrAll_clock (o : BrOp) (s : State) : OutAt s.clock (execBrAll o s) := issue_clock fun u => by
  split
  · exact branchTo_clock ..
  · exact fallThrough_clock ..

theorem execCall_clock (o : CallOp) (s : State) : OutAt s.clock (execCall o s) := issue_clock fun u => by simp

@[simp] theorem endBlock_clock (s : State) : (endBlock s).clock = s.clock := by
  unfold endBlock
  dsimp only
  split <;> rfl

theorem execRet_clock (s : State) : OutAt s.clock (execRet s) := issue_clock fun u => by simp

theorem execJmp_clock (o : S1) (s : State) : OutAt s.clock (execJmp o s) := issue_clock fun u => by simp

@[simp] theorem exitHandler_clock (s : State) (h : Handler) : (exitHandler s h).clock = s.clock := by rfl

theorem execExit_clock (o : GOnly) (s : State) : OutAt s.clock (execExit o s) := issue_clock fun u => by
  dsimp only
  split
  · exact .next (exitHandler_clock ..)
  · split
    · split
      · exact .next (endBlock_clock ..)
      · exact .next rfl
    · exact retires_clock ..

theorem execNop_clock (s : State) : OutAt s.clock (execNop s) := issue_clock fun u => by simp

theorem execIfP_clock (o : GOnly) (s : State) : OutAt s.clock (execIfP o s) := issue_clock fun u => by
  dsimp only
  split
  · exact retires_clock ..
  · constructor

theorem execElseP_clock (s : State) : OutAt s.clock (execElseP s) := issue_clock fun u => by
  dsimp only
  split
  · constructor
  · split
    · exact retires_clock ..
    · constructor

theorem execEndif_clock (s : State) : OutAt s.clock (execEndif s) := issue_clock fun u => by
  dsimp only
  split
  · constructor
  · split
    · constructor
    · exact retires_clock ..

theorem execBrk_clock (o : GOnly) (s : State) : OutAt s.clock (execBrk o s) := issue_clock fun u => by
  extract_lets t m
  split
  · constructor
  · extract_lets mask up1
    split
    · exact .next (retireTo_clock ..)
    · exact retires_clock ..

@[simp] theorem loopStart_clock (s : State) (count : Word) (len : Nat) : Result.At s.clock (loopStart s count len) := by
  unfold loopStart
  dsimp only
  split
  · constructor
  · split
    · constructor
    · split
      · exact accessFault_clock ..
      · next hf =>
        have hu := fetch_clock hf
        simp [hu]

theorem execLoop_clock (o : LoopOp) (s : State) : OutAt s.clock (execLoop o s) := issue_clock fun u => by simp

theorem execStratumLoop_clock (o : StrLoop) (s : State) : OutAt s.clock (execStratumLoop o s) := issue_clock fun u => by simp

/-! ### Floating point -/

@[simp] theorem setGen_clock (s : State) (g : Nat) (x : DWord) : (setGen s g x).clock = s.clock := by rfl

@[simp] theorem sweeps_clock (s : State) (m : RMode) : (sweeps s m).1.clock = s.clock := by
  unfold sweeps
  split
  · dsimp only
    split <;> rfl
  · rfl

@[simp] theorem fpResult_clock (m : RMode) (g : BitVec 3) (d : BitVec 6) (f : Team → (Nat → Rnd) → Nat → Word) (s : State) :
    Result.At s.clock (fpResult m g d f s) := by
  simp [fpResult]

theorem fpOp_clock (i : Instr) (g : BitVec 3) (d : BitVec 6) (f : Team → (Nat → Rnd) → Nat → Word) (s : State) :
    OutAt s.clock (fpOp i g d f s) :=
  issue_clock fun _ => fpResult_clock ..

theorem fp3_clock (i : Instr) (o : V3) (c : Nat) (f : Fmt → Rnd → Nat → Nat → Nat → Nat) (s : State) :
    OutAt s.clock (fp3 i o c f s) :=
  fpOp_clock ..

theorem fpExact_clock (i : Instr) (o : V3) (c : Nat) (f : Fmt → Nat → Nat → Nat) (s : State) :
    OutAt s.clock (fpExact i o c f s) :=
  issue_clock fun _ => fpResult_clock ..

theorem nOp_clock (i : Instr) (fr : BitVec 2) {f : Fmt → State → Result} (hf : ∀ k u, Result.At u.clock (f k u)) (s : State) :
    OutAt s.clock (nOp i fr f s) := issue_clock fun u => by
  split
  · constructor
  · exact hf _ u

@[simp] theorem n3_clock (i : Instr) (o : VN) (rounds : Bool) (f : Fmt → Rnd → Nat → Nat → Nat → Nat) (s : State) :
    OutAt s.clock (n3 i o rounds f s) := nOp_clock _ _ (fun _ _ => fpResult_clock ..) s

theorem fcmpOp_clock (i : Instr) (o : VCmp) (nan : Bool) (s : State) : OutAt s.clock (fcmpOp i o nan s) :=
  issue_clock fun _ => retires_clock ..

theorem spfn_clock (i : Instr) (o : V2) (g : Special) (s : State) : OutAt s.clock (spfn i o g s) :=
  fpOp_clock ..

theorem cvtOp_clock (i : Instr) (o : CvtOp) (m : Option RMode) (s : State) : OutAt s.clock (cvtOp i o m s) :=
  issue_clock fun _ => fpResult_clock ..

@[simp] theorem cvtnOp_clock (i : Instr) (o : CvtnOp) (m : Option RMode) (s : State) : OutAt s.clock (cvtnOp i o m s) :=
  nOp_clock _ _ (fun _ _ => fpResult_clock ..) s

theorem i2fOp_clock (i : Instr) (o : V2) (signed : Bool) (s : State) : OutAt s.clock (i2fOp i o signed s) :=
  fpOp_clock ..

theorem f2iOp_clock (i : Instr) (o : V2) (lo hi : Int) (s : State) : OutAt s.clock (f2iOp i o lo hi s) :=
  fpOp_clock ..

theorem execFclass_clock (o : V2) (s : State) : OutAt s.clock (execFclass o s) :=
  issue_clock fun _ => retires_clock ..

@[simp] theorem execNcmp_clock (o : VNCmp) (s : State) : OutAt s.clock (execNcmp o s) :=
  nOp_clock _ _ (fun _ _ => retires_clock ..) s

theorem execPlx_clock (o : V3) (s : State) : OutAt s.clock (execPlx o s) :=
  issue_clock fun _ => retires_clock ..

theorem execPld_clock (o : V3) (s : State) : OutAt s.clock (execPld o s) :=
  issue_clock fun _ => retires_clock ..

theorem execFrw_clock (o : FrwOp) (s : State) : OutAt s.clock (execFrw o s) :=
  issue_clock fun _ => retires_clock ..

/-! ### Loads and stores -/

@[simp] theorem forceOut_clock (s : State) (outs : List (Nat × Nat)) : (forceOut s outs).clock = s.clock := by
  cases outs <;> rfl

@[simp] theorem enterL1_clock (s : State) (mru : Bool) (clean : Option Nat) (ns : List Nat) :
    (enterL1 s mru clean ns).clock = s.clock := by simp [enterL1]

theorem withAcc_clock {s : State} {acc : Access} {cell : Bool} {align : Nat} {as : List (Nat × DWord)} {k : List LaneAcc → State → Result}
    (hk : ∀ xs u, Result.At u.clock (k xs u)) : Result.At s.clock (withAcc s acc cell align as k) := by
  unfold withAcc
  split
  · simp
  · split_ifs
    · constructor
    · exact at_of_clock (v := { s with ms := cacheLeaves s.team s.ms _ }) rfl (hk _ _)

@[simp] theorem noteReads_clock (s : State) (gather : Option Nat) (cls : Nat) (na : Bool) (xs : List LaneAcc) :
    (noteReads s gather cls na xs).clock = s.clock := by simp [noteReads]

@[simp] theorem afterPass_clock (s : State) (p : StorePass) : (afterPass s p).clock = s.clock := by simp [afterPass]

@[simp] theorem bufferCells_clock (s : State) (cs : List Host.Cell) : (bufferCells s cs).clock = s.clock := by rfl

@[simp] theorem storeBytes_clock (s : State) (ins : List (Nat × Ins)) (xs : List (Via × Nat × Byte)) : (storeBytes s ins xs).clock = s.clock := by
  unfold storeBytes
  dsimp only
  split <;> split <;> split <;> simp

@[simp] theorem storeBits_clock (s : State) (ins : List (Nat × Ins)) (xs : List (Via × Nat × Byte × Byte)) :
    (storeBits s ins xs).clock = s.clock := by
  induction xs generalizing s with
  | nil => rfl
  | cons x xs ih => exact (ih _).trans (storeBytes_clock ..)

theorem storeWith_clock {s : State} {cls : Nat} {xs : List LaneAcc} {eff : State → State} (he : ∀ u, (eff u).clock = u.clock) :
    Result.At s.clock (storeWith s cls xs eff) := by
  unfold storeWith
  dsimp only
  split
  · constructor
  · simp [he]

theorem readScr_clock {s : State} {n : Nat} {offs : List Nat} {k : Result} (hk : Result.At s.clock k) : Result.At s.clock (readScr s n offs k) := by
  unfold readScr
  split
  · simp
  · exact hk

@[simp] theorem scrSets_clock (s : State) (t : Team) (cs : List Host.Cell) : (scrSets s t cs).clock = s.clock := by rfl

@[simp] theorem scrBits_clock (s : State) (t : Team) (xs : List (Nat × Byte × Byte)) : (scrBits s t xs).clock = s.clock := by
  induction xs generalizing s with
  | nil => rfl
  | cons x xs ih => exact (ih _).trans (scrSets_clock ..)

@[simp] theorem loadOp_clock (s : State) (d : Nat) (m : LaneSet) (data : List (List Word)) :
    Result.At s.clock (loadOp s d m data) := by simp [loadOp]

theorem execLd_clock (o : MemOp) (s : State) : OutAt s.clock (execLd o s) := issue_clock fun u => by
  split
  · constructor
  · exact withAcc_clock fun xs v => at_of_clock (noteReads_clock v ..) (loadOp_clock ..)

theorem execSt_clock (o : MemOp) (s : State) : OutAt s.clock (execSt o s) := issue_clock fun _ =>
  withAcc_clock fun _ _ => storeWith_clock fun _ => storeBytes_clock ..

theorem execLds_clock (o : SpOp) (s : State) : OutAt s.clock (execLds o s) := issue_clock fun u => by
  split
  · constructor
  · dsimp only
    split
    · constructor
    · exact readScr_clock (loadOp_clock ..)

theorem execSts_clock (o : SpOp) (s : State) : OutAt s.clock (execSts o s) := issue_clock fun u => by
  dsimp only
  split <;> simp

@[simp] theorem prefLane_clock (o : PrefOp) (s : State) (x : Nat × DWord) : (prefLane o s x).clock = s.clock := by
  unfold prefLane
  dsimp only
  split
  · rfl
  · split_ifs <;> simp

theorem execPref_clock (o : PrefOp) (s : State) : OutAt s.clock (execPref o s) := issue_clock fun u => by simp

@[simp] theorem forgetBacks_clock (s : State) : (forgetBacks s).clock = s.clock := by
  unfold forgetBacks
  dsimp only
  split <;> simp

theorem execStratumLd_clock (o : StrMem) (s : State) : OutAt s.clock (execStratumLd o s) := issue_clock fun u => by
  extract_lets t
  split
  · constructor
  · exact retired_clock u
  · dsimp only
    split
    · simp
    · exact .next ((retire_clock _).trans ((forgetBacks_clock _).trans (correctGranules_clock u _)))

theorem execStratumSt_clock (o : StrMem) (s : State) : OutAt s.clock (execStratumSt o s) := issue_clock fun u => by
  dsimp only
  split <;> simp

/-! ### Tensor addressing, copies and matrix commands -/

theorem execLdt_clock (o : TensorOp) (s : State) : OutAt s.clock (execLdt o s) := issue_clock fun u => by
  split
  · constructor
  · dsimp only
    split
    · constructor
    · split
      · split
        · constructor
        · exact readScr_clock (loadOp_clock ..)
      · exact withAcc_clock fun xs v => at_of_clock (noteReads_clock v ..) (loadOp_clock ..)

theorem execStt_clock (o : TensorOp) (s : State) : OutAt s.clock (execStt o s) := issue_clock fun u => by
  dsimp only
  split
  · constructor
  · split
    · split
      · constructor
      · simp
    · refine withAcc_clock fun xs v => ?_
      split
      · exact at_of_clock (noteReads_clock v ..) (storeWith_clock fun w => storeBits_clock ..)
      · exact storeWith_clock fun w => storeBits_clock ..

theorem execShset_clock (o : ShsetOp) (s : State) : OutAt s.clock (execShset o s) := issue_clock fun u => by
  dsimp only
  split
  · constructor
  · refine readScr_clock ?_
    split
    · constructor
    · exact retires_clock ..

theorem execCpt_clock (o : CptOp) (s : State) : OutAt s.clock (execCpt o s) := issue_clock fun u => by
  dsimp only
  split
  · constructor
  · split
    · constructor
    · split
      · constructor
      · simp

theorem execCpseal_clock (o : SD) (s : State) : OutAt s.clock (execCpseal o s) := issue_clock fun u => by simp

theorem execCpwait_clock (o : S1) (s : State) : OutAt s.clock (execCpwait o s) := issue_clock fun u => by simp

@[simp] theorem modPair_clock (s : State) (grid gang k : Nat) (f : Pair → Pair) : (modPair s grid gang k f).clock = s.clock := by rfl

@[simp] theorem modTeamPair_clock (s : State) (t : Team) (f : Pair → Pair) : (modTeamPair s t f).clock = s.clock := by
  unfold modTeamPair
  split <;> rfl

@[simp] theorem retireCmd_clock (s : State) (c : MCmd) (row : List Word) : (retireCmd s c row).clock = s.clock := by rfl

@[simp] theorem keepTile_clock (s : State) (grid gang k : Nat) (x : Nat × Tile) : (keepTile s grid gang k x).clock = s.clock := by
  unfold keepTile
  split
  · split
    · exact immediate_clock ..
    · rfl
  · rfl

@[simp] theorem putPair_clock (s : State) (grid gang : Nat) (p q : Pair) : (putPair s grid gang p q).clock = s.clock := by simp [putPair]

@[simp] theorem enqueue_clock (s : State) (p : Pair) (dst : Dst) (kind : MCmdKind) : Result.At s.clock (enqueue s p dst kind) := by
  unfold enqueue
  dsimp only
  split_ifs <;> simp

theorem execMma_clock (o : MmaOp) (s : State) : OutAt s.clock (execMma o s) := issue_clock fun u => by
  dsimp only
  split
  · exact retired_clock u
  · split
    · constructor
    · simp

theorem execMzero_clock (o : MzeroOp) (s : State) : OutAt s.clock (execMzero o s) := issue_clock fun u => by
  dsimp only
  split <;> simp

theorem execMrd_clock (o : MrdOp) (s : State) : OutAt s.clock (execMrd o s) := issue_clock fun u => by
  dsimp only
  split <;> simp

theorem execMsts_clock (o : SS) (s : State) : OutAt s.clock (execMsts o s) := issue_clock fun u => by
  dsimp only
  split <;> simp

theorem execMstat_clock (o : SD) (s : State) : OutAt s.clock (execMstat o s) := issue_clock fun u => by
  dsimp only
  split <;> simp

/-! ### Phases, barriers and waits -/

@[simp] theorem onTeam_clock (s : State) (uid : Nat) {f : State → State} (hf : ∀ u, (f u).clock = u.clock) : (onTeam s uid f).clock = s.clock := by
  unfold onTeam
  split
  · rfl
  · simp [hf]

@[simp] theorem acquireNow_clock (s : State) (scope : Nat) : (acquireNow s scope).clock = s.clock := by rfl

@[simp] theorem phaseDone_clock (s : State) (acq : Bool) (scope : Nat) : (phaseDone s acq scope).clock = s.clock := by simp [phaseDone]

theorem execPhase_clock (o : PhaseOp) (s : State) : OutAt s.clock (execPhase o s) := issue_clock fun u => by simp

@[simp] theorem barrierDone_clock (s : State) (scope : Nat) : (barrierDone s scope).clock = s.clock := by simp [barrierDone]

@[simp] theorem releaseWaiters_clock (s : State) : (releaseWaiters s).clock = s.clock := by
  refine foldl_clock (fun u uid => onTeam_clock u uid fun v => ?_) _ s
  split
  · split
    · exact barrierDone_clock ..
    · rfl
  · rfl

@[simp] theorem arriveNow_clock (s : State) (rlx arv : Bool) (scope : Nat) : (arriveNow s rlx arv scope).clock = s.clock := by
  unfold arriveNow
  dsimp only
  rw [releaseWaiters_clock]
  split_ifs
  · simp
  · simp
  · split <;> simp

theorem execBar_clock (o : BarOp) (s : State) : OutAt s.clock (execBar o s) := issue_clock fun u => by simp

@[simp] theorem reportMatrix_clock (s : State) : (reportMatrix s).1.clock = s.clock := by
  unfold reportMatrix
  split
  · split
    · split_ifs <;> simp
    · rfl
  · rfl

theorem execWaitc_clock (o : WaitcOp) (s : State) : OutAt s.clock (execWaitc o s) := issue_clock fun u => by simp

theorem execFence_clock (s : State) : OutAt s.clock (execFence s) := issue_clock fun u => by
  dsimp only
  split
  · constructor
  · split
    · simp
    · simp
    · simp

theorem maintOp_clock (i : Instr) (o : RangeOp) (kind : MaintKind) (s : State) :
    OutAt s.clock (maintOp i o kind s) := issue_clock fun u => by simp

/-! ### Vertex requests -/

theorem withRegion_clock {s : State} {as : List (Nat × DWord)} {k : List LaneAcc → State → Result} (hk : ∀ xs u, Result.At u.clock (k xs u)) :
    Result.At s.clock (withRegion s as k) := by
  unfold withRegion
  split
  · constructor
  · exact withAcc_clock hk

theorem withVertex_clock {s : State} {align : Nat} {as : List (Nat × DWord)} {k : List LaneAcc → State → Result}
    (hk : ∀ xs u, Result.At u.clock (k xs u)) : Result.At s.clock (withVertex s align as k) := by
  unfold withVertex
  split
  · exact accessFault_clock ..
  · exact withRegion_clock hk

@[simp] theorem sendRequests_clock (s : State) (d regs : Nat) (m : LaneSet) (xs : List LaneAcc) (kind : Nat → VReqKind) :
    Result.At s.clock (sendRequests s d regs m xs kind) := by simp [sendRequests]

theorem aop_clock (i : Instr) (o : AopOp) (op : AtomicOp) (s : State) : OutAt s.clock (aop i o op s) := issue_clock fun u => by
  dsimp only
  split
  · constructor
  · exact withVertex_clock fun xs v => sendRequests_clock ..

theorem execCallm_clock (o : CallmOp) (s : State) : OutAt s.clock (execCallm o s) := issue_clock fun u => by
  dsimp only
  split
  · constructor
  · exact withRegion_clock fun xs v => sendRequests_clock ..

theorem execCbatch_clock (o : CbatchOp) (s : State) : OutAt s.clock (execCbatch o s) := issue_clock fun u => by
  dsimp only
  split
  · constructor
  · split
    · constructor
    · split
      · constructor
      · exact at_of_clock (modHome_clock u ..) (retires_clock ..)

theorem execCreply_clock (o : CreplyOp) (s : State) : OutAt s.clock (execCreply o s) := issue_clock fun u => by
  dsimp only
  split
  · constructor
  · split
    · constructor
    · simp

theorem execCdone_clock (s : State) : OutAt s.clock (execCdone s) := issue_clock fun u => by
  dsimp only
  split <;> simp

theorem execMreg_clock (o : MregOp) (s : State) : OutAt s.clock (execMreg o s) := issue_clock fun u => by
  extract_lets t va cls
  split
  · exact accessFault_clock ..
  · next xs _ =>
    extract_lets s1 table
    have hs1 : s1.clock = u.clock := noteReads_clock { u with ms := cacheLeaves t u.ms xs } ..
    split
    · constructor
    · split
      · constructor
      · split
        · constructor
        · exact .next ((retire_clock _).trans hs1)

/-! ### Grids, continuations and rings -/

@[simp] theorem twaitDone_clock (s : State) (w : Twait) : (twaitDone s w).clock = s.clock := by
  unfold twaitDone
  dsimp only
  split <;> simp

theorem execTwait_clock (o : TwaitOp) (s : State) : OutAt s.clock (execTwait o s) := issue_clock fun u => by
  dsimp only
  split
  · exact retired_clock u
  · refine withAcc_clock fun xs v => ?_
    split
    · exact .next (twaitDone_clock (v.withTeam _) _)
    · exact .next rfl

@[simp] theorem seedCores_clock (s : State) (seed : DWord) (m : BitVec 24) : (seedCores s seed m).clock = s.clock := by rfl

@[simp] theorem startGrid_clock (s : State) (r : List DWord) (by_ : Launcher) (asid prio depth : Nat) (within : BitVec 24) :
    (startGrid s r by_ asid prio depth within).clock = s.clock := by rfl

theorem withBytes_clock {align : Nat} {s : State} {va : DWord} {len : Nat} {k : List Byte → State → Result} (hk : ∀ bs u, Result.At u.clock (k bs u)) :
    Result.At s.clock (withBytes align s va len k) := by
  unfold withBytes
  dsimp only
  split
  · exact accessFault_clock ..
  · next xs _ =>
    split
    · constructor
    · split
      · constructor
      · exact at_of_clock (noteReads_clock { s with ms := cacheLeaves s.team s.ms xs } ..) (hk _ _)

theorem withRecord_clock {s : State} {va : DWord} {len : Nat} {k : List Byte → State → Result} (hk : ∀ bs u, Result.At u.clock (k bs u)) :
    Result.At s.clock (withRecord s va len k) := withBytes_clock hk

theorem execLaunch_clock (o : X1) (s : State) : OutAt s.clock (execLaunch o s) := issue_clock fun u => by
  dsimp only
  split
  · constructor
  · exact withRecord_clock fun bs v => by simp

@[simp] theorem writePool_clock (s : State) (t : Team) (k : Nat) (pc : DWord) (detail : Word) (reason : Nat) :
    (writePool s t k pc detail reason).clock = s.clock := by rfl

theorem execPostc_clock (o : X1) (s : State) : OutAt s.clock (execPostc o s) := issue_clock fun u => by
  refine withRecord_clock fun bs v => ?_
  split
  · constructor
  · refine withRecord_clock fun bs w => ?_
    split
    · constructor
    · split
      · split
        · constructor
        · exact .next ((retire_clock _).trans (writePool_clock ..))
      · constructor

theorem execTrig_clock (s : State) : OutAt s.clock (execTrig s) := issue_clock fun u => by simp

theorem execWaitdep_clock (s : State) : OutAt s.clock (execWaitdep s) := issue_clock fun u => by simp

theorem execYield_clock (s : State) : OutAt s.clock (execYield s) := issue_clock fun u => by simp

theorem execJoink_clock (s : State) : OutAt s.clock (execJoink s) := issue_clock fun u => by simp

@[simp] theorem modOwnGang_clock (s : State) (f : Gang → Gang) : (modOwnGang s f).clock = s.clock := by rfl

@[simp] theorem governorStep_clock (s : State) (h gid before after : Nat) : (governorStep s h gid before after).clock = s.clock := by
  unfold governorStep
  dsimp only
  split
  · rfl
  · split
    · rfl
    · simp

theorem ringOp_clock {s : State} {h : Nat} {put : Bool} {eff : RingHdr → State → State} (he : ∀ r u, (eff r u).clock = u.clock) :
    Result.At s.clock (ringOp s h put eff) := by
  unfold ringOp
  split
  · constructor
  · simp [he]

theorem execRput_clock (o : SS) (s : State) : OutAt s.clock (execRput o s) := issue_clock fun _ =>
  ringOp_clock fun _ _ => (scrSets_clock ..).trans (scrSets_clock ..)

theorem execRget_clock (o : S2) (s : State) : OutAt s.clock (execRget o s) := issue_clock fun _ =>
  ringOp_clock fun _ _ => (withTeam_clock ..).trans (scrSets_clock ..)

/-! ### Service, sieve, gather and residency -/

@[simp] theorem deadlineTrap_clock (s : State) : (deadlineTrap s).clock = s.clock := by simp [deadlineTrap]

@[simp] theorem sendService_clock (s : State) (m : LaneSet) (num : Word) : (sendService s m num).clock = s.clock := by simp [sendService]

theorem execTraps_clock (o : TrapsOp) (s : State) : OutAt s.clock (execTraps o s) := issue_clock fun u => by
  dsimp only
  split
  · exact retired_clock u
  · split
    · constructor
    · split
      · constructor
      · split
        · split
          · constructor
          · exact .next (sendService_clock ..)
        · constructor

theorem execBkpt_clock (s : State) : OutAt s.clock (execBkpt s) := issue_clock fun u => by simp

theorem execSynci_clock (o : RangeOp) (s : State) : OutAt s.clock (execSynci o s) := issue_clock fun u => by simp

@[simp] theorem finishInval_clock (s : State) (w : Inval) : (finishInval s w).clock = s.clock := by simp [finishInval]

theorem execTlbinv_clock (o : RangeOp) (s : State) : OutAt s.clock (execTlbinv o s) := issue_clock fun u => by
  dsimp only
  split <;> simp

@[simp] theorem svStore_clock (s : State) (pa : Nat) (bs : List Byte) : (svStore s pa bs).clock = s.clock := by rfl

@[simp] theorem svWrite_clock (s : State) (k : Nat) (x : Stream) : (svWrite s k x).clock = s.clock := by rfl

@[simp] theorem svPutEntry_clock (s : State) (k q : Nat) (tok tag : Word) (flags : Nat) : (svPutEntry s k q tok tag flags).clock = s.clock :=
  svStore_clock ..

theorem withStream_clock {s : State} {w : Word} {k : Nat → Stream → Result} (hk : ∀ n x, Result.At s.clock (k n x)) :
    Result.At s.clock (withStream s w k) := by
  unfold withStream
  dsimp only
  split_ifs
  · constructor
  · constructor
  · constructor
  · exact hk _ _

theorem execSvput_clock (o : SvOp) (s : State) : OutAt s.clock (execSvput o s) := issue_clock fun u => by
  dsimp only
  split
  · exact retired_clock u
  · refine withStream_clock fun n x => ?_
    split
    · constructor
    · split
      · exact at_of_clock ((svWrite_clock ..).trans (foldl_clock (fun _ _ => svPutEntry_clock ..) _ u)) (retires_clock ..)
      · constructor

theorem execSvget_clock (o : SvOp) (s : State) : OutAt s.clock (execSvget o s) := issue_clock fun u => by
  dsimp only
  split
  · exact retired_clock u
  · exact withStream_clock fun n x => retires_clock ..

theorem execSvrel_clock (o : SS) (s : State) : OutAt s.clock (execSvrel o s) := issue_clock fun u =>
  withStream_clock fun n x => by simp

@[simp] theorem svDropOne_clock (k : Nat) (sn : State × Nat) (q : Nat) : (svDropOne k sn q).1.clock = sn.1.clock := by
  unfold svDropOne
  extract_lets f
  split
  · rfl
  · exact svStore_clock ..

theorem svDrops_clock (k : Nat) (qs : List Nat) (sn : State × Nat) : (qs.foldl (svDropOne k) sn).1.clock = sn.1.clock := by
  induction qs generalizing sn with
  | nil => rfl
  | cons q qs ih => exact (ih _).trans (svDropOne_clock ..)

theorem execSvdrop_clock (o : S3) (s : State) : OutAt s.clock (execSvdrop o s) := issue_clock fun u => by
  refine withStream_clock fun n x => ?_
  split
  · constructor
  · split
    · constructor
    · exact at_of_clock (svDrops_clock _ _ (u, 0)) (retires_clock ..)

theorem execGx_clock (o : GxOp) (s : State) : OutAt s.clock (execGx o s) := issue_clock fun u => by
  split
  · constructor
  · exact withAcc_clock fun xs v => by simp

@[simp] theorem scatter_clock (s : State) (o : GxOp) (xs : List LaneAcc) : (scatter s o xs).clock = s.clock := by simp [scatter]

theorem execSx_clock (o : GxOp) (s : State) : OutAt s.clock (execSx o s) := issue_clock fun u => by
  split
  · constructor
  · refine withAcc_clock fun xs v => ?_
    dsimp only
    split
    · constructor
    · simp

@[simp] theorem modHandle_clock (s : State) (id : Nat) (f : Handle → Handle) : (modHandle s id f).clock = s.clock := by rfl

theorem execHold_clock (o : HoldOp) (s : State) : OutAt s.clock (execHold o s) := issue_clock fun u => by
  dsimp only
  split
  · constructor
  · split
    · exact .next (retire_clock _)
    · exact .next (retire_clock _)

theorem execHset_clock (o : SS) (s : State) : OutAt s.clock (execHset o s) := issue_clock fun u => by
  dsimp only
  split <;> simp

theorem queueHr_clock (i : Instr) (o : S1) (kind : HOpKind) (s : State) : OutAt s.clock (queueHr i o kind s) := issue_clock fun u => by
  dsimp only
  split
  · constructor
  · split
    · constructor
    · exact .next (retire_clock _)

/-! ### Integer, logic and cross-lane -/

theorem vecOp_clock (i : Instr) (g : BitVec 3) (d : BitVec 6) (f : Team → Nat → Word) (s : State) :
    OutAt s.clock (vecOp i g d f s) :=
  issue_clock fun _ => retires_clock ..

theorem vec2_clock (i : Instr) (o : V3) (f : Word → Word → Word) (s : State) :
    OutAt s.clock (vec2 i o f s) :=
  vecOp_clock ..

theorem vec1_clock (i : Instr) (o : V2) (f : Word → Word) (s : State) : OutAt s.clock (vec1 i o f s) :=
  vecOp_clock ..

theorem vecImm_clock (i : Instr) (o : VI) (signed : Bool) (f : Word → Word → Word) (s : State) :
    OutAt s.clock (vecImm i o signed f s) :=
  vecOp_clock ..

theorem predOp_clock (i : Instr) (g p : BitVec 3) (f : Team → Nat → Bool) (s : State) :
    OutAt s.clock (predOp i g p f s) :=
  issue_clock fun _ => retires_clock ..

theorem plog_clock (i : Instr) (o : P3) (f : Bool → Bool → Bool) (s : State) :
    OutAt s.clock (plog i o f s) :=
  predOp_clock ..

theorem scalarOp_clock (i : Instr) (d : BitVec 5) (f : Team → Word) (s : State) :
    OutAt s.clock (scalarOp i d f s) :=
  issue_clock fun _ => retires_clock ..

theorem scal2_clock (i : Instr) (o : S3) (f : Word → Word → Word) (s : State) :
    OutAt s.clock (scal2 i o f s) :=
  scalarOp_clock ..

theorem scmp_clock (i : Instr) (o : SCmp) (f : BitVec 3 → Word → Word → Bool) (s : State) :
    OutAt s.clock (scmp i o f s) :=
  issue_clock fun _ => retires_clock ..

theorem execSrd_clock (o : SMovI) (s : State) : OutAt s.clock (execSrd o s) := issue_clock fun u => by simp

theorem execSwr_clock (o : SMovI) (s : State) : OutAt s.clock (execSwr o s) := issue_clock fun u => by simp

theorem shfl_clock (i : Instr) (o : V3) (src : Nat → Nat → Nat → Nat) (s : State) :
    OutAt s.clock (shfl i o src s) :=
  vecOp_clock ..

theorem execVoteAny_clock (o : VoteOp) (s : State) : OutAt s.clock (execVoteAny o s) :=
  issue_clock fun _ => retires_clock ..

theorem execVoteAll_clock (o : VoteOp) (s : State) : OutAt s.clock (execVoteAll o s) :=
  issue_clock fun _ => retires_clock ..

theorem rlog_clock (i : Instr) (o : V2) (f : Team → Word → Word → Word) (id : Word) (s : State) :
    OutAt s.clock (rlog i o f id s) :=
  issue_clock fun _ => retires_clock ..

theorem scan_clock (i : Instr) (o : V2) (f : Team → Word → Word → Word) (id : Word) (s : State) :
    OutAt s.clock (scan i o f id s) :=
  issue_clock fun _ => retires_clock ..

theorem execElect_clock (o : GP) (s : State) : OutAt s.clock (execElect o s) :=
  issue_clock fun _ => retires_clock ..

/-! ### Marl and locus -/

@[simp] theorem modSlice_clock (s : State) (n : Nat) (f : MarlSlice → MarlSlice) : (modSlice s n f).clock = s.clock := by rfl

@[simp] theorem switchOn_clock (s : State) (t : Team) (slice st : Nat) : (switchOn s t slice st).clock = s.clock := by simp [switchOn]

theorem execMron_clock (o : S2) (s : State) : OutAt s.clock (execMron o s) := issue_clock fun u => by simp

theorem execMroff_clock (o : S1) (s : State) : OutAt s.clock (execMroff o s) := issue_clock fun u => by simp

@[simp] theorem queueMarl_clock (s : State) (target : Word) (bad : Option Nat) (dst : Dst) (cmd : MarlCmd) :
    Result.At s.clock (queueMarl s target bad dst cmd) := by
  unfold queueMarl
  dsimp only
  split
  · constructor
  · split
    · constructor
    · exact .next (retire_clock _)

theorem marlMove_clock (i : Instr) (o : RangeOp) (cmd : DWord → Word → Word → MarlCmd) (s : State) :
    OutAt s.clock (marlMove i o cmd s) := issue_clock fun u => by simp

theorem execMrop_clock (o : MropOp) (s : State) : OutAt s.clock (execMrop o s) := issue_clock fun u => by simp

theorem execMradd_clock (o : MrkOp) (s : State) : OutAt s.clock (execMradd o s) := issue_clock fun u => by simp

theorem execMrmul_clock (o : MrkOp) (s : State) : OutAt s.clock (execMrmul o s) := issue_clock fun u => by simp

theorem execMrcmp_clock (o : MrcmpOp) (s : State) : OutAt s.clock (execMrcmp o s) := issue_clock fun u => by simp

theorem execMrred_clock (o : S3) (s : State) : OutAt s.clock (execMrred o s) := issue_clock fun u => by simp

@[simp] theorem workSet_clock (s : State) (c : LocusCtx) (L w : Nat) (x : Word) : (workSet s c L w x).clock = s.clock := by rfl

@[simp] theorem areaSet_clock (s : State) (c : LocusCtx) (L w : Nat) (xs : List Word) :
    (areaSet s c L w xs).clock = s.clock := by simp [areaSet]

@[simp] theorem restoreAreas_clock (s : State) (c : LocusCtx) (Ls : List Nat) :
    (restoreAreas s c Ls).clock = s.clock := by simp [restoreAreas]

@[simp] theorem putCtx_clock (s : State) (c : LocusCtx) : (putCtx s c).clock = s.clock := by rfl

@[simp] theorem locusTrap_clock (s : State) (reason : Nat) : Result.At s.clock (locusTrap s reason) := .trap

@[simp] theorem badLocusRecord_clock (s : State) (reason bit : Nat) (va : DWord) :
    Result.At s.clock (badLocusRecord s reason bit va) := by simp [badLocusRecord]

theorem execIgbind_clock (o : IgbindOp) (s : State) : OutAt s.clock (execIgbind o s) := issue_clock fun u => by
  extract_lets t done ta pa
  split
  · exact retires_clock ..
  · split
    · constructor
    · refine withBytes_clock fun tbs v => withBytes_clock fun pbs w => ?_
      extract_lets tb p
      split
      · exact badLocusRecord_clock ..
      · split
        · exact badLocusRecord_clock ..
        · split
          · constructor
          · split
            · exact retires_clock ..
            · exact .next (retire_clock _)

@[simp] theorem finishIgrun_clock (s : State) (c : LocusCtx) : (finishIgrun s c).clock = s.clock := by
  unfold finishIgrun
  dsimp only
  split
  · split_ifs <;> simp
  · simp

theorem execIgrun_clock (s : State) : OutAt s.clock (execIgrun s) := issue_clock fun u => by
  dsimp only
  split
  · constructor
  · split
    · constructor
    · split
      · exact .next (finishIgrun_clock (u.withTeam _) _)
      · exact .next rfl

theorem execIgret_clock (o : IgretOp) (s : State) : OutAt s.clock (execIgret o s) := issue_clock fun u => by
  dsimp only
  split <;> simp

@[simp] theorem stopIgrun_clock (s : State) (c : LocusCtx) : (stopIgrun s c).clock = s.clock := by simp [stopIgrun]

theorem execIgstop_clock (s : State) : OutAt s.clock (execIgstop s) := issue_clock fun u => by
  dsimp only
  split <;> simp

theorem execIgq_clock (o : IgqOp) (s : State) : OutAt s.clock (execIgq o s) := issue_clock fun u => by
  dsimp only
  split <;> simp

theorem execIgrd_clock (o : IgrdOp) (s : State) : OutAt s.clock (execIgrd o s) := issue_clock fun u => by
  split
  · constructor
  · split
    · constructor
    · exact retires_clock ..

theorem execIgwr_clock (o : IgwrOp) (s : State) : OutAt s.clock (execIgwr o s) := issue_clock fun u => by
  dsimp only
  split
  · constructor
  · split
    · constructor
    · split
      · constructor
      · simp

@[simp] theorem abandonIgrun_clock (s : State) : (abandonIgrun s).clock = s.clock := by
  unfold abandonIgrun
  dsimp only
  split <;> simp

@[simp] theorem restoreContext_clock (s : State) (h : Handler) (bs : List Byte) (r : Saved) :
    (restoreContext s h bs r).clock = s.clock := by rfl

@[simp] theorem restoreTiles_clock (s : State) (h : Handler) (bs : List Byte) :
    (restoreTiles s h bs).clock = s.clock := by simp [restoreTiles]

theorem execTret_clock (s : State) : OutAt s.clock (execTret s) := issue_clock fun u => by
  extract_lets t
  split
  · constructor
  · split
    · constructor
    · split
      · constructor
      · split
        · constructor
        · refine withRecord_clock fun bs v => ?_
          split
          · exact .next (takeTrap_clock ..)
          · split
            · simp
            · exact .next (takeTrap_clock ..)

theorem settleFetch_clock {s : State} {r : Result} (hr : Result.At s.clock r) : (settleFetch s r).clock = s.clock := by
  unfold settleFetch
  split
  · exact at_next.mp hr
  · simp
  · simp

end Sys2Proof.Machine
end

section
/-! SUPPORT. The decoders yield words of the instruction stream, never an event (R62, R74). -/

namespace Sys2Proof.Machine

/-- A decoder's answer that is an instruction with a word, if it is an instruction at all. -/
def Words (r : Except Reject Instr) : Prop := ∀ i, r = .ok i → (encode i).isSome

theorem error_words {e : Reject} : Words (.error e) := nofun

theorem ok_words {i : Instr} (h : (encode i).isSome) : Words (.ok i) := fun _ e => Except.ok.inj e ▸ h

theorem need_words {b : Bool} {i : Instr} (h : (encode i).isSome) : Words (need b i) := by
  unfold need
  split
  exacts [ok_words h, error_words]

theorem need7_words {w : Word} {b : Bool} {i : Instr} (h : (encode i).isSome) : Words (need7 w b i) := by
  unfold need7
  split
  exacts [need_words h, error_words]

theorem decode00_words (w : Word) : Words (decode00 w) := by
  unfold decode00
  split
  exacts [ok_words rfl, ok_words rfl, need_words rfl, ok_words rfl]

theorem decode01_words (w : Word) : Words (decode01 w) := by
  unfold decode01
  split
  exacts [ok_words rfl, ok_words rfl, ok_words rfl, ok_words rfl]

theorem decode02_words (w : Word) : Words (decode02 w) := by
  unfold decode02
  split
  exacts [ok_words rfl, ok_words rfl, ok_words rfl, ok_words rfl]

theorem decode03_words (w : Word) : Words (decode03 w) := by
  unfold decode03
  split
  exacts [ok_words rfl, ok_words rfl, ok_words rfl, ok_words rfl]

theorem decode04_words (w : Word) : Words (decode04 w) := by
  unfold decode04
  split
  exacts [ok_words rfl, ok_words rfl, ok_words rfl, ok_words rfl]

theorem decode05_words (w : Word) : Words (decode05 w) := by
  unfold decode05
  split
  exacts [need_words rfl, need_words rfl, need_words rfl, error_words]

theorem decode06_words (w : Word) : Words (decode06 w) := by
  unfold decode06
  split
  exacts [ok_words rfl, ok_words rfl, ok_words rfl, error_words]

theorem decode07_words (w : Word) : Words (decode07 w) := by
  unfold decode07
  split
  exacts [ok_words rfl, ok_words rfl, error_words]

theorem decode08_words (w : Word) : Words (decode08 w) := by
  unfold decode08
  split
  exacts [need_words rfl, need_words rfl, need_words rfl, need_words rfl]

theorem decode09_words (w : Word) : Words (decode09 w) := by
  unfold decode09
  split
  exacts [need_words rfl, need_words rfl, error_words]

theorem decode14_words (w : Word) : Words (decode14 w) := by
  unfold decode14
  split
  exacts [need7_words rfl, need7_words rfl, need7_words rfl, need7_words rfl]

theorem decode15_words (w : Word) : Words (decode15 w) := by
  unfold decode15
  split
  exacts [need7_words rfl, need7_words rfl, need7_words rfl, need7_words rfl]

theorem decode16_words (w : Word) : Words (decode16 w) := by
  unfold decode16
  split
  exacts [need7_words rfl, need7_words rfl, error_words]

theorem decode17_words (w : Word) : Words (decode17 w) := by
  unfold decode17
  split
  exacts [need7_words rfl, need_words rfl, need_words rfl, error_words]

theorem decode20_words (w : Word) : Words (decode20 w) := by
  unfold decode20
  split
  exacts [ok_words rfl, ok_words rfl, ok_words rfl, ok_words rfl]

theorem decode21_words (w : Word) : Words (decode21 w) := by
  unfold decode21
  split
  exacts [ok_words rfl, ok_words rfl, need_words rfl, error_words]

theorem decode22_words (w : Word) : Words (decode22 w) := by
  unfold decode22
  split
  exacts [ok_words rfl, ok_words rfl, error_words]

theorem decode23_words (w : Word) : Words (decode23 w) := by
  unfold decode23
  split
  exacts [ok_words rfl, ok_words rfl, ok_words rfl, ok_words rfl]

theorem decode24_words (w : Word) : Words (decode24 w) := by
  unfold decode24
  split
  exacts [ok_words rfl, ok_words rfl, ok_words rfl, ok_words rfl]

theorem decode25_words (w : Word) : Words (decode25 w) := by
  unfold decode25
  split
  exacts [ok_words rfl, ok_words rfl, ok_words rfl, ok_words rfl]

theorem decode26_words (w : Word) : Words (decode26 w) := by
  unfold decode26
  split
  exacts [ok_words rfl, ok_words rfl, error_words]

theorem decode27_words (w : Word) : Words (decode27 w) := by
  unfold decode27
  split
  exacts [need_words rfl, need_words rfl, need_words rfl, need_words rfl]

theorem decode28_words (w : Word) : Words (decode28 w) := by
  unfold decode28
  split
  exacts [need_words rfl, need_words rfl, need_words rfl, need_words rfl]

theorem decode29_words (w : Word) : Words (decode29 w) := by
  unfold decode29
  split
  exacts [need_words rfl, need_words rfl, need_words rfl, need_words rfl]

theorem decode2A_words (w : Word) : Words (decode2A w) := by
  unfold decode2A
  split
  exacts [need_words rfl, need_words rfl, need_words rfl, need_words rfl]

theorem decode2B_words (w : Word) : Words (decode2B w) := by
  unfold decode2B
  split
  exacts [need_words rfl, need_words rfl, need_words rfl, need_words rfl]

theorem decode2C_words (w : Word) : Words (decode2C w) := by
  unfold decode2C
  split
  exacts [ok_words rfl, ok_words rfl, error_words]

theorem decode30_words (w : Word) : Words (decode30 w) := by
  unfold decode30
  split
  exacts [ok_words rfl, ok_words rfl, ok_words rfl, ok_words rfl]

theorem decode31_words (w : Word) : Words (decode31 w) := by
  unfold decode31
  split
  exacts [need_words rfl, need_words rfl, need_words rfl, error_words]

theorem decode32_words (w : Word) : Words (decode32 w) := by
  unfold decode32
  split
  exacts [need_words rfl, need_words rfl, need_words rfl, need_words rfl]

theorem decode33_words (w : Word) : Words (decode33 w) := by
  unfold decode33
  split
  exacts [need_words rfl, need_words rfl, need_words rfl, need7_words rfl]

theorem decode37_words (w : Word) : Words (decode37 w) := by
  unfold decode37
  split
  exacts [need7_words rfl, need7_words rfl, need_words rfl, need7_words rfl]

theorem decode38_words (w : Word) : Words (decode38 w) := by
  unfold decode38
  split
  exacts [need_words rfl, need7_words rfl, need7_words rfl, need_words rfl]

theorem decode47_words (w : Word) : Words (decode47 w) := by
  unfold decode47
  split
  exacts [need7_words rfl, need7_words rfl, need7_words rfl, error_words]

theorem decode4A_words (w : Word) : Words (decode4A w) := by
  unfold decode4A
  split
  exacts [need7_words rfl, need7_words rfl, need7_words rfl, error_words]

theorem decode4B_words (w : Word) : Words (decode4B w) := by
  unfold decode4B
  split
  exacts [need7_words rfl, need7_words rfl, need7_words rfl, error_words]

theorem decode4D_words (w : Word) : Words (decode4D w) := by
  unfold decode4D
  split
  exacts [need7_words rfl, need_words rfl, need7_words rfl, need7_words rfl]

theorem decode50_words (w : Word) : Words (decode50 w) := by
  unfold decode50
  split
  exacts [need_words rfl, need_words rfl, need_words rfl, need_words rfl]

theorem decode51_words (w : Word) : Words (decode51 w) := by
  unfold decode51
  split
  exacts [need_words rfl, need_words rfl, need_words rfl, need_words rfl]

theorem decode53_words (w : Word) : Words (decode53 w) := by
  unfold decode53
  split
  exacts [need7_words rfl, need7_words rfl, need7_words rfl, need_words rfl]

theorem decode54_words (w : Word) : Words (decode54 w) := by
  unfold decode54
  split
  exacts [need7_words rfl, error_words]

theorem decode55_words (w : Word) : Words (decode55 w) := by
  unfold decode55
  split
  exacts [need7_words rfl, need7_words rfl, need7_words rfl, need7_words rfl]

theorem decode56_words (w : Word) : Words (decode56 w) := by
  unfold decode56
  split
  exacts [need7_words rfl, need7_words rfl, need7_words rfl, need7_words rfl]

theorem decode57_words (w : Word) : Words (decode57 w) := by
  unfold decode57
  split
  exacts [need_words rfl, need_words rfl, error_words]

theorem decode58_words (w : Word) : Words (decode58 w) := by
  unfold decode58
  split
  exacts [need7_words rfl, need7_words rfl, need7_words rfl, need7_words rfl]

theorem decode59_words (w : Word) : Words (decode59 w) := by
  unfold decode59
  split
  exacts [need7_words rfl, need7_words rfl, need7_words rfl, need7_words rfl]

theorem decode5A_words (w : Word) : Words (decode5A w) := by
  unfold decode5A
  split
  exacts [need7_words rfl, error_words]

theorem decode5B_words (w : Word) : Words (decode5B w) := by
  unfold decode5B
  split
  exacts [need7_words rfl, need7_words rfl, need7_words rfl, need7_words rfl]

theorem decode5C_words (w : Word) : Words (decode5C w) := by
  unfold decode5C
  split
  exacts [need7_words rfl, error_words]

theorem decode5D_words (w : Word) : Words (decode5D w) := by
  unfold decode5D
  split
  exacts [need7_words rfl, need7_words rfl, need7_words rfl, need7_words rfl]

theorem decode5E_words (w : Word) : Words (decode5E w) := by
  unfold decode5E
  split
  exacts [need_words rfl, need_words rfl, need_words rfl, error_words]

theorem decode5F_words (w : Word) : Words (decode5F w) := by
  unfold decode5F
  split
  exacts [need_words rfl, need_words rfl, need7_words rfl, need7_words rfl]

theorem decode60_words (w : Word) : Words (decode60 w) := by
  unfold decode60
  split
  exacts [need_words rfl, need7_words rfl, need7_words rfl, need7_words rfl]

theorem decode61_words (w : Word) : Words (decode61 w) := by
  unfold decode61
  split
  exacts [need7_words rfl, error_words]

theorem decode7F_words (w : Word) : Words (decode7F w) := by
  unfold decode7F
  split
  exacts [ok_words rfl, need_words rfl, need_words rfl, error_words]

theorem decodeFields_words (w : Word) : Words (decodeFields w) := by
  unfold decodeFields
  split
  exacts [decode00_words w, decode01_words w, decode02_words w, decode03_words w, decode04_words w, decode05_words w,
    decode06_words w, decode07_words w, decode08_words w, decode09_words w, ok_words rfl, ok_words rfl, ok_words rfl, ok_words
    rfl, need_words rfl, ok_words rfl, need_words rfl, need_words rfl, need_words rfl, decode14_words w, decode15_words w,
    decode16_words w, decode17_words w, need7_words rfl, need7_words rfl, need7_words rfl, need7_words rfl, decode20_words w,
    decode21_words w, decode22_words w, decode23_words w, decode24_words w, decode25_words w, decode26_words w, decode27_words w,
    decode28_words w, decode29_words w, decode2A_words w, decode2B_words w, decode2C_words w, need7_words rfl, decode30_words w,
    decode31_words w, decode32_words w, decode33_words w, ok_words rfl, ok_words rfl, need7_words rfl, decode37_words w,
    decode38_words w, need7_words rfl, need_words rfl, need_words rfl, need_words rfl, need_words rfl, need_words rfl, need_words
    rfl, need7_words rfl, decode47_words w, need_words rfl, need7_words rfl, decode4A_words w, decode4B_words w, ok_words rfl,
    decode4D_words w, decode50_words w, decode51_words w, need_words rfl, decode53_words w, decode54_words w, decode55_words w,
    decode56_words w, decode57_words w, decode58_words w, decode59_words w, decode5A_words w, decode5B_words w, decode5C_words w,
    decode5D_words w, decode5E_words w, decode5F_words w, decode60_words w, decode61_words w, decode7F_words w, error_words]

theorem decode_words (w : Word) : Words (decode w) := by
  unfold decode
  intro i h
  split at h
  · next hf =>
    split at h <;> cases h
    exact decodeFields_words w _ hf
  · cases h

end Sys2Proof.Machine
end

section
/-! SUPPORT. No word changes the clock, nor does the end of a cycle (R26, R271, R397). -/

namespace Sys2Proof.Machine

/-- Words of one family keep the clock by what the family shares; the rest have a lemma each. -/
theorem exec_clock (i : Instr) (h : (encode i).isSome) (s : State) : OutAt s.clock (exec i s) := by
  cases i with dsimp only [exec]
  | iadd | isub | imad | sel | bfi | movSp | iaddi | movi | shli | shri | sari | s2v => exact vecOp_clock ..
  | iabs | popc | clz | brev | mov => exact vec1_clock ..
  | andn | iminS | iminU | imaxS | imaxU | imulLo | imulHiS | imulHiU | and | or | xor | shl | shr | sar | rot | bfxU | bfxS =>
      exact vec2_clock ..
  | icmpS | icmpU | icmpi => exact predOp_clock ..
  | plogAnd | plogOr | plogXor | plogAndn => exact plog_clock ..
  | andi | ori | xori => exact vecImm_clock ..
  | sadd | ssub | smul | sand | sor | sxor | sshl | sshr => exact scal2_clock ..
  | scmpS | scmpU => exact scmp_clock ..
  | smov | v2s | saddi | smovi | voteBal | mskrd => exact scalarOp_clock ..
  | fadd | fsub | fmul | ffma | haddBf | hmulBf | hfmaBf | haddF16 | hmulF16 | hfmaF16 => exact fp3_clock ..
  | fmin | fmax | hmaxBf | hmaxF16 => exact fpExact_clock ..
  | fcmp | fcmpUo => exact fcmpOp_clock ..
  | nadd | nmul | nfma | nmax | nmin => exact n3_clock ..
  | rcp | rsq | sqrt | tanh | ex2 | lg2 | sinp | cosp => exact spfn_clock ..
  | cvtRne | cvtRtz | cvtSr | cvt => exact cvtOp_clock ..
  | cvtnRne | cvtnRtz | cvtnSr | cvtn => exact cvtnOp_clock ..
  | i2fS | i2fU => exact i2fOp_clock ..
  | f2iS | f2iU => exact f2iOp_clock ..
  | shflIdx | shflXor | shflUp | shflDn => exact shfl_clock ..
  | rlogIadd | rlogImaxS | rlogFadd | rlogFmax => exact rlog_clock ..
  | scanIadd | scanFadd => exact scan_clock ..
  | cleanr | invr | flushr => exact maintOp_clock ..
  | aopAdd | aopMin | aopMax | aopXchg | aopAnd | aopOr | aopXor | aopCas => exact aop_clock ..
  | mrld | mrst => exact marlMove_clock ..
  | hdem | hpro | hrel => exact queueHr_clock ..
  | himm | hsched | hmod => exact hintWord_clock ..
  | srd => exact execSrd_clock ..
  | swr => exact execSwr_clock ..
  | fclass => exact execFclass_clock ..
  | ncmp => exact execNcmp_clock ..
  | plx => exact execPlx_clock ..
  | pld => exact execPld_clock ..
  | frw => exact execFrw_clock ..
  | voteAny => exact execVoteAny_clock ..
  | voteAll => exact execVoteAll_clock ..
  | elect => exact execElect_clock ..
  | br => exact execBr_clock ..
  | brAll => exact execBrAll_clock ..
  | call => exact execCall_clock ..
  | ret => exact execRet_clock ..
  | jmp => exact execJmp_clock ..
  | exit => exact execExit_clock ..
  | nop => exact execNop_clock ..
  | ifP => exact execIfP_clock ..
  | elseP => exact execElseP_clock ..
  | endif => exact execEndif_clock ..
  | brk => exact execBrk_clock ..
  | loop => exact execLoop_clock ..
  | ld => exact execLd_clock ..
  | st => exact execSt_clock ..
  | lds => exact execLds_clock ..
  | sts => exact execSts_clock ..
  | ldt => exact execLdt_clock ..
  | stt => exact execStt_clock ..
  | cpt => exact execCpt_clock ..
  | cpseal => exact execCpseal_clock ..
  | cpwait => exact execCpwait_clock ..
  | waitc => exact execWaitc_clock ..
  | pref => exact execPref_clock ..
  | shset => exact execShset_clock ..
  | phase => exact execPhase_clock ..
  | fence => exact execFence_clock ..
  | bar => exact execBar_clock ..
  | mma => exact execMma_clock ..
  | mzero => exact execMzero_clock ..
  | mrd => exact execMrd_clock ..
  | msts => exact execMsts_clock ..
  | mstat => exact execMstat_clock ..
  | callm => exact execCallm_clock ..
  | cbatch => exact execCbatch_clock ..
  | creply => exact execCreply_clock ..
  | cdone => exact execCdone_clock ..
  | twait => exact execTwait_clock ..
  | mreg => exact execMreg_clock ..
  | trig => exact execTrig_clock ..
  | waitdep => exact execWaitdep_clock ..
  | yield => exact execYield_clock ..
  | joink => exact execJoink_clock ..
  | launch => exact execLaunch_clock ..
  | postc => exact execPostc_clock ..
  | rput => exact execRput_clock ..
  | rget => exact execRget_clock ..
  | gx => exact execGx_clock ..
  | sx => exact execSx_clock ..
  | mron => exact execMron_clock ..
  | mroff => exact execMroff_clock ..
  | mrop => exact execMrop_clock ..
  | mradd => exact execMradd_clock ..
  | mrmul => exact execMrmul_clock ..
  | mrcmp => exact execMrcmp_clock ..
  | mrred => exact execMrred_clock ..
  | hold => exact execHold_clock ..
  | hset => exact execHset_clock ..
  | igbind => exact execIgbind_clock ..
  | igrun => exact execIgrun_clock ..
  | igret => exact execIgret_clock ..
  | igstop => exact execIgstop_clock ..
  | igq => exact execIgq_clock ..
  | igrd => exact execIgrd_clock ..
  | igwr => exact execIgwr_clock ..
  | svput => exact execSvput_clock ..
  | svget => exact execSvget_clock ..
  | svrel => exact execSvrel_clock ..
  | svdrop => exact execSvdrop_clock ..
  | traps => exact execTraps_clock ..
  | tret => exact execTret_clock ..
  | bkpt => exact execBkpt_clock ..
  | synci => exact execSynci_clock ..
  | tlbinv => exact execTlbinv_clock ..
  | stratumLd => exact execStratumLd_clock ..
  | stratumSt => exact execStratumSt_clock ..
  | stratumLoop => exact execStratumLoop_clock ..
  | getVersion | getCapabilities | negotiateAlgorithms | getDigests | getCertificate | challenge | keyExchange | finish |
    endSession | graphUpload | graphRemove | trigger | instanceBegin | nodeLaunch | nodeComplete | externalWaitWake |
    externalWaitTimeout | hostSignalAck | stratumBlockRun | gridRetire | gangPlacement | gangWaitLimit | teamRestore |
    continuationConvert | continuationResume | continuationTargetTimeout | taskEnd | producerComplete | futureWake | copyComplete
    | matrixCmdStart | matrixCmdRetire | publicationCommit | entryResolve | maintenanceComplete | sxAck | marlCmdComplete |
    residencyComplete | vertexRequestArrival | combineAtomic | twaitWake | routineCall | igrunComplete | deadlineExpiry |
    priorityBoost | yieldTimeout | hschedSpaceExpiry | vxcfgEnable | vxcfgDisable | svcmdOpen | svcmdClose | svdrain | srcomp |
    firsterrClear | registerWrite | hostWindowRead | hostWindowWrite | peerWrite | getMeasurements | memoryKeyInstall |
    startLogRead | managementStart | coreFailure | powerThrottle | placementHold | hbmBankTest | linkFlitRetry | powerBelowCap |
    fqtailWrite | srtailWrite =>
      exact absurd h Bool.false_ne_true

/-- One instruction of a core team leaves the clock as it is. -/
theorem runCore_clock (s : State) : OutAt s.clock (runCore s) := by
  unfold runCore
  dsimp only
  split
  · exact .next (trapBefore_clock (s.withTeam _) _)
  · split
    · exact .next (deadlineTrap_clock s)
    · split
      · exact .next (settleFetch_clock (accessFault_clock ..))
      · next hf =>
        rw [← fetch_clock hf]
        split
        · simp
        · next hd => exact exec_clock _ (decode_words _ _ hd) _

@[simp] theorem tryBatch_clock (s : State) : (tryBatch s).clock = s.clock := by
  unfold tryBatch
  split
  · next h => exact outAt_next.mp (h ▸ runCore_clock s)
  · rfl

@[simp] theorem formBatches_clock (s : State) : (formBatches s).clock = s.clock := foldl_clock (fun _ _ => onTeam_clock _ _ tryBatch_clock) _ s

end Sys2Proof.Machine
end

section
/-! SUPPORT. A step: the turn of a team, the end of a cycle, and a fetch of a word that the core does not hold (R41, R42, R62, R83, R320). -/

namespace Sys2Proof.Machine

/-! ### The turn of a team -/

/-- The word of a core team or a vertex wave is fetched and decoded where nothing comes before it (R83). -/
theorem runCore_fetched {u v : State} {w : Word} (hp : u.team.pending = []) (hd : ¬(deadlinePassed u u.team = true ∧ u.team.book.begun = false))
    (hf : fetch u u.team.ctl.pc = .ok (w, v)) :
    runCore u = match decode w with
      | .error r => .next (trapBefore (noteIssue v) (trap1 u.team r.code w))
      | .ok i => exec i v := by
  have hdue : (deadlinePassed u u.team && !u.team.book.begun) = false :=
    Bool.eq_false_iff.mpr fun h => hd (by rwa [Bool.and_eq_true, Bool.not_eq_true'] at h)
  unfold runCore
  simp only [hp, hdue, hf] <;> rfl

/-- A trap of the resumption comes first (R389). -/
theorem runCore_pending {u : State} {tr : Trap} {rest : List Trap} (hp : u.team.pending = tr :: rest) :
    runCore u = .next (trapBefore { u with team := { u.team with pending := rest } } tr) := by
  unfold runCore
  simp only [hp] <;> rfl

/-- Then the deadline, unless the instruction has begun (R102). -/
theorem runCore_due {u : State} (hp : u.team.pending = []) (hd : deadlinePassed u u.team = true ∧ u.team.book.begun = false) :
    runCore u = .next (deadlineTrap u) := by
  obtain ⟨hpassed, hbegun⟩ := hd
  unfold runCore
  simp [hp, hpassed, hbegun]

/-- A stratum wavefront's word is fetched and decoded within the bound on its block run (R323). -/
theorem runStratum_fetched {u v : State} {w : Word} {b : Nat × BlockRun} (hf : fetch u u.team.ctl.pc = .ok (w, v))
    (hb : u.strat.current.find? (fun x => x.1 == u.team.pl.core) = some b) :
    runStratum u = if 65536 ≤ b.2.issued then .next (stratumFault v 7)
      else match decodeStratum w with
        | .error r => .next (stratumFault v r)
        | .ok i => exec i (countBlock (if isLd i then v else forgetBacks v)) := by
  unfold runStratum
  simp only [hf, hb] <;> rfl

/-- What a step that runs one instruction of the team in focus does. -/
theorem takesTurn_of_step {s u : State} (h : step s = runTeam u) : TakesTurn s u := by
  refine ⟨fun hk hp hd => ⟨fun w v i hf hw => ?_, fun w v r hf hw => ?_⟩, fun hk tr rest hp => ?_, fun hk hp hd => ?_,
    fun hk w v b hf hb => ⟨fun hmax => ?_, fun hmax => ⟨fun i hw => ?_, fun r hw => ?_⟩⟩⟩
  · rw [h, runTeam, if_neg hk, runCore_fetched hp hd hf, hw]
  · rw [h, runTeam, if_neg hk, runCore_fetched hp hd hf, hw]
  · rw [h, runTeam, if_neg hk, runCore_pending hp]
  · rw [h, runTeam, if_neg hk, runCore_due hp hd]
  · rw [h, runTeam, if_pos hk, runStratum_fetched hf hb, if_pos hmax]
  · rw [h, runTeam, if_pos hk, runStratum_fetched hf hb, if_neg (by omega), hw]
  · rw [h, runTeam, if_pos hk, runStratum_fetched hf hb, if_neg (by omega), hw]

theorem step_of_agenda {s : State} {a : Act} {rest : List Act} (h : s.agenda = a :: rest) : step s = runAct a { refresh s with agenda := rest } := by
  unfold step runStep
  rw [h]

theorem step_of_no_agenda {s : State} (h : s.agenda = []) : step s = runFree (refresh s) := by
  unfold step runStep
  rw [h]

theorem runAct_group {s : State} {g : Nat} {t : Team} (ht : turnOf s g = some t) : runAct (.group g) s = runTeam (turn s t) := by
  simp only [runAct, ht, runTurn]

theorem runFree_even {s : State} {t : Team} (he : s.issued % 2 = 0) (ht : issuer s = some t) : runFree s = runTeam (turn s t) := by
  simp only [runFree, he, ht, runTurn, ↓reduceIte]

/-! ### Time -/

/-- Time passes at the clock, after the cycle that ends (R26, R397, R434). -/
theorem passTime_eq (s : State) (ns : Nat) :
    passTime s ns =
      let c := if ns = 0 then s else closeCycle (formBatches s)
      { tick c ns ((c.frac + c.mgmt.clk * ns) / 1000) with frac := (c.frac + c.mgmt.clk * ns) % 1000 } := rfl

/-- The end of a cycle leaves the clock as it is. -/
theorem cycleEnd_clock (s : State) (ns : Nat) : (if ns = 0 then s else closeCycle (formBatches s)).clock = s.clock := by
  split
  · rfl
  · exact (closeCycle_clock _).trans (formBatches_clock s)

theorem passTime_clock (s : State) (ns : Nat) :
    (passTime s ns).clock = ⟨s.cycle + BitVec.ofNat 64 ns, s.arith + (s.frac + s.mgmt.clk * ns) / 1000, (s.frac + s.mgmt.clk * ns) % 1000, s.mgmt⟩ := by
  have hc := cycleEnd_clock s ns
  rw [passTime_eq]
  generalize (if ns = 0 then s else closeCycle (formBatches s)) = c at hc
  obtain ⟨hcycle, harith, hfrac, hmgmt⟩ := Clock.mk.inj hc
  rw [← hcycle, ← harith, ← hfrac, ← hmgmt]
  rfl

/-! ### Fetch -/

/-- The copy of a word that a fetch leaves in the core's instruction cache. -/
def cachedWord (u : State) (pc : DWord) (pa : Nat) (l : Leaf) : MemSide :=
  let ms := fillTlb u.team.pl.core u.team.pl.asid u.ms l
  { ms with code := { core := u.team.pl.core, asid := u.team.pl.asid, va := pc, pa := pa,
                      word := BitVec.ofNat 32 (ofLeBytes (commBytesK u.ms l.key pa 4)), pte := l.pte } :: ms.code }

theorem cachedWord_mem (u : State) (pc : DWord) (pa : Nat) (l : Leaf) : (cachedWord u pc pa l).mem = u.ms.mem := by
  simp only [cachedWord, fillTlb]
  split <;> rfl

theorem cachedWord_l2 (u : State) (pc : DWord) (pa : Nat) (l : Leaf) : (cachedWord u pc pa l).l2 = u.ms.l2 := by
  simp only [cachedWord, fillTlb]
  split <;> rfl

/-- A word that the core holds in no buffer and no cache is read as committed, at the translated address (R62). -/
theorem fetch_uncached {u : State} {pc : DWord} {pa : Nat} {l : Leaf} (hk : u.team.kind ≠ .stratum)
    (hbuf : u.team.ctl.buffer.find? (fun x => x.1 == pc) = none)
    (hcode : u.ms.code.find? (fun c => c.core == u.team.pl.core && c.asid == u.team.pl.asid && c.va == pc) = none)
    (hcan : canonical pc = true) (hx : xlateT u u.team .fetch pc = .ok (pa, l)) (hlink : isHost pa = true → lostLink u = none) :
    let w := BitVec.ofNat 32 (ofLeBytes (commBytesK u.ms l.key pa 4))
    fetch u pc = .ok (w, if u.team.ctl.loops.any fun f => inBody f pc then
        { u with ms := cachedWord u pc pa l, team := { u.team with ctl := { u.team.ctl with buffer := (pc, w) :: u.team.ctl.buffer } } }
      else { u with ms := cachedWord u pc pa l }) := by
  have hl : (if isHost pa then lostLink u else none) = none := by
    split
    · next h => exact hlink h
    · rfl
  unfold fetch
  dsimp only
  split
  · next h => exact absurd h hk
  · simp only [hbuf, hcode, hcan, hx, hl, ↓reduceIte] <;> rfl

/-! ### What a step begins with -/

/-- With no team alive, nothing but the caches and the failed cores is brought up to date. -/
theorem refresh_of_ended {s : State} (h : ∀ u ∈ s.teams, u.stage = .ended) : refresh s = leaveFenced (settleKeel (tidyL1 s)) := by
  have hnone : s.teams.filter (fun t => t.stage != .ended) = [] :=
    List.filter_eq_nil_iff.mpr fun u hu => by simp [h u hu]
  unfold refresh
  rw [hnone]
  rfl

theorem tidyL1_none {s : State} (h : s.l1 = []) : tidyL1 s = s := by
  have hnone : s.l1.filterMap (l1Left s) = s.l1 := by
    rw [h]
    rfl
  unfold tidyL1
  rw [hnone]

theorem settleKeel_none {s : State} (h : s.marl = []) : settleKeel s = s := by
  unfold settleKeel
  rw [h]
  rfl

/-- Settles O57: a step is `runTeam` in the state the turn begins with; no word that `formBatches` runs and no record that `closeCycle`
writes changes the clock, so time passes at it. -/
theorem stepRunsDecoded : Obligations.StepRunsDecoded := by
  unfold Obligations.StepRunsDecoded
  refine ⟨fun s g rest t ha ht => ?_, fun s t ha he ht => ?_, fun s i rest ha => ⟨fun hi => ?_, fun hi => ?_⟩, fun s ns rest ha => ?_,
    fun s ns => ?_, fun u pc pa l hk hbuf hcode hcan hx hlink => ?_, fun s => refresh_of_ended, fun s hl hm hf => ?_⟩
  · exact takesTurn_of_step ((step_of_agenda ha).trans (runAct_group ht))
  · exact takesTurn_of_step ((step_of_no_agenda ha).trans (runFree_even he ht))
  · exact (step_of_agenda ha).trans (if_pos hi)
  · exact (step_of_agenda ha).trans (if_neg hi)
  · exact step_of_agenda ha
  · obtain ⟨hcycle, harith, hfrac, -⟩ := Clock.mk.inj (passTime_clock s ns)
    refine ⟨hcycle, ?_, ?_, rfl, rfl, rfl, rfl⟩
    · rw [harith, hfrac]
      omega
    · rw [hfrac]
      exact Nat.mod_lt _ (by decide)
  · refine ⟨_, fetch_uncached hk hbuf hcode hcan hx hlink, ?_⟩
    split
    · exact ⟨rfl, rfl, rfl, cachedWord_mem .., cachedWord_l2 ..⟩
    · exact ⟨rfl, rfl, rfl, cachedWord_mem .., cachedWord_l2 ..⟩
  · rw [tidyL1_none hl, settleKeel_none hm, leaveFenced_none hf]

end Sys2Proof.Machine
end

section
/-! SUPPORT. Words and their fields: a packed word has the fields it was packed from, and no other word has them (R63, R64, R75). -/

namespace Sys2Proof

/-! ### Slices of a word -/

theorem slice_slice {v s l i n : Nat} {w : BitVec v} (h : i + n ≤ l) :
    (w.extractLsb' s l).extractLsb' i n = w.extractLsb' (s + i) n := by
  refine BitVec.eq_of_getLsbD_eq fun j hj => ?_
  simp [hj, Nat.add_assoc, show i + j < l by omega]

/-- A slice is two parts joined when its upper and its lower part are. -/
theorem slice_eq_append {v : Nat} (s m n : Nat) {x : BitVec m} {y : BitVec n} {w : BitVec v} :
    w.extractLsb' s (m + n) = x ++ y ↔ w.extractLsb' (s + n) m = x ∧ w.extractLsb' s n = y := by
  have hu : (w.extractLsb' s (m + n)).extractLsb' n m = w.extractLsb' (s + n) m := slice_slice (by omega)
  have hl : (w.extractLsb' s (m + n)).extractLsb' 0 n = w.extractLsb' s n := slice_slice (by omega)
  constructor
  · intro h
    rw [← hu, ← hl, h]
    exact ⟨by simp [BitVec.extractLsb'_append_eq_of_le], by simp [BitVec.extractLsb'_append_eq_of_add_le]⟩
  · rintro ⟨rfl, rfl⟩
    rw [← hu, ← hl, BitVec.extractLsb'_append_extractLsb']

theorem slice_bit {v s : Nat} {w : BitVec v} : w.extractLsb' s 1 = BitVec.ofBool (w.getLsbD s) :=
  BitVec.eq_of_getLsbD_eq fun j hj => by simp [show j = 0 by omega]

theorem slice_eq_ofBool {v s : Nat} {w : BitVec v} {b : Bool} : w.extractLsb' s 1 = BitVec.ofBool b ↔ w.getLsbD s = b := by
  rw [slice_bit]
  generalize w.getLsbD s = c
  revert b c
  decide

theorem slice_eq_zero {v s : Nat} {w : BitVec v} : w.extractLsb' s 1 = 0#1 ↔ w.getLsbD s = false := slice_eq_ofBool (b := false)

/-! ### The forms of R63 -/

theorem packA_eq_iff {m : BitVec 7} {g : BitVec 3} {d a b : BitVec 6} {ea eb : Bool} {f : BitVec 2} {w : Word} :
    packA m g d a b ea eb f = w ↔
      fMaj w = m ∧ fG w = g ∧ fD w = d ∧ fA w = a ∧ fB w = b ∧ fEa w = ea ∧ fEb w = eb ∧ fFn w = f := by
  constructor
  · rintro rfl
    simp (disch := decide) only [packA, fMaj, fG, fD, fA, fB, fEa, fEb, fFn, BitVec.extractLsb'_append_eq_of_le,
      BitVec.extractLsb'_append_eq_of_add_le, BitVec.getLsbD_append, BitVec.getLsbD_ofBool]
    simp
  · rintro ⟨rfl, rfl, rfl, rfl, rfl, rfl, rfl, rfl⟩
    simp only [packA, fMaj, fG, fD, fA, fB, fEa, fEb, fFn, ← slice_bit]
    simp (disch := decide) only [BitVec.extractLsb'_append_extractLsb'_eq_extractLsb']
    exact BitVec.extractLsb'_eq_self

theorem packI_eq_iff {m : BitVec 7} {g : BitVec 3} {d a : BitVec 6} {imm : BitVec 10} {w : Word} :
    packI m g d a imm = w ↔ fMaj w = m ∧ fG w = g ∧ fD w = d ∧ fA w = a ∧ fImm w = imm := by
  constructor
  · rintro rfl
    simp (disch := decide) only [packI, fMaj, fG, fD, fA, fImm, BitVec.extractLsb'_append_eq_of_le,
      BitVec.extractLsb'_append_eq_of_add_le]
    simp
  · rintro ⟨rfl, rfl, rfl, rfl, rfl⟩
    simp only [packI, fMaj, fG, fD, fA, fImm]
    simp (disch := decide) only [BitVec.extractLsb'_append_extractLsb'_eq_extractLsb']
    exact BitVec.extractLsb'_eq_self

theorem packM_eq_iff {m : BitVec 7} {g : BitVec 3} {d a : BitVec 6} {s : BitVec 5} {wm : BitVec 3} {f : BitVec 2} {w : Word} :
    packM m g d a s wm f = w ↔ fMaj w = m ∧ fG w = g ∧ fD w = d ∧ fA w = a ∧ fS w = s ∧ fWm w = wm ∧ fFn w = f := by
  constructor
  · rintro rfl
    simp (disch := decide) only [packM, fMaj, fG, fD, fA, fS, fWm, fFn, BitVec.extractLsb'_append_eq_of_le,
      BitVec.extractLsb'_append_eq_of_add_le]
    simp
  · rintro ⟨rfl, rfl, rfl, rfl, rfl, rfl, rfl⟩
    simp only [packM, fMaj, fG, fD, fA, fS, fWm, fFn]
    simp (disch := decide) only [BitVec.extractLsb'_append_extractLsb'_eq_extractLsb']
    exact BitVec.extractLsb'_eq_self

theorem packT_eq_iff {m : BitVec 7} {g : BitVec 3} {d c : BitVec 6} {sh n : BitVec 3} {x y : Bool} {f : BitVec 2} {w : Word} :
    packT m g d c sh n (BitVec.ofBool x ++ BitVec.ofBool y) f = w ↔
      fMaj w = m ∧ fG w = g ∧ fD w = d ∧ fA w = c ∧ fSh w = sh ∧ fN w = n ∧ fEa w = x ∧ fEb w = y ∧ fFn w = f := by
  constructor
  · rintro rfl
    simp (disch := decide) only [packT, fMaj, fG, fD, fA, fSh, fN, fEa, fEb, fFn, BitVec.extractLsb'_append_eq_of_le,
      BitVec.extractLsb'_append_eq_of_add_le, BitVec.getLsbD_append, BitVec.getLsbD_ofBool]
    simp
  · rintro ⟨rfl, rfl, rfl, rfl, rfl, rfl, rfl, rfl, rfl⟩
    simp only [packT, fMaj, fG, fD, fA, fSh, fN, fEa, fEb, fFn, ← slice_bit]
    simp (disch := decide) only [BitVec.extractLsb'_append_extractLsb'_eq_extractLsb']
    exact BitVec.extractLsb'_eq_self

theorem packB_eq_iff {m : BitVec 7} {g : BitVec 3} {off : BitVec 22} {w : Word} :
    packB m g off = w ↔ fMaj w = m ∧ fG w = g ∧ fOff w = off := by
  constructor
  · rintro rfl
    simp (disch := decide) only [packB, fMaj, fG, fOff, BitVec.extractLsb'_append_eq_of_le, BitVec.extractLsb'_append_eq_of_add_le]
    simp
  · rintro ⟨rfl, rfl, rfl⟩
    simp only [packB, fMaj, fG, fOff]
    simp (disch := decide) only [BitVec.extractLsb'_append_extractLsb'_eq_extractLsb']
    exact BitVec.extractLsb'_eq_self

/-! ### Registers, pairs, predicates and conditions in a six-bit field (R64, R75) -/

theorem eq_fld5_iff {f : BitVec 6} {r : BitVec 5} : f = fld5 r ↔ isS f = true ∧ toS f = r := by
  have read : ∀ r, isS (fld5 r) = true ∧ toS (fld5 r) = r := by decide
  have write : ∀ f, isS f = true → f = fld5 (toS f) := by decide
  exact ⟨fun h => h ▸ read r, fun ⟨h, hr⟩ => hr ▸ write f h⟩

theorem eq_fld3_iff {f : BitVec 6} {p : BitVec 3} : f = fld3 p ↔ isP f = true ∧ toP f = p := by
  have read : ∀ p, isP (fld3 p) = true ∧ toP (fld3 p) = p := by decide
  have write : ∀ f, isP f = true → f = fld3 (toP f) := by decide
  exact ⟨fun h => h ▸ read p, fun ⟨h, hp⟩ => hp ▸ write f h⟩

theorem eq_fldX_iff {f : BitVec 6} {x : BitVec 4} : f = fldX x ↔ isX f = true ∧ toX f = x := by
  have read : ∀ x, isX (fldX x) = true ∧ toX (fldX x) = x := by decide
  have write : ∀ f, isX f = true → f = fldX (toX f) := by decide
  exact ⟨fun h => h ▸ read x, fun ⟨h, hx⟩ => hx ▸ write f h⟩

theorem eq_fldC_iff {f : BitVec 6} {c p : BitVec 3} : f = fldC c p ↔ hi3 f = c ∧ toP f = p := by
  have read : ∀ c p, hi3 (fldC c p) = c ∧ toP (fldC c p) = p := by decide
  have write : ∀ f, f = fldC (hi3 f) (toP f) := by decide
  exact ⟨fun h => h ▸ read c p, fun ⟨hc, hp⟩ => hc ▸ hp ▸ write f⟩

/-! ### Fields in parts -/

theorem fS_eq_sX_iff {w : Word} {x : BitVec 4} : fS w = sX x ↔ w.getLsbD 5 = false ∧ w.extractLsb' 6 4 = x :=
  (slice_eq_append 5 4 1).trans (and_comm.trans (and_congr_left' slice_eq_zero))

/-- A number-format register in the place of the E-bits. -/
theorem eBits_eq_iff {w : Word} {fr : BitVec 2} : (fEa w = fr.getLsbD 1 ∧ fEb w = fr.getLsbD 0) ↔ w.extractLsb' 2 2 = fr := by
  have bits : ∀ fr : BitVec 2, fr = BitVec.ofBool (fr.getLsbD 1) ++ BitVec.ofBool (fr.getLsbD 0) := by decide
  conv_rhs => rw [bits fr]
  exact ((slice_eq_append 2 1 1).trans (and_congr slice_eq_ofBool slice_eq_ofBool)).symm

theorem fB_eq_halves_iff {w : Word} {x y : BitVec 3} : fB w = x ++ y ↔ w.extractLsb' 7 3 = x ∧ w.extractLsb' 4 3 = y :=
  slice_eq_append 4 3 3

theorem fB_eq_cvtn_iff {w : Word} {fr : BitVec 2} {b : Bool} :
    fB w = fr ++ BitVec.ofBool b ++ 0#3 ↔ (w.extractLsb' 8 2 = fr ∧ w.getLsbD 7 = b) ∧ w.extractLsb' 4 3 = 0 :=
  (slice_eq_append 4 3 3).trans (and_congr_left' ((slice_eq_append 7 2 1).trans (and_congr_right' slice_eq_ofBool)))

theorem fB_eq_igq_iff {w : Word} {b : Bool} : fB w = 0#5 ++ BitVec.ofBool b ↔ w.extractLsb' 5 5 = 0 ∧ w.getLsbD 4 = b :=
  (slice_eq_append 4 5 1).trans (and_congr_right' slice_eq_ofBool)

theorem fImm_eq_low5_iff {w : Word} {k : BitVec 5} : fImm w = 0#5 ++ k ↔ w.extractLsb' 5 5 = 0 ∧ w.extractLsb' 0 5 = k :=
  slice_eq_append 0 5 5

theorem fImm_eq_high5_iff {w : Word} {k : BitVec 5} : fImm w = k ++ 0#5 ↔ w.extractLsb' 5 5 = k ∧ w.extractLsb' 0 5 = 0 :=
  slice_eq_append 0 5 5

theorem fImm_eq_low6_iff {w : Word} {k : BitVec 6} : fImm w = 0#4 ++ k ↔ w.extractLsb' 6 4 = 0 ∧ w.extractLsb' 0 6 = k :=
  slice_eq_append 0 4 6

theorem fD_eq_phase_iff {w : Word} {k sc : BitVec 2} :
    fD w = k ++ sc ++ 0#2 ↔ (w.extractLsb' 20 2 = k ∧ w.extractLsb' 18 2 = sc) ∧ w.extractLsb' 16 2 = 0 :=
  (slice_eq_append 16 4 2).trans (and_congr_left' (slice_eq_append 18 2 2))

theorem fD_eq_bar_iff {w : Word} {x y : Bool} {sc : BitVec 2} :
    fD w = BitVec.ofBool x ++ BitVec.ofBool y ++ sc ++ 0#2 ↔
      ((w.getLsbD 21 = x ∧ w.getLsbD 20 = y) ∧ w.extractLsb' 18 2 = sc) ∧ w.extractLsb' 16 2 = 0 :=
  fD_eq_phase_iff.trans (and_congr_left' (and_congr_left' ((slice_eq_append 20 1 1).trans (and_congr slice_eq_ofBool slice_eq_ofBool))))

theorem fD_eq_tile_iff {w : Word} {t : BitVec 2} : fD w = 0#4 ++ t ↔ w.extractLsb' 18 4 = 0 ∧ w.extractLsb' 16 2 = t :=
  slice_eq_append 16 4 2

theorem fD_eq_op_iff {w : Word} {op : BitVec 3} : fD w = op ++ 0#3 ↔ w.extractLsb' 19 3 = op ∧ w.extractLsb' 16 3 = 0 :=
  slice_eq_append 16 3 3

theorem fD_eq_mrcmp_iff {w : Word} {lt : Bool} {k : BitVec 5} :
    fD w = BitVec.ofBool lt ++ k ↔ w.getLsbD 21 = lt ∧ toS (fD w) = k := by
  rw [show toS (fD w) = w.extractLsb' 16 5 from slice_slice (by decide)]
  exact (slice_eq_append 16 1 5).trans (and_congr_left' slice_eq_ofBool)

theorem fA_eq_quad_iff {w : Word} {a : BitVec 3} :
    fA w = 0#1 ++ a ++ 0#2 ↔ (isS (fA w) = true ∧ w.extractLsb' 12 3 = a) ∧ w.extractLsb' 10 2 = 0 := by
  rw [isS, show (fA w).extractLsb' 5 1 = w.extractLsb' 15 1 from slice_slice (by decide), beq_iff_eq]
  exact (slice_eq_append 10 4 2).trans (and_congr_left' (slice_eq_append 12 1 3))

theorem fWm_eq_unsigned_iff {w : Word} {u : Bool} : fWm w = 0#2 ++ BitVec.ofBool u ↔ w.extractLsb' 3 2 = 0 ∧ w.getLsbD 2 = u :=
  (slice_eq_append 2 2 1).trans (and_congr_right' slice_eq_ofBool)

theorem fOff_eq_mma_iff {w : Word} {t : BitVec 2} {sa : BitVec 5} {vb : BitVec 6} {fa fb : BitVec 3} {z : Bool} {low : BitVec 2} :
    fOff w = t ++ sa ++ vb ++ fa ++ fb ++ BitVec.ofBool z ++ low ↔
      (((((w.extractLsb' 20 2 = t ∧ w.extractLsb' 15 5 = sa) ∧ w.extractLsb' 9 6 = vb) ∧ w.extractLsb' 6 3 = fa)
        ∧ w.extractLsb' 3 3 = fb) ∧ w.getLsbD 2 = z) ∧ fFn w = low := by
  have hz := (slice_eq_append (w := w) (x := t ++ sa ++ vb ++ fa ++ fb) (y := BitVec.ofBool z) 2 19 1)
  rw [slice_eq_ofBool, slice_eq_append 3 16 3, slice_eq_append 6 13 3, slice_eq_append 9 7 6, slice_eq_append 15 2 5] at hz
  exact (slice_eq_append 0 20 2).trans (and_congr_left' hz)

end Sys2Proof
end

section
/-! SUPPORT. Shapes of operands: a reader and a writer name the same words (R63, R74). -/

namespace Sys2Proof

/-- A reader and a writer of a shape with a function field: the words of a major and a function that read as an instruction are those
that the writer gives its operands. -/
def FnShape {O : Type} (d : (O → Instr) → Word → Except Reject Instr) (e : BitVec 7 → BitVec 2 → O → Word) : Prop :=
  ∀ k m f w i, (fMaj w = m ∧ fFn w = f ∧ d k w = .ok i) ↔ ∃ o, k o = i ∧ e m f o = w

/-- The same of a shape whose major is all that names the instruction. -/
def MajShape {O : Type} (d : (O → Instr) → Word → Except Reject Instr) (e : BitVec 7 → O → Word) : Prop :=
  ∀ k m w i, (fMaj w = m ∧ d k w = .ok i) ↔ ∃ o, k o = i ∧ e m o = w

/-- A shape from what its reader reads, under which condition, and that its writer's words are those that read so. -/
theorem FnShape.of {O : Type} {d : (O → Instr) → Word → Except Reject Instr} {e : BitVec 7 → BitVec 2 → O → Word} {ok : Word → Prop}
    {ops : Word → O} (hd : ∀ k w i, d k w = .ok i ↔ ok w ∧ k (ops w) = i)
    (he : ∀ m f o w, e m f o = w ↔ fMaj w = m ∧ fFn w = f ∧ ok w ∧ ops w = o) : FnShape d e := by
  intro k m f w i
  simp only [hd, he]
  constructor
  · rintro ⟨hm, hf, hok, rfl⟩
    exact ⟨_, rfl, hm, hf, hok, rfl⟩
  · rintro ⟨_, rfl, hm, hf, hok, rfl⟩
    exact ⟨hm, hf, hok, rfl⟩

theorem MajShape.of {O : Type} {d : (O → Instr) → Word → Except Reject Instr} {e : BitVec 7 → O → Word} {ok : Word → Prop}
    {ops : Word → O} (hd : ∀ k w i, d k w = .ok i ↔ ok w ∧ k (ops w) = i)
    (he : ∀ m o w, e m o = w ↔ fMaj w = m ∧ ok w ∧ ops w = o) : MajShape d e := by
  intro k m w i
  simp only [hd, he]
  constructor
  · rintro ⟨hm, hok, rfl⟩
    exact ⟨_, rfl, hm, hok, rfl⟩
  · rintro ⟨_, rfl, hm, hok, rfl⟩
    exact ⟨hm, hok, rfl⟩

theorem ok_ok {i j : Instr} : (.ok i : Except Reject Instr) = .ok j ↔ True ∧ i = j := by simp

theorem need_ok {b : Bool} {i j : Instr} : need b i = .ok j ↔ b = true ∧ i = j := by
  cases b <;> simp [need]

theorem need7_ok {w : Word} {b : Bool} {i j : Instr} : need7 w b i = .ok j ↔ (fG w = 7 ∧ b = true) ∧ i = j := by
  by_cases hg : fG w = 7
  · rw [need7, if_pos hg, need_ok]
    simp only [hg, true_and]
  · rw [need7, if_neg hg]
    simp only [reduceCtorEq, hg, false_and]

theorem v3_shape : FnShape dV3 eV3 :=
  FnShape.of (fun _ _ _ => ok_ok) fun m f o w => by
    cases o
    simp only [eV3, packA_eq_iff, V3.mk.injEq]
    tauto

theorem v2_shape : FnShape dV2 eV2 :=
  FnShape.of (fun _ _ _ => need_ok) fun m f o w => by
    cases o
    simp only [eV2, packA_eq_iff, V2.mk.injEq, Bool.and_eq_true, Bool.not_eq_true', beq_iff_eq]
    tauto

theorem vCmp_shape : FnShape dVCmp eVCmp :=
  FnShape.of (fun _ _ _ => ok_ok) fun m f o w => by
    cases o
    simp only [eVCmp, packA_eq_iff, eq_fldC_iff, VCmp.mk.injEq]
    tauto

theorem vN_shape : FnShape dVN eVN :=
  FnShape.of (fun _ _ _ => ok_ok) fun m f o w => by
    cases o
    simp only [eVN, packA_eq_iff, ← eBits_eq_iff, VN.mk.injEq]
    tauto

theorem vNCmp_shape : FnShape dVNCmp eVNCmp :=
  FnShape.of (fun _ _ _ => ok_ok) fun m f o w => by
    cases o
    simp only [eVNCmp, packA_eq_iff, eq_fldC_iff, ← eBits_eq_iff, VNCmp.mk.injEq]
    tauto

theorem p3_shape : FnShape dP3 eP3 :=
  FnShape.of (fun _ _ _ => need_ok) fun m f o w => by
    cases o
    simp only [eP3, packA_eq_iff, eq_fld3_iff, P3.mk.injEq, Bool.and_eq_true, Bool.not_eq_true']
    tauto

theorem selOp_shape : FnShape dSelOp eSelOp :=
  FnShape.of (fun _ _ _ => ok_ok) fun m f o w => by
    cases o
    simp only [eSelOp, packA_eq_iff, SelOp.mk.injEq]
    tauto

theorem v1_shape : FnShape dV1 eV1 :=
  FnShape.of (fun _ _ _ => need_ok) fun m f o w => by
    cases o
    simp only [eV1, packA_eq_iff, V1.mk.injEq, Bool.and_eq_true, Bool.not_eq_true', beq_iff_eq]
    tauto

theorem vI_shape : MajShape dVI eVI :=
  MajShape.of (fun _ _ _ => ok_ok) fun m o w => by
    cases o
    simp only [eVI, packI_eq_iff, VI.mk.injEq]
    tauto

theorem vMovI_shape : MajShape dVMovI eVMovI :=
  MajShape.of (fun _ _ _ => need_ok) fun m o w => by
    cases o
    simp only [eVMovI, packI_eq_iff, VMovI.mk.injEq, beq_iff_eq]
    tauto

theorem vCmpI_shape : MajShape dVCmpI eVCmpI :=
  MajShape.of (fun _ _ _ => ok_ok) fun m o w => by
    cases o
    simp only [eVCmpI, packI_eq_iff, eq_fldC_iff, VCmpI.mk.injEq]
    tauto

theorem vShI_shape : MajShape dVShI eVShI :=
  MajShape.of (fun _ _ _ => need_ok) fun m o w => by
    cases o
    simp only [eVShI, packI_eq_iff, fImm_eq_low5_iff, VShI.mk.injEq, beq_iff_eq]
    tauto

theorem s3_shape : FnShape dS3 eS3 :=
  FnShape.of (fun _ _ _ => need7_ok) fun m f o w => by
    cases o
    simp only [eS3, packA_eq_iff, eq_fld5_iff, S3.mk.injEq, Bool.and_eq_true]
    tauto

theorem sCmp_shape : FnShape dSCmp eSCmp :=
  FnShape.of (fun _ _ _ => need7_ok) fun m f o w => by
    cases o
    simp only [eSCmp, packA_eq_iff, eq_fld5_iff, eq_fldC_iff, SCmp.mk.injEq, Bool.and_eq_true]
    tauto

theorem s2_shape : FnShape dS2 eS2 :=
  FnShape.of (fun _ _ _ => need7_ok) fun m f o w => by
    cases o
    simp only [eS2, packA_eq_iff, eq_fld5_iff, S2.mk.injEq, Bool.and_eq_true, Bool.not_eq_true', beq_iff_eq]
    tauto

theorem sS_shape : FnShape dSS eSS :=
  FnShape.of (fun _ _ _ => need7_ok) fun m f o w => by
    cases o
    simp only [eSS, packA_eq_iff, eq_fld5_iff, SS.mk.injEq, Bool.and_eq_true, beq_iff_eq]
    tauto

theorem s1_shape : FnShape dS1 eS1 :=
  FnShape.of (fun _ _ _ => need7_ok) fun m f o w => by
    cases o
    simp only [eS1, packA_eq_iff, eq_fld5_iff, S1.mk.injEq, Bool.and_eq_true, Bool.not_eq_true', beq_iff_eq]
    tauto

theorem sD_shape : FnShape dSD eSD :=
  FnShape.of (fun _ _ _ => need7_ok) fun m f o w => by
    cases o
    simp only [eSD, packA_eq_iff, eq_fld5_iff, SD.mk.injEq, Bool.and_eq_true, Bool.not_eq_true', beq_iff_eq]
    tauto

theorem v2SOp_shape : FnShape dV2SOp eV2SOp :=
  FnShape.of (fun _ _ _ => need_ok) fun m f o w => by
    cases o
    simp only [eV2SOp, packA_eq_iff, eq_fld5_iff, V2SOp.mk.injEq, Bool.and_eq_true, Bool.not_eq_true', beq_iff_eq]
    tauto

theorem s2VOp_shape : FnShape dS2VOp eS2VOp :=
  FnShape.of (fun _ _ _ => need_ok) fun m f o w => by
    cases o
    simp only [eS2VOp, packA_eq_iff, eq_fld5_iff, S2VOp.mk.injEq, Bool.and_eq_true, Bool.not_eq_true', beq_iff_eq]
    tauto

theorem sI_shape : MajShape dSI eSI :=
  MajShape.of (fun _ _ _ => need7_ok) fun m o w => by
    cases o
    simp only [eSI, packI_eq_iff, eq_fld5_iff, SI.mk.injEq, Bool.and_eq_true]
    tauto

theorem sMovI_shape : MajShape dSMovI eSMovI :=
  MajShape.of (fun _ _ _ => need7_ok) fun m o w => by
    cases o
    simp only [eSMovI, packI_eq_iff, eq_fld5_iff, SMovI.mk.injEq, Bool.and_eq_true, beq_iff_eq]
    tauto

theorem swr_shape : MajShape dSwr eSwr :=
  MajShape.of (fun _ _ _ => need7_ok) fun m o w => by
    cases o
    simp only [eSwr, packI_eq_iff, eq_fld5_iff, SMovI.mk.injEq, Bool.and_eq_true, beq_iff_eq]
    tauto

theorem cvtOp_shape : FnShape dCvtOp eCvtOp :=
  FnShape.of (fun _ _ _ => need_ok) fun m f o w => by
    cases o
    simp only [eCvtOp, packA_eq_iff, fB_eq_halves_iff, CvtOp.mk.injEq, Bool.not_eq_true']
    tauto

theorem cvtnOp_shape : FnShape dCvtnOp eCvtnOp :=
  FnShape.of (fun _ _ _ => need_ok) fun m f o w => by
    cases o
    simp only [eCvtnOp, packA_eq_iff, fB_eq_cvtn_iff, CvtnOp.mk.injEq, Bool.and_eq_true, Bool.not_eq_true', beq_iff_eq]
    tauto

theorem frwOp_shape : MajShape dFrwOp eFrwOp :=
  MajShape.of (fun _ _ _ => need7_ok) fun m o w => by
    cases o
    simp only [eFrwOp, packA_eq_iff, eq_fld5_iff, FrwOp.mk.injEq, Bool.and_eq_true, Bool.not_eq_true', beq_iff_eq]
    tauto

theorem voteOp_shape : FnShape dVoteOp eVoteOp :=
  FnShape.of (fun _ _ _ => need_ok) fun m f o w => by
    cases o
    simp only [eVoteOp, packA_eq_iff, eq_fld3_iff, VoteOp.mk.injEq, Bool.and_eq_true, Bool.not_eq_true', beq_iff_eq]
    tauto

theorem voteBalOp_shape : FnShape dVoteBalOp eVoteBalOp :=
  FnShape.of (fun _ _ _ => need_ok) fun m f o w => by
    cases o
    simp only [eVoteBalOp, packA_eq_iff, eq_fld5_iff, eq_fld3_iff, VoteBalOp.mk.injEq, Bool.and_eq_true, Bool.not_eq_true', beq_iff_eq]
    tauto

theorem gP_shape : FnShape dGP eGP :=
  FnShape.of (fun _ _ _ => need_ok) fun m f o w => by
    cases o
    simp only [eGP, packA_eq_iff, eq_fld3_iff, GP.mk.injEq, Bool.and_eq_true, Bool.not_eq_true', beq_iff_eq]
    tauto

theorem brOp_shape : MajShape dBrOp eBrOp :=
  MajShape.of (fun _ _ _ => ok_ok) fun m o w => by
    cases o
    simp only [eBrOp, packB_eq_iff, BrOp.mk.injEq]
    tauto

theorem callOp_shape : MajShape dCallOp eCallOp :=
  MajShape.of (fun _ _ _ => need7_ok) fun m o w => by
    cases o
    simp only [eCallOp, packB_eq_iff, CallOp.mk.injEq]
    tauto

theorem gOnly_shape : FnShape dGOnly eGOnly :=
  FnShape.of (fun _ _ _ => need_ok) fun m f o w => by
    cases o
    simp only [eGOnly, packA_eq_iff, GOnly.mk.injEq, Bool.and_eq_true, Bool.not_eq_true', beq_iff_eq]
    tauto

theorem loopOp_shape : MajShape dLoopOp eLoopOp :=
  MajShape.of (fun _ _ _ => need7_ok) fun m o w => by
    cases o
    simp only [eLoopOp, packI_eq_iff, eq_fld5_iff, LoopOp.mk.injEq, Bool.and_eq_true, beq_iff_eq]
    tauto

theorem memOp_shape : MajShape dMemOp eMemOp :=
  MajShape.of (fun _ _ _ => need_ok) fun m o w => by
    cases o
    simp only [eMemOp, packM_eq_iff, fS_eq_sX_iff, MemOp.mk.injEq, beq_iff_eq]
    tauto

theorem spOp_shape : MajShape dSpOp eSpOp :=
  MajShape.of (fun _ _ _ => need_ok) fun m o w => by
    cases o
    simp only [eSpOp, packM_eq_iff, SpOp.mk.injEq, beq_iff_eq]
    tauto

theorem tensorOp_shape : MajShape dTensorOp eTensorOp :=
  MajShape.of (fun _ _ _ => need_ok) fun m o w => by
    cases o
    simp only [eTensorOp, packT_eq_iff, eq_fld5_iff, TensorOp.mk.injEq]
    tauto

theorem cptOp_shape : MajShape dCptOp eCptOp :=
  MajShape.of (fun _ _ _ => need7_ok) fun m o w => by
    cases o
    refine (packT_eq_iff (y := false)).trans ?_
    simp only [eq_fld5_iff, CptOp.mk.injEq, Bool.and_eq_true, Bool.not_eq_true']
    tauto

theorem waitcOp_shape : FnShape dWaitcOp eWaitcOp :=
  FnShape.of (fun _ _ _ => need7_ok) fun m f o w => by
    cases o
    simp only [eWaitcOp, packA_eq_iff, eq_fld5_iff, eq_fld3_iff, WaitcOp.mk.injEq, Bool.and_eq_true, Bool.not_eq_true', beq_iff_eq]
    tauto

theorem prefOp_shape : MajShape dPrefOp ePrefOp :=
  MajShape.of (fun _ _ _ => need_ok) fun m o w => by
    cases o
    simp only [ePrefOp, packM_eq_iff, fS_eq_sX_iff, PrefOp.mk.injEq, Bool.and_eq_true, beq_iff_eq]
    tauto

theorem shsetOp_shape : MajShape dShsetOp eShsetOp :=
  MajShape.of (fun _ _ _ => need7_ok) fun m o w => by
    cases o
    simp only [eShsetOp, packI_eq_iff, eq_fld5_iff, eq_fld3_iff, fImm_eq_high5_iff, ShsetOp.mk.injEq, Bool.and_eq_true, beq_iff_eq]
    tauto

theorem phaseOp_shape : FnShape dPhaseOp ePhaseOp :=
  FnShape.of (fun _ _ _ => need7_ok) fun m f o w => by
    cases o
    simp only [ePhaseOp, packA_eq_iff, fD_eq_phase_iff, PhaseOp.mk.injEq, Bool.and_eq_true, Bool.not_eq_true', beq_iff_eq]
    tauto

theorem barOp_shape : FnShape dBarOp eBarOp :=
  FnShape.of (fun _ _ _ => need7_ok) fun m f o w => by
    cases o
    simp only [eBarOp, packA_eq_iff, fD_eq_bar_iff, BarOp.mk.injEq, Bool.and_eq_true, Bool.not_eq_true', beq_iff_eq]
    tauto

theorem rangeOp_shape : FnShape dRangeOp eRangeOp :=
  FnShape.of (fun _ _ _ => need7_ok) fun m f o w => by
    cases o
    simp only [eRangeOp, packA_eq_iff, eq_fld5_iff, eq_fldX_iff, RangeOp.mk.injEq, Bool.and_eq_true, Bool.not_eq_true', beq_iff_eq]
    tauto

theorem mmaOp_shape : MajShape dMmaOp eMmaOp :=
  MajShape.of (fun _ _ _ => ok_ok) fun m o w => by
    cases o
    simp only [eMmaOp, packB_eq_iff, fOff_eq_mma_iff, MmaOp.mk.injEq]
    tauto

theorem mzeroOp_shape : FnShape dMzeroOp eMzeroOp :=
  FnShape.of (fun _ _ _ => need7_ok) fun m f o w => by
    cases o
    simp only [eMzeroOp, packA_eq_iff, fD_eq_tile_iff, MzeroOp.mk.injEq, Bool.and_eq_true, Bool.not_eq_true', beq_iff_eq]
    tauto

theorem mrdOp_shape : FnShape dMrdOp eMrdOp :=
  FnShape.of (fun _ _ _ => need_ok) fun m f o w => by
    cases o
    simp only [eMrdOp, packA_eq_iff, eq_fld5_iff, MrdOp.mk.injEq, Bool.and_eq_true, Bool.not_eq_true', beq_iff_eq]
    tauto

theorem aopOp_shape : FnShape dAopOp eAopOp :=
  FnShape.of (fun _ _ _ => need_ok) fun m f o w => by
    cases o
    simp only [eAopOp, packM_eq_iff, fS_eq_sX_iff, fWm_eq_unsigned_iff, AopOp.mk.injEq, Bool.and_eq_true, beq_iff_eq]
    tauto

theorem callmOp_shape : MajShape dCallmOp eCallmOp :=
  MajShape.of (fun _ _ _ => need_ok) fun m o w => by
    cases o
    simp only [eCallmOp, packI_eq_iff, fImm_eq_low6_iff, CallmOp.mk.injEq, beq_iff_eq]
    tauto

theorem cbatchOp_shape : FnShape dCbatchOp eCbatchOp :=
  FnShape.of (fun _ _ _ => need7_ok) fun m f o w => by
    cases o
    simp only [eCbatchOp, packA_eq_iff, fA_eq_quad_iff, CbatchOp.mk.injEq, Bool.and_eq_true, Bool.not_eq_true', beq_iff_eq]
    tauto

theorem creplyOp_shape : FnShape dCreplyOp eCreplyOp :=
  FnShape.of (fun _ _ _ => need7_ok) fun m f o w => by
    cases o
    simp only [eCreplyOp, packA_eq_iff, CreplyOp.mk.injEq, beq_iff_eq]
    tauto

theorem twaitOp_shape : FnShape dTwaitOp eTwaitOp :=
  FnShape.of (fun _ _ _ => need_ok) fun m f o w => by
    cases o
    simp only [eTwaitOp, packM_eq_iff, eq_fld5_iff, fS_eq_sX_iff, TwaitOp.mk.injEq, Bool.and_eq_true, beq_iff_eq]
    tauto

theorem mregOp_shape : FnShape dMregOp eMregOp :=
  FnShape.of (fun _ _ _ => need7_ok) fun m f o w => by
    cases o
    simp only [eMregOp, packA_eq_iff, eq_fld5_iff, eq_fldX_iff, MregOp.mk.injEq, Bool.and_eq_true, Bool.not_eq_true', beq_iff_eq]
    tauto

theorem x1_shape : FnShape dX1 eX1 :=
  FnShape.of (fun _ _ _ => need7_ok) fun m f o w => by
    cases o
    simp only [eX1, packA_eq_iff, eq_fldX_iff, X1.mk.injEq, Bool.and_eq_true, Bool.not_eq_true', beq_iff_eq]
    tauto

theorem gxOp_shape : FnShape dGxOp eGxOp :=
  FnShape.of (fun _ _ _ => need_ok) fun m f o w => by
    cases o
    simp only [eGxOp, packM_eq_iff, fS_eq_sX_iff, GxOp.mk.injEq, beq_iff_eq]
    tauto

theorem mropOp_shape : FnShape dMropOp eMropOp :=
  FnShape.of (fun _ _ _ => need7_ok) fun m f o w => by
    cases o
    simp only [eMropOp, packA_eq_iff, eq_fld5_iff, fD_eq_op_iff, MropOp.mk.injEq, Bool.and_eq_true, beq_iff_eq]
    tauto

theorem mrkOp_shape : FnShape dMrkOp eMrkOp :=
  FnShape.of (fun _ _ _ => need7_ok) fun m f o w => by
    cases o
    simp only [eMrkOp, packA_eq_iff, eq_fld5_iff, MrkOp.mk.injEq, Bool.and_eq_true]
    tauto

theorem mrcmpOp_shape : FnShape dMrcmpOp eMrcmpOp :=
  FnShape.of (fun _ _ _ => need7_ok) fun m f o w => by
    cases o
    simp only [eMrcmpOp, packA_eq_iff, eq_fld5_iff, fD_eq_mrcmp_iff, MrcmpOp.mk.injEq, Bool.and_eq_true]
    tauto

theorem holdOp_shape : FnShape dHoldOp eHoldOp :=
  FnShape.of (fun _ _ _ => need7_ok) fun m f o w => by
    cases o
    simp only [eHoldOp, packA_eq_iff, eq_fld5_iff, eq_fldX_iff, HoldOp.mk.injEq, Bool.and_eq_true, Bool.not_eq_true']
    tauto

theorem igbindOp_shape : FnShape dIgbindOp eIgbindOp :=
  FnShape.of (fun _ _ _ => need7_ok) fun m f o w => by
    cases o
    simp only [eIgbindOp, packA_eq_iff, eq_fld5_iff, eq_fldX_iff, IgbindOp.mk.injEq, Bool.and_eq_true, Bool.not_eq_true']
    tauto

theorem igretOp_shape : FnShape dIgretOp eIgretOp :=
  FnShape.of (fun _ _ _ => need7_ok) fun m f o w => by
    cases o
    simp only [eIgretOp, packA_eq_iff, eq_fld3_iff, IgretOp.mk.injEq, Bool.and_eq_true, Bool.not_eq_true', beq_iff_eq]
    tauto

theorem igqOp_shape : FnShape dIgqOp eIgqOp :=
  FnShape.of (fun _ _ _ => need_ok) fun m f o w => by
    cases o
    simp only [eIgqOp, packA_eq_iff, fB_eq_igq_iff, IgqOp.mk.injEq, Bool.and_eq_true, Bool.not_eq_true', beq_iff_eq]
    tauto

theorem igrdOp_shape : FnShape dIgrdOp eIgrdOp :=
  FnShape.of (fun _ _ _ => need_ok) fun m f o w => by
    cases o
    simp only [eIgrdOp, packA_eq_iff, eq_fld3_iff, IgrdOp.mk.injEq, Bool.and_eq_true, Bool.not_eq_true', beq_iff_eq]
    tauto

theorem igwrOp_shape : FnShape dIgwrOp eIgwrOp :=
  FnShape.of (fun _ _ _ => need_ok) fun m f o w => by
    cases o
    simp only [eIgwrOp, packA_eq_iff, eq_fld3_iff, IgwrOp.mk.injEq, Bool.and_eq_true, Bool.not_eq_true', beq_iff_eq]
    tauto

theorem svOp_shape : FnShape dSvOp eSvOp :=
  FnShape.of (fun _ _ _ => need_ok) fun m f o w => by
    cases o
    simp only [eSvOp, packA_eq_iff, eq_fld5_iff, SvOp.mk.injEq]
    tauto

theorem trapsOp_shape : FnShape dTrapsOp eTrapsOp :=
  FnShape.of (fun _ _ _ => need_ok) fun m f o w => by
    cases o
    simp only [eTrapsOp, packA_eq_iff, eq_fld5_iff, TrapsOp.mk.injEq, Bool.and_eq_true, Bool.not_eq_true', beq_iff_eq]
    tauto

/-- An instruction without operands has one word. -/
theorem zero_shape {i j : Instr} {m : BitVec 7} {f : BitVec 2} {w : Word} :
    (fMaj w = m ∧ fFn w = f ∧ dZero j w = .ok i) ↔ j = i ∧ eZero m f = w := by
  simp only [dZero, need7_ok, eZero, packA_eq_iff, Bool.and_eq_true, Bool.not_eq_true', beq_iff_eq]
  tauto

/-! ### Using a shape -/

section
variable {O : Type} {d : (O → Instr) → Word → Except Reject Instr} {k : O → Instr} {o : O} {m : BitVec 7} {f : BitVec 2} {w : Word}
  {i : Instr}

theorem FnShape.decodes {e : BitVec 7 → BitVec 2 → O → Word} (shape : FnShape d e)
    (hd : fMaj w = m → fFn w = f → decodeFields w = d k w) (h : some (e m f o) = some w) : decodeFields w = .ok (k o) := by
  obtain ⟨hm, hf, hr⟩ := (shape k m f w (k o)).mpr ⟨o, rfl, Option.some.inj h⟩
  exact (hd hm hf).trans hr

theorem FnShape.encodes {e : BitVec 7 → BitVec 2 → O → Word} (shape : FnShape d e) (hm : fMaj w = m) (hf : fFn w = f)
    (h : d k w = .ok i) (hk : ∀ o, encode (k o) = some (e m f o)) : encode i = some w := by
  obtain ⟨o, rfl, rfl⟩ := (shape k m f w i).mp ⟨hm, hf, h⟩
  exact hk o

theorem MajShape.decodes {e : BitVec 7 → O → Word} (shape : MajShape d e)
    (hd : fMaj w = m → decodeFields w = d k w) (h : some (e m o) = some w) : decodeFields w = .ok (k o) := by
  obtain ⟨hm, hr⟩ := (shape k m w (k o)).mpr ⟨o, rfl, Option.some.inj h⟩
  exact (hd hm).trans hr

theorem MajShape.encodes {e : BitVec 7 → O → Word} (shape : MajShape d e) (hm : fMaj w = m) (h : d k w = .ok i)
    (hk : ∀ o, encode (k o) = some (e m o)) : encode i = some w := by
  obtain ⟨o, rfl, rfl⟩ := (shape k m w i).mp ⟨hm, h⟩
  exact hk o

theorem zero_decodes {j : Instr} (hd : fMaj w = m → fFn w = f → decodeFields w = dZero j w) (h : some (eZero m f) = some w) :
    decodeFields w = .ok j := by
  obtain ⟨hm, hf, hr⟩ := zero_shape.mpr ⟨rfl, Option.some.inj h⟩
  exact (hd hm hf).trans hr

theorem zero_encodes {j : Instr} (hm : fMaj w = m) (hf : fFn w = f) (h : dZero j w = .ok i)
    (hj : encode j = some (eZero m f)) : encode i = some w := by
  obtain ⟨rfl, rfl⟩ := zero_shape.mp ⟨hm, hf, h⟩
  exact hj

end

end Sys2Proof
end

section
/-! SUPPORT. The opcode map (R74): what a major's reader reads is what the encoder has written, and every word of the encoder is read. -/

namespace Sys2Proof

variable {w : Word} {i : Instr}

theorem fn_cases : ∀ f : BitVec 2, f = 0 ∨ f = 1 ∨ f = 2 ∨ f = 3 := by decide

theorem decode00_encodes (hm : fMaj w = 0x00) (h : decode00 w = .ok i) : encode i = some w := by
  rcases fn_cases (fFn w) with hf | hf | hf | hf <;> rw [decode00, hf] at h
  exacts [v3_shape.encodes hm hf h fun _ => rfl, v3_shape.encodes hm hf h fun _ => rfl, v2_shape.encodes hm hf h fun _ => rfl,
    v3_shape.encodes hm hf h fun _ => rfl]

theorem decode01_encodes (hm : fMaj w = 0x01) (h : decode01 w = .ok i) : encode i = some w := by
  rcases fn_cases (fFn w) with hf | hf | hf | hf <;> rw [decode01, hf] at h
  all_goals exact v3_shape.encodes hm hf h fun _ => rfl

theorem decode02_encodes (hm : fMaj w = 0x02) (h : decode02 w = .ok i) : encode i = some w := by
  rcases fn_cases (fFn w) with hf | hf | hf | hf <;> rw [decode02, hf] at h
  all_goals exact v3_shape.encodes hm hf h fun _ => rfl

theorem decode03_encodes (hm : fMaj w = 0x03) (h : decode03 w = .ok i) : encode i = some w := by
  rcases fn_cases (fFn w) with hf | hf | hf | hf <;> rw [decode03, hf] at h
  exacts [v3_shape.encodes hm hf h fun _ => rfl, v3_shape.encodes hm hf h fun _ => rfl, v3_shape.encodes hm hf h fun _ => rfl,
    selOp_shape.encodes hm hf h fun _ => rfl]

theorem decode04_encodes (hm : fMaj w = 0x04) (h : decode04 w = .ok i) : encode i = some w := by
  rcases fn_cases (fFn w) with hf | hf | hf | hf <;> rw [decode04, hf] at h
  all_goals exact v3_shape.encodes hm hf h fun _ => rfl

theorem decode05_encodes (hm : fMaj w = 0x05) (h : decode05 w = .ok i) : encode i = some w := by
  rcases fn_cases (fFn w) with hf | hf | hf | hf <;> rw [decode05, hf] at h
  exacts [v2_shape.encodes hm hf h fun _ => rfl, v2_shape.encodes hm hf h fun _ => rfl, v2_shape.encodes hm hf h fun _ => rfl,
    (nomatch h)]

theorem decode06_encodes (hm : fMaj w = 0x06) (h : decode06 w = .ok i) : encode i = some w := by
  rcases fn_cases (fFn w) with hf | hf | hf | hf <;> rw [decode06, hf] at h
  exacts [v3_shape.encodes hm hf h fun _ => rfl, v3_shape.encodes hm hf h fun _ => rfl, v3_shape.encodes hm hf h fun _ => rfl,
    (nomatch h)]

theorem decode07_encodes (hm : fMaj w = 0x07) (h : decode07 w = .ok i) : encode i = some w := by
  rcases fn_cases (fFn w) with hf | hf | hf | hf <;> rw [decode07, hf] at h
  exacts [vCmp_shape.encodes hm hf h fun _ => rfl, vCmp_shape.encodes hm hf h fun _ => rfl, (nomatch h), (nomatch h)]

theorem decode08_encodes (hm : fMaj w = 0x08) (h : decode08 w = .ok i) : encode i = some w := by
  rcases fn_cases (fFn w) with hf | hf | hf | hf <;> rw [decode08, hf] at h
  all_goals exact p3_shape.encodes hm hf h fun _ => rfl

theorem decode09_encodes (hm : fMaj w = 0x09) (h : decode09 w = .ok i) : encode i = some w := by
  rcases fn_cases (fFn w) with hf | hf | hf | hf <;> rw [decode09, hf] at h
  exacts [v2_shape.encodes hm hf h fun _ => rfl, v1_shape.encodes hm hf h fun _ => rfl, (nomatch h), (nomatch h)]

theorem decode14_encodes (hm : fMaj w = 0x14) (h : decode14 w = .ok i) : encode i = some w := by
  rcases fn_cases (fFn w) with hf | hf | hf | hf <;> rw [decode14, hf] at h
  all_goals exact s3_shape.encodes hm hf h fun _ => rfl

theorem decode15_encodes (hm : fMaj w = 0x15) (h : decode15 w = .ok i) : encode i = some w := by
  rcases fn_cases (fFn w) with hf | hf | hf | hf <;> rw [decode15, hf] at h
  all_goals exact s3_shape.encodes hm hf h fun _ => rfl

theorem decode16_encodes (hm : fMaj w = 0x16) (h : decode16 w = .ok i) : encode i = some w := by
  rcases fn_cases (fFn w) with hf | hf | hf | hf <;> rw [decode16, hf] at h
  exacts [sCmp_shape.encodes hm hf h fun _ => rfl, sCmp_shape.encodes hm hf h fun _ => rfl, (nomatch h), (nomatch h)]

theorem decode17_encodes (hm : fMaj w = 0x17) (h : decode17 w = .ok i) : encode i = some w := by
  rcases fn_cases (fFn w) with hf | hf | hf | hf <;> rw [decode17, hf] at h
  exacts [s2_shape.encodes hm hf h fun _ => rfl, v2SOp_shape.encodes hm hf h fun _ => rfl, s2VOp_shape.encodes hm hf h fun _ => rfl,
    (nomatch h)]

theorem decode20_encodes (hm : fMaj w = 0x20) (h : decode20 w = .ok i) : encode i = some w := by
  rcases fn_cases (fFn w) with hf | hf | hf | hf <;> rw [decode20, hf] at h
  all_goals exact v3_shape.encodes hm hf h fun _ => rfl

theorem decode21_encodes (hm : fMaj w = 0x21) (h : decode21 w = .ok i) : encode i = some w := by
  rcases fn_cases (fFn w) with hf | hf | hf | hf <;> rw [decode21, hf] at h
  exacts [v3_shape.encodes hm hf h fun _ => rfl, v3_shape.encodes hm hf h fun _ => rfl, v2_shape.encodes hm hf h fun _ => rfl,
    (nomatch h)]

theorem decode22_encodes (hm : fMaj w = 0x22) (h : decode22 w = .ok i) : encode i = some w := by
  rcases fn_cases (fFn w) with hf | hf | hf | hf <;> rw [decode22, hf] at h
  exacts [vCmp_shape.encodes hm hf h fun _ => rfl, vCmp_shape.encodes hm hf h fun _ => rfl, (nomatch h), (nomatch h)]

theorem decode23_encodes (hm : fMaj w = 0x23) (h : decode23 w = .ok i) : encode i = some w := by
  rcases fn_cases (fFn w) with hf | hf | hf | hf <;> rw [decode23, hf] at h
  all_goals exact v3_shape.encodes hm hf h fun _ => rfl

theorem decode24_encodes (hm : fMaj w = 0x24) (h : decode24 w = .ok i) : encode i = some w := by
  rcases fn_cases (fFn w) with hf | hf | hf | hf <;> rw [decode24, hf] at h
  all_goals exact v3_shape.encodes hm hf h fun _ => rfl

theorem decode25_encodes (hm : fMaj w = 0x25) (h : decode25 w = .ok i) : encode i = some w := by
  rcases fn_cases (fFn w) with hf | hf | hf | hf <;> rw [decode25, hf] at h
  all_goals exact vN_shape.encodes hm hf h fun _ => rfl

theorem decode26_encodes (hm : fMaj w = 0x26) (h : decode26 w = .ok i) : encode i = some w := by
  rcases fn_cases (fFn w) with hf | hf | hf | hf <;> rw [decode26, hf] at h
  exacts [vN_shape.encodes hm hf h fun _ => rfl, vNCmp_shape.encodes hm hf h fun _ => rfl, (nomatch h), (nomatch h)]

theorem decode27_encodes (hm : fMaj w = 0x27) (h : decode27 w = .ok i) : encode i = some w := by
  rcases fn_cases (fFn w) with hf | hf | hf | hf <;> rw [decode27, hf] at h
  all_goals exact v2_shape.encodes hm hf h fun _ => rfl

theorem decode28_encodes (hm : fMaj w = 0x28) (h : decode28 w = .ok i) : encode i = some w := by
  rcases fn_cases (fFn w) with hf | hf | hf | hf <;> rw [decode28, hf] at h
  all_goals exact v2_shape.encodes hm hf h fun _ => rfl

theorem decode29_encodes (hm : fMaj w = 0x29) (h : decode29 w = .ok i) : encode i = some w := by
  rcases fn_cases (fFn w) with hf | hf | hf | hf <;> rw [decode29, hf] at h
  all_goals exact cvtOp_shape.encodes hm hf h fun _ => rfl

theorem decode2A_encodes (hm : fMaj w = 0x2A) (h : decode2A w = .ok i) : encode i = some w := by
  rcases fn_cases (fFn w) with hf | hf | hf | hf <;> rw [decode2A, hf] at h
  all_goals exact cvtnOp_shape.encodes hm hf h fun _ => rfl

theorem decode2B_encodes (hm : fMaj w = 0x2B) (h : decode2B w = .ok i) : encode i = some w := by
  rcases fn_cases (fFn w) with hf | hf | hf | hf <;> rw [decode2B, hf] at h
  all_goals exact v2_shape.encodes hm hf h fun _ => rfl

theorem decode2C_encodes (hm : fMaj w = 0x2C) (h : decode2C w = .ok i) : encode i = some w := by
  rcases fn_cases (fFn w) with hf | hf | hf | hf <;> rw [decode2C, hf] at h
  exacts [v3_shape.encodes hm hf h fun _ => rfl, v3_shape.encodes hm hf h fun _ => rfl, (nomatch h), (nomatch h)]

theorem decode30_encodes (hm : fMaj w = 0x30) (h : decode30 w = .ok i) : encode i = some w := by
  rcases fn_cases (fFn w) with hf | hf | hf | hf <;> rw [decode30, hf] at h
  all_goals exact v3_shape.encodes hm hf h fun _ => rfl

theorem decode31_encodes (hm : fMaj w = 0x31) (h : decode31 w = .ok i) : encode i = some w := by
  rcases fn_cases (fFn w) with hf | hf | hf | hf <;> rw [decode31, hf] at h
  exacts [voteOp_shape.encodes hm hf h fun _ => rfl, voteOp_shape.encodes hm hf h fun _ => rfl,
    voteBalOp_shape.encodes hm hf h fun _ => rfl, (nomatch h)]

theorem decode32_encodes (hm : fMaj w = 0x32) (h : decode32 w = .ok i) : encode i = some w := by
  rcases fn_cases (fFn w) with hf | hf | hf | hf <;> rw [decode32, hf] at h
  all_goals exact v2_shape.encodes hm hf h fun _ => rfl

theorem decode33_encodes (hm : fMaj w = 0x33) (h : decode33 w = .ok i) : encode i = some w := by
  rcases fn_cases (fFn w) with hf | hf | hf | hf <;> rw [decode33, hf] at h
  exacts [v2_shape.encodes hm hf h fun _ => rfl, v2_shape.encodes hm hf h fun _ => rfl, gP_shape.encodes hm hf h fun _ => rfl,
    s2_shape.encodes hm hf h fun _ => rfl]

theorem decode37_encodes (hm : fMaj w = 0x37) (h : decode37 w = .ok i) : encode i = some w := by
  rcases fn_cases (fFn w) with hf | hf | hf | hf <;> rw [decode37, hf] at h
  exacts [zero_encodes hm hf h rfl, s1_shape.encodes hm hf h fun _ => rfl, gOnly_shape.encodes hm hf h fun _ => rfl,
    zero_encodes hm hf h rfl]

theorem decode38_encodes (hm : fMaj w = 0x38) (h : decode38 w = .ok i) : encode i = some w := by
  rcases fn_cases (fFn w) with hf | hf | hf | hf <;> rw [decode38, hf] at h
  exacts [gOnly_shape.encodes hm hf h fun _ => rfl, zero_encodes hm hf h rfl, zero_encodes hm hf h rfl,
    gOnly_shape.encodes hm hf h fun _ => rfl]

theorem decode47_encodes (hm : fMaj w = 0x47) (h : decode47 w = .ok i) : encode i = some w := by
  rcases fn_cases (fFn w) with hf | hf | hf | hf <;> rw [decode47, hf] at h
  exacts [sD_shape.encodes hm hf h fun _ => rfl, s1_shape.encodes hm hf h fun _ => rfl, waitcOp_shape.encodes hm hf h fun _ => rfl,
    (nomatch h)]

theorem decode4A_encodes (hm : fMaj w = 0x4A) (h : decode4A w = .ok i) : encode i = some w := by
  rcases fn_cases (fFn w) with hf | hf | hf | hf <;> rw [decode4A, hf] at h
  exacts [phaseOp_shape.encodes hm hf h fun _ => rfl, zero_encodes hm hf h rfl, barOp_shape.encodes hm hf h fun _ => rfl, (nomatch h)]

theorem decode4B_encodes (hm : fMaj w = 0x4B) (h : decode4B w = .ok i) : encode i = some w := by
  rcases fn_cases (fFn w) with hf | hf | hf | hf <;> rw [decode4B, hf] at h
  exacts [rangeOp_shape.encodes hm hf h fun _ => rfl, rangeOp_shape.encodes hm hf h fun _ => rfl,
    rangeOp_shape.encodes hm hf h fun _ => rfl, (nomatch h)]

theorem decode4D_encodes (hm : fMaj w = 0x4D) (h : decode4D w = .ok i) : encode i = some w := by
  rcases fn_cases (fFn w) with hf | hf | hf | hf <;> rw [decode4D, hf] at h
  exacts [mzeroOp_shape.encodes hm hf h fun _ => rfl, mrdOp_shape.encodes hm hf h fun _ => rfl, sS_shape.encodes hm hf h fun _ => rfl,
    sD_shape.encodes hm hf h fun _ => rfl]

theorem decode50_encodes (hm : fMaj w = 0x50) (h : decode50 w = .ok i) : encode i = some w := by
  rcases fn_cases (fFn w) with hf | hf | hf | hf <;> rw [decode50, hf] at h
  all_goals exact aopOp_shape.encodes hm hf h fun _ => rfl

theorem decode51_encodes (hm : fMaj w = 0x51) (h : decode51 w = .ok i) : encode i = some w := by
  rcases fn_cases (fFn w) with hf | hf | hf | hf <;> rw [decode51, hf] at h
  all_goals exact aopOp_shape.encodes hm hf h fun _ => rfl

theorem decode53_encodes (hm : fMaj w = 0x53) (h : decode53 w = .ok i) : encode i = some w := by
  rcases fn_cases (fFn w) with hf | hf | hf | hf <;> rw [decode53, hf] at h
  exacts [cbatchOp_shape.encodes hm hf h fun _ => rfl, creplyOp_shape.encodes hm hf h fun _ => rfl, zero_encodes hm hf h rfl,
    twaitOp_shape.encodes hm hf h fun _ => rfl]

theorem decode54_encodes (hm : fMaj w = 0x54) (h : decode54 w = .ok i) : encode i = some w := by
  rcases fn_cases (fFn w) with hf | hf | hf | hf <;> rw [decode54, hf] at h
  exacts [mregOp_shape.encodes hm hf h fun _ => rfl, (nomatch h), (nomatch h), (nomatch h)]

theorem decode55_encodes (hm : fMaj w = 0x55) (h : decode55 w = .ok i) : encode i = some w := by
  rcases fn_cases (fFn w) with hf | hf | hf | hf <;> rw [decode55, hf] at h
  all_goals exact zero_encodes hm hf h rfl

theorem decode56_encodes (hm : fMaj w = 0x56) (h : decode56 w = .ok i) : encode i = some w := by
  rcases fn_cases (fFn w) with hf | hf | hf | hf <;> rw [decode56, hf] at h
  exacts [x1_shape.encodes hm hf h fun _ => rfl, x1_shape.encodes hm hf h fun _ => rfl, sS_shape.encodes hm hf h fun _ => rfl,
    s2_shape.encodes hm hf h fun _ => rfl]

theorem decode57_encodes (hm : fMaj w = 0x57) (h : decode57 w = .ok i) : encode i = some w := by
  rcases fn_cases (fFn w) with hf | hf | hf | hf <;> rw [decode57, hf] at h
  exacts [gxOp_shape.encodes hm hf h fun _ => rfl, gxOp_shape.encodes hm hf h fun _ => rfl, (nomatch h), (nomatch h)]

theorem decode58_encodes (hm : fMaj w = 0x58) (h : decode58 w = .ok i) : encode i = some w := by
  rcases fn_cases (fFn w) with hf | hf | hf | hf <;> rw [decode58, hf] at h
  exacts [s2_shape.encodes hm hf h fun _ => rfl, s1_shape.encodes hm hf h fun _ => rfl, rangeOp_shape.encodes hm hf h fun _ => rfl,
    rangeOp_shape.encodes hm hf h fun _ => rfl]

theorem decode59_encodes (hm : fMaj w = 0x59) (h : decode59 w = .ok i) : encode i = some w := by
  rcases fn_cases (fFn w) with hf | hf | hf | hf <;> rw [decode59, hf] at h
  exacts [mropOp_shape.encodes hm hf h fun _ => rfl, mrkOp_shape.encodes hm hf h fun _ => rfl,
    mrkOp_shape.encodes hm hf h fun _ => rfl, mrcmpOp_shape.encodes hm hf h fun _ => rfl]

theorem decode5A_encodes (hm : fMaj w = 0x5A) (h : decode5A w = .ok i) : encode i = some w := by
  rcases fn_cases (fFn w) with hf | hf | hf | hf <;> rw [decode5A, hf] at h
  exacts [s3_shape.encodes hm hf h fun _ => rfl, (nomatch h), (nomatch h), (nomatch h)]

theorem decode5B_encodes (hm : fMaj w = 0x5B) (h : decode5B w = .ok i) : encode i = some w := by
  rcases fn_cases (fFn w) with hf | hf | hf | hf <;> rw [decode5B, hf] at h
  exacts [holdOp_shape.encodes hm hf h fun _ => rfl, sS_shape.encodes hm hf h fun _ => rfl, s1_shape.encodes hm hf h fun _ => rfl,
    s1_shape.encodes hm hf h fun _ => rfl]

theorem decode5C_encodes (hm : fMaj w = 0x5C) (h : decode5C w = .ok i) : encode i = some w := by
  rcases fn_cases (fFn w) with hf | hf | hf | hf <;> rw [decode5C, hf] at h
  exacts [s1_shape.encodes hm hf h fun _ => rfl, (nomatch h), (nomatch h), (nomatch h)]

theorem decode5D_encodes (hm : fMaj w = 0x5D) (h : decode5D w = .ok i) : encode i = some w := by
  rcases fn_cases (fFn w) with hf | hf | hf | hf <;> rw [decode5D, hf] at h
  exacts [igbindOp_shape.encodes hm hf h fun _ => rfl, zero_encodes hm hf h rfl, igretOp_shape.encodes hm hf h fun _ => rfl,
    zero_encodes hm hf h rfl]

theorem decode5E_encodes (hm : fMaj w = 0x5E) (h : decode5E w = .ok i) : encode i = some w := by
  rcases fn_cases (fFn w) with hf | hf | hf | hf <;> rw [decode5E, hf] at h
  exacts [igqOp_shape.encodes hm hf h fun _ => rfl, igrdOp_shape.encodes hm hf h fun _ => rfl,
    igwrOp_shape.encodes hm hf h fun _ => rfl, (nomatch h)]

theorem decode5F_encodes (hm : fMaj w = 0x5F) (h : decode5F w = .ok i) : encode i = some w := by
  rcases fn_cases (fFn w) with hf | hf | hf | hf <;> rw [decode5F, hf] at h
  exacts [svOp_shape.encodes hm hf h fun _ => rfl, svOp_shape.encodes hm hf h fun _ => rfl, sS_shape.encodes hm hf h fun _ => rfl,
    s3_shape.encodes hm hf h fun _ => rfl]

theorem decode60_encodes (hm : fMaj w = 0x60) (h : decode60 w = .ok i) : encode i = some w := by
  rcases fn_cases (fFn w) with hf | hf | hf | hf <;> rw [decode60, hf] at h
  exacts [trapsOp_shape.encodes hm hf h fun _ => rfl, zero_encodes hm hf h rfl, zero_encodes hm hf h rfl,
    rangeOp_shape.encodes hm hf h fun _ => rfl]

theorem decode61_encodes (hm : fMaj w = 0x61) (h : decode61 w = .ok i) : encode i = some w := by
  rcases fn_cases (fFn w) with hf | hf | hf | hf <;> rw [decode61, hf] at h
  exacts [rangeOp_shape.encodes hm hf h fun _ => rfl, (nomatch h), (nomatch h), (nomatch h)]

/-! ### The hint words (R69 to R71) -/

theorem eHimmOp_eq_iff {o : HimmOp} : eHimmOp o = w ↔ fMaj w = 0x7F ∧ fG w = 0 ∧ w.extractLsb' 0 22 = o.v := packB_eq_iff

theorem eHschedOp_eq_iff {o : HschedOp} : eHschedOp o = w ↔ fMaj w = 0x7F ∧ fG w = 1 ∧
    ((w.extractLsb' 20 2 = o.l2p ∧ w.getLsbD 19 = o.burst) ∧ w.extractLsb' 16 3 = o.space) ∧ w.extractLsb' 0 16 = 0 := by
  have hb := slice_eq_append (w := w) (x := o.l2p ++ BitVec.ofBool o.burst) (y := o.space) 16 3 3
  rw [slice_eq_append 19 2 1, slice_eq_ofBool] at hb
  exact packB_eq_iff.trans (and_congr_right' (and_congr_right' ((slice_eq_append 0 6 16).trans (and_congr_left' hb))))

theorem eHmodOp_eq_iff {o : HmodOp} : eHmodOp o = w ↔ fMaj w = 0x7F ∧ fG w = 2 ∧
    (((((w.extractLsb' 19 3 = o.rnd ∧ w.getLsbD 18 = o.dw) ∧ w.getLsbD 17 = o.u) ∧ w.getLsbD 16 = o.sat) ∧ w.extractLsb' 14 2 = o.l1)
      ∧ w.getLsbD 13 = o.na) ∧ w.extractLsb' 0 13 = 0 := by
  have hb := slice_eq_append (w := w)
    (x := o.rnd ++ BitVec.ofBool o.dw ++ BitVec.ofBool o.u ++ BitVec.ofBool o.sat ++ o.l1) (y := BitVec.ofBool o.na) 13 8 1
  rw [slice_eq_ofBool, slice_eq_append 14 6 2, slice_eq_append 16 5 1, slice_eq_ofBool, slice_eq_append 17 4 1, slice_eq_ofBool,
    slice_eq_append 18 3 1, slice_eq_ofBool] at hb
  exact packB_eq_iff.trans (and_congr_right' (and_congr_right' ((slice_eq_append 0 9 13).trans (and_congr_left' hb))))

theorem decode7F_encodes (hm : fMaj w = 0x7F) (h : decode7F w = .ok i) : encode i = some w := by
  unfold decode7F at h
  split at h
  · next hg =>
    cases h
    exact congrArg some (eHimmOp_eq_iff.mpr ⟨hm, BitVec.eq_of_toNat_eq hg, rfl⟩)
  · next hg =>
    obtain ⟨hz, rfl⟩ := need_ok.mp h
    exact congrArg some (eHschedOp_eq_iff.mpr ⟨hm, BitVec.eq_of_toNat_eq hg, ⟨⟨rfl, rfl⟩, rfl⟩, beq_iff_eq.mp hz⟩)
  · next hg =>
    obtain ⟨hz, rfl⟩ := need_ok.mp h
    exact congrArg some (eHmodOp_eq_iff.mpr ⟨hm, BitVec.eq_of_toNat_eq hg, ⟨⟨⟨⟨⟨rfl, rfl⟩, rfl⟩, rfl⟩, rfl⟩, rfl⟩, beq_iff_eq.mp hz⟩)
  · cases h

theorem decodeFields_7F (hm : fMaj w = 0x7F) : decodeFields w = decode7F w := by
  rw [decodeFields, hm]
  rfl

/-! ### The map as a whole -/

theorem major_eq {n : Nat} (hm : (fMaj w).toNat = n) : fMaj w = BitVec.ofNat 7 n := by
  rw [← hm, BitVec.ofNat_toNat, BitVec.setWidth_eq]

/-- The encoder gives back the word that the core's decoder has read: no bit of it is dropped (R62, R74). -/
theorem decodeFields_encodes (h : decodeFields w = .ok i) : encode i = some w := by
  unfold decodeFields at h
  split at h <;> rename_i hm
  exacts [decode00_encodes (major_eq hm) h, decode01_encodes (major_eq hm) h, decode02_encodes (major_eq hm) h,
    decode03_encodes (major_eq hm) h, decode04_encodes (major_eq hm) h, decode05_encodes (major_eq hm) h,
    decode06_encodes (major_eq hm) h, decode07_encodes (major_eq hm) h, decode08_encodes (major_eq hm) h,
    decode09_encodes (major_eq hm) h, vI_shape.encodes (major_eq hm) h fun _ => rfl, vI_shape.encodes (major_eq hm) h fun _ => rfl,
    vI_shape.encodes (major_eq hm) h fun _ => rfl, vI_shape.encodes (major_eq hm) h fun _ => rfl,
    vMovI_shape.encodes (major_eq hm) h fun _ => rfl, vCmpI_shape.encodes (major_eq hm) h fun _ => rfl,
    vShI_shape.encodes (major_eq hm) h fun _ => rfl, vShI_shape.encodes (major_eq hm) h fun _ => rfl,
    vShI_shape.encodes (major_eq hm) h fun _ => rfl, decode14_encodes (major_eq hm) h, decode15_encodes (major_eq hm) h,
    decode16_encodes (major_eq hm) h, decode17_encodes (major_eq hm) h, sI_shape.encodes (major_eq hm) h fun _ => rfl,
    sMovI_shape.encodes (major_eq hm) h fun _ => rfl, sMovI_shape.encodes (major_eq hm) h fun _ => rfl,
    swr_shape.encodes (major_eq hm) h fun _ => rfl, decode20_encodes (major_eq hm) h, decode21_encodes (major_eq hm) h,
    decode22_encodes (major_eq hm) h, decode23_encodes (major_eq hm) h, decode24_encodes (major_eq hm) h,
    decode25_encodes (major_eq hm) h, decode26_encodes (major_eq hm) h, decode27_encodes (major_eq hm) h,
    decode28_encodes (major_eq hm) h, decode29_encodes (major_eq hm) h, decode2A_encodes (major_eq hm) h,
    decode2B_encodes (major_eq hm) h, decode2C_encodes (major_eq hm) h, frwOp_shape.encodes (major_eq hm) h fun _ => rfl,
    decode30_encodes (major_eq hm) h, decode31_encodes (major_eq hm) h, decode32_encodes (major_eq hm) h,
    decode33_encodes (major_eq hm) h, brOp_shape.encodes (major_eq hm) h fun _ => rfl,
    brOp_shape.encodes (major_eq hm) h fun _ => rfl, callOp_shape.encodes (major_eq hm) h fun _ => rfl,
    decode37_encodes (major_eq hm) h, decode38_encodes (major_eq hm) h, loopOp_shape.encodes (major_eq hm) h fun _ => rfl,
    memOp_shape.encodes (major_eq hm) h fun _ => rfl, memOp_shape.encodes (major_eq hm) h fun _ => rfl,
    spOp_shape.encodes (major_eq hm) h fun _ => rfl, spOp_shape.encodes (major_eq hm) h fun _ => rfl,
    tensorOp_shape.encodes (major_eq hm) h fun _ => rfl, tensorOp_shape.encodes (major_eq hm) h fun _ => rfl,
    cptOp_shape.encodes (major_eq hm) h fun _ => rfl, decode47_encodes (major_eq hm) h,
    prefOp_shape.encodes (major_eq hm) h fun _ => rfl, shsetOp_shape.encodes (major_eq hm) h fun _ => rfl,
    decode4A_encodes (major_eq hm) h, decode4B_encodes (major_eq hm) h, mmaOp_shape.encodes (major_eq hm) h fun _ => rfl,
    decode4D_encodes (major_eq hm) h, decode50_encodes (major_eq hm) h, decode51_encodes (major_eq hm) h,
    callmOp_shape.encodes (major_eq hm) h fun _ => rfl, decode53_encodes (major_eq hm) h, decode54_encodes (major_eq hm) h,
    decode55_encodes (major_eq hm) h, decode56_encodes (major_eq hm) h, decode57_encodes (major_eq hm) h,
    decode58_encodes (major_eq hm) h, decode59_encodes (major_eq hm) h, decode5A_encodes (major_eq hm) h,
    decode5B_encodes (major_eq hm) h, decode5C_encodes (major_eq hm) h, decode5D_encodes (major_eq hm) h,
    decode5E_encodes (major_eq hm) h, decode5F_encodes (major_eq hm) h, decode60_encodes (major_eq hm) h,
    decode61_encodes (major_eq hm) h, decode7F_encodes (major_eq hm) h, (nomatch h)]

/-- The core's decoder reads back every word of the encoder that is not a stratum form's (R62, R74). -/
theorem decodes_of_encode (hs : stratumForm i = false) (h : encode i = some w) : decodeFields w = .ok i := by
  cases i
  case iadd o | isub o | andn o => exact v3_shape.decodes (fun hm hf => by rw [decodeFields, hm, decode00, hf]; rfl) h
  case iabs o => exact v2_shape.decodes (fun hm hf => by rw [decodeFields, hm, decode00, hf]; rfl) h
  case iminS o | iminU o | imaxS o | imaxU o => exact v3_shape.decodes (fun hm hf => by rw [decodeFields, hm, decode01, hf]; rfl) h
  case imulLo o | imulHiS o | imulHiU o | imad o =>
    exact v3_shape.decodes (fun hm hf => by rw [decodeFields, hm, decode02, hf]; rfl) h
  case and o | or o | xor o => exact v3_shape.decodes (fun hm hf => by rw [decodeFields, hm, decode03, hf]; rfl) h
  case sel o => exact selOp_shape.decodes (fun hm hf => by rw [decodeFields, hm, decode03, hf]; rfl) h
  case shl o | shr o | sar o | rot o => exact v3_shape.decodes (fun hm hf => by rw [decodeFields, hm, decode04, hf]; rfl) h
  case popc o | clz o | brev o => exact v2_shape.decodes (fun hm hf => by rw [decodeFields, hm, decode05, hf]; rfl) h
  case bfxU o | bfxS o | bfi o => exact v3_shape.decodes (fun hm hf => by rw [decodeFields, hm, decode06, hf]; rfl) h
  case icmpS o | icmpU o => exact vCmp_shape.decodes (fun hm hf => by rw [decodeFields, hm, decode07, hf]; rfl) h
  case plogAnd o | plogOr o | plogXor o | plogAndn o =>
    exact p3_shape.decodes (fun hm hf => by rw [decodeFields, hm, decode08, hf]; rfl) h
  case mov o => exact v2_shape.decodes (fun hm hf => by rw [decodeFields, hm, decode09, hf]; rfl) h
  case movSp o => exact v1_shape.decodes (fun hm hf => by rw [decodeFields, hm, decode09, hf]; rfl) h
  case iaddi o => exact vI_shape.decodes (fun hm => by rw [decodeFields, hm]; rfl) h
  case andi o => exact vI_shape.decodes (fun hm => by rw [decodeFields, hm]; rfl) h
  case ori o => exact vI_shape.decodes (fun hm => by rw [decodeFields, hm]; rfl) h
  case xori o => exact vI_shape.decodes (fun hm => by rw [decodeFields, hm]; rfl) h
  case movi o => exact vMovI_shape.decodes (fun hm => by rw [decodeFields, hm]; rfl) h
  case icmpi o => exact vCmpI_shape.decodes (fun hm => by rw [decodeFields, hm]; rfl) h
  case shli o => exact vShI_shape.decodes (fun hm => by rw [decodeFields, hm]; rfl) h
  case shri o => exact vShI_shape.decodes (fun hm => by rw [decodeFields, hm]; rfl) h
  case sari o => exact vShI_shape.decodes (fun hm => by rw [decodeFields, hm]; rfl) h
  case sadd o | ssub o | smul o | sand o => exact s3_shape.decodes (fun hm hf => by rw [decodeFields, hm, decode14, hf]; rfl) h
  case sor o | sxor o | sshl o | sshr o => exact s3_shape.decodes (fun hm hf => by rw [decodeFields, hm, decode15, hf]; rfl) h
  case scmpS o | scmpU o => exact sCmp_shape.decodes (fun hm hf => by rw [decodeFields, hm, decode16, hf]; rfl) h
  case smov o => exact s2_shape.decodes (fun hm hf => by rw [decodeFields, hm, decode17, hf]; rfl) h
  case v2s o => exact v2SOp_shape.decodes (fun hm hf => by rw [decodeFields, hm, decode17, hf]; rfl) h
  case s2v o => exact s2VOp_shape.decodes (fun hm hf => by rw [decodeFields, hm, decode17, hf]; rfl) h
  case saddi o => exact sI_shape.decodes (fun hm => by rw [decodeFields, hm]; rfl) h
  case smovi o => exact sMovI_shape.decodes (fun hm => by rw [decodeFields, hm]; rfl) h
  case srd o => exact sMovI_shape.decodes (fun hm => by rw [decodeFields, hm]; rfl) h
  case swr o => exact swr_shape.decodes (fun hm => by rw [decodeFields, hm]; rfl) h
  case fadd o | fsub o | fmul o | ffma o => exact v3_shape.decodes (fun hm hf => by rw [decodeFields, hm, decode20, hf]; rfl) h
  case fmin o | fmax o => exact v3_shape.decodes (fun hm hf => by rw [decodeFields, hm, decode21, hf]; rfl) h
  case fclass o => exact v2_shape.decodes (fun hm hf => by rw [decodeFields, hm, decode21, hf]; rfl) h
  case fcmp o | fcmpUo o => exact vCmp_shape.decodes (fun hm hf => by rw [decodeFields, hm, decode22, hf]; rfl) h
  case haddBf o | hmulBf o | hfmaBf o | hmaxBf o =>
    exact v3_shape.decodes (fun hm hf => by rw [decodeFields, hm, decode23, hf]; rfl) h
  case haddF16 o | hmulF16 o | hfmaF16 o | hmaxF16 o =>
    exact v3_shape.decodes (fun hm hf => by rw [decodeFields, hm, decode24, hf]; rfl) h
  case nadd o | nmul o | nfma o | nmax o => exact vN_shape.decodes (fun hm hf => by rw [decodeFields, hm, decode25, hf]; rfl) h
  case nmin o => exact vN_shape.decodes (fun hm hf => by rw [decodeFields, hm, decode26, hf]; rfl) h
  case ncmp o => exact vNCmp_shape.decodes (fun hm hf => by rw [decodeFields, hm, decode26, hf]; rfl) h
  case rcp o | rsq o | sqrt o | tanh o => exact v2_shape.decodes (fun hm hf => by rw [decodeFields, hm, decode27, hf]; rfl) h
  case ex2 o | lg2 o | sinp o | cosp o => exact v2_shape.decodes (fun hm hf => by rw [decodeFields, hm, decode28, hf]; rfl) h
  case cvtRne o | cvtRtz o | cvtSr o | cvt o => exact cvtOp_shape.decodes (fun hm hf => by rw [decodeFields, hm, decode29, hf]; rfl) h
  case cvtnRne o | cvtnRtz o | cvtnSr o | cvtn o =>
    exact cvtnOp_shape.decodes (fun hm hf => by rw [decodeFields, hm, decode2A, hf]; rfl) h
  case i2fS o | i2fU o | f2iS o | f2iU o => exact v2_shape.decodes (fun hm hf => by rw [decodeFields, hm, decode2B, hf]; rfl) h
  case plx o | pld o => exact v3_shape.decodes (fun hm hf => by rw [decodeFields, hm, decode2C, hf]; rfl) h
  case frw o => exact frwOp_shape.decodes (fun hm => by rw [decodeFields, hm]; rfl) h
  case shflIdx o | shflXor o | shflUp o | shflDn o =>
    exact v3_shape.decodes (fun hm hf => by rw [decodeFields, hm, decode30, hf]; rfl) h
  case voteAny o | voteAll o => exact voteOp_shape.decodes (fun hm hf => by rw [decodeFields, hm, decode31, hf]; rfl) h
  case voteBal o => exact voteBalOp_shape.decodes (fun hm hf => by rw [decodeFields, hm, decode31, hf]; rfl) h
  case rlogIadd o | rlogImaxS o | rlogFadd o | rlogFmax o =>
    exact v2_shape.decodes (fun hm hf => by rw [decodeFields, hm, decode32, hf]; rfl) h
  case scanIadd o | scanFadd o => exact v2_shape.decodes (fun hm hf => by rw [decodeFields, hm, decode33, hf]; rfl) h
  case elect o => exact gP_shape.decodes (fun hm hf => by rw [decodeFields, hm, decode33, hf]; rfl) h
  case mskrd o => exact s2_shape.decodes (fun hm hf => by rw [decodeFields, hm, decode33, hf]; rfl) h
  case br o => exact brOp_shape.decodes (fun hm => by rw [decodeFields, hm]; rfl) h
  case brAll o => exact brOp_shape.decodes (fun hm => by rw [decodeFields, hm]; rfl) h
  case call o => exact callOp_shape.decodes (fun hm => by rw [decodeFields, hm]; rfl) h
  case ret | nop =>
    exact zero_decodes (fun hm hf => by rw [decodeFields, hm, decode37, hf]; rfl) h
  case jmp o => exact s1_shape.decodes (fun hm hf => by rw [decodeFields, hm, decode37, hf]; rfl) h
  case exit o => exact gOnly_shape.decodes (fun hm hf => by rw [decodeFields, hm, decode37, hf]; rfl) h
  case ifP o | brk o => exact gOnly_shape.decodes (fun hm hf => by rw [decodeFields, hm, decode38, hf]; rfl) h
  case elseP | endif =>
    exact zero_decodes (fun hm hf => by rw [decodeFields, hm, decode38, hf]; rfl) h
  case loop o => exact loopOp_shape.decodes (fun hm => by rw [decodeFields, hm]; rfl) h
  case ld o => exact memOp_shape.decodes (fun hm => by rw [decodeFields, hm]; rfl) h
  case st o => exact memOp_shape.decodes (fun hm => by rw [decodeFields, hm]; rfl) h
  case lds o => exact spOp_shape.decodes (fun hm => by rw [decodeFields, hm]; rfl) h
  case sts o => exact spOp_shape.decodes (fun hm => by rw [decodeFields, hm]; rfl) h
  case ldt o => exact tensorOp_shape.decodes (fun hm => by rw [decodeFields, hm]; rfl) h
  case stt o => exact tensorOp_shape.decodes (fun hm => by rw [decodeFields, hm]; rfl) h
  case cpt o => exact cptOp_shape.decodes (fun hm => by rw [decodeFields, hm]; rfl) h
  case cpseal o => exact sD_shape.decodes (fun hm hf => by rw [decodeFields, hm, decode47, hf]; rfl) h
  case cpwait o => exact s1_shape.decodes (fun hm hf => by rw [decodeFields, hm, decode47, hf]; rfl) h
  case waitc o => exact waitcOp_shape.decodes (fun hm hf => by rw [decodeFields, hm, decode47, hf]; rfl) h
  case pref o => exact prefOp_shape.decodes (fun hm => by rw [decodeFields, hm]; rfl) h
  case shset o => exact shsetOp_shape.decodes (fun hm => by rw [decodeFields, hm]; rfl) h
  case phase o => exact phaseOp_shape.decodes (fun hm hf => by rw [decodeFields, hm, decode4A, hf]; rfl) h
  case fence =>
    exact zero_decodes (fun hm hf => by rw [decodeFields, hm, decode4A, hf]; rfl) h
  case bar o => exact barOp_shape.decodes (fun hm hf => by rw [decodeFields, hm, decode4A, hf]; rfl) h
  case cleanr o | invr o | flushr o => exact rangeOp_shape.decodes (fun hm hf => by rw [decodeFields, hm, decode4B, hf]; rfl) h
  case mma o => exact mmaOp_shape.decodes (fun hm => by rw [decodeFields, hm]; rfl) h
  case mzero o => exact mzeroOp_shape.decodes (fun hm hf => by rw [decodeFields, hm, decode4D, hf]; rfl) h
  case mrd o => exact mrdOp_shape.decodes (fun hm hf => by rw [decodeFields, hm, decode4D, hf]; rfl) h
  case msts o => exact sS_shape.decodes (fun hm hf => by rw [decodeFields, hm, decode4D, hf]; rfl) h
  case mstat o => exact sD_shape.decodes (fun hm hf => by rw [decodeFields, hm, decode4D, hf]; rfl) h
  case aopAdd o | aopMin o | aopMax o | aopXchg o =>
    exact aopOp_shape.decodes (fun hm hf => by rw [decodeFields, hm, decode50, hf]; rfl) h
  case aopAnd o | aopOr o | aopXor o | aopCas o =>
    exact aopOp_shape.decodes (fun hm hf => by rw [decodeFields, hm, decode51, hf]; rfl) h
  case callm o => exact callmOp_shape.decodes (fun hm => by rw [decodeFields, hm]; rfl) h
  case cbatch o => exact cbatchOp_shape.decodes (fun hm hf => by rw [decodeFields, hm, decode53, hf]; rfl) h
  case creply o => exact creplyOp_shape.decodes (fun hm hf => by rw [decodeFields, hm, decode53, hf]; rfl) h
  case cdone =>
    exact zero_decodes (fun hm hf => by rw [decodeFields, hm, decode53, hf]; rfl) h
  case twait o => exact twaitOp_shape.decodes (fun hm hf => by rw [decodeFields, hm, decode53, hf]; rfl) h
  case mreg o => exact mregOp_shape.decodes (fun hm hf => by rw [decodeFields, hm, decode54, hf]; rfl) h
  case trig | waitdep | yield | joink =>
    exact zero_decodes (fun hm hf => by rw [decodeFields, hm, decode55, hf]; rfl) h
  case launch o | postc o => exact x1_shape.decodes (fun hm hf => by rw [decodeFields, hm, decode56, hf]; rfl) h
  case rput o => exact sS_shape.decodes (fun hm hf => by rw [decodeFields, hm, decode56, hf]; rfl) h
  case rget o => exact s2_shape.decodes (fun hm hf => by rw [decodeFields, hm, decode56, hf]; rfl) h
  case gx o | sx o => exact gxOp_shape.decodes (fun hm hf => by rw [decodeFields, hm, decode57, hf]; rfl) h
  case mron o => exact s2_shape.decodes (fun hm hf => by rw [decodeFields, hm, decode58, hf]; rfl) h
  case mroff o => exact s1_shape.decodes (fun hm hf => by rw [decodeFields, hm, decode58, hf]; rfl) h
  case mrld o | mrst o => exact rangeOp_shape.decodes (fun hm hf => by rw [decodeFields, hm, decode58, hf]; rfl) h
  case mrop o => exact mropOp_shape.decodes (fun hm hf => by rw [decodeFields, hm, decode59, hf]; rfl) h
  case mradd o | mrmul o => exact mrkOp_shape.decodes (fun hm hf => by rw [decodeFields, hm, decode59, hf]; rfl) h
  case mrcmp o => exact mrcmpOp_shape.decodes (fun hm hf => by rw [decodeFields, hm, decode59, hf]; rfl) h
  case mrred o => exact s3_shape.decodes (fun hm hf => by rw [decodeFields, hm, decode5A, hf]; rfl) h
  case hold o => exact holdOp_shape.decodes (fun hm hf => by rw [decodeFields, hm, decode5B, hf]; rfl) h
  case hset o => exact sS_shape.decodes (fun hm hf => by rw [decodeFields, hm, decode5B, hf]; rfl) h
  case hdem o | hpro o => exact s1_shape.decodes (fun hm hf => by rw [decodeFields, hm, decode5B, hf]; rfl) h
  case hrel o => exact s1_shape.decodes (fun hm hf => by rw [decodeFields, hm, decode5C, hf]; rfl) h
  case igbind o => exact igbindOp_shape.decodes (fun hm hf => by rw [decodeFields, hm, decode5D, hf]; rfl) h
  case igrun | igstop =>
    exact zero_decodes (fun hm hf => by rw [decodeFields, hm, decode5D, hf]; rfl) h
  case igret o => exact igretOp_shape.decodes (fun hm hf => by rw [decodeFields, hm, decode5D, hf]; rfl) h
  case igq o => exact igqOp_shape.decodes (fun hm hf => by rw [decodeFields, hm, decode5E, hf]; rfl) h
  case igrd o => exact igrdOp_shape.decodes (fun hm hf => by rw [decodeFields, hm, decode5E, hf]; rfl) h
  case igwr o => exact igwrOp_shape.decodes (fun hm hf => by rw [decodeFields, hm, decode5E, hf]; rfl) h
  case svput o | svget o => exact svOp_shape.decodes (fun hm hf => by rw [decodeFields, hm, decode5F, hf]; rfl) h
  case svrel o => exact sS_shape.decodes (fun hm hf => by rw [decodeFields, hm, decode5F, hf]; rfl) h
  case svdrop o => exact s3_shape.decodes (fun hm hf => by rw [decodeFields, hm, decode5F, hf]; rfl) h
  case traps o => exact trapsOp_shape.decodes (fun hm hf => by rw [decodeFields, hm, decode60, hf]; rfl) h
  case tret | bkpt =>
    exact zero_decodes (fun hm hf => by rw [decodeFields, hm, decode60, hf]; rfl) h
  case synci o => exact rangeOp_shape.decodes (fun hm hf => by rw [decodeFields, hm, decode60, hf]; rfl) h
  case tlbinv o => exact rangeOp_shape.decodes (fun hm hf => by rw [decodeFields, hm, decode61, hf]; rfl) h
  case himm o =>
    cases o
    obtain ⟨hm, hg, rfl⟩ := eHimmOp_eq_iff.mp (Option.some.inj h)
    rw [decodeFields_7F hm, decode7F, hg]
    rfl
  case hsched o =>
    cases o
    obtain ⟨hm, hg, ⟨⟨rfl, rfl⟩, rfl⟩, hz⟩ := eHschedOp_eq_iff.mp (Option.some.inj h)
    rw [decodeFields_7F hm, decode7F, hg]
    exact need_ok.mpr ⟨beq_iff_eq.mpr hz, rfl⟩
  case hmod o =>
    cases o
    obtain ⟨hm, hg, ⟨⟨⟨⟨⟨rfl, rfl⟩, rfl⟩, rfl⟩, rfl⟩, rfl⟩, hz⟩ := eHmodOp_eq_iff.mp (Option.some.inj h)
    rw [decodeFields_7F hm, decode7F, hg]
    exact need_ok.mpr ⟨beq_iff_eq.mpr hz, rfl⟩
  case stratumLd | stratumSt | stratumLoop => cases hs
  all_goals cases h

theorem decode_ok_iff : decode w = .ok i ↔ decodeFields w = .ok i ∧ i.wf = true := by
  unfold decode
  cases decodeFields w with
  | error r => simp
  | ok j =>
    by_cases hj : j.wf = true
    · simp only [hj, if_true, Except.ok.injEq]
      exact ⟨fun e => ⟨e, e ▸ hj⟩, fun e => e.1⟩
    · simp only [hj, if_false, reduceCtorEq, false_iff, Except.ok.injEq, Bool.false_eq_true]
      rintro ⟨rfl, hi⟩
      exact hj hi

/-! ### The forms of a stratum wavefront (R86, R321) -/

theorem eq_low_iff {f : BitVec 6} {r : BitVec 4} : f = 0#2 ++ r ↔ lowReg f = true ∧ f.setWidth 4 = r := by
  have read : ∀ r : BitVec 4, lowReg (0#2 ++ r) = true ∧ (0#2 ++ r).setWidth 4 = r := by decide
  have write : ∀ f, lowReg f = true → f = 0#2 ++ f.setWidth 4 := by decide
  exact ⟨fun h => h ▸ read r, fun ⟨h, hr⟩ => hr ▸ write f h⟩

theorem setWidth_low {f : BitVec 6} (h : lowReg f = true) : (f.setWidth 4).setWidth 6 = f := by
  revert f
  decide

theorem eStrMem_eq_iff {m : BitVec 7} {o : StrMem} : eStrMem m o = w ↔ fMaj w = m ∧ fG w = o.g ∧
    (lowReg (fD w) = true ∧ (fD w).setWidth 4 = o.d) ∧ (lowReg (fA w) = true ∧ (fA w).setWidth 4 = o.a) ∧ fS w = 0 ∧ fWm w = o.w
      ∧ fFn w = 0 := by
  rw [eStrMem, packM_eq_iff, eq_low_iff, eq_low_iff]

theorem eStrLoop_eq_iff {o : StrLoop} : eStrLoop o = w ↔ fMaj w = 0x39 ∧ fG w = 7 ∧ fD w = 0 ∧
    (lowReg (fA w) = true ∧ (fA w).setWidth 4 = o.a) ∧ fImm w = o.len := by
  rw [eStrLoop, packI_eq_iff, eq_low_iff]

/-- A wavefront's decoder reads back the words of its own forms. -/
theorem decodeStratum_of_encode (hwf : i.wf = true) (hs : stratumForm i = true) (h : encode i = some w) : decodeStratum w = .ok i := by
  cases i
  case stratumLd o =>
    cases o
    obtain ⟨hm, rfl, ⟨hd, rfl⟩, ⟨ha, rfl⟩, hS, rfl, hf⟩ := eStrMem_eq_iff.mp (Option.some.inj h)
    rw [Instr.wf, setWidth_low hd] at hwf
    simp [decodeStratum, inSubset, stratumEBits, hm, hd, ha, hS, hf, hwf]
  case stratumSt o =>
    cases o
    obtain ⟨hm, rfl, ⟨hd, rfl⟩, ⟨ha, rfl⟩, hS, rfl, hf⟩ := eStrMem_eq_iff.mp (Option.some.inj h)
    rw [Instr.wf, setWidth_low hd] at hwf
    simp [decodeStratum, inSubset, stratumEBits, hm, hd, ha, hS, hf, hwf]
  case stratumLoop o =>
    cases o
    obtain ⟨hm, hg, hd, ⟨ha, rfl⟩, rfl⟩ := eStrLoop_eq_iff.mp (Option.some.inj h)
    rw [Instr.wf] at hwf
    simp [decodeStratum, inSubset, stratumEBits, hm, hg, hd, ha, hwf]
  all_goals cases hs

/-- The encoder gives back the word that a wavefront's decoder has read. -/
theorem decodeStratum_encodes (h : decodeStratum w = .ok i) : encode i = some w ∧ i.wf = true := by
  unfold decodeStratum at h
  split at h
  · cases h
  split at h
  · cases h
  split at h <;> rename_i hm
  · split_ifs at h with hfixed hok hlow
    cases h
    simp only [Bool.not_eq_true', Bool.or_eq_true, bne_iff_ne, not_or, not_not, Bool.not_eq_false, Bool.and_eq_true] at hfixed hok hlow
    exact ⟨congrArg some (eStrMem_eq_iff.mpr ⟨major_eq hm, rfl, ⟨hlow.1, rfl⟩, ⟨hlow.2, rfl⟩, hfixed.1, rfl, hfixed.2⟩),
      (congrArg (okLoadW · _) (setWidth_low hlow.1)).trans hok⟩
  · split_ifs at h with hfixed hok hlow
    cases h
    simp only [Bool.not_eq_true', Bool.or_eq_true, bne_iff_ne, not_or, not_not, Bool.not_eq_false, Bool.and_eq_true] at hfixed hok hlow
    exact ⟨congrArg some (eStrMem_eq_iff.mpr ⟨major_eq hm, rfl, ⟨hlow.1, rfl⟩, ⟨hlow.2, rfl⟩, hfixed.1, rfl, hfixed.2⟩),
      (congrArg (okStoreW · _) (setWidth_low hlow.1)).trans hok⟩
  · split_ifs at h with hlow hfixed
    cases h
    simp only [Bool.not_eq_true', Bool.or_eq_true, bne_iff_ne, not_or, not_not, Bool.not_eq_false] at hlow hfixed
    obtain ⟨⟨hg, hd⟩, hlen⟩ := hfixed
    exact ⟨congrArg some (eStrLoop_eq_iff.mpr ⟨major_eq hm, hg, hd, ⟨hlow, rfl⟩, rfl⟩), hlen⟩
  · split at h
    · cases h
    · next hdec =>
      split_ifs at h
      cases h
      obtain ⟨hr, hwf⟩ := decode_ok_iff.mp hdec
      exact ⟨decodeFields_encodes hr, hwf⟩

end Sys2Proof
end

section
/-! SUPPORT. The decoder and the encoder undo each other, and words of the spec's tables (R62, R63, R74 to R83, R86, R427). -/

namespace Sys2Proof

/-- Settles O59: every reader of R74's map and its writer name the same words, so decoding undoes encoding and encoding undoes decoding. -/
theorem roundTrip : Obligations.RoundTrip := by
  unfold Obligations.RoundTrip
  refine ⟨fun i w hwf h => ⟨fun hs => ?_, fun hs => ?_⟩, fun i w => ⟨fun h => ?_, decodeStratum_encodes⟩⟩
  · exact decode_ok_iff.mpr ⟨decodes_of_encode hs h, hwf⟩
  · exact decodeStratum_of_encode hwf hs h
  · obtain ⟨hr, hwf⟩ := decode_ok_iff.mp h
    exact ⟨decodeFields_encodes hr, hwf⟩

theorem decode_eq_of_encode {i : Instr} {w : Word} (hwf : i.wf = true) (hs : stratumForm i = false) (h : encode i = some w) :
    decode w = .ok i := (roundTrip.1 i w hwf h).1 hs

/-- Settles O58: the words that are instructions are those the encoder gives them; the refused ones break a rule of their own reader. -/
theorem decodeWords : Obligations.DecodeWords := by
  unfold Obligations.DecodeWords
  refine ⟨?_, ?_, ?_, ?_, ?_, ?_, ?_, ?_, ?_, ?_, ?_, ?_, ?_, ?_, ?_⟩
  iterate 14 exact decode_eq_of_encode rfl rfl rfl
  decide

end Sys2Proof
end

section
/-! SUPPORT. The mask stack of a stratum wavefront (R86, R119, R122, R321, R323): where the statement of its faults fails. -/

namespace Sys2Proof.Machine

/-- The one block run of channel 0. -/
def channelRun : BlockRun := { graph := 0, node := 0, va := 0, pa := 0, index := 0, buffer := [], issued := 0 }

/-- A wavefront of channel 0 in its block run, with sixteen ELSE entries on its mask stack: R86 gives it four, but neither `Ready` nor the
statement bounds the stack. -/
def deepWavefront : State :=
  { State.reset with
    team := { Team.absent with
      kind := .stratum, stage := .resident,
      ctl := { Team.absent.ctl with stack := List.replicate 16 { mask := 0, kind := .elseK } } },
    strat := { State.reset.strat with current := [(0, channelRun)] } }

theorem deepWavefront_ready : Ready .elseP deepWavefront :=
  ⟨rfl, nofun, nofun, nofun, nofun, nofun, nofun, nofun, nofun, nofun, nofun, nofun, nofun⟩

/-- In the detail word of a group 3 trap the stack depth stands below the reason: sixteen entries carry into it. -/
theorem deepWavefront_reason : stratumReason (trap3 deepWavefront.team 2 0) = 3 := by decide

theorem exec_deepWavefront : exec .elseP deepWavefront = .next (stratumFault (noteIssue deepWavefront) 3) := by
  have ht : trapBefore (noteIssue deepWavefront) (trap3 deepWavefront.team 2 0) = stratumFault (noteIssue deepWavefront) 3 := by
    rw [trapBefore_eq, takeTrap_stratum _ _ rfl, deepWavefront_reason]
  rw [← ht]
  change execElseP deepWavefront = _
  rw [execElseP, issue_ready deepWavefront_ready]
  rfl

/-- Refutes O16: ELSE over an ELSE entry is to be stratum fault 2, but on a wavefront with sixteen entries it is fault 3. -/
theorem not_ifElseEndif : ¬ Obligations.IfElseEndif := by
  unfold Obligations.IfElseEndif
  rintro ⟨-, hfault, -⟩
  obtain ⟨t, ht, -, -, -, -, -, p, hp, hreason⟩ := hfault .elseP deepWavefront channelRun deepWavefront_ready rfl rfl
    (.inr (.inl ⟨rfl, fun e st he => (List.cons.inj he).1 ▸ nofun⟩))
  rw [exec_deepWavefront] at ht
  cases ht
  have hbyte : (stratumFault (noteIssue deepWavefront) 3).host.events.map (fun x => x.payload.getD 0 0) = [3] := by decide
  rw [hp] at hbyte
  exact absurd (hreason.symm.trans (List.cons.inj hbyte).1) (by decide)

end Sys2Proof.Machine
end

section
/-! SUPPORT. What stands against the issue of a word (R67, R83, R85, R94), hint words and immediates (R68, R72, R73). -/
namespace Sys2Proof.Machine

/-- `o` is what the common checks make of `i` before some effect of its own. -/
def Issues (i : Instr) (s : State) (o : Host.Outcome State Fault Refusal) : Prop := ∃ effect, o = issue i s effect

section
variable {i : Instr} {s : State}

theorem issues_issue {e} : Issues i s (issue i s e) := ⟨e, rfl⟩
theorem vecOp_issues {g d f} : Issues i s (vecOp i g d f s) := issues_issue
theorem vec1_issues {o f} : Issues i s (vec1 i o f s) := vecOp_issues
theorem vec2_issues {o f} : Issues i s (vec2 i o f s) := vecOp_issues
theorem vecImm_issues {o b f} : Issues i s (vecImm i o b f s) := vecOp_issues
theorem shfl_issues {o f} : Issues i s (shfl i o f s) := vecOp_issues
theorem predOp_issues {g p f} : Issues i s (predOp i g p f s) := issues_issue
theorem plog_issues {o f} : Issues i s (plog i o f s) := predOp_issues
theorem scalarOp_issues {d f} : Issues i s (scalarOp i d f s) := issues_issue
theorem scal2_issues {o f} : Issues i s (scal2 i o f s) := scalarOp_issues
theorem scmp_issues {o f} : Issues i s (scmp i o f s) := issues_issue
theorem fpOp_issues {g d f} : Issues i s (fpOp i g d f s) := issues_issue
theorem fp3_issues {o c f} : Issues i s (fp3 i o c f s) := fpOp_issues
theorem fpExact_issues {o c f} : Issues i s (fpExact i o c f s) := issues_issue
theorem fcmpOp_issues {o b} : Issues i s (fcmpOp i o b s) := issues_issue
theorem spfn_issues {o g} : Issues i s (spfn i o g s) := fpOp_issues
theorem i2fOp_issues {o b} : Issues i s (i2fOp i o b s) := fpOp_issues
theorem f2iOp_issues {o lo hi} : Issues i s (f2iOp i o lo hi s) := fpOp_issues
theorem nOp_issues {r f} : Issues i s (nOp i r f s) := issues_issue
theorem n3_issues {o b f} : Issues i s (n3 i o b f s) := nOp_issues
theorem cvtOp_issues {o m} : Issues i s (cvtOp i o m s) := issues_issue
theorem cvtnOp_issues {o m} : Issues i s (cvtnOp i o m s) := nOp_issues
theorem rlog_issues {o f w} : Issues i s (rlog i o f w s) := issues_issue
theorem scan_issues {o f w} : Issues i s (scan i o f w s) := issues_issue
theorem maintOp_issues {o k} : Issues i s (maintOp i o k s) := issues_issue
theorem aop_issues {o k} : Issues i s (aop i o k s) := issues_issue
theorem marlMove_issues {o c} : Issues i s (marlMove i o c s) := issues_issue
theorem queueHr_issues {o k} : Issues i s (queueHr i o k s) := issues_issue
end
theorem exec_issues {i : Instr} {s : State} (h : (encode i).isSome) (hh : isHint i = false) (hs : stratumForm i = false) :
    Issues i s (exec i s) := by
  cases i with dsimp only [exec]
  | iadd | isub | imad | sel | bfi | movSp | iaddi | movi | shli | shri | sari | s2v => exact vecOp_issues
  | iabs | popc | clz | brev | mov => exact vec1_issues
  | andn | iminS | iminU | imaxS | imaxU | imulLo | imulHiS | imulHiU | and | or | xor | shl | shr | sar | rot | bfxU | bfxS =>
    exact vec2_issues
  | icmpS | icmpU | icmpi => exact predOp_issues
  | plogAnd | plogOr | plogXor | plogAndn => exact plog_issues
  | andi | ori | xori => exact vecImm_issues
  | sadd | ssub | smul | sand | sor | sxor | sshl | sshr => exact scal2_issues
  | scmpS | scmpU => exact scmp_issues
  | smov | v2s | saddi | smovi | voteBal | mskrd => exact scalarOp_issues
  | fadd | fsub | fmul | ffma | haddBf | hmulBf | hfmaBf | haddF16 | hmulF16 | hfmaF16 => exact fp3_issues
  | fmin | fmax | hmaxBf | hmaxF16 => exact fpExact_issues
  | fcmp | fcmpUo => exact fcmpOp_issues
  | nadd | nmul | nfma | nmax | nmin => exact n3_issues
  | rcp | rsq | sqrt | tanh | ex2 | lg2 | sinp | cosp => exact spfn_issues
  | cvtRne | cvtRtz | cvtSr | cvt => exact cvtOp_issues
  | cvtnRne | cvtnRtz | cvtnSr | cvtn => exact cvtnOp_issues
  | i2fS | i2fU => exact i2fOp_issues
  | f2iS | f2iU => exact f2iOp_issues
  | shflIdx | shflXor | shflUp | shflDn => exact shfl_issues
  | rlogIadd | rlogImaxS | rlogFadd | rlogFmax => exact rlog_issues
  | scanIadd | scanFadd => exact scan_issues
  | cleanr | invr | flushr => exact maintOp_issues
  | aopAdd | aopMin | aopMax | aopXchg | aopAnd | aopOr | aopXor | aopCas => exact aop_issues
  | mrld | mrst => exact marlMove_issues
  | hdem | hpro | hrel => exact queueHr_issues
  | himm | hsched | hmod => exact nomatch hh
  | ncmp => exact nOp_issues
  | srd | swr | fclass | plx | pld | frw | voteAny | voteAll | elect | br | brAll | call | ret | jmp | exit | nop | ifP | elseP | endif |
    brk | loop | ld | st | lds | sts | ldt | stt | cpt | cpseal | cpwait | waitc | pref | shset | phase | fence | bar | mma | mzero |
    mrd | msts | mstat | callm | cbatch | creply | cdone | twait | mreg | trig | waitdep | yield | joink | launch | postc | rput | rget |
    gx | sx | mron | mroff | mrop | mradd | mrmul | mrcmp | mrred | hold | hset | igbind | igrun | igret | igstop | igq | igrd | igwr |
    svput | svget | svrel | svdrop | traps | tret | bkpt | synci | tlbinv => exact issues_issue
  | stratumLd | stratumSt | stratumLoop => exact nomatch hs
  | graphUpload | graphRemove | trigger | instanceBegin | nodeLaunch | nodeComplete | externalWaitWake | externalWaitTimeout |
    hostSignalAck | stratumBlockRun | gridRetire | gangPlacement | gangWaitLimit | teamRestore | continuationConvert |
    continuationResume | continuationTargetTimeout | taskEnd | producerComplete | futureWake | copyComplete | matrixCmdStart |
    matrixCmdRetire | publicationCommit | entryResolve | maintenanceComplete | sxAck | marlCmdComplete | residencyComplete |
    vertexRequestArrival | combineAtomic | twaitWake | routineCall | igrunComplete | deadlineExpiry | priorityBoost | yieldTimeout |
    hschedSpaceExpiry | vxcfgEnable | vxcfgDisable | svcmdOpen | svcmdClose | svdrain | srcomp | firsterrClear | registerWrite |
    hostWindowRead | hostWindowWrite | peerWrite | getMeasurements | memoryKeyInstall | startLogRead | managementStart | coreFailure |
    powerThrottle | placementHold | hbmBankTest | linkFlitRetry | powerBelowCap | fqtailWrite | srtailWrite | getVersion |
    getCapabilities | negotiateAlgorithms | getDigests | getCertificate | challenge | keyExchange | finish | endSession => exact nomatch h

/-! ### What stands against the issue of a word, check by check -/

section
variable {i : Instr} {s : State}

/-- A vector register of the word stands at or above V (R67). -/
def HighReg (i : Instr) (s : State) : Prop :=
  (∃ x ∈ (usesNow i s).vs, s.team.rf.nv ≤ x.1) ∨ ∃ r ∈ (usesNow i s).vd, s.team.rf.nv ≤ r

/-- The pending hint run, if there is one, suits the word (R73). -/
def HintsSuit (i : Instr) (s : State) : Prop := ∀ run, s.team.ctl.hints = some run → hintsOk run i = true

theorem highReg_iff : HighReg i s ↔ (((usesNow i s).vs.map fun x => x.1).any (fun r => decide (s.team.rf.nv ≤ r))
    || (usesNow i s).vd.any (fun r => decide (s.team.rf.nv ≤ r))) = true := by
  simp [HighReg]

theorem wordReason_bad (hb : aopBadD (hmodOf s.team).dw i = true) : wordReason s.team (usesNow i s) i = some 5 := by
  simp only [wordReason, hb, ↓reduceIte]

theorem wordReason_high (hb : aopBadD (hmodOf s.team).dw i = false) (hv : HighReg i s) :
    wordReason s.team (usesNow i s) i = some 6 := by
  simp only [wordReason, hb, highReg_iff.mp hv, ↓reduceIte, Bool.false_eq_true]

theorem wordReason_low (hb : aopBadD (hmodOf s.team).dw i = false) (hv : ¬HighReg i s) :
    wordReason s.team (usesNow i s) i = match s.team.ctl.hints with
      | none => none
      | some run => if hintsOk run i then none else some 7 := by
  rw [highReg_iff, Bool.not_eq_true] at hv
  simp only [wordReason, hb, hv, ↓reduceIte, Bool.false_eq_true] <;> rfl

theorem wordReason_unsuited (hb : aopBadD (hmodOf s.team).dw i = false) (hv : ¬HighReg i s) {run : HintRun}
    (hr : s.team.ctl.hints = some run) (hn : hintsOk run i = false) : wordReason s.team (usesNow i s) i = some 7 := by
  rw [wordReason_low hb hv, hr]
  simp [hn]

theorem wordReason_none (hb : aopBadD (hmodOf s.team).dw i = false) (hv : ¬HighReg i s) (hr : HintsSuit i s) :
    wordReason s.team (usesNow i s) i = none := by
  rw [wordReason_low hb hv]
  cases hh : s.team.ctl.hints with
  | none => rfl
  | some run => simp [hr run hh]

theorem gate_of_reason {r : Nat} (h : wordReason s.team (usesNow i s) i = some r) :
    gate s i = some (.trap (trap1 s.team r ((encode i).getD 0))) := by
  unfold usesNow at h
  unfold gate
  simp only [h]

/-- The empty registers of a word whose other checks pass: a source whose E-bit is 1 traps, the others wait (R94). -/
def emptyGate (s : State) (i : Instr) : Option Result :=
  match (usesNow i s).vs.find? fun x => x.2 && !vIsFull s.team x.1 with
  | some x => some (.trap (trap2 s.team false x.1))
  | none =>
    match (usesNow i s).ss.find? fun x => x.2 && !sIsFull s.team x.1 with
    | some x => some (.trap (trap2 s.team true x.1))
    | none =>
      if ((usesNow i s).vs.all fun x => vIsFull s.team x.1) && ((usesNow i s).ss.all fun x => sIsFull s.team x.1)
          && ((usesNow i s).vd.all fun r => vIsFull s.team r) && ((usesNow i s).sd.all fun r => sIsFull s.team r)
          && !((usesNow i s).vd.any fun r => (matrixReads s s.team).contains r) then none
      else some (.wait .operand)

theorem gate_of_words (h : wordReason s.team (usesNow i s) i = none) :
    gate s i = if needsPriv i && !privileged s.team then some (.trap (trap5 6 none 0))
      else if s.team.kind == .wave && waveForbids i then some (.trap (trap11 s.team 3 none 0))
      else if s.team.kind != .wave && waveOnly i then some (.trap (trap11 s.team 2 none 0))
      else if inRoutine s s.team && routineForbids i then some (.trap (trap10 s.team 6 (s.team.locus.getD 0) none 0))
      else emptyGate s i := by
  unfold usesNow at h
  unfold gate
  simp only [h] <;> rfl

/-- The team may issue the word: it has the privilege, and neither its kind nor a routine it is in forbids the word (R85, R262, R366). -/
def MayIssue (i : Instr) (s : State) : Prop :=
  (needsPriv i = true → privileged s.team = true) ∧ (s.team.kind = .wave → waveForbids i = false)
    ∧ (waveOnly i = true → s.team.kind = .wave) ∧ (inRoutine s s.team = true → routineForbids i = false)

theorem gate_of_mayIssue (h : wordReason s.team (usesNow i s) i = none) (hm : MayIssue i s) : gate s i = emptyGate s i := by
  obtain ⟨hp, hw, ho, hr⟩ := hm
  rw [gate_of_words h, if_neg (by simpa using hp), if_neg (by simpa using hw), if_neg (by simpa using mt ho),
    if_neg (by simpa using hr)]

/-- Among the sources of a word, the first empty one whose E-bit is 1. -/
theorem find_eBit {xs : List (Nat × Bool)} {full : Nat → Bool} (h : ∃ x ∈ xs, x.2 = true ∧ full x.1 = false) :
    ∃ x ∈ xs, x.2 = true ∧ full x.1 = false ∧ xs.find? (fun x => x.2 && !full x.1) = some x := by
  obtain ⟨x, hx⟩ := Option.isSome_iff_exists.mp (List.find?_isSome (p := fun x : Nat × Bool => x.2 && !full x.1) |>.mpr (by simpa using h))
  have hp := List.find?_some hx
  simp only [Bool.and_eq_true, Bool.not_eq_true'] at hp
  exact ⟨x, List.mem_of_find?_eq_some hx, hp.1, hp.2, hx⟩

theorem find_eBit_none {xs : List (Nat × Bool)} {full : Nat → Bool} (h : ¬∃ x ∈ xs, x.2 = true ∧ full x.1 = false) :
    xs.find? (fun x => x.2 && !full x.1) = none := by
  rw [List.find?_eq_none]
  exact fun x hx hp => h ⟨x, hx, by simpa using hp⟩

theorem emptyGate_vec (h : ∃ x ∈ (usesNow i s).vs, x.2 = true ∧ vIsFull s.team x.1 = false) :
    ∃ x ∈ (usesNow i s).vs, x.2 = true ∧ vIsFull s.team x.1 = false ∧ emptyGate s i = some (.trap (trap2 s.team false x.1)) := by
  obtain ⟨x, hx, h1, h2, hf⟩ := find_eBit h
  exact ⟨x, hx, h1, h2, by simp only [emptyGate, hf]⟩

theorem emptyGate_scalar (hv : ¬∃ x ∈ (usesNow i s).vs, x.2 = true ∧ vIsFull s.team x.1 = false)
    (h : ∃ x ∈ (usesNow i s).ss, x.2 = true ∧ sIsFull s.team x.1 = false) :
    ∃ x ∈ (usesNow i s).ss, x.2 = true ∧ sIsFull s.team x.1 = false ∧ emptyGate s i = some (.trap (trap2 s.team true x.1)) := by
  obtain ⟨x, hx, h1, h2, hf⟩ := find_eBit h
  exact ⟨x, hx, h1, h2, by simp only [emptyGate, find_eBit_none hv, hf]⟩

theorem emptyGate_wait (hv : ¬∃ x ∈ (usesNow i s).vs, x.2 = true ∧ vIsFull s.team x.1 = false)
    (hs : ¬∃ x ∈ (usesNow i s).ss, x.2 = true ∧ sIsFull s.team x.1 = false)
    (h : (∃ x ∈ (usesNow i s).vs, vIsFull s.team x.1 = false) ∨ (∃ x ∈ (usesNow i s).ss, sIsFull s.team x.1 = false)
      ∨ (∃ r ∈ (usesNow i s).vd, vIsFull s.team r = false) ∨ ∃ r ∈ (usesNow i s).sd, sIsFull s.team r = false) :
    emptyGate s i = some (.wait .operand) := by
  simp only [emptyGate, find_eBit_none hv, find_eBit_none hs]
  rw [if_neg]
  simp only [Bool.and_eq_true, List.all_eq_true]
  rintro ⟨⟨⟨⟨f1, f2⟩, f3⟩, f4⟩, -⟩
  obtain ⟨x, hx, e⟩ | ⟨x, hx, e⟩ | ⟨r, hr, e⟩ | ⟨r, hr, e⟩ := h
  · exact absurd (f1 x hx) (by simp [e])
  · exact absurd (f2 x hx) (by simp [e])
  · exact absurd (f3 r hr) (by simp [e])
  · exact absurd (f4 r hr) (by simp [e])

theorem Issues.trap {o : Host.Outcome State Fault Refusal} {tr : Trap} (h : Issues i s o) (hg : gate s i = some (.trap tr)) :
    o = .next (trapBefore (noteIssue s) tr) := by
  obtain ⟨e, rfl⟩ := h
  simp only [issue, hg]

theorem Issues.hold {o : Host.Outcome State Fault Refusal} {why : Why} (h : Issues i s o) (hg : gate s i = some (.wait why)) :
    o = .next (hold s why) := by
  obtain ⟨e, rfl⟩ := h
  simp only [issue, hg]

end

theorem issueOrder : IssueOrderClaim := by
  refine ⟨fun i w s hw hh hs hk => ?_, fun i => ?_, fun s hr hn => ?_⟩
  · have hi : Issues i s (exec i s) := exec_issues (by simp [hw]) hh hs
    have word : ∀ r, wordReason s.team (usesNow i s) i = some r → exec i s = .next (trapBefore (noteIssue s) (trap1 s.team r w)) :=
      fun r h => hi.trap (by rw [gate_of_reason h, hw]; rfl)
    refine ⟨fun hb => word 5 (wordReason_bad hb), fun hb => ⟨fun hv => word 6 (wordReason_high hb hv), fun hv =>
      ⟨fun run hr hn => word 7 (wordReason_unsuited hb hv hr hn), fun hr => ?_⟩⟩⟩
    have hg := gate_of_words (wordReason_none hb hv hr)
    have hm := gate_of_mayIssue (wordReason_none hb hv hr)
    refine ⟨fun hp hu => ?_, fun hp hw hf => ?_, fun hp hc ho => ?_, fun hp hc ho hin hf => ?_, fun ha he => ?_, fun ha hv he => ?_,
      fun ha hv hs he => ?_⟩
    · exact hi.trap (by simp [hg, hp, hu])
    · exact hi.trap (by simp [hg, hp, hw, hf])
    · exact hi.trap (by simp [hg, hp, hc, ho])
    · exact hi.trap (by simp [hg, hp, hc, ho, hin, hf])
    · obtain ⟨x, hx, h1, h2, h3⟩ := emptyGate_vec he
      exact ⟨x, hx, h1, h2, hi.trap ((hm ha).trans h3)⟩
    · obtain ⟨x, hx, h1, h2, h3⟩ := emptyGate_scalar hv he
      exact ⟨x, hx, h1, h2, hi.trap ((hm ha).trans h3)⟩
    · exact hi.hold ((hm ha).trans (emptyGate_wait hv hs he))
  · constructor
    · intro h
      unfold needsPriv at h
      split at h
      · exact .inl ⟨_, rfl⟩
      · exact .inr ⟨_, rfl⟩
      · cases h
    · rintro (⟨o, rfl⟩ | ⟨o, rfl⟩) <;> rfl
  · change execTret s = _
    have hn' : (noteIssue s).team.handler = none := hn
    rw [execTret, issue_ready hr]
    simp only [hn']

/-! ### Hint words and the immediates they complete -/

/-- The pending hint run of a team, or the one that the word at its program counter opens (R73). -/
def openRun (t : Team) : HintRun := t.ctl.hints.getD { first := t.ctl.pc, himm := none, hsched := none, hmod := none, twice := false }

/-- Issue keeps the world but the team in focus. -/
theorem worldKept_noteIssue (s : State) {u : Team} : WorldKept s ((noteIssue s).withTeam u) := worldKept_wentOn s u

theorem hintWord_answers (s : State) (f : HintRun → HintRun) (dup : HintRun → Bool) :
    ∃ t, hintWord s f dup = .next t ∧ OnlyControl s t { s.team.ctl with
      pc := nextPc s, hints := some { f (openRun s.team) with twice := (openRun s.team).twice || dup (openRun s.team) } } :=
  ⟨_, rfl, worldKept_noteIssue s, ⟨rfl, rfl, rfl, rfl, rfl, rfl, rfl, rfl, rfl, rfl, rfl, rfl, rfl, rfl, rfl, rfl, rfl⟩,
    ⟨rfl, rfl, fun _ _ _ => rfl, fun _ _ => rfl, fun _ _ => rfl, rfl, rfl, rfl, rfl, rfl, rfl⟩, rfl, rfl, rfl, fun _ _ _ _ _ _ => rfl⟩

theorem hintWords : HintWordsClaim := by
  rintro s i run old (⟨o, rfl, rfl⟩ | ⟨o, rfl, rfl⟩ | ⟨o, rfl, rfl⟩)
  · exact hintWord_answers s (fun h => { h with himm := some o }) fun h => h.himm.isSome
  · exact hintWord_answers s (fun h => { h with hsched := some o }) fun h => h.hsched.isSome
  · exact hintWord_answers s (fun h => { h with hmod := some o }) fun h => h.hmod.isSome

theorem immediates : ImmediatesClaim := by
  refine fun t imm => ⟨fun hn => ?_, fun h x signed hh hx => ?_⟩
  · simp only [immOf, hn, ↓reduceIte, Bool.false_eq_true]
    exact ⟨BitVec.toInt_signExtend_of_le (by decide), by rw [BitVec.toNat_setWidth]; omega⟩
  · simp only [immOf, hh, hx]
    rw [BitVec.toNat_append, ← Nat.shiftLeft_add_eq_or_of_lt imm.isLt, Nat.shiftLeft_eq]

/-- Settles O18: what the common checks at issue make of a word, one lemma for each check; a hint word meets none of them. -/
theorem issueAndHints : Obligations.IssueAndHints := by
  unfold Obligations.IssueAndHints
  exact ⟨hintWords, immediates, issueOrder⟩

end Sys2Proof.Machine
end

section
/-! SUPPORT. A load that fixes the snapshot point of a team with stale bytes (R211, R272): where the statement of loads fails. -/

namespace Sys2Proof.Machine

/-- A byte load of lane 0 from x0. -/
def firstByte : MemOp := { g := 7, d := 0, a := 0, s := 0, w := 0, cls := 0 }

/-- A team whose last acquire left it a byte 1 to read at address 0 in place of a home's write (R272), before its next read; the sector
has been written since. Page 0 is mapped, memory holds zeros. -/
def staleReader : State :=
  { State.reset with
    team := { Team.absent with
      stage := .resident,
      ctl := { Team.absent.ctl with mask := 1 },
      ver := { Version.fresh with stale := [(0, 0, 1)] } },
    ms := { MemSide.empty with stamp := 1, wrote := [(0, 1)], tlb := [{ core := 0, asid := 0, page := 0, size := 4096, pte := 5 }] } }

/-- The checked access of its one lane. -/
def firstAcc : LaneAcc :=
  { lane := 0, va := 0, pa := 0, via := .phase, key := 0, leaf := some { pte := 5, page := 0, size := 4096 } }

theorem staleReader_runs : Runs (.ld firstByte) staleReader :=
  ⟨rfl, by unfold Ready; decide, ⟨rfl, nofun⟩, by unfold Shaped; decide⟩

theorem staleReader_checked :
    checkLanes staleReader .read true (widthBytes firstByte.w)
      (laneAddrs staleReader.team firstByte.g (memAddr staleReader.team firstByte.s firstByte.a)) = .ok [firstAcc] := by
  decide +kernel

/-- What the byte at address 0 reads as in an answered state, and whether the L2 then holds its sector under key 0. -/
def readsAt (o : Host.Outcome State Fault Refusal) : Option (Byte × Bool) :=
  match o with
  | .next t => some (teamByte t 0 0, t.ms.l2.all fun x => x.num != 0 || x.key == 0)
  | _ => none

theorem readsAt_staleReader : readsAt (exec (.ld firstByte) staleReader) = some (0, true) := by decide +kernel

/-- Refutes O19: the first read after an acquire drops the stale bytes of the sectors written since (R272), so that the byte at address 0
no longer reads 1. The L2 is coherent: it is empty. -/
theorem not_loads : ¬ Obligations.Loads := by
  unfold Obligations.Loads
  rintro ⟨hld, -⟩
  obtain ⟨t, ht, -, -, ⟨-, -, hbytes⟩, -⟩ := hld firstByte staleReader [firstAcc] staleReader_runs (by decide) rfl
    (by unfold NoScatter; decide) staleReader_checked
  have hread := readsAt_staleReader
  rw [ht] at hread
  obtain ⟨hbyte, hkey⟩ := Prod.mk.inj (Option.some.inj hread)
  have hheld : KeyHeld t.ms 0 0 := fun x hx hn => by simpa [hn] using List.all_eq_true.mp hkey x hx
  have hsame := hbytes ⟨rfl, nofun⟩ 0 0 rfl nofun hheld
  exact absurd (hbyte.symm.trans hsame) (by decide)

end Sys2Proof.Machine
end
